-- ==== Sys2Proof/Word.lean ====
section
/-! DEFINITION. The words, bytes and small name types of the machine: what an instruction word names (types,
rounding modes, scopes, formats) and the sparse tables in which the state keeps its registers. -/

namespace Sys2Proof

/-- A register, an instruction word: 32 bits (R28, R11). -/
abbrev Word := BitVec 32
/-- A 64-bit operand, an even/odd pair (R14). -/
abbrev DWord := BitVec 64
abbrev Byte := BitVec 8
/-- A register field of an instruction word (R30). -/
abbrev Reg := BitVec 7
/-- A predicate number (R18). -/
abbrev PredNo := BitVec 3
/-- A set of the 32 lane positions of a gang: bit l is lane l (R140). -/
abbrev LaneSet := BitVec 32

/-- A sparse table: a list of (key, value) pairs. A key that is not listed has the value its reader names. -/
abbrev Tab (α : Type) := List (Nat × α)

/-! ## Names used by the instruction words -/

/-- TY of the integer majors (R83). -/
inductive IntTy where
  | i32 | n32 | i64 | n64 | i16 | n16 | i8 | n8
  deriving DecidableEq, Repr

/-- FT of the float majors (R118). -/
inductive FloatTy where
  | f32 | f64 | f16 | bf16 | f16x2 | bf16x2
  deriving DecidableEq, Repr

/-- Rounding codes of R70: nearest even, toward zero, down, up. -/
inductive Round where
  | rne | rz | rd | ru
  deriving DecidableEq, Repr

/-- Conditions of CMP (R96). -/
inductive Cond where
  | eq | ne | lt | le | gt | ge
  deriving DecidableEq, Repr

/-- Conditions of FCMP (R123). -/
inductive FCond where
  | eq | ne | lt | le | gt | ge | un | ord
  deriving DecidableEq, Repr

/-- Scalar formats of CVT and CVTSR (R128). -/
inductive CvtFmt where
  | f32 | f64 | f16 | bf16 | e5m2 | e4m3 | e2m1 | i4 | n4 | i8 | n8 | i16 | n16 | i32 | n32 | i64 | n64
  deriving DecidableEq, Repr

/-- Narrow formats of PACK and UNPACK (R131). -/
inductive NarrowFmt where
  | e4m3 | e5m2 | e3m2 | e2m3 | e2m1 | i8 | n8 | i4 | n4 | f16 | bf16
  deriving DecidableEq, Repr

/-- Element formats of the matrix words (R282). -/
inductive TileFmt where
  | e2m1 | e4m3 | e5m2 | e3m2 | e2m3 | i4 | i8 | bf16
  deriving DecidableEq, Repr

/-- Target formats of TSTORE (R291). -/
inductive StoreFmt where
  | f32 | bf16 | f16 | e4m3 | e5m2 | e2m1
  deriving DecidableEq, Repr

/-- FMT of DOT4, DOT6 and DOT8: the first, second or third format of the word's row in R135. -/
inductive DotFmt where
  | fmt0 | fmt1 | fmt2
  deriving DecidableEq, Repr

/-- MAP of SCALE (R134). -/
inductive ScaleMap where
  | byFt | m4 | m8 | m16
  deriving DecidableEq, Repr

/-- Kinds of RND (R138). -/
inductive RndKind where
  | n16 | n32 | n64 | f32
  deriving DecidableEq, Repr

/-- MODE of SHFL (R162). -/
inductive ShflMode where
  | idx | up | down | xor
  deriving DecidableEq, Repr

/-- Segment widths of SHFL, REDX and SCANX (R162). -/
inductive SegWidth where
  | w32 | w16 | w8 | w4 | w2
  deriving DecidableEq, Repr

/-- Partner distance of BFLY (R164). -/
inductive BflyK where
  | k1 | k2 | k4 | k8 | k16
  deriving DecidableEq, Repr

/-- MODE of VOTE (R165). -/
inductive VoteMode where
  | ballot | any | all | eq
  deriving DecidableEq, Repr

/-- OP of REDX and SCANX (R167). -/
inductive RedOp where
  | add | min | max | and | or | xor | fadd
  deriving DecidableEq, Repr

/-- SZ of the flat loads and stores (R53). -/
inductive Size where
  | b8 | b16 | b32 | b64
  deriving DecidableEq, Repr

/-- SZ of the scratchpad and lane-private words (R247). -/
inductive SSize where
  | b8 | b16 | b32 | b64 | b128
  deriving DecidableEq, Repr

/-- SZ of CPY and BCW: 4, 8 or 16 bytes (R295, R311). -/
inductive CSize where
  | four | eight | sixteen
  deriving DecidableEq, Repr

/-- Scopes of the strong accesses and fences: gang, core, die, system (R221, R53). -/
inductive Scope where
  | g | k | d | s
  deriving DecidableEq, Repr

/-- SCOPE of TSTORE, CPY and CPYT (R291). -/
inductive EngScope where
  | k | d | s
  deriving DecidableEq, Repr

/-- ORD of the atomics and fences (R251, R255). -/
inductive Order where
  | rlx | acq | rel | acqrel
  deriving DecidableEq, Repr

/-- ORD of FENCE with ALIAS = 1 may also be none (R255). -/
inductive FenceOrder where
  | none | acq | rel | acqrel
  deriving DecidableEq, Repr

/-- OP of ATOM and RED (R252). -/
inductive AtomOp where
  | add | min | max | and | or | xor | exch | cas | fadd | fmin | fmax
  deriving DecidableEq, Repr

/-- TY of ATOM and RED (R252). -/
inductive AtomTy where
  | i32 | n32 | i64 | n64 | f32 | f64 | bf16x2 | f16x2
  deriving DecidableEq, Repr

/-- TY of RADD (R418). -/
inductive RaddTy where
  | i32 | i64 | f32 | bf16 | f16 | e4m3 | e5m2
  deriving DecidableEq, Repr

/-- TY of RMIN and RMAX (R418). -/
inductive RminTy where
  | i32 | n32 | i64 | n64 | f32
  deriving DecidableEq, Repr

/-- VC of the remote words: 2 (written 0) to 7 (R419). -/
inductive Vc where
  | dflt | vc2 | vc3 | vc4 | vc5 | vc6 | vc7
  deriving DecidableEq, Repr

/-- The special registers MOVS names (R19, R312, R357). -/
inductive SpecialReg where
  | lane | slice | gang | block | blkdim | grid | core | die | pkg | groups | allot | tcbp | cycles | lstat
  | chstat | ptroot | defsuper | deffault
  deriving DecidableEq, Repr

/-- The 64-bit system registers MOVSW writes whole (R357). -/
inductive SysReg where
  | ptroot | defsuper | deffault
  deriving DecidableEq, Repr

/-- Why a word is not accepted at decode (R50). -/
inductive Illegal where
  /-- the bytes end before the word does -/
  | short
  /-- a reserved major, or one for bank units only (R54) -/
  | major
  /-- a prefix of kind 11, with C = 0, repeated, or of a kind the word refuses (R33, R37) -/
  | badPrefix
  /-- a selector, qualifier or must-be-zero bit is undefined (R32) -/
  | qualifier
  /-- a guard the word does not take (R45, R106, R113, R161, R429, R433) -/
  | guard
  /-- a register field out of its range, odd where a pair is named, or a queue as a destination (R14, R16) -/
  | register
  /-- a type, format or size the entry does not allow -/
  | type
  /-- an immediate out of its range -/
  | immediate
  /-- a special-register selector that names nothing (R19, R357) -/
  | selector
  /-- the chain bit or the packet shape (R39, R43, R44) -/
  | shape
  deriving DecidableEq, Repr

end Sys2Proof
end

