-- ==== Sys2Proof/Config.lean ====
section
/-! DEFINITION. What the spec leaves open: opaque constants with no body, so that nothing can be proved of their
values, and the primitives of the security engine that the spec names and does not define. -/

namespace Sys2Proof

/-- A value the spec leaves open, the n-th that a run takes (assumption log 1). -/
opaque Config.freeValue : Nat → DWord

/-- The result a part returns for FRSQ to FTANH: the function's number in B (R125), the format's code (R118) and the
operand's bits. The model takes it where it lies within the bound of R125 (assumption log 2). -/
opaque Config.specialFn : Nat → Nat → Nat → Nat

/-- Whether a signature of SLH-DSA-SHAKE-256s verifies: public key, message, signature (R451, R455, R458). -/
opaque Config.sigValid : Nat → List Byte → Nat → Bool

/-- The 32-byte traffic key that an ML-KEM ciphertext and a wrapped key give a package, if they unwrap: the package's
key pair seed, the ciphertext, the wrapped key (R455). -/
opaque Config.unwrapKey : Nat → Nat → Nat → Option Nat

/-- The identity public key fused into package n, and Hileyn's certificate of it (R451). -/
opaque Config.identity : Nat → List Byte
opaque Config.certificate : Nat → List Byte

/-- The ML-KEM-1024 encapsulation key of a seed (R451). -/
opaque Config.kemKey : Nat → List Byte

/-- The identity signature of package n over a report (R454). -/
opaque Config.identitySign : Nat → List Byte → List Byte

/-- The AES-256-GCM ciphertext of a payload under a key and a nonce (R457). -/
opaque Config.gcmCipher : Nat → Nat → List Byte → List Byte

/-- The KIND of a packet that R378 gives none: a fence notice, a distributor's report (assumption log 17). -/
opaque Config.freeKind : Nat → DWord

/-- The 128-bit AES-256-GCM tag of a packet: key, 96-bit nonce, associated data, payload (R457). -/
opaque Config.gcmTag : Nat → Nat → Nat → List Byte → Nat

end Sys2Proof
end

