-- ==== Sys2Proof/Syntax.lean ====
section
/-! DEFINITION. Instr: one constructor for each row of the opcode table. A word constructor carries the whole word,
its prefixes folded in (R33 to R37); an event constructor carries what names the event (which access, which packet,
which unit, what the host wrote). -/

namespace Sys2Proof

/-- The guard and chain bit every ordinary word carries (R28). Guard 7 is unguarded. -/
structure Hd where
  chain : Bool
  guard : PredNo
  deriving DecidableEq, Repr

/-- B as a data source: a register, or the VALUE of an IMM prefix (R34). -/
inductive Src where
  | reg (r : Reg)
  | imm (v : BitVec 22)
  deriving DecidableEq, Repr

/-- An FI immediate: the word's own 14 bits, or VALUE:word[13:0] of an IMM or OFF prefix (R34, R35). -/
inductive Imm36 where
  | short (v : BitVec 14)
  | long (v : BitVec 36)
  deriving DecidableEq, Repr

/-- The scale operand of SCALE and of a scaled dot product: field of the scale register and byte selects (R134, R135). -/
structure DotScale where
  reg : Reg
  selA : BitVec 2
  selB : BitVec 2
  deriving DecidableEq, Repr

/-- A host write or read of memory through the HDM window (R446): BAR-relative data only. -/
structure HostWrite where
  bytes : List Byte
  deriving DecidableEq, Repr

/-- One participant of a FORM body (R455). Byte strings stand as numbers. -/
structure Participant where
  index : Nat
  pubKey : Nat
  members : List Nat
  kemCipher : Nat
  wrappedKey : Nat
  sig : Nat
  deriving DecidableEq, Repr

/-- A FORM body (R455): ENCLMAP is given, for each die, as the list of its marked 256 MiB regions. -/
structure FormBody where
  gen : Nat
  quorum : Nat
  parts : List Participant
  enclMap : List (Nat × Nat)
  deriving DecidableEq, Repr

/-- A signature of participant p over a message of the mailbox (R458). -/
structure Signature where
  part : Nat
  sig : Nat
  deriving DecidableEq, Repr

/-- A unit that can be fenced (R479). Numbers are those of the package. -/
inductive FenceUnit where
  | core (die core : Nat)
  | stack (stack : Nat)
  | die (die : Nat)
  | torusPort (port : Nat)
  | tierPort (die : Nat)
  | hostLink1
  deriving DecidableEq, Repr

/-- What a start finds (R476, R478): whether the part that is brought up trains, the units a start fences, the cause
of a failure, the widths at which the host links trained, whether link 1 is fitted, and the data that MR0 to MR2 measure. -/
structure StartReport where
  fenced : List FenceUnit
  failure : Option Nat
  minimalFails : Option Nat
  link0x8 : Bool
  link1x8 : Bool
  link1Fitted : Bool
  measure : List (List Byte)
  deriving DecidableEq, Repr

/-- The instruction set: 158 words and 77 events of the opcode table. -/
inductive Instr where
  /- control, R106 to R117 and R43 to R45 -/
  | nop (h : Hd)
  | trail (d a b : Reg)
  | wait (chain : Bool) (l s : BitVec 4) (t m : BitVec 3)
  | bra (guard : PredNo) (i : Imm36)
  | brx (guard : PredNo) (a : Reg)
  | call (d : Reg) (i : Imm36)
  | ret (guard : PredNo) (a : Reg)
  | join
  | regang
  | exit (guard : PredNo)
  | yield
  | trap (h : Hd) (code : BitVec 14)
  | brk (h : Hd) (code : BitVec 14)
  /- integer arithmetic and logic, R85 to R91 -/
  | add (h : Hd) (ty : IntTy) (sat : Bool) (d a : Reg) (b : Src)
  | sub (h : Hd) (ty : IntTy) (sat : Bool) (d a : Reg) (b : Src)
  | addc (h : Hd) (ty : IntTy) (ps : PredNo) (d a : Reg) (b : Src)
  | subb (h : Hd) (ty : IntTy) (ps : PredNo) (d a : Reg) (b : Src)
  | mul (h : Hd) (ty : IntTy) (d a : Reg) (b : Src)
  | mulh (h : Hd) (ty : IntTy) (d a : Reg) (b : Src)
  | mad (h : Hd) (ty : IntTy) (d a : Reg) (b : Src)
  | div (h : Hd) (ty : IntTy) (d a : Reg) (b : Src)
  | rem (h : Hd) (ty : IntTy) (d a : Reg) (b : Src)
  | min (h : Hd) (ty : IntTy) (d a : Reg) (b : Src)
  | max (h : Hd) (ty : IntTy) (d a : Reg) (b : Src)
  | and (h : Hd) (ty : IntTy) (d a : Reg) (b : Src)
  | or (h : Hd) (ty : IntTy) (d a : Reg) (b : Src)
  | xor (h : Hd) (ty : IntTy) (d a : Reg) (b : Src)
  | andn (h : Hd) (ty : IntTy) (d a : Reg) (b : Src)
  | orn (h : Hd) (ty : IntTy) (d a : Reg) (b : Src)
  | shl (h : Hd) (ty : IntTy) (d a : Reg) (b : Src)
  | shr (h : Hd) (ty : IntTy) (d a : Reg) (b : Src)
  | sar (h : Hd) (ty : IntTy) (d a : Reg) (b : Src)
  | rot (h : Hd) (ty : IntTy) (d a : Reg) (b : Src)
  | bfx (h : Hd) (ty : IntTy) (d a : Reg) (b : Src)
  | bfi (h : Hd) (ty : IntTy) (d a : Reg) (b : Src)
  | mov (h : Hd) (ty : IntTy) (d a : Reg)
  | neg (h : Hd) (ty : IntTy) (sat : Bool) (d a : Reg)
  | abs (h : Hd) (ty : IntTy) (sat : Bool) (d a : Reg)
  | popc (h : Hd) (ty : IntTy) (d a : Reg)
  | clz (h : Hd) (ty : IntTy) (d a : Reg)
  | ctz (h : Hd) (ty : IntTy) (d a : Reg)
  | brev (h : Hd) (ty : IntTy) (d a : Reg)
  /- permutations, constants, predicates, special registers, R92 to R102 -/
  | perm (h : Hd) (sel : BitVec 16) (d a : Reg) (b : Src)
  | sel (h : Hd) (ty : IntTy) (ps : PredNo) (d a : Reg) (b : Src)
  | movi (h : Hd) (ty : IntTy) (d : Reg) (i : Imm36)
  | movh (h : Hd) (d : Reg) (i : Imm36)
  | lea (h : Hd) (scale : BitVec 3) (z : Bool) (d a : Reg) (b : Src)
  | cmp (h : Hd) (cond : Cond) (ty : IntTy) (pd : PredNo) (a : Reg) (b : Src)
  | plog (h : Hd) (lut : BitVec 4) (pd pa pb : PredNo)
  | movs (h : Hd) (d : Reg) (r : SpecialReg)
  | setxb (h : Hd) (a : Reg)
  | pmovToReg (h : Hd) (d : Reg)
  | pmovToPreds (h : Hd) (mask : BitVec 7) (a : Reg)
  | bsload (h : Hd) (a : Reg)
  | bsread (h : Hd) (sx : Bool) (d : Reg) (k : BitVec 7)
  /- flat loads and stores, R103 -/
  | ld (h : Hd) (sz : Size) (sx : Bool) (d a : Reg) (off : BitVec 22)
  | st (h : Hd) (sz : Size) (d a : Reg) (off : BitVec 22)
  /- floating point, R120 to R138 -/
  | fadd (h : Hd) (ft : FloatTy) (rm : Round) (d a : Reg) (b : Src)
  | fsub (h : Hd) (ft : FloatTy) (rm : Round) (d a : Reg) (b : Src)
  | fmul (h : Hd) (ft : FloatTy) (rm : Round) (d a : Reg) (b : Src)
  | fma (h : Hd) (ft : FloatTy) (rm : Round) (d a : Reg) (b : Src)
  | fma2 (h : Hd) (ft : FloatTy) (rm : Round) (d a b : Reg)
  | fmin (h : Hd) (ft : FloatTy) (d a : Reg) (b : Src)
  | fmax (h : Hd) (ft : FloatTy) (d a : Reg) (b : Src)
  | fcmp (h : Hd) (cond : FCond) (ft : FloatTy) (pd : PredNo) (a : Reg) (b : Src)
  | fdiv (h : Hd) (ft : FloatTy) (rm : Round) (d a : Reg) (b : Src)
  | fsqrt (h : Hd) (ft : FloatTy) (rm : Round) (d a : Reg)
  | frcp (h : Hd) (ft : FloatTy) (rm : Round) (d a : Reg)
  | frsq (h : Hd) (ft : FloatTy) (d a : Reg)
  | fexp2 (h : Hd) (ft : FloatTy) (d a : Reg)
  | flog2 (h : Hd) (ft : FloatTy) (d a : Reg)
  | fsin (h : Hd) (ft : FloatTy) (d a : Reg)
  | fcos (h : Hd) (ft : FloatTy) (d a : Reg)
  | ftanh (h : Hd) (ft : FloatTy) (d a : Reg)
  | fclass (h : Hd) (ft : FloatTy) (d a : Reg)
  | cvt (h : Hd) (dst src : CvtFmt) (rm : Round) (sat int : Bool) (d a : Reg)
  | cvtsr (h : Hd) (dst src : CvtFmt) (d a : Reg)
  | pack (h : Hd) (nf : NarrowFmt) (sr : Bool) (rm : Round) (half : Bool) (j : BitVec 2) (d a : Reg) (b : Src)
  | unpack (h : Hd) (nf : NarrowFmt) (half : Bool) (i : BitVec 3) (d a : Reg)
  | dot4 (h : Hd) (fmt : DotFmt) (alt half : Bool) (sc : Option DotScale) (d a b : Reg)
  | dot6 (h : Hd) (fmt : DotFmt) (alt half : Bool) (sc : Option DotScale) (d a b : Reg)
  | dot8 (h : Hd) (fmt : DotFmt) (alt half : Bool) (sc : Option DotScale) (d a b : Reg)
  | scale (h : Hd) (ft : FloatTy) (rm : Round) (map : ScaleMap) (sr : Reg) (inv : Bool) (sel : BitVec 2) (d a : Reg)
  | rndseed (h : Hd) (a : Reg)
  | rnd (h : Hd) (kind : RndKind) (d : Reg)
  /- cross-lane words, groups and tasks, R162 to R180 -/
  | shfl (h : Hd) (mode : ShflMode) (w : SegWidth) (x64 : Bool) (d a : Reg) (b : Src)
  | push (h : Hd) (x64 : Bool) (d a : Reg) (b : Src)
  | bfly (h : Hd) (x64 : Bool) (k : BflyK) (d a : Reg)
  | vote (h : Hd) (mode : VoteMode) (d : Reg) (pa : PredNo)
  | matchLanes (h : Hd) (x64 : Bool) (d a : Reg)
  | redx (h : Hd) (op : RedOp) (ty : IntTy) (w : SegWidth) (d a : Reg)
  | scanx (h : Hd) (op : RedOp) (ty : IntTy) (excl : Bool) (w : SegWidth) (d a : Reg)
  | barSync (chain : Bool) (g : BitVec 9)
  | barArrive (chain : Bool) (g : BitVec 9)
  | barWait (chain : Bool) (g : BitVec 9)
  | grow (chain : Bool) (n : BitVec 14)
  | shrink (chain : Bool) (n : BitVec 14)
  | launch (h : Hd) (d a : Reg) (b : Src)
  | arm (h : Hd) (a : Reg)
  | take (chain : Bool)
  | pass (chain : Bool)
  | rxwin (chain : Bool) (n : BitVec 7) (d : Reg) (base : BitVec 7)
  /- memory, atomics, fences, R245 to R259 -/
  | ldOrdered (h : Hd) (sz : Size) (sx acq : Bool) (scope : Scope) (d a : Reg) (off : BitVec 22)
  | stOrdered (h : Hd) (sz : Size) (rel : Bool) (scope : Scope) (d a : Reg) (off : BitVec 22)
  | lds (h : Hd) (sz : SSize) (sx : Bool) (d a : Reg) (off : BitVec 22)
  | sts (h : Hd) (sz : SSize) (d a : Reg) (off : BitVec 22)
  | ldp (h : Hd) (sz : SSize) (sx : Bool) (d a : Reg) (off : BitVec 22)
  | stp (h : Hd) (sz : SSize) (d a : Reg) (off : BitVec 22)
  | ldfe (h : Hd) (sz : SSize) (sx clear : Bool) (d a : Reg) (off : BitVec 22)
  | stfe (h : Hd) (d a : Reg) (off : BitVec 22)
  | atom (h : Hd) (op : AtomOp) (ty : AtomTy) (ord : Order) (scope : Scope) (noret : Bool) (d a : Reg)
      (off : BitVec 22)
  | red (h : Hd) (op : AtomOp) (ty : AtomTy) (rel : Bool) (scope : Scope) (d a : Reg) (off : BitVec 22)
  | fence (h : Hd) (ord : FenceOrder) (scope : Scope) (als : Bool)
  | cflush (h : Hd) (die : Bool) (a : Reg) (off : BitVec 22)
  | cinv (h : Hd) (die : Bool) (a : Reg) (off : BitVec 22)
  | pref (h : Hd) (l2 : Bool) (a : Reg) (off : BitVec 22)
  /- matrix and copy engines, R283 to R298 -/
  | talloc (h : Hd) (isB any : Bool) (n : BitVec 5) (d : Reg)
  | tfree (h : Hd) (isB : Bool) (n : BitVec 5)
  | tloadb (h : Hd) (fmt : TileFmt) (orientT sparse : Bool) (bh : BitVec 3) (a : Reg) (off : BitVec 22)
  | tmma (h : Hd) (tri : Bool) (af : TileFmt) (bh : BitVec 3) (acc : BitVec 4) (ro so c : Reg)
  | tzero (h : Hd) (acc : BitVec 4)
  | tcfg (h : Hd) (sr reseed : Bool) (acc : BitVec 4) (a : Reg)
  | tread (h : Hd) (acc : BitVec 4) (n : BitVec 3) (a : Reg)
  | tstore (h : Hd) (tf : StoreFmt) (scope : EngScope) (sr : Bool) (acc : BitVec 4) (a : Reg) (off : BitVec 22)
  | cpy (h : Hd) (sz : CSize) (scope : EngScope) (d a : Reg) (off : BitVec 22)
  | cpyt (h : Hd) (scope : EngScope) (ind : Bool) (ks kf kd : BitVec 2) (od of_ os : Reg)
  | lrec (h : Hd) (k : BitVec 2) (a : Reg) (off : BitVec 22)
  | seal (h : Hd) (q : Bool)
  | bwait (h : Hd) (n : BitVec 8)
  /- near memory, R304 to R311 -/
  | bookld (h : Hd) (e16 : Bool) (a : Reg) (off : BitVec 22)
  | bookldUnpin (h : Hd) (a : Reg) (off : BitVec 22)
  | bookq (h : Hd) (e16 : Bool) (a b : Reg)
  | ired (h : Hd) (kt ko : BitVec 2) (acc : Bool) (bag d a : Reg) (off : BitVec 22)
  | bcw (h : Hd) (sz : CSize) (d a : Reg) (off : BitVec 22)
  /- remote words, migration and collectives, R418 to R434 -/
  | radd (h : Hd) (ty : RaddTy) (vc : Vc) (d a : Reg) (off : BitVec 22)
  | rmin (h : Hd) (ty : RminTy) (vc : Vc) (d a : Reg) (off : BitVec 22)
  | rmax (h : Hd) (ty : RminTy) (vc : Vc) (d a : Reg) (off : BitVec 22)
  | ror (h : Hd) (b64 : Bool) (vc : Vc) (d a : Reg) (off : BitVec 22)
  | rwo (h : Hd) (n : BitVec 4) (vc : Vc) (d a : Reg) (off : BitVec 22)
  | rarv (h : Hd) (vc : Vc) (d a : Reg) (off : BitVec 22)
  | rget (h : Hd) (n : BitVec 4) (rx : Reg) (vc : Vc) (d a : Reg) (off : BitVec 22)
  | await (h : Hd) (d a : Reg) (off : BitVec 22)
  | rfence (chain : Bool) (d : Reg)
  | accrd (h : Hd) (bf16 : Bool) (d a : Reg) (off : BitVec 22)
  | accclr (h : Hd) (vc : Vc) (a : Reg) (off : BitVec 22)
  | mig (h : Hd) (d : Reg)
  | home
  | coll (h : Hd) (n : BitVec 4) (arv : Bool) (rx : Reg) (vc : Vc) (d a : Reg) (off : BitVec 22)
  /- system words, R354 to R364 -/
  | svc (h : Hd) (code : BitVec 14)
  | eret (h : Hd) (a : Reg)
  | halt (h : Hd) (d a : Reg)
  | movswLstat (h : Hd) (s : Reg)
  | movswChkey (h : Hd) (s : Reg)
  | movswChmode (h : Hd) (s : Reg)
  | movswChconf (h : Hd) (s : Reg)
  | movsw (h : Hd) (r : SysReg) (s : Reg)
  | tlbinvPage (h : Hd) (a : Reg)
  | tlbinvAll (h : Hd)
  /- events: one whole, indivisible step of a unit of the device -/
  | runStart (core gang cohort slot : Nat)
  | longLatencyWrite (op : Nat)
  | accessPerformed (op lane : Nat)
  | faultRecordDelivery (rec : Nat)
  | blockPlacement (die : Nat) (rook : Bool)
  | blockHalted (block : Nat)
  | gangSave (gang : Nat)
  | blockSaveComplete (block : Nat)
  | blockRestore (block : Nat)
  | blockRetirement (block : Nat)
  | taskRetirement (task : Nat)
  | bufferedRecordArrival (rec : Nat)
  | matrixPassBegin (core macro_ : Nat)
  | matrixPassComplete (core macro_ : Nat)
  | tloadbBegin (op : Nat)
  | tloadbFinish (op : Nat)
  | tzeroEffect (op : Nat)
  | tcfgEffect (op : Nat)
  | treadDelivery (op : Nat)
  | tstorePerform (op : Nat)
  | handleFreed (op : Nat)
  | lrecRead (op : Nat)
  | cpyCompletion (op : Nat)
  | cpytExecution (op : Nat)
  | batchFinish (gang lane : Nat)
  | iredCommand (op : Nat)
  | bookPin (op lane : Nat)
  | bookQuery (op : Nat)
  | columnAccess (op lane : Nat)
  | promotionEntry (die ch : Nat)
  | promotionExit (die ch : Nat)
  | selfRefreshEntry (die ch : Nat)
  | selfRefreshExit (die ch : Nat)
  | powerDownRequest (die ch : Nat)
  | retransmission (die eng : Nat)
  | raddPacket (n : Nat)
  | rminPacket (n : Nat)
  | rmaxPacket (n : Nat)
  | rorPacket (n : Nat)
  | rwoPacket (n : Nat)
  | rarvPacket (n : Nat)
  | rgetPacket (n : Nat)
  | replyPacket (n : Nat)
  | rgetArrivalSend (job : Nat)
  | ackPacket (n : Nat)
  | armingPacket (n : Nat)
  | accclrPacket (n : Nat)
  | resumePacket (n : Nat)
  | collPacket (n : Nat)
  | plyDeparture (ply : Nat)
  | plyPacket (n : Nat)
  | refusedPlyArrival (n : Nat)
  | returnPlyArrival (n : Nat)
  | guestGangFormation (core : Nat)
  | fenceNotice (n : Nat)
  | unitFence (pkg : Nat) (unit : FenceUnit)
  | hdmAccess (pkg link die pa len : Nat) (write : Option HostWrite)
  | armwin (die link size value : Nat)
  | armstat (die size value : Nat)
  | devstat (die size value : Nat)
  | woconf (die size value : Nat)
  | configRegisterWrite (die offset size value : Nat)
  | getid (pkg link : Nat)
  | attest (pkg link nonce : Nat)
  | extend (pkg link mr : Nat) (data : List Byte)
  | kemkey (pkg link : Nat)
  | form (pkg link : Nat) (body : FormBody)
  | revoke (pkg link gen part : Nat) (sigs : List Signature)
  | dissolve (pkg link gen : Nat) (sigs : List Signature)
  | status (pkg link : Nat)
  | startUp (pkg : Nat) (report : StartReport)
  | railLimiterTrip (die island : Nat)
  | thermalThrottle (pkg die : Nat)
  | thermalRecovery (pkg die : Nat)
  | thermalShutdown (pkg : Nat)
  | cyclesAdvance (die : Nat)
  | powerDownExit (die ch : Nat)
  deriving DecidableEq, Repr

end Sys2Proof
end

