-- ==== Sys2Proof/WellFormed.lean ====
section
/-! DEFINITION. What makes an instruction one that the encoding admits: the register fields, types, sizes and
immediates its entry allows (R14, R16, R32, R50). A word that fails is refused at decode with the reason named. -/

namespace Sys2Proof

/-! ## Register fields (R13, R14, R16, R30) -/

/-- A 32-bit source: a main register, a w register, or q0 to q2. -/
def srcOk (r : Reg) : Bool := r.toNat < 115 || 120 ≤ r.toNat
/-- A field that names no queue register: a single destination, or a source of a word that refuses queues. -/
def noQueue (r : Reg) : Bool := r.toNat < 112 || 120 ≤ r.toNat
/-- A 64-bit operand: even, and no queue register (R14). -/
def pairOk (r : Reg) : Bool := noQueue r && r.toNat % 2 == 0
/-- A 128-bit operand: a multiple of 4 (R243). -/
def quadOk (r : Reg) : Bool := noQueue r && r.toNat % 4 == 0
/-- The destination of a long-latency word: no w register (R46). -/
def mainReg (r : Reg) : Bool := r.toNat < 112
def mainPair (r : Reg) : Bool := r.toNat < 112 && r.toNat % 2 == 0
def mainQuad (r : Reg) : Bool := r.toNat < 112 && r.toNat % 4 == 0
/-- A field of TRAIL: a main register, or 127 for none (R45). -/
def trailOk (r : Reg) : Bool := r.toNat < 112 || r.toNat == 127

/-! ## Types -/

def IntTy.is64 : IntTy → Bool
  | .i64 | .n64 => true
  | _ => false
def IntTy.signed : IntTy → Bool
  | .i32 | .i64 | .i16 | .i8 => true
  | _ => false
/-- TY 000 to 011 (R83). -/
def IntTy.wide : IntTy → Bool
  | .i32 | .n32 | .i64 | .n64 => true
  | _ => false
def FloatTy.is64 : FloatTy → Bool
  | .f64 => true
  | _ => false
def FloatTy.packed : FloatTy → Bool
  | .f16x2 | .bf16x2 => true
  | _ => false
/-- FT that takes an IMM operand (R119). -/
def FloatTy.takesImm : FloatTy → Bool
  | .f32 | .f64 => true
  | _ => false
def CvtFmt.is64 : CvtFmt → Bool
  | .f64 | .i64 | .n64 => true
  | _ => false
def CvtFmt.isFloat : CvtFmt → Bool
  | .f32 | .f64 | .f16 | .bf16 | .e5m2 | .e4m3 | .e2m1 => true
  | _ => false
/-- Width of an integer format in bits; 0 for a float. -/
def CvtFmt.intWidth : CvtFmt → Nat
  | .i4 | .n4 => 4
  | .i8 | .n8 => 8
  | .i16 | .n16 => 16
  | .i32 | .n32 => 32
  | .i64 | .n64 => 64
  | _ => 0
def NarrowFmt.fp6 : NarrowFmt → Bool
  | .e3m2 | .e2m3 => true
  | _ => false
def NarrowFmt.integer : NarrowFmt → Bool
  | .i8 | .n8 | .i4 | .n4 => true
  | _ => false
/-- How many elements of the format a register holds (R131, R67). -/
def NarrowFmt.count : NarrowFmt → Nat
  | .e4m3 | .e5m2 | .i8 | .n8 => 4
  | .f16 | .bf16 => 2
  | _ => 8
def AtomTy.is64 : AtomTy → Bool
  | .i64 | .n64 | .f64 => true
  | _ => false
/-- TY 000 to 011 of R252. -/
def AtomTy.integer : AtomTy → Bool
  | .i32 | .n32 | .i64 | .n64 => true
  | _ => false
def AtomOp.allows (op : AtomOp) (ty : AtomTy) : Bool :=
  match op with
  | .fadd => !ty.integer
  | .fmin | .fmax => ty == .f32 || ty == .f64
  | _ => ty.integer
/-- Width of a special register (R19, R357). -/
def SpecialReg.is64 : SpecialReg → Bool
  | .groups | .tcbp | .cycles | .ptroot | .defsuper | .deffault => true
  | _ => false
def Size.narrow : Size → Bool
  | .b8 | .b16 => true
  | _ => false
def SSize.narrow : SSize → Bool
  | .b8 | .b16 => true
  | _ => false

/-! ## Operands -/

/-- A source of 32 or 64 bits. -/
def srcW (is64 : Bool) (r : Reg) : Bool := if is64 then pairOk r else srcOk r
/-- A source of a word that refuses queue registers. -/
def srcWNoQ (is64 : Bool) (r : Reg) : Bool := if is64 then pairOk r else noQueue r
def dstW (is64 : Bool) (r : Reg) : Bool := if is64 then pairOk r else noQueue r
def bOk (is64 : Bool) : Src → Bool
  | .reg r => srcW is64 r
  | .imm _ => true
def bOkNoQ (is64 : Bool) : Src → Bool
  | .reg r => srcWNoQ is64 r
  | .imm _ => true
/-- B of a float word: an immediate only with .f32 and .f64 (R119). -/
def bFloatOk (ft : FloatTy) : Src → Bool
  | .reg r => srcW ft.is64 r
  | .imm _ => ft.takesImm
/-- The destination of a load of a given size (R103, R243). -/
def loadDst (sz : Size) (d : Reg) : Bool := if sz == .b64 then mainPair d else mainReg d
def loadDstS : SSize → Reg → Bool
  | .b64, d => mainPair d
  | .b128, d => mainQuad d
  | _, d => mainReg d
def storeSrcS : SSize → Reg → Bool
  | .b64, d => pairOk d
  | .b128, d => quadOk d
  | _, d => noQueue d
def storeSrcC : CSize → Reg → Bool
  | .four, d => noQueue d
  | .eight, d => pairOk d
  | .sixteen, d => quadOk d
/-- The D field of an ATOM or RED (R252, R243). -/
def atomD (op : AtomOp) (ty : AtomTy) (noret : Bool) (d : Reg) : Bool :=
  (noret || mainReg d) &&
    match op, ty.is64 with
    | .cas, true => quadOk d
    | .cas, false => pairOk d
    | _, true => pairOk d
    | _, false => noQueue d
/-- The pairs CVTSR converts (R130). -/
def cvtsrOk : CvtFmt → CvtFmt → Bool
  | .f32, .f64 => true
  | .f16, .f64 | .f16, .f32 | .bf16, .f64 | .bf16, .f32 => true
  | .e5m2, .f64 | .e5m2, .f32 | .e4m3, .f64 | .e4m3, .f32 | .e2m1, .f64 | .e2m1, .f32 => true
  | _, _ => false
/-- INT and SAT of CVT (R129). -/
def cvtOk (dst src : CvtFmt) (sat int : Bool) : Bool :=
  (!int || (dst == src && (dst == .f32 || dst == .f64 || dst == .f16 || dst == .bf16))) &&
  (!sat || (!dst.isFloat && !src.isFloat && dst.intWidth < src.intWidth && dst.intWidth != 4))
def scaleRegOk : Option DotScale → Bool
  | none => true
  | some s => noQueue s.reg
def DotFmt.isFmt2 : DotFmt → Bool
  | .fmt2 => true
  | _ => false
def DotFmt.isFmt0 : DotFmt → Bool
  | .fmt0 => true
  | _ => false
def pred3 (r : Reg) : Bool := r.toNat < 8

/-- The reason of the first check that fails. -/
def firstFail : List (Bool × Illegal) → Option Illegal
  | [] => none
  | (ok, e) :: rest => if ok then firstFail rest else some e

/-- Check of an F3 integer word `op.ty d, a, b`. -/
def chkInt3 (tyOk : Bool) (ty : IntTy) (d a : Reg) (b : Src) : Option Illegal :=
  firstFail [(tyOk, .type), (dstW ty.is64 d && srcW ty.is64 a && bOk ty.is64 b, .register)]
/-- A shift or bit-field word: B is one 32-bit register (R89, R90). -/
def chkShift (ty : IntTy) (d a : Reg) (b : Src) : Option Illegal :=
  firstFail [(ty.wide, .type), (dstW ty.is64 d && srcW ty.is64 a && bOk false b, .register)]
def chkInt2 (tyOk : Bool) (ty : IntTy) (d a : Reg) : Option Illegal :=
  firstFail [(tyOk, .type), (dstW ty.is64 d && srcW ty.is64 a, .register)]
/-- POPC, CLZ, CTZ write one register (R91). -/
def chkCount (ty : IntTy) (d a : Reg) : Option Illegal :=
  firstFail [(ty.wide, .type), (dstW false d && srcW ty.is64 a, .register)]
def chkFloat3 (tyOk : Bool) (ft : FloatTy) (d a : Reg) (b : Src) : Option Illegal :=
  firstFail [(tyOk, .type), (dstW ft.is64 d && srcW ft.is64 a, .register), (bFloatOk ft b, .register)]
def chkFun (tyOk : Bool) (ft : FloatTy) (d a : Reg) : Option Illegal :=
  firstFail [(tyOk, .type), (dstW ft.is64 d && srcW ft.is64 a, .register)]
/-- The FT of the functions that have no .f64 form (R125). -/
def FloatTy.small : FloatTy → Bool
  | .f32 | .f16 | .bf16 => true
  | _ => false
def chkReg (ok : Bool) : Option Illegal := firstFail [(ok, .register)]

/-- What the entry of each instruction checks at decode. Events have no encoding and nothing to check. -/
def Instr.check : Instr → Option Illegal
  | .trail d a b => chkReg (trailOk d && trailOk a && trailOk b)
  | .brx _ a | .ret _ a => chkReg (srcOk a)
  | .call d _ => chkReg (mainReg d)
  | .add _ ty _ d a b | .sub _ ty _ d a b => chkInt3 true ty d a b
  | .addc _ ty _ d a b | .subb _ ty _ d a b => chkInt3 ty.wide ty d a b
  | .mul _ ty d a b | .mad _ ty d a b | .min _ ty d a b | .max _ ty d a b => chkInt3 true ty d a b
  | .mulh _ ty d a b | .div _ ty d a b | .rem _ ty d a b => chkInt3 ty.wide ty d a b
  | .and _ ty d a b | .or _ ty d a b | .xor _ ty d a b | .andn _ ty d a b | .orn _ ty d a b =>
      chkInt3 ty.wide ty d a b
  | .shl _ ty d a b | .shr _ ty d a b | .sar _ ty d a b | .rot _ ty d a b => chkShift ty d a b
  | .bfx _ ty d a b | .bfi _ ty d a b => chkShift ty d a b
  | .mov _ ty d a => chkInt2 true ty d a
  | .neg _ ty sat d a => chkInt2 (!sat || ty.signed) ty d a
  | .abs _ ty _ d a => chkInt2 ty.signed ty d a
  | .popc _ ty d a | .clz _ ty d a | .ctz _ ty d a => chkCount ty d a
  | .brev _ ty d a => chkInt2 ty.wide ty d a
  | .perm _ _ d a b => chkReg (dstW false d && srcOk a && bOk false b)
  | .sel _ ty _ d a b => chkInt3 ty.wide ty d a b
  | .movi _ ty d _ => firstFail [(ty.wide, .type), (dstW ty.is64 d, .register)]
  | .movh _ d _ => chkReg (pairOk d)
  | .lea _ _ _ d a b => chkReg (pairOk d && pairOk a && bOk false b)
  | .cmp _ _ ty _ a b => chkReg (srcW ty.is64 a && bOk ty.is64 b)
  | .movs _ d r => chkReg (dstW r.is64 d)
  | .setxb _ a => chkReg (srcOk a)
  | .pmovToReg _ d => chkReg (noQueue d)
  | .pmovToPreds _ _ a => chkReg (srcOk a)
  | .bsload _ a => chkReg (pairOk a)
  | .bsread _ _ d k => firstFail [(decide (1 ≤ k.toNat ∧ k.toNat ≤ 32), .immediate), (mainReg d, .register)]
  | .ld _ sz sx d a _ => firstFail [(!sx || sz.narrow, .qualifier), (loadDst sz d && pairOk a, .register)]
  | .st _ sz d a _ => chkReg (srcW (sz == .b64) d && pairOk a)
  | .fadd _ ft _ d a b | .fsub _ ft _ d a b | .fmul _ ft _ d a b | .fma _ ft _ d a b => chkFloat3 true ft d a b
  | .fma2 _ ft _ d a b => firstFail [(ft.packed, .type), (pairOk d && srcOk a && srcOk b, .register)]
  | .fmin _ ft d a b | .fmax _ ft d a b => chkFloat3 true ft d a b
  | .fcmp _ _ ft _ a b => firstFail [(!ft.packed, .type), (srcW ft.is64 a, .register), (bFloatOk ft b, .register)]
  | .fdiv _ ft _ d a b => chkFloat3 (!ft.packed) ft d a b
  | .fsqrt _ ft _ d a | .frcp _ ft _ d a => chkFun (!ft.packed) ft d a
  | .frsq _ ft d a => chkFun (!ft.packed) ft d a
  | .fexp2 _ ft d a | .flog2 _ ft d a | .fsin _ ft d a | .fcos _ ft d a | .ftanh _ ft d a => chkFun ft.small ft d a
  | .fclass _ ft d a => firstFail [(!ft.packed, .type), (noQueue d && srcW ft.is64 a, .register)]
  | .cvt _ dst src _ sat int d a =>
      firstFail [(cvtOk dst src sat int, .qualifier), (dstW dst.is64 d && srcW src.is64 a, .register)]
  | .cvtsr _ dst src d a => firstFail [(cvtsrOk dst src, .type), (dstW dst.is64 d && srcW src.is64 a, .register)]
  | .pack _ nf sr rm half j d a b =>
      firstFail [(decide (2 * j.toNat < nf.count) && (!half || nf.fp6), .qualifier),
        (!sr || (rm == .rne && !nf.integer), .qualifier),
        ((if nf.fp6 then pairOk d else noQueue d) && srcOk a && bOk false b, .register)]
  | .unpack _ nf half i d a =>
      firstFail [(decide (i.toNat < nf.count) && (!half || nf.fp6), .qualifier),
        (noQueue d && (if nf.fp6 then pairOk a else srcOk a), .register)]
  | .dot4 _ fmt alt half sc d a b =>
      firstFail [(!half && (!fmt.isFmt2 || (!alt && sc.isNone)), .qualifier),
        (scaleRegOk sc && noQueue d && srcOk a && srcOk b, .register)]
  | .dot6 _ fmt _ _ sc d a b =>
      firstFail [(!fmt.isFmt2, .qualifier), (scaleRegOk sc && noQueue d && pairOk a && pairOk b, .register)]
  | .dot8 _ fmt alt half sc d a b =>
      firstFail [(!half && !alt && (fmt.isFmt0 || sc.isNone), .qualifier),
        (scaleRegOk sc && noQueue d && srcOk a && srcOk b, .register)]
  | .scale _ ft _ _ sr _ _ d a => chkReg (noQueue sr && dstW ft.is64 d && srcW ft.is64 a)
  | .rndseed _ a => chkReg (pairOk a)
  | .rnd _ kind d => chkReg (dstW (kind == .n64) d)
  | .shfl _ _ _ x64 d a b => chkReg (dstW x64 d && srcWNoQ x64 a && bOkNoQ false b)
  | .push _ x64 d a b => chkReg (dstW x64 d && srcWNoQ x64 a && bOkNoQ false b)
  | .bfly _ x64 _ d a => chkReg (dstW x64 d && srcWNoQ x64 a)
  | .vote _ mode d _ => chkReg (if mode == .ballot then noQueue d else pred3 d)
  | .matchLanes _ x64 d a => chkReg (noQueue d && srcWNoQ x64 a)
  | .redx _ op ty _ d a | .scanx _ op ty _ _ d a =>
      firstFail [(ty.wide && (op != .fadd || ty == .i32), .type), (dstW ty.is64 d && srcWNoQ ty.is64 a, .register)]
  | .barSync _ g | .barArrive _ g | .barWait _ g => firstFail [(decide (g.toNat ≤ 256), .immediate)]
  | .grow _ n | .shrink _ n =>
      firstFail [(decide (n.toNat % 8 = 0 ∧ 8 ≤ n.toNat ∧ n.toNat ≤ 496), .immediate)]
  | .launch _ d a b => chkReg (mainReg d && pairOk a && bOk false b)
  | .arm _ a => chkReg (pairOk a)
  | .rxwin _ n d base =>
      firstFail [(decide (n.toNat % 8 = 0 ∧ n.toNat ≤ 112 ∧ base.toNat % 8 = 0 ∧ base.toNat ≤ 104), .immediate),
        (pairOk d, .register)]
  | .ldOrdered _ sz sx _ _ d a _ => firstFail [(!sx || sz.narrow, .qualifier), (loadDst sz d && pairOk a, .register)]
  | .stOrdered _ sz _ _ d a _ => chkReg (dstW (sz == .b64) d && pairOk a)
  | .lds _ sz sx d a _ | .ldp _ sz sx d a _ | .ldfe _ sz sx _ d a _ =>
      firstFail [(!sx || sz.narrow, .qualifier), (loadDstS sz d && pairOk a, .register)]
  | .sts _ sz d a _ | .stp _ sz d a _ => chkReg (storeSrcS sz d && pairOk a)
  | .stfe _ d a _ => chkReg (quadOk d && pairOk a)
  | .atom _ op ty ord _ noret d a _ =>
      firstFail [(op.allows ty && (op != .cas || !noret), .type),
        (!noret || ord == .rlx || ord == .rel, .qualifier), (atomD op ty noret d && pairOk a, .register)]
  | .red _ op ty _ _ d a _ =>
      firstFail [(op.allows ty && op != .exch && op != .cas, .type), (atomD op ty true d && pairOk a, .register)]
  | .fence _ ord _ als => firstFail [(ord != .none || als, .qualifier)]
  | .cflush _ _ a _ | .cinv _ _ a _ | .pref _ _ a _ => chkReg (pairOk a)
  | .talloc _ isB any n d =>
      firstFail [(decide (n.toNat ≤ 15) && (!isB || decide (n.toNat ≤ 7)) && (!any || n == 0), .immediate),
        (noQueue d, .register)]
  | .tfree _ isB n => firstFail [(decide (n.toNat ≤ 15) && (!isB || decide (n.toNat ≤ 7)), .immediate)]
  | .tloadb _ _ _ _ _ a _ => chkReg (pairOk a)
  | .tmma _ tri _ _ _ ro so c => chkReg (srcOk ro && srcOk so && (if tri then srcOk c else c == 0))
  | .tcfg _ _ reseed _ a => chkReg (if reseed then pairOk a else a == 0)
  | .tread _ _ _ a => chkReg (srcOk a)
  | .tstore _ _ _ _ _ a _ => chkReg (pairOk a)
  | .cpy _ _ _ d a _ => chkReg (pairOk d && pairOk a)
  | .cpyt _ _ ind ks _ _ od of_ os =>
      firstFail [(ind || ks == 0, .qualifier), (srcOk od && srcOk of_ && (if ind then srcOk os else os == 0), .register)]
  | .lrec _ _ a _ => chkReg (pairOk a)
  | .bookld _ _ a _ | .bookldUnpin _ a _ => chkReg (pairOk a)
  | .bookq _ _ a b => chkReg (pairOk a && noQueue b)
  | .ired _ _ _ _ bag d a _ => chkReg (noQueue bag && noQueue d && pairOk a)
  | .bcw _ sz d a _ => chkReg (storeSrcC sz d && pairOk a)
  | .radd _ ty _ d a _ => chkReg (srcW (ty == .i64) d && pairOk a)
  | .rmin _ ty _ d a _ | .rmax _ ty _ d a _ => chkReg (srcW (ty == .i64 || ty == .n64) d && pairOk a)
  | .ror _ b64 _ d a _ => chkReg (srcW b64 d && pairOk a)
  | .rwo _ _ _ d a _ | .rarv _ _ d a _ => chkReg (pairOk d && pairOk a)
  | .rget _ _ rx _ d a _ => chkReg (pairOk rx && pairOk d && pairOk a)
  | .await _ d a _ => chkReg (pairOk d && pairOk a)
  | .rfence _ d => chkReg (noQueue d)
  | .accrd _ _ d a _ => chkReg (mainReg d && pairOk a)
  | .accclr _ _ a _ => chkReg (pairOk a)
  | .mig _ d => chkReg (srcOk d)
  | .coll _ _ _ rx _ d a _ => chkReg (srcOk rx && pairOk d && pairOk a)
  | .eret _ a => chkReg (pairOk a)
  | .halt _ d a => chkReg (mainReg d && pairOk a)
  | .movswLstat _ s | .movswChkey _ s | .movswChmode _ s | .movswChconf _ s => chkReg (srcOk s)
  | .movsw _ _ s => chkReg (pairOk s)
  | .tlbinvPage _ a => chkReg (pairOk a)
  | _ => none

/-- The word constructors: those a word of memory can decode to. The others are events. -/
def Instr.isEvent : Instr → Bool
  | .runStart .. | .longLatencyWrite .. | .accessPerformed .. | .faultRecordDelivery .. | .blockPlacement ..
  | .blockHalted .. | .gangSave .. | .blockSaveComplete .. | .blockRestore .. | .blockRetirement ..
  | .taskRetirement .. | .bufferedRecordArrival .. | .matrixPassBegin .. | .matrixPassComplete ..
  | .tloadbBegin .. | .tloadbFinish .. | .tzeroEffect .. | .tcfgEffect .. | .treadDelivery .. | .tstorePerform ..
  | .handleFreed .. | .lrecRead .. | .cpyCompletion .. | .cpytExecution .. | .batchFinish .. | .iredCommand ..
  | .bookPin .. | .bookQuery .. | .columnAccess .. | .promotionEntry .. | .promotionExit .. | .selfRefreshEntry ..
  | .selfRefreshExit .. | .powerDownRequest .. | .retransmission .. | .raddPacket .. | .rminPacket ..
  | .rmaxPacket .. | .rorPacket .. | .rwoPacket .. | .rarvPacket .. | .rgetPacket .. | .replyPacket ..
  | .rgetArrivalSend .. | .ackPacket .. | .armingPacket .. | .accclrPacket .. | .resumePacket .. | .collPacket ..
  | .plyDeparture .. | .plyPacket .. | .refusedPlyArrival .. | .returnPlyArrival .. | .guestGangFormation ..
  | .fenceNotice .. | .unitFence .. | .hdmAccess .. | .armwin .. | .armstat .. | .devstat .. | .woconf ..
  | .configRegisterWrite .. | .getid .. | .attest .. | .extend .. | .kemkey .. | .form .. | .revoke ..
  | .dissolve .. | .status .. | .startUp .. | .railLimiterTrip .. | .thermalThrottle .. | .thermalRecovery ..
  | .thermalShutdown .. | .cyclesAdvance .. | .powerDownExit .. => true
  | _ => false

/-- An instruction word that the encoding admits. -/
def Instr.WellFormed (i : Instr) : Prop := i.isEvent = false ∧ i.check = none

end Sys2Proof
end

