-- ==== Sys2Proof/Decode.lean ====
section
/-! DEFINITION. The decoder and, after it, the encoder: the fields of a word (R28), the prefixes that lengthen it
(R33 to R37), the major-opcode map (R51, R52) and the layout each entry gives its B field and its MOD QUAL. The
decoder is total on every list of bytes and refuses by name. -/

namespace Sys2Proof

/-! ## Bit fields -/

/-- The w bits of x that begin at bit lo. -/
def fld (lo w : Nat) {n : Nat} (x : BitVec n) : BitVec w := BitVec.ofNat w (x.toNat / 2 ^ lo)

/-- The n bits of x that begin at bit lo are all 0. -/
def zeros (lo w : Nat) {n : Nat} (x : BitVec n) : Bool := (x.toNat / 2 ^ lo) % 2 ^ w == 0

def bit1 (lo : Nat) {n : Nat} (x : BitVec n) : Bool := (x.toNat / 2 ^ lo) % 2 == 1

def b2n (b : Bool) : Nat := if b then 1 else 0

/-! ## The code tables of the entries -/

/-- TY codes of R83. -/
def IntTy.code : IntTy → BitVec 3
  | .i32 => 0
  | .n32 => 1
  | .i64 => 2
  | .n64 => 3
  | .i16 => 4
  | .n16 => 5
  | .i8 => 6
  | .n8 => 7
def IntTy.ofCode (c : BitVec 3) : Option IntTy :=
  match c.toNat with
  | 0 => some .i32
  | 1 => some .n32
  | 2 => some .i64
  | 3 => some .n64
  | 4 => some .i16
  | 5 => some .n16
  | 6 => some .i8
  | 7 => some .n8
  | _ => none

/-- FT codes of R118. -/
def FloatTy.code : FloatTy → BitVec 3
  | .f32 => 0
  | .f64 => 1
  | .f16 => 2
  | .bf16 => 3
  | .f16x2 => 4
  | .bf16x2 => 5
def FloatTy.ofCode (c : BitVec 3) : Option FloatTy :=
  match c.toNat with
  | 0 => some .f32
  | 1 => some .f64
  | 2 => some .f16
  | 3 => some .bf16
  | 4 => some .f16x2
  | 5 => some .bf16x2
  | _ => none

/-- Rounding codes of R70. -/
def Round.code : Round → BitVec 2
  | .rne => 0
  | .rz => 1
  | .rd => 2
  | .ru => 3
def Round.ofCode (c : BitVec 2) : Option Round :=
  match c.toNat with
  | 0 => some .rne
  | 1 => some .rz
  | 2 => some .rd
  | 3 => some .ru
  | _ => none

/-- cond of CMP (R96). -/
def Cond.code : Cond → BitVec 4
  | .eq => 0
  | .ne => 1
  | .lt => 2
  | .le => 3
  | .gt => 4
  | .ge => 5
def Cond.ofCode (c : BitVec 4) : Option Cond :=
  match c.toNat with
  | 0 => some .eq
  | 1 => some .ne
  | 2 => some .lt
  | 3 => some .le
  | 4 => some .gt
  | 5 => some .ge
  | _ => none

/-- cond of FCMP (R123). -/
def FCond.code : FCond → BitVec 4
  | .eq => 0
  | .ne => 1
  | .lt => 2
  | .le => 3
  | .gt => 4
  | .ge => 5
  | .un => 6
  | .ord => 7
def FCond.ofCode (c : BitVec 4) : Option FCond :=
  match c.toNat with
  | 0 => some .eq
  | 1 => some .ne
  | 2 => some .lt
  | 3 => some .le
  | 4 => some .gt
  | 5 => some .ge
  | 6 => some .un
  | 7 => some .ord
  | _ => none

/-- Format codes of R128. -/
def CvtFmt.code : CvtFmt → BitVec 5
  | .f32 => 0
  | .f64 => 1
  | .f16 => 2
  | .bf16 => 3
  | .e5m2 => 4
  | .e4m3 => 5
  | .e2m1 => 6
  | .i4 => 7
  | .n4 => 8
  | .i8 => 9
  | .n8 => 10
  | .i16 => 11
  | .n16 => 12
  | .i32 => 13
  | .n32 => 14
  | .i64 => 15
  | .n64 => 16
def CvtFmt.ofCode (c : BitVec 5) : Option CvtFmt :=
  match c.toNat with
  | 0 => some .f32
  | 1 => some .f64
  | 2 => some .f16
  | 3 => some .bf16
  | 4 => some .e5m2
  | 5 => some .e4m3
  | 6 => some .e2m1
  | 7 => some .i4
  | 8 => some .n4
  | 9 => some .i8
  | 10 => some .n8
  | 11 => some .i16
  | 12 => some .n16
  | 13 => some .i32
  | 14 => some .n32
  | 15 => some .i64
  | 16 => some .n64
  | _ => none

/-- NF codes of R131. -/
def NarrowFmt.code : NarrowFmt → BitVec 4
  | .e4m3 => 0
  | .e5m2 => 1
  | .e3m2 => 2
  | .e2m3 => 3
  | .e2m1 => 4
  | .i8 => 5
  | .n8 => 6
  | .i4 => 7
  | .n4 => 8
  | .f16 => 9
  | .bf16 => 10
def NarrowFmt.ofCode (c : BitVec 4) : Option NarrowFmt :=
  match c.toNat with
  | 0 => some .e4m3
  | 1 => some .e5m2
  | 2 => some .e3m2
  | 3 => some .e2m3
  | 4 => some .e2m1
  | 5 => some .i8
  | 6 => some .n8
  | 7 => some .i4
  | 8 => some .n4
  | 9 => some .f16
  | 10 => some .bf16
  | _ => none

/-- Format codes of R282. -/
def TileFmt.code : TileFmt → BitVec 3
  | .e2m1 => 0
  | .e4m3 => 1
  | .e5m2 => 2
  | .e3m2 => 3
  | .e2m3 => 4
  | .i4 => 5
  | .i8 => 6
  | .bf16 => 7
def TileFmt.ofCode (c : BitVec 3) : Option TileFmt :=
  match c.toNat with
  | 0 => some .e2m1
  | 1 => some .e4m3
  | 2 => some .e5m2
  | 3 => some .e3m2
  | 4 => some .e2m3
  | 5 => some .i4
  | 6 => some .i8
  | 7 => some .bf16
  | _ => none

/-- TF codes of R291. -/
def StoreFmt.code : StoreFmt → BitVec 3
  | .f32 => 0
  | .bf16 => 1
  | .f16 => 2
  | .e4m3 => 3
  | .e5m2 => 4
  | .e2m1 => 5
def StoreFmt.ofCode (c : BitVec 3) : Option StoreFmt :=
  match c.toNat with
  | 0 => some .f32
  | 1 => some .bf16
  | 2 => some .f16
  | 3 => some .e4m3
  | 4 => some .e5m2
  | 5 => some .e2m1
  | _ => none

/-- FMT codes of R135. -/
def DotFmt.code : DotFmt → BitVec 2
  | .fmt0 => 0
  | .fmt1 => 1
  | .fmt2 => 2
def DotFmt.ofCode (c : BitVec 2) : Option DotFmt :=
  match c.toNat with
  | 0 => some .fmt0
  | 1 => some .fmt1
  | 2 => some .fmt2
  | _ => none

/-- MAP codes of R134. -/
def ScaleMap.code : ScaleMap → BitVec 2
  | .byFt => 0
  | .m4 => 1
  | .m8 => 2
  | .m16 => 3
def ScaleMap.ofCode (c : BitVec 2) : Option ScaleMap :=
  match c.toNat with
  | 0 => some .byFt
  | 1 => some .m4
  | 2 => some .m8
  | 3 => some .m16
  | _ => none

/-- Kinds of RND (R138). -/
def RndKind.code : RndKind → BitVec 2
  | .n16 => 0
  | .n32 => 1
  | .n64 => 2
  | .f32 => 3
def RndKind.ofCode (c : BitVec 2) : Option RndKind :=
  match c.toNat with
  | 0 => some .n16
  | 1 => some .n32
  | 2 => some .n64
  | 3 => some .f32
  | _ => none

/-- MODE of SHFL (R162). -/
def ShflMode.code : ShflMode → BitVec 2
  | .idx => 0
  | .up => 1
  | .down => 2
  | .xor => 3
def ShflMode.ofCode (c : BitVec 2) : Option ShflMode :=
  match c.toNat with
  | 0 => some .idx
  | 1 => some .up
  | 2 => some .down
  | 3 => some .xor
  | _ => none

/-- Segment codes of R162. -/
def SegWidth.code : SegWidth → BitVec 3
  | .w32 => 0
  | .w16 => 1
  | .w8 => 2
  | .w4 => 3
  | .w2 => 4
def SegWidth.ofCode (c : BitVec 3) : Option SegWidth :=
  match c.toNat with
  | 0 => some .w32
  | 1 => some .w16
  | 2 => some .w8
  | 3 => some .w4
  | 4 => some .w2
  | _ => none

/-- k of BFLY (R164). -/
def BflyK.code : BflyK → BitVec 7
  | .k1 => 1
  | .k2 => 2
  | .k4 => 4
  | .k8 => 8
  | .k16 => 16
def BflyK.ofCode (c : BitVec 7) : Option BflyK :=
  match c.toNat with
  | 1 => some .k1
  | 2 => some .k2
  | 4 => some .k4
  | 8 => some .k8
  | 16 => some .k16
  | _ => none

/-- MODE of VOTE (R165). -/
def VoteMode.code : VoteMode → BitVec 2
  | .ballot => 0
  | .any => 1
  | .all => 2
  | .eq => 3
def VoteMode.ofCode (c : BitVec 2) : Option VoteMode :=
  match c.toNat with
  | 0 => some .ballot
  | 1 => some .any
  | 2 => some .all
  | 3 => some .eq
  | _ => none

/-- OP of REDX and SCANX (R167). -/
def RedOp.code : RedOp → BitVec 4
  | .add => 0
  | .min => 1
  | .max => 2
  | .and => 3
  | .or => 4
  | .xor => 5
  | .fadd => 6
def RedOp.ofCode (c : BitVec 4) : Option RedOp :=
  match c.toNat with
  | 0 => some .add
  | 1 => some .min
  | 2 => some .max
  | 3 => some .and
  | 4 => some .or
  | 5 => some .xor
  | 6 => some .fadd
  | _ => none

/-- SZ of R53. -/
def Size.code : Size → BitVec 2
  | .b8 => 0
  | .b16 => 1
  | .b32 => 2
  | .b64 => 3
def Size.ofCode (c : BitVec 2) : Option Size :=
  match c.toNat with
  | 0 => some .b8
  | 1 => some .b16
  | 2 => some .b32
  | 3 => some .b64
  | _ => none

/-- SZ of R247. -/
def SSize.code : SSize → BitVec 3
  | .b8 => 0
  | .b16 => 1
  | .b32 => 2
  | .b64 => 3
  | .b128 => 4
def SSize.ofCode (c : BitVec 3) : Option SSize :=
  match c.toNat with
  | 0 => some .b8
  | 1 => some .b16
  | 2 => some .b32
  | 3 => some .b64
  | 4 => some .b128
  | _ => none

/-- SZ of CPY and BCW (R295, R311). -/
def CSize.code : CSize → BitVec 2
  | .four => 0
  | .eight => 1
  | .sixteen => 2
def CSize.ofCode (c : BitVec 2) : Option CSize :=
  match c.toNat with
  | 0 => some .four
  | 1 => some .eight
  | 2 => some .sixteen
  | _ => none

/-- SCOPE of R53. -/
def Scope.code : Scope → BitVec 2
  | .g => 0
  | .k => 1
  | .d => 2
  | .s => 3
def Scope.ofCode (c : BitVec 2) : Option Scope :=
  match c.toNat with
  | 0 => some .g
  | 1 => some .k
  | 2 => some .d
  | 3 => some .s
  | _ => none

/-- SCOPE of R291. -/
def EngScope.code : EngScope → BitVec 2
  | .k => 0
  | .d => 1
  | .s => 2
def EngScope.ofCode (c : BitVec 2) : Option EngScope :=
  match c.toNat with
  | 0 => some .k
  | 1 => some .d
  | 2 => some .s
  | _ => none

/-- ORD of R251. -/
def Order.code : Order → BitVec 3
  | .rlx => 0
  | .acq => 1
  | .rel => 2
  | .acqrel => 3
def Order.ofCode (c : BitVec 3) : Option Order :=
  match c.toNat with
  | 0 => some .rlx
  | 1 => some .acq
  | 2 => some .rel
  | 3 => some .acqrel
  | _ => none

/-- ORD of R255. -/
def FenceOrder.code : FenceOrder → BitVec 3
  | .none => 0
  | .acq => 1
  | .rel => 2
  | .acqrel => 3
def FenceOrder.ofCode (c : BitVec 3) : Option FenceOrder :=
  match c.toNat with
  | 0 => some .none
  | 1 => some .acq
  | 2 => some .rel
  | 3 => some .acqrel
  | _ => none

/-- OP of R252. -/
def AtomOp.code : AtomOp → BitVec 4
  | .add => 0
  | .min => 1
  | .max => 2
  | .and => 3
  | .or => 4
  | .xor => 5
  | .exch => 6
  | .cas => 7
  | .fadd => 8
  | .fmin => 9
  | .fmax => 10
def AtomOp.ofCode (c : BitVec 4) : Option AtomOp :=
  match c.toNat with
  | 0 => some .add
  | 1 => some .min
  | 2 => some .max
  | 3 => some .and
  | 4 => some .or
  | 5 => some .xor
  | 6 => some .exch
  | 7 => some .cas
  | 8 => some .fadd
  | 9 => some .fmin
  | 10 => some .fmax
  | _ => none

/-- TY of R252. -/
def AtomTy.code : AtomTy → BitVec 3
  | .i32 => 0
  | .n32 => 1
  | .i64 => 2
  | .n64 => 3
  | .f32 => 4
  | .f64 => 5
  | .bf16x2 => 6
  | .f16x2 => 7
def AtomTy.ofCode (c : BitVec 3) : Option AtomTy :=
  match c.toNat with
  | 0 => some .i32
  | 1 => some .n32
  | 2 => some .i64
  | 3 => some .n64
  | 4 => some .f32
  | 5 => some .f64
  | 6 => some .bf16x2
  | 7 => some .f16x2
  | _ => none

/-- TY of RADD (R418). -/
def RaddTy.code : RaddTy → BitVec 3
  | .i32 => 0
  | .i64 => 1
  | .f32 => 2
  | .bf16 => 3
  | .f16 => 4
  | .e4m3 => 5
  | .e5m2 => 6
def RaddTy.ofCode (c : BitVec 3) : Option RaddTy :=
  match c.toNat with
  | 0 => some .i32
  | 1 => some .i64
  | 2 => some .f32
  | 3 => some .bf16
  | 4 => some .f16
  | 5 => some .e4m3
  | 6 => some .e5m2
  | _ => none

/-- TY of RMIN and RMAX (R418). -/
def RminTy.code : RminTy → BitVec 3
  | .i32 => 0
  | .n32 => 1
  | .i64 => 2
  | .n64 => 3
  | .f32 => 4
def RminTy.ofCode (c : BitVec 3) : Option RminTy :=
  match c.toNat with
  | 0 => some .i32
  | 1 => some .n32
  | 2 => some .i64
  | 3 => some .n64
  | 4 => some .f32
  | _ => none

/-- VC of R419: 0 stands for channel 2, 1 is undefined. -/
def Vc.code : Vc → BitVec 3
  | .dflt => 0
  | .vc2 => 2
  | .vc3 => 3
  | .vc4 => 4
  | .vc5 => 5
  | .vc6 => 6
  | .vc7 => 7
def Vc.ofCode (c : BitVec 3) : Option Vc :=
  match c.toNat with
  | 0 => some .dflt
  | 2 => some .vc2
  | 3 => some .vc3
  | 4 => some .vc4
  | 5 => some .vc5
  | 6 => some .vc6
  | 7 => some .vc7
  | _ => none

/-- Selectors of MOVS (R19, R312, R357). -/
def SpecialReg.code : SpecialReg → BitVec 7
  | .lane => 0
  | .slice => 1
  | .gang => 2
  | .block => 3
  | .blkdim => 4
  | .grid => 5
  | .core => 6
  | .die => 7
  | .pkg => 8
  | .groups => 9
  | .allot => 10
  | .tcbp => 11
  | .cycles => 12
  | .lstat => 13
  | .chstat => 35
  | .ptroot => 36
  | .defsuper => 37
  | .deffault => 38
def SpecialReg.ofCode (c : BitVec 7) : Option SpecialReg :=
  match c.toNat with
  | 0 => some .lane
  | 1 => some .slice
  | 2 => some .gang
  | 3 => some .block
  | 4 => some .blkdim
  | 5 => some .grid
  | 6 => some .core
  | 7 => some .die
  | 8 => some .pkg
  | 9 => some .groups
  | 10 => some .allot
  | 11 => some .tcbp
  | 12 => some .cycles
  | 13 => some .lstat
  | 35 => some .chstat
  | 36 => some .ptroot
  | 37 => some .defsuper
  | 38 => some .deffault
  | _ => none

/-- Selectors of MOVSW (R357). -/
def SysReg.code : SysReg → BitVec 7
  | .ptroot => 36
  | .defsuper => 37
  | .deffault => 38
def SysReg.ofCode (c : BitVec 7) : Option SysReg :=
  match c.toNat with
  | 36 => some .ptroot
  | 37 => some .defsuper
  | 38 => some .deffault
  | _ => none

/-! ## Words and prefixes -/

/-- A word with its prefixes folded in: the fields of R28, the VALUE of an IMM and of an OFF prefix, and the QUAL of
a MOD prefix, where one stands (R33 to R36). -/
structure Raw where
  imm : Option (BitVec 22)
  off : Option (BitVec 22)
  mod : Option (BitVec 16)
  c : Bool
  op : BitVec 7
  g : BitVec 3
  d : BitVec 7
  a : BitVec 7
  b : BitVec 7
  deriving DecidableEq, Repr

/-- The fields of a word (R28), with no prefix. -/
def Raw.ofWord (w : Word) : Raw :=
  { imm := none, off := none, mod := none, c := bit1 31 w, op := fld 24 7 w, g := fld 21 3 w, d := fld 14 7 w,
    a := fld 7 7 w, b := fld 0 7 w }

/-- The word of R28 that has these fields. -/
def Raw.word (r : Raw) : Word :=
  BitVec.ofNat 32 (b2n r.c * 2 ^ 31 + r.op.toNat * 2 ^ 24 + r.g.toNat * 2 ^ 21 + r.d.toNat * 2 ^ 14 +
    r.a.toNat * 2 ^ 7 + r.b.toNat)

/-- An EXT word: OP 0x0B, C = 1, KIND and VALUE (R33). -/
def extWord (kind : Nat) (v : Nat) : Word := BitVec.ofNat 32 (0x8B000000 + kind * 2 ^ 22 + v)

/-- The words of an instruction: its prefixes in the order IMM, OFF, MOD, then the word (R58). -/
def Raw.words (r : Raw) : List Word :=
  (r.imm.map fun v => extWord 0 v.toNat).toList ++ (r.off.map fun v => extWord 1 v.toNat).toList ++
    (r.mod.map fun v => extWord 2 v.toNat).toList ++ [r.word]

/-- The prefixes read so far. -/
structure Pre where
  imm : Option (BitVec 22)
  off : Option (BitVec 22)
  mod : Option (BitVec 16)
  deriving DecidableEq, Repr

def Pre.empty : Pre := { imm := none, off := none, mod := none }

/-- How many prefixes have been read. -/
def Pre.count (p : Pre) : Nat := p.imm.toList.length + p.off.toList.length + p.mod.toList.length

/-- One EXT word taken into the prefixes: C = 1, no repeated kind, no kind 11, at most two (R33, R37); SUBOP is 0 in
every major this manual describes (R36, R83, R118). -/
def Pre.take (p : Pre) (w : Word) : Except Illegal Pre :=
  if !bit1 31 w || 2 ≤ p.count then .error .badPrefix
  else
    match (fld 22 2 w).toNat with
    | 0 => if p.imm.isSome then .error .badPrefix else .ok { p with imm := some (fld 0 22 w) }
    | 1 => if p.off.isSome then .error .badPrefix else .ok { p with off := some (fld 0 22 w) }
    | 2 =>
      if p.mod.isSome then .error .badPrefix
      else if zeros 16 6 w then .ok { p with mod := some (fld 0 16 w) } else .error .qualifier
    | _ => .error .badPrefix

/-- Fold the prefixes into the word that follows them; the rest of the list comes back with it. -/
def readRaw (p : Pre) : List Word → Except Illegal (Raw × List Word)
  | [] => .error .short
  | w :: rest =>
    if fld 24 7 w = (0x0B : BitVec 7) then
      match p.take w with
      | .error e => .error e
      | .ok p' => readRaw p' rest
    else .ok ({ Raw.ofWord w with imm := p.imm, off := p.off, mod := p.mod }, rest)

/-! ## What a major's entry reads out of the folded word -/

/-- QUAL, 0 without a MOD prefix (R36). -/
def Raw.qual (r : Raw) : BitVec 16 := r.mod.getD 0
/-- The OFF value, 0 without an OFF prefix (R35). -/
def Raw.offV (r : Raw) : BitVec 22 := r.off.getD 0
def Raw.hd (r : Raw) : Hd := { chain := r.c, guard := r.g }
def Raw.imm14 (r : Raw) : BitVec 14 := BitVec.ofNat 14 (r.a.toNat * 2 ^ 7 + r.b.toNat)

/-- What a decoding arm answers. -/
abbrev Dec := Except Illegal Instr

/-- Go on if the condition holds, else refuse with the reason. -/
def req (c : Bool) (e : Illegal) (k : Dec) : Dec := if c then k else .error e
/-- Go on with the value of a code table, else refuse. -/
def want {α : Type} (o : Option α) (e : Illegal) (k : α → Dec) : Dec :=
  match o with
  | some v => k v
  | none => .error e

def Raw.noImm (r : Raw) (k : Dec) : Dec := req r.imm.isNone .badPrefix k
def Raw.noOff (r : Raw) (k : Dec) : Dec := req r.off.isNone .badPrefix k
/-- No IMM, no OFF: a word that takes MOD alone. -/
def Raw.modOnly (r : Raw) (k : Dec) : Dec := r.noImm (r.noOff k)
/-- No prefix but a MOD of QUAL 0. -/
def Raw.plain (r : Raw) (k : Dec) : Dec := r.modOnly (req (r.qual == 0) .qualifier k)
/-- An FM word with an address: no IMM (R243). -/
def Raw.fm (r : Raw) (k : Dec) : Dec := r.noImm k
/-- G = 7 (R161). -/
def Raw.unguarded (r : Raw) (k : Dec) : Dec := req (r.g == 7) .guard k
/-- C = 1: a control transfer is chained to its TRAIL (R44). -/
def Raw.chained (r : Raw) (k : Dec) : Dec := req r.c .shape k
def zeroF {n : Nat} (x : BitVec n) (k : Dec) : Dec := req (x == 0) .qualifier k
/-- B as a data source: with an IMM prefix B must be 0 (R34). -/
def Raw.src (r : Raw) (k : Src → Dec) : Dec :=
  match r.imm with
  | none => k (.reg r.b)
  | some v => zeroF r.b (k (.imm v))
/-- An FI immediate with an optional IMM prefix. -/
def Raw.fiImm (r : Raw) : Imm36 :=
  match r.imm with
  | none => .short r.imm14
  | some v => .long (BitVec.ofNat 36 (v.toNat * 2 ^ 14 + r.imm14.toNat))
/-- The packet offset of BRA and CALL with an optional OFF prefix (R35). -/
def Raw.braImm (r : Raw) : Imm36 :=
  match r.off with
  | none => .short r.imm14
  | some v => .long (BitVec.ofNat 36 (v.toNat * 2 ^ 14 + r.imm14.toNat))

/-- QUAL of R83 with the PS and SAT fields the entry uses. -/
def Raw.intQ (r : Raw) (usesPs usesSat : Bool) (k : IntTy → PredNo → Bool → Dec) : Dec :=
  req (zeros 7 9 r.qual && (usesPs || zeros 4 3 r.qual) && (usesSat || zeros 3 1 r.qual)) .qualifier
    (want (IntTy.ofCode (fld 0 3 r.qual)) .type fun ty => k ty (fld 4 3 r.qual) (bit1 3 r.qual))
/-- An F3 integer word with no PS and no SAT. -/
def Raw.int3 (r : Raw) (mk : Hd → IntTy → Reg → Reg → Src → Instr) : Dec :=
  r.noOff (r.intQ false false fun ty _ _ => r.src fun b => .ok (mk r.hd ty r.d r.a b))
def Raw.int3Sat (r : Raw) (mk : Hd → IntTy → Bool → Reg → Reg → Src → Instr) : Dec :=
  r.noOff (r.intQ false true fun ty _ sat => r.src fun b => .ok (mk r.hd ty sat r.d r.a b))
def Raw.int3Ps (r : Raw) (mk : Hd → IntTy → PredNo → Reg → Reg → Src → Instr) : Dec :=
  r.noOff (r.intQ true false fun ty ps _ => r.src fun b => .ok (mk r.hd ty ps r.d r.a b))
def Raw.int2 (r : Raw) (mk : Hd → IntTy → Reg → Reg → Instr) : Dec :=
  r.modOnly (r.intQ false false fun ty _ _ => .ok (mk r.hd ty r.d r.a))
def Raw.int2Sat (r : Raw) (mk : Hd → IntTy → Bool → Reg → Reg → Instr) : Dec :=
  r.modOnly (r.intQ false true fun ty _ sat => .ok (mk r.hd ty sat r.d r.a))

/-- QUAL of R118. -/
def Raw.floatQ (r : Raw) (usesRm : Bool) (k : FloatTy → Round → Dec) : Dec :=
  req (zeros 5 11 r.qual && (usesRm || zeros 3 2 r.qual)) .qualifier
    (want (FloatTy.ofCode (fld 0 3 r.qual)) .type fun ft => want (Round.ofCode (fld 3 2 r.qual)) .qualifier fun rm => k ft rm)
def Raw.float3 (r : Raw) (mk : Hd → FloatTy → Round → Reg → Reg → Src → Instr) : Dec :=
  r.noOff (r.floatQ true fun ft rm => r.src fun b => .ok (mk r.hd ft rm r.d r.a b))
def Raw.float3N (r : Raw) (mk : Hd → FloatTy → Reg → Reg → Src → Instr) : Dec :=
  r.noOff (r.floatQ false fun ft _ => r.src fun b => .ok (mk r.hd ft r.d r.a b))
def Raw.fun1 (r : Raw) (mk : Hd → FloatTy → Round → Reg → Reg → Instr) : Dec :=
  r.modOnly (r.floatQ true fun ft rm => .ok (mk r.hd ft rm r.d r.a))
def Raw.fun1N (r : Raw) (mk : Hd → FloatTy → Reg → Reg → Instr) : Dec :=
  r.modOnly (r.floatQ false fun ft _ => .ok (mk r.hd ft r.d r.a))

/-- QUAL of the dot products (R135): without SC the scale fields are 0. -/
def Raw.dot (r : Raw) (mk : Hd → DotFmt → Bool → Bool → Option DotScale → Reg → Reg → Reg → Instr) : Dec :=
  r.modOnly (want (DotFmt.ofCode (fld 0 2 r.qual)) .type fun fmt =>
    if bit1 4 r.qual then
      .ok (mk r.hd fmt (bit1 2 r.qual) (bit1 3 r.qual)
        (some { reg := fld 9 7 r.qual, selA := fld 7 2 r.qual, selB := fld 5 2 r.qual }) r.d r.a r.b)
    else req (zeros 5 11 r.qual) .qualifier
      (.ok (mk r.hd fmt (bit1 2 r.qual) (bit1 3 r.qual) none r.d r.a r.b)))

/-- QUAL of the remote words: VC in [2:0] and RX in [15:9] where the word has one (R419). -/
def Raw.vcQ (r : Raw) (usesRx : Bool) (k : Vc → Reg → Dec) : Dec :=
  req (zeros 3 6 r.qual && (usesRx || zeros 9 7 r.qual)) .qualifier
    (want (Vc.ofCode (fld 0 3 r.qual)) .qualifier fun vc => k vc (fld 9 7 r.qual))
/-- An FM word that takes no QUAL. -/
def Raw.fmPlain (r : Raw) (k : Dec) : Dec := r.fm (req (r.qual == 0) .qualifier k)

/-- Scratchpad and lane-private words: B of R247. -/
def Raw.sld (r : Raw) (mk : Hd → SSize → Bool → Reg → Reg → BitVec 22 → Instr) : Dec :=
  r.fmPlain (req (zeros 0 3 r.b) .qualifier (want (SSize.ofCode (fld 4 3 r.b)) .qualifier fun sz =>
    .ok (mk r.hd sz (bit1 3 r.b) r.d r.a r.offV)))
def Raw.sst (r : Raw) (mk : Hd → SSize → Reg → Reg → BitVec 22 → Instr) : Dec :=
  r.fmPlain (req (zeros 0 4 r.b) .qualifier (want (SSize.ofCode (fld 4 3 r.b)) .qualifier fun sz =>
    .ok (mk r.hd sz r.d r.a r.offV)))

/-! ## The decoding arms, one per major (R51, R52) -/

/-- Majors 0x00 to 0x0A: control. -/
def Raw.control (r : Raw) : Dec :=
  match r.op.toNat with
  | 0x00 => req r.mod.isNone .badPrefix (r.plain (zeroF r.d (zeroF r.a (zeroF r.b (.ok (.nop r.hd))))))
  | 0x01 => req (r.mod.isNone && !r.c) .shape (r.plain (r.unguarded (.ok (.trail r.d r.a r.b))))
  | 0x02 => r.plain (r.unguarded (zeroF r.d
      (.ok (.wait r.c (fld 10 4 r.imm14) (fld 6 4 r.imm14) (fld 3 3 r.imm14) (fld 0 3 r.imm14)))))
  | 0x03 => r.noImm (zeroF r.qual (r.chained (zeroF r.d (.ok (.bra r.g r.braImm)))))
  | 0x04 => r.plain (r.chained (zeroF r.d (zeroF r.b (.ok (.brx r.g r.a)))))
  | 0x05 => r.noImm (zeroF r.qual (r.chained (r.unguarded (.ok (.call r.d r.braImm)))))
  | 0x06 => r.plain (r.chained (zeroF r.d (zeroF r.b (.ok (.ret r.g r.a)))))
  | 0x07 => r.plain (r.chained (r.unguarded (zeroF r.d (zeroF r.a (zeroF r.b (.ok .join))))))
  | 0x08 => r.plain (r.chained (r.unguarded (zeroF r.d (zeroF r.a (zeroF r.b (.ok .regang))))))
  | 0x09 => r.plain (r.chained (zeroF r.d (zeroF r.a
      (match r.b.toNat with
       | 0 => .ok (.exit r.g)
       | 1 => r.unguarded (.ok .yield)
       | _ => .error .qualifier))))
  | 0x0A => r.plain (match r.d.toNat with
      | 0 => .ok (.trap r.hd r.imm14)
      | 1 => .ok (.brk r.hd r.imm14)
      | _ => .error .qualifier)
  | _ => .error .major

/-- Majors 0x0C to 0x22: integer arithmetic, logic and the IUN group. -/
def Raw.integer (r : Raw) : Dec :=
  match r.op.toNat with
  | 0x0C => r.int3Sat .add
  | 0x0D => r.int3Sat .sub
  | 0x0E => r.int3Ps .addc
  | 0x0F => r.int3Ps .subb
  | 0x10 => r.int3 .mul
  | 0x11 => r.int3 .mulh
  | 0x12 => r.int3 .mad
  | 0x13 => r.int3 .div
  | 0x14 => r.int3 .rem
  | 0x15 => r.int3 .min
  | 0x16 => r.int3 .max
  | 0x17 => r.int3 .and
  | 0x18 => r.int3 .or
  | 0x19 => r.int3 .xor
  | 0x1A => r.int3 .andn
  | 0x1B => r.int3 .orn
  | 0x1C => r.int3 .shl
  | 0x1D => r.int3 .shr
  | 0x1E => r.int3 .sar
  | 0x1F => r.int3 .rot
  | 0x20 => r.int3 .bfx
  | 0x21 => r.int3 .bfi
  | 0x22 =>
    match r.b.toNat with
    | 0 => r.int2 .mov
    | 1 => r.int2Sat .neg
    | 2 => r.int2Sat .abs
    | 3 => r.int2 .popc
    | 4 => r.int2 .clz
    | 5 => r.int2 .ctz
    | 6 => r.int2 .brev
    | _ => .error .qualifier
  | _ => .error .major

/-- Majors 0x23 to 0x2B: permutation, constants, predicates, special registers, flat loads and stores. -/
def Raw.misc (r : Raw) : Dec :=
  match r.op.toNat with
  | 0x23 => r.noOff (r.src fun b => .ok (.perm r.hd r.qual r.d r.a b))
  | 0x24 => r.int3Ps .sel
  | 0x25 => r.noOff (r.intQ false false fun ty _ _ => .ok (.movi r.hd ty r.d r.fiImm))
  | 0x26 => r.noOff (zeroF r.qual (.ok (.movh r.hd r.d r.fiImm)))
  | 0x27 => r.noOff (req (zeros 4 12 r.qual) .qualifier
      (r.src fun b => .ok (.lea r.hd (fld 0 3 r.qual) (bit1 3 r.qual) r.d r.a b)))
  | 0x28 => r.noOff (r.intQ false false fun ty _ _ => want (Cond.ofCode (fld 3 4 r.d)) .qualifier fun c =>
      r.src fun b => .ok (.cmp r.hd c ty (fld 0 3 r.d) r.a b))
  | 0x29 => r.plain (req (zeros 3 4 r.a && zeros 3 4 r.b) .qualifier
      (.ok (.plog r.hd (fld 3 4 r.d) (fld 0 3 r.d) (fld 0 3 r.a) (fld 0 3 r.b))))
  | 0x2A =>
    match r.b.toNat with
    | 0 => r.plain (want (SpecialReg.ofCode r.a) .selector fun s => .ok (.movs r.hd r.d s))
    | 1 => r.plain (zeroF r.d (.ok (.setxb r.hd r.a)))
    | 2 => r.plain (zeroF r.a (.ok (.pmovToReg r.hd r.d)))
    | 3 => r.plain (.ok (.pmovToPreds r.hd r.d r.a))
    | 4 => r.plain (zeroF r.d (.ok (.bsload r.hd r.a)))
    | 5 => r.modOnly (req (zeros 1 15 r.qual) .qualifier (.ok (.bsread r.hd (bit1 0 r.qual) r.d r.a)))
    | _ => .error .qualifier
  | 0x2B => r.fmPlain (req (zeros 0 3 r.b) .qualifier (want (Size.ofCode (fld 5 2 r.b)) .qualifier fun sz =>
      if bit1 4 r.b then req (!bit1 3 r.b) .qualifier (.ok (.st r.hd sz r.d r.a r.offV))
      else .ok (.ld r.hd sz (bit1 3 r.b) r.d r.a r.offV)))
  | _ => .error .major

/-- Majors 0x2C to 0x3F: floating point. -/
def Raw.float (r : Raw) : Dec :=
  match r.op.toNat with
  | 0x2C => r.float3 .fadd
  | 0x2D => r.float3 .fsub
  | 0x2E => r.float3 .fmul
  | 0x2F => r.float3 .fma
  | 0x30 => r.modOnly (r.floatQ true fun ft rm => .ok (.fma2 r.hd ft rm r.d r.a r.b))
  | 0x31 => r.float3N .fmin
  | 0x32 => r.float3N .fmax
  | 0x33 => r.noOff (r.floatQ false fun ft _ => want (FCond.ofCode (fld 3 4 r.d)) .qualifier fun c =>
      r.src fun b => .ok (.fcmp r.hd c ft (fld 0 3 r.d) r.a b))
  | 0x34 => r.float3 .fdiv
  | 0x35 =>
    match r.b.toNat with
    | 0 => r.fun1 .fsqrt
    | 1 => r.fun1 .frcp
    | 2 => r.fun1N .frsq
    | 3 => r.fun1N .fexp2
    | 4 => r.fun1N .flog2
    | 5 => r.fun1N .fsin
    | 6 => r.fun1N .fcos
    | 7 => r.fun1N .ftanh
    | 8 => r.fun1N .fclass
    | _ => .error .qualifier
  | 0x36 => r.modOnly (req (zeros 7 9 r.qual) .qualifier
      (want (CvtFmt.ofCode (fld 0 5 r.b)) .type fun dst => want (CvtFmt.ofCode (fld 0 5 r.qual)) .type fun src =>
        want (Round.ofCode (fld 5 2 r.b)) .qualifier fun rm =>
          .ok (.cvt r.hd dst src rm (bit1 5 r.qual) (bit1 6 r.qual) r.d r.a)))
  | 0x37 => r.modOnly (req (zeros 5 11 r.qual && zeros 5 2 r.b) .qualifier
      (want (CvtFmt.ofCode (fld 0 5 r.b)) .type fun dst => want (CvtFmt.ofCode (fld 0 5 r.qual)) .type fun src =>
        .ok (.cvtsr r.hd dst src r.d r.a)))
  | 0x38 => r.noOff (req (zeros 10 6 r.qual) .qualifier
      (want (NarrowFmt.ofCode (fld 0 4 r.qual)) .type fun nf => want (Round.ofCode (fld 7 2 r.qual)) .qualifier fun rm =>
        r.src fun b => .ok (.pack r.hd nf (bit1 9 r.qual) rm (bit1 6 r.qual) (fld 4 2 r.qual) r.d r.a b)))
  | 0x39 => r.modOnly (req (zeros 4 12 r.qual && zeros 4 3 r.b) .qualifier
      (want (NarrowFmt.ofCode (fld 0 4 r.qual)) .type fun nf =>
        .ok (.unpack r.hd nf (bit1 3 r.b) (fld 0 3 r.b) r.d r.a)))
  | 0x3A => r.dot .dot4
  | 0x3B => r.dot .dot6
  | 0x3C => r.dot .dot8
  | 0x3D => r.modOnly (req (zeros 5 2 r.qual && zeros 3 4 r.b) .qualifier
      (want (FloatTy.ofCode (fld 0 3 r.qual)) .type fun ft => want (Round.ofCode (fld 3 2 r.qual)) .qualifier fun rm =>
        want (ScaleMap.ofCode (fld 7 2 r.qual)) .qualifier fun m =>
          .ok (.scale r.hd ft rm m (fld 9 7 r.qual) (bit1 2 r.b) (fld 0 2 r.b) r.d r.a)))
  | 0x3E => r.plain (zeroF r.d (zeroF r.b (.ok (.rndseed r.hd r.a))))
  | 0x3F => r.plain (zeroF r.a (req (zeros 2 5 r.b) .qualifier
      (want (RndKind.ofCode (fld 0 2 r.b)) .qualifier fun k => .ok (.rnd r.hd k r.d))))
  | _ => .error .major

/-- Majors 0x48 to 0x53: cross-lane, groups and tasks. -/
def Raw.lanes (r : Raw) : Dec :=
  match r.op.toNat with
  | 0x48 => r.noOff (req (zeros 6 10 r.qual) .qualifier
      (want (ShflMode.ofCode (fld 0 2 r.qual)) .qualifier fun m => want (SegWidth.ofCode (fld 3 3 r.qual)) .qualifier fun w =>
        r.src fun b => .ok (.shfl r.hd m w (bit1 2 r.qual) r.d r.a b)))
  | 0x49 => r.noOff (req (zeros 1 15 r.qual) .qualifier (r.src fun b => .ok (.push r.hd (bit1 0 r.qual) r.d r.a b)))
  | 0x4A => r.modOnly (req (zeros 1 15 r.qual) .qualifier
      (want (BflyK.ofCode r.b) .qualifier fun k => .ok (.bfly r.hd (bit1 0 r.qual) k r.d r.a)))
  | 0x4B => r.modOnly (req (zeros 2 14 r.qual && zeros 3 4 r.a) .qualifier (zeroF r.b
      (want (VoteMode.ofCode (fld 0 2 r.qual)) .qualifier fun m => .ok (.vote r.hd m r.d (fld 0 3 r.a)))))
  | 0x4C => r.modOnly (req (zeros 1 15 r.qual) .qualifier (zeroF r.b
      (.ok (.matchLanes r.hd (bit1 0 r.qual) r.d r.a))))
  | 0x4D => r.modOnly (req (zeros 8 8 r.qual && zeros 3 1 r.qual && zeros 3 4 r.b) .qualifier
      (want (RedOp.ofCode (fld 4 4 r.qual)) .qualifier fun op => want (IntTy.ofCode (fld 0 3 r.qual)) .type fun ty =>
        want (SegWidth.ofCode (fld 0 3 r.b)) .qualifier fun w => .ok (.redx r.hd op ty w r.d r.a)))
  | 0x4E => r.modOnly (req (zeros 8 8 r.qual && zeros 3 1 r.qual && zeros 4 3 r.b) .qualifier
      (want (RedOp.ofCode (fld 4 4 r.qual)) .qualifier fun op => want (IntTy.ofCode (fld 0 3 r.qual)) .type fun ty =>
        want (SegWidth.ofCode (fld 0 3 r.b)) .qualifier fun w => .ok (.scanx r.hd op ty (bit1 3 r.b) w r.d r.a)))
  | 0x4F => r.plain (r.unguarded (zeroF r.d (req (zeros 11 3 r.imm14) .qualifier
      (match (fld 9 2 r.imm14).toNat with
       | 0 => .ok (.barSync r.c (fld 0 9 r.imm14))
       | 1 => .ok (.barArrive r.c (fld 0 9 r.imm14))
       | 2 => .ok (.barWait r.c (fld 0 9 r.imm14))
       | _ => .error .qualifier))))
  | 0x50 => r.plain (r.unguarded
      (match r.d.toNat with
       | 0 => .ok (.grow r.c r.imm14)
       | 1 => .ok (.shrink r.c r.imm14)
       | _ => .error .qualifier))
  | 0x51 => r.noOff (zeroF r.qual (r.src fun b => .ok (.launch r.hd r.d r.a b)))
  | 0x52 => r.plain (zeroF r.d (zeroF r.b (.ok (.arm r.hd r.a))))
  | 0x53 =>
    match r.b.toNat with
    | 0 => r.plain (r.unguarded (zeroF r.d (zeroF r.a (.ok (.take r.c)))))
    | 1 => r.plain (r.unguarded (zeroF r.d (zeroF r.a (.ok (.pass r.c)))))
    | 2 => r.modOnly (r.unguarded (req (zeros 7 9 r.qual) .qualifier (.ok (.rxwin r.c (fld 0 7 r.qual) r.d r.a))))
    | _ => .error .qualifier
  | _ => .error .major

/-- Majors 0x54 to 0x61: memory, atomics and fences. -/
def Raw.memory (r : Raw) : Dec :=
  match r.op.toNat with
  | 0x54 => r.fm (req (zeros 1 15 r.qual && zeros 3 2 r.b) .qualifier
      (want (Size.ofCode (fld 5 2 r.b)) .qualifier fun sz => want (Scope.ofCode (fld 0 2 r.b)) .qualifier fun sc =>
        .ok (.ldOrdered r.hd sz (bit1 0 r.qual) (bit1 2 r.b) sc r.d r.a r.offV)))
  | 0x55 => r.fmPlain (req (zeros 4 1 r.b && zeros 2 1 r.b) .qualifier
      (want (Size.ofCode (fld 5 2 r.b)) .qualifier fun sz => want (Scope.ofCode (fld 0 2 r.b)) .qualifier fun sc =>
        .ok (.stOrdered r.hd sz (bit1 3 r.b) sc r.d r.a r.offV)))
  | 0x56 => r.sld .lds
  | 0x57 => r.sst .sts
  | 0x58 => r.sld .ldp
  | 0x59 => r.sst .stp
  | 0x5A => r.fmPlain (req (zeros 1 2 r.b) .qualifier (want (SSize.ofCode (fld 4 3 r.b)) .qualifier fun sz =>
      .ok (.ldfe r.hd sz (bit1 3 r.b) (bit1 0 r.b) r.d r.a r.offV)))
  | 0x5B => r.fmPlain (req (r.b == 0x40) .qualifier (.ok (.stfe r.hd r.d r.a r.offV)))
  | 0x5C => r.fm (req (zeros 9 7 r.qual && zeros 3 2 r.qual && zeros 0 1 r.b) .qualifier
      (want (AtomOp.ofCode (fld 5 4 r.qual)) .qualifier fun op => want (AtomTy.ofCode (fld 0 3 r.qual)) .type fun ty =>
        want (Order.ofCode (fld 4 3 r.b)) .qualifier fun o => want (Scope.ofCode (fld 2 2 r.b)) .qualifier fun sc =>
          .ok (.atom r.hd op ty o sc (bit1 1 r.b) r.d r.a r.offV)))
  | 0x5D => r.fm (req (zeros 9 7 r.qual && zeros 3 2 r.qual && zeros 0 1 r.b && bit1 1 r.b && zeros 4 1 r.b &&
        zeros 6 1 r.b) .qualifier
      (want (AtomOp.ofCode (fld 5 4 r.qual)) .qualifier fun op => want (AtomTy.ofCode (fld 0 3 r.qual)) .type fun ty =>
        want (Scope.ofCode (fld 2 2 r.b)) .qualifier fun sc =>
          .ok (.red r.hd op ty (bit1 5 r.b) sc r.d r.a r.offV)))
  | 0x5E => r.plain (zeroF r.d (req (zeros 6 8 r.imm14) .qualifier
      (want (FenceOrder.ofCode (fld 2 3 r.imm14)) .qualifier fun o => want (Scope.ofCode (fld 0 2 r.imm14)) .qualifier fun sc =>
        .ok (.fence r.hd o sc (bit1 5 r.imm14)))))
  | 0x5F => r.fmPlain (zeroF r.d (req (zeros 6 1 r.b && zeros 0 5 r.b) .qualifier
      (.ok (.cflush r.hd (bit1 5 r.b) r.a r.offV))))
  | 0x60 => r.fmPlain (zeroF r.d (req (zeros 6 1 r.b && zeros 0 5 r.b) .qualifier
      (.ok (.cinv r.hd (bit1 5 r.b) r.a r.offV))))
  | 0x61 => r.fmPlain (zeroF r.d (req (zeros 6 1 r.b && zeros 0 5 r.b) .qualifier
      (.ok (.pref r.hd (bit1 5 r.b) r.a r.offV))))
  | _ => .error .major

/-- Majors 0x64 to 0x6F: matrix and copy engines. -/
def Raw.engine (r : Raw) : Dec :=
  match r.op.toNat with
  | 0x64 => r.plain (zeroF r.a (.ok (.talloc r.hd (bit1 6 r.b) (bit1 5 r.b) (fld 0 5 r.b) r.d)))
  | 0x65 => r.plain (zeroF r.d (zeroF r.a (req (zeros 5 1 r.b) .qualifier (.ok (.tfree r.hd (bit1 6 r.b) (fld 0 5 r.b))))))
  | 0x66 => r.fm (zeroF r.d (req (zeros 3 13 r.qual && zeros 5 2 r.b) .qualifier
      (want (TileFmt.ofCode (fld 0 3 r.qual)) .type fun f =>
        .ok (.tloadb r.hd f (bit1 3 r.b) (bit1 4 r.b) (fld 0 3 r.b) r.a r.offV))))
  | 0x67 => r.modOnly (req (zeros 11 5 r.qual) .qualifier
      (want (TileFmt.ofCode (fld 7 3 r.qual)) .type fun f =>
        .ok (.tmma r.hd (bit1 10 r.qual) f (fld 4 3 r.qual) (fld 0 4 r.qual) r.d r.a r.b)))
  | 0x68 => r.plain (zeroF r.d (zeroF r.a (req (zeros 4 3 r.b) .qualifier (.ok (.tzero r.hd (fld 0 4 r.b))))))
  | 0x69 => r.plain (zeroF r.d (req (zeros 6 1 r.b) .qualifier
      (.ok (.tcfg r.hd (bit1 4 r.b) (bit1 5 r.b) (fld 0 4 r.b) r.a))))
  | 0x6A => r.plain (zeroF r.d (.ok (.tread r.hd (fld 0 4 r.b) (fld 4 3 r.b) r.a)))
  | 0x6B => r.fm (zeroF r.d (req (zeros 4 12 r.qual && zeros 6 1 r.b) .qualifier
      (want (StoreFmt.ofCode (fld 0 3 r.b)) .type fun f => want (EngScope.ofCode (fld 4 2 r.b)) .qualifier fun sc =>
        .ok (.tstore r.hd f sc (bit1 3 r.b) (fld 0 4 r.qual) r.a r.offV))))
  | 0x6C => r.fmPlain (req (zeros 4 3 r.b) .qualifier
      (want (CSize.ofCode (fld 0 2 r.b)) .qualifier fun sz => want (EngScope.ofCode (fld 2 2 r.b)) .qualifier fun sc =>
        .ok (.cpy r.hd sz sc r.d r.a r.offV)))
  | 0x6D => r.modOnly (req (zeros 9 7 r.qual) .qualifier
      (want (EngScope.ofCode (fld 7 2 r.qual)) .qualifier fun sc =>
        .ok (.cpyt r.hd sc (bit1 6 r.qual) (fld 4 2 r.qual) (fld 2 2 r.qual) (fld 0 2 r.qual) r.d r.a r.b)))
  | 0x6E => r.fmPlain (req (zeros 2 5 r.d) .qualifier (zeroF r.b (.ok (.lrec r.hd (fld 0 2 r.d) r.a r.offV))))
  | 0x6F => r.plain
      (match r.d.toNat with
       | 0 => req (zeros 1 13 r.imm14) .qualifier (.ok (.seal r.hd (bit1 0 r.imm14)))
       | 1 => req (zeros 8 6 r.imm14) .qualifier (.ok (.bwait r.hd (fld 0 8 r.imm14)))
       | _ => .error .qualifier)
  | _ => .error .major

/-- Majors 0x70 to 0x7E: near memory, remote words and the system words. -/
def Raw.remote (r : Raw) : Dec :=
  match r.op.toNat with
  | 0x70 => r.fmPlain (zeroF r.d (req (zeros 0 5 r.b) .qualifier
      (if bit1 6 r.b then req (!bit1 5 r.b) .qualifier (.ok (.bookldUnpin r.hd r.a r.offV))
       else .ok (.bookld r.hd (bit1 5 r.b) r.a r.offV))))
  | 0x71 => r.modOnly (zeroF r.d (req (zeros 1 15 r.qual) .qualifier (.ok (.bookq r.hd (bit1 0 r.qual) r.a r.b))))
  | 0x72 => r.fm (req (zeros 0 9 r.qual && zeros 0 2 r.b) .qualifier
      (.ok (.ired r.hd (fld 5 2 r.b) (fld 3 2 r.b) (bit1 2 r.b) (fld 9 7 r.qual) r.d r.a r.offV)))
  | 0x73 => r.fmPlain (req (zeros 0 5 r.b) .qualifier (want (CSize.ofCode (fld 5 2 r.b)) .qualifier fun sz =>
      .ok (.bcw r.hd sz r.d r.a r.offV)))
  | 0x74 => r.fm (r.vcQ false fun vc _ => req (zeros 6 1 r.b && zeros 0 3 r.b) .qualifier
      (want (RaddTy.ofCode (fld 3 3 r.b)) .type fun ty => .ok (.radd r.hd ty vc r.d r.a r.offV)))
  | 0x75 => r.fm (r.vcQ false fun vc _ => req (zeros 0 3 r.b) .qualifier
      (want (RminTy.ofCode (fld 3 3 r.b)) .type fun ty =>
        if bit1 6 r.b then .ok (.rmax r.hd ty vc r.d r.a r.offV) else .ok (.rmin r.hd ty vc r.d r.a r.offV)))
  | 0x76 => r.fm (r.vcQ false fun vc _ =>
      if bit1 6 r.b then req (zeros 0 2 r.b) .qualifier (.ok (.rwo r.hd (fld 2 4 r.b) vc r.d r.a r.offV))
      else req (zeros 4 2 r.b && zeros 0 3 r.b) .qualifier (.ok (.ror r.hd (bit1 3 r.b) vc r.d r.a r.offV)))
  | 0x77 => r.fm (r.vcQ false fun vc _ => zeroF r.b (.ok (.rarv r.hd vc r.d r.a r.offV)))
  | 0x78 => r.fm (r.vcQ true fun vc rx => req (zeros 6 1 r.b && zeros 0 2 r.b) .qualifier
      (.ok (.rget r.hd (fld 2 4 r.b) rx vc r.d r.a r.offV)))
  | 0x79 => r.fm (zeroF r.qual (req (zeros 0 6 r.b) .qualifier
      (if bit1 6 r.b then r.noOff (r.unguarded (zeroF r.a (.ok (.rfence r.c r.d))))
       else .ok (.await r.hd r.d r.a r.offV))))
  | 0x7A => r.fm (if bit1 6 r.b then r.vcQ false fun vc _ => req (zeros 0 6 r.b) .qualifier
        (zeroF r.d (.ok (.accclr r.hd vc r.a r.offV)))
      else zeroF r.qual (req (zeros 0 5 r.b) .qualifier (.ok (.accrd r.hd (bit1 5 r.b) r.d r.a r.offV))))
  | 0x7B => r.noImm
      (match (fld 5 2 r.b).toNat with
       | 0 => r.noOff (zeroF r.qual (req (zeros 0 5 r.b) .qualifier (zeroF r.a (.ok (.mig r.hd r.d)))))
       | 1 => r.noOff (zeroF r.qual (r.chained (r.unguarded (req (zeros 0 5 r.b) .qualifier
            (zeroF r.d (zeroF r.a (.ok .home)))))))
       | 2 => r.vcQ true fun vc rx => .ok (.coll r.hd (fld 1 4 r.b) (bit1 0 r.b) rx vc r.d r.a r.offV)
       | _ => .error .qualifier)
  | 0x7C => r.plain (zeroF r.d (.ok (.svc r.hd r.imm14)))
  | 0x7D => r.plain
      (match r.b.toNat with
       | 0 => zeroF r.d (.ok (.eret r.hd r.a))
       | 1 => .ok (.halt r.hd r.d r.a)
       | _ => .error .qualifier)
  | 0x7E => r.plain
      (match r.b.toNat with
       | 0 =>
         (match r.a.toNat with
          | 13 => .ok (.movswLstat r.hd r.d)
          | 32 => .ok (.movswChkey r.hd r.d)
          | 33 => .ok (.movswChmode r.hd r.d)
          | 34 => .ok (.movswChconf r.hd r.d)
          | _ => want (SysReg.ofCode r.a) .selector fun s => .ok (.movsw r.hd s r.d))
       | 1 =>
         (match r.d.toNat with
          | 0 => .ok (.tlbinvPage r.hd r.a)
          | 1 => zeroF r.a (.ok (.tlbinvAll r.hd))
          | _ => .error .qualifier)
       | _ => .error .qualifier)
  | _ => .error .major

/-- The major-opcode map of R51. Majors 0x0B, 0x40 to 0x47, 0x62, 0x63 and 0x7F are no instruction of a core. -/
def Raw.instr (r : Raw) : Dec :=
  let n := r.op.toNat
  if n < 0x0B then r.control
  else if n < 0x23 then r.integer
  else if n < 0x2C then r.misc
  else if n < 0x40 then r.float
  else if n < 0x48 then .error .major
  else if n < 0x54 then r.lanes
  else if n < 0x62 then r.memory
  else if n < 0x64 then .error .major
  else if n < 0x70 then r.engine
  else r.remote

/-- A folded word as an instruction: its major's entry, then the checks of the entry's operands. -/
def Raw.decode (r : Raw) : Dec :=
  match r.instr with
  | .error e => .error e
  | .ok i =>
    match i.check with
    | none => .ok i
    | some e => .error e

/-- Decode the first instruction of a list of words; the words after it come back with it. -/
def decodeWords (ws : List Word) : Except Illegal (Instr × List Word) :=
  match readRaw Pre.empty ws with
  | .error e => .error e
  | .ok (r, rest) =>
    match r.decode with
    | .error e => .error e
    | .ok i => .ok (i, rest)

/-! ## Bytes: a word is four bytes, little-endian (R38) -/

def wordOfBytes (b0 b1 b2 b3 : Byte) : Word :=
  BitVec.ofNat 32 (b0.toNat + b1.toNat * 2 ^ 8 + b2.toNat * 2 ^ 16 + b3.toNat * 2 ^ 24)

def bytesOfWord (w : Word) : List Byte := [fld 0 8 w, fld 8 8 w, fld 16 8 w, fld 24 8 w]

/-- The whole words of a list of bytes; bytes that do not fill a word are dropped. -/
def wordsOfBytes : List Byte → List Word
  | b0 :: b1 :: b2 :: b3 :: rest => wordOfBytes b0 b1 b2 b3 :: wordsOfBytes rest
  | _ => []

/-- Decode the first instruction of a list of bytes: total, and a refusal names its reason. -/
def decode (bs : List Byte) : Except Illegal (Instr × List Byte) :=
  match decodeWords (wordsOfBytes bs) with
  | .error e => .error e
  | .ok (i, rest) => .ok (i, bs.drop (4 * ((wordsOfBytes bs).length - rest.length)))

/-- The little-endian words of a number whose lowest 32 bits are the first word. -/
def wordsOfNat : Nat → Nat → List Word
  | 0, _ => []
  | k + 1, w => BitVec.ofNat 32 w :: wordsOfNat k (w / 2 ^ 32)

/-- The instruction the decoder reads from w, numbered as the opcode table numbers its bits: bit 0 is bit 0 of the
first word. The words above the row's bits are 0; the longest instruction is three words. -/
def decodeTableWord (nbits w : Nat) : Option Instr :=
  match decode ((wordsOfNat 3 (w % 2 ^ nbits)).flatMap bytesOfWord) with
  | .ok (i, _) => some i
  | .error _ => none

/-! ## The encoder -/

/-- A MOD prefix stands only where QUAL is not 0 (R58). -/
def modOf (q : Nat) : Option (BitVec 16) := if q = 0 then none else some (BitVec.ofNat 16 q)
/-- An OFF prefix stands only where the offset is not 0. -/
def offOf (o : BitVec 22) : Option (BitVec 22) := if o = 0 then none else some o

/-- A word without prefixes. -/
def rawOf (op : Nat) (h : Hd) (d a b : Reg) : Raw :=
  { imm := none, off := none, mod := none, c := h.chain, op := BitVec.ofNat 7 op, g := h.guard, d := d, a := a, b := b }
def rawC (op : Nat) (chain : Bool) (d a b : Reg) : Raw := rawOf op { chain := chain, guard := 7 } d a b
/-- A word with a MOD prefix. -/
def rawQ (op : Nat) (h : Hd) (q : Nat) (d a b : Reg) : Raw := { rawOf op h d a b with mod := modOf q }
/-- A word whose B is a data source. -/
def rawS (op : Nat) (h : Hd) (q : Nat) (d a : Reg) (b : Src) : Raw :=
  match b with
  | .reg r => rawQ op h q d a r
  | .imm v => { rawQ op h q d a 0 with imm := some v }
/-- An FM word. -/
def rawM (op : Nat) (h : Hd) (q : Nat) (d a : Reg) (b : Nat) (off : BitVec 22) : Raw :=
  { rawQ op h q d a (BitVec.ofNat 7 b) with off := offOf off }
/-- An FI word: word[13:0] is A and B. -/
def rawI (op : Nat) (h : Hd) (q : Nat) (d : Reg) (v : BitVec 14) : Raw := rawQ op h q d (fld 7 7 v) (fld 0 7 v)
def rawImm36 (op : Nat) (h : Hd) (q : Nat) (d : Reg) : Imm36 → Raw
  | .short v => rawI op h q d v
  | .long v => { rawI op h q d (fld 0 14 v) with imm := some (fld 14 22 v) }
def rawBra (op : Nat) (h : Hd) (d : Reg) : Imm36 → Raw
  | .short v => rawI op h 0 d v
  | .long v => { rawI op h 0 d (fld 0 14 v) with off := some (fld 14 22 v) }
def chained (g : PredNo) : Hd := { chain := true, guard := g }

def intQ (ty : IntTy) : Nat := ty.code.toNat
def intQSat (ty : IntTy) (sat : Bool) : Nat := ty.code.toNat + b2n sat * 8
def intQPs (ty : IntTy) (ps : PredNo) : Nat := ty.code.toNat + ps.toNat * 16
def floatQ (ft : FloatTy) (rm : Round) : Nat := ft.code.toNat + rm.code.toNat * 8
def floatQN (ft : FloatTy) : Nat := ft.code.toNat
def dotQ (fmt : DotFmt) (alt half : Bool) (sc : Option DotScale) : Nat :=
  fmt.code.toNat + b2n alt * 4 + b2n half * 8 +
    match sc with
    | none => 0
    | some s => 16 + s.selB.toNat * 2 ^ 5 + s.selA.toNat * 2 ^ 7 + s.reg.toNat * 2 ^ 9
def predF (hi : Nat) (p : PredNo) : Reg := BitVec.ofNat 7 (hi * 8 + p.toNat)

/-- The folded word of an instruction: the layouts of the entries, written the other way. An event has none. -/
def Instr.raw : Instr → Option Raw
  | .nop h => some (rawOf 0x00 h 0 0 0)
  | .trail d a b => some (rawC 0x01 false d a b)
  | .wait c l s t m =>
      some (rawI 0x02 { chain := c, guard := 7 } 0 0
        (BitVec.ofNat 14 (l.toNat * 2 ^ 10 + s.toNat * 2 ^ 6 + t.toNat * 2 ^ 3 + m.toNat)))
  | .bra g i => some (rawBra 0x03 (chained g) 0 i)
  | .brx g a => some (rawOf 0x04 (chained g) 0 a 0)
  | .call d i => some (rawBra 0x05 (chained 7) d i)
  | .ret g a => some (rawOf 0x06 (chained g) 0 a 0)
  | .join => some (rawOf 0x07 (chained 7) 0 0 0)
  | .regang => some (rawOf 0x08 (chained 7) 0 0 0)
  | .exit g => some (rawOf 0x09 (chained g) 0 0 0)
  | .yield => some (rawOf 0x09 (chained 7) 0 0 1)
  | .trap h c => some (rawI 0x0A h 0 0 c)
  | .brk h c => some (rawI 0x0A h 0 1 c)
  | .add h ty sat d a b => some (rawS 0x0C h (intQSat ty sat) d a b)
  | .sub h ty sat d a b => some (rawS 0x0D h (intQSat ty sat) d a b)
  | .addc h ty ps d a b => some (rawS 0x0E h (intQPs ty ps) d a b)
  | .subb h ty ps d a b => some (rawS 0x0F h (intQPs ty ps) d a b)
  | .mul h ty d a b => some (rawS 0x10 h (intQ ty) d a b)
  | .mulh h ty d a b => some (rawS 0x11 h (intQ ty) d a b)
  | .mad h ty d a b => some (rawS 0x12 h (intQ ty) d a b)
  | .div h ty d a b => some (rawS 0x13 h (intQ ty) d a b)
  | .rem h ty d a b => some (rawS 0x14 h (intQ ty) d a b)
  | .min h ty d a b => some (rawS 0x15 h (intQ ty) d a b)
  | .max h ty d a b => some (rawS 0x16 h (intQ ty) d a b)
  | .and h ty d a b => some (rawS 0x17 h (intQ ty) d a b)
  | .or h ty d a b => some (rawS 0x18 h (intQ ty) d a b)
  | .xor h ty d a b => some (rawS 0x19 h (intQ ty) d a b)
  | .andn h ty d a b => some (rawS 0x1A h (intQ ty) d a b)
  | .orn h ty d a b => some (rawS 0x1B h (intQ ty) d a b)
  | .shl h ty d a b => some (rawS 0x1C h (intQ ty) d a b)
  | .shr h ty d a b => some (rawS 0x1D h (intQ ty) d a b)
  | .sar h ty d a b => some (rawS 0x1E h (intQ ty) d a b)
  | .rot h ty d a b => some (rawS 0x1F h (intQ ty) d a b)
  | .bfx h ty d a b => some (rawS 0x20 h (intQ ty) d a b)
  | .bfi h ty d a b => some (rawS 0x21 h (intQ ty) d a b)
  | .mov h ty d a => some (rawQ 0x22 h (intQ ty) d a 0)
  | .neg h ty sat d a => some (rawQ 0x22 h (intQSat ty sat) d a 1)
  | .abs h ty sat d a => some (rawQ 0x22 h (intQSat ty sat) d a 2)
  | .popc h ty d a => some (rawQ 0x22 h (intQ ty) d a 3)
  | .clz h ty d a => some (rawQ 0x22 h (intQ ty) d a 4)
  | .ctz h ty d a => some (rawQ 0x22 h (intQ ty) d a 5)
  | .brev h ty d a => some (rawQ 0x22 h (intQ ty) d a 6)
  | .perm h q d a b => some (rawS 0x23 h q.toNat d a b)
  | .sel h ty ps d a b => some (rawS 0x24 h (intQPs ty ps) d a b)
  | .movi h ty d i => some (rawImm36 0x25 h (intQ ty) d i)
  | .movh h d i => some (rawImm36 0x26 h 0 d i)
  | .lea h s z d a b => some (rawS 0x27 h (s.toNat + b2n z * 8) d a b)
  | .cmp h c ty p a b => some (rawS 0x28 h (intQ ty) (predF c.code.toNat p) a b)
  | .plog h lut pd pa pb => some (rawOf 0x29 h (predF lut.toNat pd) (predF 0 pa) (predF 0 pb))
  | .movs h d r => some (rawOf 0x2A h d r.code 0)
  | .setxb h a => some (rawOf 0x2A h 0 a 1)
  | .pmovToReg h d => some (rawOf 0x2A h d 0 2)
  | .pmovToPreds h m a => some (rawOf 0x2A h m a 3)
  | .bsload h a => some (rawOf 0x2A h 0 a 4)
  | .bsread h sx d k => some (rawQ 0x2A h (b2n sx) d k 5)
  | .ld h sz sx d a o => some (rawM 0x2B h 0 d a (sz.code.toNat * 32 + b2n sx * 8) o)
  | .st h sz d a o => some (rawM 0x2B h 0 d a (sz.code.toNat * 32 + 16) o)
  | .fadd h ft rm d a b => some (rawS 0x2C h (floatQ ft rm) d a b)
  | .fsub h ft rm d a b => some (rawS 0x2D h (floatQ ft rm) d a b)
  | .fmul h ft rm d a b => some (rawS 0x2E h (floatQ ft rm) d a b)
  | .fma h ft rm d a b => some (rawS 0x2F h (floatQ ft rm) d a b)
  | .fma2 h ft rm d a b => some (rawQ 0x30 h (floatQ ft rm) d a b)
  | .fmin h ft d a b => some (rawS 0x31 h (floatQN ft) d a b)
  | .fmax h ft d a b => some (rawS 0x32 h (floatQN ft) d a b)
  | .fcmp h c ft p a b => some (rawS 0x33 h (floatQN ft) (predF c.code.toNat p) a b)
  | .fdiv h ft rm d a b => some (rawS 0x34 h (floatQ ft rm) d a b)
  | .fsqrt h ft rm d a => some (rawQ 0x35 h (floatQ ft rm) d a 0)
  | .frcp h ft rm d a => some (rawQ 0x35 h (floatQ ft rm) d a 1)
  | .frsq h ft d a => some (rawQ 0x35 h (floatQN ft) d a 2)
  | .fexp2 h ft d a => some (rawQ 0x35 h (floatQN ft) d a 3)
  | .flog2 h ft d a => some (rawQ 0x35 h (floatQN ft) d a 4)
  | .fsin h ft d a => some (rawQ 0x35 h (floatQN ft) d a 5)
  | .fcos h ft d a => some (rawQ 0x35 h (floatQN ft) d a 6)
  | .ftanh h ft d a => some (rawQ 0x35 h (floatQN ft) d a 7)
  | .fclass h ft d a => some (rawQ 0x35 h (floatQN ft) d a 8)
  | .cvt h dst src rm sat int d a =>
      some (rawQ 0x36 h (src.code.toNat + b2n sat * 32 + b2n int * 64) d a
        (BitVec.ofNat 7 (dst.code.toNat + rm.code.toNat * 32)))
  | .cvtsr h dst src d a => some (rawQ 0x37 h src.code.toNat d a (BitVec.ofNat 7 dst.code.toNat))
  | .pack h nf sr rm half j d a b =>
      some (rawS 0x38 h (nf.code.toNat + j.toNat * 16 + b2n half * 64 + rm.code.toNat * 128 + b2n sr * 512) d a b)
  | .unpack h nf half i d a => some (rawQ 0x39 h nf.code.toNat d a (BitVec.ofNat 7 (i.toNat + b2n half * 8)))
  | .dot4 h fmt alt half sc d a b => some (rawQ 0x3A h (dotQ fmt alt half sc) d a b)
  | .dot6 h fmt alt half sc d a b => some (rawQ 0x3B h (dotQ fmt alt half sc) d a b)
  | .dot8 h fmt alt half sc d a b => some (rawQ 0x3C h (dotQ fmt alt half sc) d a b)
  | .scale h ft rm m sr inv se d a =>
      some (rawQ 0x3D h (ft.code.toNat + rm.code.toNat * 8 + m.code.toNat * 128 + sr.toNat * 512) d a
        (BitVec.ofNat 7 (se.toNat + b2n inv * 4)))
  | .rndseed h a => some (rawOf 0x3E h 0 a 0)
  | .rnd h k d => some (rawOf 0x3F h d 0 (BitVec.ofNat 7 k.code.toNat))
  | .shfl h m w x64 d a b => some (rawS 0x48 h (m.code.toNat + b2n x64 * 4 + w.code.toNat * 8) d a b)
  | .push h x64 d a b => some (rawS 0x49 h (b2n x64) d a b)
  | .bfly h x64 k d a => some (rawQ 0x4A h (b2n x64) d a k.code)
  | .vote h m d pa => some (rawQ 0x4B h m.code.toNat d (predF 0 pa) 0)
  | .matchLanes h x64 d a => some (rawQ 0x4C h (b2n x64) d a 0)
  | .redx h op ty w d a =>
      some (rawQ 0x4D h (ty.code.toNat + op.code.toNat * 16) d a (BitVec.ofNat 7 w.code.toNat))
  | .scanx h op ty e w d a =>
      some (rawQ 0x4E h (ty.code.toNat + op.code.toNat * 16) d a (BitVec.ofNat 7 (w.code.toNat + b2n e * 8)))
  | .barSync c g => some (rawI 0x4F { chain := c, guard := 7 } 0 0 (BitVec.ofNat 14 g.toNat))
  | .barArrive c g => some (rawI 0x4F { chain := c, guard := 7 } 0 0 (BitVec.ofNat 14 (g.toNat + 512)))
  | .barWait c g => some (rawI 0x4F { chain := c, guard := 7 } 0 0 (BitVec.ofNat 14 (g.toNat + 1024)))
  | .grow c n => some (rawI 0x50 { chain := c, guard := 7 } 0 0 n)
  | .shrink c n => some (rawI 0x50 { chain := c, guard := 7 } 0 1 n)
  | .launch h d a b => some (rawS 0x51 h 0 d a b)
  | .arm h a => some (rawOf 0x52 h 0 a 0)
  | .take c => some (rawC 0x53 c 0 0 0)
  | .pass c => some (rawC 0x53 c 0 0 1)
  | .rxwin c n d base => some (rawQ 0x53 { chain := c, guard := 7 } n.toNat d base 2)
  | .ldOrdered h sz sx acq sc d a o =>
      some (rawM 0x54 h (b2n sx) d a (sz.code.toNat * 32 + b2n acq * 4 + sc.code.toNat) o)
  | .stOrdered h sz rel sc d a o =>
      some (rawM 0x55 h 0 d a (sz.code.toNat * 32 + b2n rel * 8 + sc.code.toNat) o)
  | .lds h sz sx d a o => some (rawM 0x56 h 0 d a (sz.code.toNat * 16 + b2n sx * 8) o)
  | .sts h sz d a o => some (rawM 0x57 h 0 d a (sz.code.toNat * 16) o)
  | .ldp h sz sx d a o => some (rawM 0x58 h 0 d a (sz.code.toNat * 16 + b2n sx * 8) o)
  | .stp h sz d a o => some (rawM 0x59 h 0 d a (sz.code.toNat * 16) o)
  | .ldfe h sz sx clr d a o => some (rawM 0x5A h 0 d a (sz.code.toNat * 16 + b2n sx * 8 + b2n clr) o)
  | .stfe h d a o => some (rawM 0x5B h 0 d a 64 o)
  | .atom h op ty ord sc noret d a o =>
      some (rawM 0x5C h (ty.code.toNat + op.code.toNat * 32) d a
        (ord.code.toNat * 16 + sc.code.toNat * 4 + b2n noret * 2) o)
  | .red h op ty rel sc d a o =>
      some (rawM 0x5D h (ty.code.toNat + op.code.toNat * 32) d a (b2n rel * 32 + sc.code.toNat * 4 + 2) o)
  | .fence h ord sc als =>
      some (rawI 0x5E h 0 0 (BitVec.ofNat 14 (b2n als * 32 + ord.code.toNat * 4 + sc.code.toNat)))
  | .cflush h die a o => some (rawM 0x5F h 0 0 a (b2n die * 32) o)
  | .cinv h die a o => some (rawM 0x60 h 0 0 a (b2n die * 32) o)
  | .pref h l2 a o => some (rawM 0x61 h 0 0 a (b2n l2 * 32) o)
  | .talloc h isB any n d => some (rawOf 0x64 h d 0 (BitVec.ofNat 7 (b2n isB * 64 + b2n any * 32 + n.toNat)))
  | .tfree h isB n => some (rawOf 0x65 h 0 0 (BitVec.ofNat 7 (b2n isB * 64 + n.toNat)))
  | .tloadb h f orT sp bh a o =>
      some (rawM 0x66 h f.code.toNat 0 a (bh.toNat + b2n orT * 8 + b2n sp * 16) o)
  | .tmma h tri af bh acc ro so c =>
      some (rawQ 0x67 h (acc.toNat + bh.toNat * 16 + af.code.toNat * 128 + b2n tri * 1024) ro so c)
  | .tzero h acc => some (rawOf 0x68 h 0 0 (BitVec.ofNat 7 acc.toNat))
  | .tcfg h sr reseed acc a => some (rawOf 0x69 h 0 a (BitVec.ofNat 7 (acc.toNat + b2n sr * 16 + b2n reseed * 32)))
  | .tread h acc n a => some (rawOf 0x6A h 0 a (BitVec.ofNat 7 (acc.toNat + n.toNat * 16)))
  | .tstore h tf sc sr acc a o =>
      some (rawM 0x6B h acc.toNat 0 a (tf.code.toNat + b2n sr * 8 + sc.code.toNat * 16) o)
  | .cpy h sz sc d a o => some (rawM 0x6C h 0 d a (sz.code.toNat + sc.code.toNat * 4) o)
  | .cpyt h sc ind ks kf kd od of_ os =>
      some (rawQ 0x6D h (kd.toNat + kf.toNat * 4 + ks.toNat * 16 + b2n ind * 64 + sc.code.toNat * 128) od of_ os)
  | .lrec h k a o => some (rawM 0x6E h 0 (BitVec.ofNat 7 k.toNat) a 0 o)
  | .seal h q => some (rawI 0x6F h 0 0 (BitVec.ofNat 14 (b2n q)))
  | .bwait h n => some (rawI 0x6F h 0 1 (BitVec.ofNat 14 n.toNat))
  | .bookld h e16 a o => some (rawM 0x70 h 0 0 a (b2n e16 * 32) o)
  | .bookldUnpin h a o => some (rawM 0x70 h 0 0 a 64 o)
  | .bookq h e16 a b => some (rawQ 0x71 h (b2n e16) 0 a b)
  | .ired h kt ko acc bag d a o =>
      some (rawM 0x72 h (bag.toNat * 512) d a (kt.toNat * 32 + ko.toNat * 8 + b2n acc * 4) o)
  | .bcw h sz d a o => some (rawM 0x73 h 0 d a (sz.code.toNat * 32) o)
  | .radd h ty vc d a o => some (rawM 0x74 h vc.code.toNat d a (ty.code.toNat * 8) o)
  | .rmin h ty vc d a o => some (rawM 0x75 h vc.code.toNat d a (ty.code.toNat * 8) o)
  | .rmax h ty vc d a o => some (rawM 0x75 h vc.code.toNat d a (ty.code.toNat * 8 + 64) o)
  | .ror h b64 vc d a o => some (rawM 0x76 h vc.code.toNat d a (b2n b64 * 8) o)
  | .rwo h n vc d a o => some (rawM 0x76 h vc.code.toNat d a (n.toNat * 4 + 64) o)
  | .rarv h vc d a o => some (rawM 0x77 h vc.code.toNat d a 0 o)
  | .rget h n rx vc d a o => some (rawM 0x78 h (vc.code.toNat + rx.toNat * 512) d a (n.toNat * 4) o)
  | .await h d a o => some (rawM 0x79 h 0 d a 0 o)
  | .rfence c d => some (rawC 0x79 c d 0 64)
  | .accrd h bf d a o => some (rawM 0x7A h 0 d a (b2n bf * 32) o)
  | .accclr h vc a o => some (rawM 0x7A h vc.code.toNat 0 a 64 o)
  | .mig h d => some (rawOf 0x7B h d 0 0)
  | .home => some (rawOf 0x7B (chained 7) 0 0 32)
  | .coll h n arv rx vc d a o =>
      some (rawM 0x7B h (vc.code.toNat + rx.toNat * 512) d a (64 + n.toNat * 2 + b2n arv) o)
  | .svc h c => some (rawI 0x7C h 0 0 c)
  | .eret h a => some (rawOf 0x7D h 0 a 0)
  | .halt h d a => some (rawOf 0x7D h d a 1)
  | .movswLstat h s => some (rawOf 0x7E h s 13 0)
  | .movswChkey h s => some (rawOf 0x7E h s 32 0)
  | .movswChmode h s => some (rawOf 0x7E h s 33 0)
  | .movswChconf h s => some (rawOf 0x7E h s 34 0)
  | .movsw h r s => some (rawOf 0x7E h s r.code 0)
  | .tlbinvPage h a => some (rawOf 0x7E h 0 a 1)
  | .tlbinvAll h => some (rawOf 0x7E h 1 0 1)
  | _ => none

/-- The words of a well-formed instruction; an event has none. -/
def encodeWords (i : Instr) : List Word :=
  match i.raw with
  | some r => r.words
  | none => []

/-- The bytes of a well-formed instruction. -/
def encode (i : Instr) : List Byte := (encodeWords i).flatMap bytesOfWord

end Sys2Proof
end

