-- ==== Sys2Proof/Machine/State.lean ====
section
/-! DEFINITION. The state of the machine as plain data: everything the spec names, from the registers of a lane to the
packets of the fabric, with the faults and refusals a step can end in, and the state after reset. -/

namespace Sys2Proof.Machine

/-! ## Where things are

A die is numbered package × 8 + die, a core die × 64 + core, an issue slot core × 2 + slot. A flat cell is numbered
(die × 4 + place) × 2^64 + address, where a first-tier cell stands at its bank-linear address, so that the two windows
of R210 and R211 meet in one cell. -/

/-- One byte of flat memory at a cell number; a cell that is not listed holds 0. -/
abbrev Memory := List Host.Cell

/-- What a granule of flat memory carries in its ECC metadata (R389, R105): the granule numbers (cell / 32) that hold
poison, have been written once, or stand in conflict. -/
structure GranuleBits where
  poison : List Nat
  written : List Nat
  conflict : List Nat
  deriving DecidableEq, Repr

/-! ## A gang and its lanes -/

/-- The per-lane state of a gang (R11). Keys: lane × 512 + allotment register, lane × 8 + w register, or the lane. -/
structure Lanes where
  regs : Tab Word
  w : Tab Word
  preds : Tab (BitVec 7)
  lstat : Tab (BitVec 6)
  cursor : Tab (BitVec 55)
  g0 : Tab DWord
  g1 : Tab DWord
  remote : Tab (BitVec 3)
  deriving DecidableEq, Repr

def Lanes.empty : Lanes :=
  { regs := [], w := [], preds := [], lstat := [], cursor := [], g0 := [], g1 := [], remote := [] }

/-- A fragment of a slice (R403): its active set, its divergence stack with the top first, the packet it stands at, the
packet a transfer of the run in progress has named, and its cohort. -/
structure Frag where
  slice : Nat
  act : LaneSet
  stack : List (Nat × LaneSet)
  pc : Nat
  next : Option Nat
  cohort : Nat
  deriving DecidableEq, Repr

/-- The rest of a run that a trap or a migration cut (R49, R407): the run's first packet, the position of the next word
counted in words from it, the register index in force, the lanes the rest acts on, whether w registers are kept. Its
number is that of the run. -/
structure Resume where
  id : Nat
  base : Nat
  pos : Nat
  xb : Nat
  act : LaneSet
  keepW : Bool
  deriving DecidableEq, Repr

/-- A cohort of a gang (R142 to R144). Its fragments name it. `regang` says that its run has executed a REGANG, which gathers it
at the run's end; `fenceAt` is where the operations begin that the RFENCE run it attempts does not wait for (R429). -/
structure Cohort where
  id : Nat
  gathered : Bool
  regang : Bool
  barWait : List (Nat × Nat)
  fenceAt : Option Nat
  resume : Option Resume
  stamp : Nat
  deriving DecidableEq, Repr

/-- The lanes of a slice that are away from their gang: in a ply, or running as a guest (R403). -/
structure Away where
  slice : Nat
  lanes : LaneSet
  deriving DecidableEq, Repr

/-- The place of a guest's fragment (R407, R411): its gang of origin and slice there, the lanes it came with that have
not left it again, its hops, the register index of its gang as it left, the index its registers were taken under and its
gang's allotment (R13), and whether it has left the place. -/
structure Guest where
  origin : Nat
  slice : Nat
  all : BitVec 4
  hops : Nat
  xb : Nat
  base : Nat
  allot : Nat
  left : Bool
  deriving DecidableEq, Repr

/-- An open register window (R180). -/
structure Window where
  base : Nat
  n : Nat
  handle : Nat
  deriving DecidableEq, Repr

/-- A batch of a lane (R293): its number, 0 for the open one, whether its status word is posted, whether a copy failed. -/
structure Batch where
  lane : Nat
  num : Nat
  post : Bool
  fail : Bool
  deriving DecidableEq, Repr

/-- A gang held at a trap (R347, R348): the record's token, the cohort that trapped, its performing lanes, the operation
that met poison when it was performed, whether it can be resumed, and RREG, RVAL and RESUMEPC of an ERET that came
while the gang was saved (R358). -/
structure Hold where
  token : Nat
  cohort : Nat
  lanes : LaneSet
  op : Option Nat
  resumePc : Nat
  resumable : Bool
  marked : Option (Nat × Nat × Nat)
  deriving DecidableEq, Repr

inductive GangStatus where
  | resident | saved | ended
  deriving DecidableEq, Repr

/-- A gang (R140). `arrivals` holds, for each group, one more than the generation of the latest arrival, and `marks` the
number that operations issued after that arrival begin at (R171, R172). -/
structure Gang where
  task : Nat
  block : Nat
  num : Nat
  core : Nat
  place : Nat
  status : GangStatus
  lanes : Lanes
  q0 : Tab (List Word)
  q1 : Tab (List Word)
  q2 : Tab (List Word)
  xb : Nat
  allot : Nat
  units : List Nat
  window : Option Window
  frags : List Frag
  cohorts : List Cohort
  nextCohort : Nat
  away : List Away
  groups : List Nat
  arrivals : Tab Nat
  marks : Tab Nat
  seals : Tab Nat
  finished : Tab Nat
  batches : List Batch
  records : Tab (Option (BitVec 512))
  holds : List Hold
  seqs : Tab Nat
  started : Bool
  guests : List Guest
  deriving DecidableEq, Repr

/-! ## A run in an issue slot -/

/-- A run that holds an issue slot (R47, R48): its number, its raw words from packet base, the position of its next word, the
register index and active lanes it started with, the lane state as the run's start found it (R249) and as its issue group did
(R41), and the lanes whose generators a RNDSEED of the group has set (R139). `paired` says that its next group issues in one
c-cycle with one of another run of its gang, and has read the lanes (R159), `stalled` that its word waits for a walk (R316). -/
structure Run where
  id : Nat
  gang : Nat
  cohort : Nat
  base : Nat
  words : List Word
  pos : Nat
  xb : Nat
  act : LaneSet
  entry : Lanes
  group : Lanes
  seeded : LaneSet
  paired : Bool := false
  stalled : Bool := false
  deriving DecidableEq, Repr

/-! ## Accesses and engine operations -/

/-- The wait-counter classes (R107). -/
inductive Cls where
  | ld | st | tl | rm | none
  deriving DecidableEq, Repr

/-- The storage an access reaches (R201). -/
inductive Space where
  | flat (win : Bool)
  | scratch
  | priv
  deriving DecidableEq, Repr

/-- One lane's access of a word: the cell or offset it names, the virtual address, what it stores, what it read. `early` says
that its gang sees its store before the core does, `cache` and `level` are its page's cache policy and level (R209, R360). `seen` are the lanes of the
gang that an acquire has ordered after that store, each with the number of the acquire (R221, R233). -/
structure Acc where
  lane : Nat
  space : Space
  addr : Nat
  va : Nat
  size : Nat
  data : Nat
  got : Nat
  done : Bool
  early : Bool
  poison : Bool
  cache : Nat
  level : Nat := 3
  seen : Tab Nat := []
  deriving DecidableEq, Repr

/-- Where a long-latency word writes: a register field count, as allotment registers of each lane, and how a narrow
load extends. -/
structure Dest where
  first : Nat
  count : Nat
  width : Nat
  sx : Bool
  deriving DecidableEq, Repr

/-- A piece of flat memory within one page, as it was translated. -/
structure Seg where
  va : Nat
  cell : Nat
  win : Bool
  cache : Nat
  n : Nat
  level : Nat := 3
  deriving DecidableEq, Repr

/-- An end of a copy: flat memory, or an address of the on-chip map. -/
inductive Ref where
  | flat (segs : List Seg)
  | map (addr : Nat)
  deriving DecidableEq, Repr

/-- What an outstanding operation does when it is performed. -/
inductive OpKind where
  | load
  | store (strong : Bool)
  | ldfe (clear : Bool)
  | stfe
  | bsread (k : Nat) (sx : Bool)
  | atom (op : AtomOp) (ty : AtomTy) (ret : Bool)
  | bufAtom (op : AtomOp) (ty : AtomTy) (ret : Bool)
  | fence (als : Bool)
  | launch
  | halt
  | accrd (bf16 : Bool)
  | flush (die inval : Bool)
  | bookPin (unpin e16 : Bool)
  | bcw
  | tlbinv (all : Bool) (va : Nat)
  | remote
  | rsend (vc n : Nat) (coll arv : Bool) (dests : List (Nat × Nat × Nat))
  | armWait (addrs : List (Nat × Nat × Nat × Nat))
  | eretWait
  | tloadb (fmt : TileFmt) (orientT sparse : Bool) (bh : Nat) (segs : List Seg)
  | tmma (tri : Bool) (af : TileFmt) (bh acc : Nat) (quarter : Nat) (rows : List (Nat × Nat × Nat)) (d : Int) (c : Word)
  | tzero (acc : Nat)
  | tcfg (acc : Nat) (sr : Bool) (seed : Option Nat)
  | tread (acc : Nat) (n : Nat) (cols : List (Nat × Nat))
  | tstore (tf : StoreFmt) (sr : Bool) (acc : Nat) (rows : List (Nat × List Seg))
  | tfree (isB : Bool) (h : Nat)
  | cpy (size : Nat) (elems : List (Nat × Ref × Ref))
  | cpyt (ind : Bool) (ks kf kd : Nat) (od of_ os : Int) (tempo : Bool)
  | lrec (k : Nat) (segs : List Seg)
  | ired (kt ko : Nat) (acc : Bool) (ents : List (Nat × Nat × Nat)) (record : Seg) (tempo : Bool)
  | bookq (e16 : Bool) (row : Seg) (idx : List (Nat × Nat))
  deriving DecidableEq, Repr

/-- An outstanding operation. The number it is filed under grows with issue order. `run` is the run that issued it,
`held` the allotment registers of its destination that a TRAIL has put under hold (R45), `word` the number that all
operations of one word share, `batch` the batch it joined in each lane, 0 for the open one (R293). -/
structure Op where
  kind : OpKind
  cls : Cls
  gang : Nat
  block : Nat
  core : Nat
  slices : LaneSet
  active : LaneSet
  pc : Nat
  cohort : Nat
  run : Nat
  word : Nat
  batch : Tab Nat
  ord : Order
  scope : Scope
  dest : Option Dest
  held : List Nat
  accs : List Acc
  began : Bool
  abandoned : Bool
  fromTrap : Bool
  deriving DecidableEq, Repr

/-- Who sees a store that is on its way to the memory cells (R221): the lanes of one gang, the agents of one core, or those of
the die. -/
inductive Reach where
  | gang (core gang : Nat)
  | core (core : Nat)
  | die
  deriving DecidableEq, Repr

/-- A store that has been performed and is not yet in the memory cells: dirty bytes of an L1 or of the L2, under one window name
(R207, R212, R229, R236). `op` is the operation that made it and `gang` its gang, 0 for none, `lane` its lane, 32 for an engine
or a device; `copy` marks a copy of core scope, which a barrier of wider scope does not order (R232); `also` are the cores that
see it before the die does (R236). -/
structure Pending where
  reach : Reach
  die : Nat
  win : Bool
  cell : Nat
  bytes : List Byte
  op : Nat
  gang : Nat
  lane : Nat
  copy : Bool
  also : List Nat
  deriving DecidableEq, Repr

/-- A clean sector in a cache (R207): its window, its number (cell / 128) and the bytes it was filled with. -/
structure Sector where
  win : Bool
  num : Nat
  bytes : List Byte
  deriving DecidableEq, Repr

/-- Whose view of memory is meant: a lane's, that of a core's engines, of the die's agents, of the memory cells alone, which
the host reads (R218, R221). -/
inductive Viewer where
  | lane (core gang : Nat)
  | core (core : Nat)
  | die
  | home
  deriving DecidableEq, Repr

/-- A float operation buffered for a deterministic task (R194, R195), and the outstanding operation that issued it. -/
structure BufRec where
  issued : Nat
  task : Nat
  block : Nat
  gang : Nat
  lane : Nat
  seq : Nat
  op : AtomOp
  ty : AtomTy
  cell : Nat
  va : Nat
  value : Nat
  arrived : Bool
  spilled : Bool
  deriving DecidableEq, Repr

/-! ## A core -/

/-- An accumulator handle (R262, R263): elements at row × 256 + column. -/
structure AccHandle where
  owner : Option Nat
  freeing : Bool
  elems : Tab Word
  sr : Bool
  g0 : Tab DWord
  g1 : Tab DWord
  deriving DecidableEq, Repr

/-- A B handle (R260, R261, R286): element codes at k × 256 + n, scales at n × 16 + j. -/
structure BHandle where
  owner : Option Nat
  freeing : Bool
  valid : Bool
  fmt : TileFmt
  sparse : Bool
  orientT : Bool
  elems : Tab Nat
  scales : Tab Nat
  reason : Nat
  deriving DecidableEq, Repr

/-- A pass in a macro (R266, R269): the operations fused into it, and for each row its A codes and scales as read. -/
structure Pass where
  ops : List Nat
  rows : List (Nat × List Nat × List Nat)
  void : Bool
  deriving DecidableEq, Repr

/-- A cached translation (R363). -/
structure TlbEntry where
  va : Nat
  level : Nat
  entry : Nat
  deriving DecidableEq, Repr

/-- A GROW request (R156). -/
structure GrowReq where
  prio : Nat
  gang : Nat
  cohort : Nat
  n : Nat
  deriving DecidableEq, Repr

/-- A core: handles, passes, queued requests, claimed granules as (run, block, granule), once for each word (R249), the clean
sectors of its L1, the newest first (R207), those that a gang still sees as they were (R222), and its TLBs (R363). -/
structure Core where
  accs : Tab AccHandle
  bs : Tab BHandle
  passes : Tab Pass
  growQ : List GrowReq
  claims : List (Nat × Nat × Nat)
  fenced : Bool
  l1 : List Sector
  near : List (Nat × Sector)
  tlb : List TlbEntry
  deriving DecidableEq, Repr

/-! ## Blocks and tasks -/

inductive BlockStatus where
  | resident | halting | halted | saved | retired | lost
  deriving DecidableEq, Repr

/-- A block (R140, R202): scratchpad bytes by offset, full granules, lane-private bytes at lane × 32,768 + gang ×
PRIVATE + offset, the positions it holds on its core, the task and the block of it that it makes room for, whether its save has failed (R368), and
while it is saved its handles (R280); and the bytes of its scratchpad as other cores' copy engines may still see them, which copies
of core scope have replaced (R232). -/
structure Block where
  task : Nat
  idx : Nat
  core : Nat
  status : BlockStatus
  gangs : List Nat
  scratch : Tab Byte
  unseen : Tab Byte := []
  full : List Nat
  priv : Tab Byte
  scratchPos : Nat
  privPos : Nat
  stamp : Nat
  pendingFor : Option (Nat × Nat)
  saveFailed : Bool
  savedAccs : Tab AccHandle
  savedBs : Tab BHandle
  deriving DecidableEq, Repr

/-- The copy of a TCB that the distributor takes (R149, R152). -/
structure Tcb where
  flags : Nat
  codebase : Nat
  entry : Nat
  grid : Nat
  blkdim : Nat
  ganglanes : Nat
  regs : Nat
  maxregs : Nat
  scratch : Nat
  priv : Nat
  grouptab : Nat
  groupn : Nat
  coremask : Nat
  diemask : Nat
  seed : Nat
  savearea : Nat
  spillbase : Nat
  spillsize : Nat
  tempo : List (Nat × Nat)
  migmask : Nat
  super : Nat
  faultrec : Nat
  overflow : Nat
  nsucc : Nat
  succ : List Nat
  deriving DecidableEq, Repr

/-- Where a launch stands; `ending` is a launch that HALT has ended and whose blocks have yet to retire (R356). -/
inductive TaskStatus where
  | queued | running | preempted | ending | retired | faulted
  deriving DecidableEq, Repr

/-- A launch (R140, R151 to R154): the TCB's virtual address, home die and cell, the copy taken, the members of each
group, what has been placed and retired, the generations of its groups, and for each that has completed, under key × 2^40 +
generation, the members' gangs with the number that what they issued after their arrival begins at (R171, R172); the
launch-wide number of the gang that the tempo goes to, and what it waits for: the stores that a gang issued before it gave the
tempo up (R179, R197). -/
structure Task where
  addr : Nat
  home : Nat
  cell : Nat
  tcb : Tcb
  status : TaskStatus
  privileged : Bool
  groups : Tab (List Nat)
  placed : Nat
  retired : Nat
  gens : Tab Nat
  edges : Tab (List (Nat × Nat))
  tempo : Option Nat
  tempoWait : List (Nat × Nat)
  enclGen : Nat
  reissue : List Nat
  deriving DecidableEq, Repr

/-- A fault record on its way to its area (R348 to R350). -/
structure FaultRec where
  code : Nat
  lane : Nat
  info : Nat
  resumable : Bool
  guest : Bool
  privileged : Bool
  task : Nat
  addr : Nat
  block : Nat
  lgang : Nat
  pc : Nat
  resumePc : Nat
  performed : LaneSet
  active : LaneSet
  die : Nat
  core : Nat
  token : Nat
  gang : Option Nat
  serve : Bool
  deriving DecidableEq, Repr

/-! ## The stacks -/

/-- A book pin (R308). -/
structure Pin where
  row : Nat
  e16 : Bool
  deriving DecidableEq, Repr

/-- A bank unit (R318): registers at field × 8 + lane. -/
structure BankUnit where
  regs : Tab Word
  mask : BitVec 8
  stack : List (BitVec 8)
  pc : Nat
  killed : Bool
  cause : Nat
  deriving DecidableEq, Repr

inductive ChannelPower where
  | awake | powerDown | selfRefresh
  deriving DecidableEq, Repr

/-- What has arrived at a channel that holds accesses: an outstanding operation's access in a lane, 32 for an engine's command as
a whole; or, with operation 0, a packet by its stream and sequence number (R315, R316). -/
structure Waiter where
  op : Nat
  lane : Nat
  stream : Nat
  seq : Nat
  deriving DecidableEq, Repr

/-- A channel of a stack (R308, R312 to R324): pins at bank × 4 + slot, the column latch as bytes, the confirmed mode
changes that have yet to happen, each with its program row, and what has arrived while it held accesses, in the order of
arrival (R315). -/
structure Channel where
  promotion : Bool
  drop : Bool
  progrow : Nat
  latch : Tab Byte
  units : Tab BankUnit
  pins : Tab Pin
  power : ChannelPower
  requests : List (Bool × Nat)
  queue : List Waiter
  deriving DecidableEq, Repr

/-! ## The fabric -/

/-- A ply (R407): its header's fields, and its travelling registers at index × 4 + lane place. `all` is the fragment's
lanes, ended ones included; `base` is the register index its registers are taken under and `allot` its gang's allotment; `word`
is the code pointer of the word at which it leaves (R410), `src` and `place` name the gang and slice place that it leaves,
`addrs` the addresses that its lanes leave for, by lane place, 0 after a MIG. -/
structure Ply where
  task : Nat
  origin : Nat
  slice : Nat
  all : BitVec 4
  lanes : BitVec 4
  hops : Nat
  xb : Nat
  base : Nat
  allot : Nat
  pc : Nat
  word : Nat
  src : Nat
  place : Nat
  regs : Tab Word
  preds : Tab (BitVec 7)
  lstat : Tab (BitVec 6)
  addrs : Tab Nat
  isReturn : Bool
  refused : Bool
  rcause : Nat
  dst : Nat
  deriving DecidableEq, Repr

/-- What a packet carries beside its header (R378, R423, R391); the address of an arming's TCB, a fence notice and a
distributor's report have no place in the layout of R378 (assumption log 11). -/
inductive Payload where
  | none
  | entries (es : List (Nat × Nat × Nat))
  | granules (gs : List (Nat × Bool))
  | ply (p : Ply)
  | arm (va : Nat)
  | resume (token rreg rval resumePc : Nat)
  | notice (die : Nat)
  | report (block : Nat) (placed : Bool)
  deriving DecidableEq, Repr

/-- A packet (R378, R379), with the key generation and traffic key it is encrypted under, 0 in clear (R457). -/
structure Packet where
  sdie : Nat
  eng : Nat
  seq : Nat
  oldest : Nat
  wrap : Nat
  dst : Nat
  vc : Nat
  kind : Nat
  opq : Nat
  pa : Nat
  aux : Nat
  aux2 : Nat
  body : Payload
  keyGen : Nat
  key : Nat
  deriving DecidableEq, Repr

/-- A packet its sender still holds (R380, R382): whether it has been transmitted, and who waits for its
acknowledgement: an outstanding operation and the lanes whose status bits it sets, or an RGET request being served. `also`
are the lanes of the same word that write other data to a granule of its own, and share a conflict (R435). -/
structure Unacked where
  pkt : Packet
  sent : Bool
  op : Option Nat
  gang : Option Nat
  lanes : LaneSet
  also : LaneSet
  job : Option Nat
  deriving DecidableEq, Repr

/-- A packet that its home has begun to perform unit by unit (R385, R387): the units left, the statuses met, the RGET request
being served. -/
structure Serving where
  pkt : Packet
  left : List Nat
  status : Nat
  job : Nat
  deriving DecidableEq, Repr

/-- An RGET request that a home serves (R391): replies and then the arrival, with the statuses they drew. -/
structure RgetJob where
  request : Packet
  arrived : Bool
  status : Nat
  deriving DecidableEq, Repr

/-- An acknowledgement in flight (R383): the die that sends it, the die, engine, home and sequence number of the packet it
acknowledges with its WRAP, and the key generation and traffic key it is encrypted under (R457). -/
structure Ack where
  src : Nat
  home : Nat
  sdie : Nat
  eng : Nat
  seq : Nat
  wrap : Nat
  status : Nat
  keyGen : Nat
  key : Nat
  deriving DecidableEq, Repr

/-- What a home keeps of a stream (R381): its floor, and the marked numbers with their statuses. -/
structure Stream where
  floor : Nat
  marks : Tab Nat
  deriving DecidableEq, Repr

/-! ## A die and a package -/

/-- A die: system registers (R357), counters, configuration registers (R186, R402, R450), the channel-control machine
(R312, R313), its ready queues (R182), its arrival queue and ply park (R408, R416), its shared TLB (R363), the clean sectors
of its L2, the newest first (R207), the blocks that its distributor has reported placed and not retired, and the blocks that
the reports it received as master name (R399, R401). -/
structure Die where
  ptroot : DWord
  defsuper : DWord
  deffault : DWord
  cycles : DWord
  rookn : Nat
  preempt : Bool
  rejects : Nat
  armCause : Nat
  woconf : Nat
  epoch : Nat
  losts : Nat
  fencedMask : BitVec 8
  chCh : Nat
  chErr : Bool
  chSeq : Nat
  chMode : Bool
  chRow : Nat
  channels : Tab Channel
  ready : List (Nat × Bool × Nat)
  arrivals : List Ply
  park : List Ply
  tlb : List TlbEntry
  l2 : List Sector
  fenced : Bool
  stackFenced : List Nat
  tierFenced : Bool
  reports : List Nat
  heldBlocks : List Nat
  freq : Tab Nat
  deriving DecidableEq, Repr

/-- A package: DEVSTAT (R477), the controller's memory (R478; `fullReason` is the cause of the last failed full start), the security engine (R451 to R458), the answers of its
mailboxes. -/
structure Pkg where
  ready : Bool
  minimal : Bool
  replace : Bool
  event : Bool
  messages : Nat
  reason : Nat
  fullReason : Nat
  fails : Nat
  retry : Bool
  link0x8 : Bool
  link1x8 : Bool
  link1Fitted : Bool
  link1Fenced : Bool
  portFenced : List Nat
  coresOut : Nat
  hot : Bool
  mrs : Tab (List Byte)
  kemSeed : Nat
  trust : Nat
  gen : Nat
  parts : List Participant
  quorum : Nat
  keys : Tab Nat
  revoked : List Nat
  enclMap : List (Nat × Nat)
  fencedPkgs : List Nat
  answers : Tab (List Byte)
  deriving DecidableEq, Repr

/-! ## What happens next -/

/-- Happenings that are not steps of the opcode table: a store reaching the next level, seen by its gang before its core, or by
another core before the die; a sector filled or dropped, or kept by a gang as it is; copies of core scope in a scratchpad seen
by other cores; a packet lost; a translation cached or dropped by a die or a core; one element of an operation done before the
others; a unit of a packet performed alone, the first or a further one (R387); a distributor's report delivered; a held access
or packet arriving at its channel (R315); the runs of a gang issuing their next groups together (R159); the junction of a package
falling to 95 °C (R481). -/
inductive Env where
  | drain (n : Nat)
  | early (op lane : Nat)
  | appear (n core : Nat)
  | fill (core : Option Nat) (die va : Nat)
  | keep (gang va : Nat)
  | spread (block : Nat)
  | evict (core : Option Nat) (die n : Nat)
  | lose (n : Nat)
  | tlbFill (die va : Nat)
  | tlbEvict (die n : Nat)
  | coreTlbFill (core va : Nat)
  | coreTlbEvict (core n : Nat)
  | element (op n : Nat)
  | unitFirst (n k : Nat)
  | unitNext (n k : Nat)
  | report (n : Nat)
  | arrive (op lane : Nat)
  | pair (gang : Nat)
  | cool (pkg : Nat)
  deriving DecidableEq, Repr

/-- What the next step does: the run in a slot issues its next word, an event happens, or something of Env. -/
inductive Choice where
  | issue (slot : Nat)
  | event (i : Instr)
  | env (e : Env)
  deriving DecidableEq, Repr

/-- The whole machine. -/
structure State where
  torus : Nat × Nat × Nat
  pkgs : Tab Pkg
  dies : Tab Die
  cores : Tab Core
  tasks : Tab Task
  blocks : Tab Block
  gangs : Tab Gang
  runs : Tab Run
  focus : Option Nat
  ops : Tab Op
  pending : List Pending
  mem : Memory
  bits : GranuleBits
  fields : Tab Nat
  bufs : List BufRec
  faults : Tab FaultRec
  unacked : List Unacked
  flight : List Packet
  acks : List Ack
  seqs : Tab Nat
  wraps : Tab Nat
  streams : Tab Stream
  jobs : Tab RgetJob
  serving : List Serving
  departing : Tab Ply
  nextId : Nat
  free : Nat
  time : Nat
  hostRead : List Byte
  hostPoison : Bool
  schedule : List Choice
  deriving DecidableEq, Repr

/-! ## Faults and refusals -/

/-- Why a step stops. -/
inductive Fault where
  /-- A word's meaning was asked for while no run holds the slot named as issuing: no step does this. Raised by every
  word's meaning; safe. -/
  | noIssuer
  deriving DecidableEq, Repr

/-- Why a step has no meaning. -/
inductive Refusal where
  /-- The instruction has no meaning in the model yet. Raised by an arm of exec; safe. -/
  | notModelled (mnemonic : String)
  deriving DecidableEq, Repr

/-! ## Reset -/

def AccHandle.reset : AccHandle := { owner := none, freeing := false, elems := [], sr := false, g0 := [], g1 := [] }
def BHandle.reset : BHandle :=
  { owner := none, freeing := false, valid := false, fmt := .e2m1, sparse := false, orientT := false, elems := [],
    scales := [], reason := 0 }
def Core.reset : Core :=
  { accs := [], bs := [], passes := [], growQ := [], claims := [], fenced := false, l1 := [], near := [], tlb := [] }
def BankUnit.reset : BankUnit := { regs := [], mask := 0xFF, stack := [], pc := 0, killed := false, cause := 0 }
def Channel.reset : Channel :=
  { promotion := false, drop := false, progrow := 0, latch := [], units := [], pins := [], power := .awake,
    requests := [], queue := [] }

/-- A die at reset: the reset column of R186, R312, R357, R402 and R450, CYCLES 0 (R27). -/
def Die.reset : Die :=
  { ptroot := 0, defsuper := 0, deffault := 0, cycles := 0, rookn := 4, preempt := true, rejects := 0, armCause := 0,
    woconf := 0, epoch := 0, losts := 0, fencedMask := 0, chCh := 0, chErr := false, chSeq := 0, chMode := false,
    chRow := 0, channels := [], ready := [], arrivals := [], park := [], tlb := [], l2 := [], fenced := false,
    stackFenced := [], tierFenced := false, reports := [], heldBlocks := [], freq := [] }

/-- A package at reset: the reset column of R477, MR0 to MR7 0 (R452), no enclave (R454). -/
def Pkg.reset : Pkg :=
  { ready := false, minimal := false, replace := false, event := false, messages := 0, reason := 0, fullReason := 0,
    fails := 0, retry := false, link0x8 := false, link1x8 := false, link1Fitted := true, link1Fenced := false, portFenced := [], coresOut := 0,
    hot := false, mrs := [], kemSeed := 0, trust := 0, gen := 0, parts := [], quorum := 0, keys := [], revoked := [],
    enclMap := [], fencedPkgs := [], answers := [] }

/-- The machine right after reset: nothing listed, every die, core and package at its reset value, no work in it. The
torus is one package (assumption log 3). -/
def State.reset : State :=
  { torus := (1, 1, 1), pkgs := [], dies := [], cores := [], tasks := [], blocks := [], gangs := [], runs := [],
    focus := none, ops := [], pending := [], mem := [], bits := { poison := [], written := [], conflict := [] }, fields := [],
    bufs := [], faults := [], unacked := [], flight := [], acks := [], seqs := [], wraps := [], streams := [],
    jobs := [], serving := [], departing := [], nextId := 1, free := 0, time := 0, hostRead := [], hostPoison := false,
    schedule := [] }

end Sys2Proof.Machine
end

