-- ==== Sys2Proof/Machine/Bits.lean ====
section
/-! DEFINITION. Helpers over plain data: sparse tables, lane sets, two's complement, little-endian bytes. -/

namespace Sys2Proof.Machine

/-! ## Sparse tables -/

/-- The value filed under k, if any. -/
def tabFind {α : Type} : Tab α → Nat → Option α
  | [], _ => none
  | (k', v) :: t, k => if k' = k then some v else tabFind t k

/-- The value filed under k, or d. -/
def tabGet {α : Type} (t : Tab α) (d : α) (k : Nat) : α := (tabFind t k).getD d

/-- File v under k: keys stay in rising order. -/
def tabPut {α : Type} : Tab α → Nat → α → Tab α
  | [], k, v => [(k, v)]
  | (k', v') :: t, k, v =>
    if k' = k then (k, v) :: t else if k < k' then (k, v) :: (k', v') :: t else (k', v') :: tabPut t k v

/-- Remove what is filed under k. -/
def tabDel {α : Type} (t : Tab α) (k : Nat) : Tab α := t.filter fun p => p.1 != k

/-- Change what is filed under k, if anything is. -/
def tabMod {α : Type} (t : Tab α) (k : Nat) (f : α → α) : Tab α :=
  match tabFind t k with
  | some v => tabPut t k (f v)
  | none => t

/-- The keys between lo and lo + n removed. -/
def tabClear {α : Type} (t : Tab α) (lo n : Nat) : Tab α := t.filter fun p => p.1 < lo || lo + n ≤ p.1

/-- The entries whose key lies between lo and lo + n. -/
def tabRange {α : Type} (t : Tab α) (lo n : Nat) : Tab α := t.filter fun p => lo ≤ p.1 && p.1 < lo + n

/-! ## Lane sets -/

/-- Lane l is in the set. -/
def hasLane (m : LaneSet) (l : Nat) : Bool := m.getLsbD l
/-- The lanes of a set in ascending order. -/
def lanesIn (m : LaneSet) : List Nat := (List.range 32).filter fun l => m.getLsbD l
def lowestLane (m : LaneSet) : Option Nat := (List.range 32).find? fun l => m.getLsbD l
/-- The set of the listed lanes. -/
def lanesOf (ls : List Nat) : LaneSet := ls.foldl (fun m l => m ||| BitVec.ofNat 32 (2 ^ l)) 0
/-- The set of the lanes that satisfy p. -/
def lanesWhere (p : Nat → Bool) : LaneSet := lanesOf ((List.range 32).filter p)
/-- The four lanes of a slice place (R140). -/
def sliceLanes (s : Nat) : LaneSet := BitVec.ofNat 32 (0xF * 2 ^ (4 * s))
/-- The lanes 0 to n − 1. -/
def firstLanes (n : Nat) : LaneSet := BitVec.ofNat 32 (2 ^ n - 1)

/-! ## Numbers -/

/-- The low w bits of x read as two's complement (R63). -/
def sval (w x : Nat) : Int := if x % 2 ^ w < 2 ^ (w - 1) then (x % 2 ^ w : Nat) else (x % 2 ^ w : Nat) - (2 ^ w : Nat)
/-- The low w bits of an integer, as a natural number. -/
def wrapN (w : Nat) (x : Int) : Nat := (x % (2 ^ w : Nat)).toNat
/-- x clamped to lo..hi. -/
def clampInt (lo hi x : Int) : Int := if x < lo then lo else if hi < x then hi else x
/-- The number of one bits among the low w bits. -/
def popcount : Nat → Nat → Nat
  | 0, _ => 0
  | w + 1, x => x % 2 + popcount w (x / 2)
/-- Bit k of x. -/
def nbit (x k : Nat) : Bool := (x / 2 ^ k) % 2 == 1
/-- Bits [hi:lo] of x. -/
def nbits (x hi lo : Nat) : Nat := (x / 2 ^ lo) % 2 ^ (hi + 1 - lo)
/-- The w low bits of x in reverse order. -/
def revBits : Nat → Nat → Nat
  | 0, _ => 0
  | w + 1, x => (x % 2) * 2 ^ w + revBits w (x / 2)
/-- Leading zeros of x in w bits. -/
def leadingZeros (w x : Nat) : Nat := if x = 0 then w else w - 1 - Nat.log2 x
/-- Trailing zeros of x in w bits: structural on w. -/
def trailingZeros : Nat → Nat → Nat
  | 0, _ => 0
  | w + 1, x => if x % 2 = 1 then 0 else 1 + trailingZeros w (x / 2)

/-- The integer square root, by bits from position k down. -/
def isqrtBits : Nat → Nat → Nat → Nat
  | 0, _, r => r
  | k + 1, n, r => let r' := r + 2 ^ k; if r' * r' ≤ n then isqrtBits k n r' else isqrtBits k n r
def isqrt (n : Nat) : Nat := isqrtBits (Nat.log2 n / 2 + 1) n 0

/-! ## Bytes -/

/-- n little-endian bytes of v (R25). -/
def leBytes : Nat → Nat → List Byte
  | 0, _ => []
  | n + 1, v => BitVec.ofNat 8 v :: leBytes n (v / 256)
/-- The number that little-endian bytes hold. -/
def leNat : List Byte → Nat
  | [] => 0
  | b :: bs => b.toNat + 256 * leNat bs

/-- Extend the low n bytes of v to 32 bits, as a load of 8 or 16 bits does (R103); wider values pass. -/
def extendLoad (size : Nat) (sx : Bool) (v : Nat) : Nat :=
  if sx && size < 4 then wrapN 32 (sval (8 * size) v) else v % 2 ^ (8 * size)

/-- Insert n into a rising list without repeats. -/
def insNat : List Nat → Nat → List Nat
  | [], n => [n]
  | x :: xs, n => if n = x then x :: xs else if n < x then n :: x :: xs else x :: insNat xs n
def delNat (l : List Nat) (n : Nat) : List Nat := l.filter (· != n)

/-- Insertion sort by a key; structural. -/
def insBy {α : Type} (le : α → α → Bool) (x : α) : List α → List α
  | [] => [x]
  | y :: ys => if le x y then x :: y :: ys else y :: insBy le x ys
def sortBy {α : Type} (le : α → α → Bool) : List α → List α
  | [] => []
  | x :: xs => insBy le x (sortBy le xs)

/-- No value occurs twice. -/
def allDistinct : List Nat → Bool
  | [] => true
  | x :: xs => !xs.contains x && allDistinct xs

/-- The first index at which the list repeats an earlier value. -/
def maxNat : List Nat → Nat
  | [] => 0
  | x :: xs => Nat.max x (maxNat xs)

end Sys2Proof.Machine
end

