-- ==== Sys2Proof/Machine/Flags.lean ====
section
/-! DEFINITION. Number formats and exact arithmetic: the formats of R64, one rounding function with the flags of R71,
the arithmetic of R120 to R127, the conversions of R72, the sums of R74, R75 and R168, the generator of R77 to R79
and the accumulator cell of R80 to R82. -/

namespace Sys2Proof.Machine

/-! ## LSTAT flags (R21) -/

abbrev FlagSet := BitVec 6
def flNX : FlagSet := 0x01
def flUF : FlagSet := 0x02
def flOF : FlagSet := 0x04
def flFZ : FlagSet := 0x08
def flNV : FlagSet := 0x10
def flDZ : FlagSet := 0x20
/-- The flag if the condition holds. -/
def flIf (c : Bool) (f : FlagSet) : FlagSet := if c then f else 0

/-! ## Formats (R64) -/

/-- Which patterns at the largest exponent are special. -/
inductive Specials where
  | ieee | nanOnly | none
  deriving DecidableEq, Repr

structure Fmt where
  ew : Nat
  mw : Nat
  bias : Nat
  sp : Specials
  deriving DecidableEq, Repr

def fp64 : Fmt := { ew := 11, mw := 52, bias := 1023, sp := .ieee }
def fp32 : Fmt := { ew := 8, mw := 23, bias := 127, sp := .ieee }
def fp16 : Fmt := { ew := 5, mw := 10, bias := 15, sp := .ieee }
def fbf16 : Fmt := { ew := 8, mw := 7, bias := 127, sp := .ieee }
def fe5m2 : Fmt := { ew := 5, mw := 2, bias := 15, sp := .ieee }
def fe4m3 : Fmt := { ew := 4, mw := 3, bias := 7, sp := .nanOnly }
def fe3m2 : Fmt := { ew := 3, mw := 2, bias := 3, sp := .none }
def fe2m3 : Fmt := { ew := 2, mw := 3, bias := 1, sp := .none }
def fe2m1 : Fmt := { ew := 2, mw := 1, bias := 1, sp := .none }

def Fmt.width (f : Fmt) : Nat := 1 + f.ew + f.mw
def Fmt.signBit (f : Fmt) : Nat := 2 ^ (f.ew + f.mw)
/-- Exponent of the smallest normal. -/
def Fmt.emin (f : Fmt) : Int := 1 - f.bias
/-- Exponent of the largest finite value. -/
def Fmt.emax (f : Fmt) : Int := match f.sp with
  | .ieee => (2 ^ f.ew - 2 : Nat) - (f.bias : Int)
  | _ => (2 ^ f.ew - 1 : Nat) - (f.bias : Int)
/-- Significand of the largest finite value, an integer of mw + 1 bits. -/
def Fmt.maxSig (f : Fmt) : Nat := match f.sp with
  | .nanOnly => 2 ^ (f.mw + 1) - 2
  | _ => 2 ^ (f.mw + 1) - 1
/-- The bits of the largest finite magnitude. -/
def Fmt.maxBits (f : Fmt) : Nat := match f.sp with
  | .ieee => (2 ^ f.ew - 2) * 2 ^ f.mw + (2 ^ f.mw - 1)
  | .nanOnly => 2 ^ (f.ew + f.mw) - 2
  | .none => 2 ^ (f.ew + f.mw) - 1
def Fmt.hasInf (f : Fmt) : Bool := f.sp == .ieee
def Fmt.hasNan (f : Fmt) : Bool := f.sp != .none
def Fmt.infBits (f : Fmt) : Nat := (2 ^ f.ew - 1) * 2 ^ f.mw
/-- The canonical NaN (R65); a format without NaN has +0 in its place (R72). -/
def Fmt.nanBits (f : Fmt) : Nat := match f.sp with
  | .ieee => (2 ^ f.ew - 1) * 2 ^ f.mw + 2 ^ (f.mw - 1)
  | .nanOnly => 2 ^ (f.ew + f.mw) - 1
  | .none => 0
def Fmt.signed (f : Fmt) (neg : Bool) (mag : Nat) : Nat := if neg then f.signBit + mag else mag

/-- A value: a NaN, an infinity, or (−1)^neg × m × 2^e exactly, zero with its sign. -/
inductive FVal where
  | nan (signaling : Bool)
  | inf (neg : Bool)
  | fin (neg : Bool) (m : Nat) (e : Int)
  deriving DecidableEq, Repr

/-- The value a bit pattern has (R64). -/
def Fmt.value (f : Fmt) (bits : Nat) : FVal :=
  let neg := nbit bits (f.ew + f.mw)
  let e := (bits / 2 ^ f.mw) % 2 ^ f.ew
  let m := bits % 2 ^ f.mw
  let top := e == 2 ^ f.ew - 1
  if top && f.sp == .ieee then
    if m = 0 then .inf neg else .nan (m < 2 ^ (f.mw - 1))
  else if top && f.sp == .nanOnly && m == 2 ^ f.mw - 1 then .nan false
  else if e = 0 then .fin neg m (f.emin - f.mw)
  else .fin neg (2 ^ f.mw + m) ((e : Int) - f.bias - f.mw)

def FVal.isNan : FVal → Bool
  | .nan _ => true
  | _ => false
def FVal.isSnan : FVal → Bool
  | .nan s => s
  | _ => false
def FVal.isInf : FVal → Bool
  | .inf _ => true
  | _ => false
def FVal.isZero : FVal → Bool
  | .fin _ m _ => m == 0
  | _ => false
def FVal.neg : FVal → Bool
  | .nan _ => false
  | .inf n => n
  | .fin n _ _ => n
def FVal.negate : FVal → FVal
  | .nan s => .nan s
  | .inf n => .inf (!n)
  | .fin n m e => .fin (!n) m e
/-- x × 2^k, exact (R66). -/
def FVal.scale (k : Int) : FVal → FVal
  | .fin n m e => .fin n m (e + k)
  | v => v

/-! ## Rounding (R70, R71, R76) -/

/-- A rounding: one of the four modes, or stochastic with the 16-bit draw. -/
inductive Mode where
  | to (r : Round)
  | sr (n : Nat)
  deriving DecidableEq, Repr

/-- Whether the kept magnitude q steps up, r being the part of 2^sh below it (R70, R76). -/
def Mode.up (md : Mode) (neg : Bool) (q r sh : Nat) : Bool :=
  match md with
  | .to .rne => 2 ^ sh < 2 * r || (2 * r == 2 ^ sh && q % 2 == 1)
  | .to .rz => false
  | .to .rd => neg && r != 0
  | .to .ru => !neg && r != 0
  | .sr n =>
    let w := r * 2 ^ 16 / 2 ^ sh
    let w' := if r * 2 ^ 16 % 2 ^ sh = 0 then w else if w % 2 = 0 then w + 1 else w
    n < w'

/-- m × 2^e at the quantum 2^k: the rounded multiple of 2^k, and whether it is inexact. -/
def quantize (md : Mode) (neg : Bool) (m : Nat) (e k : Int) : Nat × Bool :=
  if k ≤ e then (m * 2 ^ (e - k).toNat, false)
  else
    let sh := (k - e).toNat
    let q := m / 2 ^ sh
    let r := m % 2 ^ sh
    (if md.up neg q r sh then q + 1 else q, r != 0)

/-- a × 2^i < b × 2^j for magnitudes. -/
def dyLt (a : Nat) (i : Int) (b : Nat) (j : Int) : Bool :=
  if i ≤ j then a < b * 2 ^ (j - i).toNat else a * 2 ^ (i - j).toNat < b

/-- The result of an overflow (R71, R76). -/
def Fmt.overflow (f : Fmt) (md : Mode) (neg : Bool) : Nat :=
  if !f.hasInf then f.signed neg f.maxBits
  else
    match md with
    | .to .rz => f.signed neg f.maxBits
    | .to .rd => if neg then f.signed neg f.infBits else f.signed neg f.maxBits
    | .to .ru => if neg then f.signed neg f.maxBits else f.signed neg f.infBits
    | _ => f.signed neg f.infBits

/-- Round the exact value (−1)^neg × m × 2^e, once (R70), with the flags of R71. A set sticky bit says that the value
lies strictly between m and m + 1 units, m having room below the target's precision. -/
def Fmt.round (f : Fmt) (md : Mode) (neg : Bool) (m : Nat) (e : Int) : Nat × FlagSet :=
  if m = 0 then (f.signed neg 0, 0)
  else
    let E : Int := (Nat.log2 m : Int) + e
    let ku := E - f.mw
    let k := if E < f.emin then f.emin - f.mw else ku
    let (qu, _) := quantize md neg m e ku
    let (q, inexact) := quantize md neg m e k
    let ovf := dyLt f.maxSig (f.emax - f.mw) q k
    let tiny := dyLt qu ku 1 f.emin
    if ovf then (f.overflow md neg, flOF ||| flNX)
    else
      let fl := flIf inexact flNX ||| flIf (tiny && inexact) flUF
      if q < 2 ^ f.mw then (f.signed neg q, fl)
      else
        let (q', k') := if q = 2 ^ (f.mw + 1) then (2 ^ f.mw, k + 1) else (q, k)
        (f.signed neg ((k' + f.mw + f.bias).toNat * 2 ^ f.mw + (q' - 2 ^ f.mw)), fl)

/-- Round a signed exact value; an exact zero takes the sign given. -/
def Fmt.roundInt (f : Fmt) (md : Mode) (zeroNeg : Bool) (m : Int) (e : Int) : Nat × FlagSet :=
  if m = 0 then (f.signed zeroNeg 0, 0) else f.round md (m < 0) m.natAbs e

/-- The format's NaN, with NV where the condition holds. -/
def Fmt.nanRes (f : Fmt) (nv : Bool) : Nat × FlagSet := (f.nanBits, flIf nv flNV)

/-! ## Exact sums -/

def fsign (neg : Bool) (m : Nat) : Int := if neg then -(m : Int) else m

/-- An exact sum as an integer times a power of two. -/
structure Dyadic where
  m : Int
  e : Int
  deriving DecidableEq, Repr

def Dyadic.add (a b : Dyadic) : Dyadic :=
  if a.m = 0 then b
  else if b.m = 0 then a
  else if a.e ≤ b.e then { m := a.m + b.m * 2 ^ (b.e - a.e).toNat, e := a.e }
  else { m := a.m * 2 ^ (a.e - b.e).toNat + b.m, e := b.e }

def FVal.dyadic : FVal → Dyadic
  | .fin n m e => { m := fsign n m, e := e }
  | _ => { m := 0, e := 0 }

/-- The exact product of two values; NaN for 0 × ∞. -/
def FVal.mul : FVal → FVal → FVal
  | .nan s, _ => .nan s
  | _, .nan s => .nan s
  | .inf a, .inf b => .inf (a != b)
  | .inf a, .fin b m _ => if m = 0 then .nan false else .inf (a != b)
  | .fin a m _, .inf b => if m = 0 then .nan false else .inf (a != b)
  | .fin a m e, .fin b m' e' => .fin (a != b) (m * m') (e + e')

/-- The sign an exact zero sum takes: the common sign of zeros, else + but − under RD (R119). -/
def zeroSign (md : Mode) (a b : Bool) : Bool := if a = b then a else md == .to .rd

/-- a + b rounded once (R120). -/
def Fmt.add (f : Fmt) (md : Mode) (a b : FVal) : Nat × FlagSet :=
  match a, b with
  | .nan _, _ | _, .nan _ => f.nanRes (a.isSnan || b.isSnan)
  | .inf x, .inf y => if x = y then (f.signed x f.infBits, 0) else f.nanRes true
  | .inf x, .fin .. => (f.signed x f.infBits, 0)
  | .fin .., .inf y => (f.signed y f.infBits, 0)
  | .fin x _ _, .fin y _ _ =>
    let s := a.dyadic.add b.dyadic
    f.roundInt md (zeroSign md x y) s.m s.e

/-- a × b rounded once. -/
def Fmt.mulR (f : Fmt) (md : Mode) (a b : FVal) : Nat × FlagSet :=
  match a.mul b with
  | .nan _ => f.nanRes (a.isSnan || b.isSnan || !(a.isNan || b.isNan))
  | .inf x => (f.signed x f.infBits, 0)
  | .fin x m e => f.round md x m e

/-- a × b + c rounded once; 0 × ∞ sets NV whatever c is (R120). -/
def Fmt.fmaR (f : Fmt) (md : Mode) (a b c : FVal) : Nat × FlagSet :=
  let bad := (a.isInf && b.isZero) || (a.isZero && b.isInf)
  match a.mul b with
  | .nan _ => f.nanRes (a.isSnan || b.isSnan || c.isSnan || bad)
  | p => f.add md p c

/-- The quotient m / m' with enough bits below the precision of any format, the last of them sticky. -/
def quotient (m m' : Nat) : Nat × Int :=
  let sh := 130 + Nat.log2 m'
  let q := m * 2 ^ sh / m'
  (2 * q + (if m * 2 ^ sh % m' = 0 then 0 else 1), -(sh : Int) - 1)

/-- a / b, correctly rounded (R124). -/
def Fmt.divR (f : Fmt) (md : Mode) (a b : FVal) : Nat × FlagSet :=
  match a, b with
  | .nan _, _ | _, .nan _ => f.nanRes (a.isSnan || b.isSnan)
  | .inf _, .inf _ => f.nanRes true
  | .inf x, .fin y _ _ => (f.signed (x != y) f.infBits, 0)
  | .fin x _ _, .inf y => (f.signed (x != y) 0, 0)
  | .fin x m e, .fin y m' e' =>
    if m' = 0 then (if m = 0 then f.nanRes true else (f.signed (x != y) f.infBits, flFZ))
    else if m = 0 then (f.signed (x != y) 0, 0)
    else
      let (q, k) := quotient m m'
      f.round md (x != y) q (e - e' + k)

/-- √a, correctly rounded (R125, R126). -/
def Fmt.sqrtR (f : Fmt) (md : Mode) (a : FVal) : Nat × FlagSet :=
  match a with
  | .nan s => f.nanRes s
  | .inf n => if n then f.nanRes true else (f.infBits, 0)
  | .fin n m e =>
    if m = 0 then (f.signed n 0, 0)
    else if n then f.nanRes true
    else
      let (m1, e1) := if e % 2 = 0 then (m, e) else (2 * m, e - 1)
      let w := m1 * 2 ^ 260
      let r := isqrt w
      f.round md false (2 * r + (if r * r = w then 0 else 1)) (e1 / 2 - 131)

/-- Order of two values that are no NaN: −1, 0 or 1; −0 equals +0. -/
def FVal.cmp (a b : FVal) : Int :=
  match a, b with
  | .inf x, .inf y => if x = y then 0 else if x then -1 else 1
  | .inf x, _ => if x then -1 else 1
  | _, .inf y => if y then 1 else -1
  | _, _ =>
    let d := a.dyadic.add { m := -b.dyadic.m, e := b.dyadic.e }
    if d.m < 0 then -1 else if d.m = 0 then 0 else 1

/-- minimumNumber and maximumNumber over bit patterns (R122). -/
def Fmt.minMax (f : Fmt) (isMax : Bool) (x y : Nat) : Nat × FlagSet :=
  let a := f.value x
  let b := f.value y
  let nv := flIf (a.isSnan || b.isSnan) flNV
  if a.isNan && b.isNan then (f.nanBits, nv)
  else if a.isNan then (y % 2 ^ f.width, nv)
  else if b.isNan then (x % 2 ^ f.width, nv)
  else
    let c := a.cmp b
    let aFirst := c < 0 || (c == 0 && a.neg)
    ((if aFirst != isMax then x else y) % 2 ^ f.width, nv)

/-- FCMP (R123). -/
def condF (c : FCond) (a b : FVal) : Bool × FlagSet :=
  let un := a.isNan || b.isNan
  let s := a.isSnan || b.isSnan
  match c with
  | .eq => (!un && a.cmp b == 0, flIf s flNV)
  | .ne => (un || a.cmp b != 0, flIf s flNV)
  | .lt => (!un && a.cmp b < 0, flIf un flNV)
  | .le => (!un && a.cmp b ≤ 0, flIf un flNV)
  | .gt => (!un && 0 < a.cmp b, flIf un flNV)
  | .ge => (!un && 0 ≤ a.cmp b, flIf un flNV)
  | .un => (un, flIf s flNV)
  | .ord => (!un, flIf s flNV)

/-- FCLASS (R127). -/
def Fmt.classify (f : Fmt) (bits : Nat) : Nat :=
  match f.value bits with
  | .nan s => if s then 2 ^ 8 else 2 ^ 9
  | .inf n => if n then 2 ^ 0 else 2 ^ 7
  | .fin n m _ =>
    if m = 0 then (if n then 2 ^ 3 else 2 ^ 4)
    else if m < 2 ^ f.mw then (if n then 2 ^ 2 else 2 ^ 5)
    else (if n then 2 ^ 1 else 2 ^ 6)

/-! ## Conversions (R72) -/

/-- A float value into a float format: narrow formats saturate, and a NaN into a format without NaN is +0 with NV. -/
def Fmt.ofVal (f : Fmt) (md : Mode) (v : FVal) : Nat × FlagSet :=
  match v with
  | .nan s => if f.hasNan then f.nanRes s else (0, flNV)
  | .inf n => if f.hasInf then (f.signed n f.infBits, 0) else (f.signed n f.maxBits, flNV)
  | .fin n m e => f.round md n m e

/-- A value rounded to an integer, and whether it changed. -/
def roundToInt (md : Mode) (n : Bool) (m : Nat) (e : Int) : Int × Bool :=
  let (q, ix) := quantize md n m e 0
  (fsign n q, ix)

/-- A float value into the integers lo..hi (R72, R71). -/
def floatToInt (md : Mode) (lo hi : Int) (v : FVal) : Int × FlagSet :=
  match v with
  | .nan _ => (0, flNV)
  | .inf n => (if n then lo else hi, flNV)
  | .fin n m e =>
    let (q, ix) := roundToInt md n m e
    if q < lo then (lo, flNV ||| flNX)
    else if hi < q then (hi, flNV ||| flNX)
    else (q, flIf ix flNX)

/-- A value rounded to an integral value of its own format (R129, INT). -/
def Fmt.toIntegral (f : Fmt) (md : Mode) (v : FVal) : Nat × FlagSet :=
  match v with
  | .fin n m e =>
    let (q, ix) := quantize md n m e 0
    if 0 ≤ e then ((f.round md n m e).1, 0)
    else ((f.round (.to .rne) n q 0).1, flIf ix flNX)
  | v => f.ofVal md v

/-! ## Sums of products -/

/-- What a list of exact terms sums to, before rounding (R74). -/
inductive SumRes where
  | nan (nv : Bool)
  | inf (neg : Bool)
  | fin (d : Dyadic) (allNegZero : Bool)
  deriving DecidableEq, Repr

/-- The exact sum of the terms with the NaN, infinity and zero rules of R74. A term that came from 0 × ∞ or from a
signalling NaN carries nv. -/
def sumTerms (ts : List (FVal × Bool)) : SumRes :=
  let nv := ts.any (·.2)
  let pos := ts.any fun t => t.1 == .inf false
  let neg := ts.any fun t => t.1 == .inf true
  if ts.any (·.1.isNan) then .nan (nv || (pos && neg))
  else if pos && neg then .nan true
  else if pos then .inf false
  else if neg then .inf true
  else .fin (ts.foldl (fun s t => s.add t.1.dyadic) { m := 0, e := 0 })
    (ts.all fun t => t.1.isZero && t.1.neg)

/-- Round a sum to a format; an exact zero is +0 unless every term is −0 (R74). -/
def Fmt.ofSum (f : Fmt) (md : Mode) : SumRes → Nat × FlagSet
  | .nan nv => f.nanRes nv
  | .inf n => (f.signed n f.infBits, 0)
  | .fin d nz => f.roundInt md nz d.m d.e

/-- A product as a term: NV for 0 × ∞ and for a signalling factor. -/
def prodTerm (a b : FVal) : FVal × Bool :=
  (a.mul b, a.isSnan || b.isSnan || (a.isInf && b.isZero) || (a.isZero && b.isInf))

/-- A value times an E8M0 scale; the byte 0xFF makes it a NaN (R66). -/
def scaled (v : FVal) (e : Nat) : FVal := if e = 255 then .nan false else v.scale ((e : Int) - 127)

/-- The product of two packed integers as a term: a zero has no sign there, and counts as +0. -/
def intTerm (a b : FVal) : FVal × Bool :=
  let p := a.mul b
  (if p.isZero then .fin false 0 0 else p, false)

/-- One block of the exact-block rule (R74): acc plus the products scaled by 2^(ea + eb − 254). Every element of a block
with a scale of 0xFF reads as a NaN (R66), so that no product of infinities is formed there: NV is set for a signalling
element or accumulator alone (R136; DEDUCED, assumption log 52). -/
def blockSum (ints : Bool) (md : Mode) (acc : Nat) (ea eb : Nat) (ab : List (FVal × FVal)) : Nat × FlagSet :=
  let a := fp32.value acc
  let k : Int := (ea : Int) + eb - 254
  if ea = 255 || eb = 255 then fp32.nanRes (a.isSnan || ab.any fun p => p.1.isSnan || p.2.isSnan)
  else
    let term (p : FVal × FVal) : FVal × Bool := if ints then intTerm p.1 p.2 else prodTerm p.1 p.2
    fp32.ofSum md (sumTerms ((a, a.isSnan) :: ab.map fun p => ((term p).1.scale k, (term p).2)))

/-- floor(log2 |x|) of a finite non-zero value. -/
def FVal.expo : FVal → Option Int
  | .fin _ m e => if m = 0 then none else some ((Nat.log2 m : Int) + e)
  | _ => none

def maxExpo : List FVal → Option Int
  | [] => none
  | t :: ts =>
    match t.expo, maxExpo ts with
    | none, r => r
    | some x, none => some x
    | some x, some y => some (if x < y then y else x)

/-- One group of the window-sum rule (R75). -/
def windowSum (md : Mode) (acc : Nat) (ab : List (FVal × FVal)) : Nat × FlagSet :=
  let a := fp32.value acc
  let ts := (ab.map fun p => prodTerm p.1 p.2) ++ [(a, a.isSnan)]
  match sumTerms ts, maxExpo (ts.map (·.1)) with
  | .fin d nz, some E =>
    let lsb := E - 42
    let qs := ts.map fun t =>
      match t.1 with
      | .fin n m e => if lsb ≤ e then (fsign n (m * 2 ^ (e - lsb).toNat), false)
          else (fsign n (m / 2 ^ (lsb - e).toNat), m % 2 ^ (lsb - e).toNat != 0)
      | _ => (0, false)
    let s := qs.foldl (fun x q => x + q.1) 0
    let sticky := qs.any (·.2)
    if !sticky then fp32.roundInt md (nz && d.m == 0) s lsb
    else
      let v := if s = 0 then (0 : Int) else if s < 0 then 4 * s - 1 else 4 * s + 1
      let r := fp32.roundInt md false v (lsb - 2)
      (r.1, r.2 ||| flNX)
  | r, _ => fp32.ofSum md r

/-! ## The generator (R77 to R79) -/

/-- One step: the new state and out. -/
def genStep (g0 g1 : DWord) : DWord × DWord × DWord :=
  let x := g0 ^^^ (g0 <<< 23)
  let x' := x ^^^ (x >>> 17) ^^^ g1 ^^^ (g1 >>> 26)
  (g1, x', (g1 + x') * 0x9E3779B97F4A7C15)

def genMix (z0 : DWord) : DWord :=
  let z := z0 + 0x9E3779B97F4A7C15
  let z := (z ^^^ (z >>> 30)) * 0xBF58476D1CE4E5B9
  let z := (z ^^^ (z >>> 27)) * 0x94D049BB133111EB
  z ^^^ (z >>> 31)

/-- The state a seed gives under an identity (R79). -/
def genSeed (seed id : DWord) : DWord × DWord :=
  let g0 := genMix (seed ^^^ id)
  let g1 := genMix (g0 ^^^ 0x6A09E667F3BCC909)
  if g0 = 0 ∧ g1 = 0 then (1, 0) else (g0, g1)

/-- The identity of a lane (R79). -/
def laneId (block gang lane : Nat) : DWord := BitVec.ofNat 64 ((block * 32 + gang) * 32 + lane)
/-- The identity of an accumulator row (R263). -/
def rowId (block acc row : Nat) : DWord := BitVec.ofNat 64 ((block * 32 + acc) * 32 + row) ^^^ 0x8000000000000000
def draw16 (out : DWord) : Nat := out.toNat / 2 ^ 48
def draw32 (out : DWord) : Nat := out.toNat / 2 ^ 32

/-! ## The accumulator cell (R80 to R82) -/

def cellFix (c : Nat) : Nat := c % 2 ^ 480
def cellCount (c : Nat) : Nat := c / 2 ^ 488

/-- A contribution to a cell (R81). Where an ordinary store has altered the cell, the reserved bits [487:483] come out 0
(DESIGN CHOICE, assumption log 64). -/
def cellAdd (c : Nat) (v : FVal) : Nat :=
  let cnt := if cellCount c < 2 ^ 24 - 1 then cellCount c + 1 else 2 ^ 24 - 1
  let fl := c / 2 ^ 480 % 8
  let (fix, fl) := match v with
    | .nan _ => (cellFix c, fl ||| 4)
    | .inf n => (cellFix c, if n then fl ||| 2 else fl ||| 1)
    | .fin n m e => (wrapN 480 ((cellFix c : Int) + fsign n (m * 2 ^ (e + 149).toNat / 2 ^ (-(e + 149)).toNat)), fl)
  cnt * 2 ^ 488 + fl * 2 ^ 480 + fix

/-- The value read from a cell (R82). -/
def cellRead (f : Fmt) (c : Nat) : Nat × FlagSet :=
  let pinf := nbit c 480
  let ninf := nbit c 481
  let nan := nbit c 482
  if nan || (pinf && ninf) then f.nanRes (pinf && ninf)
  else if pinf then (f.infBits, 0)
  else if ninf then (f.signed true f.infBits, 0)
  else f.roundInt (.to .rne) false (sval 480 (cellFix c)) (-149)

/-- The order key of a float RMIN or RMAX (R386). -/
def floatKey (x : Nat) : Nat := if nbit x 31 then 2 ^ 32 - 1 - x else x + 2 ^ 31
/-- NaNs made canonical before the comparison. -/
def floatCanon (x : Nat) : Nat := if (fp32.value x).isNan then fp32.nanBits else x
def floatMinMax (isMax : Bool) (m x : Nat) : Nat :=
  let a := floatCanon m
  let b := floatCanon x
  if (floatKey b < floatKey a) != isMax then b else a

end Sys2Proof.Machine
end

