-- ==== Sys2Proof/Machine/Memory.lean ====
section
/-! DEFINITION. Flat memory: the cells in canonical form, the granule bits, the caches and the stores that stand between a lane
and the cells (R207 to R209, R212, R229), and the two windows of the first tier. -/

namespace Sys2Proof.Machine

/-! ## Cells -/

/-- What a cell that is not listed reads as (R476 for the first tier; assumption log 4 for the other places). -/
def defaultByte : Byte := 0

def memGet : Memory → Nat → Byte
  | [], _ => defaultByte
  | (k, v) :: m, a => if k = a then v else if a < k then defaultByte else memGet m a

/-- Write one cell: the list stays strictly rising and holds no entry equal to the default. -/
def memSet : Memory → Nat → Byte → Memory
  | [], a, b => if b = defaultByte then [] else [(a, b)]
  | (k, v) :: m, a, b =>
    if k = a then (if b = defaultByte then m else (a, b) :: m)
    else if a < k then (if b = defaultByte then (k, v) :: m else (a, b) :: (k, v) :: m)
    else (k, v) :: memSet m a b

def memWrite : Memory → Nat → List Byte → Memory
  | m, _, [] => m
  | m, a, b :: bs => memWrite (memSet m a b) (a + 1) bs

def memRead (m : Memory) (a n : Nat) : List Byte := (List.range n).map fun i => memGet m (a + i)

/-- The canonical form from key lo up. -/
def Memory.wfFrom : Nat → Memory → Bool
  | _, [] => true
  | lo, (k, v) :: m => decide (lo ≤ k) && decide (v ≠ defaultByte) && Memory.wfFrom (k + 1) m

/-- Strictly rising addresses, no entry equal to the default. -/
def Memory.wf (m : Memory) : Bool := Memory.wfFrom 0 m

/-! ## Places (R210, R211, R214) -/

/-- The place number of the PLACE field of R360. -/
def cellKey (die place addr : Nat) : Nat := (die * 4 + place) * 2 ^ 64 + addr
def cellDie (cell : Nat) : Nat := cell / 2 ^ 66
def cellPlace (cell : Nat) : Nat := cell / 2 ^ 64 % 4
def cellAddr (cell : Nat) : Nat := cell % 2 ^ 64

/-- The bank-linear address of a cell of the interleaved window (R211). -/
def bankLinear (pa : Nat) : Nat :=
  let l := pa / 2 ^ 9 % 2 ^ 28
  let f (i : Nat) := l / 2 ^ (6 * i) % 64
  let ch := Nat.xor (Nat.xor (Nat.xor (Nat.xor (f 0) (f 1)) (f 2)) (f 3)) (l / 2 ^ 24)
  let m := l / 64
  ch * 2 ^ 31 + m % 16 * 2 ^ 27 + m / 64 * 2 ^ 11 + m / 16 % 4 * 2 ^ 9 + pa % 2 ^ 9

/-- The physical address in the interleaved window of a bank-linear address (R211). -/
def interleaved (a : Nat) : Nat :=
  let m := a / 2 ^ 11 % 2 ^ 16 * 64 + a / 2 ^ 9 % 4 * 16 + a / 2 ^ 27 % 16
  let f (i : Nat) := m / 2 ^ (6 * i) % 64
  let f0 := Nat.xor (Nat.xor (Nat.xor (Nat.xor (a / 2 ^ 31 % 64) (f 0)) (f 1)) (f 2)) (m / 2 ^ 18)
  (m * 64 + f0) * 2 ^ 9 + a % 2 ^ 9
/-- The cell of a physical address of the first tier through a window. -/
def tierCell (die : Nat) (win : Bool) (pa : Nat) : Nat := cellKey die 0 (if win then pa else bankLinear pa)

/-- The fields of a bank-linear address (R210). -/
def blStack (a : Nat) : Nat := a / 2 ^ 36 % 2
/-- The channel of the die, STACK:CH, 0..63. -/
def blChannel (a : Nat) : Nat := a / 2 ^ 31 % 64
def blBank (a : Nat) : Nat := a / 2 ^ 27 % 16
def blRow (a : Nat) : Nat := a / 2 ^ 11 % 2 ^ 16
def blCol (a : Nat) : Nat := a % 2 ^ 11
def blAddr (ch bank row col : Nat) : Nat := ch * 2 ^ 31 + bank * 2 ^ 27 + row * 2 ^ 11 + col

/-! ## Granule bits (R389, R105) -/

def granuleOf (cell : Nat) : Nat := cell / 32
/-- The granules that n bytes at a cell touch. -/
def granulesOf (cell n : Nat) : List Nat :=
  if n = 0 then [] else (List.range ((cell + n - 1) / 32 - cell / 32 + 1)).map (cell / 32 + ·)

def GranuleBits.poisoned (b : GranuleBits) (cell n : Nat) : Bool := (granulesOf cell n).any b.poison.contains
def GranuleBits.setPoison (b : GranuleBits) (gs : List Nat) : GranuleBits := { b with poison := gs.foldl insNat b.poison }
def GranuleBits.clearPoison (b : GranuleBits) (gs : List Nat) : GranuleBits :=
  { b with poison := b.poison.filter fun g => !gs.contains g }
def GranuleBits.setWritten (b : GranuleBits) (gs : List Nat) : GranuleBits := { b with written := gs.foldl insNat b.written }
def GranuleBits.setConflict (b : GranuleBits) (gs : List Nat) : GranuleBits :=
  { b with conflict := gs.foldl insNat b.conflict }
/-- WR and CF cleared, as an ordinary store does (R389). -/
def GranuleBits.clearOnce (b : GranuleBits) (gs : List Nat) : GranuleBits :=
  { b with written := b.written.filter fun g => !gs.contains g,
           conflict := b.conflict.filter fun g => !gs.contains g }

/-! ## Units by number -/

def State.die (s : State) (k : Nat) : Die := tabGet s.dies Die.reset k
def State.setDie (s : State) (k : Nat) (d : Die) : State := { s with dies := tabPut s.dies k d }
def State.core (s : State) (k : Nat) : Core := tabGet s.cores Core.reset k
def State.setCore (s : State) (k : Nat) (c : Core) : State := { s with cores := tabPut s.cores k c }
def pkgOf (die : Nat) : Nat := die / 8
def dieOf (core : Nat) : Nat := core / 64

/-! ## Stores on their way (R207, R212, R229, R236)

The dirty bytes of a cache are the pending stores that have come as far as it, the oldest first. -/

def Pending.covers (p : Pending) (cell : Nat) : Bool := p.cell ≤ cell && cell < p.cell + p.bytes.length
def Pending.overlaps (p : Pending) (cell n : Nat) : Bool := p.cell < cell + n && cell < p.cell + p.bytes.length
def Pending.byteAt (p : Pending) (cell : Nat) : Byte := p.bytes.getD (cell - p.cell) 0
/-- The core that a store has not left. -/
def Pending.core? (p : Pending) : Option Nat := match p.reach with
  | .core c => some c
  | _ => none
def Pending.atDie (p : Pending) : Bool := p.reach == .die
/-- A core sees a store that has not reached the die: its own, or one that has come to it before the others. -/
def Pending.seenOn (p : Pending) (core : Nat) : Bool := match p.reach with
  | .core c => c == core || p.also.contains core
  | _ => false
/-- Some core sees two stores that have not reached the die. -/
def Pending.seenWith (p q : Pending) : Bool := match q.reach with
  | .core c => p.seenOn c || q.also.any p.seenOn
  | _ => false
/-- Two stores under one name meet, and stand at one level or before the eyes of one core: the younger stays behind. -/
def Pending.meets (p q : Pending) : Bool :=
  (p.reach == q.reach || p.seenWith q) && p.win == q.win && p.overlaps q.cell q.bytes.length
/-- The sectors of a store, by the numbers of the first and the last. -/
def Pending.sectors (p : Pending) : Nat × Nat := (p.cell / 128, (p.cell + (p.bytes.length - 1)) / 128)
/-- Two stores under one name touch a common sector. -/
def Pending.shares (p q : Pending) : Bool :=
  p.win == q.win && p.sectors.1 ≤ q.sectors.2 && q.sectors.1 ≤ p.sectors.2
/-- The cache line of a cell: its window and its number. -/
def lineOf (win : Bool) (cell : Nat) : Bool × Nat := (win, cell / 512)
/-- The home L2 slice of a cell (R208). -/
def sliceOf (cell : Nat) : Nat :=
  let a := cellAddr cell
  if cellPlace cell = 0 then blChannel a % 16
  else let l := a / 512; Nat.xor (Nat.xor (l % 16) (l / 16 % 16)) (l / 256 % 16)

/-- The newest byte that a selection of the pending stores gives a cell. -/
def pendingByte (ps : List Pending) (f : Pending → Bool) (cell : Nat) : Option Byte :=
  ps.foldl (fun r p => if f p && p.covers cell then some (p.byteAt cell) else r) none

/-! ## Clean sectors (R207 to R209) -/

def Sector.holds (c : Sector) (win : Bool) (cell : Nat) : Bool := c.win == win && c.num == cell / 128
/-- A sector meets n bytes at a cell. -/
def Sector.meets (c : Sector) (cell n : Nat) : Bool := c.num * 128 < cell + n && cell < c.num * 128 + 128
/-- The byte of a cell in a cache's clean sectors. -/
def sectorByte (cs : List Sector) (win : Bool) (cell : Nat) : Option Byte :=
  (cs.find? fun c => c.holds win cell).map fun c => c.bytes.getD (cell % 128) 0
/-- The sectors take a store's bytes, where they hold them. -/
def patchSectors (cs : List Sector) (p : Pending) : List Sector :=
  cs.map fun c =>
    if c.win == p.win && c.meets p.cell p.bytes.length then
      { c with bytes := c.bytes.mapIdx fun i b => if p.covers (c.num * 128 + i) then p.byteAt (c.num * 128 + i) else b }
    else c
/-- A cache of so many lines keeps the newest beside those already seen: the sectors of a line beyond them go (R200). -/
def keepLines (lines : Nat) : List (Bool × Nat) → List Sector → List Sector
  | _, [] => []
  | seen, c :: cs =>
    if seen.contains (c.win, c.num / 4) then c :: keepLines lines seen cs
    else if seen.length < lines then c :: keepLines lines ((c.win, c.num / 4) :: seen) cs
    else keepLines lines seen cs
/-- The lines of an L1 (16 ways × 256 sets), and of one of the 16 slices of an L2 (16 ways × 512 sets). -/
def l1Lines : Nat := 4096
def sliceLines : Nat := 8192
/-- The lines that a selection of the pending stores makes dirty, the newest first. -/
def dirtyLines (ps : List Pending) (f : Pending → Bool) : List (Bool × Nat) :=
  (ps.filter f).foldr (fun p ls => if ls.contains (lineOf p.win p.cell) then ls else ls ++ [lineOf p.win p.cell]) []

/-! ## Views (R219, R221, R229, R234) -/

/-- A byte as the agents of its die see it through one window: what the L2 holds, else the cell (R212). -/
def State.dieByte (s : State) (win : Bool) (cell : Nat) : Byte :=
  match pendingByte s.pending (fun p => p.atDie && p.win == win) cell with
  | some b => b
  | none => (sectorByte (s.die (cellDie cell)).l2 win cell).getD (memGet s.mem cell)
/-- A byte as a core's engines see it: the stores that it sees, then its L1, then the die's view. -/
def State.coreByte (s : State) (core : Nat) (win : Bool) (cell : Nat) : Byte :=
  match pendingByte s.pending (fun p => p.seenOn core && p.win == win) cell with
  | some b => b
  | none => (sectorByte (s.core core).l1 win cell).getD (s.dieByte win cell)
/-- The sectors that a gang still sees as they were, whatever others of its core have stored since (R221, R222). -/
def Core.nearOf (k : Core) (gang : Nat) : List Sector := (k.near.filter fun n => n.1 == gang).map (·.2)
/-- A byte as an agent sees it through one window. A lane sees what its gang has stored before its core does, and may see
otherwise what its gang has kept. -/
def State.viewByte (s : State) (v : Viewer) (win : Bool) (cell : Nat) : Byte :=
  match v with
  | .lane core gang =>
    match pendingByte s.pending (fun p => p.reach == Reach.gang core gang && p.win == win) cell with
    | some b => b
    | none => (sectorByte ((s.core core).nearOf gang) win cell).getD (s.coreByte core win cell)
  | .core core => s.coreByte core win cell
  | .die => s.dieByte win cell
  | .home => memGet s.mem cell

def State.viewBytes (s : State) (v : Viewer) (win : Bool) (cell n : Nat) : List Byte :=
  (List.range n).map fun i => s.viewByte v win (cell + i)
/-- n bytes as a little-endian number. -/
def State.viewNat (s : State) (v : Viewer) (win : Bool) (cell n : Nat) : Nat := leNat (s.viewBytes v win cell n)

/-- Write the cells themselves. -/
def State.memPut (s : State) (cell : Nat) (bytes : List Byte) : State := { s with mem := memWrite s.mem cell bytes }

/-- A granule's poison, WR and CF go with an ordinary store to it (R245, R389). -/
def State.clearBits (s : State) (cell n : Nat) : State :=
  { s with bits := (s.bits.clearPoison (granulesOf cell n)).clearOnce (granulesOf cell n) }

/-! ## Fields of the device's own (R8, R149, R150, R349, R350) -/

/-- A granule holds fields of the device's own: 1 STATE of a TCB, 2 the HEAD of a fault area, 3 to 6 the granules of a fault
record (assumption log 46). -/
def State.markField (s : State) (cell kind : Nat) : State := { s with fields := tabPut s.fields (granuleOf cell) kind }
/-- What software's byte at an offset makes of such a granule. Of STATE, ST = 0 and OVR = 0 are honoured, and nothing else. -/
def fieldByte (kind off : Nat) (old new : Byte) : Byte :=
  match kind with
  | 1 =>
    if off = 8 then old &&& (if new &&& 0x0F = 0 then 0xF0 else 0xFF) &&& (if new &&& 0x10 = 0 then 0xEF else 0xFF)
    else if 8 < off && off < 12 then old else new
  | 2 => if off < 8 then old else new
  | 4 => if (4 ≤ off && off < 8) || off = 0x14 || (0x18 ≤ off && off < 0x1C) then new else old
  | 0 => new
  | _ => old
/-- What software's byte makes of a cell. -/
def State.honoured (s : State) (win : Bool) (cell : Nat) (b : Byte) : Byte :=
  fieldByte (tabGet s.fields 0 (granuleOf cell)) (cell % 32) (s.dieByte win cell) b
def State.honouredAll (s : State) (win : Bool) (cell : Nat) (bytes : List Byte) : List Byte :=
  bytes.mapIdx fun i b => s.honoured win (cell + i) b

/-! ## Copies that go (R208) -/

/-- Sectors that satisfy f leave the L1s of the cores that satisfy on, and what their gangs have kept. -/
def State.dropL1 (s : State) (on : Nat → Bool) (f : Sector → Bool) : State :=
  let drop (k : Core) : Core := { k with l1 := k.l1.filter fun c => !f c, near := k.near.filter fun n => !f n.2 }
  { s with cores := s.cores.map fun p => if on p.1 then (p.1, drop p.2) else p }
/-- Sectors that satisfy f leave the L2 of a die. -/
def State.dropL2 (s : State) (die : Nat) (f : Sector → Bool) : State :=
  { s with dies := tabMod s.dies die fun d => { d with l2 := d.l2.filter fun c => !f c } }
/-- The directory invalidates every L1's copy of the sectors of n bytes (R208). -/
def State.invalidate (s : State) (win : Bool) (cell n : Nat) : State :=
  s.dropL1 (fun c => dieOf c == cellDie cell) fun c => c.win == win && c.meets (cell / 128 * 128) (cell % 128 + n)
/-- An acquire of die or system scope on a core: its L1 is clean, so that later loads see what the die sees (R223, R230). -/
def State.refresh (s : State) (core : Nat) : State := s.dropL1 (· == core) fun _ => true
/-- An acquire of core scope in a gang: it keeps nothing otherwise than its core sees it (R223, R230). -/
def State.dropNear (s : State) (core gang : Nat) : State :=
  { s with cores := tabMod s.cores core fun k => { k with near := k.near.filter fun n => n.1 != gang } }

/-! ## Stores that reach the next level -/

/-- A selection of the pending stores, with every older one that a selected one meets: no store overtakes an older one to a
common byte (R229). -/
def withOlder (f : Pending → Bool) : List Pending → List (Pending × Bool)
  | [] => []
  | p :: ps =>
    let r := withOlder f ps
    (p, f p || r.any fun q => q.2 && p.meets q.1) :: r

/-- Every store at die level that satisfies f reaches the cells, oldest first; the L2's clean sectors of its name take its
bytes, those of the other name may stay as they are (R212). -/
def State.toCells (s : State) (f : Pending → Bool) : State :=
  let sel := withOlder (fun p => p.atDie && f p) s.pending
  let put (s : State) (p : Pending) : State :=
    { s.memPut p.cell p.bytes with
      dies := tabMod s.dies (cellDie p.cell) fun d => { d with l2 := patchSectors d.l2 p } }
  ((sel.filter (·.2)).map (·.1)).foldl put { s with pending := (sel.filter fun p => !p.2).map (·.1) }

/-- The L2 of a die holds no more lines than each of its slices has room for: clean ones go, and the oldest dirty ones go on to
the cells (R200). -/
def State.fitL2 (s : State) (die : Nat) : State :=
  if s.pending.length + (s.die die).l2.length ≤ sliceLines then s
  else
    let dirty (k : Nat) : List (Bool × Nat) :=
      dirtyLines s.pending fun p => p.atDie && p.die == die && sliceOf p.cell == k
    let fits : List (Bool × Nat) := (List.range 16).flatMap fun k => (dirty k).take sliceLines
    let s := s.toCells fun p => p.die == die && !fits.contains (lineOf p.win p.cell)
    { s with dies := tabMod s.dies die fun d =>
        { d with l2 := (List.range 16).flatMap fun k =>
            keepLines sliceLines ((dirty k).take sliceLines) (d.l2.filter fun c => sliceOf (c.num * 128) == k) } }

/-- The stores of the cores that satisfy f reach their die, oldest first, and with them what other cores hold dirty of their
sectors. The core's own clean sectors take their bytes, the directory invalidates the other cores' copies (R208), and the
granules' marks go (R389). -/
def State.toDie (s : State) (f : Pending → Bool) : State :=
  let mine := ((withOlder (fun p => p.core?.isSome && f p) s.pending).filter (·.2)).map (·.1)
  let sel := withOlder (fun p => p.core?.isSome && (f p || mine.any p.shares)) s.pending
  let out := (sel.filter (·.2)).map fun p => { p.1 with bytes := s.honouredAll p.1.win p.1.cell p.1.bytes }
  let keep (cores : Tab Core) (p : Pending) : Tab Core :=
    cores.map fun k =>
      if some k.1 == p.core? then (k.1, { k.2 with l1 := patchSectors k.2.l1 p })
      else if dieOf k.1 == p.die then
        (k.1, { k.2 with l1 := k.2.l1.filter fun c => !(c.win == p.win && p.sectors.1 ≤ c.num && c.num ≤ p.sectors.2) })
      else k
  let s : State :=
    { s with pending := (sel.filter fun p => !p.2).map (·.1) ++ out.map fun p => { p with reach := .die, also := [] }
             cores := out.foldl keep s.cores }
  let s := out.foldl (fun s p => s.clearBits p.cell p.bytes.length) s
  (out.map (·.die)).foldl State.fitL2 s
/-- The stores to n bytes at a cell that a core sees reach the die: what it does at die scope comes after them. -/
def State.ownFirst (s : State) (core cell n : Nat) : State := s.toDie fun p => p.seenOn core && p.overlaps cell n

/-! ## Fills (R207, R209) -/

/-- The L1 of a core holds no more lines than it has room for: clean ones go, and the oldest dirty ones go on to the die
(R200). -/
def State.fitL1 (s : State) (core : Nat) : State :=
  if s.pending.length + (s.core core).l1.length ≤ l1Lines then s
  else
    let dirty := (dirtyLines s.pending fun p => p.reach == Reach.core core).take l1Lines
    let s := s.toDie fun p => p.reach == Reach.core core && !dirty.contains (lineOf p.win p.cell)
    { s with cores := tabMod s.cores core fun k => { k with l1 := keepLines l1Lines dirty k.l1 } }
/-- A sector comes into the L2 of its home, or into a core's L1, as the level below shows it; the oldest lines give way where
the cache is full. -/
def State.fillSector (s : State) (core : Option Nat) (win : Bool) (num : Nat) : State :=
  let new : Sector := { win := win, num := num, bytes := (List.range 128).map fun i => s.dieByte win (num * 128 + i) }
  let put (cs : List Sector) : List Sector := if cs.any fun c => c.win == win && c.num == num then cs else new :: cs
  match core with
  | some c => (s.setCore c { s.core c with l1 := put (s.core c).l1 }).fitL1 c
  | none =>
    let k := cellDie (num * 128)
    (s.setDie k { s.die k with l2 := put (s.die k).l2 }).fitL2 k
/-- The sectors that n bytes at a cell need. -/
def sectorsOf (cell n : Nat) : List Nat :=
  if n = 0 then [] else (List.range ((cell + n - 1) / 128 - cell / 128 + 1)).map (cell / 128 + ·)
/-- A load fills the sectors it needs, in the caches that its page's policy lets hold them (R209). -/
def State.fillFor (s : State) (core : Option Nat) (cache : Nat) (win : Bool) (cell n : Nat) : State :=
  if cache = 2 then s
  else
    (sectorsOf cell n).foldl (fun s k =>
      let s := s.fillSector none win k
      match core with
      | some c => if cache = 0 then s.fillSector (some c) win k else s
      | none => s) s
/-- A gang keeps a sector as its core sees it. -/
def State.keepSector (s : State) (core gang : Nat) (win : Bool) (num : Nat) : State :=
  let new : Sector := { win := win, num := num, bytes := (List.range 128).map fun i => s.coreByte core win (num * 128 + i) }
  let k := s.core core
  if (k.nearOf gang).any fun c => c.win == win && c.num == num then s
  else s.setCore core { k with near := (gang, new) :: k.near }
/-- A store has come to a core before the die has it (R229, R236). -/
def State.showTo (s : State) (i core : Nat) : State :=
  match s.pending[i]? with
  | none => s
  | some p =>
    if p.core?.isNone || dieOf core != p.die || p.seenOn core then s
    else { s with pending := s.pending.set i { p with also := core :: p.also } }

/-- Stores that an observer sees together: those of one engine operation within one granule (R227). -/
def Pending.sameUnit (p q : Pending) : Bool :=
  p == q || (p.lane == 32 && p.op != 0 && p.op == q.op && p.lane == q.lane && p.cell / 32 == q.cell / 32)
/-- The pending store in place i reaches the next level, with its unit and what has to go before it. -/
def State.drainAt (s : State) (i : Nat) : State :=
  match s.pending[i]? with
  | none => s
  | some p =>
    match p.reach with
    | .gang _ _ => s
    | .core _ => s.toDie p.sameUnit
    | .die => s.toCells p.sameUnit

/-- What a core's copies have written to its blocks is seen by the engines of other cores. -/
def State.showBlocks (s : State) (core : Nat) : State :=
  if s.blocks.any fun p => p.2.core == core && !p.2.unseen.isEmpty then
    { s with blocks := s.blocks.map fun p => if p.2.core == core then (p.1, { p.2 with unseen := [] }) else p }
  else s
/-- Every store of a core reaches its die (R223, R230). -/
def State.releaseCore (s : State) (core : Nat) : State := (s.toDie fun p => p.reach == Reach.core core).showBlocks core
/-- The same but for copies of core scope, which a barrier of die scope does not order (R232). -/
def State.releaseArrival (s : State) (core : Nat) : State := s.toDie fun p => p.reach == Reach.core core && !p.copy
/-- Every store of a die reaches the cells, where the host sees it (R221, R242). -/
def State.releaseDie (s : State) (die : Nat) : State := s.toCells fun p => p.die == die

/-- Every store to n bytes at a cell reaches the cells, and every cached copy goes, through both windows: a recall by the home
slice (R208, R303). -/
def State.recall (s : State) (cell n : Nat) : State :=
  let s := (s.toDie fun p => p.overlaps cell n).toCells fun p => p.overlaps cell n
  (s.dropL1 (fun c => dieOf c == cellDie cell) fun c => c.meets cell n).dropL2 (cellDie cell) fun c => c.meets cell n
/-- The same through one window alone: an access to a page that no cache holds goes to the home memory (R209). -/
def State.recallThrough (s : State) (win : Bool) (cell n : Nat) : State :=
  let f (p : Pending) : Bool := p.win == win && p.overlaps cell n
  let g (c : Sector) : Bool := c.win == win && c.meets cell n
  (((s.toDie f).toCells f).dropL1 (fun c => dieOf c == cellDie cell) g).dropL2 (cellDie cell) g
/-- Every store of a die reaches the cells, and no copy is left: an alias fence (R240). -/
def State.recallDie (s : State) (die : Nat) : State :=
  let s := (s.toDie fun p => p.die == die).toCells fun p => p.die == die
  (s.dropL1 (fun c => dieOf c == die) fun _ => true).dropL2 die fun _ => true

/-! ## Stores made -/

/-- A store comes to stand among those on their way; the cache that holds it keeps to its size. -/
def State.addPending (s : State) (p : Pending) : State :=
  let s := { s with pending := s.pending ++ [p] }
  match p.reach with
  | .core c => s.fitL1 c
  | .die => s.fitL2 p.die
  | .gang _ _ => s

/-- Who stores: an operation's number, its gang, its lane, whether it is a copy of core scope, and whether the device writes
fields of its own. -/
structure Maker where
  op : Nat
  gang : Nat
  lane : Nat
  copy : Bool
  own : Bool
  deriving DecidableEq, Repr
/-- An engine whose bytes are no unit together. -/
def Maker.none : Maker := { op := 0, gang := 0, lane := 32, copy := false, own := false }
/-- The device, in a field of its own. -/
def Maker.dev : Maker := { Maker.none with own := true }
def Maker.pending (m : Maker) (reach : Reach) (win : Bool) (cell : Nat) (bytes : List Byte) : Pending :=
  { reach := reach, die := cellDie cell, win := win, cell := cell, bytes := bytes, op := m.op, gang := m.gang,
    lane := m.lane, copy := m.copy, also := [] }

/-- A store performed at core scope; what its gang has kept takes its bytes. -/
def State.storeCore (s : State) (core : Nat) (win : Bool) (cell : Nat) (bytes : List Byte) (m : Maker) : State :=
  let p := m.pending (.core core) win cell bytes
  let patch (n : Nat × Sector) : List (Nat × Sector) :=
    if n.1 == m.gang then (patchSectors [n.2] p).map fun c => (n.1, c) else [n]
  { s with cores := tabMod s.cores core fun k => { k with near := k.near.flatMap patch } }.addPending p

/-- A store performed at die scope through a window: the stores to those bytes that the core sees go before it, as does what any
core holds dirty of its sectors, and no L1 keeps a copy of them (R208). -/
def State.storeDie (s : State) (core : Option Nat) (win : Bool) (cell : Nat) (bytes : List Byte) (m : Maker) : State :=
  let new := m.pending .die win cell bytes
  let s := s.toDie fun p => p.shares new && match core with
    | some c => p.overlaps cell bytes.length || p.core? != some c
    | none => true
  ((s.clearBits cell bytes.length).invalidate win cell bytes.length).addPending
    (if m.own then new else { new with bytes := s.honouredAll win cell bytes })

/-- The device's own update of the home memory itself (R303). -/
def State.storeHome (s : State) (cell : Nat) (bytes : List Byte) : State :=
  ((s.recall cell bytes.length).clearBits cell bytes.length).memPut cell bytes
/-- A write that software asks for, made at the home memory. -/
def State.storeAsked (s : State) (cell : Nat) (bytes : List Byte) : State :=
  let s := s.recall cell bytes.length
  (s.clearBits cell bytes.length).memPut cell (s.honouredAll true cell bytes)
/-- A store of a lane at the home memory, through one window (R209). -/
def State.storeUc (s : State) (win : Bool) (cell : Nat) (bytes : List Byte) (m : Maker) : State :=
  let s := s.recallThrough win cell bytes.length
  (s.clearBits cell bytes.length).memPut cell (if m.own then bytes else s.honouredAll win cell bytes)

/-- Poison n bytes' granules. -/
def State.poison (s : State) (cell n : Nat) : State := { s with bits := s.bits.setPoison (granulesOf cell n) }
/-- Poison written from a core: its stores to those granules that it sees come before it. -/
def State.poisonFrom (s : State) (core cell n : Nat) : State :=
  (s.ownFirst core (cell / 32 * 32) ((cell + n + 31) / 32 * 32 - cell / 32 * 32)).poison cell n
/-- A viewer of a core sees a granule that a store seen there has cleaned (R245). -/
def State.cleaned (s : State) (v : Viewer) (granule : Nat) : Bool :=
  s.pending.any fun p => p.overlaps (granule * 32) 32 && match v with
    | .lane c g => p.reach == Reach.gang c g || p.seenOn c
    | .core c => p.seenOn c
    | _ => false
/-- Some granule of n bytes is poisoned for a viewer. -/
def State.poisonSeen (s : State) (v : Viewer) (cell n : Nat) : Bool :=
  (granulesOf cell n).any fun g => s.bits.poison.contains g && !s.cleaned v g

end Sys2Proof.Machine
end

