-- ==== Sys2Proof/Machine/Translate.lean ====
section
/-! DEFINITION. Dies, packages and cores by number; page-table entries, the walk and the checks of a leaf (R359 to R363). -/

namespace Sys2Proof.Machine

/-! ## Units by number -/

def State.pkg (s : State) (n : Nat) : Pkg := tabGet s.pkgs Pkg.reset n
def State.setPkg (s : State) (n : Nat) (p : Pkg) : State := { s with pkgs := tabPut s.pkgs n p }
/-- A package of the torus: its coordinates lie below the torus's sizes (R375). -/
def State.pkgExists (s : State) (n : Nat) : Bool :=
  n % 16 < s.torus.1 && n / 16 % 16 < s.torus.2.1 && n / 256 < s.torus.2.2
/-- A die of the machine. -/
def State.dieExists (s : State) (k : Nat) : Bool := s.pkgExists (pkgOf k)

/-- The package of a die is up: its start has completed, and no shutdown has stopped it since (R476, R481). -/
def State.isUp (s : State) (die : Nat) : Bool := (s.pkg (pkgOf die)).ready

/-! ## Why an access fails -/

/-- A trap code with its INFO and the address it names (R345, R351). -/
structure Fail where
  code : Nat
  info : Nat
  deriving DecidableEq, Repr

def tcIllegal : Nat := 1
def tcRunLong : Nat := 2
def tcRunDep : Nat := 3
def tcRegBound : Nat := 4
def tcAllot : Nat := 5
def tcPriv : Nat := 6
def tcMisalign : Nat := 7
def tcPageFault : Nat := 8
def tcAccess : Nat := 9
def tcPoison : Nat := 10
def tcAddrDup : Nat := 11
def tcBarrier : Nat := 12
def tcRemote : Nat := 13
def tcMigRefused : Nat := 14
def tcMigReg : Nat := 15
def tcMigHops : Nat := 16
def tcGuestOp : Nat := 17
def tcTempoViol : Nat := 18
def tcBookRange : Nat := 19
def tcChannel : Nat := 20
def tcSvc : Nat := 21
def tcBrk : Nat := 22
def failAccess (cause : Nat) : Fail := { code := tcAccess, info := cause }
def failOf (code : Nat) : Fail := { code := code, info := 0 }
/-- No failure yet: a walk waits for an entry that lies in a channel that holds accesses (R316). -/
def failWait : Fail := failOf 0

/-! ## Entries (R360) -/

/-- A leaf as a walk finds it: the page's home, and the physical address of the byte asked for. -/
structure Leaf where
  die : Nat
  place : Nat
  win : Bool
  encl : Bool
  tempo : Bool
  policy : Nat
  cache : Nat
  sup : Bool
  x : Bool
  w : Bool
  r : Bool
  pa : Nat
  level : Nat
  deriving DecidableEq, Repr

/-- The cell a leaf's byte lies in. -/
def Leaf.cell (l : Leaf) : Nat := if l.place = 0 then tierCell l.die l.win l.pa else cellKey l.die l.place l.pa
def Leaf.uc (l : Leaf) : Bool := l.cache == 2

def levelShift (level : Nat) : Nat := 52 - 12 * level
/-- The floor region and the ply park (R381, R416), as interleaved physical addresses. -/
def floorLo : Nat := 0x1FFD600000
def floorHi : Nat := 0x1FFF9FFFFF
/-- A cell of the rows 65,515 to 65,532, which the bank-linear window does not reach (R302, R381). -/
def reservedRow (bl : Nat) : Bool := 65515 ≤ blRow bl && blRow bl ≤ 65532

/-- A pointer entry whose other fields are 0. -/
def ptrOk (e : Nat) : Bool := nbits e 79 2 == 0

/-- The regions of 256 MiB, which are interleaved addresses (R454), that the cells of a first-tier page lie in: 128 rows of the
bank-linear window fill one, and a larger page of that window reaches them all. -/
def regionsOf (win : Bool) (base size : Nat) : List Nat :=
  if win then (if size = 2 ^ 16 then [blRow base / 128] else List.range 512)
  else (List.range (Nat.max 1 (size / 2 ^ 28))).map (base / 2 ^ 28 + ·)
/-- The enclave rule on leaves of R456: on first tier, and every region marked. -/
def enclOk (p : Pkg) (die place : Nat) (win : Bool) (base size : Nat) : Bool :=
  p.trust != 1 || (place == 0 && (regionsOf win base size).all fun r => p.enclMap.contains (die, r))

/-- A leaf entry that is not malformed (R361, R456, R213), found by a walk on a die of package p. -/
def State.leafOk (s : State) (die e level : Nat) : Bool :=
  let size := 2 ^ levelShift level
  let base := nbits e 127 80 * 2 ^ 16
  let place := nbits e 14 13
  let home := nbits e 79 68 * 8 + nbits e 67 65
  nbits e 64 15 == 0 && place != 3 && nbits e 9 8 != 3 && nbits e 7 6 != 3 && base % size == 0 && s.dieExists home &&
  (place != 2 || home % 8 == 0 || home % 8 == 7) &&
  (place != 1 || base + size ≤ 2 ^ 43) &&
  (place != 0 || (base + size ≤ 2 ^ 37 && (nbit e 12 || base + size ≤ floorLo || floorHi < base))) &&
  (!nbit e 11 || enclOk (s.pkg (pkgOf die)) (home % 8) place (nbit e 12) base size)

def leafOf (e level va : Nat) : Leaf :=
  { die := nbits e 79 68 * 8 + nbits e 67 65, place := nbits e 14 13, win := nbit e 12, encl := nbit e 11,
    tempo := nbit e 10, policy := nbits e 9 8, cache := nbits e 7 6, sup := nbit e 5, x := nbit e 4, w := nbit e 3,
    r := nbit e 2, pa := nbits e 127 80 * 2 ^ 16 + va % 2 ^ levelShift level, level := level }

/-- A package has no second host link: it is not fitted (R476), or fenced. -/
def State.link1Out (s : State) (pkg : Nat) : Bool := !(s.pkg pkg).link1Fitted || (s.pkg pkg).link1Fenced
/-- The leaf's byte lies on a stack, or behind a port or the second host link, that is fenced (R479, R213). -/
def State.leafFenced (s : State) (l : Leaf) : Bool :=
  let d := s.die l.die
  if l.place = 0 then d.stackFenced.contains (blStack (cellAddr l.cell)) else (d.tierFenced && l.place == 1) || (s.link1Out (pkgOf l.die) && l.place == 2 && l.die % 8 == 7)

/-! ## Channels in promotion mode (R316, R317) -/

def State.channelOf (s : State) (cell : Nat) : Channel :=
  tabGet (s.die (cellDie cell)).channels Channel.reset (blChannel (cellAddr cell))
def State.setChannel (s : State) (die ch : Nat) (c : Channel) : State :=
  let d := s.die die
  s.setDie die { d with channels := tabPut d.channels ch c }
def State.promoted (s : State) (cell : Nat) : Bool := cellPlace cell == 0 && (s.channelOf cell).promotion
/-- A cell of the step window of a channel in promotion mode. -/
def State.inStep (s : State) (cell : Nat) : Bool :=
  s.promoted cell && blBank (cellAddr cell) == 0 && blRow (cellAddr cell) == 65533
/-- A confirmed entry into promotion mode is under way: new accesses are held, to the step window too (R314, step 1). -/
def State.entering (s : State) (cell : Nat) : Bool :=
  cellPlace cell == 0 && !(s.channelOf cell).promotion && match (s.channelOf cell).requests with
    | (true, _) :: _ => true
    | _ => false
/-- The channel is in power-down or self-refresh: an access waits until it is awake (R480). -/
def State.asleep (s : State) (cell : Nat) : Bool := cellPlace cell == 0 && (s.channelOf cell).power != .awake
/-- An access to the cell is held until the mode is left, or the channel wakes. -/
def State.heldCell (s : State) (cell : Nat) : Bool :=
  (s.promoted cell && !s.inStep cell) || s.entering cell || s.asleep cell

/-- The status word of a bank unit (R323): 0 until the unit is killed, and then the cause and the failing word. -/
def BankUnit.status (u : BankUnit) : Nat := if u.killed then 2 ^ 31 + u.cause * 2 ^ 9 + u.pc % 2 ^ 9 else 0
/-- A byte of the step window as a read returns it (R317). -/
def State.stepByte (s : State) (cell : Nat) : Byte :=
  let off := cellAddr cell % 2 ^ 11
  if off < 64 then BitVec.ofNat 8 ((tabGet (s.channelOf cell).units BankUnit.reset (off / 4)).status / 256 ^ (off % 4))
  else 0
/-- n bytes at a cell, as an agent of the device reads them. -/
def State.readBytes (s : State) (v : Viewer) (win : Bool) (cell n : Nat) : List Byte :=
  if s.inStep cell then (List.range n).map fun i => s.stepByte (cell + i) else s.viewBytes v win cell n
def State.readNat (s : State) (v : Viewer) (win : Bool) (cell n : Nat) : Nat := leNat (s.readBytes v win cell n)
/-! ## The walk (R361, R363) -/

/-- The table entry of one level: a cached copy where the die holds one, else the table's own; none while that is held (R316). -/
def State.entryAt (s : State) (die base level va : Nat) : Option Nat :=
  match (s.die die).tlb.find? fun t => t.level == level && t.va == va / 2 ^ levelShift level with
  | some t => some t.entry
  | none =>
    let cell := tierCell die false (base + va / 2 ^ levelShift level % 4096 * 16)
    if s.heldCell cell then none else some (s.readNat .die false cell 16)

/-- The levels from `level` on, n of them left. -/
def State.walkFrom (s : State) (die va : Nat) : Nat → Nat → Nat → Except Fail Leaf
  | 0, _, _ => .error (failAccess 2)
  | n + 1, level, base =>
    match s.entryAt die base level va with
    | none => .error failWait
    | some e =>
      if !nbit e 0 then .error { code := tcPageFault, info := level }
      else if nbit e 1 then
        (if s.leafOk die e level && !s.leafFenced (leafOf e level va) then .ok (leafOf e level va)
          else .error (failAccess 2))
      else if level = 3 || !ptrOk e then .error (failAccess 2)
      else s.walkFrom die va n (level + 1) (nbits e 127 80 * 2 ^ 16)

/-- The walk of a virtual address through a die's tables (R357, R359, R361). -/
def State.walk (s : State) (die va : Nat) : Except Fail Leaf :=
  let root := (s.die die).ptroot.toNat
  if !nbit root 0 then .error { code := tcPageFault, info := 1 }
  else s.walkFrom die va 3 1 (nbits root 63 16 * 2 ^ 16)

/-- The entries that a walk reads and that a TLB may keep: those with V = 1 up to the leaf (R363). -/
def State.walkEntries (s : State) (die va : Nat) : Nat → Nat → Nat → List TlbEntry
  | 0, _, _ => []
  | n + 1, level, base =>
    match s.entryAt die base level va with
    | none => []
    | some e =>
      let t : TlbEntry := { va := va / 2 ^ levelShift level, level := level, entry := e }
      if !nbit e 0 then []
      else if nbit e 1 then (if s.leafOk die e level then [t] else [])
      else if level = 3 || !ptrOk e then []
      else t :: s.walkEntries die va n (level + 1) (nbits e 127 80 * 2 ^ 16)

/-! ## What an access needs (R361) -/

/-- The rights an access needs, and those of the task that makes it. -/
structure Need where
  r : Bool
  w : Bool
  x : Bool
  priv : Bool
  encl : Bool
  deriving DecidableEq, Repr

/-- The checks of a leaf in their order (R361). -/
def Leaf.check (l : Leaf) (nd : Need) : Except Fail Leaf :=
  if (nd.r && !l.r) || (nd.w && !l.w) || (nd.x && !l.x) then .error (failAccess 1)
  else if l.sup && !nd.priv then .error (failAccess 4)
  else if l.encl && !nd.encl then .error (failAccess 5)
  else .ok l
/-- None of n bytes from a leaf's byte lies in the rows that the bank-linear window refuses (R302, R381). -/
def Leaf.rowsOk (l : Leaf) (n : Nat) : Bool :=
  !(l.place == 0 && l.win) ||
    (List.range ((l.pa % 2 ^ 11 + Nat.max n 1 - 1) / 2 ^ 11 + 1)).all fun i => !reservedRow (l.pa + i * 2 ^ 11)
/-- What the checks find, for n bytes from the address on. -/
def checkLeaf (nd : Need) (n : Nat) : Except Fail Leaf → Except Fail Leaf
  | .ok l => if l.rowsOk n then l.check nd else .error (failAccess 1)
  | .error f => .error f

/-- A 64-bit address walked on a die (R25, R361). -/
def State.lookup (s : State) (die va : Nat) : Except Fail Leaf :=
  if 2 ^ 52 ≤ va then .error (failAccess 3) else s.walk die va
/-- Translate a 64-bit address on a die, for n bytes within its page of 64 KiB (R25, R361). -/
def State.translateN (s : State) (die va n : Nat) (nd : Need) : Except Fail Leaf := checkLeaf nd n (s.lookup die va)
def State.translate (s : State) (die va : Nat) (nd : Need) : Except Fail Leaf := s.translateN die va 1 nd

/-- The leaf that a core's own TLBs hold for an address (R363). -/
def State.coreLeaf (s : State) (core va : Nat) : Option Leaf :=
  (((s.core core).tlb.find? fun t => t.va == va / 2 ^ levelShift t.level).map fun t => leafOf t.entry t.level va)
/-- A leaf that a core has cached does not keep the enclave's rule now, of the page that the leaf names (R456). -/
def State.leafLost (s : State) (die : Nat) (l : Leaf) : Bool :=
  let size := 2 ^ levelShift l.level
  l.encl && !enclOk (s.pkg (pkgOf die)) (l.die % 8) l.place l.win (l.pa / size * size) size
/-- An address as a core finds it: in its own TLBs, else on its die. -/
def State.coreLookup (s : State) (core va : Nat) : Except Fail Leaf :=
  if 2 ^ 52 ≤ va then .error (failAccess 3)
  else
    match s.coreLeaf core va with
    | some l => if s.leafFenced l || s.leafLost (dieOf core) l then .error (failAccess 2) else .ok l
    | none => s.lookup (dieOf core) va
/-- Translate on a core: its lanes, its engines, its instruction fetch. -/
def State.coreTranslate (s : State) (core va n : Nat) (nd : Need) : Except Fail Leaf :=
  checkLeaf nd n (s.coreLookup core va)
/-- How many translations of 64 KiB pages, and of larger ones, a core holds, and how many entries its die (R363). -/
def coreTlbSmall : Nat := 256
def coreTlbLarge : Nat := 64
def dieTlbEntries : Nat := 16384

/-- The runs of n bytes from a leaf's address that end at multiples of `unit`. -/
def Leaf.cutRun (unit : Nat) : Nat → Nat → Leaf → List (Leaf × Nat)
  | 0, _, _ => []
  | fuel + 1, n, l =>
    let k := Nat.min n (unit - l.pa % unit)
    if n = 0 then [] else (l, k) :: cutRun unit fuel (n - k) { l with pa := l.pa + k }
/-- The runs whose cells are contiguous and lie in one row: lines of the interleaved window, rows of the bank-linear one
(R210, R211). -/
def Leaf.cut (l : Leaf) (n : Nat) : List (Leaf × Nat) :=
  if l.place == 0 then
    let unit := if l.win then 2 ^ 11 else 2 ^ 9
    Leaf.cutRun unit (n / unit + 2) n l
  else [(l, n)]

/-- Translate n bytes, page by page of 64 KiB at most: the leaf of each byte's run. -/
def State.translateRange (s : State) (die : Nat) (nd : Need) : Nat → Nat → Nat → Except Fail (List (Leaf × Nat))
  | 0, _, _ => .ok []
  | fuel + 1, va, n =>
    if n = 0 then .ok []
    else
      let k := Nat.min n (2 ^ 16 - va % 2 ^ 16)
      match s.translateN die va k nd with
      | .error f => .error f
      | .ok l =>
        match s.translateRange die nd fuel (va + k) (n - k) with
        | .error f => .error f
        | .ok ls => .ok (l.cut k ++ ls)

/-- The number of 64 KiB pages that n bytes can touch. -/
def pagesFor (n : Nat) : Nat := n / 2 ^ 16 + 2

end Sys2Proof.Machine
end

