-- ==== Sys2Proof/Machine/Uses.lean ====
section
/-! DEFINITION. What each word uses: the registers and predicates it reads and writes, its pipe, whether it is
long-latency, the registers no earlier word of its run may write, and what a guest or an unprivileged task may not do. -/

namespace Sys2Proof.Machine

/-! ## Header fields -/

/-- The guard of a word (R28); 7 where it has none, and for NOP, which ignores its field (R29, R117). -/
def guardOf : Instr → PredNo
  | .nop _ => 7
  | i => match i.raw with
    | some r => r.g
    | none => 7
/-- The major of a word. -/
def majorOf (i : Instr) : Nat := match i.raw with
  | some r => r.op.toNat
  | none => 0

/-! ## Pipes (R40) -/

inductive Pipe where
  | none | ctl | alu | alu0 | sfu | xlane | mem | eng
  deriving DecidableEq, Repr

def pipeOf (i : Instr) : Pipe :=
  let op := majorOf i
  if op ≤ 1 || op == 0x0B then .none
  else if op ≤ 0x0A || op == 0x2A || op == 0x4F || op == 0x50 || op == 0x53 || (0x7C ≤ op && op ≤ 0x7E) then .ctl
  else if op == 0x13 || op == 0x14 || op == 0x34 || op == 0x35 || op == 0x3E || op == 0x3F then .sfu
  else if op == 0x2B || op == 0x51 || op == 0x52 || (0x54 ≤ op && op ≤ 0x61) || (0x70 ≤ op && op ≤ 0x7B) then .mem
  else if op ≤ 0x29 then .alu
  else if op ≤ 0x3D then .alu0
  else if op ≤ 0x4E then .xlane
  else .eng

/-! ## Registers -/

/-- Register fields a word reads and writes, one entry for each 32-bit register; predicates likewise. `long`: the
writes are long-latency (R46). `locks`: fields that no earlier word of the run may write, and `lockGuard` the same of the
guard (R249, R281, R301, R421). -/
structure Uses where
  reads : List Nat
  writes : List Nat
  predR : List Nat
  predW : List Nat
  long : Bool
  locks : List Nat
  lockGuard : Bool
  deriving DecidableEq, Repr

def r1 (r : Reg) : List Nat := [r.toNat]
def r2 (r : Reg) : List Nat := [r.toNat, r.toNat + 1]
def r4 (r : Reg) : List Nat := [r.toNat, r.toNat + 1, r.toNat + 2, r.toNat + 3]
def rW (is64 : Bool) (r : Reg) : List Nat := if is64 then r2 r else r1 r
def rB (is64 : Bool) : Src → List Nat
  | .reg r => rW is64 r
  | .imm _ => []
def sizeRegs : Size → Reg → List Nat
  | .b64, r => r2 r
  | _, r => r1 r
def ssizeRegs : SSize → Reg → List Nat
  | .b64, r => r2 r
  | .b128, r => r4 r
  | _, r => r1 r
def csizeRegs : CSize → Reg → List Nat
  | .four, r => r1 r
  | .eight, r => r2 r
  | .sixteen, r => r4 r
def pW (p : PredNo) : List Nat := if p = 7 then [] else [p.toNat]
/-- The registers an atomic's operand takes (R252). -/
def atomRegs (op : AtomOp) (ty : AtomTy) (d : Reg) : List Nat :=
  if op == .cas then (if ty.is64 then r4 d else r2 d) else rW ty.is64 d
def raddRegs : RaddTy → Reg → List Nat
  | .i64, d => r2 d
  | _, d => r1 d
def rminRegs : RminTy → Reg → List Nat
  | .i64, d | .n64, d => r2 d
  | _, d => r1 d
def scaleRegs : Option DotScale → List Nat
  | some sc => r1 sc.reg
  | none => []

def usesNone : Uses :=
  { reads := [], writes := [], predR := [], predW := [], long := false, locks := [], lockGuard := false }
def uses (r w : List Nat) : Uses := { usesNone with reads := r, writes := w }
def usesP (r w pr pw : List Nat) : Uses := { usesNone with reads := r, writes := w, predR := pr, predW := pw }
def usesLong (r w : List Nat) : Uses := { usesNone with reads := r, writes := w, long := true }
/-- Reads r, of which the registers a are locked. -/
def usesLock (r w a : List Nat) : Uses := { usesNone with reads := r, writes := w, locks := a, lockGuard := true }
def usesLockLong (r w a : List Nat) : Uses :=
  { usesNone with reads := r, writes := w, long := true, locks := a, lockGuard := true }

def int3 (ty : IntTy) (d a : Reg) (b : Src) : Uses := uses (rW ty.is64 a ++ rB ty.is64 b) (rW ty.is64 d)
def intShift (ty : IntTy) (d a : Reg) (b : Src) : Uses := uses (rW ty.is64 a ++ rB false b) (rW ty.is64 d)
def int2 (ty : IntTy) (d a : Reg) : Uses := uses (rW ty.is64 a) (rW ty.is64 d)
def flt3 (ft : FloatTy) (d a : Reg) (b : Src) : Uses := uses (rW ft.is64 a ++ rB ft.is64 b) (rW ft.is64 d)
def flt2 (ft : FloatTy) (d a : Reg) : Uses := uses (rW ft.is64 a) (rW ft.is64 d)

/-- What the word itself uses, its guard apart. MOVH writes its pair: for holds, RUNDEP and common destinations the half that it
leaves unchanged counts as written (DESIGN CHOICE, assumption log 65). -/
def wordUses : Instr → Uses
  | .brx _ a => uses (r1 a) []
  | .call d _ => uses [] (r1 d)
  | .ret _ a => uses (r1 a) []
  | .add _ ty _ d a b | .sub _ ty _ d a b => int3 ty d a b
  | .addc _ ty ps d a b | .subb _ ty ps d a b => { int3 ty d a b with predR := pW ps, predW := pW ps }
  | .mul _ ty d a b | .mulh _ ty d a b | .div _ ty d a b | .rem _ ty d a b | .min _ ty d a b | .max _ ty d a b
  | .and _ ty d a b | .or _ ty d a b | .xor _ ty d a b | .andn _ ty d a b | .orn _ ty d a b => int3 ty d a b
  | .mad _ ty d a b => uses (rW ty.is64 a ++ rB ty.is64 b ++ rW ty.is64 d) (rW ty.is64 d)
  | .shl _ ty d a b | .shr _ ty d a b | .sar _ ty d a b | .rot _ ty d a b | .bfx _ ty d a b => intShift ty d a b
  | .bfi _ ty d a b => uses (rW ty.is64 a ++ rB false b ++ rW ty.is64 d) (rW ty.is64 d)
  | .mov _ ty d a | .neg _ ty _ d a | .abs _ ty _ d a | .brev _ ty d a => int2 ty d a
  | .popc _ ty d a | .clz _ ty d a | .ctz _ ty d a => uses (rW ty.is64 a) (r1 d)
  | .perm _ _ d a b => uses (r1 a ++ rB false b) (r1 d)
  | .sel _ ty ps d a b => { int3 ty d a b with predR := pW ps }
  | .movi _ ty d _ => uses [] (rW ty.is64 d)
  | .movh _ d _ => uses [] (r2 d)
  | .lea _ _ _ d a b => uses (r2 a ++ rB false b) (r2 d)
  | .cmp _ _ ty pd a b => usesP (rW ty.is64 a ++ rB ty.is64 b) [] [] (pW pd)
  | .plog _ _ pd pa pb => usesP [] [] (pW pa ++ pW pb) (pW pd)
  | .movs _ d r => uses [] (rW r.is64 d)
  | .setxb _ a => uses (r1 a) []
  | .pmovToReg _ d => usesP [] (r1 d) [0, 1, 2, 3, 4, 5, 6] []
  | .pmovToPreds _ mask a => usesP (r1 a) [] [] ((List.range 7).filter mask.getLsbD)
  | .bsload _ a => uses (r2 a) []
  | .bsread _ _ d _ => usesLong [] (r1 d)
  | .ld _ sz _ d a _ => usesLong (r2 a) (sizeRegs sz d)
  | .st _ sz d a _ => uses (r2 a ++ sizeRegs sz d) []
  | .fadd _ ft _ d a b | .fsub _ ft _ d a b | .fmul _ ft _ d a b | .fdiv _ ft _ d a b => flt3 ft d a b
  | .fmin _ ft d a b | .fmax _ ft d a b => flt3 ft d a b
  | .fma _ ft _ d a b => uses (rW ft.is64 a ++ rB ft.is64 b ++ rW ft.is64 d) (rW ft.is64 d)
  | .fma2 _ _ _ d a b => uses (r1 a ++ r1 b ++ r2 d) (r2 d)
  | .fcmp _ _ ft pd a b => usesP (rW ft.is64 a ++ rB ft.is64 b) [] [] (pW pd)
  | .fsqrt _ ft _ d a | .frcp _ ft _ d a => flt2 ft d a
  | .frsq _ ft d a | .fexp2 _ ft d a | .flog2 _ ft d a | .fsin _ ft d a | .fcos _ ft d a | .ftanh _ ft d a =>
    flt2 ft d a
  | .fclass _ ft d a => uses (rW ft.is64 a) (r1 d)
  | .cvt _ dst src _ _ _ d a | .cvtsr _ dst src d a => uses (rW src.is64 a) (rW dst.is64 d)
  | .pack _ nf _ _ _ _ d a b => uses (r1 a ++ rB false b ++ rW nf.fp6 d) (rW nf.fp6 d)
  | .unpack _ nf _ _ d a => uses (rW nf.fp6 a) (r1 d)
  | .dot4 _ _ _ _ sc d a b | .dot8 _ _ _ _ sc d a b => uses (r1 a ++ r1 b ++ r1 d ++ scaleRegs sc) (r1 d)
  | .dot6 _ _ _ _ sc d a b => uses (r2 a ++ r2 b ++ r1 d ++ scaleRegs sc) (r1 d)
  | .scale _ ft _ _ sr _ _ d a => uses (rW ft.is64 a ++ r1 sr) (rW ft.is64 d)
  | .rndseed _ a => uses (r2 a) []
  | .rnd _ k d => uses [] (rW (k == .n64) d)
  | .shfl _ _ _ x d a b | .push _ x d a b => uses (rW x a ++ rB false b) (rW x d)
  | .bfly _ x _ d a => uses (rW x a) (rW x d)
  | .vote _ m d pa =>
    if m == .ballot then usesP [] (r1 d) (pW pa) [] else usesP [] [] (pW pa) (pW (d.setWidth 3))
  | .matchLanes _ x d a => uses (rW x a) (r1 d)
  | .redx _ _ ty _ d a | .scanx _ _ ty _ _ d a => uses (rW ty.is64 a) (rW ty.is64 d)
  | .launch _ d a b => usesLong (r2 a ++ rB false b) (r1 d)
  | .arm _ a => uses (r2 a) []
  | .rxwin _ _ d _ => uses [] (r2 d)
  | .ldOrdered _ sz _ _ _ d a _ => usesLong (r2 a) (sizeRegs sz d)
  | .stOrdered _ sz _ _ d a _ => uses (r2 a ++ sizeRegs sz d) []
  | .lds _ sz _ d a _ | .ldp _ sz _ d a _ => usesLong (r2 a) (ssizeRegs sz d)
  | .sts _ sz d a _ | .stp _ sz d a _ => uses (r2 a ++ ssizeRegs sz d) []
  | .ldfe _ sz _ _ d a _ => usesLockLong (r2 a) (ssizeRegs sz d) (r2 a)
  | .stfe _ d a _ => uses (r2 a ++ r4 d) []
  | .atom _ op ty _ _ nr d a _ =>
    if nr then uses (r2 a ++ atomRegs op ty d) [] else usesLong (r2 a ++ atomRegs op ty d) (rW ty.is64 d)
  | .red _ op ty _ _ d a _ => uses (r2 a ++ atomRegs op ty d) []
  | .cflush _ _ a _ | .cinv _ _ a _ | .pref _ _ a _ => uses (r2 a) []
  | .talloc _ _ _ _ d => { uses [] (r1 d) with lockGuard := true }
  | .tfree _ _ _ | .tzero _ _ | .seal _ _ | .bwait _ _ => { usesNone with lockGuard := true }
  | .tloadb _ _ _ _ _ a _ => usesLock (r2 a) [] (r2 a)
  | .tmma _ tri af _ _ ro so c =>
    usesLock (r1 ro ++ (if tri || !(af == .i4 || af == .i8 || af == .bf16) then r1 so else []) ++
      (if tri then r1 c else [])) [] (r1 ro ++ r1 so)
  | .tcfg _ _ re _ a => { uses (if re then r2 a else []) [] with lockGuard := true }
  | .tread _ _ _ a => usesLock (r1 a) [] (r1 a)
  | .tstore _ _ _ _ _ a _ => usesLock (r2 a) [] (r2 a)
  | .cpy _ _ _ d a _ => usesLock (r2 d ++ r2 a) [] (r2 d ++ r2 a)
  | .cpyt _ _ ind _ _ _ od of_ os =>
    let r := r1 od ++ r1 of_ ++ (if ind then r1 os else [])
    usesLock r [] r
  | .lrec _ _ a _ => usesLock (r2 a) [] (r2 a)
  | .bookld _ _ a _ | .bookldUnpin _ a _ => usesLock (r2 a) [] (r2 a)
  | .bookq _ _ a b => usesLock (r2 a ++ r1 b) [] (r2 a ++ r1 b)
  | .ired _ _ _ _ bag d a _ => usesLock (r1 d ++ r2 a ++ r1 bag) [] (r1 d ++ r2 a ++ r1 bag)
  | .bcw _ sz d a _ => usesLock (r2 a ++ csizeRegs sz d) [] (r2 a)
  | .radd _ ty _ d a _ => usesLock (raddRegs ty d ++ r2 a) [] (raddRegs ty d ++ r2 a)
  | .rmin _ ty _ d a _ | .rmax _ ty _ d a _ => usesLock (rminRegs ty d ++ r2 a) [] (rminRegs ty d ++ r2 a)
  | .ror _ b64 _ d a _ => usesLock (rW b64 d ++ r2 a) [] (rW b64 d ++ r2 a)
  | .rwo _ _ _ d a _ | .rarv _ _ d a _ | .await _ d a _ => usesLock (r2 d ++ r2 a) [] (r2 d ++ r2 a)
  | .rget _ _ rx _ d a _ => usesLock (r2 d ++ r2 a ++ r2 rx) [] (r2 d ++ r2 a ++ r2 rx)
  | .rfence _ d => uses [] (r1 d)
  | .accrd _ _ d a _ => usesLockLong (r2 a) (r1 d) (r2 a)
  | .accclr _ _ a _ => usesLock (r2 a) [] (r2 a)
  | .mig _ d => usesLock (r1 d) [] (r1 d)
  | .coll _ _ _ rx _ d a _ => usesLock (r2 d ++ r2 a ++ r1 rx) [] (r2 d ++ r2 a ++ r1 rx)
  | .eret _ a => uses (r2 a) []
  | .halt _ d a => usesLong (r2 a) (r1 d)
  | .movswLstat _ s | .movswChkey _ s | .movswChmode _ s | .movswChconf _ s => uses (r1 s) []
  | .movsw _ _ s => uses (r2 s) []
  | .tlbinvPage _ a => uses (r2 a) []
  | _ => usesNone

/-- What a word uses, its guard included. -/
def usesOf (i : Instr) : Uses :=
  let u := wordUses i
  { u with predR := pW (guardOf i) ++ u.predR }

/-- The queue entries a list of fields pops from queue number q (R16). -/
def popsOf (u : Uses) (q : Nat) : Nat := u.reads.count (112 + q)

/-! ## Control (R44), blocking words (R47), packets (R380) -/

/-- A control transfer, or HOME (R44, R433). -/
def isTransfer : Instr → Bool
  | .bra _ _ | .brx _ _ | .call _ _ | .ret _ _ | .join | .regang | .exit _ | .yield | .home => true
  | _ => false
def isTrail : Instr → Bool
  | .trail _ _ _ => true
  | _ => false
/-- A word that sends packets (R421); ERET sends a resume (R355). -/
def sendsPackets : Instr → Bool
  | .radd .. | .rmin .. | .rmax .. | .ror .. | .rwo .. | .rarv .. | .rget .. | .accclr .. | .coll .. | .arm .. | .eret .. => true
  | _ => false
/-- A store or an atomic (R429). -/
def isStore : Instr → Bool
  | .st .. | .stOrdered .. | .sts .. | .stp .. | .stfe .. | .atom .. | .red .. | .launch .. | .bcw .. => true
  | _ => false

/-! ## Rights -/

/-- A word a guest may not execute, whatever its operands (R412, R161, R247, R281, R301). -/
def guestStops (i : Instr) : Bool :=
  match i with
  | .setxb .. | .bsload .. | .bsread .. | .rndseed .. | .rnd .. | .cvtsr .. | .regang => true
  | .pack _ _ sr _ _ _ _ _ _ => sr
  | .lds .. | .sts .. | .ldp .. | .stp .. | .ldfe .. | .stfe .. | .coll .. => true
  | .eret .. | .halt .. | .tlbinvPage .. | .tlbinvAll .. => true
  | .movswChkey .. | .movswChmode .. | .movswChconf .. | .movsw .. => true
  | _ =>
    let op := majorOf i
    (0x48 ≤ op && op ≤ 0x53) || (0x64 ≤ op && op ≤ 0x73)
/-- A float atomic, which a guest of a deterministic task may not execute (R412). -/
def floatAtomic : Instr → Bool
  | .atom _ _ ty _ _ _ _ _ _ | .red _ _ ty _ _ _ _ _ => !ty.integer
  | _ => false
/-- A privileged word (R353, R312). -/
def needsPriv : Instr → Bool
  | .eret .. | .halt .. | .tlbinvPage .. | .tlbinvAll .. => true
  | .movswChkey .. | .movswChmode .. | .movswChconf .. | .movsw .. => true
  | .movs _ _ r => r == .chstat || r == .ptroot || r == .defsuper || r == .deffault
  | _ => false

end Sys2Proof.Machine
end

