-- ==== Sys2Proof/Machine/Ops.lean ====
section
/-! DEFINITION. The named operations over gangs, lanes and registers; the word that issues and its context; taking a trap
(R345 to R351), and the return from one (R355). -/

namespace Sys2Proof.Machine

/-! ## Things by number -/

def Tcb.blank : Tcb :=
  { flags := 0, codebase := 0, entry := 0, grid := 0, blkdim := 0, ganglanes := 0, regs := 0, maxregs := 0,
    scratch := 0, priv := 0, grouptab := 0, groupn := 0, coremask := 0, diemask := 0, seed := 0, savearea := 0,
    spillbase := 0, spillsize := 0, tempo := [], migmask := 0, super := 0, faultrec := 0, overflow := 0, nsucc := 0,
    succ := [] }
def Task.blank : Task :=
  { addr := 0, home := 0, cell := 0, tcb := Tcb.blank, status := .retired, privileged := false, groups := [],
    placed := 0, retired := 0, gens := [], edges := [], tempo := none, tempoWait := [], enclGen := 0, reissue := [] }
def Block.blank : Block :=
  { task := 0, idx := 0, core := 0, status := .retired, gangs := [], scratch := [], full := [], priv := [],
    scratchPos := 0, privPos := 0, stamp := 0, pendingFor := none, saveFailed := false, savedAccs := [], savedBs := [] }
def Gang.blank : Gang :=
  { task := 0, block := 0, num := 0, core := 0, place := 0, status := .ended, lanes := Lanes.empty, q0 := [], q1 := [],
    q2 := [], xb := 0, allot := 0, units := [], window := none, frags := [], cohorts := [], nextCohort := 0, away := [],
    groups := [], arrivals := [], marks := [], seals := [], finished := [], batches := [], records := [], holds := [], seqs := [],
    started := false, guests := [] }

def State.task (s : State) (n : Nat) : Task := tabGet s.tasks Task.blank n
def State.setTask (s : State) (n : Nat) (t : Task) : State := { s with tasks := tabPut s.tasks n t }
def State.block (s : State) (n : Nat) : Block := tabGet s.blocks Block.blank n
def State.setBlock (s : State) (n : Nat) (b : Block) : State := { s with blocks := tabPut s.blocks n b }
def State.gang (s : State) (n : Nat) : Gang := tabGet s.gangs Gang.blank n
def State.setGang (s : State) (n : Nat) (g : Gang) : State := { s with gangs := tabPut s.gangs n g }
def State.modGang (s : State) (n : Nat) (f : Gang → Gang) : State := s.setGang n (f (s.gang n))
/-- A fresh number, for a run, an operation, a fault record, a ply. -/
def State.bump (s : State) : State := { s with nextId := s.nextId + 1 }

/-- FLAGS (R150). -/
def Tcb.det (t : Tcb) : Bool := nbit t.flags 0
def Tcb.encl (t : Tcb) : Bool := nbit t.flags 1
def Tcb.mig (t : Tcb) : Bool := nbit t.flags 2
def Tcb.tempoFlag (t : Tcb) : Bool := nbit t.flags 3
def Tcb.prio (t : Tcb) : Nat := nbits t.flags 5 4
def Tcb.rook (t : Tcb) : Bool := nbit t.flags 6
/-- A tempo range that is in use (R149). -/
def Tcb.tempoRanges (t : Tcb) : List (Nat × Nat) := t.tempo.filter fun r => r.1 ≤ r.2
/-- A deterministic task that has a tempo (R197). -/
def Tcb.hasTempo (t : Tcb) : Bool := t.det && (t.tempoFlag || !t.tempoRanges.isEmpty)

/-! ## Registers of a lane (R13 to R16) -/

def regKey (lane n : Nat) : Nat := lane * 512 + n

/-- Register field f of lane l under register index xb; a queue field reads 0 here. -/
def Lanes.reg (L : Lanes) (xb l f : Nat) : Word :=
  if f < 112 then tabGet L.regs 0 (regKey l (xb + f))
  else if 120 ≤ f then tabGet L.w 0 (l * 8 + (f - 120))
  else 0

def Lanes.setReg (L : Lanes) (xb l f : Nat) (v : Word) : Lanes :=
  if f < 112 then { L with regs := tabPut L.regs (regKey l (xb + f)) v }
  else if 120 ≤ f then { L with w := tabPut L.w (l * 8 + (f - 120)) v }
  else L

/-- Predicate n of lane l; p7 reads true (R18). -/
def Lanes.pred (L : Lanes) (l n : Nat) : Bool := if n = 7 then true else (tabGet L.preds 0 l).getLsbD n
/-- Write predicate n; a write to p7 is discarded (R18). -/
def Lanes.setPred (L : Lanes) (l n : Nat) (v : Bool) : Lanes :=
  if n = 7 then L
  else
    let p := tabGet L.preds 0 l
    let bit : BitVec 7 := BitVec.ofNat 7 (2 ^ n)
    { L with preds := tabPut L.preds l (if v then p ||| bit else p &&& ~~~bit) }

def Lanes.orFlags (L : Lanes) (l : Nat) (f : FlagSet) : Lanes :=
  if f = 0 then L else { L with lstat := tabPut L.lstat l (tabGet L.lstat 0 l ||| f) }

def Lanes.gen (L : Lanes) (l : Nat) : DWord × DWord := (tabGet L.g0 0 l, tabGet L.g1 0 l)
def Lanes.setGen (L : Lanes) (l : Nat) (g : DWord × DWord) : Lanes :=
  { L with g0 := tabPut L.g0 l g.1, g1 := tabPut L.g1 l g.2 }

/-- Queue number q of a gang (R16). -/
def Gang.queue (g : Gang) : Nat → Tab (List Word)
  | 0 => g.q0
  | 1 => g.q1
  | 2 => g.q2
  | _ => []
def Gang.setQueue (g : Gang) (q : Nat) (t : Tab (List Word)) : Gang :=
  match q with
  | 0 => { g with q0 := t }
  | 1 => { g with q1 := t }
  | 2 => { g with q2 := t }
  | _ => g
def Gang.queueLen (g : Gang) (q l : Nat) : Nat := (tabGet (g.queue q) [] l).length
def queueDepth (q : Nat) : Nat := if q = 0 then 8 else if q = 1 then 4 else if q = 2 then 16 else 0

/-- Append one entry to queue q of lane l. -/
def Gang.enqueue (g : Gang) (q l : Nat) (v : Word) : Gang :=
  g.setQueue q (tabPut (g.queue q) l (tabGet (g.queue q) [] l ++ [v]))

/-- The oldest n entries of queue q leave in each lane of m (R16). -/
def Gang.popLanes (g : Gang) (q n : Nat) (m : LaneSet) : Gang :=
  if n = 0 then g
  else g.setQueue q ((lanesIn m).foldl (fun t l => tabPut t l ((tabGet t [] l).drop n)) (g.queue q))

/-- The pops of one word (R16, R17). -/
def Gang.pops (g : Gang) (u : Uses) (m : LaneSet) : Gang :=
  ((g.popLanes 0 (popsOf u 0) m).popLanes 1 (popsOf u 1) m).popLanes 2 (popsOf u 2) m

/-! ## The word that issues -/

/-- The run that issues a word, and its gang as the word finds it. -/
structure Ctx where
  slot : Nat
  run : Run
  gid : Nat
  gang : Gang
  deriving DecidableEq, Repr

/-- The run that the step has given the word to, if any. -/
def State.issuer (s : State) : Option Ctx :=
  match s.focus with
  | none => none
  | some k =>
    match tabFind s.runs k with
    | none => none
    | some r =>
      match tabFind s.gangs r.gang with
      | none => none
      | some g => some { slot := k, run := r, gid := r.gang, gang := g }

def Ctx.core (c : Ctx) : Nat := c.gang.core
def Ctx.die (c : Ctx) : Nat := dieOf c.gang.core
def Ctx.isGuest (c : Ctx) : Bool := !c.gang.guests.isEmpty

/-- The guest that holds slice place p, if the gang is a guest gang (R411). -/
def Gang.guestAt (g : Gang) (l : Nat) : Option Guest := g.guests[l / 4]?
/-- The gang of origin of a lane, and the lane's position in it (R20, R350). -/
def Gang.ident (g : Gang) (gid l : Nat) : Nat × Nat :=
  match g.guestAt l with
  | some q => (q.origin, q.slice * 4 + l % 4)
  | none => (gid, l)
def Ctx.ident (c : Ctx) (l : Nat) : Nat × Nat := c.gang.ident c.gid l

/-- The lanes that perform a word (R29): active in the run, and the guard holds. -/
def Ctx.perf (c : Ctx) (guard : PredNo) : LaneSet :=
  if guard = 7 then c.run.act
  else c.run.act &&& lanesWhere fun l => c.run.group.pred l guard.toNat

/-- A code pointer (R38): the word in place `pos` of the run at packet base. -/
def codePtr (base pos : Nat) : Nat := (base + pos / 3) * 4 + pos % 3
/-- The place of the word that issues: the step has moved past it. -/
def Ctx.at (c : Ctx) : Nat := c.run.pos - 1

/-- The place at which the word in place p begins, its prefixes included (R37). -/
def wordStart (ws : List Word) (p : Nat) : Nat :=
  let isExt (q : Nat) : Bool := match ws[q]? with
    | some w => fld 24 7 w == (0x0B : BitVec 7)
    | none => false
  if p % 3 = 0 then p
  else if isExt (p - 1) then (if p % 3 = 2 && isExt (p - 2) then p - 2 else p - 1)
  else p

/-! ## Reading operands (R41) -/

/-- Register field f of lane l as the issue group found it; the k-th pop of a queue field. -/
def Ctx.rd (c : Ctx) (l f : Nat) (k : Nat) : Nat :=
  if 112 ≤ f && f < 120 then ((tabGet (c.gang.queue (f - 112)) [] l).getD k 0).toNat
  else (c.run.group.reg c.run.xb l f).toNat
/-- Field f of lane l in a word that has read the fields `before` first: A, then B, then D (assumption log 6). -/
def Ctx.rdAfter (c : Ctx) (l f : Nat) (before : List Nat) : Nat := c.rd l f (before.count f)
/-- The pair at an even field (R14). -/
def Ctx.rdPair (c : Ctx) (l f : Nat) : Nat := c.rd l f 0 + 2 ^ 32 * c.rd l (f + 1) 0
/-- n consecutive registers, the first lowest (R243). -/
def Ctx.rdMany (c : Ctx) (l f : Nat) : Nat → Nat
  | 0 => 0
  | n + 1 => c.rd l f 0 + 2 ^ 32 * c.rdMany l (f + 1) n
def Ctx.rdPred (c : Ctx) (l n : Nat) : Bool := c.run.group.pred l n

/-! ## Traps -/

/-- A trap of the word that issues: why, in which lane, the address it names, the lanes that had performed, and whether
ERET goes on at the next word (R355). -/
structure Trap where
  fail : Fail
  lane : Option Nat
  addr : Nat
  performed : LaneSet
  next : Bool
  deriving DecidableEq, Repr

def Trap.of (f : Fail) (lane : Option Nat) (addr : Nat) : Trap :=
  { fail := f, lane := lane, addr := addr, performed := 0, next := false }

/-- Remove a run from its slot. -/
def State.endRun (s : State) (slot : Nat) : State := { s with runs := tabDel s.runs slot, focus := none }

def Gang.modCohort (g : Gang) (id : Nat) (f : Cohort → Cohort) : Gang :=
  { g with cohorts := g.cohorts.map fun c => if c.id = id then f c else c }
def Gang.cohort? (g : Gang) (id : Nat) : Option Cohort := g.cohorts.find? fun c => c.id == id
def Gang.fragsOf (g : Gang) (id : Nat) : List Frag := g.frags.filter fun f => f.cohort == id
/-- The lanes of a cohort that are active. -/
def Gang.activeOf (g : Gang) (id : Nat) : LaneSet := (g.fragsOf id).foldl (fun m f => m ||| f.act) 0
/-- The lane positions of a cohort's slices (R142). -/
def Gang.slicesOf (g : Gang) (id : Nat) : LaneSet := (g.fragsOf id).foldl (fun m f => m ||| sliceLanes f.slice) 0

/-- The lanes of a fault record: numbered as the gang of origin numbers them (R350). -/
def Gang.recordLanes (g : Gang) (m : LaneSet) : LaneSet :=
  if g.guests.isEmpty then m else lanesOf ((lanesIn m).map fun l => (g.ident 0 l).2)
def Ctx.recordLanes (c : Ctx) (m : LaneSet) : LaneSet := c.gang.recordLanes m

/-- The fault record of a trap of gang gid (R348 to R351). -/
def mkRecord (s : State) (gid : Nat) (g : Gang) (org lane : Nat) (f : Fail) (addr pc resumePc : Nat)
    (performed active : LaneSet) : FaultRec :=
  let og := s.gang org
  let t := s.task og.task
  { code := f.code, lane := lane, info := f.info, resumable := true, guest := !g.guests.isEmpty,
    privileged := t.privileged, task := og.task, addr := addr, block := (s.block og.block).idx,
    lgang := (s.block og.block).idx * t.tcb.blkdim + og.num, pc := pc, resumePc := resumePc, performed := performed,
    active := active, die := dieOf g.core, core := g.core, token := s.nextId, gang := some gid, serve := true }

/-- Hold gang gid at a trap (R347): the record waits for delivery, the cohort keeps what is left of its run. -/
def State.hold (s : State) (gid cohort : Nat) (lanes : LaneSet) (op : Option Nat) (r : FaultRec)
    (res : Option Resume) : State :=
  let h : Hold :=
    { token := s.nextId, cohort := cohort, lanes := lanes, op := op, resumePc := r.resumePc,
      resumable := r.resumable, marked := none }
  let s := s.modGang gid fun g =>
    let g := { g with holds := g.holds ++ [h] }
    match res with
    | some _ => g.modCohort cohort fun c => { c with resume := res }
    | none => g
  { s with faults := tabPut s.faults s.nextId r }.bump

/-- A new cohort takes the fragment of slice place p out of cohort id (R413), and keeps its stamp (R189). -/
def Gang.splitFrag (g : Gang) (id p : Nat) : Gang :=
  let stamp := ((g.cohort? id).map (·.stamp)).getD 0
  let c : Cohort :=
    { id := g.nextCohort, gathered := false, regang := false, barWait := [], fenceAt := none, resume := none, stamp := stamp }
  { g with frags := g.frags.map fun f => if f.cohort = id && f.slice = p then { f with cohort := g.nextCohort } else f,
           cohorts := g.cohorts ++ [c], nextCohort := g.nextCohort + 1 }

/-- The claims that a run has made for LDFE words it has not issued end (R249): its rest makes them again. -/
def State.dropClaims (s : State) (core run : Nat) : State :=
  let issued (c : Nat × Nat × Nat) : Bool := s.ops.any fun p => p.2.run == run && match p.2.kind with
    | .ldfe _ => p.2.accs.any fun a => !a.done && a.addr / 16 == c.2.2
    | _ => false
  { s with cores := tabMod s.cores core fun k =>
      { k with claims := k.claims.filter fun c => c.1 != run || issued c } }

/-- Take an execution trap (R49, R347, R350): the cohort stops at the word, the run leaves its slot, the gang is held and a
record waits. In a guest only the fragment that holds the lane stops, and the word issues again for the others (R413). -/
def State.takeTrap (s : State) (c : Ctx) (perf : LaneSet) (t : Trap) : State :=
  let place := if t.next then c.run.pos else c.at
  let lane := t.lane.getD 0
  let org := (c.ident lane).1
  let mine : LaneSet := if c.isGuest then sliceLanes (lane / 4) else 0xFFFFFFFF
  let recLane := match t.lane with
    | some l => (c.ident l).2
    | none => 0xFF
  let r := mkRecord s c.gid c.gang org recLane t.fail t.addr (codePtr c.run.base c.at) (codePtr c.run.base place)
    (c.recordLanes (t.performed &&& mine)) (c.recordLanes (perf &&& mine))
  let res : Resume :=
    { id := c.run.id, base := c.run.base, pos := place, xb := c.run.xb, act := c.run.act &&& mine, keepW := true }
  let g := s.gang c.gid
  if c.isGuest && (g.fragsOf c.run.cohort).any fun f => f.slice != lane / 4 then
    let id := g.nextCohort
    let s := s.modGang c.gid fun g => g.splitFrag c.run.cohort (lane / 4)
    let s := s.hold c.gid id (perf &&& mine) none r (some res)
    let run := { c.run with act := c.run.act &&& ~~~mine, pos := wordStart c.run.words c.at }
    { s with runs := tabPut s.runs c.slot run, focus := none }
  else
    let s := s.dropClaims c.core c.run.id
    (s.hold c.gid c.run.cohort (perf &&& mine) none r (some res)).endRun c.slot

/-! ## The return from a trap (R355) -/

/-- A cohort goes on at a code pointer: within what is left of its run, or at another packet. -/
def Gang.continueAt (g : Gang) (id pc : Nat) : Gang :=
  let pkt := if pc % 4 = 3 then 2 ^ 30 else pc / 4
  let slot := if pc % 4 = 3 then 0 else pc % 4
  let whole (g : Gang) : Gang :=
    { g with frags := g.frags.map fun f => if f.cohort = id then { f with pc := pkt, next := none } else f }
  match (g.cohort? id).bind (·.resume) with
  | some r =>
    if r.base ≤ pkt && pkt < r.base + 8 then
      g.modCohort id fun c => { c with resume := some { r with pos := (pkt - r.base) * 3 + slot } }
    else if slot = 0 then whole (g.modCohort id fun c => { c with resume := none, regang := false })
    else g.modCohort id fun c => { c with resume := some { r with base := pkt, pos := slot } }
  | none =>
    if slot = 0 then whole g
    else
      let r : Resume := { id := 0, base := pkt, pos := slot, xb := g.xb, act := g.activeOf id, keepW := true }
      g.modCohort id fun c => { c with resume := some r }

/-- Write RVAL to RREG in the lanes of the record (R355, R413). A register beyond the allotment takes nothing, as the spec names
neither trap nor effect there (DESIGN CHOICE, assumption log 64). -/
def Gang.returnValue (g : Gang) (migmask : Nat) (h : Hold) (rreg rval : Nat) : Gang :=
  let xb := match (g.cohort? h.cohort).bind (·.resume) with
    | some r => r.xb
    | none => g.xb
  if 112 ≤ rreg || g.allot ≤ xb + rreg || (!g.guests.isEmpty && !nbit migmask rreg) then g
  else { g with lanes := (lanesIn h.lanes).foldl (fun L l => L.setReg xb l rreg (BitVec.ofNat 32 rval)) g.lanes }

/-- An operation that is performed once, whatever trap it meets (R253). -/
def Op.once (o : Op) : Bool := match o.kind with
  | .atom _ _ _ | .bufAtom _ _ _ | .launch => true
  | _ => false

/-- What ERET does to the gang that a token names (R355, R358): nothing where no gang is held at it. The trapping slice goes on at
RESUMEPC, for a trap found when a load was performed too: the load issues again from there, with the words that had followed it
(assumption log 10); an atomic is not made again, as its RESUMEPC is the next word (R253). -/
def State.returnFrom (s : State) (token rreg rval resumePc : Nat) : State :=
  match s.gangs.find? fun p => p.2.holds.any fun h => h.token == token with
  | none => s
  | some (gid, g) =>
    match g.holds.find? fun h => h.token == token with
    | none => s
    | some h =>
      if !h.resumable then s
      else if g.status == .saved then
        s.setGang gid { g with holds := g.holds.map fun x =>
          if x.token = token then { x with marked := some (rreg, rval, resumePc) } else x }
      else
        let g := g.returnValue (s.task g.task).tcb.migmask h rreg rval
        let g := { g with holds := g.holds.filter fun x => x.token != token }
        match h.op with
        | none => s.setGang gid (g.continueAt h.cohort resumePc)
        | some o =>
          let keep := s.ops.filter fun p => p.1 != o || p.2.once
          { s.setGang gid (g.continueAt h.cohort resumePc) with ops := keep }

/-! ## Words -/

/-- The task of the issuing gang. -/
def Ctx.task (c : Ctx) (s : State) : Task := s.task c.gang.task
def Ctx.need (c : Ctx) (s : State) (r w : Bool) : Need :=
  { r := r, w := w, x := false, priv := (c.task s).privileged, encl := (c.task s).tcb.encl }

/-- A register or predicate that a guest's plies do not carry (R412). -/
def Ctx.notCarried (c : Ctx) (s : State) (u : Uses) : Bool :=
  let m := (c.task s).tcb.migmask
  c.isGuest && ((u.reads ++ u.writes).any (fun f => f < 112 && !nbit m f) ||
    (u.predR ++ u.predW).any fun p => p < 7 && !nbit m (112 + p))

/-- A register of a word lies beyond the allotment in lane l (R13): a guest's is that of its gang of origin. -/
def Ctx.laneOut (c : Ctx) (u : Uses) (l : Nat) : Bool :=
  (u.reads ++ u.writes).any fun f => f < 112 &&
    if c.isGuest then
      match c.gang.guestAt l with
      | some q => decide (q.allot ≤ q.base + f)
      | none => true
    else decide (c.gang.allot ≤ c.run.xb + f)
/-- The performing lanes in which a register lies beyond the allotment. -/
def Ctx.outLanes (c : Ctx) (u : Uses) (perf : LaneSet) : LaneSet := perf &&& lanesWhere (c.laneOut u)

/-- The trap a word takes whatever its operands, and the lanes that take it: what a guest may not do, privilege, registers (R412,
R353, R13). -/
def Ctx.wordTrap (c : Ctx) (s : State) (i : Instr) (perf : LaneSet) : Option (Fail × LaneSet) :=
  let u := usesOf i
  if perf = 0 then
    (if c.run.act != 0 && c.notCarried s { usesNone with predR := pW (guardOf i) } then some (failOf tcMigReg, c.run.act)
      else none)
  else if c.isGuest && (guestStops i || u.reads.any (fun f => 112 ≤ f && f < 120) ||
      ((c.task s).tcb.det && floatAtomic i)) then some (failOf tcGuestOp, perf)
  else if needsPriv i && !(c.task s).privileged then some (failOf tcPriv, perf)
  else if c.notCarried s u then some (failOf tcMigReg, perf)
  else if c.outLanes u perf != 0 then some (failOf tcRegBound, c.outLanes u perf)
  else none

/-- The word waits for a walk: the run stands before it again (R316). -/
def State.stall (s : State) (c : Ctx) : State :=
  { s with runs := tabPut s.runs c.slot { c.run with pos := wordStart c.run.words c.at, stalled := true }, focus := none }
/-- The meaning of a word, from what it does in its performing lanes. Its queue entries leave first; a trap leaves the
state as it was but for the trap itself (R49). -/
def word (i : Instr) (body : Ctx → LaneSet → State → Except Trap State) (s : State) : Host.Outcome State Fault Refusal :=
  match s.issuer with
  | none => .fault .noIssuer
  | some c =>
    let perf := c.perf (guardOf i)
    match c.wordTrap s i perf with
    | some f => .next (s.takeTrap c (if perf = 0 then c.run.act else perf) (Trap.of f.1 (lowestLane f.2) 0))
    | none =>
      match body c perf (s.setGang c.gid (c.gang.pops (usesOf i) perf)) with
      | .ok t => .next t
      | .error t => .next (if t.fail = failWait then s.stall c else s.takeTrap c perf t)

end Sys2Proof.Machine
end

