-- ==== Sys2Proof/Machine/Special.lean ====
section
/-! DEFINITION. The special functions of R125 and R126: each function to some 180 bits in fixed point, and a result that
is the part's own value where that lies within the bound of R125, else the nearest value of the format. -/

namespace Sys2Proof.Machine

/-! ## Fixed point: integers at weight 2^−200 -/

def fxOne : Nat := 2 ^ 200
def fxMul (a b : Nat) : Nat := a * b / fxOne
/-- ln 2 and π. -/
def fxLn2 : Nat := 0xb17217f7d1cf79abc9e3b39803f2f6af40f343267298b62d8a
def fxPi : Nat := 0x3243f6a8885a308d313198a2e03707344a4093822299f31d008

/-- m × 2^e at weight 2^−200, cut. -/
def fxOf (m : Nat) (e : Int) : Nat := if 0 ≤ e + 200 then m * 2 ^ (e + 200).toNat else m / 2 ^ (-(e + 200)).toNat

/-- t + t·x/(k+1) + …: the tail of the series of e^x. -/
def fxExpTail : Nat → Nat → Nat → Nat → Nat
  | 0, _, _, _ => 0
  | n + 1, x, k, t => t + fxExpTail n x (k + 1) (fxMul t x / (k + 1))
/-- 2^f for 0 ≤ f < 1. -/
def fxExp2 (f : Nat) : Nat := fxExpTail 60 (fxMul f fxLn2) 0 fxOne

/-- Σ t·uⁿ/((k+1)(k+2))… : with k = 0 the cosh series, with k = 1 that of sinh(x)/x, u = x². -/
def fxHyp : Nat → Nat → Nat → Nat → Nat
  | 0, _, _, _ => 0
  | n + 1, u, k, t => t + fxHyp n u (k + 2) (fxMul t u / ((k + 1) * (k + 2)))

/-- The alternating series of sin(x)/x. -/
def fxSinc : Nat → Int → Nat → Int → Int
  | 0, _, _, _ => 0
  | n + 1, u, k, t => t + fxSinc n u (k + 2) (-(t * u / (2 ^ 200 : Nat) / (((k + 1) * (k + 2) : Nat) : Int)))
/-- sin(π·r) for 0 ≤ r ≤ 1/2. -/
def fxSinPi (r : Nat) : Nat :=
  let x := fxMul fxPi r
  fxMul x (fxSinc 50 (fxMul x x) 1 fxOne).toNat

/-- The first bits of log2 x below the point, x in [1, 2), by squaring. -/
def fxLog2Bits : Nat → Nat → Nat → Nat
  | 0, _, acc => acc
  | n + 1, x, acc =>
    let y := fxMul x x
    if 2 * fxOne ≤ y then fxLog2Bits n (y / 2) (2 * acc + 1) else fxLog2Bits n y (2 * acc)

/-! ## The choice of a result -/

/-- |d| ≤ b × 2^k. -/
def Dyadic.absLe (d : Dyadic) (b : Nat) (k : Int) : Bool := !dyLt b k d.m.natAbs d.e

/-- The spacing of the format at the value g, as an exponent of two. -/
def Fmt.ulpExp (f : Fmt) (g : Dyadic) : Int :=
  let E : Int := (Nat.log2 g.m.natAbs : Int) + g.e
  (if E < f.emin then f.emin else E) - f.mw

/-- The result of function number k (the B field of R125) whose exact value is g: the part's value where it lies within
`ulps` units or, for the functions of R125 that have one, within the absolute bound 2^−22; else the nearest. -/
def Fmt.pickSpecial (f : Fmt) (k ft bits ulps : Nat) (absBound : Bool) (g : Dyadic) : Nat :=
  let c := Config.specialFn k ft bits % 2 ^ f.width
  let near := (f.roundInt (.to .rne) false g.m g.e).1
  match f.value c with
  | .fin n m e =>
    let d := Dyadic.add { m := fsign n m, e := e } { m := -g.m, e := g.e }
    if d.absLe ulps (f.ulpExp g) || (absBound && d.absLe 1 (-22)) then c else near
  | _ => near

/-- The flags of a result that is not known to be exact: NX, and UF where it is tiny (R125, R71). -/
def Fmt.inexactFlags (f : Fmt) (bits : Nat) : FlagSet :=
  flNX ||| flIf (bits % f.signBit < 2 ^ f.mw) flUF

/-- A result of a function whose exact value, if representable, is `exact`. -/
def Fmt.special (f : Fmt) (k ft bits ulps : Nat) (absBound : Bool) (g : Dyadic) (exact : Option Nat) : Nat × FlagSet :=
  let r := f.pickSpecial k ft bits ulps absBound g
  (r, if exact == some r then 0 else f.inexactFlags r)

/-- A dyadic number that is an integer. -/
def isInteger (m : Nat) (e : Int) : Bool := 0 ≤ e || m % 2 ^ (-e).toNat == 0
/-- m is a power of two. -/
def isPow2 (m : Nat) : Bool := m != 0 && 2 ^ Nat.log2 m == m

/-- FRSQ (R125, R126). -/
def Fmt.rsq (f : Fmt) (ft bits : Nat) : Nat × FlagSet :=
  match f.value bits with
  | .nan s => f.nanRes s
  | .inf n => if n then f.nanRes true else (f.signed false 0, 0)
  | .fin n m e =>
    if m = 0 then (f.signed n f.infBits, flFZ)
    else if n then f.nanRes true
    else
      let (m1, e1) := if e % 2 = 0 then (m, e) else (2 * m, e - 1)
      let g : Dyadic := { m := (isqrt (2 ^ 400 / m1) : Nat), e := -(e1 / 2) - 200 }
      let E : Int := (Nat.log2 m : Int) + e
      let exact := if isPow2 m && E % 2 == 0 then some (f.round (.to .rne) false 1 (-(E / 2))).1 else none
      f.special 2 ft bits 1 false g exact

/-- FEXP2 (R125, R126). -/
def Fmt.exp2 (f : Fmt) (ft bits : Nat) : Nat × FlagSet :=
  match f.value bits with
  | .nan s => f.nanRes s
  | .inf n => (if n then 0 else f.infBits, 0)
  | .fin n m e =>
    if !n && !dyLt m e (f.emax + 1).toNat 0 then (f.infBits, flOF ||| flNX)
    else if n && dyLt 2000 0 m e then f.special 3 ft bits 2 false { m := 1, e := -2000 } none
    else
      let x : Int := fsign n (fxOf m e)
      let i := x / (2 ^ 200 : Nat)
      if isInteger m e then
        let (r, fl) := f.round (.to .rne) false 1 i
        if fl = 0 then (r, 0) else f.special 3 ft bits 2 false { m := 1, e := i } none
      else f.special 3 ft bits 2 false { m := (fxExp2 (x - i * (2 ^ 200 : Nat)).toNat : Nat), e := i - 200 } none

/-- FLOG2 (R125, R126). -/
def Fmt.log2R (f : Fmt) (ft bits : Nat) : Nat × FlagSet :=
  match f.value bits with
  | .nan s => f.nanRes s
  | .inf n => if n then f.nanRes true else (f.infBits, 0)
  | .fin n m e =>
    if m = 0 then (f.signed true f.infBits, flFZ)
    else if n then f.nanRes true
    else
      let E : Int := (Nat.log2 m : Int) + e
      if isPow2 m then f.roundInt (.to .rne) false E 0
      else
        let x := m * fxOne / 2 ^ Nat.log2 m
        let g : Dyadic := { m := E * (2 ^ 90 : Nat) + (fxLog2Bits 90 x 0 : Nat), e := -90 }
        f.special 4 ft bits 2 (E == -1 || E == 0) g none

/-- The sine of π × (m × 2^e), m × 2^e ≥ 0, at weight 2^−200: the argument is cut to [0, 2) first. -/
def sinPi (m : Nat) (e : Int) : Int :=
  let r := fxOf m e % (2 * fxOne)
  let (n, r) := if fxOne ≤ r then (true, r - fxOne) else (false, r)
  let r := if fxOne / 2 < r then fxOne - r else r
  fsign n (fxSinPi r)

/-- FSIN (R125, R126). -/
def Fmt.sinR (f : Fmt) (ft bits : Nat) : Nat × FlagSet :=
  match f.value bits with
  | .nan s => f.nanRes s
  | .inf _ => f.nanRes true
  | .fin n m e =>
    if m = 0 then (f.signed n 0, 0)
    else if isInteger m e then (f.signed false 0, 0)
    else
      let s := sinPi m e
      let s := if n then -s else s
      let one := f.round (.to .rne) (s < 0) 1 0
      f.special 5 ft bits 0 true { m := s, e := -200 } (if isInteger m (e + 1) then some one.1 else none)

/-- FCOS (R125, R126). At an integer the table of R126 names no value: the bound of R125 holds there. -/
def Fmt.cosR (f : Fmt) (ft bits : Nat) : Nat × FlagSet :=
  match f.value bits with
  | .nan s => f.nanRes s
  | .inf _ => f.nanRes true
  | .fin _ m e =>
    if isInteger m (e + 1) && !isInteger m e then (f.signed false 0, 0)
    else
      let d := Dyadic.add { m := m, e := e } { m := 1, e := -1 }
      if isInteger m e then
        let odd := e ≤ 0 && m / 2 ^ (-e).toNat % 2 == 1
        f.special 6 ft bits 0 true { m := if odd then -1 else 1, e := 0 } (some (f.round (.to .rne) odd 1 0).1)
      else f.special 6 ft bits 0 true { m := sinPi d.m.toNat d.e, e := -200 } none

/-- FTANH (R125, R126). -/
def Fmt.tanhR (f : Fmt) (ft bits : Nat) : Nat × FlagSet :=
  let one := (f.round (.to .rne) false 1 0).1
  match f.value bits with
  | .nan s => f.nanRes s
  | .inf n => (f.signed n one, 0)
  | .fin n m e =>
    if m = 0 then (f.signed n 0, 0)
    else if dyLt 64 0 m e then f.special 7 ft bits 2 false { m := fsign n (2 ^ 100 - 1), e := -100 } none
    else
      let u := fxOf (m * m) (2 * e)
      let q := fxHyp 200 u 1 fxOne * fxOne / fxHyp 200 u 0 fxOne
      f.special 7 ft bits 2 false { m := fsign n (m * q), e := e - 200 } none

end Sys2Proof.Machine
end

