-- ==== Sys2Proof/Machine/Operands.lean ====
section
/-! DEFINITION. The operand forms: integer and float sources with their immediates, results and how a word writes them
lane by lane. -/

namespace Sys2Proof

open Machine

/-! ## Integer operands (R63, R34) -/

def IntTy.bits : IntTy → Nat
  | .i32 | .n32 => 32
  | .i64 | .n64 => 64
  | .i16 | .n16 => 16
  | .i8 | .n8 => 8

/-- The low bits of x under a type. -/
def IntTy.val (ty : IntTy) (x : Nat) : Int := if ty.signed then sval ty.bits x else (x % 2 ^ ty.bits : Nat)
def IntTy.lo (ty : IntTy) : Int := if ty.signed then -(2 ^ (ty.bits - 1) : Nat) else 0
def IntTy.hi (ty : IntTy) : Int := if ty.signed then (2 ^ (ty.bits - 1) : Nat) - 1 else (2 ^ ty.bits : Nat) - 1
/-- The bits a result is written with: wrapped, a narrow one extended to 32 bits (R63). -/
def IntTy.enc (ty : IntTy) (x : Int) : Nat :=
  let v := wrapN ty.bits x
  if ty.bits < 32 && ty.signed then wrapN 32 (sval ty.bits v) else v

/-! ## Float types (R118, R67) -/

def FloatTy.fmt : FloatTy → Fmt
  | .f32 => fp32
  | .f64 => fp64
  | .f16 | .f16x2 => fp16
  | .bf16 | .bf16x2 => fbf16
/-- The FT code (R118). -/
def FloatTy.num : FloatTy → Nat
  | .f32 => 0
  | .f64 => 1
  | .f16 => 2
  | .bf16 => 3
  | .f16x2 => 4
  | .bf16x2 => 5
/-- The immediate of a float operand (R34). -/
def FloatTy.imm (ft : FloatTy) (v : BitVec 22) : Nat := if ft.is64 then v.toNat * 2 ^ 42 else v.toNat * 2 ^ 10
/-- Element i of an operand (R119, R67). -/
def FloatTy.elem (ft : FloatTy) (x i : Nat) : Nat := x / 2 ^ (16 * i) % 2 ^ ft.fmt.width

end Sys2Proof

namespace Sys2Proof.Machine

/-! ## Operands of a lane -/

/-- VALUE of an IMM prefix, sign-extended or zero-extended to 64 bits (R34). -/
def immSext (v : BitVec 22) : Nat := (v.signExtend 64).toNat
def immExt (isSigned : Bool) (v : BitVec 22) : Nat := if isSigned then immSext v else v.toNat

/-- A as an operand of 32 or 64 bits. -/
def Ctx.opA (c : Ctx) (l : Nat) (is64 : Bool) (a : Reg) : Nat := if is64 then c.rdPair l a.toNat else c.rd l a.toNat 0
/-- B as an operand: a register, whose queue entry comes after A's, or the immediate already extended. -/
def Ctx.opB (c : Ctx) (l : Nat) (is64 : Bool) (a : Reg) (ext : BitVec 22 → Nat) : Src → Nat
  | .reg r => if is64 then c.rdPair l r.toNat else c.rd l r.toNat (if a = r then 1 else 0)
  | .imm v => ext v
/-- B as a 32-bit value that is read unsigned after sign extension (R89, R162). -/
def Ctx.opCount (c : Ctx) (l : Nat) (a : Reg) (b : Src) : Nat := c.opB l false a immSext b % 2 ^ 32

/-- The 64-bit address in an even pair, with its offset (R35). -/
def Ctx.addr (c : Ctx) (l : Nat) (a : Reg) (off : BitVec 22) : Nat :=
  (c.rdPair l a.toNat + (off.signExtend 64).toNat) % 2 ^ 64

/-! ## Float operands (R118, R119) -/

def Ctx.flA (c : Ctx) (l : Nat) (ft : FloatTy) (a : Reg) : Nat := c.opA l ft.is64 a
def Ctx.flB (c : Ctx) (l : Nat) (ft : FloatTy) (a : Reg) (b : Src) : Nat := c.opB l ft.is64 a ft.imm b

/-! ## Results -/

/-- What one lane writes: registers by field, predicates, flags, generator. -/
structure LaneOut where
  regs : List (Nat × Word)
  preds : List (Nat × Bool)
  flags : FlagSet
  deriving DecidableEq, Repr

def LaneOut.none : LaneOut := { regs := [], preds := [], flags := 0 }
/-- A 32-bit result. -/
def outW (d : Reg) (v : Nat) : LaneOut := { LaneOut.none with regs := [(d.toNat, BitVec.ofNat 32 v)] }
/-- A result in an even pair (R14). -/
def outPair (d : Reg) (v : Nat) : LaneOut :=
  { LaneOut.none with regs := [(d.toNat, BitVec.ofNat 32 v), (d.toNat + 1, BitVec.ofNat 32 (v / 2 ^ 32))] }
def outSize (is64 : Bool) (d : Reg) (v : Nat) : LaneOut := if is64 then outPair d v else outW d v
def outPred (p : PredNo) (v : Bool) : LaneOut := { LaneOut.none with preds := [(p.toNat, v)] }
def outInt (ty : IntTy) (d : Reg) (v : Int) : LaneOut := outSize ty.is64 d (ty.enc v)
def LaneOut.withFlags (o : LaneOut) (f : FlagSet) : LaneOut := { o with flags := f }
def LaneOut.withPred (o : LaneOut) (p : PredNo) (v : Bool) : LaneOut := { o with preds := [(p.toNat, v)] }
/-- A float result of one or two elements, each with its flags. -/
def outFloat (ft : FloatTy) (d : Reg) (f : Nat → Nat × FlagSet) : LaneOut :=
  if ft.packed then
    (outW d ((f 0).1 + 2 ^ 16 * (f 1).1)).withFlags ((f 0).2 ||| (f 1).2)
  else (outSize ft.is64 d (f 0).1).withFlags (f 0).2

/-- Write what a lane writes. -/
def LaneOut.apply (o : LaneOut) (xb l : Nat) (L : Lanes) : Lanes :=
  let L := o.regs.foldl (fun L r => L.setReg xb l r.1 r.2) L
  let L := o.preds.foldl (fun L p => L.setPred l p.1 p.2) L
  L.orFlags l o.flags

/-- Every lane of a set writes what f gives it. -/
def writeLanes (xb : Nat) (m : LaneSet) (f : Nat → LaneOut) (L : Lanes) : Lanes :=
  (lanesIn m).foldl (fun L l => (f l).apply xb l L) L

/-- A word each performing lane of which computes by itself (R84, R119). -/
def laneWord (i : Instr) (f : Ctx → State → Nat → LaneOut) (s : State) : Host.Outcome State Fault Refusal :=
  word i (fun c perf s => .ok (s.modGang c.gid fun g => { g with lanes := writeLanes c.run.xb perf (f c s) g.lanes })) s

/-- A draw of lane l (R78, R139): from the live generator, unless a RNDSEED of this group has set it in the lane. -/
def Ctx.drawFrom (c : Ctx) (L : Lanes) (l : Nat) : DWord × DWord :=
  if hasLane c.run.seeded l then c.run.group.gen l else L.gen l

/-- n draws from a generator: the outs in order, and the state after them. -/
def drawN : Nat → DWord × DWord → List DWord × (DWord × DWord)
  | 0, g => ([], g)
  | n + 1, g =>
    let r := genStep g.1 g.2
    let t := drawN n (r.1, r.2.1)
    (r.2.2 :: t.1, t.2)

/-- A word each performing lane of which draws n times (R139). -/
def drawWord (i : Instr) (n : Nat) (f : Ctx → List DWord → Nat → LaneOut) (s : State) :
    Host.Outcome State Fault Refusal :=
  word i (fun c perf s => .ok (s.modGang c.gid fun g =>
    { g with lanes := (lanesIn perf).foldl (fun L l =>
        let r := drawN n (c.drawFrom L l)
        let L := (f c r.1 l).apply c.run.xb l L
        if hasLane c.run.seeded l then L else L.setGen l r.2) g.lanes })) s

end Sys2Proof.Machine
end

