-- ==== Sys2Proof/Machine/Control.lean ====
section
/-! DEFINITION. Control flow (R106 to R115, R43 to R45, R142 to R144, R177, R178): the divergence stack, the transfers,
the end of a run with its parting, and the end of gangs with what it completes. -/

namespace Sys2Proof.Machine

/-! ## The divergence stack (R109) -/

/-- Park lanes at a packet; none where the stack would grow beyond eight entries. -/
def Frag.park (f : Frag) (pkt : Nat) (m : LaneSet) : Option Frag :=
  match f.stack with
  | (p, n) :: st =>
    if p = pkt then some { f with stack := (p, n ||| m) :: st }
    else if f.stack.length = 8 then none
    else some { f with stack := (pkt, m) :: f.stack }
  | [] => some { f with stack := [(pkt, m)] }

/-- The first entry from the top with a lane in it, and the stack that is left with that entry emptied. -/
def resumeStack : List (Nat × LaneSet) → Option (Nat × LaneSet × List (Nat × LaneSet))
  | [] => none
  | (p, m) :: st => if m = 0 then resumeStack st else some (p, m, (p, 0) :: st)

/-- The fragment takes up the lanes of its stack's first entry with a lane; with none it has nothing left. -/
def Frag.resume (f : Frag) : Frag :=
  match resumeStack f.stack with
  | some (p, m, st) => { f with act := m, stack := st, next := some p }
  | none => { f with act := 0, stack := [], next := none }

/-! ## Transfers -/

/-- The packet after the run's last (R109). -/
def Ctx.after (c : Ctx) : Nat := c.run.base + c.run.words.length / 3
/-- The packet that holds the word (R55). -/
def Ctx.packet (c : Ctx) : Nat := c.run.base + c.at / 3

/-- Apply a transfer to every fragment of the cohort; none where one of them cannot take it. -/
def mapFrags (id : Nat) (f : Frag → Option Frag) : List Frag → Option (List Frag)
  | [] => some []
  | x :: xs =>
    match (if x.cohort = id then f x else some x), mapFrags id f xs with
    | some y, some ys => some (y :: ys)
    | _, _ => none
/-- The lowest active lane of the slices that cannot take a transfer (R115). -/
def fullLane (id : Nat) (f : Frag → Option Frag) (fs : List Frag) : Option Nat :=
  lowestLane ((fs.filter fun x => x.cohort == id && (f x).isNone).foldl (fun m x => m ||| x.act) 0)

/-- A transfer word: its effect on a fragment, and the trap of a stack that is full (R115). -/
def transferWord (i : Instr) (trap : Ctx → LaneSet → Option Nat) (f : Ctx → LaneSet → Frag → Option Frag)
    (s : State) : Host.Outcome State Fault Refusal :=
  word i (fun c perf s =>
    match trap c perf with
    | some l => .error (Trap.of (failOf tcIllegal) (some l) 0)
    | none =>
      match mapFrags c.run.cohort (f c perf) (s.gang c.gid).frags with
      | some fs => .ok (s.modGang c.gid fun g => { g with frags := fs })
      | none => .error (Trap.of (failOf tcIllegal) (fullLane c.run.cohort (f c perf) (s.gang c.gid).frags) 0)) s

/-- The packet offset of BRA and CALL (R55). -/
def offsetOf : Imm36 → Int
  | .short v => v.toInt
  | .long v => v.toInt
def Ctx.target (c : Ctx) (i : Imm36) : Int := (c.packet : Int) + offsetOf i
def packetOk (p : Int) : Bool := decide (0 ≤ p) && decide (p < 2 ^ 30)

/-- BRA (R110). A guarded BRA whose guard holds in no lane takes no trap for a target out of range, and parks no lane at its
packet number cut off at 0 (DESIGN CHOICE, assumption log 64). -/
def execBra (g : PredNo) (i : Imm36) : State → Host.Outcome State Fault Refusal :=
  transferWord (.bra g i) (fun c perf => if packetOk (c.target i) then none else lowestLane perf) fun c perf f =>
    let pkt := (c.target i).toNat
    if g = 7 then some { f with next := some pkt }
    else
      let t := f.act &&& perf
      let rest := f.act &&& ~~~t
      match f.park pkt t with
      | none => none
      | some f' =>
        if rest != 0 then some { f' with act := rest, next := some c.after } else some ({ f' with act := 0 } : Frag).resume

/-- Where lane l of a BRX or RET goes (R112). -/
def Ctx.brxTarget (c : Ctx) (perf : LaneSet) (a : Reg) (l : Nat) : Nat :=
  if hasLane perf l then c.rd l a.toNat 0 / 4 else c.after
/-- BRX and RET (R112). -/
def brxWord (i : Instr) (a : Reg) : State → Host.Outcome State Fault Refusal :=
  transferWord i (fun c perf => (lanesIn perf).find? fun l => c.rd l a.toNat 0 % 4 != 0) fun c perf f =>
    match lowestLane f.act with
    | none => some f
    | some l0 =>
      let t := c.brxTarget perf a l0
      let m := f.act &&& lanesWhere fun l => c.brxTarget perf a l == t
      let f' := if m = f.act then some f else f.park c.run.base (f.act &&& ~~~m)
      f'.map fun x => { x with act := m, next := some t }
def execBrx (g : PredNo) (a : Reg) : State → Host.Outcome State Fault Refusal := brxWord (.brx g a) a
def execRet (g : PredNo) (a : Reg) : State → Host.Outcome State Fault Refusal := brxWord (.ret g a) a

/-- CALL (R113, R55): the link in every active lane; in packet 2^30 − 1 it wraps to 0 (DESIGN CHOICE, assumption log 64). -/
def execCall (d : Reg) (i : Imm36) : State → Host.Outcome State Fault Refusal :=
  word (.call d i) fun c perf s =>
    if packetOk (c.target i) then
      .ok (s.modGang c.gid fun g =>
        let go (f : Frag) : Frag := if f.cohort = c.run.cohort then { f with next := some (c.target i).toNat } else f
        { g with lanes := writeLanes c.run.xb c.run.act (fun _ => outW d ((c.packet + 1) * 4)) g.lanes,
                 frags := g.frags.map go })
    else .error (Trap.of (failOf tcIllegal) (lowestLane perf) 0)

/-- JOIN (R111). -/
def execJoin : State → Host.Outcome State Fault Refusal :=
  transferWord .join (fun _ _ => none) fun c _ f =>
    match f.stack with
    | [] => some { f with next := some c.after }
    | (p, m) :: st =>
      if p = c.run.base then some { f with stack := st, act := f.act ||| m, next := some c.after }
      else if m = 0 then some { f with stack := st, next := some c.after }
      else
        match ({ f with stack := st } : Frag).park c.run.base f.act with
        | none => none
        | some f' => some { f' with act := m, next := some p }

/-- EXIT (R114): the lanes end; they leave the active set and every stack entry. -/
def execExit (g : PredNo) : State → Host.Outcome State Fault Refusal :=
  transferWord (.exit g) (fun _ _ => none) fun c perf f =>
    let gone := f.act &&& perf
    let f1 : Frag := { f with act := f.act &&& ~~~gone, stack := f.stack.map fun e => (e.1, e.2 &&& ~~~gone) }
    if f1.act != 0 then some { f1 with next := some c.after } else some f1.resume

/-- REGANG (R177, R144): the cohort is gathered at the packet after the run, once the run has ended. -/
def execRegang : State → Host.Outcome State Fault Refusal :=
  word .regang fun c _ s => .ok (s.modGang c.gid fun g => g.modCohort c.run.cohort fun k => { k with regang := true })

/-- YIELD (R178): the cohort's waiting time starts again. The end of the run sets the stamp. -/
def execYield : State → Host.Outcome State Fault Refusal :=
  word .yield fun c _ s =>
    .ok (s.modGang c.gid fun g => g.modCohort c.run.cohort fun k => { k with stamp := s.time })

/-- WAIT (R106): it acts through the start of its run alone. -/
def execWait (chain : Bool) (l st : BitVec 4) (t m : BitVec 3) : State → Host.Outcome State Fault Refusal :=
  word (.wait chain l st t m) fun _ _ s => .ok s

/-! ## Groups of gangs (R146, R171) -/

/-- The number under which a task keeps a group's generation: BLK of block b stands above the table (R146). -/
def genKey (group blockIdx : Nat) : Nat := if group = 256 then 256 + blockIdx else group
/-- The launch-wide numbers of a group's members. -/
def Task.members (t : Task) (group blockIdx : Nat) : List Nat :=
  if group = 256 then (List.range t.tcb.blkdim).map (blockIdx * t.tcb.blkdim + ·) else tabGet t.groups [] group
def State.launchNumber (s : State) (g : Gang) : Nat :=
  (s.block g.block).idx * (s.task g.task).tcb.blkdim + g.num
/-- The gang of a task with a launch-wide number, if it has been placed. -/
def State.findGang (s : State) (task n : Nat) : Option (Nat × Gang) :=
  s.gangs.find? fun p => p.2.task == task && p.2.guests.isEmpty && s.launchNumber p.2 == n &&
    (s.block p.2.block).status != .lost

/-- Every access of operations that a gang issued before number `mark` has been performed. -/
def State.accessesDone (s : State) (gid mark : Nat) : Bool :=
  s.ops.all fun p => p.2.gang != gid || mark ≤ p.1 || p.2.accs.all (·.done)

/-- A member has arrived in the current generation, or it has ended (R171). -/
def State.memberDone (s : State) (task group key n : Nat) : Bool :=
  match s.findGang task n with
  | some (_, g) => g.status == .ended || tabGet g.arrivals 0 group == tabGet (s.task task).gens 0 key + 1
  | none => false

/-- Where a task keeps what a generation orders. -/
def edgeKey (key gen : Nat) : Nat := key * 2 ^ 40 + gen
/-- Complete the generation of a group, if every member has arrived or ended and one has not ended (R171). What a member
issued before its arrival, or before it ended, is what the runs that the generation releases find performed (R172). -/
def State.completeGroup (s : State) (task group blockIdx : Nat) : State :=
  let t := s.task task
  let key := genKey group blockIdx
  let ms := t.members group blockIdx
  let gs := ms.filterMap (s.findGang task)
  let gen := tabGet t.gens 0 key + 1
  let edge (p : Nat × Gang) : Nat × Nat :=
    (p.1, if p.2.status == .ended then s.nextId else tabGet p.2.marks s.nextId group)
  if !ms.isEmpty && ms.all (s.memberDone task group key) && gs.any fun p => p.2.status != .ended then
    s.setTask task { t with gens := tabPut t.gens key gen, edges := tabPut t.edges (edgeKey key gen) (gs.map edge) }
  else s

/-! ## The tempo (R197) -/

/-- The next gang in rotation order after number n that has not ended: it may not be placed yet. -/
def State.nextTempo (s : State) (task n : Nat) : Option Nat :=
  let t := s.task task
  let total := t.tcb.grid * t.tcb.blkdim
  let ended := (s.gangs.filter fun p => p.2.task == task && p.2.guests.isEmpty && p.2.status == .ended &&
    (s.block p.2.block).status != .lost).map fun p => s.launchNumber p.2
  let go (acc : Option Nat) (k : Nat) : Option Nat := match acc with
    | some r => some r
    | none => let m := (n + 1 + k) % total; if ended.contains m then none else some m
  if total = 0 then none else (List.range (ended.length + 1)).foldl go none

/-- The gang holds the tempo: it is the one it goes to, and what the gangs before it stored has been performed (R179). A guest
never holds it (R412). -/
def State.holdsTempo (s : State) (g : Gang) : Bool :=
  let t := s.task g.task
  let n := s.launchNumber g
  g.guests.isEmpty && t.tcb.hasTempo && t.tempo == some n &&
    t.tempoWait.all fun w => s.launchNumber (s.gang w.1) == n || s.accessesDone w.1 w.2
/-- The tempo leaves gang gid, whose number is n, if it goes to it: the next gang holds it once what has been issued so far has been
performed (DESIGN CHOICE beyond the tempo ranges that R179 names, assumption log 70). -/
def State.passTempo (s : State) (task gid n : Nat) : State :=
  let t := s.task task
  if t.tempo = some n then
    s.setTask task { t with tempo := s.nextTempo task n, tempoWait := (gid, s.nextId) :: t.tempoWait }
  else s

/-! ## The end of a gang (R114, R153, R171, R180, R197) -/

/-- A gang whose slices have all ended: it counts as arrived everywhere, its window closes, the tempo leaves it. -/
def State.endGang (s : State) (gid : Nat) : State :=
  let g := s.gang gid
  let n := s.launchNumber g
  let s := s.setGang gid { g with status := .ended, window := none, frags := [], cohorts := [], holds := [] }
  let s := s.passTempo g.task gid n
  (g.groups ++ [256]).foldl (fun s k => s.completeGroup g.task k (s.block g.block).idx) s

/-- A gang ends when no fragment of it is left here or away (R153, R403). -/
def State.endIfDone (s : State) (gid : Nat) : State :=
  let g := s.gang gid
  if g.status == .resident && g.frags.isEmpty && g.away.isEmpty && g.guests.isEmpty then s.endGang gid else s

/-! ## A task ended as by HALT (R356) -/

/-- Every gang of the task ends, resident, held, saved, or away as a guest; plies and buffered records go, and what the
engines have not begun of a saved block. A block that was to be saved runs out instead. Blocks and the TCB follow in
steps of their own. -/
def State.endTask (s : State) (task : Nat) : State :=
  let mine (gid : Nat) : Bool := (s.gang gid).task == task
  let isPly (b : Payload) : Bool := match b with
    | .ply p => p.task == task
    | _ => false
  let dead (o : Op) : Bool := mine o.gang && match o.kind with
    | .bufAtom _ _ _ => true
    | _ => (o.cls == .tl && (s.block o.block).status == .saved) || (o.accs.all (·.done) && o.accs.any (·.poison))
  let endG (g : Gang) : Gang :=
    if g.task = task then
      { g with status := .ended, window := none, frags := [], cohorts := [], holds := [], away := [],
               guests := g.guests.map fun q => { q with left := true } }
    else g
  let endD (d : Die) : Die :=
    { d with arrivals := d.arrivals.filter fun p => p.task != task, park := d.park.filter fun p => p.task != task,
             ready := d.ready.filter fun r => r.2.2 != task }
  let grow (k : Core) : Core :=
    { k with growQ := k.growQ.filter fun r => !mine r.gang,
             claims := k.claims.filter fun c => (s.block c.2.1).task != task }
  let go (b : Block) : Block :=
    if b.task = task && (b.status == .halting || b.status == .halted) then
      { b with status := .resident, pendingFor := none, saveFailed := false }
    else b
  let take (o : Op) : Op := if mine o.gang then { o with abandoned := false } else o
  let t := s.task task
  let s : State :=
    { s with gangs := s.gangs.map fun p => (p.1, endG p.2), blocks := s.blocks.map fun p => (p.1, go p.2), dies := s.dies.map fun p => (p.1, endD p.2),
             cores := s.cores.map fun p => (p.1, grow p.2), runs := s.runs.filter fun p => !mine p.2.gang,
             departing := s.departing.filter fun p => p.2.task != task, bufs := s.bufs.filter fun b => b.task != task,
             unacked := s.unacked.filter fun u => !isPly u.pkt.body, flight := s.flight.filter fun p => !isPly p.body,
             ops := (s.ops.filter fun p => !dead p.2).map fun p => (p.1, take p.2) }
  s.setTask task { t with status := .ending, tempo := none, reissue := [] }

/-! ## The end of a run (R45, R143) -/

/-- TRAIL sets a hold on the destinations it names that the run's long-latency words have not yet written (R45). -/
def holdOps (run xb : Nat) (named : List Reg) (ops : Tab Op) : Tab Op :=
  ops.map fun p =>
    match p.2.dest with
    | some d =>
      if p.2.run = run && named.any (fun r => r.toNat < 112 && xb + r.toNat == d.first) then
        (p.1, { p.2 with held := (List.range d.count).map (d.first + ·) })
      else p
    | none => p

/-- A fragment at the end of its cohort's run: where it goes on; none where it has ended or is away whole. One whose lanes have
all left takes up its stack (R404). -/
def Frag.settle (f : Frag) (after : Nat) : Option Frag :=
  let f := if f.act = 0 then f.resume else f
  if f.act = 0 then none else some { f with pc := f.next.getD after, next := none }

/-- The distinct packets of a list of fragments, in order of appearance. -/
def packetsOf : List Frag → List Nat
  | [] => []
  | f :: fs => let r := packetsOf fs; if r.contains f.pc then r else f.pc :: r

/-- The cohort parts: each further packet gets a cohort of its own, alike but for its name (R143, R171). -/
def Gang.part (g : Gang) (id time : Nat) : Gang :=
  match g.cohort? id with
  | none => g
  | some c =>
    match packetsOf (g.fragsOf id) with
    | [] => { g with cohorts := g.cohorts.filter fun k => k.id != id }
    | _ :: more =>
      let g := g.modCohort id fun k => { k with stamp := time, resume := none }
      let split (g : Gang) (p : Nat) : Gang :=
        let new : Cohort := { c with id := g.nextCohort, stamp := time, resume := none }
        { g with frags := g.frags.map fun f =>
                   if f.cohort = id && f.pc = p then { f with cohort := g.nextCohort } else f,
                 cohorts := g.cohorts ++ [new], nextCohort := g.nextCohort + 1 }
      more.foldl split g

/-- The run temporaries of a set of lanes are discarded (R15). -/
def Lanes.dropW (L : Lanes) (m : LaneSet) : Lanes := { L with w := L.w.filter fun p => !hasLane m (p.1 / 8) }

/-- The lanes whose run temporaries go with a cohort: those of its slices, but for lanes that another fragment of the slice
has active (R15, R403). -/
def Gang.ownLanes (g : Gang) (id : Nat) : LaneSet :=
  g.slicesOf id &&& ~~~(g.frags.filter fun f => f.cohort != id).foldl (fun m f => m ||| f.act) 0
/-- The cohort's fragments go on after its run, parted by packet; a REGANG in it gathers the cohort (R177). -/
def Gang.finishRun (g : Gang) (id after time : Nat) : Gang :=
  let fs := g.frags.filterMap fun f => if f.cohort = id then f.settle after else some f
  let g := g.modCohort id fun k => { k with gathered := k.gathered || k.regang, regang := false }
  { g with lanes := g.lanes.dropW (g.ownLanes id), frags := fs, started := true }.part id time

/-! ## Gathering (R144, R415) -/

/-- A fragment joins one of its slice, at its packet, whose stack names the same packets. -/
def mergeFrag : List Frag → Frag → List Frag
  | [], f => [f]
  | g :: gs, f =>
    if g.slice = f.slice && g.pc = f.pc && g.stack.map (·.1) == f.stack.map (·.1) then
      { g with act := g.act ||| f.act,
               stack := (g.stack.zip f.stack).map fun p => (p.1.1, p.1.2 ||| p.2.2) } :: gs
    else g :: mergeFrag gs f
/-- Every live slice is gathered, and none is away. -/
def Gang.canGather (g : Gang) : Bool := !g.cohorts.isEmpty && g.away.isEmpty && g.cohorts.all (·.gathered)
/-- The lowest cohort that stands at a packet. -/
def Gang.lowestAt (g : Gang) (pc : Nat) : Nat :=
  ((g.frags.filter fun f => f.pc == pc).map (·.cohort)).foldl Nat.min g.nextCohort
/-- The gathered slices form one cohort at each packet, and none remains gathered. -/
def Gang.gather (g : Gang) (time : Nat) : Gang :=
  let pcs := packetsOf g.frags
  let waits (pc : Nat) : List (Nat × Nat) :=
    (g.cohorts.filter fun c => g.frags.any fun f => f.cohort == c.id && f.pc == pc).flatMap (·.barWait)
  let cohort (pc : Nat) : Cohort :=
    { id := g.lowestAt pc, gathered := false, regang := false, barWait := waits pc, fenceAt := none, resume := none, stamp := time }
  let frags := g.frags.map fun f => { f with cohort := g.lowestAt f.pc }
  { g with frags := frags.foldl mergeFrag [], cohorts := pcs.map cohort }
/-- A gang gathers as soon as its condition holds: a run's end, or the last of its lanes that was away, has brought it about. -/
def Gang.gatherDue (g : Gang) (time : Nat) : Gang := if g.canGather then g.gather time else g

/-! ## Guests that end (R412, R414) -/

/-- The guest in place p leaves with the lanes that are left of it, as a return to its origin (R414). -/
def State.sendHome (s : State) (gid p pc word : Nat) (lanes : BitVec 4) : State :=
  let g := s.gang gid
  match g.guests[p]? with
  | none => s
  | some q =>
    let ply : Ply :=
      { task := g.task, origin := q.origin, slice := q.slice, all := q.all, lanes := lanes, hops := q.hops, xb := q.xb,
        base := q.base, allot := q.allot, pc := pc, word := word, src := gid, place := p, regs := [], preds := [], lstat := [], addrs := [], isReturn := true,
        refused := false, rcause := 0, dst := dieOf (s.gang q.origin).core }
    let s := s.setGang gid { g with guests := g.guests.set p { q with left := true, all := 0 } }
    if q.all = 0 then s else { s with departing := tabPut s.departing s.nextId ply }.bump
/-- Guests without a live lane return with none (R412), and a gang whose guests have all left ends. -/
def State.endGuests (s : State) (gid pc : Nat) : State :=
  let g := s.gang gid
  if g.guests.isEmpty then s
  else
    let gone (p : Nat) : Bool := g.frags.all fun f => f.slice != p
    let s := (List.range g.guests.length).foldl (fun s p =>
      match (s.gang gid).guests[p]? with
      | some q => if !q.left && gone p then s.sendHome gid p pc pc 0 else s
      | none => s) s
    let g := s.gang gid
    if g.guests.all (·.left) then s.setGang gid { g with status := .ended, cohorts := [], holds := [] } else s

/-- TRAIL (R43, R45, R143): holds, the parting of the cohort, the end of gangs, and the free slot. -/
def execTrail (d a b : Reg) : State → Host.Outcome State Fault Refusal :=
  word (.trail d a b) fun c _ s =>
    let s := { s with ops := holdOps c.run.id c.run.xb [d, a, b] s.ops }
    let s := s.modGang c.gid fun g => (g.finishRun c.run.cohort c.after s.time).gatherDue s.time
    .ok (((s.endRun c.slot).endIfDone c.gid).endGuests c.gid (c.after * 4))

end Sys2Proof.Machine
end

