-- ==== Sys2Proof/Machine/Depart.lean ====
section
/-! DEFINITION. Lanes that leave (R403 to R407): the division of a fragment and the ply that waits to depart. -/

namespace Sys2Proof.Machine

/-- The four lane places of a slice within a lane set. -/
def slicePart (m : LaneSet) (slice : Nat) : BitVec 4 := BitVec.ofNat 4 (m.toNat / 2 ^ (4 * slice))
def placeLanes (b : BitVec 4) (slice : Nat) : LaneSet := BitVec.ofNat 32 (b.toNat * 2 ^ (4 * slice))

/-- Lanes of a slice are away from their gang (R403). -/
def addAway (as : List Away) (slice : Nat) (m : LaneSet) : List Away :=
  match as with
  | [] => [{ slice := slice, lanes := m }]
  | a :: rest =>
    if a.slice = slice then { a with lanes := a.lanes ||| m } :: rest else a :: addAway rest slice m
/-- Lanes are back, or have ended away. -/
def dropAway (as : List Away) (slice : Nat) (m : LaneSet) : List Away :=
  (as.map fun a => if a.slice = slice then { a with lanes := a.lanes &&& ~~~m } else a).filter fun a => a.lanes != 0

/-- The register fields that travel, in ascending order (R407). -/
def travelling (migmask : Nat) : List Nat := (List.range 112).filter (nbit migmask)

/-- The hops the fragment at slice place p has taken. -/
def Ctx.hops (c : Ctx) (p : Nat) : Nat := match c.gang.guests[p]? with
  | some g => g.hops
  | none => 0

/-- Lanes m of the fragment at slice place p leave for a die (R404): they are away, not ended, and a ply waits. -/
def State.depart (s : State) (c : Ctx) (pc dst p : Nat) (m : LaneSet) (addr : Nat → Nat) : State :=
  let g := s.gang c.gid
  let own : Ply :=
    { task := g.task, origin := c.gid, slice := p, all := slicePart m p, lanes := slicePart m p, hops := 1,
      xb := g.xb, base := c.run.xb, allot := g.allot, pc := pc, word := codePtr c.run.base c.at, src := c.gid, place := p, regs := [], preds := [], lstat := [],
      addrs := (lanesIn m).map fun l => (l % 4, addr l), isReturn := false, refused := false, rcause := 0, dst := dst }
  let ply := match g.guests[p]? with
    | some q => { own with origin := q.origin, slice := q.slice, hops := q.hops + 1, xb := q.xb,
                           base := q.base, allot := q.allot }
    | none => own
  let cut (f : Frag) : Frag :=
    if f.cohort = c.run.cohort && f.slice = p then
      { f with act := f.act &&& ~~~m, stack := f.stack.map fun e => (e.1, e.2 &&& ~~~m) }
    else f
  let g := { g with frags := g.frags.map cut }
  let g := match g.guests[p]? with
    | some q => { g with guests := g.guests.set p { q with all := q.all &&& ~~~slicePart m p } }
    | none => { g with away := addAway g.away p m }
  let run := match tabFind s.runs c.slot with
    | some r => { r with act := r.act &&& ~~~m }
    | none => c.run
  let s := { s.setGang c.gid g with runs := tabPut s.runs c.slot run, departing := tabPut s.departing s.nextId ply }
  s.bump

/-- The lanes of a set leave, each for the die it names, fragment by fragment, the homes of a fragment in the order of their
lowest lane. -/
def State.departAll (s : State) (c : Ctx) (pc : Nat) (dests : List (Nat × Nat)) (addr : Nat → Nat) : State :=
  (List.range 8).foldl (fun s p =>
    let homes := (dests.filter fun d => d.1 / 4 == p).foldl (fun hs d => if hs.contains d.2 then hs else hs ++ [d.2]) []
    homes.foldl (fun s h =>
      let m := lanesOf ((dests.filter fun d => d.2 == h && d.1 / 4 == p).map (·.1))
      if m = 0 then s else s.depart c pc h p m addr) s) s

/-- The lowest lane that may not leave, its hops being spent (R405). -/
def Ctx.hopsSpent (c : Ctx) (dests : List (Nat × Nat)) : Option Nat :=
  (dests.map (·.1)).find? fun l => 15 ≤ c.hops (l / 4)

end Sys2Proof.Machine
end

