-- ==== Sys2Proof/Machine/Send.lean ====
section
/-! DEFINITION. Packets on their way (R376 to R384, R457): streams, tags, transmission, acknowledgements, and the
header and nonce of a packet. -/

namespace Sys2Proof.Machine

/-! ## Addresses in packets

A packet names a cell of its home by physical address. The model's number also says the window (bit 64), whether the page is UC
(bit 65) and the place (bits 66 and up), which the header of R378 has no field for (assumption log 11). -/

def Leaf.inPacket (l : Leaf) : Nat :=
  l.place * 2 ^ 66 + l.uc.toNat * 2 ^ 65 + l.win.toNat * 2 ^ 64 + l.pa
/-- The cell that lies `off` bytes above a packet's address, at its home. -/
def homeCell (die pa off : Nat) : Nat :=
  let a := pa % 2 ^ 64 + off
  if pa / 2 ^ 66 = 0 then tierCell die (nbit pa 64) a else cellKey die (pa / 2 ^ 66) a
def pktUc (pa : Nat) : Bool := nbit pa 65
/-- The cache policy that a packet's page has for its home's update (R209). -/
def pktCache (pa : Nat) : Nat := if pktUc pa then 2 else 0
def pktWin (pa : Nat) : Bool := nbit pa 64

/-! ## Kinds, engines, streams (R378, R379) -/

def kRadd : Nat := 0
def kRmin : Nat := 1
def kRmax : Nat := 2
def kRor : Nat := 3
def kRwo : Nat := 4
def kRarv : Nat := 5
def kRget : Nat := 6
def kReply : Nat := 7
def kPly : Nat := 9
def kArm : Nat := 10
def kAccclr : Nat := 11
def kResume : Nat := 12
def kColl : Nat := 13
/-- Numbers of the model's own for a fence notice and a distributor's report, which R378 gives no KIND: the header holds a free
value in their place (assumption log 17). -/
def kNotice : Nat := 32
def kReport : Nat := 33
def engDistributor : Nat := 64
/-- The host agent of a link. -/
def engLink (link : Nat) : Nat := 65 + link
def engHomeService : Nat := 67

def streamKey (sdie eng dst : Nat) : Nat := (sdie * 128 + eng) * 2 ^ 15 + dst
def Packet.stream (p : Packet) : Nat := streamKey p.sdie p.eng p.dst

/-- s precedes t as serial numbers of 42 bits (R379). -/
def seqBefore (s t : Nat) : Bool :=
  let d := (t + 2 ^ 42 - s % 2 ^ 42) % 2 ^ 42
  1 ≤ d && d < 2 ^ 41
/-- The earlier of two sequence numbers. -/
def seqEarlier (s t : Nat) : Nat := if seqBefore t s then t else s

/-- The tag of a packet (R379). -/
def tagOf (sdie eng seq : Nat) : Nat :=
  sdie / 8 % 4096 * 2 ^ 52 + sdie % 8 * 2 ^ 49 + eng % 128 * 2 ^ 42 + seq % 2 ^ 42

/-! ## The header flit (R378), the payload (R423) and the nonce (R457) -/

/-- Payload flits: entries of 16 bytes, granules of 32, a ply of 64 bytes and its registers (R423, R407). -/
def Packet.len (p : Packet) (travelling : Nat) : Nat :=
  match p.body with
  | .entries es => (es.length + 3) / 4
  | .granules gs => (gs.length + 1) / 2
  | .ply _ => 1 + (travelling + 3) / 4
  | _ => 0
/-- One entry of a commutative packet (R423): bytes 0..7 the operand, 8..9 the offset within the line, 10 the lane, the rest 0. -/
def entryBytes (e : Nat × Nat × Nat) : List Byte := leBytes 8 e.1 ++ leBytes 2 e.2.1 ++ leBytes 1 e.2.2 ++ leBytes 5 0
/-- The payload of a packet in ascending order; `plyImage` is that of a ply (R407). -/
def Packet.payload (p : Packet) (plyImage : List Byte) : List Byte := match p.body with
  | .entries es => es.flatMap entryBytes
  | .granules gs => gs.flatMap fun g => leBytes 32 g.1
  | .ply _ => plyImage
  | _ => []
/-- The KIND field: the table's number, and a free one of 0 to 13 for what the table does not number. -/
def Packet.kindField (p : Packet) : Nat := if p.kind < 14 then p.kind else (Config.freeKind p.kind).toNat % 14
/-- The header flit's bits [511:128]. -/
def Packet.header (p : Packet) (travelling : Nat) : Nat :=
  tagOf p.sdie p.eng p.seq * 2 ^ 448 + p.oldest % 2 ^ 42 * 2 ^ 406 + p.dst / 8 % 4096 * 2 ^ 394 + p.dst % 8 * 2 ^ 391 +
    p.vc % 8 * 2 ^ 388 + p.kindField * 2 ^ 383 + p.len travelling % 16 * 2 ^ 379 + p.opq % 256 * 2 ^ 371 +
    p.pa % 2 ^ 64 * 2 ^ 307 + p.aux % 2 ^ 64 * 2 ^ 243 + p.aux2 % 2 ^ 64 * 2 ^ 179 + p.wrap % 2 ^ 16 * 2 ^ 163
/-- The header flit of an acknowledgement (R378, R383). -/
def Ack.header (a : Ack) : Nat :=
  tagOf a.sdie a.eng a.seq * 2 ^ 448 + a.sdie / 8 % 4096 * 2 ^ 394 + a.sdie % 8 * 2 ^ 391 + 8 * 2 ^ 383 +
    a.status % 256 * 2 ^ 371 + a.wrap % 2 ^ 16 * 2 ^ 163
/-- The 96-bit nonce: the tag, the die at the other end, whether an acknowledgement, WRAP. -/
def nonceOf (sdie eng seq rdie wrap : Nat) (ack : Bool) : Nat :=
  sdie / 8 % 4096 * 2 ^ 84 + sdie % 8 * 2 ^ 81 + eng % 128 * 2 ^ 74 + rdie / 8 % 4096 * 2 ^ 62 + rdie % 8 * 2 ^ 59 +
    ack.toNat * 2 ^ 58 + wrap % 2 ^ 16 * 2 ^ 42 + seq % 2 ^ 42
def Packet.nonce (p : Packet) : Nat := nonceOf p.sdie p.eng p.seq p.dst p.wrap false
def Ack.nonce (a : Ack) : Nat := nonceOf a.sdie a.eng a.seq a.src a.wrap true
/-- The ICV of a flit: the AES-256-GCM tag over the header's other bits and the payload, 0 in clear (R378, R457). -/
def icvOf (keyGen key nonce header : Nat) (payload : List Byte) : Nat :=
  if keyGen = 0 then 0 else Config.gcmTag key nonce (header / 2 ^ 128) payload % 2 ^ 128
/-- The payload flits as they travel: encrypted, or in clear (R457). -/
def cipherOf (keyGen key nonce : Nat) (payload : List Byte) : List Byte :=
  if keyGen = 0 then payload else Config.gcmCipher key nonce payload
/-- A packet as it travels: the header flit with its ICV, and the payload. -/
def Packet.flits (p : Packet) (travelling : Nat) (plyImage : List Byte) : Nat × List Byte :=
  (p.header travelling + icvOf p.keyGen p.key p.nonce (p.header travelling) (p.payload plyImage),
    cipherOf p.keyGen p.key p.nonce (p.payload plyImage))
/-- An acknowledgement as it travels. -/
def Ack.flit (a : Ack) : Nat := a.header + icvOf a.keyGen a.key a.nonce a.header []

/-! ## Keys (R455 to R457) -/

/-- The key generation under which a packet from one die to another is protected: 0 in clear. -/
def State.keyFor (s : State) (src dst : Nat) : Nat :=
  if pkgOf src = pkgOf dst then 0
  else if (s.pkg (pkgOf src)).trust = 1 then (s.pkg (pkgOf src)).gen else 0
/-- The participant of the generation that package p holds which owns package n, unless it is revoked. -/
def Pkg.owner (p : Pkg) (n : Nat) : Option Nat :=
  (p.parts.find? fun q => q.members.contains n && !p.revoked.contains q.index).map (·.index)
/-- A package is a member of the generation that package p holds, and its participant is not revoked. -/
def Pkg.member (p : Pkg) (n : Nat) : Bool := p.parts.any fun q => q.members.contains n && !p.revoked.contains q.index
/-- The traffic key that package p holds for the participant of package n (R455, R457). -/
def Pkg.trafficKey (p : Pkg) (n : Nat) : Nat := match p.owner n with
  | some k => tabGet p.keys 0 k
  | none => 0
/-- The traffic key that protects a packet from one die to another, 0 in clear. -/
def State.sendKey (s : State) (src dst : Nat) : Nat :=
  if s.keyFor src dst = 0 then 0 else (s.pkg (pkgOf src)).trafficKey (pkgOf src)
/-- The die accepts what another die protected with traffic key `key` of generation k: it authenticates under the key that the
die's package holds for the sender's participant (R457, R458). -/
def State.accepts (s : State) (src dst k key : Nat) : Bool :=
  let p := s.pkg (pkgOf dst)
  pkgOf src == pkgOf dst ||
    (if p.trust = 1 then k == p.gen && p.member (pkgOf src) && key == p.trafficKey (pkgOf src) else k == 0)
/-- What the die discards, whoever authenticates it: packets from a die it knows fenced (R398, R458). -/
def State.ignores (s : State) (src dst : Nat) : Bool :=
  (pkgOf src == pkgOf dst && (s.die dst).fencedMask.getLsbD (src % 8)) ||
    (s.pkg (pkgOf dst)).fencedPkgs.contains (pkgOf src)
/-- The fence proxy answers for the home (R398, R458). -/
def State.proxied (s : State) (src dst : Nat) : Bool :=
  (s.die dst).fenced || (s.pkg (pkgOf src)).fencedPkgs.contains (pkgOf dst)

/-! ## Sending (R379, R380, R382) -/

def Packet.blank : Packet :=
  { sdie := 0, eng := 0, seq := 0, oldest := 0, wrap := 0, dst := 0, vc := 2, kind := 0, opq := 0, pa := 0, aux := 0,
    aux2 := 0, body := .none, keyGen := 0, key := 0 }

/-- The packets of a stream that have been transmitted and not acknowledged. -/
def State.inStream (s : State) (k : Nat) : List Unacked := s.unacked.filter fun u => u.sent && u.pkt.stream == k
/-- The unacknowledged packet in place i may be transmitted: 4,096 of a stream at once, none before an older one of its stream,
and no wrap beyond 2^16 − 1 under one generation (R380, R457). -/
def State.mayTransmit (s : State) (i : Nat) : Bool :=
  match s.unacked[i]? with
  | none => false
  | some u => u.sent ||
    ((s.inStream u.pkt.stream).length < 4096 && u.pkt.wrap < 65536 &&
      (s.unacked.take i).all fun v => v.sent || v.pkt.stream != u.pkt.stream)
/-- Transmit the packet in place i: OLDEST is taken the first time, the keys each time. -/
def State.transmit (s : State) (i : Nat) : State :=
  match s.unacked[i]? with
  | none => s
  | some u =>
    let oldest := (s.inStream u.pkt.stream).foldl (fun a x => seqEarlier a x.pkt.seq) u.pkt.seq
    let p := { u.pkt with oldest := if u.sent then u.pkt.oldest else oldest, keyGen := s.keyFor u.pkt.sdie u.pkt.dst,
                            key := s.sendKey u.pkt.sdie u.pkt.dst }
    { s with unacked := s.unacked.set i { u with pkt := p, sent := true }, flight := s.flight ++ [p] }
/-- A packet takes its number in its stream and is transmitted, if its stream has room. -/
def State.send (s : State) (p : Packet) (op gang : Option Nat) (lanes : LaneSet) (job : Option Nat) : State :=
  let k := p.stream
  let seq := tabGet s.seqs 0 k
  let wrap := tabGet s.wraps 0 k
  let last := seq + 1 == 2 ^ 42
  let wraps := if last && (s.pkg (pkgOf p.sdie)).trust == 1 then tabPut s.wraps k (wrap + 1) else s.wraps
  let q : Packet := { p with seq := seq, wrap := wrap }
  let u : Unacked := { pkt := q, sent := false, op := op, gang := gang, lanes := lanes, also := 0, job := job }
  let i := s.unacked.length
  let s := { s with seqs := tabPut s.seqs k (if last then 0 else seq + 1), wraps := wraps, unacked := s.unacked ++ [u] }
  if s.mayTransmit i then s.transmit i else s

/-- The acknowledgement of a packet leaves a die (R383). -/
def State.sendAck (s : State) (p : Packet) (src status : Nat) : State :=
  let a : Ack :=
    { src := src, home := p.dst, sdie := p.sdie, eng := p.eng, seq := p.seq, wrap := p.wrap, status := status,
      keyGen := s.keyFor src p.sdie, key := s.sendKey src p.sdie }
  { s with acks := s.acks ++ [a] }

/-! ## Waiting for acknowledgements -/

/-- A packet of an operation is not acknowledged. -/
def State.opUnacked (s : State) (id : Nat) : Bool := s.unacked.any fun u => u.op == some id
/-- An operation that waits for acknowledgements alone. -/
def OpKind.waits : OpKind → Bool
  | .remote | .armWait _ => true
  | _ => false
/-- An operation leaves the rm class once it has nothing left to send and nothing unacknowledged (R107, R421). -/
def State.rmSettle (s : State) (id : Nat) : State :=
  match tabFind s.ops id with
  | none => s
  | some o =>
    if o.kind.waits && o.accs.all (·.done) && !s.opUnacked id then { s with ops := tabDel s.ops id } else s

/-- The equivalent of RFENCE for what a gang issued before operation id (R393, R175): acknowledged, sent and performed. -/
def State.fenceDone (s : State) (gid id : Nat) : Bool :=
  (s.unacked.all fun u => u.gang != some gid || match u.op with
    | some o => id ≤ o
    | none => false) &&
  s.ops.all fun p => id ≤ p.1 || p.2.gang != gid || match p.2.kind with
    | .store _ | .stfe | .atom _ _ _ | .bufAtom _ _ _ | .launch | .bcw | .fence _ => p.2.accs.all (·.done)
    | .tstore _ _ _ _ | .rsend _ _ _ _ _ | .armWait _ | .eretWait => false
    | _ => true

/-! ## What a core's remote unit sends for a word (R423, R426, R434) -/

/-- A packet of a core's remote unit. -/
def Op.packet (o : Op) (dst vc kind opq pa : Nat) (body : Payload) : Packet :=
  { Packet.blank with sdie := dieOf o.core, eng := o.core % 64, dst := dst, vc := vc, kind := kind, opq := opq, pa := pa,
                      body := body }
/-- One range of granules: its lanes, its peer, its address there, its data. -/
structure Chunk where
  lanes : LaneSet
  dst : Nat
  pa : Nat
  data : List Nat
  deriving DecidableEq, Repr

/-- A lane's range joins the one before it towards the same peer where they meet and fit (R423). -/
def joinChunks : List Chunk → List Chunk
  | [] => []
  | c :: cs =>
    match joinChunks cs with
    | [] => [c]
    | d :: ds =>
      if c.dst = d.dst && c.pa + 32 * c.data.length = d.pa && c.data.length + d.data.length ≤ 16 then
        { c with lanes := c.lanes ||| d.lanes, data := c.data ++ d.data } :: ds
      else c :: d :: ds
/-- The distinct peers of a list of ranges, in order. -/
def peersOf (cs : List Chunk) : List Nat := cs.foldl (fun ds c => if ds.contains c.dst then ds else ds ++ [c.dst]) []

/-- The ranges that a RWO or COLL has read. -/
def Op.chunks (o : Op) (dests : List (Nat × Nat × Nat)) : List Chunk :=
  dests.map fun d =>
    { lanes := lanesOf [d.1], dst := d.2.1, pa := d.2.2,
      data := (o.accs.filter fun a => a.lane == d.1).map (·.got) }

/-- The other lanes of a word that send other data to a granule that a range names too (R435). -/
def Chunk.rivals (c : Chunk) (cs : List Chunk) : LaneSet :=
  let grains (c : Chunk) : List (Nat × Nat) := ((List.range c.data.length).zip c.data).map fun p => (c.pa + 32 * p.1, p.2)
  let differ (d : Chunk) : Bool := d.dst == c.dst && (grains c).any fun x => (grains d).any fun y => x.1 == y.1 && x.2 != y.2
  cs.foldl (fun m d => if differ d then m ||| d.lanes else m) 0
/-- The packet sent last shares a conflict with these lanes. -/
def State.shareConflict (s : State) (also : LaneSet) : State :=
  if also = 0 then s
  else
    let i := s.unacked.length - 1
    { s with unacked := match s.unacked[i]? with
        | some u => s.unacked.set i { u with also := also }
        | none => s.unacked }
/-- The granules of a RWO or COLL leave, all of them read (R426, R434). -/
def State.sendGranules (s : State) (id : Nat) (o : Op) : State :=
  match o.kind with
  | .rsend vc _ coll arv dests =>
    let cs := o.chunks dests
    let cs := if coll && !arv then (peersOf cs).flatMap fun d => joinChunks (cs.filter fun c => c.dst == d) else cs
    let one (s : State) (c : Chunk) : State :=
      (s.send (o.packet c.dst vc (if coll then kColl else kRwo) (c.data.length - 1 + 16 * arv.toNat) c.pa
        (.granules (c.data.map fun x => (x, false)))) (some id) (some o.gang) c.lanes none).shareConflict (c.rivals cs)
    let s := { s with ops := tabMod s.ops id fun x => { x with kind := .remote } }
    (cs.foldl one s).rmSettle id
  | _ => s

/-- ARM in one lane, its fence complete (R175): an arming of the TCB it names. -/
def State.armLane (s : State) (id : Nat) (o : Op) (lane : Nat) : State :=
  match o.kind with
  | .armWait addrs =>
    match addrs.find? fun a => a.1 == lane with
    | some (_, dst, pa, va) =>
      s.send (o.packet dst 2 kArm 0 pa (.arm va)) (some id) (some o.gang) (lanesOf [lane]) none
    | none => s
  | _ => s

/-- ERET, its record read (R355): the resume leaves for the die of the gang that the record's token names, if one is held
at it. -/
def State.sendResume (s : State) (id : Nat) (o : Op) : State :=
  match o.kind with
  | .eretWait =>
    let rec1 := (o.accs.map (·.got)).foldr (fun x v => x + 2 ^ 512 * v) 0
    let f (off n : Nat) : Nat := rec1 / 256 ^ off % 256 ^ n
    let token := f 0x40 8
    match s.gangs.find? fun p => p.2.holds.any fun h => h.token == token with
    | none => { s with ops := tabDel s.ops id }
    | some (_, g) =>
      let s := { s with ops := tabMod s.ops id fun x => { x with kind := .remote } }
      s.send (o.packet (dieOf g.core) 2 kResume 0 0 (.resume token (f 0x34 1) (f 0x38 4) (f 0x24 4)))
        (some id) (some o.gang) 0 none
  | _ => s

end Sys2Proof.Machine
end

