-- ==== Sys2Proof/Machine/Access.lean ====
section
/-! DEFINITION. Accesses: the checks of a flat word at issue (R105, R198, R244, R404), outstanding operations, and how the
memory system performs an access (R220 to R257), with the traps it finds only then. -/

namespace Sys2Proof

def Order.acquires (o : Order) : Bool := o == .acq || o == .acqrel
def Order.releases (o : Order) : Bool := o == .rel || o == .acqrel
/-- A scope wider than a core (R221). -/
def Scope.wide (scope : Scope) : Bool := scope == .d || scope == .s

end Sys2Proof

namespace Sys2Proof.Machine

/-! ## Device updates at a home -/

/-- A cell of a stack or of a port that has been fenced: it answers with poison, and discards writes (R479). -/
def State.cellFenced (s : State) (cell : Nat) : Bool :=
  let d := s.die (cellDie cell)
  if cellPlace cell = 0 then d.stackFenced.contains (blStack (cellAddr cell)) else d.tierFenced && cellPlace cell == 1

/-- A write that the step window discards (R317). -/
def State.dropWrite (s : State) (cell : Nat) : State :=
  s.setChannel (cellDie cell) (blChannel (cellAddr cell)) { s.channelOf cell with drop := true }

/-- n bytes at their home, every store at die level included: what a device's own update reads. -/
def State.homeBytes (s : State) (cell n : Nat) : List Byte :=
  (List.range n).map fun i =>
    match pendingByte s.pending Pending.atDie (cell + i) with
    | some b => b
    | none => memGet s.mem (cell + i)
def State.homeNat (s : State) (cell n : Nat) : Nat := leNat (s.homeBytes cell n)
/-- A device's own update at a home: the slice recalls the range, and the cells are written (R303). -/
def State.homeStore (s : State) (cell : Nat) (bytes : List Byte) : State :=
  if s.cellFenced cell then s else if s.inStep cell then s.dropWrite cell else s.storeHome cell bytes
/-- A write that software asks for, made at the home in the same way: fields of the device's own keep what R8 says. -/
def State.askedStore (s : State) (cell : Nat) (bytes : List Byte) : State :=
  if s.cellFenced cell then s else if s.inStep cell then s.dropWrite cell else s.storeAsked cell bytes

/-- Poison counts outside the step window alone. -/
def State.poisonedFor (s : State) (v : Viewer) (cell n : Nat) : Bool :=
  s.cellFenced cell || (!s.inStep cell && s.poisonSeen v cell n)
def State.poisonedAt (s : State) (cell n : Nat) : Bool := s.poisonedFor .die cell n

/-- The cache policy that holds for a cell: a channel in promotion mode makes its range UC (R209). -/
def State.policyAt (s : State) (cache cell : Nat) : Nat := if s.promoted cell then 2 else cache

/-- A store at a scope (R209, R221): in the L1 of its core where it is for the core alone and the page lets the L1 hold it; in
the L2; in the home memory for a UC page; a store of system scope goes on to the cells, where the host sees it. -/
def State.store (s : State) (core : Option Nat) (scope : Scope) (cache : Nat) (win : Bool) (cell : Nat)
    (bytes : List Byte) (m : Maker) : State :=
  if s.cellFenced cell then s
  else if s.inStep cell then s.dropWrite cell
  else if s.policyAt cache cell = 2 then s.storeUc win cell bytes m
  else
    let far (s : State) : State :=
      let s := s.storeDie core win cell bytes m
      if scope == .s then s.toCells fun p => p.win == win && p.overlaps cell bytes.length else s
    match core with
    | some c => if !scope.wide && cache = 0 then s.storeCore c win cell bytes m else far s
    | none => far s
/-- What a load finds before it reads: the home memory brought up to date for a page that no cache holds, and no clean copy in
its L1 for a load of die or system scope (R209, R236). -/
def State.beforeLoad (s : State) (core : Nat) (scope : Scope) (cache : Nat) (win : Bool) (cell n : Nat) : State :=
  if s.inStep cell then s
  else if s.policyAt cache cell = 2 then s.recallThrough win cell n
  else if scope.wide then s.dropL1 (· == core) fun c => c.win == win && c.meets cell n
  else s
/-- What a load leaves behind: the sectors it has filled (R207). -/
def State.afterLoad (s : State) (core : Nat) (cache : Nat) (win : Bool) (cell n : Nat) : State :=
  if s.inStep cell then s else s.fillFor (some core) (s.policyAt cache cell) win cell n

/-! ## The tempo (R198) -/

/-- Some byte of an access lies in a tempo range of the task. -/
def Task.inTempo (t : Task) (l : Leaf) (va n : Nat) : Bool :=
  l.tempo || t.tcb.tempoRanges.any fun r => r.1 < va + n && va ≤ r.2
/-- A store that traps TEMPOVIOL. -/
def State.tempoViol (s : State) (g : Gang) (l : Leaf) (va n : Nat) : Bool :=
  let t := s.task g.task
  t.tcb.det && t.inTempo l va n && !s.holdsTempo g

/-! ## The checks of a flat word at issue -/

/-- What the checks find in one lane: the page at hand, another die's page the lane leaves for, or the order of the
check that fails and its trap. -/
inductive Found where
  | here (l : Leaf)
  | away (die : Nat)
  | fails (order : Nat) (f : Fail)
  deriving DecidableEq, Repr

/-- A page homed elsewhere lets lanes leave for it (R360). -/
def Leaf.migrates (l : Leaf) (t : Task) : Bool := l.policy == 1 || (l.policy == 2 && t.tcb.mig)

/-- What a flat word checks: the rights it needs, its alignment, whether a page homed elsewhere lets lanes leave,
whether it needs the tempo in a tempo range, whether no two lanes may name one address, and whether the order of the
checks comes before the order of the lanes (R244) or after it (R105). -/
structure Checks where
  need : Need
  align : Nat
  leaves : Bool
  tempo : Bool
  dups : Bool
  strong : Bool
  deriving DecidableEq, Repr

/-- The order of a check that translation fails (R105, R244); a walk that waits comes before all others. -/
def Fail.order (f : Fail) : Nat := if f = failWait then 0 else if f.code = tcPageFault then 4 else 3
/-- The checks of R105, in the order of R244: 1 alignment, 3 access, 4 translation, 5 home, 6 tempo. -/
def Ctx.found (c : Ctx) (s : State) (k : Checks) (size va : Nat) : Found :=
  if va % k.align != 0 then .fails 1 (failOf tcMisalign)
  else
    match s.coreTranslate c.core va size k.need with
    | .error f => .fails f.order f
    | .ok l =>
      if l.die != c.die then
        (if k.leaves && l.migrates (c.task s) then .away l.die else .fails 5 (failOf tcRemote))
      else if k.tempo && s.tempoViol c.gang l va size then .fails 6 (failOf tcTempoViol)
      else .here l

/-- A lane, its address and what the checks find. -/
abbrev LaneFound := Nat × Nat × Found

def failsOf (fs : List LaneFound) : List (Nat × Nat × Nat × Fail) :=
  fs.filterMap fun p => match p.2.2 with
    | .fails o f => some (p.1, p.2.1, o, f)
    | _ => none
def awaysOf (fs : List LaneFound) : List (Nat × Nat) :=
  fs.filterMap fun p => match p.2.2 with
    | .away d => some (p.1, d)
    | _ => none
def leavesOf (fs : List LaneFound) : List (Nat × Nat × Leaf) :=
  fs.filterMap fun p => match p.2.2 with
    | .here l => some (p.1, p.2.1, l)
    | _ => none

/-- The trap that a list of failures names: by order and then lane for a strong access or a remote word (R244, R421, R422), by
lane for a plain one (R105). -/
def pickFail (strong : Bool) (fs : List (Nat × Nat × Nat × Fail)) : Option Trap :=
  let fs := if strong then sortBy (fun x y => x.2.2.1 < y.2.2.1 || (x.2.2.1 == y.2.2.1 && x.1 ≤ y.1)) fs else fs
  fs.head?.map fun p => Trap.of p.2.2.2 (some p.1) p.2.1

/-- Two performing lanes name one address (R244, order 2). -/
def dupFails (fs : List LaneFound) : List (Nat × Nat × Nat × Fail) :=
  (fs.filter fun p => fs.any fun q => q.1 != p.1 && q.2.1 == p.2.1).map fun p => (p.1, p.2.1, 2, failOf tcAddrDup)

/-- The queue entries of lanes that do not perform after all stay (R49). -/
def Gang.unpop (g old : Gang) (m : LaneSet) : Gang :=
  let back (new was : Tab (List Word)) : Tab (List Word) :=
    (lanesIn m).foldl (fun t l => tabPut t l (tabGet was [] l)) new
  if g.q0 == old.q0 && g.q1 == old.q1 && g.q2 == old.q2 then g
  else { g with q0 := back g.q0 old.q0, q1 := back g.q1 old.q1, q2 := back g.q2 old.q2 }

/-- A flat word of one access in each performing lane: check, let lanes leave, and perform for the rest (R105, R244, R404). -/
def Ctx.flat (c : Ctx) (s : State) (k : Checks) (size : Nat) (addr : Nat → Nat) (perf : LaneSet)
    (go : Ctx → LaneSet → List (Nat × Nat × Leaf) → State → State) : Except Trap State :=
  let fs : List LaneFound := (lanesIn perf).map fun l => (l, addr l, c.found s k size (addr l))
  let fails := failsOf fs ++ (if k.dups then dupFails fs else [])
  let aways := awaysOf fs
  if aways.isEmpty || fails.any fun f => f.2.2.1 < 6 then
    match pickFail k.strong fails with
    | some t => .error t
    | none => .ok (go c perf (leavesOf fs) s)
  else
    match c.hopsSpent aways with
    | some l => .error (Trap.of (failOf tcMigHops) (some l) (addr l))
    | none =>
      let gone := lanesOf (aways.map (·.1))
      let s1 := (s.modGang c.gid fun g => g.unpop c.gang gone).departAll c (codePtr c.run.base c.at) aways addr
      let c1 := { c with run := (tabFind s1.runs c.slot).getD c.run }
      match pickFail k.strong fails with
      | some t => .ok ((s1.modGang c.gid fun g => g.unpop c.gang perf).takeTrap c1 (perf &&& ~~~gone) t)
      | none => .ok (go c1 (perf &&& ~~~gone) (leavesOf fs) s1)

/-! ## Longer ranges, page by page -/

/-- The pieces of n bytes at an address, each within 64 KiB. -/
def pieces : Nat → Nat → Nat → List (Nat × Nat)
  | 0, _, _ => []
  | fuel + 1, va, n =>
    if n = 0 then []
    else
      let k := Nat.min n (2 ^ 16 - va % 2 ^ 16)
      (va, k) :: pieces fuel (va + k) (n - k)
/-- What the checks find for each piece of a lane's range. -/
def Ctx.rangeFound (c : Ctx) (s : State) (k : Checks) (l va n : Nat) : List (LaneFound × Nat) :=
  (pieces (pagesFor n) va n).map fun p => ((l, p.1, c.found s k p.2 p.1), p.2)
def Seg.ofLeaf (va n : Nat) (l : Leaf) : Seg := { va := va, cell := l.cell, win := l.win, cache := l.cache, n := n, level := l.level }
/-- The contiguous cells of n bytes that a leaf holds. -/
def Leaf.segs (va n : Nat) (l : Leaf) : List Seg :=
  (l.cut n).map fun p => Seg.ofLeaf (va + (p.1.pa - l.pa)) p.2 p.1
/-- The pieces that lane l has at hand. -/
def segsOf (l : Nat) (fs : List (LaneFound × Nat)) : List Seg :=
  fs.flatMap fun p => match p.1.2.2 with
    | .here leaf => if p.1.1 = l then leaf.segs p.1.2.1 p.2 else []
    | _ => []

def State.segBytes (s : State) (v : Viewer) (segs : List Seg) : List Byte :=
  segs.flatMap fun g => s.readBytes v g.win g.cell g.n
/-- Poison in pieces as a core's engines see it (R219, R245). -/
def State.segsPoisoned (s : State) (core : Nat) (segs : List Seg) : Bool :=
  segs.any fun g => s.poisonedFor (.core core) g.cell g.n
/-- Some cell of n bytes is held: channels and rows do not change within a line. -/
def State.cellsHeld (s : State) (cell n : Nat) : Bool :=
  (List.range ((cell % 512 + n + 511) / 512)).any fun i => s.heldCell (Nat.max cell (cell / 512 * 512 + 512 * i))
def State.segsHeld (s : State) (segs : List Seg) : Bool := segs.any fun g => s.cellsHeld g.cell g.n
/-- What a store of an engine's bytes is made of: granule by granule for a tile transfer (R227), else whole. -/
def unitsOf (granules : Bool) : Nat → Nat → List Byte → List (Nat × List Byte)
  | 0, _, _ => []
  | fuel + 1, cell, bs =>
    if bs.isEmpty then []
    else
      let k := if granules then 32 - cell % 32 else bs.length
      (cell, bs.take k) :: unitsOf granules fuel (cell + k) (bs.drop k)
/-- Store bytes over pieces, in ascending order. -/
def State.segStore (s : State) (core : Nat) (scope : Scope) (granules : Bool) (m : Maker) : List Seg → List Byte → State
  | [], _ => s
  | g :: gs, bs =>
    let put (s : State) (u : Nat × List Byte) : State := s.store (some core) scope g.cache g.win u.1 u.2 m
    ((unitsOf granules (g.n / 32 + 2) g.cell (bs.take g.n)).foldl put s).segStore core scope granules m gs (bs.drop g.n)
/-- The piece of k bytes that begins at byte j of a list of pieces; it lies in one of them. -/
def segPart (j k : Nat) : List Seg → List Seg
  | [] => []
  | g :: gs => if j < g.n then [{ g with va := g.va + j, cell := g.cell + j, n := Nat.min k (g.n - j) }] else segPart (j - g.n) k gs
/-- A part of an operation that has been done before the rest (R227, R239): in a lane, 32 for none, part n, with what it read. -/
def Acc.part (lane n got : Nat) (poison : Bool) : Acc :=
  { lane := lane, space := .scratch, addr := n, va := 0, size := 0, data := 0, got := got, done := true, early := false,
    poison := poison, cache := 0 }
def Op.part? (o : Op) (lane n : Nat) : Option Acc := o.accs.find? fun a => a.lane == lane && a.addr == n
def State.addPart (s : State) (id : Nat) (a : Acc) : State :=
  { s with ops := tabMod s.ops id fun o => { o with accs := o.accs ++ [a] } }
/-- An engine's own stores: the units of one word are those of R227; a copy of core scope stays out of a barrier's edge (R232). -/
def engMaker (id : Nat) (o : Op) (lane : Nat) (copy : Bool) : Maker :=
  { op := id, gang := o.gang, lane := lane, copy := copy && !o.scope.wide, own := false }

/-! ## Operations (R107) -/

/-- File an operation of the issuing word. -/
def State.addOp (s : State) (c : Ctx) (perf : LaneSet) (kind : OpKind) (cls : Cls) (ord : Order) (scope : Scope)
    (dest : Option Dest) (accs : List Acc) : State :=
  let o : Op :=
    { kind := kind, cls := cls, gang := c.gid, block := c.gang.block, core := c.core,
      slices := (s.gang c.gid).slicesOf c.run.cohort, active := perf, pc := codePtr c.run.base c.at,
      cohort := c.run.cohort, run := c.run.id, word := s.nextId, batch := [], ord := ord, scope := scope, dest := dest, held := [], accs := accs,
      began := false, abandoned := false, fromTrap := false }
  { s with ops := tabPut s.ops s.nextId o }.bump

/-- The outstanding operations of a class in a slice, one for each word (R107). -/
def State.classWords (s : State) (gid slice : Nat) (c : Cls) : List Nat :=
  s.ops.foldl (fun ws p =>
    if p.2.gang = gid && p.2.cls = c && p.2.slices &&& sliceLanes slice != 0 then insNat ws p.2.word else ws) []
/-- An outstanding operation that a save has not abandoned (R316, R367). -/
def State.liveOp (s : State) (id : Nat) : Option Op := (tabFind s.ops id).filter fun o => !o.abandoned
/-- A register destination of `size` bytes (R243). -/
def Ctx.dest (c : Ctx) (d : Reg) (size : Nat) (sx : Bool) : Option Dest :=
  some { first := c.run.xb + d.toNat, count := (size + 3) / 4, width := size, sx := sx }

/-- An access to flat memory. -/
def Acc.flat (lane va size data : Nat) (l : Leaf) : Acc :=
  { lane := lane, space := .flat l.win, addr := l.cell, va := va, size := size, data := data, got := 0, done := false,
    early := false, poison := false, cache := l.cache, level := l.level }
/-- The ordering effect in a lane that does not perform (R257). -/
def Acc.fence (lane : Nat) : Acc :=
  { lane := lane, space := .scratch, addr := 0, va := 0, size := 0, data := 0, got := 0, done := false,
    early := false, poison := false, cache := 0 }
/-- Ordering effects in the active lanes outside m, for an order that is not relaxed. -/
def Ctx.fences (c : Ctx) (ord : Order) (m : LaneSet) : List Acc :=
  if ord == .rlx then [] else (lanesIn (c.run.act &&& ~~~m)).map Acc.fence

/-! ## When an access may be performed (R225) -/

/-- Two accesses of one lane touch a common byte. -/
def Acc.meets (a b : Acc) : Bool :=
  a.space == b.space && a.size != 0 && b.size != 0 && a.addr < b.addr + b.size && b.addr < a.addr + a.size
/-- No higher lane of a store has yet to write a byte that lane a stores to (R104): the lane then finds its byte at the
final value. -/
def Op.lowerMay (o : Op) (a : Acc) : Bool := match o.kind with
  | .store _ | .bcw => o.accs.all fun b => b.done || b.lane ≤ a.lane || !b.meets a
  | _ => true
/-- A store, an atomic among them: what a release fence holds back, where the fence is the ordering effect of a lane (R257). -/
def OpKind.isStore : OpKind → Bool
  | .store _ | .stfe | .bcw | .atom _ _ _ | .bufAtom _ _ _ | .launch => true
  | _ => false
/-- An access that reads nothing: what an acquire fence does not wait for. An atomic reads, and so does a LAUNCH (R230). -/
def OpKind.onlyStores : OpKind → Bool
  | .store _ | .stfe | .bcw => true
  | _ => false
/-- Access b of the earlier operation p is ordered before access a of operation o, of the same lane (R225). A release fence
is ordered before the stores that follow it, an acquire fence after the loads before it, as Example 11.3 takes them
(DEDUCED, assumption log 42). -/
def orderedPair (p : Op) (b : Acc) (o : Op) (a : Acc) : Bool :=
  p.ord.acquires || b.meets a || o.ord.releases ||
    (b.size == 0 && p.ord.releases && o.kind.isStore) || (a.size == 0 && o.ord.acquires && !p.kind.onlyStores)
/-- A store that only its gang sees happens before access a of operation id in another lane, by an acquire of that lane, and a
may not come before it: a touches its bytes, or releases it to others than the gang (R229, R233, R237). -/
def Acc.seenBefore (b : Acc) (id : Nat) (o : Op) (a : Acc) : Bool :=
  b.early && (match tabFind b.seen a.lane with
    | some k => k < id
    | none => false) && (b.meets a || (o.ord.releases && o.scope != .g))
/-- A step of the bank units: an ordered store to the step window, whose lanes are column accesses of their own (R317). -/
def State.stepStore (s : State) (o : Op) (a : Acc) : Bool :=
  o.kind == .store true && a.size != 0 && s.inStep a.addr && match a.space with
    | .flat _ => true
    | _ => false
/-- Everything that is ordered before access a of operation id has been performed (R225, R233): for a release of gang scope it
is enough that the gang sees it (R221). -/
def State.accReady (s : State) (id : Nat) (o : Op) (a : Acc) : Bool :=
  (o.lowerMay a || s.stepStore o a) && s.ops.all fun p => p.2.gang != o.gang ||
    p.2.accs.all fun b => b.done || (!b.seenBefore id o a &&
      (id ≤ p.1 || b.lane != a.lane || !orderedPair p.2 b o a ||
        (b.early && o.scope == .g && !p.2.ord.acquires && !b.meets a)))

/-! ## Atomics (R252) -/

end Sys2Proof.Machine

namespace Sys2Proof

open Machine

/-- The word's width in bytes. -/
def AtomTy.bytes (t : AtomTy) : Nat := if t.is64 then 8 else 4

def AtomTy.int : AtomTy → IntTy
  | .i32 => .i32
  | .n32 => .n32
  | .i64 => .i64
  | _ => .n64
/-- The format of an element of a float atomic, and whether the word packs two. -/
def AtomTy.fmt : AtomTy → Fmt
  | .f64 => fp64
  | .bf16x2 => fbf16
  | .f16x2 => fp16
  | _ => fp32
def AtomTy.packed : AtomTy → Bool
  | .bf16x2 | .f16x2 => true
  | _ => false

end Sys2Proof

namespace Sys2Proof.Machine

/-- The new value of a word m under an operand x; for CAS x holds the comparand below the new value (R252). -/
def atomNew (op : AtomOp) (ty : AtomTy) (m x : Nat) : Nat :=
  let w := if ty.is64 then 64 else 32
  let smaller := decide (ty.int.val x < ty.int.val m)
  match op with
  | .add => (m + x) % 2 ^ w
  | .min => if smaller then x else m
  | .max => if smaller then m else x
  | .and => Nat.land m x
  | .or => Nat.lor m x
  | .xor => Nat.xor m x
  | .exch => x % 2 ^ w
  | .cas => if m = x % 2 ^ w then x / 2 ^ w % 2 ^ w else m
  | .fadd =>
    let f := ty.fmt
    let e (v i : Nat) := f.value (v / 2 ^ (16 * i) % 2 ^ f.width)
    let r (i : Nat) := (f.add (.to .rne) (e m i) (e x i)).1
    if ty.packed then r 0 + 2 ^ 16 * r 1 else r 0
  | .fmin => (ty.fmt.minMax false m x).1
  | .fmax => (ty.fmt.minMax true m x).1

/-! ## Performing one access -/

/-- The access with the value it read. -/
def Acc.read (a : Acc) (v : Nat) : Acc := { a with got := v, done := true }
def Acc.finish (a : Acc) : Acc := { a with done := true }
def Acc.hitPoison (a : Acc) : Acc := { a with done := true, poison := true }

/-- The bytes of a store that no higher lane of the same word stores too, each with its cell (R104). -/
def Op.freshBytes (o : Op) (a : Acc) : List (Nat × Byte) :=
  let all := (List.range a.size).zip (leBytes a.size a.data)
  (all.filter fun p => !o.accs.any fun b =>
    a.lane < b.lane && b.space == a.space && b.addr ≤ a.addr + p.1 && a.addr + p.1 < b.addr + b.size).map
    fun p => (a.addr + p.1, p.2)

/-- Store an access's bytes: whole where no higher lane of the word stores to any of them (R227), else byte by byte. -/
def State.storeAcc (s : State) (o : Op) (a : Acc) (put : State → Nat → List Byte → State) : State :=
  let bs := o.freshBytes a
  if bs.length = a.size then put s a.addr (leBytes a.size a.data) else bs.foldl (fun s p => put s p.1 [p.2]) s

/-- Scratchpad bytes (R202). -/
def Block.scratchByte (b : Block) (off : Nat) : Byte := tabGet b.scratch 0 off
def Block.setScratch (b : Block) (off : Nat) (bytes : List Byte) : Block :=
  { b with scratch := ((List.range bytes.length).zip bytes).foldl (fun t p => tabPut t (off + p.1) p.2) b.scratch
           unseen := b.unseen.filter fun p => p.1 < off || off + bytes.length ≤ p.1 }
def Block.readScratch (b : Block) (off n : Nat) : Nat := leNat ((List.range n).map fun i => b.scratchByte (off + i))
/-- Lane-private bytes, by their offset in the on-chip map's region 2 (R216). -/
def Block.readPriv (b : Block) (off n : Nat) : Nat := leNat ((List.range n).map fun i => tabGet b.priv 0 (off + i))
def Block.setPriv (b : Block) (off : Nat) (bytes : List Byte) : Block :=
  { b with priv := ((List.range bytes.length).zip bytes).foldl (fun t p => tabPut t (off + p.1) p.2) b.priv }
def Block.setFull (b : Block) (granule : Nat) : Block := { b with full := insNat b.full granule }
/-- An engine write sets full every granule it touches (R204). -/
def Block.engineWrite (b : Block) (off : Nat) (bytes : List Byte) : Block :=
  if bytes.isEmpty then b
  else
    let gs := (List.range ((off + bytes.length - 1) / 16 - off / 16 + 1)).map (off / 16 + ·)
    gs.foldl Block.setFull (b.setScratch off bytes)

/-- The device has taken up the TCB at a cell: its STATE is the device's own from then on (R8, R150). -/
def State.takenUp (s : State) (cell : Nat) : Bool := tabGet s.fields 0 (granuleOf cell) == 1
/-- The device takes up a TCB, which is then IDLE: what software may have written to STATE before is ignored (R150). -/
def State.takeUp (s : State) (cell : Nat) : State :=
  if s.takenUp cell || s.cellFenced cell || s.inStep cell then s
  else (s.markField cell 1).homeStore (cell + 8) (leBytes 4 0)
/-- ST of a TCB at its home (R150). -/
def State.tcbState (s : State) (cell : Nat) : Nat := if s.takenUp cell then s.homeNat (cell + 8) 4 % 16 else 0
def State.setTcbState (s : State) (cell st : Nat) : State :=
  s.homeStore (cell + 8) (leBytes 4 (s.homeNat (cell + 8) 4 / 16 * 16 + st))
/-- The launches of a TCB that have not come to their end. -/
def State.launchesAt (s : State) (cell : Nat) : List Nat :=
  (s.tasks.filter fun p => p.2.cell == cell && p.2.status != .retired).map (·.1)
/-- HALT at the TCB's home (R356): it ends the launch, and is performed once the launch's blocks have retired. `data` holds
one more than the old STATE from then on. -/
def State.haltAt (s : State) (cell : Nat) (a : Acc) : State × Acc :=
  let old := s.homeNat (cell + 8) 4
  let st := s.tcbState cell
  if a.data != 0 then
    (if (s.launchesAt cell).isEmpty then (s.setTcbState cell 4, a.read (a.data - 1)) else (s, a))
  else if st = 1 || st = 2 || st = 4 then
    ((s.launchesAt cell).foldl (fun s t => s.endTask t) s, { a with data := old + 1 })
  else (s, a.read old)

/-- LAUNCH at the TCB's home (R174): STATE as read; PRED and STATE written where ST lets it. -/
def State.launchAt (s : State) (core : Nat) (win : Bool) (cache cell pred : Nat) : State × Nat :=
  let s := s.ownFirst core cell 16
  let s := if s.policyAt cache cell = 2 && !s.inStep cell then s.recallThrough win cell 16 else s
  let old := s.readNat .die win (cell + 8) 4
  let st := if s.takenUp cell then old % 16 else 0
  if st = 1 || st = 2 then (if s.inStep cell then s.dropWrite cell else s, old)
  else
    let put (s : State) (cell : Nat) (bs : List Byte) : State := s.store none .s cache win cell bs Maker.dev
    (put (put (if s.inStep cell then s else s.markField cell 1) cell (leBytes 8 pred)) (cell + 8) (leBytes 4 0), old)

/-- Cached translations of one page, or all, leave the die's TLBs (R364). -/
def dropTlb (all : Bool) (va : Nat) (es : List TlbEntry) : List TlbEntry :=
  if all then [] else es.filter fun e => e.va != va / 2 ^ levelShift e.level

/-- An operation reads its accesses. -/
def OpKind.isRead : OpKind → Bool
  | .load | .bsread _ _ | .accrd _ | .ldfe _ | .rsend _ _ _ _ _ | .eretWait => true
  | _ => false

/-- The stores of an operation's lane that its gang saw early go, to be made for the core. -/
def State.dropEarly (s : State) (id lane : Nat) : State :=
  { s with pending := s.pending.filter fun p => !(p.op == id && p.lane == lane && match p.reach with
      | .gang _ _ => true
      | _ => false) }
/-- Lane l of an operation as the one whose stores these are. -/
def makerOf (id : Nat) (o : Op) (lane : Nat) : Maker := { op := id, gang := o.gang, lane := lane, copy := false, own := false }
/-- CFLUSH and CINV at one line (R258): dirty sectors go to the next level, and copies go with CINV. -/
def State.flushLine (s : State) (core : Nat) (die inval : Bool) (line : Nat) : State :=
  let s := s.toDie fun p => (die || p.reach == Reach.core core) && p.overlaps line 512
  let s := if die then s.toCells fun p => p.overlaps line 512 else s
  if !inval then s
  else if die then
    (s.dropL1 (fun c => dieOf c == cellDie line) fun c => c.meets line 512).dropL2 (cellDie line) fun c => c.meets line 512
  else s.dropL1 (· == core) fun c => c.meets line 512

/-- Perform one flat access of an operation. -/
def State.performFlat (s : State) (id : Nat) (o : Op) (a : Acc) (win : Bool) : State × Acc :=
  let v := Viewer.lane o.core o.gang
  let put (scope : Scope) (s : State) (cell : Nat) (bs : List Byte) : State :=
    s.store (some o.core) scope a.cache win cell bs (makerOf id o a.lane)
  let atDie (s : State) : State := s.ownFirst o.core a.addr a.size
  match o.kind with
  | .load | .bsread _ _ | .rsend _ _ _ _ _ | .eretWait =>
    let s := s.beforeLoad o.core o.scope a.cache win a.addr a.size
    if s.poisonedFor v a.addr a.size then (s, a.hitPoison)
    else (s.afterLoad o.core a.cache win a.addr a.size, a.read (s.readNat v win a.addr a.size))
  | .accrd bf16 =>
    let s := s.ownFirst o.core a.addr 64
    if s.poisonedAt a.addr 64 then (s, a.hitPoison)
    else
      let r := cellRead (if bf16 then fbf16 else fp32) (s.readNat .die win a.addr 64)
      (s, a.read (r.1 + 2 ^ 32 * r.2.toNat))
  | .store _ => ((s.dropEarly id a.lane).storeAcc o a (put o.scope), a.finish)
  | .bcw => (s.storeAcc o a (if s.promoted a.addr then put .d else State.askedStore), a.finish)
  | .halt => if s.poisonedAt (a.addr + 8) 4 then (s, a.hitPoison) else s.haltAt a.addr a
  | .atom op ty ret =>
    let s := atDie s
    if !ret && s.cellFenced a.addr then (s, a.finish)
    else if s.poisonedAt a.addr a.size then (s, a.hitPoison)
    else
      let s := if s.policyAt a.cache a.addr = 2 && !s.inStep a.addr then s.recallThrough win a.addr a.size else s
      let m := s.readNat .die win a.addr a.size
      (s.store none (if o.scope == .s then .s else .d) a.cache win a.addr (leBytes a.size (atomNew op ty m a.data))
        (makerOf id o a.lane), a.read m)
  | .launch =>
    if s.poisonedAt a.addr 16 then (s, a.hitPoison)
    else
      let r := s.launchAt o.core win a.cache a.addr a.data
      (r.1, a.read r.2)
  | .flush die inval => (s.flushLine o.core die inval (a.addr / 512 * 512), a.finish)
  | _ => (s, a.finish)

/-- A store of gang or core scope as its gang sees it before the core does (R221). -/
def State.storeEarly (s : State) (id : Nat) (o : Op) (k : Nat) (a : Acc) : State :=
  match o.kind, a.space with
  | .store _, .flat win =>
    if a.size = 0 || a.early || o.scope.wide || a.cache != 0 || s.promoted a.addr || s.cellFenced a.addr then s
    else
      let m := makerOf id o a.lane
      let put (s : State) (cell : Nat) (bs : List Byte) : State :=
        { s with pending := s.pending ++ [m.pending (.gang o.core o.gang) win cell bs] }
      { s.storeAcc o a put with ops := tabMod s.ops id fun x => { x with accs := x.accs.set k { a with early := true } } }
  | _, _ => s

/-- Perform one access to the block's own storage. -/
def State.performLocal (s : State) (o : Op) (a : Acc) (isPriv : Bool) : State × Acc :=
  let b := s.block o.block
  match o.kind with
  | .load => (s, a.read (if isPriv then b.readPriv a.addr a.size else b.readScratch a.addr a.size))
  | .ldfe clear =>
    let g := a.addr / 16
    let b' : Block := if clear then { b with full := delNat b.full g } else b
    (s.setBlock o.block b', a.read (b.readScratch a.addr a.size))
  | .stfe =>
    (s.storeAcc o a fun s off bs => s.setBlock o.block (((s.block o.block).setScratch off bs).setFull (off / 16)),
      a.finish)
  | .store _ =>
    (s.storeAcc o a fun s off bs =>
      s.setBlock o.block (if isPriv then (s.block o.block).setPriv off bs else (s.block o.block).setScratch off bs),
      a.finish)
  | _ => (s, a.finish)

/-- The stores that an access orders before itself at die or system scope are performed there (R223, R240). -/
def State.orderBefore (s : State) (o : Op) : State :=
  let s := if o.ord.releases && o.scope.wide then s.releaseCore o.core else s
  let s := if o.ord.releases && o.scope == .s then s.releaseDie (dieOf o.core) else s
  match o.kind with
  | .fence true => s.recallDie (dieOf o.core)
  | _ => s
/-- The stores that a gang sees before its core come before what lane l does after its access id (R233). -/
def State.seeEarly (s : State) (gang lane id : Nat) : State :=
  let early (a : Acc) : Bool := a.early && !a.done && (tabFind a.seen lane).isNone
  if s.ops.any fun p => p.2.gang == gang && p.2.accs.any early then
    { s with ops := s.ops.map fun p =>
        if p.2.gang == gang then
          (p.1, { p.2 with accs := p.2.accs.map fun a => if early a then { a with seen := tabPut a.seen lane id } else a })
        else p }
  else s
/-- What an acquire orders after itself finds no older copy: at die or system scope in the core's L1, at core scope with its gang
(R223, R230). -/
def State.orderAfter (s : State) (id : Nat) (o : Op) (lane : Nat) : State :=
  if !o.ord.acquires then s
  else
    let s := s.seeEarly o.gang lane id
    if o.scope.wide then s.refresh o.core else if o.scope == .k then s.dropNear o.core o.gang else s

/-- An operation whose accesses a channel in promotion mode holds: the others have no access of theirs there, or are not held. -/
def OpKind.waitsHeld : OpKind → Bool
  | .load | .store _ | .bsread _ _ | .atom _ _ _ | .bufAtom _ _ _ | .launch | .accrd _ | .halt | .rsend _ _ _ _ _ => true
  | _ => false
/-- Two cells lie in one channel of one die. -/
def sameChannel (x y : Nat) : Bool :=
  cellPlace x == 0 && cellPlace y == 0 && cellDie x == cellDie y && blChannel (cellAddr x) == blChannel (cellAddr y)
/-- A lane's access as it waits at a channel, and an engine's command. -/
def Waiter.access (op lane : Nat) : Waiter := { op := op, lane := lane, stream := 0, seq := 0 }
def Waiter.engine (op : Nat) : Waiter := Waiter.access op 32
def Waiter.packet (p : Packet) : Waiter := { op := 0, lane := 0, stream := p.stream, seq := p.seq }
/-- No channel of the die where something waits holds accesses any more. -/
def State.waiterFree (s : State) (die : Nat) (w : Waiter) : Bool :=
  (s.die die).channels.all fun c => !c.2.queue.contains w || (!c.2.promotion && c.2.power == .awake)
/-- What has arrived at a channel is still to be performed, and may be. An operation that a save has abandoned is not, nor is one
that a block being halted keeps from the matrix engine. -/
def State.stillWaits (s : State) (die : Nat) (w : Waiter) : Bool :=
  s.waiterFree die w &&
    if w.op = 0 then s.flight.any fun p => p.stream == w.stream && p.seq == w.seq
    else match tabFind s.ops w.op with
      | none => false
      | some o => !o.abandoned && (o.cls != .tl || (s.block o.block).status == .resident) &&
          (w.lane == 32 || o.accs.any fun a => a.lane == w.lane && !a.done)
/-- Others have arrived at the channel of a cell before, while it held accesses, and come first (R315). -/
def State.behind (s : State) (w : Waiter) (cell : Nat) : Bool :=
  cellPlace cell == 0 && !(s.channelOf cell).promotion &&
    ((s.channelOf cell).queue.takeWhile (· != w)).any (s.stillWaits (cellDie cell))
/-- Some cell of n bytes is held for w, or others come first there. -/
def State.cellsWait (s : State) (w : Waiter) (cell n : Nat) : Bool :=
  (List.range ((cell % 512 + n + 511) / 512)).any fun i =>
    let c := Nat.max cell (cell / 512 * 512 + 512 * i)
    s.heldCell c || s.behind w c
/-- The same of an engine's command. -/
def State.segsWait (s : State) (id : Nat) (segs : List Seg) : Bool :=
  segs.any fun g => s.cellsWait (.engine id) g.cell g.n
/-- An access that waits: its channel is in promotion mode (R316), or has others to perform first (R315). A broadcast write waits
for neither, but for its channel to wake (R311). -/
def State.accHeld (s : State) (id : Nat) (o : Op) (a : Acc) : Bool :=
  match a.space with
  | .flat _ =>
    a.size != 0 &&
      (if o.kind == .bcw then s.asleep a.addr else s.heldCell a.addr || s.behind (.access id a.lane) a.addr)
  | _ => false
/-- An access has arrived at a channel that holds it. -/
def State.arriveAt (s : State) (w : Waiter) (cell : Nat) : State :=
  let c := s.channelOf cell
  if cellPlace cell != 0 || !s.heldCell cell || c.queue.contains w then s
  else s.setChannel (cellDie cell) (blChannel (cellAddr cell)) { c with queue := c.queue ++ [w] }

/-! ## Traps found when an access is performed -/

/-- The fragment of a gang that a lane belongs to, parked or active. -/
def Gang.fragWith (g : Gang) (l : Nat) : Option Frag :=
  g.frags.find? fun f => f.slice == l / 4 && (hasLane f.act l || f.stack.any fun e => hasLane e.2 l)

/-- Stop cohort id where it stands: what is left of its run in progress, and the state with its slot free. Of a guest only
the lanes `mine` stop (R413). -/
def State.stopCohort (s : State) (gid id lane : Nat) (mine : LaneSet) : State × Nat × Option Resume :=
  let g := s.gang gid
  let run := s.runs.find? fun p => p.2.gang == gid && p.2.cohort == id
  let s := match run with
    | some p => s.dropClaims g.core p.2.id
    | none => s
  let rest (r : Run) : Resume :=
    { id := r.id, base := r.base, pos := r.pos, xb := r.xb, act := r.act &&& mine, keepW := true }
  let res : Option Resume := match run with
    | some p => some (rest p.2)
    | none => ((g.cohort? id).bind (·.resume)).map fun r => { r with act := r.act &&& mine }
  if g.guests.isEmpty || (g.fragsOf id).all (fun f => f.slice == lane / 4) then
    (match run with
      | some p => { s with runs := tabDel s.runs p.1 }
      | none => s, id, res)
  else
    let s := s.setGang gid (g.splitFrag id (lane / 4))
    (match run with
      | some p => { s with runs := tabPut s.runs p.1 { p.2 with act := p.2.act &&& ~~~mine } }
      | none => s, g.nextCohort, res)

/-- The code pointer of the next word. -/
def nextWord (pc : Nat) : Nat := if pc % 4 = 2 then (pc / 4 + 1) * 4 else pc + 1

/-- The lane positions of a ply in the gang it leaves. -/
def Ply.here (p : Ply) : LaneSet := placeLanes p.lanes p.place
/-- A ply that has not left does not leave: its lanes stay with their gang, in a cohort of their own that goes on at a code
pointer. -/
def State.stayBack (s : State) (pc : Nat) (d : Nat × Ply) : State :=
  let p := d.2
  let g := s.gang p.src
  let res : Resume :=
    { id := s.nextId, base := pc / 4, pos := pc % 4, xb := if g.guests.isEmpty then p.base else 0, act := p.here, keepW := true }
  let c : Cohort :=
    { id := g.nextCohort, gathered := false, regang := false, barWait := [], fenceAt := none, resume := some res,
      stamp := s.time }
  let f : Frag := { slice := p.place, act := p.here, stack := [], pc := pc / 4, next := none, cohort := g.nextCohort }
  let g := { g with frags := g.frags ++ [f], cohorts := g.cohorts ++ [c], nextCohort := g.nextCohort + 1 }
  let g := match g.guests[p.place]? with
    | some q => { g with guests := g.guests.set p.place { q with all := q.all ||| p.lanes } }
    | none => { g with away := dropAway g.away p.place p.here }
  { s.setGang p.src g with departing := tabDel s.departing d.1 }.bump
/-- The plies that wait to leave with lanes of an operation that traps: an earlier load of theirs has not written (R405). -/
def State.keepLanes (s : State) (gid pc : Nat) (m : LaneSet) : State :=
  (s.departing.filter fun d => d.2.src == gid && d.2.here &&& m != 0).foldl (fun s d => s.stayBack pc d) s
/-- A BSREAD that traps has no effect: its lanes read again from where they were (R22, R49). -/
def State.rewindBits (s : State) (o : Op) (m : LaneSet) : State :=
  match o.kind with
  | .bsread _ _ =>
    let back (t : Tab (BitVec 55)) (l : Nat) : Tab (BitVec 55) := match o.accs.find? fun a => a.lane == l with
      | some a => tabPut t l (BitVec.ofNat 55 (a.va * 8 + a.data))
      | none => t
    s.modGang o.gang fun g => { g with lanes := { g.lanes with cursor := (lanesIn m).foldl back g.lanes.cursor } }
  | _ => s
/-- The trap POISON of an operation all of whose accesses have been performed (R105, R253, R365): in the lowest lane that
met poison and has not ended or left. An operation none of whose poisoned lanes is left writes nothing. -/
def State.poisonTrap (s : State) (id : Nat) (o : Op) : State :=
  let bad := (o.accs.filter (·.poison)).map (·.lane)
  let again := if o.once then nextWord o.pc else o.pc
  let there (l : Nat) : Bool := ((s.gang o.gang).fragWith l).isSome ||
    s.departing.any fun d => d.2.src == o.gang && hasLane d.2.here l
  let s := if bad.any there then s.keepLanes o.gang again (if o.once then lanesOf bad else o.active) else s
  let g := s.gang o.gang
  match (List.range 32).find? fun l => bad.contains l && (g.fragWith l).isSome with
  | none => s
  | some l =>
    let cid := ((g.fragWith l).map (·.cohort)).getD 0
    let mine : LaneSet := if g.guests.isEmpty then 0xFFFFFFFF else sliceLanes (l / 4)
    let (s, cid, res) := s.stopCohort o.gang cid l mine
    let who := g.ident o.gang l
    let va := ((o.accs.find? fun a => a.lane == l && a.poison).map (·.va)).getD 0
    let performed := if o.once then o.active &&& ~~~lanesOf bad else 0
    let r := mkRecord s o.gang g who.1 who.2 (failOf tcPoison) va o.pc again
      (g.recordLanes (performed &&& mine)) (g.recordLanes (o.active &&& mine))
    (s.rewindBits o (o.active &&& mine)).hold o.gang cid (o.active &&& mine) (some id) r res

/-- The claims of an LDFE end, one for each granule it read (R249). -/
def State.endClaims (s : State) (o : Op) : State :=
  let gs := (o.accs.filter fun a => a.size != 0).foldl (fun l a => insNat l (a.addr / 16)) []
  { s with cores := tabMod s.cores o.core fun k =>
      { k with claims := gs.foldl (fun cs g => cs.erase (o.run, o.block, g)) k.claims } }

/-- What an operation does once its last access has been performed: it leaves the st class, or a poisoned load traps. -/
def State.settleOp (s : State) (id : Nat) : State :=
  match tabFind s.ops id with
  | none => s
  | some o =>
    if !o.accs.all (·.done) then s
    else
      let bad := o.accs.any (·.poison)
      let s := if bad && !o.fromTrap then s.poisonTrap id o else s
      let s := match o.kind with
        | .ldfe _ => s.endClaims o
        | .rsend _ _ _ _ _ => if bad then s else s.sendGranules id o
        | .eretWait => if bad then s else s.sendResume id o
        | .armWait _ => s.rmSettle id
        | _ => s
      if o.cls == .st then { s with ops := tabDel s.ops id }
      else if bad && !o.once && (s.gang o.gang).holds.all fun h => h.op != some id then
        { s with ops := tabDel s.ops id }
      else if bad then { s with ops := tabMod s.ops id fun x => { x with fromTrap := true } }
      else s

/-- File an operation; one without an access to make is through with them. -/
def State.issueOp (s : State) (c : Ctx) (perf : LaneSet) (kind : OpKind) (cls : Cls) (ord : Order) (scope : Scope)
    (dest : Option Dest) (accs : List Acc) : State :=
  (s.addOp c perf kind cls ord scope dest accs).settleOp s.nextId

/-- Every store that the issuing gang made before operation id has been performed. -/
def State.storesDone (s : State) (id : Nat) (o : Op) : Bool :=
  s.ops.all fun p => id ≤ p.1 || p.2.gang != o.gang || p.2.kind.isRead || p.2.accs.all (·.done)

/-- Perform access k of operation id. -/
def State.performAcc (s : State) (id : Nat) (o : Op) (k : Nat) (a : Acc) : State :=
  let s := s.orderBefore o
  let (s, a') := match a.space with
    | .flat win => if a.size = 0 then (s, a.finish) else s.performFlat id o a win
    | .scratch => if a.size = 0 then (s, a.finish) else s.performLocal o a false
    | .priv => s.performLocal o a true
  let s := s.orderAfter id o a.lane
  let s := { s with ops := tabMod s.ops id fun x => { x with accs := x.accs.set k a' } }
  (s.armLane id o a.lane).settleOp id

/-- The first access of a lane that has not been performed. -/
def Op.nextAcc (o : Op) (lane : Nat) : Option (Nat × Acc) :=
  ((List.range o.accs.length).zip o.accs).find? fun p => p.2.lane == lane && !p.2.done

end Sys2Proof.Machine
end

