-- ==== Sys2Proof/Machine/Image.lean ====
section
/-! DEFINITION. Ranges of virtual memory that a die's own agents read and write for a task (R152, R154), and the save
images of a core among them (R369). -/

namespace Sys2Proof.Machine

/-! ## Ranges -/

/-- The rights of a task's own reads and writes. -/
def Task.reads (t : Task) : Need := { r := true, w := false, x := false, priv := t.privileged, encl := t.tcb.encl }
def Task.writes (t : Task) : Need := { r := false, w := true, x := false, priv := t.privileged, encl := t.tcb.encl }
/-- The rights of the device where it delivers a record: the area's page must let it write, whatever else it is. -/
def deviceWrites : Need := { r := false, w := true, x := false, priv := true, encl := true }

/-- n bytes at a virtual address as a die's agent reads them; none where a page fails or poison stands. -/
def State.readRange (s : State) (die : Nat) (nd : Need) (va n : Nat) : Option (List Byte) :=
  match s.translateRange die nd (pagesFor n) va n with
  | .error _ => none
  | .ok ls =>
    if ls.any fun p => s.poisonedAt p.1.cell p.2 then none
    else some (ls.flatMap fun p => s.homeBytes p.1.cell p.2)
/-- Some of n bytes at a virtual address lie in a channel that holds accesses: a die's agent waits before it touches them
(R316). -/
def State.rangeHeld (s : State) (die : Nat) (nd : Need) (va n : Nat) : Bool :=
  match s.translateRange die nd (pagesFor n) va n with
  | .error f => f = failWait
  | .ok ls => ls.any fun p => s.heldCell p.1.cell
/-- The device's own bytes stored over translated pieces, at die scope. -/
def State.storePieces : List (Leaf × Nat) → List Byte → State → State
  | [], _, s => s
  | (l, n) :: ps, bs, s => storePieces ps (bs.drop n) (s.store none .d l.cache l.win l.cell (bs.take n) Maker.dev)

/-! ## Save images (R369, R456) -/

/-- The virtual address of byte `off` of a core's image. -/
def Tcb.imageVa (t : Tcb) (core off : Nat) : Nat := (t.savearea + core % 512 * 2 ^ 22 + off) % 2 ^ 64
/-- A page that a save of the task may write: in an enclave task of a package in an enclave, on a marked region (R456). -/
def State.savePage (s : State) (t : Task) (l : Leaf) : Bool :=
  !t.tcb.encl || enclOk (s.pkg (pkgOf l.die)) (l.die % 8) l.place l.win l.pa (2 ^ 16)
/-- The pieces of n bytes of a core's image; none where the save area fails. -/
def State.imagePieces (s : State) (t : Task) (core off n : Nat) : Option (List (Leaf × Nat)) :=
  match s.translateRange (dieOf core) t.writes (pagesFor n) (t.tcb.imageVa core off) n with
  | .error _ => none
  | .ok ps => if ps.all fun p => s.savePage t p.1 then some ps else none
/-- An access to n bytes of an image waits: a channel of its cells holds accesses (R316). -/
def State.imageHeld (s : State) (t : Task) (core off n : Nat) : Bool :=
  s.rangeHeld (dieOf core) t.writes (t.tcb.imageVa core off) n
/-- Write bytes to a core's image; none where the save area fails. -/
def State.imageWrite (s : State) (t : Task) (core off : Nat) (bytes : List Byte) : Option State :=
  (s.imagePieces t core off bytes.length).map fun ps => State.storePieces ps bytes s
/-- Read bytes of a core's image. -/
def State.imageRead (s : State) (t : Task) (core off n : Nat) : Option (List Byte) :=
  match s.imagePieces t core off n with
  | none => none
  | some ps =>
    if ps.any fun p => s.poisonedAt p.1.cell p.2 then none else some (ps.flatMap fun p => s.homeBytes p.1.cell p.2)
/-- Write several ranges of an image, in order. -/
def State.imageWrites (t : Task) (core : Nat) : List (Nat × List Byte) → State → Option State
  | [], s => some s
  | (off, bs) :: rest, s => (s.imageWrite t core off bs).bind (imageWrites t core rest)

def imgScratch : Nat := 0x080000
def imgPriv : Nat := 0x100000
def imgAcc : Nat := 0x200000
def imgB : Nat := 0x280000
def imgGang : Nat := 0x320000
def imgFull : Nat := 0x360000
def imgBlock : Nat := 0x361000
/-- Register n of lane m in a gang's units. -/
def Gang.imageReg (g : Gang) (n m : Nat) : Nat := g.units.getD (n / 8) 0 * 1024 + (n % 8 * 32 + m) * 4
/-- A byte of a gang's open window, in the image of the gang. -/
def Gang.imageWindow (g : Gang) (w : Window) (off : Nat) : Nat :=
  g.imageReg (w.base + off / 128) (off / 4 % 32) + off % 4
/-- Byte `off` of a block's lane-private space. -/
def Block.imagePriv (b : Block) (off : Nat) : Nat := imgPriv + off / 32768 * 32768 + b.privPos + off % 32768

/-- Set full/empty bits of a saved block (R204). -/
def State.imageFill (t : Task) (b : Block) : List Nat → State → Option State
  | [], s => some s
  | g :: gs, s =>
    let k := b.scratchPos / 16 + g
    match s.imageRead t b.core (imgFull + k / 8) 1 with
    | none => none
    | some bs =>
      (s.imageWrite t b.core (imgFull + k / 8) [BitVec.ofNat 8 (Nat.lor (leNat bs) (2 ^ (k % 8)))]).bind
        (imageFill t b gs)

end Sys2Proof.Machine
end

