-- ==== Sys2Proof/Machine/Mem.lean ====
section
/-! DEFINITION. The memory words (R102 to R105, R174, R243 to R259) and the events of the memory system: an access performed,
a long-latency write, a buffered record that arrives (R194, R195). -/

namespace Sys2Proof

open Machine

def Size.bytes : Size → Nat
  | .b8 => 1
  | .b16 => 2
  | .b32 => 4
  | .b64 => 8
def SSize.bytes : SSize → Nat
  | .b8 => 1
  | .b16 => 2
  | .b32 => 4
  | .b64 => 8
  | .b128 => 16
def FenceOrder.order : FenceOrder → Order
  | .none => .rlx
  | .acq => .acq
  | .rel => .rel
  | .acqrel => .acqrel

end Sys2Proof

namespace Sys2Proof.Machine

/-! ## Flat loads and stores (R103 to R105, R245, R246) -/

def Ctx.checks (c : Ctx) (s : State) (r w : Bool) (align : Nat) (strong : Bool) : Checks :=
  { need := c.need s r w, align := align, leaves := true, tempo := w, dups := false, strong := strong }

/-- A flat load with its order and scope. -/
def loadWord (i : Instr) (strong : Bool) (sz : Size) (sx : Bool) (ord : Order) (scope : Scope) (d a : Reg)
    (off : BitVec 22) : State → Host.Outcome State Fault Refusal :=
  word i fun c perf s =>
    c.flat s (c.checks s true false sz.bytes strong) sz.bytes (fun l => c.addr l a off) perf fun c perf ls s =>
      s.issueOp c perf .load .ld ord scope (c.dest d sz.bytes sx)
        (ls.map (fun p => Acc.flat p.1 p.2.1 sz.bytes 0 p.2.2) ++ c.fences ord perf)
/-- LD (R103). -/
def execLd (h : Hd) (sz : Size) (sx : Bool) (d a : Reg) (off : BitVec 22) : State → Host.Outcome State Fault Refusal :=
  loadWord (.ld h sz sx d a off) false sz sx .rlx .k d a off
/-- Ordered LD (R245). -/
def execLdOrdered (h : Hd) (sz : Size) (sx acq : Bool) (scope : Scope) (d a : Reg) (off : BitVec 22) :
    State → Host.Outcome State Fault Refusal :=
  loadWord (.ldOrdered h sz sx acq scope d a off) true sz sx (if acq then .acq else .rlx) scope d a off

/-- The bytes a store takes from D. -/
def Ctx.storeData (c : Ctx) (l size : Nat) (d : Reg) : Nat :=
  if size ≤ 4 then c.rd l d.toNat 0 % 2 ^ (8 * size) else c.rdMany l d.toNat (size / 4)
/-- A flat store with its order and scope. -/
def storeWord (i : Instr) (strong : Bool) (sz : Size) (ord : Order) (scope : Scope) (d a : Reg) (off : BitVec 22) :
    State → Host.Outcome State Fault Refusal :=
  word i fun c perf s =>
    c.flat s (c.checks s false true sz.bytes strong) sz.bytes (fun l => c.addr l a off) perf fun c perf ls s =>
      s.issueOp c perf (.store strong) .st ord scope none
        (ls.map (fun p => Acc.flat p.1 p.2.1 sz.bytes (c.storeData p.1 sz.bytes d) p.2.2) ++ c.fences ord perf)
/-- ST (R103). -/
def execSt (h : Hd) (sz : Size) (d a : Reg) (off : BitVec 22) : State → Host.Outcome State Fault Refusal :=
  storeWord (.st h sz d a off) false sz .rlx .k d a off
/-- Ordered ST (R245). -/
def execStOrdered (h : Hd) (sz : Size) (rel : Bool) (scope : Scope) (d a : Reg) (off : BitVec 22) :
    State → Host.Outcome State Fault Refusal :=
  storeWord (.stOrdered h sz rel scope d a off) true sz (if rel then .rel else .rlx) scope d a off

/-! ## Scratchpad and lane-private accesses (R201, R247 to R250) -/

/-- The checks of an offset: alignment in every lane, then range (R247). -/
def localFails (size limit : Nat) (fs : List (Nat × Nat)) : Option Trap :=
  let bad (p : Nat × Nat) : Option (Nat × Nat × Nat × Fail) :=
    if p.2 % size != 0 then some (p.1, p.2, 1, failOf tcMisalign)
    else if limit < p.2 + size then some (p.1, p.2, 2, failAccess 11)
    else none
  pickFail true (fs.filterMap bad)

/-- An access to the block's scratchpad, or to the lane's private slice. -/
def localAcc (c : Ctx) (s : State) (isPriv : Bool) (l off size data : Nat) : Acc :=
  let base := l * 32768 + c.gang.num * (c.task s).tcb.priv
  { lane := l, space := if isPriv then .priv else .scratch, addr := if isPriv then base + off else off, va := off,
    size := size, data := data, got := 0, done := false, early := false, poison := false, cache := 0 }

/-- The context in which a word finds its addresses: an LDFE's are those that stand at the start of its run (R249). -/
def Ctx.reader (c : Ctx) : OpKind → Ctx
  | .ldfe _ => { c with run := { c.run with group := c.run.entry } }
  | _ => c
/-- A word of these spaces: checks, then the operation. -/
def localWord (i : Instr) (isPriv : Bool) (size : Nat) (kind : OpKind) (cls : Cls) (ord : Order)
    (dest : Ctx → Option Dest) (data : Ctx → Nat → Nat) (a : Reg) (off : BitVec 22) :
    State → Host.Outcome State Fault Refusal :=
  word i fun c perf s =>
    let t := (c.task s).tcb
    let fs := (lanesIn perf).map fun l => (l, (c.reader kind).addr l a off)
    match localFails size (if isPriv then t.priv else t.scratch) fs with
    | some t => .error t
    | none =>
      .ok (s.issueOp c perf kind cls ord .k (dest c)
        (fs.map (fun p => localAcc c s isPriv p.1 p.2 size (data c p.1)) ++ c.fences ord perf))

/-- LDS, LDP (R248). -/
def execLds (h : Hd) (sz : SSize) (sx : Bool) (d a : Reg) (off : BitVec 22) : State → Host.Outcome State Fault Refusal :=
  localWord (.lds h sz sx d a off) false sz.bytes .load .ld .rlx (fun c => c.dest d sz.bytes sx) (fun _ _ => 0) a off
def execLdp (h : Hd) (sz : SSize) (sx : Bool) (d a : Reg) (off : BitVec 22) : State → Host.Outcome State Fault Refusal :=
  localWord (.ldp h sz sx d a off) true sz.bytes .load .ld .rlx (fun c => c.dest d sz.bytes sx) (fun _ _ => 0) a off
/-- STS, STP (R248). -/
def execSts (h : Hd) (sz : SSize) (d a : Reg) (off : BitVec 22) : State → Host.Outcome State Fault Refusal :=
  localWord (.sts h sz d a off) false sz.bytes (.store false) .st .rlx (fun _ => none)
    (fun c l => c.storeData l sz.bytes d) a off
def execStp (h : Hd) (sz : SSize) (d a : Reg) (off : BitVec 22) : State → Host.Outcome State Fault Refusal :=
  localWord (.stp h sz d a off) true sz.bytes (.store false) .st .rlx (fun _ => none)
    (fun c l => c.storeData l sz.bytes d) a off
/-- LDFE (R249): its granules were full, and claimed, when its run started. -/
def execLdfe (h : Hd) (sz : SSize) (sx clear : Bool) (d a : Reg) (off : BitVec 22) :
    State → Host.Outcome State Fault Refusal :=
  localWord (.ldfe h sz sx clear d a off) false sz.bytes (.ldfe clear) .ld .acq (fun c => c.dest d sz.bytes sx)
    (fun _ _ => 0) a off
/-- STFE (R250). -/
def execStfe (h : Hd) (d a : Reg) (off : BitVec 22) : State → Host.Outcome State Fault Refusal :=
  localWord (.stfe h d a off) false 16 .stfe .st .rel (fun _ => none) (fun c l => c.storeData l 16 d) a off

/-! ## Atomics (R251 to R254, R194) -/

/-- The operand of an atomic (R252). -/
def Ctx.atomData (c : Ctx) (l : Nat) (op : AtomOp) (ty : AtomTy) (d : Reg) : Nat :=
  if op == .cas then (if ty.is64 then c.rdMany l d.toNat 4 else c.rdPair l d.toNat)
  else if ty.is64 then c.rdPair l d.toNat else c.rd l d.toNat 0

/-- The buffered records of a float atomic in a deterministic task, one for each lane (R194). -/
def State.buffer (s : State) (c : Ctx) (op : AtomOp) (ty : AtomTy) (d : Reg) (ls : List (Nat × Nat × Leaf)) : State :=
  let g := s.gang c.gid
  let rec1 (p : Nat × Nat × Leaf) : BufRec :=
    { issued := s.nextId, task := g.task, block := (s.block g.block).idx, gang := g.num, lane := p.1,
      seq := tabGet g.seqs 0 p.1, op := op, ty := ty, cell := p.2.2.cell, va := p.2.1, value := c.atomData p.1 op ty d,
      arrived := false, spilled := false }
  let up (g : Gang) : Gang := { g with seqs := ls.foldl (fun t p => tabPut t p.1 (tabGet t 0 p.1 + 1)) g.seqs }
  { s.modGang c.gid up with bufs := s.bufs ++ ls.map rec1 }

/-- ATOM and RED. -/
def atomWord (i : Instr) (op : AtomOp) (ty : AtomTy) (ord : Order) (scope : Scope) (noret : Bool) (d a : Reg)
    (off : BitVec 22) : State → Host.Outcome State Fault Refusal :=
  word i fun c perf s =>
    let k := { c.checks s true true ty.bytes true with dups := true }
    let buffered := (c.task s).tcb.det && !ty.integer
    match (if buffered then (lanesIn perf).find? fun l => 2 ^ 32 ≤ tabGet (s.gang c.gid).seqs 0 l else none) with
    | some l => .error (Trap.of (failAccess 10) (some l) (c.addr l a off))
    | none =>
      c.flat s k ty.bytes (fun l => c.addr l a off) perf fun c perf ls s =>
        let kind : OpKind := if buffered then .bufAtom op ty (!noret) else .atom op ty (!noret)
        let s := if buffered then s.buffer c op ty d ls else s
        s.issueOp c perf kind (if noret then .st else .ld) ord scope (if noret then none else c.dest d ty.bytes false)
          (ls.map (fun p => Acc.flat p.1 p.2.1 ty.bytes (c.atomData p.1 op ty d) p.2.2) ++ c.fences ord perf)
def execAtom (h : Hd) (op : AtomOp) (ty : AtomTy) (ord : Order) (scope : Scope) (noret : Bool) (d a : Reg)
    (off : BitVec 22) : State → Host.Outcome State Fault Refusal :=
  atomWord (.atom h op ty ord scope noret d a off) op ty ord scope noret d a off
def execRed (h : Hd) (op : AtomOp) (ty : AtomTy) (rel : Bool) (scope : Scope) (d a : Reg) (off : BitVec 22) :
    State → Host.Outcome State Fault Refusal :=
  atomWord (.red h op ty rel scope d a off) op ty (if rel then .rel else .rlx) scope true d a off

/-- LAUNCH (R174, R176). -/
def execLaunch (h : Hd) (d a : Reg) (b : Src) : State → Host.Outcome State Fault Refusal :=
  word (.launch h d a b) fun c perf s =>
    let k : Checks :=
      { need := c.need s true true, align := 512, leaves := false, tempo := false, dups := true, strong := true }
    c.flat s k 16 (fun l => c.rdPair l a.toNat) perf fun c perf ls s =>
      s.issueOp c perf .launch .ld .rlx .s (c.dest d 4 false)
        (ls.map fun p => Acc.flat p.1 p.2.1 16 (wrapN 64 (sval 32 (c.opCount p.1 a b))) p.2.2)

/-! ## Fences and cache maintenance (R255 to R259) -/

/-- FENCE: in every active lane, guarded or not (R257). An alias fence acts at die scope, and orders what comes before
against what comes after (R240). -/
def execFence (h : Hd) (ord : FenceOrder) (scope : Scope) (als : Bool) : State → Host.Outcome State Fault Refusal :=
  word (.fence h ord scope als) fun c _ s =>
    .ok (s.issueOp c c.run.act (.fence als) .st (if als then .acqrel else ord.order) (if als then .d else scope) none
      ((lanesIn c.run.act).map Acc.fence))

/-- CFLUSH and CINV: a line of another die, or of a UC page, is left alone (R258). -/
def flushWord (i : Instr) (die inval : Bool) (a : Reg) (off : BitVec 22) : State → Host.Outcome State Fault Refusal :=
  word i fun c perf s =>
    let fs := (lanesIn perf).map fun l => (l, c.addr l a off, s.coreTranslate c.core (c.addr l a off) 1 (c.need s true false))
    let fails := fs.filterMap fun p => match p.2.2 with
      | .error f => some (p.1, p.2.1, f.order, f)
      | .ok _ => none
    let accs := fs.filterMap fun p => match p.2.2 with
      | .ok l =>
        if l.die != c.die || l.uc then none
        else some { Acc.flat p.1 p.2.1 512 0 l with addr := l.cell / 512 * 512 }
      | .error _ => none
    match pickFail true fails with
    | some t => .error t
    | none => .ok (s.issueOp c perf (.flush die inval) .st .rlx .k none accs)
def execCflush (h : Hd) (die : Bool) (a : Reg) (off : BitVec 22) : State → Host.Outcome State Fault Refusal :=
  flushWord (.cflush h die a off) die false a off
def execCinv (h : Hd) (die : Bool) (a : Reg) (off : BitVec 22) : State → Host.Outcome State Fault Refusal :=
  flushWord (.cinv h die a off) die true a off
/-- PREF (R259): a hint that traps nowhere, for a fill that the environment may make at any time. -/
def execPref (_h : Hd) (_l2 : Bool) (_a : Reg) (_off : BitVec 22) : State → Host.Outcome State Fault Refusal :=
  fun s => match s.issuer with
    | none => .fault .noIssuer
    | some _ => .next s

/-! ## BSREAD (R102) -/

/-- The byte addresses that k bits at a bit address need. -/
def bitBytes (cur k : Nat) : List Nat := (List.range ((cur % 8 + k + 7) / 8)).map (cur / 8 + ·)
/-- A byte that cannot be read: in lane l, with its address. -/
def Ctx.bsFail (c : Ctx) (s : State) (l va : Nat) : Option (Nat × Nat × Nat × Fail) :=
  match s.coreTranslate c.core va 1 (c.need s true false) with
  | .error f => some (l, va, 0, f)
  | .ok p => if p.die != c.die then some (l, va, 0, failOf tcRemote) else none
/-- BSREAD. -/
def execBsread (h : Hd) (sx : Bool) (d : Reg) (k : BitVec 7) : State → Host.Outcome State Fault Refusal :=
  word (.bsread h sx d k) fun c perf s =>
    let cur (l : Nat) : Nat := (tabGet (s.gang c.gid).lanes.cursor 0 l).toNat
    let need := (lanesIn perf).flatMap fun l => (bitBytes (cur l) k.toNat).map fun va => (l, va)
    match pickFail false (need.filterMap fun p => c.bsFail s p.1 p.2) with
    | some t => .error t
    | none =>
      let acc (p : Nat × Nat) : Option Acc :=
        match s.coreTranslate c.core p.2 1 (c.need s true false) with
        | .ok leaf => some (Acc.flat p.1 p.2 1 (cur p.1 % 8) leaf)
        | .error _ => none
      let step (t : Tab (BitVec 55)) (l : Nat) := tabPut t l (BitVec.ofNat 55 (cur l + k.toNat))
      let s := s.modGang c.gid fun g =>
        { g with lanes := { g.lanes with cursor := (lanesIn perf).foldl step g.lanes.cursor } }
      .ok (s.issueOp c perf (.bsread k.toNat sx) .ld .rlx .k (c.dest d 4 false) (need.filterMap acc))

/-! ## Long-latency writes (R45, R46, R103) -/

/-- What lane l of a completed operation receives. -/
def Op.value (o : Op) (l : Nat) : Nat :=
  let mine := o.accs.filter fun a => a.lane == l && a.size != 0
  match o.kind with
  | .bsread k sx =>
    let x := (mine.map (·.got)).foldr (fun b v => b + 256 * v) 0
    let v := x / 2 ^ ((mine.head?.map (·.data)).getD 0) % 2 ^ k
    if sx then wrapN 32 (sval k v) else v
  | .halt => (o.accs.head?.map (·.got)).getD 0
  | _ =>
    let w := (o.dest.map (·.width)).getD 4
    extendLoad w ((o.dest.map (·.sx)).getD false) ((mine.head?.map (·.got)).getD 0)

/-- Lane l of gang gid waits to depart. -/
def State.leaving (s : State) (gid l : Nat) : Bool :=
  s.departing.any fun p => p.2.src == gid && p.2.place == l / 4 && hasLane (placeLanes p.2.lanes p.2.place) l
/-- Lane l of gang gid may still receive a write of allotment register n: it is here, or it waits to depart and the
register travels (R405). -/
def State.receives (s : State) (gid : Nat) (g : Gang) (l n : Nat) : Bool :=
  (g.fragWith l).isSome || s.departing.any fun p =>
    p.2.src == gid && p.2.place == l / 4 && hasLane (placeLanes p.2.lanes p.2.place) l &&
      (let xb := if g.guests.isEmpty then p.2.base else 0
       xb ≤ n && n - xb < 112 && nbit (s.task g.task).tcb.migmask (n - xb))

/-- Write an operation's destinations, and let it leave the table. -/
def State.writeBack (s : State) (id : Nat) (o : Op) : State :=
  let bad := (o.accs.filter (·.poison)).map (·.lane)
  let lanes := (lanesIn o.active).filter fun l => !bad.contains l
  let cellFlags (g : Gang) (L : Lanes) (l : Nat) : Lanes :=
    let got := ((o.accs.find? fun a => a.lane == l).map (·.got)).getD 0
    if (g.fragWith l).isSome || s.leaving o.gang l then L.orFlags l (BitVec.ofNat 6 (got / 2 ^ 32)) else L
  let s : State := match o.kind with
    | .accrd _ => s.modGang o.gang fun g => { g with lanes := lanes.foldl (cellFlags g) g.lanes }
    | _ => s
  let s := match o.dest with
    | none => s
    | some d =>
      s.modGang o.gang fun g =>
        let put (t : Tab Word) (l i : Nat) : Tab Word :=
          if s.receives o.gang g l (d.first + i) then
            tabPut t (regKey l (d.first + i)) (BitVec.ofNat 32 (o.value l / 2 ^ (32 * i)))
          else t
        let regs := lanes.foldl (fun t l => (List.range d.count).foldl (fun t i => put t l i) t) g.lanes.regs
        { g with lanes := { g.lanes with regs := regs } }
  { s with ops := tabDel s.ops id }

/-- LONG_LATENCY_WRITE. -/
def execLongLatencyWrite (op : Nat) (s : State) : Host.Outcome State Fault Refusal :=
  match tabFind s.ops op with
  | none => .next s
  | some o =>
    if o.cls == .ld && o.accs.all (·.done) && (o.once || !o.accs.any (·.poison)) then .next (s.writeBack op o)
    else .next s

/-! ## Accesses performed -/

/-- The flat pieces that an operation of an engine has translated and not reached yet. -/
def Ref.segs : Ref → List Seg
  | .flat segs => segs
  | .map _ => []
def OpKind.segs : OpKind → List Seg
  | .tloadb _ _ _ _ segs => segs
  | .tstore _ _ _ rows => rows.flatMap (·.2)
  | .cpy _ elems => elems.flatMap fun e => e.2.1.segs ++ e.2.2.segs
  | .lrec _ segs => segs
  | .ired _ _ _ _ record _ => [record]
  | .bookq _ row _ => [row]
  | _ => []
/-- A remote word keeps the address that it was translated to. -/
def OpKind.leavesDie : OpKind → Bool
  | .remote | .rsend _ _ _ _ _ | .armWait _ => true
  | _ => false
/-- An address that a translation was made for lies in the page of another, as large as that translation's page (R364). -/
def inPage (va level x : Nat) : Bool := x / 2 ^ levelShift level == va / 2 ^ levelShift level
/-- An operation has yet to reach memory through a translation of the page of an address, or through any. -/
def Op.reaches (o : Op) (all : Bool) (va : Nat) : Bool :=
  o.kind.leavesDie ||
    (o.accs.any fun a => !a.done && a.size != 0 && a.space != .scratch && a.space != .priv && (all || inPage va a.level a.va)) ||
    o.kind.segs.any fun g => all || inPage va g.level g.va
/-- An invalidation may remove translations: the issuing gang's earlier ordered stores of die scope or wider have been performed. -/
def State.dropReady (s : State) (id : Nat) (o : Op) : Bool :=
  s.ops.all fun p => id ≤ p.1 || p.2.gang != o.gang || !(p.2.kind.isStore && p.2.scope.wide) || p.2.accs.all (·.done)
/-- What an invalidation waits for once it has removed translations (R364): the accesses of the die translated before. `data` of
its access is the number that later operations begin at. -/
def State.tlbReady (s : State) (o : Op) (a : Acc) : Bool :=
  match o.kind with
  | .tlbinv all va => a.data != 0 && s.ops.all fun p => a.data ≤ p.1 || dieOf p.2.core != dieOf o.core || !p.2.reaches all va
  | _ => true
/-- ARM and ERET wait for the equivalent of an RFENCE (R175, R355). -/
def State.fenceReady (s : State) (id : Nat) (o : Op) : Bool :=
  match o.kind with
  | .armWait _ | .eretWait => s.fenceDone o.gang id
  | _ => true
/-- An operation whose accesses ACCESS_PERFORMED performs: the others have events of their own. -/
def OpKind.performs : OpKind → Bool
  | .load | .store _ | .ldfe _ | .stfe | .bsread _ _ | .atom _ _ _ | .fence _ | .launch | .accrd _ | .flush _ _ | .bcw
  | .tlbinv _ _ | .rsend _ _ _ _ _ | .armWait _ | .eretWait | .halt => true
  | _ => false
/-- TLBINV: every TLB of the die, its cores' too, drops what it names; it then waits as access k of its operation. -/
def State.dropTlbs (s : State) (id : Nat) (o : Op) (k : Nat) (a : Acc) (all : Bool) (va : Nat) : State :=
  let drop (p : Nat × Core) : Nat × Core :=
    if dieOf p.1 = dieOf o.core then (p.1, { p.2 with tlb := dropTlb all va p.2.tlb }) else p
  { s with dies := tabMod s.dies (dieOf o.core) fun d => { d with tlb := dropTlb all va d.tlb }
           cores := s.cores.map drop
           ops := tabMod s.ops id fun x => { x with accs := x.accs.set k { a with data := s.nextId } } }

/-- ACCESS_PERFORMED: the first access of a lane that an operation has not made yet. -/
def execAccessPerformed (op lane : Nat) (s : State) : Host.Outcome State Fault Refusal :=
  match tabFind s.ops op with
  | none => .next s
  | some o =>
    match o.nextAcc lane with
    | none => .next s
    | some (k, a) =>
      if (o.kind.performs || a.size == 0) && !o.abandoned && s.accReady op o a && !s.accHeld op o a && !s.stepStore o a then
        match o.kind with
        | .tlbinv all va =>
          if a.data = 0 then .next (if s.dropReady op o then s.dropTlbs op o k a all va else s)
          else .next (if s.tlbReady o a then s.performAcc op o k a else s)
        | _ => .next (if s.fenceReady op o then s.performAcc op o k a else s)
      else .next s

/-! ## Buffered records (R194, R195) -/

/-- DEVPRIV as this model lays it out (R150 leaves it to the device): the pending mark in its first byte, the spill fill
pointer in the eight bytes from 8 on (assumption log 5). -/
def devPending (tcb : Nat) : Nat := tcb + 0x140
def devFill (tcb : Nat) : Nat := tcb + 0x148

def AtomOp.code : AtomOp → Nat
  | .add => 0
  | .min => 1
  | .max => 2
  | .and => 3
  | .or => 4
  | .xor => 5
  | .exch => 6
  | .cas => 7
  | .fadd => 8
  | .fmin => 9
  | .fmax => 10
def AtomTy.code : AtomTy → Nat
  | .i32 => 0
  | .n32 => 1
  | .i64 => 2
  | .n64 => 3
  | .f32 => 4
  | .f64 => 5
  | .bf16x2 => 6
  | .f16x2 => 7

/-- The 32 bytes of a spill record (R195). -/
def BufRec.spillBits (b : BufRec) : Nat :=
  b.block % 2 ^ 32 * 2 ^ 224 + b.gang % 32 * 2 ^ 219 + b.lane % 32 * 2 ^ 214 + b.seq % 2 ^ 32 * 2 ^ 176 +
    AtomOp.code b.op * 2 ^ 172 + AtomTy.code b.ty * 2 ^ 168 + b.va % 2 ^ 52 * 2 ^ 116 + b.value % 2 ^ 64

/-- A record of a task's fault that no gang is held at (R346). -/
def State.asyncFault (s : State) (task code info addr : Nat) (serve : Bool) : State :=
  let t := s.task task
  let r : FaultRec :=
    { code := code, lane := 0xFF, info := info, resumable := false, guest := false, privileged := t.privileged,
      task := task, addr := addr, block := 0, lgang := 0, pc := 0, resumePc := 0, performed := 0, active := 0,
      die := t.home, core := t.home * 64, token := s.nextId, gang := none, serve := serve }
  { s with faults := tabPut s.faults s.nextId r }.bump
/-- A full or absent spill region faults the task, and so does one whose page cannot be translated or written, which the rule does
not name (DESIGN CHOICE, assumption log 66): its blocks halt as under pre-emption, and their GROW requests leave their
queues (R195, R367). -/
def State.spillFault (s : State) (task va : Nat) : State :=
  let t := s.task task
  let s := (s.setTask task { t with status := .faulted }).setTcbState t.cell 4
  let halt (b : Block) : Block := if b.task = task && b.status == .resident then { b with status := .halting } else b
  let blocks := s.blocks.map fun p => (p.1, halt p.2)
  let unqueue (d : Die) : Die := { d with ready := d.ready.filter fun r => r.2.2 != task }
  let dies : Tab Die := s.dies.map fun p => (p.1, unqueue p.2)
  let stay (r : GrowReq) : Bool := (s.gang r.gang).task != task
  let cores : Tab Core := s.cores.map fun p => (p.1, { p.2 with growQ := p.2.growQ.filter stay })
  if t.status == .faulted then s
  else { s with blocks := blocks, dies := dies, cores := cores }.asyncFault task tcAccess 8 va true

/-- The pieces of the spill record that comes next, or why there is no place for it. -/
def State.spillPlace (s : State) (b : BufRec) : Except Fail (List (Leaf × Nat)) :=
  let t := s.task b.task
  let fill := s.homeNat (devFill t.cell) 8
  if t.tcb.spillsize < fill * 32 + 32 then .error (failAccess 8)
  else
    s.translateRange (cellDie b.cell)
      { r := false, w := true, x := false, priv := t.privileged, encl := t.tcb.encl } 3 (t.tcb.spillbase + fill * 32) 32
/-- The pieces of the spill record that comes next, unless the region is full or cannot be written. -/
def State.spillTo (s : State) (b : BufRec) : Option (List (Leaf × Nat)) := match s.spillPlace b with
  | .ok ls => some ls
  | .error _ => none
/-- Bytes written at a home over the pieces of a range. -/
def State.putPieces (s : State) : List (Leaf × Nat) → List Byte → State
  | [], _ => s
  | (l, n) :: ls, bs => (s.homeStore l.cell (bs.take n)).putPieces ls (bs.drop n)
/-- The spill of a record is held with its channel (R316). -/
def State.spillHeld (s : State) (b : BufRec) : Bool :=
  s.heldCell (s.task b.task).cell || match s.spillPlace b with
    | .ok ls => ls.any fun p => s.heldCell p.1.cell
    | .error f => f = failWait
/-- A record at a full slice goes to the task's spill region. -/
def State.spill (s : State) (k : Nat) (b : BufRec) : State :=
  let t := s.task b.task
  match s.spillTo b with
  | none => s.spillFault b.task b.va
  | some ls =>
    let s := (s.putPieces ls (leBytes 32 b.spillBits)).homeStore (devFill t.cell)
      (leBytes 8 (s.homeNat (devFill t.cell) 8 + 1))
    { s with bufs := s.bufs.set k { b with arrived := true, spilled := true } }

/-- BUFFERED_RECORD_ARRIVAL: the k-th record reaches its home slice, in the order of its lane's accesses. The word that
returns a value has it as memory stands; where that is poisoned it traps, and its record is held all the same, as a RED's is
(DESIGN CHOICE, assumption log 66). -/
def execBufferedRecordArrival (k : Nat) (s : State) : Host.Outcome State Fault Refusal :=
  match s.bufs[k]? with
  | none => .next s
  | some b =>
    match s.liveOp b.issued with
    | none => .next s
    | some o =>
      match o.nextAcc b.lane with
      | none => .next s
      | some (i, a) =>
        let atSlice := s.bufs.countP fun x =>
          x.arrived && !x.spilled && cellDie x.cell == cellDie b.cell && sliceOf x.cell == sliceOf b.cell
        if b.arrived || !s.accReady b.issued o a || s.accHeld b.issued o a || (65536 ≤ atSlice && s.spillHeld b) then .next s
        else
          let ret := match o.kind with
            | .bufAtom _ _ r => r
            | _ => false
          let win := a.space == .flat true
          let s := (s.orderBefore o).ownFirst o.core a.addr a.size
          let a' := if ret && s.poisonedAt a.addr a.size then a.hitPoison else a.read (s.readNat .die win a.addr a.size)
          let s := if atSlice < 65536 then { s with bufs := s.bufs.set k { b with arrived := true } } else s.spill k b
          let s := s.orderAfter b.issued o a.lane
          .next ({ s with ops := tabMod s.ops b.issued fun x => { x with accs := x.accs.set i a' } }.settleOp b.issued)

end Sys2Proof.Machine
end

