-- ==== Sys2Proof/Machine/Tile.lean ====
section
/-! DEFINITION. The matrix engine (R260 to R292): its words, and the events by which its operations take effect in
acceptance order. -/

namespace Sys2Proof

open Machine

/-! ## Formats (R264, R282, R285, R288) -/

/-- The float format of a code; integers use none. -/
def TileFmt.fmt : TileFmt → Fmt
  | .e2m1 => fe2m1
  | .e4m3 => fe4m3
  | .e5m2 => fe5m2
  | .e3m2 => fe3m2
  | .e2m3 => fe2m3
  | _ => fbf16
def TileFmt.integer : TileFmt → Bool
  | .i4 | .i8 => true
  | _ => false
def TileFmt.fp6 : TileFmt → Bool
  | .e3m2 | .e2m3 => true
  | _ => false
/-- Bits of an element in the main array; the nibble plane of FP6. -/
def TileFmt.bits : TileFmt → Nat
  | .e2m1 | .e3m2 | .e2m3 | .i4 => 4
  | .bf16 => 16
  | _ => 8
/-- A format with block scales. -/
def TileFmt.scaled (f : TileFmt) : Bool := !(f.integer || f == .bf16)
/-- The bytes of n packed elements, both planes of FP6. -/
def TileFmt.bytes (f : TileFmt) (n : Nat) : Nat := n * f.bits / 8 + (if f.fp6 then n / 4 else 0)
/-- The value of an element code. -/
def TileFmt.value (f : TileFmt) (code : Nat) : FVal :=
  if f.integer then
    let v := sval f.bits code
    .fin (decide (v < 0)) v.natAbs 0
  else f.fmt.value code
/-- A format and its B formats (R264). -/
def TileFmt.pairs (a b : TileFmt) : Bool :=
  if a == .bf16 || b == .bf16 then a == b else a.integer == b.integer

/-- Where the parts of an image begin (R285): the scales, the metadata, and the image's end. -/
def TileFmt.data (f : TileFmt) : Nat := f.bytes 65536
def TileFmt.scaleBytes (f : TileFmt) (sparse : Bool) : Nat := if f.scaled then (if sparse then 4096 else 2048) else 0
def TileFmt.meta (f : TileFmt) : Nat := f.data + f.scaleBytes true
def TileFmt.image (f : TileFmt) (sparse : Bool) : Nat :=
  if sparse then f.meta + 8192 else f.data + f.scaleBytes false

end Sys2Proof

namespace Sys2Proof.Machine

/-- Element k of a packed array of count elements held in bytes (R67, R68). -/
def packedCode (f : TileFmt) (bytes : List Byte) (count k : Nat) : Nat :=
  let byte (i : Nat) : Nat := (bytes.getD i 0).toNat
  if f.fp6 then
    byte (k / 2) / 16 ^ (k % 2) % 16 * 4 + byte (count / 2 + k / 4) / 4 ^ (k % 4) % 4
  else if f.bits = 4 then byte (k / 2) / 16 ^ (k % 2) % 16
  else if f.bits = 8 then byte k
  else byte (2 * k) + 256 * byte (2 * k + 1)

/-! ## 2:4 masks (R272) -/

def rowNibbles : List Nat := [3, 5, 6, 9, 10, 12]
/-- Four row nibbles whose columns hold two each. -/
def maskOk (r : List Nat) : Bool := (List.range 4).all fun c => (r.countP fun x => nbit x c) == 2
/-- The 90 valid masks in ascending order. -/
def validMasks : List Nat :=
  rowNibbles.flatMap fun r3 => rowNibbles.flatMap fun r2 => rowNibbles.flatMap fun r1 => rowNibbles.filterMap fun r0 =>
    if maskOk [r0, r1, r2, r3] then some (r0 + 16 * r1 + 256 * r2 + 4096 * r3) else none
/-- The bit positions of a mask in ascending order. -/
def maskBits (m : Nat) : List Nat := (List.range 16).filter (nbit m)

/-! ## The B image (R265, R273, R274, R285) -/

/-- The elements of a dense image, keyed k × 256 + n. -/
def denseElems (f : TileFmt) (orientT : Bool) (img : List Byte) : Tab Nat :=
  (List.range 65536).map fun e =>
    (e, packedCode f img 65536 (if orientT then e % 256 * 256 + e / 256 else e))
/-- Metadata word i. -/
def metaWord (f : TileFmt) (img : List Byte) (i : Nat) : Nat := leNat ((img.drop (f.meta + 4 * i)).take 4)
/-- The metadata names valid patterns alone (R274). -/
def metaOk (f : TileFmt) (img : List Byte) : Bool :=
  (List.range 2048).all fun i =>
    let w := metaWord f img i
    w / 2 ^ 28 == 0 && (List.range 4).all fun j => w / 2 ^ (7 * j) % 128 < 90
/-- The kept elements of a sparse image. -/
def sparseElems (f : TileFmt) (orientT : Bool) (img : List Byte) : Tab Nat :=
  let cols := if orientT then 128 else 64
  let block (b : Nat) : List (Nat × Nat) :=
    let mask := validMasks.getD (metaWord f img (b / 4) / 2 ^ (7 * (b % 4)) % 128) 0
    ((List.range 8).zip (maskBits mask)).map fun p =>
      let row := b / cols * 4 + p.2 / 4
      let col := b % cols * 4 + p.2 % 4
      (if orientT then col * 256 + row else row * 256 + col, packedCode f img 65536 (8 * b + p.1))
  ((List.range 8192).flatMap block).foldl (fun t p => tabPut t p.1 p.2) []
/-- The scales, keyed n × 16 + j. -/
def imageScales (f : TileFmt) (sparse : Bool) (img : List Byte) : Tab Nat :=
  if f.scaled then
    let per := if sparse then 16 else 8
    (List.range (256 * per)).map fun i => (i / per * 16 + i % per, (img.getD (f.data + i) 0).toNat)
  else []

/-! ## Handles (R261, R283, R284) -/

def Core.acc (k : Core) (h : Nat) : AccHandle := tabGet k.accs AccHandle.reset h
def Core.b (k : Core) (h : Nat) : BHandle := tabGet k.bs BHandle.reset h
def Core.setAcc (k : Core) (h : Nat) (a : AccHandle) : Core := { k with accs := tabPut k.accs h a }
def Core.setB (k : Core) (h : Nat) (b : BHandle) : Core := { k with bs := tabPut k.bs h b }
def State.modCore (s : State) (n : Nat) (f : Core → Core) : State := s.setCore n (f (s.core n))
def Ctx.holdsAcc (c : Ctx) (s : State) (h : Nat) : Bool := ((s.core c.core).acc h).owner == some c.gang.block
def Ctx.holdsB (c : Ctx) (s : State) (h : Nat) : Bool := ((s.core c.core).b h).owner == some c.gang.block

/-- The 32 row generators that a seed gives (R263). -/
def rowGens (seed : DWord) (block acc : Nat) : Tab DWord × Tab DWord :=
  let g := (List.range 32).map fun m => (m, genSeed seed (rowId block acc m))
  (g.map fun p => (p.1, p.2.1), g.map fun p => (p.1, p.2.2))

/-- The handle that a TALLOC takes; none for none free. -/
def Core.pick (k : Core) (isB any : Bool) (n : Nat) : Option Nat :=
  let free (h : Nat) : Bool :=
    if isB then (k.b h).owner.isNone && !(k.b h).freeing else (k.acc h).owner.isNone && !(k.acc h).freeing
  if any then (List.range (if isB then 8 else 16)).find? free else some n
/-- TALLOC (R283). -/
def execTalloc (h : Hd) (isB any : Bool) (n : BitVec 5) (d : Reg) : State → Host.Outcome State Fault Refusal :=
  word (.talloc h isB any n d) fun c perf s =>
    if perf = 0 then .ok s
    else
      let k := s.core c.core
      let blk := c.gang.block
      let give (s : State) (r : Nat) : State :=
        s.modGang c.gid fun g => { g with lanes := writeLanes c.run.xb perf (fun _ => outW d r) g.lanes }
      match k.pick isB any n.toNat with
      | none => .ok (give s 0xFFFFFFFF)
      | some x =>
        let owner := if isB then (k.b x).owner else (k.acc x).owner
        let freeing := if isB then (k.b x).freeing else (k.acc x).freeing
        if owner = some blk then .ok (give s x)
        else if owner.isSome || freeing then .ok (give s 0xFFFFFFFF)
        else if isB then
          let b : BHandle := { k.b x with owner := some blk, valid := false, reason := 0 }
          .ok (give (s.setCore c.core (k.setB x b)) x)
        else
          let gens := rowGens (BitVec.ofNat 64 (c.task s).tcb.seed) (s.block blk).idx x
          let a : AccHandle := { AccHandle.reset with owner := some blk, g0 := gens.1, g1 := gens.2 }
          .ok (give (s.setCore c.core (k.setAcc x a)) x)

/-- File a tile operation (R281, R292). -/
def State.tileOp (s : State) (c : Ctx) (m : LaneSet) (kind : OpKind) (scope : Scope) : State :=
  s.addOp c m kind .tl .rlx scope none []

/-- TFREE (R284). -/
def execTfree (h : Hd) (isB : Bool) (n : BitVec 5) : State → Host.Outcome State Fault Refusal :=
  word (.tfree h isB n) fun c perf s =>
    if perf = 0 || !(if isB then c.holdsB s n.toNat else c.holdsAcc s n.toNat) then .ok s
    else
      let drop (k : Core) : Core :=
        if isB then k.setB n.toNat { k.b n.toNat with owner := none, freeing := true }
        else k.setAcc n.toNat { k.acc n.toNat with owner := none, freeing := true }
      .ok ((s.modCore c.core drop).tileOp c perf (.tfree isB n.toNat) .k)

/-! ## Acceptance order (R268, R278) -/

/-- The accumulator handle and rows that an operation names. -/
def Op.accUse (o : Op) : Option (Nat × LaneSet) :=
  match o.kind with
  | .tmma _ _ _ acc _ _ _ _ => some (acc, o.active)
  | .tzero acc => some (acc, o.active)
  | .tread acc _ _ => some (acc, o.active)
  | .tstore _ _ acc _ => some (acc, o.active)
  | .tcfg acc _ _ => some (acc, 0xFFFFFFFF)
  | .tfree false h => some (h, 0xFFFFFFFF)
  | _ => none
/-- The B handle that an operation names. -/
def Op.bUse (o : Op) : Option Nat :=
  match o.kind with
  | .tloadb _ _ _ bh _ => some bh
  | .tmma _ _ bh _ _ _ _ _ => some bh
  | .tfree true h => some h
  | _ => none
def Op.isTmma (o : Op) : Bool := match o.kind with
  | .tmma _ _ _ _ _ _ _ _ => true
  | _ => false
/-- The earlier operation p must be through before o takes effect: both name a handle, but for passes that share no row, or read
one tile. -/
def Op.precedes (p o : Op) : Bool :=
  (match p.accUse, o.accUse with
    | some (h, m), some (h', m') => h == h' && (m &&& m' != 0 || !(p.isTmma && o.isTmma))
    | _, _ => false) ||
  (match p.bUse, o.bUse with
    | some h, some h' => h == h' && !(p.isTmma && o.isTmma)
    | _, _ => false)
/-- A tile operation may take effect: its block runs, and no earlier one of its block, which alone names its handles,
stands before it (R261, R278, R279). -/
def State.tileReady (s : State) (id : Nat) (o : Op) : Bool :=
  (s.block o.block).status == .resident &&
    s.ops.all fun p => id ≤ p.1 || p.2.cls != .tl || p.2.block != o.block || !p.2.precedes o

/-! ## TLOADB (R286) -/

/-- The checks that trap in the leading lane alone, page by page. -/
def Ctx.remoteChecks (c : Ctx) (s : State) (r w : Bool) : Checks :=
  { need := c.need s r w, align := 1, leaves := false, tempo := w, dups := false, strong := true }
def trapAt (f : Fail) (m : LaneSet) (addr : Nat) : Trap := Trap.of f (lowestLane m) addr

/-- TLOADB. -/
def execTloadb (h : Hd) (f : TileFmt) (orientT sparse : Bool) (bh : BitVec 3) (a : Reg) (off : BitVec 22) :
    State → Host.Outcome State Fault Refusal :=
  word (.tloadb h f orientT sparse bh a off) fun c perf s =>
    match lowestLane perf with
    | none => .ok s
    | some l =>
      let base := c.addr l a off
      if !c.holdsB s bh.toNat then .error (trapAt (failAccess 6) perf base)
      else if base % 4096 != 0 then .error (trapAt (failOf tcMisalign) perf base)
      else
        let fs := c.rangeFound s (c.remoteChecks s true false) l base (f.image sparse)
        match pickFail true (failsOf (fs.map (·.1))) with
        | some t => .error t
        | none => .ok (s.tileOp c perf (.tloadb f orientT sparse bh.toNat (segsOf l fs)) .k)

/-- TLOADB_BEGIN: the passes accepted before it have read the old tile. -/
def execTloadbBegin (op : Nat) (s : State) : Host.Outcome State Fault Refusal :=
  match tabFind s.ops op with
  | some o =>
    match o.kind with
    | .tloadb _ _ _ bh segs =>
      if o.began || !s.tileReady op o || !s.storesDone op o || s.segsWait op segs then .next s
      else
        let s := s.modCore o.core fun k => k.setB bh { k.b bh with valid := false, reason := 0 }
        .next { s with ops := tabMod s.ops op fun x => { x with began := true } }
    | _ => .next s
  | none => .next s

/-- A granule of an image is read before the rest (R227). -/
def State.loadGranule (s : State) (id : Nat) (o : Op) (n : Nat) : State :=
  match o.kind with
  | .tloadb _ _ _ _ segs =>
    let g := segPart (32 * n) 32 segs
    if !o.began || g.isEmpty || s.segsWait id g || (o.part? 32 n).isSome then s
    else s.addPart id (Acc.part 32 n (leNat (s.segBytes (.core o.core) g)) (s.segsPoisoned o.core g))
  | _ => s
/-- The bytes of an image: those of the granules read before, and the rest as they stand. -/
def State.loadImage (s : State) (o : Op) (segs : List Seg) : List Byte :=
  (s.segBytes (.core o.core) segs).mapIdx fun i b => match o.part? 32 (i / 32) with
    | some a => BitVec.ofNat 8 (a.got / 256 ^ (i % 32))
    | none => b
/-- Poison in a granule as it was read. -/
def State.loadPoisoned (s : State) (o : Op) (segs : List Seg) : Bool :=
  (List.range ((segs.map (·.n)).foldl (· + ·) 0 / 32 + 1)).any fun n => match o.part? 32 n with
    | some a => a.poison
    | none => s.segsPoisoned o.core (segPart (32 * n) 32 segs)
/-- TLOADB_FINISH: the image is in the macro, or the load has failed. -/
def execTloadbFinish (op : Nat) (s : State) : Host.Outcome State Fault Refusal :=
  match tabFind s.ops op with
  | some o =>
    match o.kind with
    | .tloadb f orientT sparse bh segs =>
      if !o.began || s.segsWait op segs then .next s
      else
        let img := s.loadImage o segs
        let reason := if s.loadPoisoned o segs then 2 else if sparse && !metaOk f img then 1 else 0
        let load (b : BHandle) : BHandle :=
          if reason != 0 then { b with valid := false, reason := reason }
          else { b with valid := true, reason := 0, fmt := f, sparse := sparse, orientT := orientT,
                        elems := if sparse then sparseElems f orientT img else denseElems f orientT img,
                        scales := imageScales f sparse img }
        let s := s.modCore o.core fun k => if (k.b bh).owner = none && !(k.b bh).freeing then k else k.setB bh (load (k.b bh))
        .next { s with ops := tabDel s.ops op }
    | _ => .next s
  | none => .next s

/-! ## TMMA (R287, R288) -/

/-- The latest TLOADB of a B handle that has not finished: its format, and whether its image is sparse. -/
def State.loading (s : State) (block bh : Nat) : Option (TileFmt × Bool) :=
  s.ops.foldl (fun r p => match p.2.kind with
    | .tloadb f _ sp b _ => if p.2.block = block && b = bh then some (f, sp) else r
    | _ => r) none
/-- The alignment of an A row. -/
def rowAlign (n : Nat) : Nat := if n ≤ 64 then 64 else if n ≤ 128 then 128 else if n ≤ 256 then 256 else 512

/-- TMMA: checks, then one operation for each quarter that holds a performing lane. -/
def execTmma (h : Hd) (tri : Bool) (af : TileFmt) (bh : BitVec 3) (acc : BitVec 4) (ro so cc : Reg) :
    State → Host.Outcome State Fault Refusal :=
  word (.tmma h tri af bh acc ro so cc) fun c perf s =>
    let b := (s.core c.core).b bh.toNat
    let load := s.loading c.gang.block bh.toNat
    let f := (load.map (·.1)).getD b.fmt
    let sparse := (load.map (·.2)).getD b.sparse
    let n := af.bytes (if sparse then 512 else 256)
    let per := if sparse then 16 else 8
    let aRead := if tri || af.scaled then [so.toNat] else []
    let row (l : Nat) : Nat := c.rdAfter l ro.toNat (aRead ++ if tri then [cc.toNat] else []) % 2 ^ 19
    let sc (l : Nat) : Nat := c.rd l so.toNat 0 % 2 ^ 19
    let limit := (c.task s).tcb.scratch
    let bad (l : Nat) : Option (Nat × Nat × Nat × Fail) :=
      if row l % rowAlign n != 0 then some (l, row l, 3, failOf tcMisalign)
      else if af.scaled && sc l % per != 0 then some (l, sc l, 3, failOf tcMisalign)
      else if limit < row l + n then some (l, row l, 4, failAccess 11)
      else if af.scaled && limit < sc l + per then some (l, sc l, 4, failAccess 11)
      else none
    if perf = 0 then .ok s
    else if !c.holdsAcc s acc.toNat || !c.holdsB s bh.toNat then .error (trapAt (failAccess 6) perf 0)
    else if load.isNone && !b.valid then
      .error (trapAt { code := tcAccess, info := if b.reason = 0 then 6 else 6 + bh.toNat * 256 + b.reason * 4096 } perf 0)
    else if !af.pairs f then .error (trapAt (failOf tcIllegal) perf 0)
    else
      match pickFail true ((lanesIn perf).filterMap bad) with
      | some t => .error t
      | none =>
        let first := s.nextId
        let quarter (s : State) (q : Nat) : State :=
          let m := perf &&& (sliceLanes (2 * q) ||| sliceLanes (2 * q + 1))
          match lowestLane m with
          | none => s
          | some l =>
            let kind : OpKind :=
              .tmma tri af bh.toNat acc.toNat q ((lanesIn m).map fun x => (x, row x, sc x))
                (sval 9 (c.rd l so.toNat 0 / 2 ^ 23)) (if tri then BitVec.ofNat 32 (c.rdAfter l cc.toNat aRead) else 0)
            let id := s.nextId
            let s := s.tileOp c m kind .k
            { s with ops := tabMod s.ops id fun o => { o with word := first } }
        .ok ((List.range 4).foldl quarter s)

/-! ## Passes (R266 to R276) -/

/-- What fusion asks two TMMAs to share (R269). -/
def fuseKey : OpKind → Option (Nat × TileFmt × Bool × Int × Word)
  | .tmma tri af bh _ _ _ d cc => some (bh, af, tri, if tri then d else 0, cc)
  | _ => none
/-- The row group a TMMA writes. -/
def rowGroup : OpKind → Nat
  | .tmma _ _ _ acc q _ _ _ => acc * 4 + q
  | _ => 0
/-- The unbegun TMMAs of a macro, oldest first; those of a halted block are not taken (R279). -/
def State.waiting (s : State) (core bh : Nat) : List (Nat × Op) :=
  s.ops.filter fun p => p.2.core == core && !p.2.began && p.2.isTmma && p.2.bUse == some bh &&
    (s.block p.2.block).status == .resident
/-- The operations of the next pass of a macro: the oldest, and those that fuse with it. -/
def State.passOps (s : State) (core bh : Nat) : List (Nat × Op) :=
  match s.waiting core bh with
  | [] => []
  | first :: rest =>
    if !s.tileReady first.1 first.2 then []
    else
      rest.foldl (fun ps p =>
        if ps.length < 4 && fuseKey p.2.kind == fuseKey first.2.kind && s.tileReady p.1 p.2 &&
            !(ps.map fun q => rowGroup q.2.kind).contains (rowGroup p.2.kind) then ps ++ [p] else ps) [first]

/-- The codes and scales of n elements of A at the offsets of a row and its scales. -/
def readA (b : Block) (af : TileFmt) (n row sc : Nat) : List Nat × List Nat :=
  let bytes := (List.range (af.bytes n)).map fun i => b.scratchByte (row + i)
  ((List.range n).map (packedCode af bytes n),
    (List.range (n / 32)).map fun j => if af.scaled then (b.scratchByte (sc + j)).toNat else 127)
/-- What a pass reads of A for one operation: keyed op × 32 + row, codes and scales. -/
def readRows (b : Block) (sparse : Bool) (id : Nat) (k : OpKind) : List (Nat × List Nat × List Nat) :=
  match k with
  | .tmma _ af _ _ _ rows _ _ =>
    rows.map fun r => (id * 32 + r.1, readA b af (if sparse then 512 else 256) r.2.1 r.2.2)
  | _ => []
/-- The offsets of the bytes that element k of n holds: its main array, and the second plane of FP6. -/
def aPlace (f : TileFmt) (k : Nat) : Nat := k * f.bits / 8
def aPlane (n k : Nat) : Nat := n / 2 + k / 4
/-- A row read again in one granule of the scratchpad, and kept elsewhere (R270). -/
def readAgain (b : Block) (af : TileFmt) (row sc granule : Nat) (old : List Nat × List Nat) : List Nat × List Nat :=
  let n := old.1.length
  let new := readA b af n row sc
  let hit (off : Nat) : Bool := off / 32 == granule
  let code (k x : Nat) : Nat :=
    let y := new.1.getD k 0
    if af.fp6 then
      (if hit (row + aPlace af k) then y / 4 else x / 4) * 4 + if hit (row + aPlane n k) then y % 4 else x % 4
    else if hit (row + aPlace af k) then y else x
  (old.1.mapIdx code, old.2.mapIdx fun j x => if hit (sc + j) then new.2.getD j 0 else x)
/-- A pass in progress reads a granule of A for one of its operations after the others (R270). -/
def State.rereadGranule (s : State) (id : Nat) (o : Op) (granule : Nat) : State :=
  match o.kind with
  | .tmma _ af _ _ _ rows _ _ =>
    let again (r : Nat × List Nat × List Nat) : Nat × List Nat × List Nat :=
      match (if r.1 / 32 = id then rows.find? fun x => x.1 == r.1 % 32 else none) with
      | some x => (r.1, readAgain (s.block o.block) af x.2.1 x.2.2 granule r.2)
      | none => r
    s.modCore o.core fun k =>
      { k with passes := k.passes.map fun p => (p.1, { p.2 with rows := p.2.rows.map again }) }
  | _ => s

/-- MATRIX_PASS_BEGIN: a free macro forms its next pass; a tile that is not valid gives one that writes nothing. -/
def execMatrixPassBegin (core m : Nat) (s : State) : Host.Outcome State Fault Refusal :=
  let k := s.core core
  match tabFind k.passes m, s.passOps core m with
  | none, p :: ps =>
    if !(p :: ps).all fun q => s.storesDone q.1 q.2 then .next s
    else
      let ids := (p :: ps).map (·.1)
      let b := k.b m
      let rows := if b.valid then (p :: ps).flatMap fun q => readRows (s.block q.2.block) b.sparse q.1 q.2.kind else []
      let pass : Pass := { ops := ids, rows := rows, void := !b.valid }
      let begin_ (q : Nat × Op) : Nat × Op := if ids.contains q.1 then (q.1, { q.2 with began := true }) else q
      .next { s.setCore core { k with passes := tabPut k.passes m pass } with ops := s.ops.map begin_ }
  | _, _ => .next s

/-- The rounding of one element: nearest, or with a draw of the row's generator (R276). -/
def rowMode (sr : Bool) (g : DWord × DWord) : Mode × (DWord × DWord) :=
  if sr then
    let r := genStep g.1 g.2
    (.sr (draw16 r.2.2), (r.1, r.2.1))
  else (.to .rne, g)

/-- The terms of K-rows lo..lo + n − 1 for column col: an element that the tile does not hold gives +0 (R266). -/
def passTerms (af : TileFmt) (b : BHandle) (codes : List Nat) (col lo n : Nat) : List (FVal × FVal) :=
  (List.range n).map fun i =>
    match tabFind b.elems ((lo + i) * 256 + col) with
    | some e => (af.value (codes.getD (lo + i) 0), b.fmt.value e)
    | none => (.fin false 0 0, .fin false 0 0)

/-- One block or group of K for every column of a row, ascending (R266, R275, R276). -/
def passStep (af : TileFmt) (b : BHandle) (sr : Bool) (codes scales : List Nat) (above : Nat → Bool) (j : Nat)
    (st : List Nat × (DWord × DWord)) : List Nat × (DWord × DWord) :=
  (List.range 256).foldl (fun (r : List Nat × (DWord × DWord)) col =>
    let old := st.1.getD col 0
    if above col then (r.1 ++ [old], r.2)
    else
      let (md, g) := rowMode sr r.2
      let v := if af == .bf16 then (windowSum md old (passTerms af b codes col (8 * j) 8)).1
        else (blockSum af.integer md old (scales.getD j 127) (if af.scaled then tabGet b.scales 127 (col * 16 + j) else 127)
          (passTerms af b codes col (32 * j) 32)).1
      (r.1 ++ [v], g)) ([], st.2)

/-- One row of a pass: its elements above the diagonal are c (R275). -/
def passRow (b : BHandle) (k : OpKind) (a : AccHandle) (m : Nat) (codes scales : List Nat) : AccHandle :=
  match k with
  | .tmma tri af _ _ _ _ d cc =>
    let above (n : Nat) : Bool := tri && decide ((m : Int) + d < n)
    let old := (List.range 256).map fun n => (tabGet a.elems 0 (m * 256 + n)).toNat
    let steps := codes.length / (if af == .bf16 then 8 else 32)
    let r := (List.range steps).foldl (fun st j => passStep af b a.sr codes scales above j st)
      (old, (tabGet a.g0 0 m, tabGet a.g1 0 m))
    let cval := if (fp32.value cc.toNat).isNan then fp32.nanBits else cc.toNat
    let put (t : Tab Word) (n : Nat) : Tab Word :=
      tabPut t (m * 256 + n) (BitVec.ofNat 32 (if above n then cval else r.1.getD n 0))
    { a with elems := (List.range 256).foldl put a.elems, g0 := tabPut a.g0 m r.2.1, g1 := tabPut a.g1 m r.2.2 }
  | _ => a

/-- MATRIX_PASS_COMPLETE: the rows of a pass are written, in acceptance order. -/
def execMatrixPassComplete (core m : Nat) (s : State) : Host.Outcome State Fault Refusal :=
  let k := s.core core
  match tabFind k.passes m with
  | none => .next s
  | some p =>
    let b := k.b m
    let row (k : Core) (r : Nat × List Nat × List Nat) : Core :=
      match tabFind s.ops (r.1 / 32) with
      | some o =>
        match o.kind with
        | .tmma _ _ _ acc _ _ _ _ => k.setAcc acc (passRow b o.kind (k.acc acc) (r.1 % 32) r.2.1 r.2.2)
        | _ => k
      | none => k
    let k := if p.void then k else p.rows.foldl row k
    .next { s.setCore core { k with passes := tabDel k.passes m } with
      ops := s.ops.filter fun q => !p.ops.contains q.1 }

/-! ## TZERO, TCFG, TREAD, TSTORE (R289 to R291) -/

def execTzero (h : Hd) (acc : BitVec 4) : State → Host.Outcome State Fault Refusal :=
  word (.tzero h acc) fun c perf s =>
    if perf = 0 then .ok s
    else if !c.holdsAcc s acc.toNat then .error (trapAt (failAccess 6) perf 0)
    else .ok (s.tileOp c perf (.tzero acc.toNat) .k)
def execTcfg (h : Hd) (sr reseed : Bool) (acc : BitVec 4) (a : Reg) : State → Host.Outcome State Fault Refusal :=
  word (.tcfg h sr reseed acc a) fun c perf s =>
    match lowestLane perf with
    | none => .ok s
    | some l =>
      if !c.holdsAcc s acc.toNat then .error (trapAt (failAccess 6) perf 0)
      else .ok (s.tileOp c perf (.tcfg acc.toNat sr (if reseed then some (c.rdPair l a.toNat) else none)) .k)
def execTread (h : Hd) (acc : BitVec 4) (n : BitVec 3) (a : Reg) : State → Host.Outcome State Fault Refusal :=
  word (.tread h acc n a) fun c perf s =>
    let col (l : Nat) : Nat := c.rd l a.toNat 0 % 256
    if perf = 0 then .ok s
    else if !c.holdsAcc s acc.toNat then .error (trapAt (failAccess 6) perf 0)
    else
      match (lanesIn perf).find? fun l => 256 < col l + n.toNat + 1 with
      | some l => .error (Trap.of (failAccess 11) (some l) 0)
      | none => .ok (s.tileOp c perf (.tread acc.toNat (n.toNat + 1) ((lanesIn perf).map fun l => (l, col l))) .k)

def StoreFmt.fmt : StoreFmt → Fmt
  | .f32 => fp32
  | .bf16 => fbf16
  | .f16 => fp16
  | .e4m3 => fe4m3
  | .e5m2 => fe5m2
  | .e2m1 => fe2m1
/-- The bytes of a stored row. -/
def rowBytes (tf : StoreFmt) : Nat := 32 * (StoreFmt.fmt tf).width
def engScope : EngScope → Scope
  | .k => .k
  | .d => .d
  | .s => .s

/-- TSTORE. -/
def execTstore (h : Hd) (tf : StoreFmt) (sc : EngScope) (sr : Bool) (acc : BitVec 4) (a : Reg) (off : BitVec 22) :
    State → Host.Outcome State Fault Refusal :=
  word (.tstore h tf sc sr acc a off) fun c perf s =>
    if perf = 0 then .ok s
    else if !c.holdsAcc s acc.toNat then .error (trapAt (failAccess 6) perf 0)
    else
      let mis := (lanesIn perf).find? fun l => c.addr l a off % 32 != 0
      let fs := (lanesIn perf).flatMap fun l => c.rangeFound s (c.remoteChecks s false true) l (c.addr l a off) (rowBytes tf)
      match mis, pickFail true (failsOf (fs.map (·.1))) with
      | some l, _ => .error (Trap.of (failOf tcMisalign) (some l) (c.addr l a off))
      | none, some t => .error t
      | none, none =>
        .ok (s.tileOp c perf (.tstore tf sr acc.toNat ((lanesIn perf).map fun l => (l, segsOf l fs))) (engScope sc))

/-- The accumulator operation that an event names, where it may take effect; one that has begun goes on while its block halts
(R279). -/
def State.accOp (s : State) (op : Nat) : Option Op :=
  match tabFind s.ops op with
  | some o => if s.tileReady op o || (o.began && (s.block o.block).status == .halting) then some o else none
  | none => none

/-- TZERO_EFFECT. -/
def execTzeroEffect (op : Nat) (s : State) : Host.Outcome State Fault Refusal :=
  match s.accOp op with
  | some o =>
    match o.kind with
    | .tzero acc =>
      let clear (a : AccHandle) : AccHandle := { a with elems := a.elems.filter fun p => !hasLane o.active (p.1 / 256) }
      .next { s.modCore o.core (fun k => k.setAcc acc (clear (k.acc acc))) with ops := tabDel s.ops op }
    | _ => .next s
  | none => .next s
/-- TCFG_EFFECT. -/
def execTcfgEffect (op : Nat) (s : State) : Host.Outcome State Fault Refusal :=
  match s.accOp op with
  | some o =>
    match o.kind with
    | .tcfg acc sr seed =>
      let set (a : AccHandle) : AccHandle :=
        match seed with
        | some x =>
          let g := rowGens (BitVec.ofNat 64 x) (s.block o.block).idx acc
          { a with sr := sr, g0 := g.1, g1 := g.2 }
        | none => { a with sr := sr }
      .next { s.modCore o.core (fun k => k.setAcc acc (set (k.acc acc))) with ops := tabDel s.ops op }
    | _ => .next s
  | none => .next s
/-- TREAD_DELIVERY. -/
def execTreadDelivery (op : Nat) (s : State) : Host.Outcome State Fault Refusal :=
  match s.accOp op with
  | some o =>
    match o.kind with
    | .tread acc n cols =>
      let a := (s.core o.core).acc acc
      let give (g : Gang) (p : Nat × Nat) : Gang :=
        (List.range n).foldl (fun g i => g.enqueue 0 p.1 (tabGet a.elems 0 (p.1 * 256 + p.2 + i))) g
      .next { s.modGang o.gang (fun g => cols.foldl give g) with ops := tabDel s.ops op }
    | _ => .next s
  | none => .next s

/-- One row rounded to its target, with the generator after it (R277). -/
def storeRow (tf : StoreFmt) (sr : Bool) (a : AccHandle) (m : Nat) : List Nat × AccHandle :=
  let f := StoreFmt.fmt tf
  let r := (List.range 256).foldl (fun (st : List Nat × (DWord × DWord)) n =>
    let (md, g) := rowMode sr st.2
    (st.1 ++ [(f.ofVal md (fp32.value (tabGet a.elems 0 (m * 256 + n)).toNat)).1], g))
    ([], (tabGet a.g0 0 m, tabGet a.g1 0 m))
  (r.1, if sr then { a with g0 := tabPut a.g0 m r.2.1, g1 := tabPut a.g1 m r.2.2 } else a)
/-- The bytes of packed codes of w bits, the first lowest. -/
def packBytes (w : Nat) (codes : List Nat) : List Byte :=
  leBytes (codes.length * w / 8) (codes.foldr (fun c x => c % 2 ^ w + 2 ^ w * x) 0)
/-- The granules that a TSTORE writes, in ascending address order, each with its lane and its number in the row: where rows
overlap, that of the highest lane (R228, R291). -/
def storeUnits (tf : StoreFmt) (rows : List (Nat × List Seg)) : List (Nat × Nat × Nat) :=
  let all := rows.flatMap fun r =>
    (List.range (rowBytes tf / 32)).map fun n => ((r.2.head?.map (·.va)).getD 0 + 32 * n, r.1, n)
  sortBy (fun x y => decide (x.1 ≤ y.1)) (all.filter fun u => !all.any fun v => v.1 == u.1 && u.2.1 < v.2.1)
/-- Where a granule of a lane's row lies. -/
def unitSegs (rows : List (Nat × List Seg)) (u : Nat × Nat × Nat) : List Seg :=
  segPart (32 * u.2.2) 32 ((tabFind rows u.2.1).getD [])
/-- The granules of a TSTORE that have not been stored. -/
def Op.unstored (o : Op) : List (Nat × Nat × Nat) := match o.kind with
  | .tstore tf _ _ rows => (storeUnits tf rows).drop o.accs.length
  | _ => []
/-- One granule of a TSTORE is stored. -/
def State.storeUnit (s : State) (id : Nat) (o : Op) (u : Nat × Nat × Nat) : State :=
  match o.kind with
  | .tstore tf sr acc rows =>
    let bytes := packBytes (StoreFmt.fmt tf).width (storeRow tf sr ((s.core o.core).acc acc) u.2.1).1
    s.segStore o.core o.scope true (engMaker id o 32 false) (unitSegs rows u) ((bytes.drop (32 * u.2.2)).take 32)
  | _ => s
/-- A granule of a TSTORE waits for its channel. -/
def State.unitWaits (s : State) (id : Nat) (o : Op) (u : Nat × Nat × Nat) : Bool := match o.kind with
  | .tstore _ _ _ rows => s.segsWait id (unitSegs rows u)
  | _ => false
/-- The next granule of a TSTORE is stored before the rest, and the TSTORE has begun (R227, R228, R279). -/
def State.storeGranule (s : State) (id : Nat) : State :=
  match s.accOp id with
  | some o =>
    match o.unstored with
    | u :: _ =>
      if s.unitWaits id o u then s
      else
        let s := (s.storeUnit id o u).addPart id (Acc.part 32 u.1 0 false)
        { s with ops := tabMod s.ops id fun x => { x with began := true } }
    | [] => s
  | none => s
/-- TSTORE_PERFORM: the granules that are left land, and the generators of its rows stand after their draws (R277). -/
def execTstorePerform (op : Nat) (s : State) : Host.Outcome State Fault Refusal :=
  match s.accOp op with
  | some o =>
    match o.kind with
    | .tstore tf sr acc rows =>
      if o.unstored.any (s.unitWaits op o) then .next s
      else
        let s := o.unstored.foldl (fun s u => s.storeUnit op o u) s
        let draw (k : Core) (r : Nat × List Seg) : Core := k.setAcc acc (storeRow tf sr (k.acc acc) r.1).2
        .next { s.modCore o.core (fun k => rows.foldl draw k) with ops := tabDel s.ops op }
    | _ => .next s
  | none => .next s
/-- HANDLE_FREED: every operation accepted before the TFREE is through. -/
def execHandleFreed (op : Nat) (s : State) : Host.Outcome State Fault Refusal :=
  match s.accOp op with
  | some o =>
    match o.kind with
    | .tfree isB h =>
      let free (k : Core) : Core :=
        if isB then k.setB h { k.b h with freeing := false, valid := false, reason := 0 } else k.setAcc h { k.acc h with freeing := false }
      .next { s.modCore o.core free with ops := tabDel s.ops op }
    | _ => .next s
  | none => .next s

end Sys2Proof.Machine
end

