-- ==== Sys2Proof/Machine/Copy.lean ====
section
/-! DEFINITION. The copy engine (R293 to R300): the on-chip map (R215 to R217), copies, layout records, batches. -/

namespace Sys2Proof.Machine

/-! ## The on-chip map (R180, R181, R215 to R217) -/

def mapRegion (a : Nat) : Nat := a / 2 ^ 58 % 8
def mapCore (a : Nat) : Nat := a / 2 ^ 52 % 64
def mapSel (a : Nat) : Nat := a / 2 ^ 20 % 2 ^ 32
def mapOff (a : Nat) : Nat := a % 2 ^ 20

/-- The block of a task that a map address names, on a core, resident or saved. -/
def State.mapBlock (s : State) (task core idx : Nat) : Option (Nat × Block) :=
  s.blocks.find? fun p => p.2.task == task && p.2.core == core && p.2.idx == idx &&
    (p.2.status == .resident || p.2.status == .halting || p.2.status == .halted || p.2.status == .saved)
/-- The gang of a task whose open window a map address names. -/
def State.mapGang (s : State) (task core sel : Nat) : Option (Nat × Gang) :=
  s.gangs.find? fun p => p.2.task == task && p.2.core == core && p.2.status != .ended &&
    match p.2.window with
    | some w => w.n != 0 && w.handle % 2 ^ 32 == sel
    | none => false
/-- The accumulator handle that a block holds, in its core or in its saved image. -/
def State.heldAcc (s : State) (bid : Nat) (b : Block) (h : Nat) : Option AccHandle :=
  if b.status == .saved then (tabFind b.savedAccs h).filter fun a => a.owner == some bid
  else
    let a := (s.core b.core).acc h
    if a.owner = some bid then some a else none

/-- A byte of a window: register, lane and byte within it (R180). -/
def Gang.windowByte (g : Gang) (w : Window) (off : Nat) : Byte :=
  BitVec.ofNat 8 ((tabGet g.lanes.regs 0 (regKey (off / 4 % 32) (w.base + off / 128))).toNat / 256 ^ (off % 4))
def Gang.setWindowByte (g : Gang) (w : Window) (off : Nat) (b : Byte) : Gang :=
  let k := regKey (off / 4 % 32) (w.base + off / 128)
  let v := (tabGet g.lanes.regs 0 k).toNat
  let v' := v - v / 256 ^ (off % 4) % 256 * 256 ^ (off % 4) + b.toNat * 256 ^ (off % 4)
  { g with lanes := { g.lanes with regs := tabPut g.lanes.regs k (BitVec.ofNat 32 v') } }

/-- Some bytes of a saved block or gang, one by one from its image (R217). -/
def State.imageEach (s : State) (t : Task) (core n : Nat) (at_ : Nat → Nat) : Option (List Byte) :=
  (List.range n).foldl (fun r i => match r, s.imageRead t core (at_ i) 1 with
    | some bs, some b => some (bs ++ b)
    | _, _ => none) (some [])
def State.imageEachWrite (s : State) (t : Task) (core : Nat) (at_ : Nat → Nat) (bytes : List Byte) : Option State :=
  State.imageWrites t core (((List.range bytes.length).zip bytes).map fun p => (at_ p.1, [p.2])) s

/-- What a map address names (R216): a target of its own task, and its byte at each offset from the address on. -/
inductive Target where
  | window (gid : Nat) (g : Gang) (w : Window)
  | block (bid : Nat) (b : Block)
  deriving DecidableEq, Repr
def State.mapTarget (s : State) (die task a : Nat) : Option Target :=
  let core := die * 64 + mapCore a
  if mapRegion a = 1 then
    (s.mapGang task core (mapSel a)).bind fun p => p.2.window.map fun w => .window p.1 p.2 w
  else (s.mapBlock task core (mapSel a)).map fun p => .block p.1 p.2
/-- Offset off lies within the region's extent, and names what the target holds (R217). -/
def State.mapHolds (s : State) (t : Tcb) (region off : Nat) : Target → Bool
  | .window _ _ w => decide (off < 128 * w.n)
  | .block bid b => match region with
    | 0 => decide (off < t.scratch)
    | 2 => decide (off < 2 ^ 20 ∧ off % 32768 < t.blkdim * t.priv)
    | 3 => decide (off < 2 ^ 19) && (s.heldAcc bid b (off / 32768)).isSome
    | 4 => decide (off < (t.scratch + 127) / 128)
    | _ => false
/-- Where a saved target keeps the byte at an offset, in the image of its core; none for one that is resident. -/
def Target.image (region off : Nat) : Target → Option Nat
  | .window _ g w => if g.status == .saved then some (g.imageWindow w off) else none
  | .block _ b =>
    if b.status != .saved then none
    else match region with
      | 0 => some (imgScratch + b.scratchPos + off)
      | 2 => some (b.imagePriv off)
      | _ => some (imgAcc + off)
/-- Byte `off` of the full/empty bits of a target (region 4): of a saved block, those of its image, where they can be read. Of a
last byte that the block's granules do not fill, the bits beyond them read 0 (DESIGN CHOICE, assumption log 66). -/
def State.mapBits (s : State) (tk : Task) (core off : Nat) (b : Block) : Option Byte :=
  let bit (k : Nat) : Option Bool :=
    if tk.tcb.scratch / 16 ≤ 8 * off + k then some false
    else if b.status == .saved then
      let q := b.scratchPos / 16 + 8 * off + k
      (s.imageRead tk core (imgFull + q / 8) 1).map fun bs => nbit (leNat bs) (q % 8)
    else some (b.full.contains (8 * off + k))
  (List.range 8).foldr (fun k v => match bit k, v with
    | some x, some v => some (v + x.toNat * 2 ^ k)
    | _, _ => none) (some 0) |>.map (BitVec.ofNat 8)
/-- A scratchpad byte as the engines of a core see it: copies of core scope may not have reached other cores (R232). -/
def Block.seenByte (b : Block) (core off : Nat) : Byte :=
  if b.core = core then b.scratchByte off else (tabFind b.unseen off).getD (b.scratchByte off)
/-- One byte of a target as the engines of core `by_` find it; `core` is the target's. -/
def State.mapByte (s : State) (tk : Task) (by_ core region off : Nat) (t : Target) : Option Byte :=
  match (if region = 4 then none else t.image region off) with
  | some at_ => (s.imageRead tk core at_ 1).bind (·.head?)
  | none => match t with
    | .window _ g w => some (g.windowByte w off)
    | .block bid b => match region with
      | 0 => some (b.seenByte by_ off)
      | 2 => some (tabGet b.priv 0 off)
      | 3 => (s.heldAcc bid b (off / 32768)).map fun h =>
          BitVec.ofNat 8 ((tabGet h.elems 0 (off % 32768 / 4)).toNat / 256 ^ (off % 4))
      | 4 => s.mapBits tk core off b
      | _ => none
/-- The n bytes that an engine of a core reads at a map address for a task; none where R217 refuses. -/
def State.mapRead (s : State) (core task a n : Nat) : Option (List Byte) :=
  let die := dieOf core
  (s.mapTarget die task a).bind fun t =>
    (List.range n).foldr (fun i r =>
      if s.mapHolds (s.task task).tcb (mapRegion a) (mapOff a + i) t then
        match s.mapByte (s.task task) core (die * 64 + mapCore a) (mapRegion a) (mapOff a + i) t, r with
        | some b, some bs => some (b :: bs)
        | _, _ => none
      else none) (some [])
/-- A map access reaches cells of a saved image whose channel holds accesses (R316). -/
def State.mapHeld (s : State) (die task a n : Nat) : Bool :=
  match s.mapTarget die task a with
  | none => false
  | some t => (List.range n).any fun i => match t.image (mapRegion a) (mapOff a + i) with
      | some at_ => s.imageHeld (s.task task) (die * 64 + mapCore a) at_ 1
      | none => false

/-- A copy of core scope into a block of its own core: what other cores' engines may still see (R232). -/
def Block.hide (b old : Block) (off n : Nat) : Block :=
  { b with unseen := (List.range n).foldl (fun t i =>
      tabPut t (off + i) ((tabFind old.unseen (off + i)).getD (old.scratchByte (off + i)))) b.unseen }
/-- A write at a map address by an engine of core `by_`, whose scope is wider than a core or not; none where R217 refuses it. A
saved block's bytes land in its image (R217, R181). -/
def State.mapWrite (s : State) (by_ : Nat) (wide : Bool) (task a : Nat) (bytes : List Byte) : Option State :=
  let die := dieOf by_
  let core := die * 64 + mapCore a
  let off := mapOff a
  let n := bytes.length
  let tk := s.task task
  let image (t : Target) : Option State :=
    State.imageWrites tk core (((List.range n).zip bytes).map fun p => (((t.image (mapRegion a) (off + p.1)).getD 0), [p.2])) s
  match s.mapTarget die task a with
  | none => none
  | some t =>
    if !(List.range n).all fun i => s.mapHolds tk.tcb (mapRegion a) (off + i) t then none
    else match t with
      | .window gid g w =>
        if g.status == .saved then image t
        else some (s.setGang gid (((List.range n).zip bytes).foldl (fun g p => g.setWindowByte w (off + p.1) p.2) g))
      | .block bid b =>
        let gs := (List.range ((off + n - 1) / 16 - off / 16 + 1)).map (off / 16 + ·)
        match mapRegion a with
        | 0 =>
          if b.status != .saved then
            let new := b.engineWrite off bytes
            some (s.setBlock bid (if !wide && b.core == by_ then new.hide b off n else new))
          else if n = 0 then some s
          else (image t).bind (State.imageFill tk b gs)
        | 2 => if b.status == .saved then image t else some (s.setBlock bid (b.setPriv off bytes))
        | _ => none

/-! ## CPY (R295) -/

def CSize.bytes : CSize → Nat
  | .four => 4
  | .eight => 8
  | .sixteen => 16
def isMap (a : Nat) : Bool := a / 2 ^ 61 == 6

/-- The checks of a copy's flat end: pages that the lanes name (R295). -/
def Ctx.endFound (c : Ctx) (s : State) (w : Bool) (l a n : Nat) : List (LaneFound × Nat) :=
  if isMap a then [] else c.rangeFound s (c.remoteChecks s (!w) w) l a n
def Ctx.endRef (c : Ctx) (s : State) (w : Bool) (l a n : Nat) : Ref :=
  if isMap a then .map a else .flat (segsOf l (c.endFound s w l a n))

/-- A lane joins its open batch (R293). -/
def Gang.join (g : Gang) (m : LaneSet) : Gang :=
  let add (bs : List Batch) (l : Nat) : List Batch :=
    if bs.any fun b => b.lane == l && b.num == 0 then bs
    else bs ++ [{ lane := l, num := 0, post := false, fail := false }]
  { g with batches := (lanesIn m).foldl add g.batches }
/-- File a copy, which joins the open batch of each lane of m. -/
def State.copyOp (s : State) (c : Ctx) (m : LaneSet) (kind : OpKind) (scope : Scope) : State :=
  let id := s.nextId
  let s := (s.modGang c.gid fun g => g.join m).addOp c m kind .none .rlx scope none []
  { s with ops := tabMod s.ops id fun o => { o with batch := (lanesIn m).map fun l => (l, 0) } }

/-- CPY. -/
def execCpy (h : Hd) (sz : CSize) (sc : EngScope) (d a : Reg) (off : BitVec 22) : State → Host.Outcome State Fault Refusal :=
  word (.cpy h sz sc d a off) fun c perf s =>
    let n := CSize.bytes sz
    let dst (l : Nat) : Nat := c.rdPair l d.toNat
    let src (l : Nat) : Nat := c.addr l a off
    let fs := (lanesIn perf).flatMap fun l => c.endFound s false l (src l) n ++ c.endFound s true l (dst l) n
    match pickFail true (failsOf (fs.map (·.1))) with
    | some t => .error t
    | none =>
      if perf = 0 then .ok s
      else
        let elems := (lanesIn perf).map fun l => (l, c.endRef s false l (src l) n, c.endRef s true l (dst l) n)
        .ok (s.copyOp c perf (.cpy n elems) (engScope sc))

/-- Some cell of an end is held (R316). -/
def State.refHeld (s : State) (o : Op) (n : Nat) : Ref → Bool
  | .flat segs => s.segsHeld segs
  | .map a => s.mapHeld (dieOf o.core) (s.gang o.gang).task a n
/-- The same, or others come first there (R315). -/
def State.refWaits (s : State) (id : Nat) (o : Op) (n : Nat) : Ref → Bool
  | .flat segs => s.segsWait id segs
  | .map a => s.mapHeld (dieOf o.core) (s.gang o.gang).task a n
/-- Pieces of a flat destination are poisoned, but for the step window (R299). -/
def State.spoil (s : State) (o : Op) (segs : List Seg) : State :=
  segs.foldl (fun s g => if s.inStep g.cell then s.dropWrite g.cell else s.poisonFrom o.core g.cell g.n) s
/-- What one element's copy does: the state, and whether it failed (R299). -/
def State.copyElem (s : State) (o : Op) (m : Maker) (granules : Bool) (task n : Nat) (src dst : Ref) : State × Bool :=
  let bytes := match src with
    | .flat segs => some (s.segBytes (.core o.core) segs)
    | .map a => s.mapRead o.core task a n
  let bad := match src with
    | .flat segs => s.segsPoisoned o.core segs
    | .map _ => false
  match bytes, dst with
  | none, _ => (s, true)
  | some bs, .flat segs =>
    if bad then (s.spoil o segs, true)
    else (s.segStore o.core o.scope granules m segs bs, false)
  | some bs, .map a =>
    if bad then (s, true)
    else
      match s.mapWrite o.core o.scope.wide task a bs with
      | some s' => (s', false)
      | none => (s, true)
/-- A copy of a lane's batch has failed. -/
def State.failBatch (s : State) (o : Op) (l : Nat) : State :=
  let mark (b : Batch) : Batch :=
    if b.lane = l && tabFind o.batch l == some b.num then { b with fail := true } else b
  s.modGang o.gang fun g => { g with batches := g.batches.map mark }

/-- An end of an element is naturally aligned (R227). -/
def Ref.aligned (n : Nat) : Ref → Bool
  | .flat segs => (segs.head?.map fun g => g.va % n == 0).getD true
  | .map a => a % n == 0
/-- The k bytes of an end from byte j on. -/
def Ref.from (j k : Nat) : Ref → Ref
  | .flat segs => .flat (segPart j k segs)
  | .map a => .map (a + j)
/-- The bytes of an element that land with its byte j: of a register window those of one register (R181), of an element that is
aligned at both ends all n, of another byte j alone (R227). -/
def copyUnit (n : Nat) (src dst : Ref) (j : Nat) : Nat × Nat :=
  match dst with
  | .map a =>
    if mapRegion a = 1 then
      let lo := Nat.max a ((a + j) / 4 * 4) - a
      (lo, Nat.min n ((a + j) / 4 * 4 + 4 - a) - lo)
    else if src.aligned n && dst.aligned n then (0, n) else (j, 1)
  | .flat _ => if src.aligned n && dst.aligned n then (0, n) else (j, 1)
/-- An element's copy, or what is left of one whose bytes have landed unit by unit (R227). -/
def State.copyRest (s : State) (id : Nat) (o : Op) (n : Nat) (e : Nat × Ref × Ref) : State × Bool :=
  let m := engMaker id o e.1 true
  let task := (s.gang o.gang).task
  if o.accs.all fun a => a.lane != e.1 then s.copyElem o m false task n e.2.1 e.2.2
  else
    (List.range n).foldl (fun r j =>
      if r.2 || (o.part? e.1 j).isSome then r else r.1.copyElem o m false task 1 (e.2.1.from j 1) (e.2.2.from j 1)) (s, false)
/-- One lane's element of a CPY. -/
def State.copyOne (s : State) (id : Nat) (o : Op) (n : Nat) (e : Nat × Ref × Ref) : State :=
  let r := s.copyRest id o n e
  if r.2 then r.1.failBatch o e.1 else r.1
/-- The copies of an operation may be performed. -/
def State.copyReady (s : State) (id : Nat) (o : Op) (n : Nat) (elems : List (Nat × Ref × Ref)) : Bool :=
  s.storesDone id o && !elems.any fun e => s.refWaits id o n e.2.1 || s.refWaits id o n e.2.2
/-- CPY_COMPLETION. -/
def execCpyCompletion (op : Nat) (s : State) : Host.Outcome State Fault Refusal :=
  match s.liveOp op with
  | some o =>
    match o.kind with
    | .cpy n elems =>
      if !s.copyReady op o n elems then .next s
      else
        let s := elems.foldl (fun s e => s.copyOne op o n e) s
        .next { s with ops := tabDel s.ops op }
    | _ => .next s
  | none => .next s
/-- A lane's element is copied before the others (R239). -/
def State.copyEarly (s : State) (id lane : Nat) : State :=
  match s.liveOp id with
  | some o =>
    match o.kind with
    | .cpy n elems =>
      match elems.find? fun e => e.1 == lane with
      | some e =>
        if !s.copyReady id o n [e] then s
        else
          let s := s.copyOne id o n e
          { s with ops := tabMod s.ops id fun x => { x with kind := .cpy n (elems.filter fun y => y.1 != lane) } }
      | none => s
    | _ => s
  | none => s
/-- An element whose destination is in the on-chip map is written at all (R217). -/
def State.mapTakes (s : State) (o : Op) (n : Nat) : Ref → Bool
  | .flat _ => true
  | .map a => (s.mapWrite o.core o.scope.wide (s.gang o.gang).task a (List.replicate n 0)).isSome
/-- The unit of a lane's element that byte j lies in lands before the others (R181, R227). -/
def State.copyByte (s : State) (id lane j : Nat) : State :=
  match s.liveOp id with
  | some o =>
    match o.kind with
    | .cpy n elems =>
      match elems.find? fun e => e.1 == lane with
      | some (_, src, dst) =>
        let u := copyUnit n src dst j
        if n ≤ j || u.2 = n || (o.part? lane j).isSome || !s.mapTakes o n dst || !s.copyReady id o n [(lane, src, dst)] then s
        else
          let r := s.copyElem o (engMaker id o lane true) false (s.gang o.gang).task u.2 (src.from u.1 u.2) (dst.from u.1 u.2)
          if r.2 then s
          else (List.range u.2).foldl (fun s i => s.addPart id (Acc.part lane (u.1 + i) 0 false)) r.1
      | none => s
    | _ => s
  | none => s

/-! ## Layout records (R296, R297) -/

def recBase (r : Nat) : Nat := nbits r 511 448
def recExt (r k : Nat) : Nat := r / 2 ^ (416 - 32 * k) % 2 ^ 32
def recStr (r k : Nat) : Int := sval 32 (r / 2 ^ (288 - 32 * k))
def recEsz (r : Nat) : Nat := nbits r 191 189
def recKind (r : Nat) : Nat := nbits r 188 187
/-- Every field is valid; a reserved bit set is ignored (R296, R8). -/
def recOk (r : Nat) : Bool :=
  recEsz r ≤ 4 && recKind r ≤ 1 && (recKind r == 0 || recEsz r == 2 || recEsz r == 3)
def recCount (r : Nat) : Nat := recExt r 0 * recExt r 1 * recExt r 2 * recExt r 3
def recSize (r : Nat) : Nat := 2 ^ recEsz r
/-- The address of element i, dimension 0 varying fastest, with a byte offset. -/
def recAddr (r i : Nat) (off : Int) : Nat :=
  let e0 := recExt r 0
  let e1 := recExt r 1
  let e2 := recExt r 2
  let x : Int := (i % e0 : Nat) * recStr r 0 + (i / e0 % e1 : Nat) * recStr r 1 +
    (i / (e0 * e1) % e2 : Nat) * recStr r 2 + (i / (e0 * e1 * e2) : Nat) * recStr r 3
  wrapN 64 ((recBase r : Int) + x + off)

/-- LREC. -/
def execLrec (h : Hd) (k : BitVec 2) (a : Reg) (off : BitVec 22) : State → Host.Outcome State Fault Refusal :=
  word (.lrec h k a off) fun c perf s =>
    match lowestLane perf with
    | none => .ok s
    | some l =>
      let va := c.addr l a off
      if va % 64 != 0 then .error (trapAt (failOf tcMisalign) perf va)
      else
        let fs := c.rangeFound s (c.remoteChecks s true false) l va 64
        match pickFail true (failsOf (fs.map (·.1))) with
        | some t => .error t
        | none => .ok (s.addOp c perf (.lrec k.toNat (segsOf l fs)) .none .rlx .k none [])

/-- The engine takes the records and the words that read them in issue order (R297). -/
def OpKind.usesRecords : OpKind → Bool
  | .lrec _ _ | .cpyt _ _ _ _ _ _ _ _ | .ired _ _ _ _ _ _ => true
  | _ => false
def State.recordsTurn (s : State) (id : Nat) (o : Op) : Bool :=
  s.ops.all fun p => id ≤ p.1 || p.2.gang != o.gang || !p.2.kind.usesRecords
/-- The engine takes an IRED after the earlier copies of its issue order, CPY among them (R305). -/
def OpKind.copies : OpKind → Bool
  | .cpy _ _ => true
  | k => k.usesRecords
def State.copiesTurn (s : State) (id : Nat) (o : Op) : Bool :=
  s.ops.all fun p => id ≤ p.1 || p.2.gang != o.gang || !p.2.kind.copies

/-- LREC_READ: a poisoned record leaves its slot invalid. -/
def execLrecRead (op : Nat) (s : State) : Host.Outcome State Fault Refusal :=
  match s.liveOp op with
  | some o =>
    match o.kind with
    | .lrec k segs =>
      if !s.recordsTurn op o || !s.storesDone op o || s.segsWait op segs then .next s
      else
        let v : Option (BitVec 512) :=
          if s.segsPoisoned o.core segs then none else some (BitVec.ofNat 512 (leNat (s.segBytes (.core o.core) segs)))
        let s := s.modGang o.gang fun g => { g with records := tabPut g.records k v }
        .next { s with ops := tabDel s.ops op }
    | _ => .next s
  | none => .next s

/-! ## CPYT (R298, R299) -/

def execCpyt (h : Hd) (sc : EngScope) (ind : Bool) (ks kf kd : BitVec 2) (od of_ os : Reg) :
    State → Host.Outcome State Fault Refusal :=
  word (.cpyt h sc ind ks kf kd od of_ os) fun c perf s =>
    match lowestLane perf with
    | none => .ok s
    | some l =>
      let o1 := sval 32 (c.rd l of_.toNat 0)
      let o2 := if ind then sval 32 (c.rdAfter l os.toNat [of_.toNat]) else 0
      let o0 := sval 32 (c.rdAfter l od.toNat (of_.toNat :: if ind then [os.toNat] else []))
      .ok (s.copyOp c (lanesOf [l])
        (.cpyt ind ks.toNat kf.toNat kd.toNat o0 o1 o2 (s.holdsTempo (s.gang c.gid))) (engScope sc))

/-- A slot of a gang; a slot that no LREC has loaded holds zeros (R296). -/
def Gang.slot (g : Gang) (k : Nat) : Option Nat := (tabGet g.records (some 0) k).map BitVec.toNat

/-- The flat end of an element: none where it stops the transfer (R299). -/
def State.flatEnd (s : State) (o : Op) (task : Nat) (w tempo : Bool) (va n : Nat) : Option (List Seg) :=
  let t := s.task task
  let nd : Need := { r := !w, w := w, x := false, priv := t.privileged, encl := t.tcb.encl }
  let ps := (pieces (pagesFor n) va n).map fun p => (p, s.coreTranslate o.core p.1 p.2 nd)
  let segs := ps.filterMap fun p => match p.2 with
    | .ok l =>
      if l.die != dieOf o.core || (w && !tempo && t.tcb.det && t.inTempo l p.1.1 p.1.2) then none
      else some (l.segs p.1.1 p.1.2)
    | .error _ => none
  if segs.length = ps.length then some segs.flatten else none
/-- A flat end waits for a walk (R316). -/
def State.endWaits (s : State) (o : Op) (task : Nat) (w : Bool) (va n : Nat) : Bool :=
  let t := s.task task
  let nd : Need := { r := !w, w := w, x := false, priv := t.privileged, encl := t.tcb.encl }
  !isMap va && (pieces (pagesFor n) va n).any fun p => match s.coreTranslate o.core p.1 p.2 nd with
    | .ok _ => false
    | .error f => f = failWait
/-- An end of an element: flat or map; none where the transfer stops. -/
def State.elemEnd (s : State) (o : Op) (task : Nat) (w tempo : Bool) (va n : Nat) : Option Ref :=
  if isMap va then some (.map va) else (s.flatEnd o task w tempo va n).map .flat

/-- The source address of element i in the gather form: a bad index read is a failed element, a bad translation stops the
transfer (R298, R299). -/
def State.gatherSource (s : State) (o : Op) (task : Nat) (kf ks i : Nat) (of_ os : Int) : Option (Option Nat) :=
  match s.elemEnd o task false false (recAddr kf i of_) (recSize kf) with
  | none => none
  | some r =>
    let idx := match r with
      | .flat segs => if s.segsPoisoned o.core segs then none else some (s.segBytes (.core o.core) segs)
      | .map a => s.mapRead o.core task a (recSize kf)
    match idx with
    | none => some none
    | some bs => let v := leNat bs; some (if v < recCount ks then some (recAddr ks v os) else none)

/-- A CPYT whose records are valid: the element size, the address of each destination and of each source, the count (R298). -/
structure Transfer where
  task : Nat
  size : Nat
  count : Nat
  tempo : Bool
  ind : Bool
  d : Nat
  f : Nat
  k : Nat
  od : Int
  of_ : Int
  os : Int
  deriving DecidableEq, Repr
def Transfer.dst (x : Transfer) (i : Nat) : Nat := recAddr x.d i x.od
/-- The source of element i: none stops the transfer, none within it fails the element. -/
def State.transferSrc (s : State) (o : Op) (x : Transfer) (i : Nat) : Option (Option Nat) :=
  if x.ind then s.gatherSource o x.task x.f x.k i x.of_ x.os else some (some (recAddr x.f i x.of_))
/-- The transfer that a CPYT makes, if its records are valid. -/
def State.transfer (s : State) (o : Op) : Option Transfer :=
  match o.kind with
  | .cpyt ind ks kf kd od of_ os tempo =>
    let g := s.gang o.gang
    match g.slot kd, g.slot kf, (if ind then g.slot ks else some 0) with
    | some d, some f, some k =>
      if recOk d && recOk f && (!ind || recOk k) && recEsz d == recEsz (if ind then k else f) &&
          (if ind then recKind f == 1 else recCount d ≤ recCount f) then
        some { task := g.task, size := recSize d, count := recCount d, tempo := tempo, ind := ind, d := d, f := f, k := k,
               od := od, of_ := of_, os := os }
      else none
    | _, _, _ => none
  | _ => none

/-- What an element of a transfer comes to: it stops the transfer; it fails, and is not written; its destination is poisoned; or
these bytes are its copy (R299). -/
inductive Elem where
  | stop
  | skip
  | spoil (dst : Ref)
  | copy (dst : Ref) (bytes : List Byte)
  deriving DecidableEq, Repr
/-- The bytes of a source; none where R217 refuses it. -/
def State.refRead (s : State) (o : Op) (task n : Nat) : Ref → Option (List Byte)
  | .flat segs => some (s.segBytes (.core o.core) segs)
  | .map a => s.mapRead o.core task a n
def State.refPoisoned (s : State) (o : Op) : Ref → Bool
  | .flat segs => s.segsPoisoned o.core segs
  | .map _ => false
/-- Element i of a transfer, from what its source holds, or held when it was read before (R298, R299). -/
def State.elemOf (s : State) (o : Op) (x : Transfer) (i : Nat) : Elem :=
  match s.elemEnd o x.task true x.tempo (x.dst i) x.size with
  | none => .stop
  | some d =>
    let land (poison : Bool) (bs : List Byte) : Elem :=
      match d with
      | .flat _ => if poison then .spoil d else .copy d bs
      | .map _ => if poison || !s.mapTakes o x.size d then .skip else .copy d bs
    match o.part? 32 i, o.part? 34 i, s.transferSrc o x i with
    | some a, _, _ => land a.poison (leBytes x.size a.got)
    | none, some _, _ => .skip
    | none, none, none => .stop
    | none, none, some none => .skip
    | none, none, some (some a) =>
      match s.elemEnd o x.task false false a x.size with
      | none => .stop
      | some r =>
        match s.refRead o x.task x.size r with
        | none => .skip
        | some bs => land (s.refPoisoned o r) bs
/-- The elements of a transfer in their order, up to one that stops it. -/
def State.elemsOf (s : State) (o : Op) (x : Transfer) : List Nat → List (Nat × Elem)
  | [] => []
  | i :: is => match s.elemOf o x i with
    | .stop => [(i, .stop)]
    | e => (i, e) :: s.elemsOf o x is
/-- The 32-byte granules that the elements write, in ascending order of their addresses (R227, R228). -/
def granulesAt (x : Transfer) (es : List (Nat × Elem)) : List Nat :=
  let of (e : Nat × Elem) : List Nat := match e.2 with
    | .stop | .skip => []
    | _ => granulesOf (x.dst e.1) x.size
  sortBy (fun a b => decide (a ≤ b)) ((es.flatMap of).foldl insNat [])
/-- What element i writes within a granule: the pieces from byte j on, k bytes. -/
def State.landPart (s : State) (id : Nat) (o : Op) (x : Transfer) (g : Nat) (e : Nat × Elem) : State :=
  let a := x.dst e.1
  let j := Nat.max a (32 * g) - a
  let k := Nat.min x.size (32 * g + 32 - a) - j
  match e.2 with
  | .stop | .skip => s
  | .spoil d => match d.from j k with
    | .flat segs => s.spoil o segs
    | .map _ => s
  | .copy d bs => match d.from j k with
    | .flat segs => s.segStore o.core o.scope true (engMaker id o 32 true) segs ((bs.drop j).take k)
    | .map b => (s.mapWrite o.core o.scope.wide x.task b ((bs.drop j).take k)).getD s
/-- A granule of a transfer lands: every element's bytes within it, in the order of the elements. -/
def State.landGranule (s : State) (id : Nat) (o : Op) (x : Transfer) (es : List (Nat × Elem)) (g : Nat) : State :=
  (es.filter fun e => (granulesOf (x.dst e.1) x.size).contains g).foldl (fun s e => s.landPart id o x g e) s
/-- The granules that have not landed. -/
def Op.unlanded (o : Op) (x : Transfer) (es : List (Nat × Elem)) : List Nat :=
  (granulesAt x es).filter fun g => (o.part? 33 g).isNone
/-- An element of a transfer has failed, or stopped it. -/
def Elem.fails : Elem → Bool
  | .copy _ _ => false
  | _ => true

/-- Some cell that element i of a transfer reads or writes is held, or others come first there. -/
def State.elemWaits (s : State) (id : Nat) (o : Op) (x : Transfer) (i : Nat) : Bool :=
  let index := x.ind && (s.endWaits o x.task false (recAddr x.f i x.of_) (recSize x.f) ||
    (s.elemEnd o x.task false false (recAddr x.f i x.of_) (recSize x.f)).any (s.refWaits id o (recSize x.f)))
  s.endWaits o x.task true (x.dst i) x.size ||
    (s.elemEnd o x.task true x.tempo (x.dst i) x.size).any (s.refWaits id o x.size) ||
    ((o.part? 32 i).isNone && (o.part? 34 i).isNone && (index || match s.transferSrc o x i with
      | some (some a) => s.endWaits o x.task false a x.size ||
          (s.elemEnd o x.task false false a x.size).any (s.refWaits id o x.size)
      | _ => false))
/-- A CPYT may go on: its turn among the records has come, and its gang's stores have been performed. -/
def State.cpytReady (s : State) (id : Nat) (o : Op) : Bool := s.recordsTurn id o && s.storesDone id o

/-- CPYT_EXECUTION: the elements that are left are read, and the granules that are left land in ascending order. -/
def execCpytExecution (op : Nat) (s : State) : Host.Outcome State Fault Refusal :=
  match s.liveOp op with
  | some o =>
    match o.kind with
    | .cpyt _ _ _ _ _ _ _ _ =>
      if !s.cpytReady op o then .next s
      else
        let drop (s : State) : State := { s with ops := tabDel s.ops op }
        let fail (s : State) : State := drop (s.failBatch o ((lowestLane o.active).getD 0))
        match s.transfer o with
        | none => .next (fail s)
        | some x =>
          if (List.range x.count).any (s.elemWaits op o x) then .next s
          else
            let es := s.elemsOf o x (List.range x.count)
            let t := (o.unlanded x es).foldl (fun s g => s.landGranule op o x es g) s
            .next (if es.any fun e => e.2.fails then fail t else drop t)
    | _ => .next s
  | none => .next s
/-- An element of a transfer is read before the rest: the reads have no order (R298). -/
def State.readElem (s : State) (id : Nat) (o : Op) (i : Nat) (e : Elem) : State :=
  if (o.part? 32 i).isSome || (o.part? 34 i).isSome then s
  else match e with
    | .stop => s
    | .skip => s.addPart id (Acc.part 34 i 0 false)
    | .spoil _ => s.addPart id (Acc.part 32 i 0 true)
    | .copy _ bs => s.addPart id (Acc.part 32 i (leNat bs) false)
/-- Part n of a transfer is done before the rest: element n / 2 is read, or the next granule lands (R227, R228). -/
def State.transferOne (s : State) (id n : Nat) : State :=
  match s.liveOp id with
  | some o =>
    match s.transfer o with
    | some x =>
      if !s.cpytReady id o then s
      else if n % 2 = 0 then
        (if x.count ≤ n / 2 || s.elemWaits id o x (n / 2) then s else s.readElem id o (n / 2) (s.elemOf o x (n / 2)))
      else
        let es := s.elemsOf o x (List.range x.count)
        match o.unlanded x es with
        | g :: _ =>
          let mine := es.filter fun e => (granulesOf (x.dst e.1) x.size).contains g
          if (List.range x.count).any (s.elemWaits id o x) then s
          else
            let t := mine.foldl (fun s e => s.readElem id o e.1 e.2) (s.landGranule id o x es g)
            t.addPart id (Acc.part 33 g 0 false)
        | [] => s
    | none => s
  | none => s

/-! ## Batches (R293, R294) -/

/-- SEAL. -/
def execSeal (h : Hd) (q : Bool) : State → Host.Outcome State Fault Refusal :=
  word (.seal h q) fun c perf s =>
    let one (s : State) (l : Nat) : State :=
      let n := tabGet (s.gang c.gid).seals 0 l + 1
      let close (b : Batch) : Batch := if b.lane = l && b.num = 0 then { b with num := n, post := q } else b
      let g := s.gang c.gid
      let bs := if g.batches.any fun b => b.lane == l && b.num == 0 then g.batches.map close
        else g.batches ++ [{ lane := l, num := n, post := q, fail := false }]
      let number (o : Op) : Op :=
        if o.gang = c.gid && tabFind o.batch l == some 0 then { o with batch := tabPut o.batch l n } else o
      let s := s.setGang c.gid { g with seals := tabPut g.seals l n, batches := bs }
      { s with ops := s.ops.map fun p => (p.1, number p.2) }
    .ok ((lanesIn perf).foldl one s)
/-- BWAIT acts through the start of its run. -/
def execBwait (h : Hd) (n : BitVec 8) : State → Host.Outcome State Fault Refusal :=
  word (.bwait h n) fun _ _ s => .ok s

/-- BATCH_FINISH: the lane's next sealed batch, once its copies have completed; its gang sees what they wrote (R231, R294). -/
def execBatchFinish (gang lane : Nat) (s : State) : Host.Outcome State Fault Refusal :=
  let g := s.gang gang
  let n := tabGet g.finished 0 lane + 1
  match g.batches.find? fun b => b.lane == lane && b.num == n with
  | none => .next s
  | some b =>
    if s.ops.any fun p => p.2.gang == gang && tabFind p.2.batch lane == some n then .next s
    else
      let g := { g with finished := tabPut g.finished lane n,
                        batches := g.batches.filter fun x => !(x.lane == lane && x.num == n) }
      let g := if b.post then g.enqueue 2 lane (BitVec.ofNat 32 (n % 2 ^ 31 + if b.fail then 2 ^ 31 else 0)) else g
      .next ((s.setGang gang g).dropNear g.core gang)

end Sys2Proof.Machine
end

