-- ==== Sys2Proof/Machine/Remote.lean ====
section
/-! DEFINITION. The remote words (R418 to R434), ARM (R175), and the words that move lanes: MIG and HOME (R432, R433). -/

namespace Sys2Proof

def Vc.num : Vc → Nat
  | .dflt | .vc2 => 2
  | .vc3 => 3
  | .vc4 => 4
  | .vc5 => 5
  | .vc6 => 6
  | .vc7 => 7
/-- The alignment of an operand's unit, and the bits of the operand (R422, R128). -/
def RaddTy.align : RaddTy → Nat
  | .i32 => 4
  | .i64 => 8
  | _ => 64
def RaddTy.mask : RaddTy → Nat
  | .i32 | .f32 => 2 ^ 32
  | .i64 => 2 ^ 64
  | .bf16 | .f16 => 2 ^ 16
  | .e4m3 | .e5m2 => 2 ^ 8
def RminTy.bytes : RminTy → Nat
  | .i64 | .n64 => 8
  | _ => 4

end Sys2Proof

namespace Sys2Proof.Machine

/-! ## The checks at issue (R422) -/

/-- What a word wants of an address: rights, alignment, how many granules of one line, how many bytes after them, whether it must
be local, and whether its home is left to a peer that the word names (R434). -/
structure Want where
  r : Bool
  w : Bool
  align : Nat
  granules : Nat
  tail : Nat := 0
  here : Bool
  peer : Bool
  deriving DecidableEq, Repr

def wantRead (align : Nat) : Want := { r := true, w := false, align := align, granules := 0, here := true, peer := false }
def wantWrite (align : Nat) : Want := { r := false, w := true, align := align, granules := 0, here := false, peer := false }
/-- A range of n granules, within one line. -/
def wantRange (r here : Bool) (n : Nat) : Want :=
  { r := r, w := !r, align := 32, granules := n, here := here, peer := false }

/-- A home that a remote word of a die may not name: fenced, or outside the enclave (R374, R456). Of another package only a
fence of all its dies counts, because the die has no notice of another (R398); what goes to a single fenced die there is
acknowledged LOST (R444, R475; assumption log 67). -/
def State.barred (s : State) (die home : Nat) : Option Fail :=
  let p := s.pkg (pkgOf die)
  if s.ignores home die || (pkgOf home == pkgOf die && (s.die home).fenced) then some (failAccess 2)
  else if p.trust = 1 && pkgOf home != pkgOf die && !p.member (pkgOf home) then some (failAccess 10)
  else none

/-- The checks of one address, in the order of R422: 1 alignment, 2 access, 3 translation, 4 home. The landing range of a COLL may
cross a line, as the segments of R440 do (assumption log 8). -/
def Ctx.wanted (c : Ctx) (s : State) (k : Want) (va : Nat) : Found :=
  if va % k.align != 0 || (!k.peer && 512 < va % 512 + 32 * k.granules) then .fails 1 (failOf tcMisalign)
  else
    match s.coreTranslate c.core va (32 * k.granules + k.tail) (c.need s k.r k.w) with
    | .error f => .fails (if f = failWait then 0 else if f.code = tcPageFault then 3 else 2) f
    | .ok l =>
      match (if k.peer then (if l.place = 0 then none else some (failAccess 10)) else s.barred c.die l.die) with
      | some f => .fails 2 f
      | none => if k.here && l.die != c.die then .fails 4 (failOf tcRemote) else .here l
def Ctx.wantedIn (c : Ctx) (s : State) (k : Want) (addr : Nat → Nat) (m : LaneSet) : List LaneFound :=
  (lanesIn m).map fun l => (l, addr l, c.wanted s k (addr l))

/-! ## Commutative words and ACCCLR (R423, R425, R431) -/

/-- File an operation that waits for acknowledgements. -/
def State.remoteOp (s : State) (c : Ctx) (perf : LaneSet) : State := s.addOp c perf .remote .rm .rlx .s none []
def Ctx.parcel (c : Ctx) (dst vc kind opq pa : Nat) (body : Payload) : Packet :=
  { Packet.blank with sdie := c.die, eng := c.core % 64, dst := dst, vc := vc, kind := kind, opq := opq, pa := pa,
                      body := body }
/-- The home and line of a leaf. -/
def Leaf.line (l : Leaf) : Nat × Nat := (l.die, l.inPacket / 512 * 512)
def linesOf (ls : List (Nat × Nat × Leaf)) : List (Nat × Nat) :=
  ls.foldl (fun ks p => if ks.contains p.2.2.line then ks else ks ++ [p.2.2.line]) []

/-- Lanes of one line of one home share a packet: an entry for each, with its operand and offset. -/
def State.sendEntries (s : State) (c : Ctx) (perf : LaneSet) (vc kind ty : Nat) (data : Nat → Nat)
    (ls : List (Nat × Nat × Leaf)) : State :=
  if perf = 0 then s
  else
    let id := s.nextId
    let one (s : State) (k : Nat × Nat) : State :=
      let mine := ls.filter fun p => p.2.2.line == k
      s.send (c.parcel k.1 vc kind ((mine.length - 1) * 8 + ty) k.2
        (.entries (mine.map fun p => (data p.1, p.2.2.pa % 512, p.1)))) (some id) (some c.gid)
        (lanesOf (mine.map (·.1))) none
    (linesOf ls).foldl one (s.remoteOp c perf)

def commWord (i : Instr) (vc : Vc) (kind ty align : Nat) (data : Ctx → Nat → Nat) (a : Reg) (off : BitVec 22) :
    State → Host.Outcome State Fault Refusal :=
  word i fun c perf s =>
    let fs := c.wantedIn s (wantWrite align) (fun l => c.addr l a off) perf
    match pickFail true (failsOf fs) with
    | some t => .error t
    | none => .ok (s.sendEntries c perf vc.num kind ty (data c) (leavesOf fs))

/-- RADD. -/
def execRadd (h : Hd) (ty : RaddTy) (vc : Vc) (d a : Reg) (off : BitVec 22) : State → Host.Outcome State Fault Refusal :=
  commWord (.radd h ty vc d a off) vc kRadd ty.code.toNat ty.align (fun c l => c.opA l (ty == .i64) d % ty.mask) a off
/-- RMIN. -/
def execRmin (h : Hd) (ty : RminTy) (vc : Vc) (d a : Reg) (off : BitVec 22) : State → Host.Outcome State Fault Refusal :=
  commWord (.rmin h ty vc d a off) vc kRmin ty.code.toNat ty.bytes (fun c l => c.opA l (ty.bytes == 8) d) a off
/-- RMAX. -/
def execRmax (h : Hd) (ty : RminTy) (vc : Vc) (d a : Reg) (off : BitVec 22) : State → Host.Outcome State Fault Refusal :=
  commWord (.rmax h ty vc d a off) vc kRmax ty.code.toNat ty.bytes (fun c l => c.opA l (ty.bytes == 8) d) a off
/-- ROR. -/
def execRor (h : Hd) (b64 : Bool) (vc : Vc) (d a : Reg) (off : BitVec 22) : State → Host.Outcome State Fault Refusal :=
  commWord (.ror h b64 vc d a off) vc kRor b64.toNat (if b64 then 8 else 4) (fun c l => c.opA l b64 d) a off
/-- RARV. -/
def execRarv (h : Hd) (vc : Vc) (d a : Reg) (off : BitVec 22) : State → Host.Outcome State Fault Refusal :=
  commWord (.rarv h vc d a off) vc kRarv 0 8 (fun c l => c.rdPair l d.toNat) a off
/-- ACCCLR. -/
def execAccclr (h : Hd) (vc : Vc) (a : Reg) (off : BitVec 22) : State → Host.Outcome State Fault Refusal :=
  commWord (.accclr h vc a off) vc kAccclr 0 64 (fun _ _ => 0) a off

/-! ## RWO, COLL and RGET (R426, R427, R434) -/

/-- The accesses that read n granules of a lane's local source. -/
def granuleAccs (n : Nat) (p : Nat × Nat × Leaf) : List Acc :=
  (List.range n).map fun i =>
    { Acc.flat p.1 (p.2.1 + 32 * i) 32 0 p.2.2 with addr := p.2.2.cell + 32 * i }
/-- A word that sends n granules of each lane: where to, as lane, die and address. -/
def State.sendRanges (s : State) (c : Ctx) (perf : LaneSet) (vc n : Nat) (coll arv : Bool)
    (src : List (Nat × Nat × Leaf)) (dests : List (Nat × Nat × Nat)) : State :=
  if perf = 0 then s
  else s.issueOp c perf (.rsend vc n coll arv dests) .rm .rlx .s none (src.flatMap (granuleAccs n))

/-- RWO. -/
def execRwo (h : Hd) (n : BitVec 4) (vc : Vc) (d a : Reg) (off : BitVec 22) : State → Host.Outcome State Fault Refusal :=
  word (.rwo h n vc d a off) fun c perf s =>
    let k := n.toNat + 1
    let src := c.wantedIn s (wantRange true true k) (fun l => c.rdPair l d.toNat) perf
    let dst := c.wantedIn s (wantRange false false k) (fun l => c.addr l a off) perf
    match pickFail true (failsOf (src ++ dst)) with
    | some t => .error t
    | none =>
      .ok (s.sendRanges c perf vc.num k false false (leavesOf src)
        ((leavesOf dst).map fun p => (p.1, p.2.2.die, p.2.2.inPacket)))

/-- The die that a register names: package in [11:0], die in [14:12] (R420). -/
def Ctx.peer (c : Ctx) (l : Nat) (r : Reg) (k : Nat) : Nat :=
  let v := c.rd l r.toNat k
  v % 4096 * 8 + v / 4096 % 8
/-- A peer that does not exist, or may not be named. -/
def Ctx.peerFails (c : Ctx) (s : State) (l va die : Nat) : List (Nat × Nat × Nat × Fail) :=
  if !s.dieExists die then [(l, va, 2, failAccess 2)]
  else
    match s.barred c.die die with
    | some f => [(l, va, 2, f)]
    | none => []
/-- COLL. -/
def execColl (h : Hd) (n : BitVec 4) (arv : Bool) (rx : Reg) (vc : Vc) (d a : Reg) (off : BitVec 22) :
    State → Host.Outcome State Fault Refusal :=
  word (.coll h n arv rx vc d a off) fun c perf s =>
    let k := n.toNat + 1
    let src := c.wantedIn s (wantRange true true k) (fun l => c.rdPair l d.toNat) perf
    let dst := c.wantedIn s { wantRange false false k with peer := true, tail := 8 * arv.toNat } (fun l => c.addr l a off) perf
    let peers := (lanesIn perf).flatMap fun l => c.peerFails s l (c.addr l a off) (c.peer l rx 0)
    match pickFail true (failsOf (src ++ dst) ++ peers) with
    | some t => .error t
    | none =>
      .ok (s.sendRanges c perf vc.num k true arv (leavesOf src)
        ((leavesOf dst).map fun p => (p.1, c.peer p.1 rx 0, p.2.2.inPacket)))

/-- RGET: one request for each lane. -/
def execRget (h : Hd) (n : BitVec 4) (rx : Reg) (vc : Vc) (d a : Reg) (off : BitVec 22) :
    State → Host.Outcome State Fault Refusal :=
  word (.rget h n rx vc d a off) fun c perf s =>
    let k := n.toNat + 1
    let src := c.wantedIn s (wantRange true false k) (fun l => c.addr l a off) perf
    let land := c.wantedIn s (wantRange false true k) (fun l => c.rdPair l d.toNat) perf
    let arr := c.wantedIn s { wantWrite 8 with here := true } (fun l => c.rdPair l rx.toNat) perf
    match pickFail true (failsOf (src ++ land ++ arr)) with
    | some t => .error t
    | none =>
      if perf = 0 then .ok s
      else
        let id := s.nextId
        let leaf (fs : List LaneFound) (l : Nat) : Nat :=
          (((leavesOf fs).find? fun p => p.1 == l).map fun p => p.2.2.inPacket).getD 0
        let one (s : State) (p : Nat × Nat × Leaf) : State :=
          s.send { c.parcel p.2.2.die vc.num kRget (k - 1) p.2.2.inPacket .none with
            aux := leaf land p.1, aux2 := leaf arr p.1 } (some id) (some c.gid) (lanesOf [p.1]) none
        .ok ((leavesOf src).foldl one (s.remoteOp c perf))

/-! ## AWAIT, RFENCE, ACCRD (R428 to R430) -/

/-- AWAIT: it acts through the start of its run; an address that fails traps here. -/
def execAwait (h : Hd) (d a : Reg) (off : BitVec 22) : State → Host.Outcome State Fault Refusal :=
  word (.await h d a off) fun c perf s =>
    match pickFail true (failsOf (c.wantedIn s (wantRead 8) (fun l => c.addr l a off) perf)) with
    | some t => .error t
    | none => .ok s
/-- RFENCE: each active lane's status bits, which it clears (R424). -/
def execRfence (chain : Bool) (d : Reg) : State → Host.Outcome State Fault Refusal :=
  word (.rfence chain d) fun c perf s =>
    .ok (s.modGang c.gid fun g =>
      let L := writeLanes c.run.xb perf (fun l => outW d (tabGet g.lanes.remote 0 l).toNat) g.lanes
      { g with lanes := { L with remote := L.remote.filter fun p => !hasLane perf p.1 } })
/-- ACCRD (R430, R82). -/
def execAccrd (h : Hd) (bf16 : Bool) (d a : Reg) (off : BitVec 22) : State → Host.Outcome State Fault Refusal :=
  word (.accrd h bf16 d a off) fun c perf s =>
    let fs := c.wantedIn s (wantRead 64) (fun l => c.addr l a off) perf
    match pickFail true (failsOf fs) with
    | some t => .error t
    | none =>
      .ok (s.issueOp c perf (.accrd bf16) .ld .rlx .d (c.dest d 4 false)
        ((leavesOf fs).map fun p => Acc.flat p.1 p.2.1 64 0 p.2.2))

/-! ## ARM (R175, R176) -/

/-- The checks of an ARM, in the order of R244: 1 alignment, 2 two lanes of one address, 3 access, 4 translation. -/
def Ctx.armFound (c : Ctx) (s : State) (va : Nat) : Found :=
  if va % 512 != 0 then .fails 1 (failOf tcMisalign)
  else
    match s.coreTranslate c.core va 1 (c.need s false true) with
    | .error f => .fails f.order f
    | .ok l =>
      match s.barred c.die l.die with
      | some f => .fails 3 f
      | none => .here l
/-- ARM: in each performing lane, the equivalent of an RFENCE and a release, and then one arming. -/
def execArm (h : Hd) (a : Reg) : State → Host.Outcome State Fault Refusal :=
  word (.arm h a) fun c perf s =>
    let fs : List LaneFound := (lanesIn perf).map fun l => (l, c.rdPair l a.toNat, c.armFound s (c.rdPair l a.toNat))
    match pickFail true (failsOf fs ++ dupFails fs) with
    | some t => .error t
    | none =>
      if perf = 0 then .ok s
      else
        .ok (s.issueOp c perf (.armWait ((leavesOf fs).map fun p => (p.1, p.2.2.die, p.2.2.inPacket, p.2.1))) .rm .rel .s
          none ((lanesIn perf).map Acc.fence))

/-! ## MIG and HOME (R432, R433) -/

/-- MIG: lanes whose destination is another die leave; their ply goes on at the next word. -/
def execMig (h : Hd) (d : Reg) : State → Host.Outcome State Fault Refusal :=
  word (.mig h d) fun c perf s =>
    let dests := (lanesIn perf).map fun l => (l, c.peer l d 0)
    let aways := dests.filter fun p => p.2 != c.die
    match dests.find? fun p => !s.dieExists p.2 with
    | some p => .error (Trap.of (failAccess 2) (some p.1) 0)
    | none =>
      match c.hopsSpent aways with
      | some l => .error (Trap.of (failOf tcMigHops) (some l) 0)
      | none => .ok (s.departAll c (codePtr c.run.base c.run.pos) aways fun _ => 0)

/-- The live lanes of a fragment: active, or parked in its stack. -/
def Frag.live (f : Frag) : LaneSet := f.stack.foldl (fun m e => m ||| e.2) f.act
/-- HOME: the guests of the cohort return, each with the live lanes of its fragment; elsewhere it has no effect. -/
def execHome : State → Host.Outcome State Fault Refusal :=
  word .home fun c _ s =>
    if c.isGuest then
      let mine := (s.gang c.gid).fragsOf c.run.cohort
      let s := mine.foldl (fun s f => s.sendHome c.gid f.slice (c.after * 4) (codePtr c.run.base c.at) (slicePart f.live f.slice)) s
      .ok (s.modGang c.gid fun g => { g with frags := g.frags.filter fun f => f.cohort != c.run.cohort })
    else .ok s

end Sys2Proof.Machine
end

