-- ==== Sys2Proof/Machine/Packets.lean ====
section
/-! DEFINITION. Packets at their home (R381 to R391, R431, R434) and acknowledgements at their sender (R383, R424): one
event for each kind, with duplicates, fences and keys settled before anything is performed. -/

namespace Sys2Proof.Machine

/-! ## Delivery (R381) -/

def Stream.blank : Stream := { floor := 0, marks := [] }
/-- The floor rises to the later of itself and OLDEST; the marks below it go. -/
def Stream.raise (st : Stream) (oldest : Nat) : Stream :=
  let f := if seqBefore st.floor oldest then oldest else st.floor
  { floor := f, marks := st.marks.filter fun m => !seqBefore m.1 f }
/-- The streams of a die that have marks (R381). -/
def State.markedStreams (s : State) (die : Nat) : Nat :=
  s.streams.countP fun p => p.1 % 2 ^ 15 == die && !p.2.marks.isEmpty
/-- The mark of a packet that is performed and not yet to be acknowledged (R391, step 4). -/
def markPending : Nat := 256
def State.mark (s : State) (p : Packet) (v : Nat) : State :=
  let st := tabGet s.streams Stream.blank p.stream
  { s with streams := tabPut s.streams p.stream { st with marks := tabPut st.marks p.seq v } }
/-- The fence proxy's answer: nothing is performed, and LOST is acknowledged (R398). The model's proxy is the sending die
(assumption log 12). -/
def State.proxyLost (s : State) (p : Packet) : State := s.sendAck p p.sdie 4

/-- The packet in place n of the fabric is delivered, if it is one that `mine` picks. `held` says that it waits,
`refuses` that its home discards it, as a package that is not up does, and `perform` gives the status of the acknowledgement. -/
def State.deliver (s : State) (n : Nat) (mine : Packet → Bool) (lost : State → Packet → State)
    (held refuses : State → Packet → Bool) (perform : State → Packet → State × Nat) : State :=
  match s.flight[n]? with
  | none => s
  | some p =>
    let t := { s with flight := s.flight.eraseIdx n }
    if !mine p then s
    else if s.proxied p.sdie p.dst then lost t p
    else if s.ignores p.sdie p.dst || !s.accepts p.sdie p.dst p.keyGen p.key then t
    else
      let st := (tabGet s.streams Stream.blank p.stream).raise p.oldest
      let t := { t with streams := tabPut t.streams p.stream st }
      if seqBefore p.seq st.floor then t
      else
        match tabFind st.marks p.seq with
        | some v => if v < markPending then t.sendAck p p.dst v else t
        | none =>
          if held s p then s
          else if refuses t p || !t.isUp p.dst || (st.marks.isEmpty && 16384 ≤ t.markedStreams p.dst) then t
          else
            let r := perform t p
            let u := r.1.mark p r.2
            if r.2 < markPending then u.sendAck p p.dst r.2 else u

/-- The bytes that a packet names at its home, as offsets from its address and sizes: its entries' units, its granules, and the
arrival word of a chunk (R385, R434). -/
def Packet.touches (p : Packet) : List (Nat × Nat) := match p.body with
  | .entries es => es.map fun e => (e.2.1, 1)
  | .granules gs => (List.range gs.length).map (fun i => (32 * i, 32)) ++
      (if p.kind == kColl && nbit p.opq 4 then [(32 * gs.length, 8)] else [])
  | .arm _ => [(0, 12)]
  | _ => if p.kind == kRget then (List.range (p.opq % 16 + 1)).map fun i => (32 * i, 32) else []
/-- A packet waits while a channel that it meets holds accesses (R316, R385, R480), or has others to perform first (R315). -/
def State.unitHeld (s : State) (p : Packet) (t : Nat × Nat) : Bool :=
  let cell := homeCell p.dst p.pa t.1
  s.heldCell cell || s.behind (Waiter.packet p) cell
def State.packetHeld (s : State) (p : Packet) : Bool := p.touches.any (s.unitHeld p)
/-- A packet has arrived at the channels that hold it. -/
def State.packetArrives (s : State) (p : Packet) : State :=
  p.touches.foldl (fun s t => s.arriveAt (.packet p) (homeCell p.dst p.pa t.1)) s
/-- A request that memory performs. -/
def memPacket (kind : Nat) (n : Nat) (perform : State → Packet → State × Nat) (s : State) :
    Host.Outcome State Fault Refusal :=
  .next (s.deliver n (fun p => p.kind == kind) State.proxyLost State.packetHeld (fun _ _ => false) perform)

/-! ## Commutative operations (R385, R386) -/

/-- The home slice recalls n bytes before it works on them (R303); the step window has no copies. -/
def State.recallUnit (s : State) (cell n : Nat) : State := if s.inStep cell then s else s.recall cell n
/-- One indivisible read-modify-write of n bytes at the home slice, which recalls them first (R303): a poisoned unit is left
alone, and the update changes no granule bit. -/
def State.unitUpdate (s : State) (p : Packet) (off n : Nat) (f : Nat → Nat) : State × Nat :=
  let cell := homeCell p.dst p.pa off
  let s := s.recallUnit cell n
  if s.poisonedAt cell n then (s, 2)
  else
    let m := s.readNat .die (pktWin p.pa) cell n
    let t := s.store none .d (pktCache p.pa) (pktWin p.pa) cell (leBytes n (f m)) Maker.none
    ({ t with bits := s.bits }, 0)
/-- The entries of a packet, in ascending order (R425). -/
def entriesOf (p : Packet) : List (Nat × Nat × Nat) := match p.body with
  | .entries es => es
  | _ => []
def State.eachEntry (s : State) (p : Packet) (f : State → Nat → Nat → State × Nat) : State × Nat :=
  (entriesOf p).foldl (fun r e => let q := f r.1 e.2.1 e.1; (q.1, Nat.lor r.2 q.2)) (s, 0)

/-- The value of a narrow or 32-bit float contribution (R418). -/
def raddValue (ty x : Nat) : FVal :=
  (if ty = 2 then fp32 else if ty = 3 then fbf16 else if ty = 4 then fp16 else if ty = 5 then fe4m3 else fe5m2).value x
/-- One entry of a RADD, under its TY. -/
def raddUnit (p : Packet) (ty : Nat) (s : State) (off x : Nat) : State × Nat :=
  if ty = 0 then s.unitUpdate p off 4 (fun m => (m + x) % 2 ^ 32)
  else if ty = 1 then s.unitUpdate p off 8 (fun m => (m + x) % 2 ^ 64)
  else s.unitUpdate p off 64 (fun m => cellAdd m (raddValue ty x))
/-- RADD_PACKET (R385, R81). -/
def execRaddPacket (n : Nat) : State → Host.Outcome State Fault Refusal :=
  memPacket kRadd n fun s p => s.eachEntry p (raddUnit p (p.opq % 8))

/-- The canonical NaN in place of a NaN, and the key of R386. -/
def canon32 (x : Nat) : Nat := if (fp32.value x).isNan then 0x7FC00000 else x % 2 ^ 32
def key32 (x : Nat) : Nat := if x < 2 ^ 31 then x + 2 ^ 31 else 2 ^ 32 - 1 - x
/-- The smaller, or the larger, of a word and an operand under a TY of R418. -/
def extremum (larger : Bool) (ty m x : Nat) : Nat :=
  let pick (less : Bool) : Nat := if less != larger then x else m
  if ty = 4 then
    let m' := canon32 m
    let x' := canon32 x
    if (decide (key32 x' < key32 m')) != larger && x' != m' then x' else m'
  else if ty = 0 then (if sval 32 x = sval 32 m then m else pick (decide (sval 32 x < sval 32 m)))
  else if ty = 2 then (if sval 64 x = sval 64 m then m else pick (decide (sval 64 x < sval 64 m)))
  else if x = m then m else pick (decide (x < m))
def extremumPacket (larger : Bool) (s : State) (p : Packet) : State × Nat :=
  let ty := p.opq % 8
  s.eachEntry p fun s off x => s.unitUpdate p off (if ty = 2 || ty = 3 then 8 else 4) fun m => extremum larger ty m x
/-- RMIN_PACKET. -/
def execRminPacket (n : Nat) : State → Host.Outcome State Fault Refusal := memPacket kRmin n (extremumPacket false)
/-- RMAX_PACKET. -/
def execRmaxPacket (n : Nat) : State → Host.Outcome State Fault Refusal := memPacket kRmax n (extremumPacket true)
/-- One entry of a ROR, and of a RARV. -/
def rorUnit (p : Packet) (s : State) (off x : Nat) : State × Nat :=
  s.unitUpdate p off (if p.opq % 8 = 1 then 8 else 4) fun m => Nat.lor m x
def rarvUnit (p : Packet) (s : State) (off x : Nat) : State × Nat := s.unitUpdate p off 8 fun m => (m + x) % 2 ^ 64
/-- ROR_PACKET. -/
def execRorPacket (n : Nat) : State → Host.Outcome State Fault Refusal := memPacket kRor n fun s p => s.eachEntry p (rorUnit p)
/-- RARV_PACKET (R385, R394). -/
def execRarvPacket (n : Nat) : State → Host.Outcome State Fault Refusal :=
  memPacket kRarv n fun s p => s.eachEntry p (rarvUnit p)
/-- One cell of an ACCCLR. -/
def accclrUnit (p : Packet) (s : State) (off _x : Nat) : State × Nat :=
  let cell := homeCell p.dst p.pa off
  if s.cellFenced cell then (s, 2)
  else if s.inStep cell then (s.dropWrite cell, 0)
  else ((s.recall cell 64).store none .d (pktCache p.pa) (pktWin p.pa) cell (leBytes 64 0) Maker.none, 0)
/-- ACCCLR_PACKET (R431): the cell's bits, its poison, WR and CF. -/
def execAccclrPacket (n : Nat) : State → Host.Outcome State Fault Refusal :=
  memPacket kAccclr n fun s p => s.eachEntry p (accclrUnit p)

/-! ## Write-once (R389, R391) -/

/-- WOCONF of a die, saturating (R402). -/
def State.countConflict (s : State) (die : Nat) : State :=
  let d := s.die die
  s.setDie die { d with woconf := Nat.min (2 ^ 64 - 1) (d.woconf + 1) }
/-- One granule of data d, marked poisoned or not, at its home, which recalls it first; the step window discards it and sets no
status bit (R317). -/
def State.writeOnce (s : State) (p : Packet) (off d : Nat) (bad : Bool) : State × Nat :=
  let cell := homeCell p.dst p.pa off
  let g := granuleOf cell
  let s := s.recallUnit cell 32
  let put (b : GranuleBits) : State :=
    { s.store none .d (pktCache p.pa) (pktWin p.pa) cell (leBytes 32 d) Maker.none with bits := b }
  let wr := s.bits.written.contains g
  let base : Nat := bad.toNat * 2
  if s.cellFenced cell then (s, 2)
  else if s.inStep cell then (s.dropWrite cell, 0)
  else if s.bits.conflict.contains g then (s, Nat.lor 1 base)
  else if bad && !wr then (put ((s.bits.setPoison [g]).setWritten [g]), 2)
  else if s.bits.poison.contains g then (s, 2)
  else if !wr then (put (s.bits.setWritten [g]), 0)
  else if s.readNat .die (pktWin p.pa) cell 32 = d then (s, base)
  else ({ s with bits := (s.bits.setPoison [g]).setConflict [g] }.countConflict p.dst, Nat.lor 1 base)
/-- The granules of a packet in ascending order. -/
def State.writeGranules (s : State) (p : Packet) : State × Nat :=
  match p.body with
  | .granules gs =>
    ((List.range gs.length).zip gs).foldl
      (fun r g => let q := r.1.writeOnce p (32 * g.1) g.2.1 g.2.2; (q.1, Nat.lor r.2 q.2)) (s, 0)
  | _ => (s, 0)
/-- RWO_PACKET. -/
def execRwoPacket (n : Nat) : State → Host.Outcome State Fault Refusal := memPacket kRwo n State.writeGranules
/-- REPLY_PACKET. -/
def execReplyPacket (n : Nat) : State → Host.Outcome State Fault Refusal := memPacket kReply n State.writeGranules
/-- The arrival of a chunk: one added to the word after its granules (R434). -/
def State.chunkArrival (s : State) (p : Packet) : State × Nat :=
  s.unitUpdate p (32 * (p.opq % 16 + 1)) 8 fun m => (m + 1) % 2 ^ 64
/-- COLL_PACKET (R434): the granules, and with ARV the arrival after them. -/
def execCollPacket (n : Nat) : State → Host.Outcome State Fault Refusal :=
  memPacket kColl n fun s p =>
    let r := s.writeGranules p
    if nbit p.opq 4 then
      let q := r.1.chunkArrival p
      (q.1, Nat.lor r.2 q.2)
    else r

/-! ## Remote reads (R391) -/

/-- A packet of a die's home service engine. -/
def servicePacket (die dst vc kind opq pa : Nat) (body : Payload) : Packet :=
  { Packet.blank with sdie := die, eng := engHomeService, dst := dst, vc := vc, kind := kind, opq := opq, pa := pa,
                      body := body }
/-- Granule i of a request is read, and its reply leaves. -/
def State.rgetReply (s : State) (p : Packet) (job i : Nat) : State :=
  let cell := homeCell p.dst p.pa (32 * i)
  s.send (servicePacket p.dst p.sdie 0 kReply 0 (p.aux + 32 * i)
    (.granules [(s.readNat .die (pktWin p.pa) cell 32, s.poisonedAt cell 32)])) none none 0 (some job)
/-- A job that serves a request. -/
def State.openJob (s : State) (p : Packet) : State :=
  let j : RgetJob := { request := p, arrived := false, status := 0 }
  { s with jobs := tabPut s.jobs s.nextId j }.bump
/-- RGET_PACKET: the range is read, and a reply leaves for each granule. -/
def execRgetPacket (n : Nat) : State → Host.Outcome State Fault Refusal :=
  memPacket kRget n fun s p =>
    ((List.range (p.opq % 16 + 1)).foldl (fun t i => t.rgetReply p s.nextId i) (s.openJob p), markPending)
/-- Something that a job has sent is not acknowledged, or a reply of it has yet to leave. -/
def State.jobUnacked (s : State) (job : Nat) : Bool :=
  (s.unacked.any fun u => u.job == some job) || s.serving.any fun v => v.job == job && !v.left.isEmpty
/-- RGET_ARRIVAL_SEND: every reply is acknowledged, and the arrival leaves. -/
def execRgetArrivalSend (job : Nat) (s : State) : Host.Outcome State Fault Refusal :=
  match tabFind s.jobs job with
  | none => .next s
  | some j =>
    if j.arrived || s.jobUnacked job then .next s
    else
      let p := j.request
      let s := { s with jobs := tabPut s.jobs job { j with arrived := true } }
      .next (s.send (servicePacket p.dst p.sdie 0 kRarv 0 (p.aux2 / 512 * 512) (.entries [(1, p.aux2 % 512, 0)]))
        none none 0 (some job))

/-! ## Acknowledgements (R383, R391, R398, R424) -/

/-- A job whose arrival has been acknowledged acknowledges its request, with the statuses it has met. -/
def State.finishJob (s : State) (job : Nat) : State :=
  match tabFind s.jobs job with
  | none => s
  | some j =>
    if j.arrived && !s.jobUnacked job then
      let s := { s with jobs := tabDel s.jobs job }
      (s.mark j.request j.status).sendAck j.request j.request.dst j.status
    else s
/-- The status bits of an acknowledgement enter the lanes whose operation the packet carries; a conflict enters those that share
it too (R435). -/
def State.lanesStatus (s : State) (u : Unacked) (status : Nat) : State :=
  match u.gang with
  | none => s
  | some gid =>
    if status % 8 = 0 then s
    else
      s.modGang gid fun g =>
        let put (x : Nat) (t : Tab (BitVec 3)) (l : Nat) := tabPut t l (tabGet t 0 l ||| BitVec.ofNat 3 x)
        let t := (lanesIn u.lanes).foldl (put status) g.lanes.remote
        let t := if nbit status 0 then (lanesIn u.also).foldl (put 1) t else t
        { g with lanes := { g.lanes with remote := t } }
/-- A packet of a stream and a sequence number. -/
def Ack.names (a : Ack) (p : Packet) : Bool :=
  p.sdie == a.sdie && p.eng == a.eng && p.seq == a.seq && p.dst == a.home
/-- The sender holds an acknowledgement: it stops retransmitting, and whoever waits goes on. -/
def State.acknowledge (s : State) (a : Ack) (u : Unacked) : State :=
  let s := { s with unacked := s.unacked.filter fun x => !a.names x.pkt }
  let s := s.lanesStatus u a.status
  let s := match u.op with
    | some o => s.rmSettle o
    | none => s
  match u.job with
  | none => s
  | some j => { s with jobs := tabMod s.jobs j fun x => { x with status := Nat.lor x.status a.status } }.finishJob j
/-- LOSTS of FABSTAT, saturating (R398, R402). -/
def State.countLost (s : State) (die : Nat) : State :=
  let d := s.die die
  s.setDie die { d with losts := Nat.min 65535 (d.losts + 1) }
/-- ACK_PACKET: the n-th acknowledgement on its way arrives. -/
def execAckPacket (n : Nat) (s : State) : Host.Outcome State Fault Refusal :=
  match s.acks[n]? with
  | none => .next s
  | some a =>
    let t := { s with acks := s.acks.eraseIdx n }
    if (s.die a.sdie).fenced || s.ignores a.src a.sdie || !s.accepts a.src a.sdie a.keyGen a.key then .next t
    else
      let t := if nbit a.status 2 then t.countLost a.sdie else t
      match s.unacked.find? fun u => a.names u.pkt with
      | none => .next t
      | some u => .next (t.acknowledge a u)

/-- RETRANSMISSION (R380, R382): a packet of the engine that has not gone out yet, else the next of those that have, in turn. -/
def execRetransmission (die eng : Nat) (s : State) : Host.Outcome State Fault Refusal :=
  let ours (i : Nat) : Bool := match s.unacked[i]? with
    | some u => u.pkt.sdie == die && u.pkt.eng == eng
    | none => false
  let places := (List.range s.unacked.length).filter ours
  let isSent (i : Nat) : Bool := match s.unacked[i]? with
    | some u => u.sent
    | none => false
  match places.find? fun i => !isSent i && s.mayTransmit i with
  | some i => .next (s.transmit i)
  | none =>
    match places.find? isSent with
    | none => .next s
    | some i =>
      let t := s.transmit i
      .next { t with unacked := t.unacked.eraseIdx i ++ (t.unacked[i]?).toList }

/-! ## A packet performed unit by unit (R385, R387) -/

/-- The part of a packet that names one unit, k of its `touches`. -/
def Packet.unit (p : Packet) (k : Nat) : Packet := match p.body with
  | .entries es => { p with body := .entries ((es.drop k).take 1) }
  | .granules gs =>
    if k < gs.length then { p with pa := p.pa + 32 * k, opq := p.opq % 16, body := .granules ((gs.drop k).take 1) }
    else { p with body := .granules [] }
  | _ => p
/-- What a unit of a packet does at its home. -/
def State.performUnit (s : State) (v : Serving) (k : Nat) : State × Nat :=
  let p := v.pkt.unit k
  let ty := p.opq % 8
  if p.kind = kRadd then s.eachEntry p (raddUnit p ty)
  else if p.kind = kRmin then extremumPacket false s p
  else if p.kind = kRmax then extremumPacket true s p
  else if p.kind = kRor then s.eachEntry p (rorUnit p)
  else if p.kind = kRarv then s.eachEntry p (rarvUnit p)
  else if p.kind = kAccclr then s.eachEntry p (accclrUnit p)
  else if p.kind = kRget then (s.rgetReply p v.job k, 0)
  else match v.pkt.body with
    | .granules gs => if k < gs.length then s.writeGranules p else s.chunkArrival v.pkt
    | _ => (s, 0)
/-- A packet that has more than one unit, which its home may perform one at a time. -/
def Packet.divides (p : Packet) : Bool := 2 ≤ p.touches.length && p.kind < 14
/-- The home begins to perform a packet: it is marked, and its units wait. -/
def State.beginServing (s : State) (p : Packet) : State × Nat :=
  let job := if p.kind = kRget then s.nextId else 0
  let s := if p.kind = kRget then s.openJob p else s
  ({ s with serving := s.serving ++ [{ pkt := p, left := List.range p.touches.length, status := 0, job := job }] }, markPending)
/-- The home has performed a packet: its status is kept and acknowledged, for an RGET once its job is done. -/
def State.endServing (s : State) (v : Serving) : State :=
  if v.pkt.kind = kRget then s else (s.mark v.pkt v.status).sendAck v.pkt v.pkt.dst v.status
/-- One unit of a packet that its home has begun; an arrival comes last (R434). -/
def State.serveUnit (s : State) (n k : Nat) : State :=
  match s.serving[n]? with
  | none => s
  | some v =>
    let cell := homeCell v.pkt.dst v.pkt.pa (((v.pkt.touches[k]?).map (·.1)).getD 0)
    let last := v.pkt.kind == kColl && match v.pkt.body with
      | .granules gs => k == gs.length
      | _ => false
    if !v.left.contains k || (last && v.left.length != 1) || s.heldCell cell then s
    else
      let r := s.performUnit v k
      let v := { v with left := v.left.filter (· != k), status := Nat.lor v.status r.2 }
      if v.left.isEmpty then { r.1 with serving := r.1.serving.eraseIdx n }.endServing v
      else { r.1 with serving := r.1.serving.set n v }
/-- The first unit of the packet in place n of the fabric: it is delivered, and the home begins with unit k, unless that is held. -/
def State.serveFirst (s : State) (n k : Nat) : State :=
  let held (s : State) (p : Packet) : Bool := ((p.touches[k]?).map (s.unitHeld p)).getD true
  let t := s.deliver n Packet.divides State.proxyLost held (fun _ _ => false) State.beginServing
  if t.serving.length = s.serving.length then t else t.serveUnit s.serving.length k

end Sys2Proof.Machine
end

