-- ==== Sys2Proof/Machine/Tcb.lean ====
section
/-! DEFINITION. Task control blocks (R146 to R152): their fields, the checks of a TCB that becomes ready, and arming. -/

namespace Sys2Proof.Machine

/-! ## Fields (R149) -/

/-- n bytes at offset off of a TCB line. -/
def tcbField (line off n : Nat) : Nat := line / 256 ^ off % 256 ^ n
/-- The copy of the fields that the distributor takes (R152). -/
def Tcb.ofLine (x : Nat) : Tcb :=
  { flags := tcbField x 0x0C 4, codebase := tcbField x 0x10 8, entry := tcbField x 0x18 4, grid := tcbField x 0x1C 4,
    blkdim := tcbField x 0x20 2, ganglanes := tcbField x 0x22 1, regs := tcbField x 0x24 2,
    maxregs := tcbField x 0x26 2, scratch := tcbField x 0x28 4, priv := tcbField x 0x2C 4,
    grouptab := tcbField x 0x30 8, groupn := tcbField x 0x38 2, coremask := tcbField x 0x40 8,
    diemask := tcbField x 0x48 1, seed := tcbField x 0x50 8, savearea := tcbField x 0x58 8,
    spillbase := tcbField x 0x60 8, spillsize := tcbField x 0x68 8,
    tempo := (List.range 4).map fun i => (tcbField x (0x70 + 16 * i) 8, tcbField x (0x78 + 16 * i) 8),
    migmask := tcbField x 0xB0 16, super := tcbField x 0xC0 8, faultrec := tcbField x 0xC8 8,
    overflow := tcbField x 0xD0 8, nsucc := tcbField x 0xD8 4,
    succ := (List.range 12).map fun i => tcbField x (0xE0 + 8 * i) 8 }

/-- Reason 1 of R152: a field out of its range or misaligned, a reserved bit set, an enclave task outside an enclave
(R456). -/
def Tcb.malformed (t : Tcb) (x : Nat) (enclave : Bool) : Bool :=
  let reserved := tcbField x 8 4 / 32 != 0 || t.flags / 128 != 0 || tcbField x 0x23 1 != 0 || tcbField x 0x3A 6 != 0 ||
    tcbField x 0x49 7 != 0 || tcbField x 0xDC 4 != 0 || nbits t.migmask 127 119 != 0
  let sizes := t.regs < 16 || 112 < t.regs || t.regs % 8 != 0 || t.maxregs < t.regs || 512 < t.maxregs ||
    t.maxregs % 8 != 0 || t.scratch % 16 != 0 || 524288 < t.scratch || t.priv % 8 != 0 || 32768 < t.priv
  let launch := t.codebase % 4096 != 0 || t.entry % 4 != 0 || t.grid == 0 || 2 ^ 32 < t.grid * t.blkdim ||
    t.blkdim == 0 || 32 < t.blkdim || t.ganglanes == 0 || 32 < t.ganglanes
  let areas := t.grouptab % 16 != 0 || (t.groupn == 0 && t.grouptab != 0) || 256 < t.groupn ||
    t.spillsize % 32 != 0 || t.super % 512 != 0 || t.faultrec % 64 != 0 || (t.nsucc ≤ 12 && t.overflow != 0)
  reserved || sizes || launch || areas || 28 < popcount 112 t.migmask || (t.encl && !enclave)
/-- Reason 2: one block does not fit an empty core. -/
def Tcb.tooBig (t : Tcb) : Bool :=
  131072 < t.blkdim * t.regs * 32 || 524288 < t.scratch || 32768 < t.blkdim * t.priv

/-! ## The group table (R147) -/

/-- A list in strictly ascending order. -/
def strictlyUp : List Nat → Bool
  | [] => true
  | [_] => true
  | x :: y :: r => decide (x < y) && strictlyUp (y :: r)
/-- The members that an entry of the table names; none for an entry that is invalid or cannot be read. -/
def State.groupEntry (s : State) (die : Nat) (t : Task) (g : Nat) : Option (List Nat) :=
  match s.readRange die t.reads (t.tcb.grouptab + 16 * g) 16 with
  | none => none
  | some bs =>
    let e := leNat bs
    let kind := e % 4
    let count := nbits e 31 16
    let stride := nbits e 15 8
    let first := nbits e 63 32
    let list := nbits e 127 64
    let total := t.tcb.grid * t.tcb.blkdim
    let fit (ms : List Nat) : Option (List Nat) := if ms.all (· < total) then some ms else none
    if nbits e 7 2 != 0 || 2048 < count || (kind != 0 && count == 0) then none
    else if kind = 0 then (if e = 0 then some [] else none)
    else if kind = 1 then
      (if list = 0 && stride != 0 then fit ((List.range count).map fun i => first + i * stride) else none)
    else if kind = 2 then
      (if first = 0 && stride = 0 && list % 4 = 0 then
        match s.readRange die t.reads list (4 * count) with
        | none => none
        | some ls =>
          let ms := (List.range count).map fun i => leNat ((ls.drop (4 * i)).take 4)
          if strictlyUp ms then fit ms else none
      else none)
    else none
/-- A read of the table or of a member list waits for a channel that holds accesses (R316). -/
def State.groupsHeld (s : State) (die : Nat) (t : Task) : Bool :=
  (List.range t.tcb.groupn).any fun g =>
    s.rangeHeld die t.reads (t.tcb.grouptab + 16 * g) 16 || match s.readRange die t.reads (t.tcb.grouptab + 16 * g) 16 with
      | some bs => leNat bs % 4 == 2 && s.rangeHeld die t.reads (nbits (leNat bs) 127 64) (4 * nbits (leNat bs) 31 16)
      | none => false
/-- The whole table; none where an entry fails (reason 3). -/
def State.groupTable (s : State) (die : Nat) (t : Task) : Option (Tab (List Nat)) :=
  (List.range t.tcb.groupn).foldl (fun r g => match r, s.groupEntry die t g with
    | some tab, some ms => some (tab ++ [(g, ms)])
    | _, _ => none) (some [])

/-! ## Where blocks may go (R184, R479) -/

/-- A core in the task's masks, of its stream's side of the rook partition, not fenced. -/
def State.allowedCore (s : State) (t : Tcb) (core : Nat) : Bool :=
  let d := s.die (dieOf core)
  !d.fenced && !(s.core core).fenced && nbit t.coremask (core % 64) && nbit t.diemask (dieOf core % 8) &&
    (t.rook == decide (64 - d.rookn ≤ core % 64))
def State.allowedOn (s : State) (t : Tcb) (die : Nat) : List Nat :=
  ((List.range 64).map (die * 64 + ·)).filter (s.allowedCore t)
/-- The blocks that one empty core holds. -/
def Tcb.perCore (t : Tcb) : Nat :=
  let by_ (limit each : Nat) : Nat := if each = 0 then limit else limit / each
  Nat.min (Nat.min (by_ 512 (t.blkdim * t.regs / 8)) (by_ 32 t.blkdim))
    (Nat.min (if t.scratch = 0 then 32 else 524288 / t.scratch) (if t.priv = 0 then 32 else 32768 / (t.blkdim * t.priv)))
/-- The blocks that a list of members stands in. -/
def blocksOf (blkdim : Nat) (ms : List Nat) : List Nat := ms.foldl (fun r m => insNat r (m / blkdim)) []

/-- The lowest reason of R152 that holds, or the group table. -/
def State.checkTcb (s : State) (home : Nat) (t : Task) (line : Nat) : Except Nat (Tab (List Nat)) :=
  if t.tcb.malformed line ((s.pkg (pkgOf home)).trust == 1) then .error 1
  else if t.tcb.tooBig then .error 2
  else
    match s.groupTable home t with
    | none => .error 3
    | some gs =>
      let all := gs.flatMap (·.2)
      let dies := (List.range 8).map (pkgOf home * 8 + ·)
      let room := maxNat (dies.map fun d => (s.allowedOn t.tcb d).length * t.tcb.perCore)
      if all.any fun m => 4 < all.count m then .error 4
      else if gs.any fun g => room < (blocksOf t.tcb.blkdim g.2).length then .error 5
      else if dies.all fun d => (s.allowedOn t.tcb d).isEmpty then .error 6
      else .ok gs

/-! ## Readiness (R151, R152, R182, R353) -/

/-- The launch of the TCB at a cell, as its home finds the line. `va` is the address it was armed by. -/
def State.launchOf (s : State) (home cell va : Nat) : Task :=
  let sup := match s.walk home va with
    | .ok l => l.sup
    | .error _ => false
  { Task.blank with addr := va, home := home, cell := cell, tcb := Tcb.ofLine (s.homeNat cell 512), status := .queued,
                    privileged := sup, enclGen := (s.pkg (pkgOf home)).gen }
/-- A walk on a die waits for an entry (R316). -/
def State.walkHeld (s : State) (die va : Nat) : Bool := match s.walk die va with
  | .error f => f = failWait
  | .ok _ => false
/-- The TCB at a cell cannot become ready yet: its line, or the group table it names, lies in a channel that holds accesses
(R316). -/
def State.readyHeld (s : State) (home cell va : Nat) : Bool :=
  let t := s.launchOf home cell va
  s.heldCell cell || s.walkHeld home va || (!t.tcb.malformed (s.homeNat cell 512) ((s.pkg (pkgOf home)).trust == 1) && s.groupsHeld home t)
/-- The TCB at a cell becomes ready at its home: copied, checked, and queued or faulted at placement. -/
def State.makeReady (s : State) (home cell va : Nat) : State :=
  let t := s.launchOf home cell va
  let line := s.homeNat cell 512
  let s := s.setTcbState cell 1
  let id := s.nextId
  let s := s.bump
  match s.checkTcb home t line with
  | .error k =>
    ((s.setTask id { t with status := .faulted }).setTcbState cell 4).asyncFault id tcAllot k 0 true
  | .ok gs =>
    let d := s.die home
    (s.setTask id { t with groups := gs }).setDie home { d with ready := d.ready ++ [(t.tcb.prio, t.tcb.rook, id)] }

/-- The virtual address that an arming names its TCB by. -/
def Packet.armedVa (p : Packet) : Nat := match p.body with
  | .arm va => va
  | _ => 0
/-- An arming waits while its TCB, or what the TCB reads as it becomes ready, lies in a channel that holds accesses (R316). -/
def State.armHeld (s : State) (p : Packet) : Bool :=
  let cell := homeCell p.dst p.pa 0
  let t := s.recallUnit cell 12
  s.packetHeld p || (t.homeNat cell 8 == 1 && t.tcbState cell == 0 && t.readyHeld p.dst cell p.armedVa)
/-- One arming at a TCB's home (R151), whose slice recalls PRED and STATE: PRED falls by one; from 1 to 0 in an idle TCB, it
becomes ready. -/
def State.armAt (s : State) (p : Packet) : State × Nat :=
  let cell := homeCell p.dst p.pa 0
  let s := s.recallUnit cell 12
  let pred := s.homeNat cell 8
  let r := s.unitUpdate p 0 8 fun m => (m + 2 ^ 64 - 1) % 2 ^ 64
  if r.2 != 0 then r
  else
    let t := r.1.takeUp cell
    if pred = 1 && t.tcbState cell = 0 then (t.makeReady p.dst cell p.armedVa, 0)
    else if sval 64 pred ≤ 0 then (t.homeStore (cell + 8) (leBytes 4 (Nat.lor (t.homeNat (cell + 8) 4) 16)), 0)
    else (t, 0)
/-- ARMING_PACKET. -/
def execArmingPacket (n : Nat) (s : State) : Host.Outcome State Fault Refusal :=
  .next (s.deliver n (fun p => p.kind == kArm) State.proxyLost State.armHeld (fun _ _ => false) State.armAt)

/-! ## Supervisors (R352) -/

/-- The service of a supervisor TCB waits (R316). -/
def State.serveHeld (s : State) (home cell va : Nat) : Bool :=
  s.heldCell cell || ((s.tcbState cell == 0 || s.tcbState cell == 3) && s.readyHeld home cell va)
/-- A supervisor TCB is served: readied, or marked pending in DEVPRIV. -/
def State.serve (s : State) (home cell va : Nat) : State :=
  let s := s.takeUp cell
  let st := s.tcbState cell
  if st = 0 || st = 3 then (s.homeStore cell (leBytes 8 0)).makeReady home cell va
  else if st = 1 || st = 2 then s.homeStore (devPending cell) [1]
  else s

end Sys2Proof.Machine
end

