-- ==== Sys2Proof/Machine/Faults.lean ====
section
/-! DEFINITION. Fault records and their delivery (R348 to R352). -/

namespace Sys2Proof.Machine

/-! ## The record (R350) -/

/-- The 128 bytes of a record, with the HEAD before it. -/
def FaultRec.bits (r : FaultRec) (tcb seq : Nat) : Nat :=
  let put (off n v : Nat) : Nat := v % 256 ^ n * 256 ^ off
  put 0 1 r.code + put 1 1 r.lane + put 2 2 r.info +
    put 4 4 (r.resumable.toNat + 2 * r.guest.toNat + 4 * r.privileged.toNat) + put 8 8 tcb + put 0x10 8 r.addr +
    put 0x18 4 r.block + put 0x1C 4 r.lgang + put 0x20 4 r.pc + put 0x24 4 r.resumePc +
    put 0x28 4 r.performed.toNat + put 0x2C 4 r.active.toNat + put 0x30 1 (r.die % 8) + put 0x31 1 (r.core % 64) +
    put 0x32 2 (pkgOf r.die) + put 0x34 1 127 + put 0x3C 4 seq + put 0x40 8 r.token

/-! ## The area (R348, R349) -/

/-- What becomes of a record at an area: the area fails, the record waits, or it is written. -/
inductive AreaResult where
  | fails
  | waits
  | written (s : State)
  deriving DecidableEq, Repr

/-- The granules of a record are the device's own, the second but for what software writes there (R350). -/
def State.ownRecord (s : State) : Nat → List (Leaf × Nat) → State
  | _, [] => s
  | kind, (l, n) :: ps =>
    ((List.range (n / 32)).foldl (fun s i => s.markField (l.cell + 32 * i) (kind + i)) s).ownRecord (kind + n / 32) ps
/-- Write a record into its area's next slot, and then HEAD; it waits while the area is full. -/
def State.writeRecord (s : State) (r : FaultRec) (area : Nat) : AreaResult :=
  match s.translate r.die area deviceWrites with
  | .error f => if f = failWait then .waits else .fails
  | .ok l =>
    if s.heldCell l.cell then .waits
    else if s.poisonedAt l.cell 32 then .fails
    else
      let head := s.homeNat l.cell 8
      let done := s.homeNat (l.cell + 8) 8
      let cap := s.homeNat (l.cell + 16) 4
      if cap = 0 || (head + 2 ^ 64 - done) % 2 ^ 64 = cap then .waits
      else
        match s.translateRange r.die deviceWrites 3 (area + 64 + 128 * (head % cap)) 128 with
        | .error f => if f = failWait then .waits else .fails
        | .ok ps =>
          if ps.any fun p => s.heldCell p.1.cell then .waits
          else if ps.any fun p => s.poisonedAt p.1.cell p.2 then .fails
          else
            let s := s.storePieces ps (leBytes 128 (r.bits (s.task r.task).addr head))
            let s := s.store none .d l.cache l.win l.cell (leBytes 8 (head + 1)) Maker.dev
            .written ((s.ownRecord 3 ps).markField l.cell 2)
/-- FAULTREC, and DEFFAULT where it is 0 or fails. -/
def State.chooseArea (s : State) (r : FaultRec) : AreaResult :=
  let own := (s.task r.task).tcb.faultrec
  let dflt := (s.die r.die).deffault.toNat
  let second : AreaResult := if dflt = 0 then .fails else s.writeRecord r dflt
  if own = 0 then second
  else
    match s.writeRecord r own with
    | .fails => second
    | x => x

/-! ## The supervisor (R348, R352) -/

/-- A supervisor TCB that can be served: its home and cell. -/
def State.superAt (s : State) (die va : Nat) : Option (Nat × Nat) :=
  if va = 0 || va % 512 != 0 then none
  else
    match s.translate die va deviceWrites with
    | .ok l => some (l.die, l.cell)
    | .error _ => none
/-- End a task as by HALT, unless it has come to its end already. -/
def State.haltTask (s : State) (task : Nat) : State :=
  let st := (s.task task).status
  if st == .retired || st == .ending then s else s.endTask task
/-- The supervisor TCB that serves a record: SUPER, and DEFSUPER in its place (R348); its home, cell and address. -/
def State.superOf (s : State) (r : FaultRec) : Option (Nat × Nat × Nat) :=
  let own := (s.task r.task).tcb.super
  let dflt := (s.die r.die).defsuper.toNat
  match s.superAt r.die own with
  | some (home, cell) => some (home, cell, own)
  | none => (s.superAt r.die dflt).map fun x => (x.1, x.2, dflt)
/-- The supervisor TCB is served; with none the task ends. -/
def State.serveSuper (s : State) (r : FaultRec) : State :=
  match s.superOf r with
  | some (home, cell, va) => s.serve home cell va
  | none => s.haltTask r.task
/-- The service of a record's supervisor waits (R316). -/
def State.superHeld (s : State) (r : FaultRec) : Bool :=
  let own := (s.task r.task).tcb.super
  let dflt := (s.die r.die).defsuper.toNat
  let walks (va : Nat) : Bool := va != 0 && va % 512 == 0 && s.walkHeld r.die va
  r.serve && (walks own || ((s.superAt r.die own).isNone && walks dflt) || match s.superOf r with
    | some (home, cell, va) => s.serveHeld home cell va
    | none => false)

/-- FAULT_RECORD_DELIVERY. -/
def execFaultRecordDelivery (rec : Nat) (s : State) : Host.Outcome State Fault Refusal :=
  match tabFind s.faults rec with
  | none => .next s
  | some r =>
    match s.chooseArea r with
    | .waits => .next s
    | .fails => .next ({ s with faults := tabDel s.faults rec }.haltTask r.task)
    | .written t =>
      let t := { t with faults := tabDel t.faults rec }
      if t.superHeld r then .next s else .next (if r.serve then t.serveSuper r else t)

end Sys2Proof.Machine
end

