-- ==== Sys2Proof/Machine/Int.lean ====
section
/-! DEFINITION. The integer majors (R83 to R102, but for BSREAD): arithmetic, logic, shifts, bit fields, constants,
predicates, special registers and the bit-stream cursor. -/

namespace Sys2Proof.Machine

/-! ## Shared forms -/

/-- A word that computes one integer of its type from A and B (R84). -/
def intWord (i : Instr) (ty : IntTy) (d a : Reg) (b : Src) (f : Int → Int → Int) (s : State) :
    Host.Outcome State Fault Refusal :=
  laneWord i (fun c _ l =>
    outInt ty d (f (ty.val (c.opA l ty.is64 a)) (ty.val (c.opB l ty.is64 a (immExt ty.signed) b)))) s

/-- A word that combines the bits of A and B. -/
def bitWord (i : Instr) (ty : IntTy) (d a : Reg) (b : Src) (f : Nat → Nat → Nat) (s : State) :
    Host.Outcome State Fault Refusal :=
  laneWord i (fun c _ l =>
    outSize ty.is64 d (f (c.opA l ty.is64 a) (c.opB l ty.is64 a (immExt ty.signed) b % 2 ^ ty.bits))) s

/-- A word that reads A at its type and B as a 32-bit count or field descriptor (R89, R90). -/
def countWord (i : Instr) (ty : IntTy) (d a : Reg) (b : Src) (f : Nat → Nat → Nat) (s : State) :
    Host.Outcome State Fault Refusal :=
  laneWord i (fun c _ l => outSize ty.is64 d (f (c.opA l ty.is64 a) (c.opCount l a b))) s

/-- A word with A alone. -/
def unaryWord (i : Instr) (ty : IntTy) (d a : Reg) (f : Int → Int) (s : State) : Host.Outcome State Fault Refusal :=
  laneWord i (fun c _ l => outInt ty d (f (ty.val (c.opA l ty.is64 a)))) s

/-- A word that counts the bits of A into one register (R91). -/
def bitCountWord (i : Instr) (ty : IntTy) (d a : Reg) (f : Nat → Nat) (s : State) : Host.Outcome State Fault Refusal :=
  laneWord i (fun c _ l => outW d (f (c.opA l ty.is64 a))) s

/-- Clamp to the range of the type where SAT is set (R85). -/
def satTo (ty : IntTy) (sat : Bool) (x : Int) : Int := if sat then clampInt ty.lo ty.hi x else x

/-! ## Arithmetic and logic -/

/-- ADD (R85). -/
def execAdd (h : Hd) (ty : IntTy) (sat : Bool) (d a : Reg) (b : Src) : State → Host.Outcome State Fault Refusal :=
  intWord (.add h ty sat d a b) ty d a b fun x y => satTo ty sat (x + y)
/-- SUB (R85). -/
def execSub (h : Hd) (ty : IntTy) (sat : Bool) (d a : Reg) (b : Src) : State → Host.Outcome State Fault Refusal :=
  intWord (.sub h ty sat d a b) ty d a b fun x y => satTo ty sat (x - y)
/-- MIN and MAX (R85). -/
def execMin (h : Hd) (ty : IntTy) (d a : Reg) (b : Src) : State → Host.Outcome State Fault Refusal :=
  intWord (.min h ty d a b) ty d a b fun x y => if y < x then y else x
def execMax (h : Hd) (ty : IntTy) (d a : Reg) (b : Src) : State → Host.Outcome State Fault Refusal :=
  intWord (.max h ty d a b) ty d a b fun x y => if x < y then y else x
/-- AND, OR, XOR, ANDN, ORN (R85). -/
def execAnd (h : Hd) (ty : IntTy) (d a : Reg) (b : Src) : State → Host.Outcome State Fault Refusal :=
  bitWord (.and h ty d a b) ty d a b Nat.land
def execOr (h : Hd) (ty : IntTy) (d a : Reg) (b : Src) : State → Host.Outcome State Fault Refusal :=
  bitWord (.or h ty d a b) ty d a b Nat.lor
def execXor (h : Hd) (ty : IntTy) (d a : Reg) (b : Src) : State → Host.Outcome State Fault Refusal :=
  bitWord (.xor h ty d a b) ty d a b Nat.xor
def execAndn (h : Hd) (ty : IntTy) (d a : Reg) (b : Src) : State → Host.Outcome State Fault Refusal :=
  bitWord (.andn h ty d a b) ty d a b fun x y => Nat.land x (2 ^ ty.bits - 1 - y)
def execOrn (h : Hd) (ty : IntTy) (d a : Reg) (b : Src) : State → Host.Outcome State Fault Refusal :=
  bitWord (.orn h ty d a b) ty d a b fun x y => Nat.lor x (2 ^ ty.bits - 1 - y)

/-- ADDC (R86). -/
def execAddc (h : Hd) (ty : IntTy) (ps : PredNo) (d a : Reg) (b : Src) : State → Host.Outcome State Fault Refusal :=
  laneWord (.addc h ty ps d a b) fun c _ l =>
    let x := c.opA l ty.is64 a
    let y := c.opB l ty.is64 a (immExt ty.signed) b % 2 ^ ty.bits
    let t := x + y + (c.rdPred l ps.toNat).toNat
    (outSize ty.is64 d (t % 2 ^ ty.bits)).withPred ps (2 ^ ty.bits ≤ t)
/-- SUBB (R86). -/
def execSubb (h : Hd) (ty : IntTy) (ps : PredNo) (d a : Reg) (b : Src) : State → Host.Outcome State Fault Refusal :=
  laneWord (.subb h ty ps d a b) fun c _ l =>
    let x := c.opA l ty.is64 a
    let y := c.opB l ty.is64 a (immExt ty.signed) b % 2 ^ ty.bits
    let k := (c.rdPred l ps.toNat).toNat
    (outSize ty.is64 d (wrapN ty.bits ((x : Int) - y - k))).withPred ps (x < y + k)

/-- MUL (R87). -/
def execMul (h : Hd) (ty : IntTy) (d a : Reg) (b : Src) : State → Host.Outcome State Fault Refusal :=
  intWord (.mul h ty d a b) ty d a b fun x y => x * y
/-- MULH (R87). -/
def execMulh (h : Hd) (ty : IntTy) (d a : Reg) (b : Src) : State → Host.Outcome State Fault Refusal :=
  intWord (.mulh h ty d a b) ty d a b fun x y => x * y / (2 ^ ty.bits : Nat)
/-- MAD (R87): D is the addend. -/
def execMad (h : Hd) (ty : IntTy) (d a : Reg) (b : Src) : State → Host.Outcome State Fault Refusal :=
  laneWord (.mad h ty d a b) fun c _ l =>
    let x := ty.val (c.opA l ty.is64 a)
    let y := ty.val (c.opB l ty.is64 a (immExt ty.signed) b)
    outInt ty d (x * y + ty.val (c.opA l ty.is64 d))

/-- Quotient and remainder, truncated toward zero; a division by zero has all ones and the dividend (R88). -/
def quotOf (x y : Int) : Int := if y = 0 then -1 else Int.tdiv x y
def remOf (x y : Int) : Int := if y = 0 then x else Int.tmod x y
def divWord (i : Instr) (ty : IntTy) (d a : Reg) (b : Src) (f : Int → Int → Int) (s : State) :
    Host.Outcome State Fault Refusal :=
  laneWord i (fun c _ l =>
    let y := ty.val (c.opB l ty.is64 a (immExt ty.signed) b)
    (outInt ty d (f (ty.val (c.opA l ty.is64 a)) y)).withFlags (flIf (y == 0) flDZ)) s
/-- DIV (R88). -/
def execDiv (h : Hd) (ty : IntTy) (d a : Reg) (b : Src) : State → Host.Outcome State Fault Refusal :=
  divWord (.div h ty d a b) ty d a b quotOf
/-- REM (R88). -/
def execRem (h : Hd) (ty : IntTy) (d a : Reg) (b : Src) : State → Host.Outcome State Fault Refusal :=
  divWord (.rem h ty d a b) ty d a b remOf

/-! ## Shifts and bit fields -/

/-- SHL, SHR, SAR, ROT (R89). -/
def execShl (h : Hd) (ty : IntTy) (d a : Reg) (b : Src) : State → Host.Outcome State Fault Refusal :=
  countWord (.shl h ty d a b) ty d a b fun x n => if n < ty.bits then x * 2 ^ n % 2 ^ ty.bits else 0
def execShr (h : Hd) (ty : IntTy) (d a : Reg) (b : Src) : State → Host.Outcome State Fault Refusal :=
  countWord (.shr h ty d a b) ty d a b fun x n => if n < ty.bits then x / 2 ^ n else 0
def execSar (h : Hd) (ty : IntTy) (d a : Reg) (b : Src) : State → Host.Outcome State Fault Refusal :=
  countWord (.sar h ty d a b) ty d a b fun x n =>
    wrapN ty.bits (sval ty.bits x / (2 ^ (if n < ty.bits then n else ty.bits) : Nat))
def execRot (h : Hd) (ty : IntTy) (d a : Reg) (b : Src) : State → Host.Outcome State Fault Refusal :=
  countWord (.rot h ty d a b) ty d a b fun x n =>
    let k := n % ty.bits
    x * 2 ^ k % 2 ^ ty.bits + x / 2 ^ (ty.bits - k)

/-- The field of BFX: pos, len and the bits of a, extended as the type says (R90). -/
def bfxOf (ty : IntTy) (x n : Nat) : Nat :=
  let pos := n % 256
  let len := Nat.min (n / 256 % 256) ty.bits
  let f := x / 2 ^ pos % 2 ^ len
  if len = 0 then 0 else if ty.signed then wrapN ty.bits (sval len f) else f
/-- The value of BFI: the low len bits of a at pos of d (R90). -/
def bfiOf (ty : IntTy) (x n old : Nat) : Nat :=
  let pos := n % 256
  let len := Nat.min (n / 256 % 256) ty.bits
  if ty.bits ≤ pos then old
  else
    let len := Nat.min len (ty.bits - pos)
    old % 2 ^ pos + x % 2 ^ len * 2 ^ pos + old / 2 ^ (pos + len) * 2 ^ (pos + len)
/-- BFX (R90). -/
def execBfx (h : Hd) (ty : IntTy) (d a : Reg) (b : Src) : State → Host.Outcome State Fault Refusal :=
  countWord (.bfx h ty d a b) ty d a b (bfxOf ty)
/-- BFI (R90). -/
def execBfi (h : Hd) (ty : IntTy) (d a : Reg) (b : Src) : State → Host.Outcome State Fault Refusal :=
  laneWord (.bfi h ty d a b) fun c _ l =>
    outSize ty.is64 d (bfiOf ty (c.opA l ty.is64 a) (c.opCount l a b) (c.opA l ty.is64 d))

/-! ## One operand (R91) -/

/-- MOV. -/
def execMov (h : Hd) (ty : IntTy) (d a : Reg) : State → Host.Outcome State Fault Refusal :=
  unaryWord (.mov h ty d a) ty d a fun x => x
/-- NEG and ABS. -/
def execNeg (h : Hd) (ty : IntTy) (sat : Bool) (d a : Reg) : State → Host.Outcome State Fault Refusal :=
  unaryWord (.neg h ty sat d a) ty d a fun x => satTo ty sat (-x)
def execAbs (h : Hd) (ty : IntTy) (sat : Bool) (d a : Reg) : State → Host.Outcome State Fault Refusal :=
  unaryWord (.abs h ty sat d a) ty d a fun x => satTo ty sat (if x < 0 then -x else x)
/-- POPC, CLZ, CTZ. -/
def execPopc (h : Hd) (ty : IntTy) (d a : Reg) : State → Host.Outcome State Fault Refusal :=
  bitCountWord (.popc h ty d a) ty d a (popcount ty.bits)
def execClz (h : Hd) (ty : IntTy) (d a : Reg) : State → Host.Outcome State Fault Refusal :=
  bitCountWord (.clz h ty d a) ty d a (leadingZeros ty.bits)
def execCtz (h : Hd) (ty : IntTy) (d a : Reg) : State → Host.Outcome State Fault Refusal :=
  bitCountWord (.ctz h ty d a) ty d a (trailingZeros ty.bits)
/-- BREV. -/
def execBrev (h : Hd) (ty : IntTy) (d a : Reg) : State → Host.Outcome State Fault Refusal :=
  laneWord (.brev h ty d a) fun c _ l => outSize ty.is64 d (revBits ty.bits (c.opA l ty.is64 a))

/-! ## Permutation, selection, constants, addresses -/

/-- Byte i of PERM's result, from the eight bytes of B:A (R92). -/
def permByte (ba sel i : Nat) : Nat :=
  let n := sel / 16 ^ i % 16
  let k := ba / 256 ^ (n % 8) % 256
  if n < 8 then k else if 128 ≤ k then 255 else 0
/-- PERM (R92). -/
def execPerm (h : Hd) (sel : BitVec 16) (d a : Reg) (b : Src) : State → Host.Outcome State Fault Refusal :=
  laneWord (.perm h sel d a b) fun c _ l =>
    let ba := c.opA l false a + 2 ^ 32 * c.opCount l a b
    let f := permByte ba sel.toNat
    outW d (f 0 + 256 * f 1 + 65536 * f 2 + 16777216 * f 3)
/-- SEL (R93). -/
def execSel (h : Hd) (ty : IntTy) (ps : PredNo) (d a : Reg) (b : Src) : State → Host.Outcome State Fault Refusal :=
  laneWord (.sel h ty ps d a b) fun c _ l =>
    outSize ty.is64 d (if c.rdPred l ps.toNat then c.opA l ty.is64 a
      else c.opB l ty.is64 a (immExt ty.signed) b % 2 ^ ty.bits)

/-- An FI immediate, sign-extended to 64 bits (R94). -/
def immOf : Imm36 → Nat
  | .short v => (v.signExtend 64).toNat
  | .long v => (v.signExtend 64).toNat
/-- MOVI (R94). -/
def execMovi (h : Hd) (ty : IntTy) (d : Reg) (i : Imm36) : State → Host.Outcome State Fault Refusal :=
  laneWord (.movi h ty d i) fun _ _ _ => outSize ty.is64 d (immOf i)
/-- MOVH (R94): the odd register of the pair. -/
def execMovh (h : Hd) (d : Reg) (i : Imm36) : State → Host.Outcome State Fault Refusal :=
  laneWord (.movh h d i) fun _ _ _ => outW (d + 1) (immOf i)
/-- LEA (R95). -/
def execLea (h : Hd) (scale : BitVec 3) (z : Bool) (d a : Reg) (b : Src) : State → Host.Outcome State Fault Refusal :=
  laneWord (.lea h scale z d a b) fun c _ l =>
    let x := c.opCount l a b
    let y := if z then x else match b with
      | .imm v => immSext v
      | .reg _ => wrapN 64 (sval 32 x)
    outPair d ((c.rdPair l a.toNat + y * 2 ^ scale.toNat) % 2 ^ 64)

/-! ## Comparison and predicates -/

/-- The conditions of CMP (R96). -/
def condHolds (k : Cond) (x y : Int) : Bool :=
  match k with
  | .eq => x == y
  | .ne => x != y
  | .lt => decide (x < y)
  | .le => decide (x ≤ y)
  | .gt => decide (y < x)
  | .ge => decide (y ≤ x)
/-- CMP (R96). -/
def execCmp (h : Hd) (k : Cond) (ty : IntTy) (pd : PredNo) (a : Reg) (b : Src) :
    State → Host.Outcome State Fault Refusal :=
  laneWord (.cmp h k ty pd a b) fun c _ l =>
    outPred pd (condHolds k (ty.val (c.opA l ty.is64 a)) (ty.val (c.opB l ty.is64 a (immExt ty.signed) b)))
/-- PLOG (R97). -/
def execPlog (h : Hd) (lut : BitVec 4) (pd pa pb : PredNo) : State → Host.Outcome State Fault Refusal :=
  laneWord (.plog h lut pd pa pb) fun c _ l =>
    outPred pd (lut.getLsbD (2 * (c.rdPred l pa.toNat).toNat + (c.rdPred l pb.toNat).toNat))
/-- PMOV predicates to a register (R98). -/
def execPmovToReg (h : Hd) (d : Reg) : State → Host.Outcome State Fault Refusal :=
  laneWord (.pmovToReg h d) fun c _ l =>
    outW d (128 + (List.range 7).foldl (fun x n => x + (c.rdPred l n).toNat * 2 ^ n) 0)
/-- PMOV of a register to predicates (R98). -/
def execPmovToPreds (h : Hd) (mask : BitVec 7) (a : Reg) : State → Host.Outcome State Fault Refusal :=
  laneWord (.pmovToPreds h mask a) fun c _ l =>
    let x := c.opA l false a
    { LaneOut.none with preds := ((List.range 7).filter mask.getLsbD).map fun n => (n, nbit x n) }

/-! ## Special registers (R19, R20, R99, R312, R357) -/

/-- GROUPS (R19). -/
def groupsWord (gs : List Nat) : Nat :=
  gs.length * 2 ^ 32 + ((List.range 4).foldl (fun x k => x + (gs.getD k 0) * 256 ^ k) 0)
/-- CHSTAT (R312). -/
def chStat (d : Die) : Nat :=
  let ch := tabGet d.channels Channel.reset d.chCh
  let kill := (List.range 16).foldl
    (fun x b => x + (if ch.promotion && (tabGet ch.units BankUnit.reset b).killed then 2 ^ b else 0)) 0
  kill * 2 ^ 16 + d.chSeq * 2 ^ 14 + d.chCh * 2 ^ 8 + ch.drop.toNat * 16 + d.chErr.toNat * 8 + ch.promotion.toNat
/-- The value of a special register in lane l. A guest's identity is that of its gang of origin, its place that of its
host die (R20). ALLOT is the gang's as it stands (R99), in a guest that which its ply carried (DESIGN CHOICE, assumption log 34). -/
def specialValue (c : Ctx) (s : State) (l : Nat) (r : SpecialReg) : Nat :=
  let (og, ol) := c.ident l
  let g := s.gang og
  let t := s.task g.task
  let d := s.die c.die
  match r with
  | .lane => ol
  | .slice => ol / 4
  | .gang => g.num
  | .block => (s.block g.block).idx
  | .blkdim => t.tcb.blkdim
  | .grid => t.tcb.grid
  | .core => c.core % 64
  | .die => c.die % 8
  | .pkg => pkgOf c.die
  | .groups => groupsWord g.groups
  | .allot =>
    match c.gang.guestAt l with
    | some q => q.allot + q.xb * 2 ^ 16
    | none => (s.gang c.gid).allot + (s.gang c.gid).xb * 2 ^ 16
  | .tcbp => t.addr
  | .cycles => d.cycles.toNat
  | .lstat => (tabGet c.run.group.lstat 0 l).toNat
  | .chstat => chStat d
  | .ptroot => d.ptroot.toNat
  | .defsuper => d.defsuper.toNat
  | .deffault => d.deffault.toNat
/-- MOVS (R99). -/
def execMovs (h : Hd) (d : Reg) (r : SpecialReg) : State → Host.Outcome State Fault Refusal :=
  laneWord (.movs h d r) fun c s l => outSize r.is64 d (specialValue c s l r)

/-- The highest slice of a set that has a lane in it: its lowest lane (R100). -/
def lastSliceLane (m : LaneSet) : Option Nat :=
  (List.range 8).foldl (fun r k =>
    match lowestLane (m &&& sliceLanes k) with
    | some l => some l
    | none => r) none
/-- SETXB (R100): of several slices that issue it together the highest-numbered stands. -/
def execSetxb (h : Hd) (a : Reg) : State → Host.Outcome State Fault Refusal :=
  word (.setxb h a) fun c perf s =>
    match lastSliceLane perf with
    | none => .ok s
    | some l => .ok (s.modGang c.gid fun g => { g with xb := c.opA l false a % 512 / 8 * 8 })

/-- BSLOAD (R101). -/
def execBsload (h : Hd) (a : Reg) : State → Host.Outcome State Fault Refusal :=
  word (.bsload h a) fun c perf s =>
    match (lanesIn perf).find? fun l => 2 ^ 55 ≤ c.rdPair l a.toNat with
    | some l => .error (Trap.of (failAccess 3) (some l) (c.rdPair l a.toNat / 8))
    | none =>
      .ok (s.modGang c.gid fun g =>
        let put (t : Tab (BitVec 55)) (l : Nat) := tabPut t l (BitVec.ofNat 55 (c.rdPair l a.toNat))
        { g with lanes := { g.lanes with cursor := (lanesIn perf).foldl put g.lanes.cursor } })

/-! ## NOP, TRAP, BRK (R116, R117) -/

/-- NOP. -/
def execNop (h : Hd) : State → Host.Outcome State Fault Refusal := word (.nop h) fun _ _ s => .ok s
/-- A trap that a word raises in its performing lanes; with none, nothing happens (R116, R354). -/
def raiseWord (i : Instr) (code info : Nat) : State → Host.Outcome State Fault Refusal :=
  word i fun _ perf s =>
    match lowestLane perf with
    | none => .ok s
    | some l =>
      .error { fail := { code := code, info := info }, lane := some l, addr := 0, performed := 0, next := true }
def execTrap (h : Hd) (code : BitVec 14) : State → Host.Outcome State Fault Refusal :=
  raiseWord (.trap h code) tcBrk (2 ^ 14 + code.toNat)
def execBrk (h : Hd) (code : BitVec 14) : State → Host.Outcome State Fault Refusal :=
  raiseWord (.brk h code) tcBrk code.toNat

end Sys2Proof.Machine
end

