-- ==== Sys2Proof/Machine/Migrate.lean ====
section
/-! DEFINITION. Plies (R403 to R417): their image, departure, admission and refusal, guest gangs, and their return. -/

namespace Sys2Proof.Machine

/-! ## The ply's header (R407) -/

/-- Four lanes' fields of w bits, lane place 0 lowest. -/
def tabBits {w : Nat} (t : Tab (BitVec w)) : Nat :=
  (List.range 4).foldl (fun v j => v + (tabGet t 0 j).toNat * 2 ^ (w * j)) 0
/-- The 64 bytes of the header. -/
def State.plyHeader (s : State) (p : Ply) : Nat :=
  let g := s.gang p.origin
  let t := s.task p.task
  t.addr % 2 ^ 64 * 2 ^ 448 + p.origin % 2 ^ 64 * 2 ^ 384 + p.pc % 2 ^ 32 * 2 ^ 352 +
    (s.block g.block).idx % 2 ^ 32 * 2 ^ 320 + t.tcb.grid % 2 ^ 32 * 2 ^ 288 + groupsWord g.groups % 2 ^ 35 * 2 ^ 253 +
    g.num % 32 * 2 ^ 248 + t.tcb.blkdim % 64 * 2 ^ 242 + p.slice % 8 * 2 ^ 239 + p.lanes.toNat * 2 ^ 235 +
    p.hops % 16 * 2 ^ 231 + (travelling t.tcb.migmask).length % 32 * 2 ^ 226 + p.xb % 512 * 2 ^ 217 +
    tabBits p.preds * 2 ^ 189 + tabBits p.lstat * 2 ^ 165 + pkgOf (dieOf g.core) % 4096 * 2 ^ 153 +
    dieOf g.core % 8 * 2 ^ 150 + g.core % 64 * 2 ^ 144 + t.tcb.prio * 2 ^ 142 + t.tcb.det.toNat * 2 ^ 141 +
    t.tcb.encl.toNat * 2 ^ 140 + p.isReturn.toNat * 2 ^ 139 + p.refused.toNat * 2 ^ 138 + p.rcause % 256 * 2 ^ 130

/-! ## Leaving (R405, R456) -/

/-- The lane positions of a ply in its gang of origin. -/
def Ply.home (p : Ply) : LaneSet := placeLanes p.lanes p.slice
/-- The allotment registers that travel, as the gang that the ply leaves keeps them. -/
def State.plyRegs (s : State) (p : Ply) : List Nat :=
  let base := if (s.gang p.src).guests.isEmpty then p.base else 0
  (travelling (s.task p.task).tcb.migmask).map (base + ·)
/-- What a ply waits for: a load of its lanes that has yet to write a register that travels, and a store or atomic of
them that has yet to be performed. -/
def State.plyWaits (s : State) (p : Ply) : Bool :=
  let regs := s.plyRegs p
  s.ops.any fun q =>
    q.2.gang == p.src && q.2.active &&& p.here != 0 &&
      match q.2.dest with
      | some d => q.2.once && q.2.accs.any (fun a => !a.done && hasLane p.here a.lane) ||
          (List.range d.count).any fun i => regs.contains (d.first + i)
      | none => match q.2.kind with
        | .rsend _ _ _ _ _ | .remote | .armWait _ | .eretWait => false
        | _ => q.2.accs.any fun a => !a.done && hasLane p.here a.lane
/-- The ply with its lanes' registers, predicates and flags as they stand. -/
def State.capture (s : State) (p : Ply) : Ply :=
  let g := s.gang p.src
  let L := g.lanes
  let regs := s.plyRegs p
  let js := (List.range 4).filter fun j => p.lanes.getLsbD j
  let mask : BitVec 7 := BitVec.ofNat 7 (nbits (s.task p.task).tcb.migmask 118 112)
  let at4 (j : Nat) : Nat := p.place * 4 + j
  { p with regs := ((List.range regs.length).zip regs).flatMap fun r =>
             js.map fun j => (r.1 * 4 + j, if r.2 < g.allot then tabGet L.regs 0 (regKey (at4 j) r.2) else 0),
           preds := js.map fun j => (j, tabGet L.preds 0 (at4 j) &&& mask),
           lstat := js.map fun j => (j, tabGet L.lstat 0 (at4 j)) }
/-- Pending writes to registers that do not travel pass the departed lanes by (R405). -/
def Op.forget (o : Op) (src : Nat) (m : LaneSet) : Op :=
  if o.gang = src && o.dest.isSome then { o with active := o.active &&& ~~~m } else o

/-- A die refuses a ply, which goes back to its origin (R409). -/
def State.refuse (s : State) (die : Nat) (p : Ply) (cause : Nat) : State :=
  let origin := dieOf (s.gang p.origin).core
  s.send (servicePacket die origin 1 kPly 0 0 (.ply { p with refused := true, rcause := cause, dst := origin }))
    none none 0 none

/-- The registers, predicates and flags of a ply enter the lanes of its gang of origin (R414, R410). -/
def Lanes.takePly (L : Lanes) (migmask allot : Nat) (p : Ply) : Lanes :=
  let fs := travelling migmask
  let js := (List.range 4).filter fun j => p.lanes.getLsbD j
  let mask : BitVec 7 := BitVec.ofNat 7 (nbits migmask 118 112)
  let lane (j : Nat) : Nat := p.slice * 4 + j
  let regs := (((List.range fs.length).zip fs).filter fun f => p.base + f.2 < allot).foldl (fun t f =>
    js.foldl (fun t j => tabPut t (regKey (lane j) (p.base + f.2)) (tabGet p.regs 0 (f.1 * 4 + j))) t) L.regs
  { L with regs := regs,
           preds := js.foldl (fun t j =>
             tabPut t (lane j) ((tabGet t 0 (lane j) &&& ~~~mask) ||| tabGet p.preds 0 j)) L.preds,
           lstat := js.foldl (fun t j => tabPut t (lane j) (tabGet p.lstat 0 j)) L.lstat }

/-- The lanes of a ply are back as a fragment with a cohort of its own, at a packet, or within a run. The cohort is due from
the moment it is formed (R189 names no other; DESIGN CHOICE, assumption log 51). -/
def Gang.takeBack (g : Gang) (migmask time : Nat) (p : Ply) (res : Option Resume) : Gang :=
  let f : Frag :=
    { slice := p.slice, act := p.home, stack := [], pc := p.pc / 4, next := none, cohort := g.nextCohort }
  let c : Cohort :=
    { id := g.nextCohort, gathered := false, regang := false, barWait := [], fenceAt := none, resume := res, stamp := time }
  let g := { g with lanes := g.lanes.takePly migmask g.allot p, away := dropAway g.away p.slice (placeLanes p.all p.slice) }
  if p.lanes = 0 then g
  else { g with frags := g.frags ++ [f], cohorts := g.cohorts ++ [c], nextCohort := g.nextCohort + 1 }

/-- A lane that comes back finds nothing that its gang has kept as it was, which it may have stored to elsewhere on the die; the
directory has dropped such copies from the L1 (R406, R26, R208). -/
def State.seesOwn (s : State) (gid : Nat) : State := s.dropNear (s.gang gid).core gid
/-- A return is taken back by its gang, which may have waited to gather (R414, R144). -/
def State.takeReturn (s : State) (p : Ply) : State :=
  ((s.seesOwn p.origin).modGang p.origin fun g =>
    (g.takeBack (s.task p.task).tcb.migmask s.time p none).gatherDue s.time).endIfDone p.origin
/-- Where GSTATE of a gang stands in its image. -/
def Gang.imageState (g : Gang) : Nat := imgGang + g.place * 8192 + 0x0C
/-- Bits enter GSTATE of a saved gang's header (R370). -/
def State.imageMark (s : State) (g : Gang) (bits : Nat) : State :=
  let t := s.task g.task
  let core := (s.block g.block).core
  match s.imageRead t core g.imageState 4 with
  | some bs => (s.imageWrite t core g.imageState (leBytes 4 (Nat.lor (leNat bs) bits))).getD s
  | none => s
/-- A saved gang is held from now on: its header says so (R416). -/
def State.markHold (s : State) (gid : Nat) : State :=
  if (s.gang gid).status == .saved then s.imageMark (s.gang gid) 1 else s
/-- A refusal restores its lanes as a fragment held at the word at which its ply left, and the gang traps MIGREFUSED (R410); a
lost fragment's trap cannot be resumed (R417). The w registers of those lanes read 0 in the rest of the run, as in a guest
(DESIGN CHOICE, assumption log 64). -/
def State.takeRefusal (s : State) (p : Ply) (resumable : Bool) : State :=
  let res : Resume :=
    { id := s.nextId, base := p.word / 4, pos := p.word % 4, xb := p.base, act := p.home, keepW := false }
  let id := (s.gang p.origin).nextCohort
  let s := ((s.seesOwn p.origin).modGang p.origin fun g =>
    g.takeBack (s.task p.task).tcb.migmask s.time { p with pc := p.word } (some res)).bump
  let g := s.gang p.origin
  let lane := (lowestLane p.home).getD 0
  let r := mkRecord s p.origin g p.origin lane { code := tcMigRefused, info := p.rcause }
    (tabGet p.addrs 0 (lane % 4)) p.word p.word 0 p.home
  (s.hold p.origin id p.home none { r with resumable := resumable } (some res)).markHold p.origin

/-- The stores of a ply's lanes are performed at die scope on the die they leave, and nobody else's (R405, R406). -/
def State.releaseLanes (s : State) (core : Nat) (p : Ply) : State :=
  s.toDie fun q => q.reach == Reach.core core && q.gang == p.src && q.lane < 32 && hasLane p.here q.lane
/-- A ply of the same word that has to leave first: departures go in the order of the lowest lane that names each home (R404,
R466). -/
def State.leavesLater (s : State) (ply : Nat) (p : Ply) : Bool :=
  s.departing.any fun d => d.1 < ply && d.2.src == p.src && d.2.word == p.word && !d.2.isReturn
/-- A package that is no member of the enclave, and that the die does not treat as fenced (R456, R458). -/
def Pkg.outside (p : Pkg) (n : Nat) : Bool := p.trust == 1 && !p.member n && !p.fencedPkgs.contains n
/-- PLY_DEPARTURE: a ply leaves; towards a package outside the enclave it is refused unsent (R456). -/
def execPlyDeparture (ply : Nat) (s : State) : Host.Outcome State Fault Refusal :=
  match tabFind s.departing ply with
  | none => .next s
  | some p =>
    if s.plyWaits p || s.leavesLater ply p then .next s
    else
      let core := (s.gang p.src).core
      let die := dieOf core
      let s := s.releaseLanes core p
      let q := s.capture p
      let ops : Tab Op := s.ops.map fun o => (o.1, o.2.forget p.src p.here)
      let s := { s with departing := tabDel s.departing ply, ops := ops }
      if pkgOf p.dst != pkgOf die && (s.pkg (pkgOf die)).outside (pkgOf p.dst) then
        (if die = dieOf (s.gang p.origin).core then .next (s.takeRefusal { q with refused := true, rcause := 2 } true)
          else .next (s.refuse die q 2))
      else
        let pkt : Packet :=
          { Packet.blank with sdie := die, eng := core % 64, dst := p.dst, vc := 1, kind := kPly, body := .ply q }
        .next (s.send pkt none none 0 none)

/-! ## Admission (R408, R409) -/

/-- The cause for which a die refuses a ply, the first of 3, 2, 4 and 1; 3 is the fence proxy's. -/
def State.refusal (s : State) (die : Nat) (p : Ply) : Option Nat :=
  let t := s.task p.task
  let pk := s.pkg (pkgOf die)
  if t.tcb.encl && !(pk.trust == 1 && pk.gen == t.enclGen) then some 2
  else if t.tcb.rook && (s.die die).rookn == 0 then some 4
  else if 1024 ≤ (s.die die).arrivals.length then some 1
  else none
/-- The refusals that a die keeps until they are acknowledged. -/
def State.refusalsKept (s : State) (die : Nat) : Nat :=
  s.unacked.countP fun u => u.pkt.sdie == die && u.pkt.eng == engHomeService && u.pkt.kind == kPly
def plyIn (p : Packet) (f : Ply → Bool) : Bool := match p.body with
  | .ply q => f q
  | _ => false
/-- The fence proxy refuses a ply once (R409): its sender holds it no longer, and a further copy is nothing. -/
def State.plyLost (s : State) (p : Packet) : State := match p.body with
  | .ply q =>
    let same (u : Unacked) : Bool := u.pkt.stream == p.stream && u.pkt.seq == p.seq
    if s.unacked.any same then { s with unacked := s.unacked.filter fun u => !same u }.refuse p.sdie q 3 else s
  | _ => s
/-- The die knows that the origin of a ply is fenced, or its package: the ply is discarded (R417). A die of another package, which
no notice reaches, knows it at once (DESIGN CHOICE, assumption log 12). -/
def State.originGone (s : State) (die : Nat) (p : Ply) : Bool :=
  let o := dieOf (s.gang p.origin).core
  if pkgOf o = pkgOf die then (s.die die).fencedMask.getLsbD (o % 8)
  else (s.die o).fenced || (s.pkg (pkgOf die)).fencedPkgs.contains (pkgOf o)
/-- PLY_PACKET. -/
def execPlyPacket (n : Nat) (s : State) : Host.Outcome State Fault Refusal :=
  let perform (s : State) (p : Packet) : State × Nat := match p.body with
    | .ply q =>
      if s.originGone p.dst q then (s, 0) else match s.refusal p.dst q with
      | some k => (s.refuse p.dst q k, 0)
      | none => (s.setDie p.dst { s.die p.dst with arrivals := (s.die p.dst).arrivals ++ [q] }, 0)
    | _ => (s, 0)
  .next (s.deliver n (fun p => p.kind == kPly && plyIn p fun q => !q.isReturn && !q.refused) State.plyLost
    (fun _ _ => false)
    (fun s p => 1024 ≤ s.refusalsKept p.dst) perform)

/-! ## Coming back (R410, R414, R416) -/

/-- The header of the saved gang that a refusal comes back to lies in a channel that holds accesses (R316). -/
def State.parkHeld (s : State) (p : Packet) : Bool := plyIn p fun q =>
  let g := s.gang q.origin
  q.refused && g.status == .saved && s.imageHeld (s.task g.task) (s.block g.block).core g.imageState 4
/-- The gang that a ply comes back to is saved, and the ply park of its die is full. -/
def State.parkFull (s : State) (p : Packet) : Bool := plyIn p fun q =>
  (s.gang q.origin).status == .saved && 8192 ≤ (s.die p.dst).park.length
/-- A ply for a saved gang waits in the ply park; the trap of a refusal is taken as it arrives. -/
def State.comeBack (s : State) (die : Nat) (q : Ply) : State :=
  match (s.gang q.origin).status with
  | .ended => s
  | .resident => if q.refused then s.takeRefusal q true else s.takeReturn q
  | .saved =>
    let s := s.setDie die { s.die die with park := (s.die die).park ++ [q] }
    if q.refused then s.takeRefusal q true else s
def backPacket (n : Nat) (mine : Ply → Bool) (s : State) : Host.Outcome State Fault Refusal :=
  let perform (s : State) (p : Packet) : State × Nat := match p.body with
    | .ply q => (s.comeBack p.dst q, 0)
    | _ => (s, 0)
  .next (s.deliver n (fun p => p.kind == kPly && plyIn p mine) State.proxyLost State.parkHeld State.parkFull perform)
/-- REFUSED_PLY_ARRIVAL. -/
def execRefusedPlyArrival (n : Nat) : State → Host.Outcome State Fault Refusal := backPacket n fun q => q.refused
/-- RETURN_PLY_ARRIVAL. -/
def execReturnPlyArrival (n : Nat) : State → Host.Outcome State Fault Refusal :=
  backPacket n fun q => q.isReturn && !q.refused
/-- The registers of a ply enter those of its gang of origin, which has been restored from its image. -/
def State.takeRegs (s : State) (p : Ply) : State :=
  s.modGang p.origin fun g => { g with lanes := g.lanes.takePly (s.task p.task).tcb.migmask g.allot p }
/-- Restore takes the parked plies of a gang back; the trap of a refusal has been taken already, and its registers follow those
of the image (R416). -/
def State.unpark (s : State) (gid : Nat) : State :=
  let die := dieOf (s.gang gid).core
  let mine := (s.die die).park.filter fun q => q.origin == gid
  let s := s.setDie die { s.die die with park := (s.die die).park.filter fun q => q.origin != gid }
  mine.foldl (fun s q => if q.refused then s.takeRegs q else s.takeReturn q) s

/-! ## Guest gangs (R411) -/

/-- Guest slots of a core in use: those of a guest gang are freed together, when the last of its fragments has ended or left
(R417). -/
def State.guestSlots (s : State) (core : Nat) : Nat :=
  (s.gangs.filter fun p => p.2.core == core && (p.2.status != .ended || s.departing.any fun d => d.2.src == p.1)).foldl
    (fun n p => n + p.2.guests.length) 0
/-- The core lies in the rook partition of its die (R186). -/
def State.inRook (s : State) (core : Nat) : Bool := 64 - (s.die (dieOf core)).rookn ≤ core % 64
/-- The core may take the ply. -/
def State.mayHost (s : State) (core : Nat) (p : Ply) : Bool :=
  (s.task p.task).tcb.rook == s.inRook core && !(s.core core).fenced
/-- No allowed core of the die takes before this one. -/
def State.takesFirst (s : State) (core : Nat) (p : Ply) : Bool :=
  (List.range 64).all fun i =>
    let k := dieOf core * 64 + i
    k == core || !s.mayHost k p || s.guestSlots core < s.guestSlots k ||
      (s.guestSlots core == s.guestSlots k && core < k)
/-- The oldest ply of the highest priority that the core may take. -/
def State.nextPly (s : State) (core : Nat) : Option Ply :=
  (((s.die (dieOf core)).arrivals.filter (s.mayHost core)).foldl
    (fun (b : Option Ply) p => match b with
      | some q => if (s.task q.task).tcb.prio < (s.task p.task).tcb.prio then some p else some q
      | none => some p) none)
/-- The guest gang that a list of plies forms on a core. -/
def State.guestGang (s : State) (core : Nat) (ps : List Ply) : Gang :=
  let places := (List.range ps.length).zip ps
  let p0 := ps.head?
  let task := (p0.map (·.task)).getD 0
  let fs := travelling (s.task task).tcb.migmask
  let each {α : Type} (f : Nat → Ply → Nat → List (Nat × α)) : Tab α :=
    (places.flatMap fun q => ((List.range 4).filter fun j => q.2.lanes.getLsbD j).flatMap fun j => f q.1 q.2 j).foldl
      (fun t e => tabPut t e.1 e.2) []
  let L : Lanes :=
    { Lanes.empty with
      regs := each fun i p j => ((List.range fs.length).zip fs).map fun f =>
        (regKey (i * 4 + j) f.2, tabGet p.regs 0 (f.1 * 4 + j)),
      preds := each fun i p j => [(i * 4 + j, tabGet p.preds 0 j)],
      lstat := each fun i p j => [(i * 4 + j, tabGet p.lstat 0 j)] }
  let pc := (p0.map (·.pc)).getD 0
  let frag (q : Nat × Ply) : Frag :=
    { slice := q.1, act := placeLanes q.2.lanes q.1, stack := [], pc := pc / 4, next := none, cohort := 0 }
  let act := places.foldl (fun m q => m ||| placeLanes q.2.lanes q.1) 0
  let res : Resume := { id := s.nextId, base := pc / 4, pos := pc % 4, xb := 0, act := act, keepW := false }
  { Gang.blank with
    task := task, block := (s.gang ((p0.map (·.origin)).getD 0)).block, core := core, status := .resident, lanes := L,
    allot := 112, frags := places.map frag,
    cohorts := [{ id := 0, gathered := false, regang := false, barWait := [], fenceAt := none, resume := some res,
                  stamp := s.time }],
    nextCohort := 1,
    started := true,
    guests := ps.map fun p =>
      { origin := p.origin, slice := p.slice, all := p.all, hops := p.hops, xb := p.xb, base := p.base,
        allot := p.allot, left := false } }
/-- The plies that gather with the first: up to eight of one task and PC, and the core's free slots. -/
def gatherPlies (room : Nat) (p : Ply) : List Ply → List Ply
  | [] => []
  | q :: qs =>
    match room with
    | 0 => []
    | r + 1 => if q.task = p.task && q.pc = p.pc then q :: gatherPlies r p qs else gatherPlies (r + 1) p qs
/-- The arrivals without the plies taken, each once. -/
def dropPlies (ts : List Ply) (qs : List Ply) : List Ply := ts.foldl (fun l t => l.erase t) qs

/-- GUEST_GANG_FORMATION. -/
def execGuestGangFormation (core : Nat) (s : State) : Host.Outcome State Fault Refusal :=
  match s.nextPly core with
  | none => .next s
  | some p =>
    let used := s.guestSlots core
    if 256 ≤ used || !s.takesFirst core p then .next s
    else
      let d := s.die (dieOf core)
      let rest := d.arrivals.erase p
      let more := gatherPlies (Nat.min 7 (255 - used)) p (rest.filter (s.mayHost core))
      let g := s.guestGang core (p :: more)
      let id := s.nextId + 1
      .next { (s.setDie (dieOf core) { d with arrivals := dropPlies more rest }).setGang id g with nextId := id + 1 }

end Sys2Proof.Machine
end

