-- ==== Sys2Proof/Machine/Float.lean ====
section
/-! DEFINITION. The float majors (R118 to R139): arithmetic, special functions, conversions, packing, scaling, the packed
dot products and the lane generator. -/

namespace Sys2Proof

open Machine

/-! ## Formats of the conversion words (R128, R131) -/

def CvtFmt.fmt : CvtFmt → Fmt
  | .f64 => fp64
  | .f16 => fp16
  | .bf16 => fbf16
  | .e5m2 => fe5m2
  | .e4m3 => fe4m3
  | .e2m1 => fe2m1
  | _ => fp32
def CvtFmt.signedInt : CvtFmt → Bool
  | .i4 | .i8 | .i16 | .i32 | .i64 => true
  | _ => false
def NarrowFmt.fmt : NarrowFmt → Fmt
  | .e4m3 => fe4m3
  | .e5m2 => fe5m2
  | .e3m2 => fe3m2
  | .e2m3 => fe2m3
  | .e2m1 => fe2m1
  | .f16 => fp16
  | _ => fbf16
/-- Width of an element, and whether an integer one is signed. -/
def NarrowFmt.bits : NarrowFmt → Nat
  | .e2m1 | .i4 | .n4 => 4
  | .e3m2 | .e2m3 => 6
  | .f16 | .bf16 => 16
  | _ => 8
def NarrowFmt.signedInt : NarrowFmt → Bool
  | .i8 | .i4 => true
  | _ => false

end Sys2Proof

namespace Sys2Proof.Machine

/-! ## Arithmetic (R120 to R124) -/

/-- A word that computes each element from A and B. -/
def floatWord (i : Instr) (ft : FloatTy) (d a : Reg) (b : Src) (f : FVal → FVal → Nat × FlagSet) (s : State) :
    Host.Outcome State Fault Refusal :=
  laneWord i (fun c _ l => outFloat ft d fun k =>
    f (ft.fmt.value (ft.elem (c.flA l ft a) k)) (ft.fmt.value (ft.elem (c.flB l ft a b) k))) s

/-- FADD, FSUB, FMUL (R120). -/
def execFadd (h : Hd) (ft : FloatTy) (rm : Round) (d a : Reg) (b : Src) : State → Host.Outcome State Fault Refusal :=
  floatWord (.fadd h ft rm d a b) ft d a b fun x y => ft.fmt.add (.to rm) x y
def execFsub (h : Hd) (ft : FloatTy) (rm : Round) (d a : Reg) (b : Src) : State → Host.Outcome State Fault Refusal :=
  floatWord (.fsub h ft rm d a b) ft d a b fun x y => ft.fmt.add (.to rm) x y.negate
def execFmul (h : Hd) (ft : FloatTy) (rm : Round) (d a : Reg) (b : Src) : State → Host.Outcome State Fault Refusal :=
  floatWord (.fmul h ft rm d a b) ft d a b fun x y => ft.fmt.mulR (.to rm) x y
/-- FMA (R120): D is the addend. -/
def execFma (h : Hd) (ft : FloatTy) (rm : Round) (d a : Reg) (b : Src) : State → Host.Outcome State Fault Refusal :=
  laneWord (.fma h ft rm d a b) fun c _ l => outFloat ft d fun k =>
    ft.fmt.fmaR (.to rm) (ft.fmt.value (ft.elem (c.flA l ft a) k)) (ft.fmt.value (ft.elem (c.flB l ft a b) k))
      (ft.fmt.value (ft.elem (c.flA l ft d) k))
/-- FMA2 (R121): two FP32 accumulators in the pair D. -/
def execFma2 (h : Hd) (ft : FloatTy) (rm : Round) (d a b : Reg) : State → Host.Outcome State Fault Refusal :=
  laneWord (.fma2 h ft rm d a b) fun c _ l =>
    let x := c.flA l ft a
    let y := c.flB l ft a (.reg b)
    let acc (k : Nat) : Nat × FlagSet :=
      fp32.fmaR (.to rm) (ft.fmt.value (ft.elem x k)) (ft.fmt.value (ft.elem y k))
        (fp32.value (c.rd l (d.toNat + k) 0))
    (outPair d ((acc 0).1 + 2 ^ 32 * (acc 1).1)).withFlags ((acc 0).2 ||| (acc 1).2)

/-- FMIN, FMAX (R122). -/
def minMaxWord (i : Instr) (isMax : Bool) (ft : FloatTy) (d a : Reg) (b : Src) (s : State) :
    Host.Outcome State Fault Refusal :=
  laneWord i (fun c _ l => outFloat ft d fun k =>
    ft.fmt.minMax isMax (ft.elem (c.flA l ft a) k) (ft.elem (c.flB l ft a b) k)) s
def execFmin (h : Hd) (ft : FloatTy) (d a : Reg) (b : Src) : State → Host.Outcome State Fault Refusal :=
  minMaxWord (.fmin h ft d a b) false ft d a b
def execFmax (h : Hd) (ft : FloatTy) (d a : Reg) (b : Src) : State → Host.Outcome State Fault Refusal :=
  minMaxWord (.fmax h ft d a b) true ft d a b
/-- FCMP (R123). -/
def execFcmp (h : Hd) (k : FCond) (ft : FloatTy) (pd : PredNo) (a : Reg) (b : Src) :
    State → Host.Outcome State Fault Refusal :=
  laneWord (.fcmp h k ft pd a b) fun c _ l =>
    let r := condF k (ft.fmt.value (ft.elem (c.flA l ft a) 0)) (ft.fmt.value (ft.elem (c.flB l ft a b) 0))
    (outPred pd r.1).withFlags r.2
/-- FDIV (R124). -/
def execFdiv (h : Hd) (ft : FloatTy) (rm : Round) (d a : Reg) (b : Src) : State → Host.Outcome State Fault Refusal :=
  floatWord (.fdiv h ft rm d a b) ft d a b fun x y => ft.fmt.divR (.to rm) x y

/-! ## Special functions (R125 to R127) -/

/-- A word with A alone, on the bits of its element. -/
def funWord (i : Instr) (ft : FloatTy) (d a : Reg) (f : Nat → Nat × FlagSet) (s : State) :
    Host.Outcome State Fault Refusal :=
  laneWord i (fun c _ l => outFloat ft d fun k => f (ft.elem (c.flA l ft a) k)) s
/-- FSQRT, FRCP. -/
def execFsqrt (h : Hd) (ft : FloatTy) (rm : Round) (d a : Reg) : State → Host.Outcome State Fault Refusal :=
  funWord (.fsqrt h ft rm d a) ft d a fun x => ft.fmt.sqrtR (.to rm) (ft.fmt.value x)
def execFrcp (h : Hd) (ft : FloatTy) (rm : Round) (d a : Reg) : State → Host.Outcome State Fault Refusal :=
  funWord (.frcp h ft rm d a) ft d a fun x => ft.fmt.divR (.to rm) (.fin false 1 0) (ft.fmt.value x)
/-- FRSQ, FEXP2, FLOG2, FSIN, FCOS, FTANH. -/
def execFrsq (h : Hd) (ft : FloatTy) (d a : Reg) : State → Host.Outcome State Fault Refusal :=
  funWord (.frsq h ft d a) ft d a (ft.fmt.rsq ft.num)
def execFexp2 (h : Hd) (ft : FloatTy) (d a : Reg) : State → Host.Outcome State Fault Refusal :=
  funWord (.fexp2 h ft d a) ft d a (ft.fmt.exp2 ft.num)
def execFlog2 (h : Hd) (ft : FloatTy) (d a : Reg) : State → Host.Outcome State Fault Refusal :=
  funWord (.flog2 h ft d a) ft d a (ft.fmt.log2R ft.num)
def execFsin (h : Hd) (ft : FloatTy) (d a : Reg) : State → Host.Outcome State Fault Refusal :=
  funWord (.fsin h ft d a) ft d a (ft.fmt.sinR ft.num)
def execFcos (h : Hd) (ft : FloatTy) (d a : Reg) : State → Host.Outcome State Fault Refusal :=
  funWord (.fcos h ft d a) ft d a (ft.fmt.cosR ft.num)
def execFtanh (h : Hd) (ft : FloatTy) (d a : Reg) : State → Host.Outcome State Fault Refusal :=
  funWord (.ftanh h ft d a) ft d a (ft.fmt.tanhR ft.num)
/-- FCLASS (R127). -/
def execFclass (h : Hd) (ft : FloatTy) (d a : Reg) : State → Host.Outcome State Fault Refusal :=
  laneWord (.fclass h ft d a) fun c _ l => outW d (ft.fmt.classify (ft.elem (c.flA l ft a) 0))

/-! ## Conversions (R128 to R130) -/

/-- The range of an integer of n bits. -/
def intLo (isSigned : Bool) (n : Nat) : Int := if isSigned then -(2 ^ (n - 1) : Nat) else 0
def intHi (isSigned : Bool) (n : Nat) : Int := if isSigned then (2 ^ (n - 1) : Nat) - 1 else (2 ^ n : Nat) - 1
/-- An integer of n bits, extended to 32 bits where it is narrower. -/
def intBits (isSigned : Bool) (n : Nat) (v : Int) : Nat :=
  if n < 32 && isSigned then wrapN 32 (sval n (wrapN n v)) else wrapN n v

/-- A conversion between two formats under a rounding (R72, R129). -/
def cvtBits (dst src : CvtFmt) (md : Mode) (sat int : Bool) (x : Nat) : Nat × FlagSet :=
  let dn := dst.intWidth
  if src.isFloat then
    let v := src.fmt.value (x % 2 ^ src.fmt.width)
    if int then src.fmt.toIntegral md v
    else if dst.isFloat then dst.fmt.ofVal md v
    else
      let r := floatToInt md (intLo dst.signedInt dn) (intHi dst.signedInt dn) v
      (intBits dst.signedInt dn r.1, r.2)
  else
    let v : Int := if src.signedInt then sval src.intWidth x else (x % 2 ^ src.intWidth : Nat)
    if dst.isFloat then dst.fmt.roundInt md false v 0
    else if sat || dst == .i4 || dst == .n4 then
      (intBits dst.signedInt dn (clampInt (intLo dst.signedInt dn) (intHi dst.signedInt dn) v), 0)
    else (intBits dst.signedInt dn v, 0)

/-- CVT (R129). -/
def execCvt (h : Hd) (dst src : CvtFmt) (rm : Round) (sat int : Bool) (d a : Reg) :
    State → Host.Outcome State Fault Refusal :=
  laneWord (.cvt h dst src rm sat int d a) fun c _ l =>
    let r := cvtBits dst src (.to rm) sat int (c.opA l src.is64 a)
    (outSize dst.is64 d r.1).withFlags r.2
/-- CVTSR (R130): one draw in each performing lane. -/
def execCvtsr (h : Hd) (dst src : CvtFmt) (d a : Reg) : State → Host.Outcome State Fault Refusal :=
  drawWord (.cvtsr h dst src d a) 1 fun c ds l =>
    let r := cvtBits dst src (.sr (draw16 (ds.getD 0 0))) false false (c.opA l src.is64 a)
    (outSize dst.is64 d r.1).withFlags r.2

/-! ## Packing (R131 to R133) -/

/-- Bits lo.. of x replaced by the low n bits of v. -/
def setBits (x lo n v : Nat) : Nat := x % 2 ^ lo + v % 2 ^ n * 2 ^ lo + x / 2 ^ (lo + n) * 2 ^ (lo + n)

/-- An FP32 source into a narrow format (R72). -/
def narrowBits (nf : NarrowFmt) (md : Mode) (x : Nat) : Nat × FlagSet :=
  let v := fp32.value x
  if nf.integer then
    let r := floatToInt md (intLo nf.signedInt nf.bits) (intHi nf.signedInt nf.bits) v
    (wrapN nf.bits r.1, r.2)
  else nf.fmt.ofVal md v

/-- Element k of a packed register pair takes the code e: an FP6 code goes to its two planes (R67, R68). -/
def putElem (nf : NarrowFmt) (half : Bool) (k e : Nat) (d : Nat × Nat) : Nat × Nat :=
  if nf.fp6 then (setBits d.1 (4 * k) 4 (e / 4), setBits d.2 ((if half then 16 else 0) + 2 * k) 2 e)
  else (setBits d.1 (nf.bits * k) nf.bits e, d.2)
/-- The code of element k. -/
def getElem (nf : NarrowFmt) (half : Bool) (k : Nat) (d : Nat × Nat) : Nat :=
  if nf.fp6 then d.1 / 2 ^ (4 * k) % 16 * 4 + d.2 / 2 ^ ((if half then 16 else 0) + 2 * k) % 4
  else d.1 / 2 ^ (nf.bits * k) % 2 ^ nf.bits

/-- What a lane of PACK writes. -/
def packLane (c : Ctx) (l : Nat) (nf : NarrowFmt) (m0 m1 : Mode) (half : Bool) (j : Nat) (d a : Reg) (b : Src) : LaneOut :=
  let e0 := narrowBits nf m0 (c.rd l a.toNat 0)
  let e1 := narrowBits nf m1 (c.opB l false a (FloatTy.f32).imm b)
  let old := (c.rd l d.toNat 0, if nf.fp6 then c.rd l (d.toNat + 1) 0 else 0)
  let r := putElem nf half (2 * j + 1) e1.1 (putElem nf half (2 * j) e0.1 old)
  (if nf.fp6 then outPair d (r.1 + 2 ^ 32 * r.2) else outW d r.1).withFlags (e0.2 ||| e1.2)
/-- PACK (R132): with SR two draws, a's first. -/
def execPack (h : Hd) (nf : NarrowFmt) (sr : Bool) (rm : Round) (half : Bool) (j : BitVec 2) (d a : Reg) (b : Src)
    (s : State) : Host.Outcome State Fault Refusal :=
  let i : Instr := .pack h nf sr rm half j d a b
  if sr then
    drawWord i 2 (fun c ds l =>
      packLane c l nf (.sr (draw16 (ds.getD 0 0))) (.sr (draw16 (ds.getD 1 0))) half j.toNat d a b) s
  else laneWord i (fun c _ l => packLane c l nf (.to rm) (.to rm) half j.toNat d a b) s
/-- UNPACK (R133). -/
def execUnpack (h : Hd) (nf : NarrowFmt) (half : Bool) (i : BitVec 3) (d a : Reg) :
    State → Host.Outcome State Fault Refusal :=
  laneWord (.unpack h nf half i d a) fun c _ l =>
    let e := getElem nf half i.toNat (c.rd l a.toNat 0, if nf.fp6 then c.rd l (a.toNat + 1) 0 else 0)
    let r := if nf.integer then
        fp32.roundInt (.to .rne) false (if nf.signedInt then sval nf.bits e else e) 0
      else fp32.ofVal (.to .rne) (nf.fmt.value e)
    (outW d r.1).withFlags r.2

/-! ## Scales (R69, R134) -/

/-- The leader lane of the block that holds element i of lane l, with E elements a register. -/
def leaderOf (e l i : Nat) : Nat := (l * e + i) / 32 * (32 / e)
/-- Elements a register of a block map (R69, R134). -/
def mapElems (m : ScaleMap) (ft : FloatTy) : Nat :=
  match m with
  | .byFt => if ft.packed then 2 else 1
  | .m4 => 8
  | .m8 => 4
  | .m16 => 2
/-- A scale byte of a register of a lane, active or not (R69): of a leader whose slice is away as a guest, the register that
its gang of origin still holds (DESIGN CHOICE, assumption log 34). -/
def Ctx.scaleByte (c : Ctx) (l : Nat) (r : Reg) (sel : Nat) : Nat := c.rd l r.toNat 0 / 256 ^ sel % 256
/-- SCALE (R134). -/
def execScale (h : Hd) (ft : FloatTy) (rm : Round) (m : ScaleMap) (sr : Reg) (inv : Bool) (sel : BitVec 2) (d a : Reg) :
    State → Host.Outcome State Fault Refusal :=
  laneWord (.scale h ft rm m sr inv sel d a) fun c _ l => outFloat ft d fun k =>
    let e := c.scaleByte (leaderOf (mapElems m ft) l k) sr sel.toNat
    if e = 255 then (ft.fmt.nanBits, 0)
    else ft.fmt.ofVal (.to rm)
      ((ft.fmt.value (ft.elem (c.flA l ft a) k)).scale (if inv then 127 - (e : Int) else (e : Int) - 127))

/-! ## Packed dot products (R135, R136) -/

/-- A dot product of n elements a lane: E of the block map, the values of the codes of a and b. -/
def dotWord (i : Instr) (ints : Bool) (n e : Nat) (sc : Option DotScale) (d : Reg) (va vb : Ctx → Nat → Nat → FVal) (s : State) :
    Host.Outcome State Fault Refusal :=
  laneWord i (fun c _ l =>
    let sb (r : DotScale) (sel : BitVec 2) := c.scaleByte (leaderOf e l 0) r.reg sel.toNat
    let (ea, eb) := match sc with
      | some r => (sb r r.selA, sb r r.selB)
      | none => (127, 127)
    let r := blockSum ints (.to .rne) (c.rd l d.toNat 0) ea eb ((List.range n).map fun k => (va c l k, vb c l k))
    (outW d r.1).withFlags r.2) s
/-- A packed integer as a value. -/
def intVal (isSigned : Bool) (n x : Nat) : FVal :=
  let v : Int := if isSigned then sval n x else (x % 2 ^ n : Nat)
  .fin (v < 0) v.natAbs 0
/-- Element k of width n of a register that both A and B may pop. -/
def Ctx.elemOf (c : Ctx) (l : Nat) (r : Reg) (pop n k : Nat) : Nat := c.rd l r.toNat pop / 2 ^ (n * k) % 2 ^ n
/-- DOT4. -/
def execDot4 (h : Hd) (f : DotFmt) (alt half : Bool) (sc : Option DotScale) (d a b : Reg) :
    State → Host.Outcome State Fault Refusal :=
  let v (other : Bool) (x : Nat) : FVal :=
    match f with
    | .fmt0 => (if other then fe5m2 else fe4m3).value x
    | .fmt1 => (if other then fe4m3 else fe5m2).value x
    | .fmt2 => intVal true 8 x
  dotWord (.dot4 h f alt half sc d a b) (f == .fmt2) 4 4 sc d (fun c l k => v false (c.elemOf l a 0 8 k))
    fun c l k => v alt (c.elemOf l b (if a = b then 1 else 0) 8 k)
/-- DOT6. -/
def execDot6 (h : Hd) (f : DotFmt) (alt half : Bool) (sc : Option DotScale) (d a b : Reg) :
    State → Host.Outcome State Fault Refusal :=
  let v (other : Bool) (x : Nat) : FVal :=
    if (f == .fmt0) != other then fe3m2.value x else fe2m3.value x
  let e (c : Ctx) (l : Nat) (r : Reg) (k : Nat) := getElem .e3m2 half k (c.rd l r.toNat 0, c.rd l (r.toNat + 1) 0)
  dotWord (.dot6 h f alt half sc d a b) false 8 8 sc d (fun c l k => v false (e c l a k)) fun c l k => v alt (e c l b k)
/-- DOT8. -/
def execDot8 (h : Hd) (f : DotFmt) (alt half : Bool) (sc : Option DotScale) (d a b : Reg) :
    State → Host.Outcome State Fault Refusal :=
  let v (x : Nat) : FVal :=
    match f with
    | .fmt0 => fe2m1.value x
    | .fmt1 => intVal true 4 x
    | .fmt2 => intVal false 4 x
  dotWord (.dot8 h f alt half sc d a b) (f != .fmt0) 8 8 sc d (fun c l k => v (c.elemOf l a 0 4 k))
    fun c l k => v (c.elemOf l b (if a = b then 1 else 0) 4 k)

/-! ## The generator (R137, R138) -/

/-- RNDSEED: each performing lane's generator from its seed and the identity of its gang of origin. -/
def execRndseed (h : Hd) (a : Reg) : State → Host.Outcome State Fault Refusal :=
  word (.rndseed h a) fun c perf s =>
    let seedOf (l : Nat) : DWord × DWord :=
      let (og, ol) := c.ident l
      genSeed (BitVec.ofNat 64 (c.rdPair l a.toNat)) (laneId (s.block (s.gang og).block).idx (s.gang og).num ol)
    let s := s.modGang c.gid fun g =>
      { g with lanes := (lanesIn perf).foldl (fun L l => L.setGen l (seedOf l)) g.lanes }
    .ok { s with runs := tabPut s.runs c.slot { c.run with seeded := c.run.seeded ||| perf } }
/-- The result of RND from one step (R138). -/
def rndOut (k : RndKind) (out : DWord) : Nat :=
  match k with
  | .n16 => draw16 out
  | .n32 => draw32 out
  | .n64 => out.toNat
  | .f32 => (fp32.round (.to .rne) false (out.toNat / 2 ^ 40) (-24)).1
/-- RND. -/
def execRnd (h : Hd) (k : RndKind) (d : Reg) : State → Host.Outcome State Fault Refusal :=
  drawWord (.rnd h k d) 1 fun _ ds _ => outSize (k == .n64) d (rndOut k (ds.getD 0 0))

end Sys2Proof.Machine
end

