-- ==== Sys2Proof/Machine/NearMem.lean ====
section
/-! DEFINITION. Compute in the memory stacks (R301 to R324): books, the indexed reduce, broadcast writes, promotion mode and
the bank unit. -/

namespace Sys2Proof.Machine

/-! ## Shared (R302) -/

/-- A book-capable cell of the issuing die (R302). -/
def Leaf.bookCapable (l : Leaf) (die : Nat) : Bool := l.die == die && l.place == 0 && l.win && blRow l.pa ≤ 65514
def Found.leaf : Found → Option Leaf
  | .here l => some l
  | _ => none
/-- The page of an address with the rights that an access needs, the reserved rows let through (R381). -/
def Ctx.pageAt (c : Ctx) (s : State) (k : Checks) (va : Nat) : Except Fail Leaf :=
  match s.coreLookup c.core va with
  | .ok l => l.check k.need
  | .error f => .error f
/-- The check of a lane's address for a book or a broadcast: not book-capable is order 6 here, a reserved row among them
(R302, R381). -/
def Ctx.bookFound (c : Ctx) (s : State) (k : Checks) (size va : Nat) : Found :=
  let found := match c.found s k size va with
    | .here l => if l.bookCapable c.die then .here l else .fails 6 (failOf tcChannel)
    | f => f
  match c.pageAt s k va with
  | .ok l =>
    if l.rowsOk size || va % k.align != 0 || found == .fails 0 failWait then found
    else .fails (if l.die != c.die then 5 else 6) (failOf (if l.die != c.die then tcRemote else tcChannel))
  | .error _ => found
def bookKey (cell : Nat) : Nat := blBank (cellAddr cell) * 4 + blRow (cellAddr cell) / 2 ^ 14

/-! ## Books (R308 to R310) -/

/-- BOOKLD and its unpin form (R309). -/
def bookWord (i : Instr) (unpin e16 : Bool) (a : Reg) (off : BitVec 22) : State → Host.Outcome State Fault Refusal :=
  word i fun c perf s =>
    let k := { c.remoteChecks s true false with align := 1 }
    let fs : List LaneFound := (lanesIn perf).map fun l => (l, c.addr l a off, c.bookFound s k 1 (c.addr l a off))
    let slot (l : Leaf) : Nat × Nat := (blChannel l.pa, bookKey (cellKey l.die 0 l.pa))
    let dup (p : LaneFound) : Bool := fs.any fun q => q.1 != p.1 && (q.2.2.leaf.map slot == p.2.2.leaf.map slot)
    let dups := (fs.filter dup).map fun p => (p.1, p.2.1, 7, failOf tcAddrDup)
    match pickFail true (failsOf fs ++ (if (failsOf fs).isEmpty then dups else [])) with
    | some t => .error t
    | none =>
      .ok (s.issueOp c perf (.bookPin unpin e16) .st .rlx .d none
        ((leavesOf fs).map fun p => Acc.flat p.1 p.2.1 1 0 p.2.2))
def execBookld (h : Hd) (e16 : Bool) (a : Reg) (off : BitVec 22) : State → Host.Outcome State Fault Refusal :=
  bookWord (.bookld h e16 a off) false e16 a off
def execBookldUnpin (h : Hd) (a : Reg) (off : BitVec 22) : State → Host.Outcome State Fault Refusal :=
  bookWord (.bookldUnpin h a off) true false a off

/-- A lane's book command to the channel of a cell that the channel has not served. -/
def Op.booksLane (o : Op) (cell lane : Nat) : Bool := match o.kind with
  | .bookPin _ _ => o.accs.any fun a => a.lane == lane && !a.done && sameChannel a.addr cell
  | .bookq _ r idx => o.accs.isEmpty && idx.any (fun p => p.1 == lane) && sameChannel r.cell cell
  | _ => false
/-- A channel serves a lane's book commands in issue order (R310). -/
def State.bookTurn (s : State) (id : Nat) (o : Op) (cell lane : Nat) : Bool :=
  s.ops.all fun p => id ≤ p.1 || p.2.gang != o.gang || !p.2.booksLane cell lane

/-- BOOK_PIN: one lane's pin is made, or taken away. -/
def execBookPin (op lane : Nat) (s : State) : Host.Outcome State Fault Refusal :=
  match s.liveOp op with
  | none => .next s
  | some o =>
    match o.kind, o.nextAcc lane with
    | .bookPin unpin e16, some (k, a) =>
      if s.asleep a.addr || !s.bookTurn op o a.addr lane then .next s
      else
        let ch := s.channelOf a.addr
        let row := blRow (cellAddr a.addr)
        let key := bookKey a.addr
        let pins := if !unpin then tabPut ch.pins key { row := row, e16 := e16 }
          else if (tabFind ch.pins key).map (·.row) == some row then tabDel ch.pins key else ch.pins
        let s := s.setChannel (cellDie a.addr) (blChannel (cellAddr a.addr)) { ch with pins := pins }
        .next ({ s with ops := tabMod s.ops op fun x => { x with accs := x.accs.set k a.finish } }.settleOp op)
    | _, _ => .next s

/-- BOOKQ. -/
def execBookq (h : Hd) (e16 : Bool) (a b : Reg) : State → Host.Outcome State Fault Refusal :=
  word (.bookq h e16 a b) fun c perf s =>
    match lowestLane perf with
    | none => .ok s
    | some l =>
      let va := c.rdPair l a.toNat
      let idx (l : Nat) : Nat := c.rd l b.toNat 0
      match c.bookFound s { c.remoteChecks s true false with align := 1 } 1 va with
      | .here leaf =>
        match (lanesIn perf).find? fun l => (if e16 then 1024 else 2048) ≤ idx l with
        | some l => .error (Trap.of (failOf tcBookRange) (some l) va)
        | none =>
          .ok (s.addOp c perf (.bookq e16 (Seg.ofLeaf va 1 leaf) ((lanesIn perf).map fun l => (l, idx l))) .none .rlx .d
            none [])
      | .fails _ f => .error (trapAt f perf va)
      | .away _ => .error (trapAt (failOf tcRemote) perf va)

/-- An entry of the book in a row of a bank. -/
def State.bookEntry (s : State) (cell : Nat) (e16 : Bool) (i : Nat) : Nat :=
  let row := cell / 2 ^ 11 * 2 ^ 11
  if e16 then leNat (s.homeBytes (row + 2 * i) 2) else leNat (s.homeBytes (row + i) 1)

/-- The row of a query is pinned in its slot with the query's width. -/
def State.bookHit (s : State) (e16 : Bool) (cell : Nat) : Bool :=
  tabFind (s.channelOf cell).pins (bookKey cell) == some { row := blRow (cellAddr cell), e16 := e16 }
/-- An entry is poisoned, or its stack is fenced. -/
def State.entryBad (s : State) (cell : Nat) (e16 : Bool) (i : Nat) : Bool :=
  let w := if e16 then 2 else 1
  s.poisonedAt (cell / 2 ^ 11 * 2 ^ 11 + w * i) w
/-- The word of the k-th reply: MISS, or the entry (R310). The spec gives a reply no mark for poison: ENTRY is then a free value
(DESIGN CHOICE, assumption log 66). -/
def State.bookReply (s : State) (e16 : Bool) (cell k i : Nat) : Nat :=
  if !s.bookHit e16 cell then 2 ^ 31
  else if s.entryBad cell e16 i then (Config.freeValue (s.free + k)).toNat % 2 ^ (if e16 then 16 else 8)
  else s.bookEntry cell e16 i
/-- The words of a query's replies, by lane, and the state with the free values taken. -/
def State.bookReplies (s : State) (cell : Nat) (e16 : Bool) (idx : List (Nat × Nat)) : List (Nat × Nat) × State :=
  (((List.range idx.length).zip idx).map fun p => (p.2.1, s.bookReply e16 cell p.1 p.2.2),
    if s.bookHit e16 cell && idx.any fun p => s.entryBad cell e16 p.2 then { s with free := s.free + idx.length } else s)
/-- A query of a gang, in any lane of idx, whose replies have yet to enter q1. -/
def State.olderQuery (s : State) (id gid : Nat) (idx : List (Nat × Nat)) : Bool :=
  s.ops.any fun p => p.1 < id && p.2.gang == gid && match p.2.kind with
    | .bookq _ _ more => more.any fun x => idx.any fun y => x.1 == y.1
    | _ => false
/-- The replies of a query enter q1 of its lanes, once it has been served and those of each lane's earlier queries have entered
(R310). -/
def State.enterReplies (s : State) (gid : Nat) (p : Nat × Op) : State :=
  match p.2.kind with
  | .bookq _ _ idx =>
    if p.2.gang != gid || p.2.accs.isEmpty || s.olderQuery p.1 gid idx then s
    else
      let put (g : Gang) (a : Acc) : Gang := g.enqueue 1 a.lane (BitVec.ofNat 32 a.got)
      { s.modGang gid (fun g => p.2.accs.foldl put g) with ops := tabDel s.ops p.1 }
  | _ => s
/-- The accesses of a query's lanes to its row, with what the row's read comes after in each lane, have been made (R225, R310). -/
def State.bookReady (s : State) (id : Nat) (o : Op) (r : Seg) (idx : List (Nat × Nat)) : Bool :=
  idx.all fun p => s.accReady id o
    { lane := p.1, space := .flat r.win, addr := r.cell / 2 ^ 11 * 2 ^ 11, va := r.va, size := 2048, data := 0, got := 0,
      done := false, early := false, poison := false, cache := r.cache }
/-- BOOK_QUERY: the channel serves the query, and the replies that may enter q1 do so, in issue order. A fenced stack answers with
poison (R479). -/
def execBookQuery (op : Nat) (s : State) : Host.Outcome State Fault Refusal :=
  match s.liveOp op with
  | none => .next s
  | some o =>
    match o.kind with
    | .bookq e16 r idx =>
      if !o.accs.isEmpty || s.segsWait op [r] || !(idx.all fun p => s.bookTurn op o r.cell p.1) || !s.bookReady op o r idx then .next s
      else
        let s := s.recall (r.cell / 2 ^ 11 * 2 ^ 11) 2048
        let (reply, s) := s.bookReplies r.cell e16 idx
        let parts := reply.map fun p => Acc.part p.1 0 p.2 false
        let s := { s with ops := tabMod s.ops op fun x => { x with accs := parts } }
        .next (s.ops.foldl (fun s p => s.enterReplies o.gang p) s)
    | _ => .next s

/-! ## Indexed reduce (R304 to R307) -/

/-- IRED: the check is of the completion record. -/
def execIred (h : Hd) (kt ko : BitVec 2) (acc : Bool) (bag d a : Reg) (off : BitVec 22) :
    State → Host.Outcome State Fault Refusal :=
  word (.ired h kt ko acc bag d a off) fun c perf s =>
    match lowestLane perf with
    | none => .ok s
    | some l =>
      let va := c.addr l a off
      let k : Checks :=
        { need := c.need s true true, align := 16, leaves := false, tempo := false, dups := false, strong := true }
      match c.found s k 16 va with
      | .here leaf =>
        let ents := (lanesIn perf).map fun l => (l, c.rd l d.toNat 0, c.rd l bag.toNat 0)
        .ok (s.addOp c perf (.ired kt.toNat ko.toNat acc ents (Seg.ofLeaf va 16 leaf) (s.holdsTempo (s.gang c.gid))) .none
          .rlx .d none [])
      | .fails _ f => .error (trapAt f perf va)
      | .away _ => .error (trapAt (failOf tcRemote) perf va)

/-- A row of a record: translated pieces on the first tier of the die; none where the command is invalid. -/
def State.iredRow (s : State) (o : Op) (w tempo : Bool) (r row : Nat) : Option (List Seg) :=
  let va := wrapN 64 ((recBase r : Int) + row * recStr r 1)
  match s.flatEnd o (s.gang o.gang).task w tempo va (recExt r 0 * recSize r) with
  | some segs => if segs.all fun g => cellPlace g.cell == 0 then some segs else none
  | none => none
/-- A valid command's records and indices (R306); homes are checked row by row. -/
def iredValid (t u : Nat) (ents : List (Nat × Nat × Nat)) : Bool :=
  recOk t && recOk u && recKind t == 0 && recKind u == 0 && (recEsz t == 2 || recEsz t == 1) &&
  recStr t 0 == (recSize t : Int) && recExt t 2 == 1 && recExt t 3 == 1 &&
  recEsz u == 2 && recStr u 0 == 4 && recExt u 0 == recExt t 0 && recExt u 2 == 1 && recExt u 3 == 1 &&
  recBase u % 32 == 0 && decide (recStr u 1 % 32 = 0) && recExt t 0 % 8 == 0 && 8 ≤ recExt t 0 && recExt t 0 ≤ 1024 &&
  ents.all fun e => e.2.1 < recExt t 1 && e.2.2 < recExt u 1

/-- The pooled row of one bag: element by element, lanes ascending (R306). -/
def iredPool (bf16 : Bool) (n : Nat) (start : List Byte) (rows : List (List Byte)) : List Byte :=
  let elem (bs : List Byte) (e : Nat) : FVal :=
    if bf16 then fbf16.value (leNat ((bs.drop (2 * e)).take 2)) else fp32.value (leNat ((bs.drop (4 * e)).take 4))
  (List.range n).flatMap fun e =>
    let acc0 := leNat ((start.drop (4 * e)).take 4)
    leBytes 4 (rows.foldl (fun acc bs => (fp32.add (.to .rne) (fp32.value acc) (elem bs e)).1) acc0)

/-- The k bytes of pieces from byte j on. -/
def segRange : Nat → Nat → List Seg → List Seg
  | _, _, [] => []
  | j, k, g :: gs =>
    if k = 0 then []
    else if g.n ≤ j then segRange (j - g.n) k gs
    else
      let m := Nat.min k (g.n - j)
      { g with va := g.va + j, cell := g.cell + j, n := m } :: segRange 0 (k - m) gs
/-- Pieces poisoned as the base dies find them. -/
def State.segsSpoilt (s : State) (segs : List Seg) : Bool := segs.any fun g => s.poisonedAt g.cell g.n
def State.recallSegs (s : State) (segs : List Seg) : State := segs.foldl (fun s g => s.recall g.cell g.n) s
/-- A table byte as a command reads it, or read it before the rest (R307); and whether its granule was poisoned. -/
def Op.granuleRead (o : Op) (cell : Nat) : Option Acc := o.part? 32 (granuleOf cell)
/-- The bytes of pieces of a table row. -/
def State.tableBytes (s : State) (o : Op) (segs : List Seg) : List Byte :=
  segs.flatMap fun g => (List.range g.n).map fun i => match o.granuleRead (g.cell + i) with
    | some a => BitVec.ofNat 8 (a.got / 256 ^ ((g.cell + i) % 32))
    | none => (s.readBytes .die g.win (g.cell + i) 1).headD 0
/-- Poison in a table row. -/
def State.tableSpoilt (s : State) (o : Op) (segs : List Seg) : Bool :=
  segs.any fun g => (granulesOf g.cell g.n).any fun k => match o.part? 32 k with
    | some a => a.poison
    | none => s.poisonedAt (Nat.max g.cell (32 * k)) 1
/-- A valid command's work (R306): whether the table holds BF16, whether the output row counts, the elements of a row, the bag and
table row of each lane, and the output row of each bag. -/
structure Reduce where
  bf16 : Bool
  acc : Bool
  n : Nat
  rows : List (Nat × List Seg)
  outs : List (Nat × List Seg)
  deriving DecidableEq, Repr
def Reduce.rowsOf (x : Reduce) (bag : Nat) : List (List Seg) := (x.rows.filter fun r => r.1 == bag).map (·.2)
/-- A bag takes in poison: some granule of it has landed poisoned, or a row of it is. -/
def State.bagSpoilt (s : State) (o : Op) (x : Reduce) (out : Nat × List Seg) : Bool :=
  (o.part? 34 out.1).isSome || (x.rowsOf out.1).any (s.tableSpoilt o) || (x.acc && s.segsSpoilt out.2)
/-- Granule g of a bag's output row is read or started from 0, pooled and written, with what poison it takes in. -/
def State.iredUnit (s : State) (o : Op) (x : Reduce) (out : Nat × List Seg) (g : Nat) : State :=
  let s := (out.2 :: x.rowsOf out.1).foldl State.recallSegs s
  let dst := segRange (32 * g) 32 out.2
  let part (segs : List Seg) : List Byte :=
    if x.bf16 then s.tableBytes o (segRange (16 * g) 16 segs) else s.tableBytes o (segRange (32 * g) 32 segs)
  let bytes := iredPool x.bf16 8 (if x.acc then s.segBytes .die dst else List.replicate 32 0) ((x.rowsOf out.1).map part)
  let bad := s.bagSpoilt o x out
  let put (s : State) (p : Seg) : State :=
    let s := s.askedStore p.cell (bytes.drop (p.cell - (dst.headD p).cell) |>.take p.n)
    if bad && !s.inStep p.cell then s.poison p.cell p.n else s
  dst.foldl put s
/-- A bag of a command: the granules that have not landed, and then its poison over the whole row. -/
def State.iredBag (s : State) (o : Op) (x : Reduce) (out : Nat × List Seg) : State :=
  let r := (out.2 :: x.rowsOf out.1).foldl State.recallSegs s
  let bad := r.bagSpoilt o x out
  let left := (List.range (x.n / 8)).filter fun g => (o.part? 33 (out.1 * 128 + g)).isNone
  let s := left.foldl (fun s g => s.iredUnit o x out g) r
  if bad then out.2.foldl (fun s g => if s.inStep g.cell then s else s.poison g.cell g.n) s else s

/-- The counters of a completion record: FAILS before COUNT. -/
def State.iredDone (s : State) (r : Seg) (fails : Nat) : State :=
  let bump (s : State) (cell n : Nat) : State :=
    if n = 0 then s else s.homeStore cell (leBytes 8 ((s.homeNat cell 8 + n) % 2 ^ 64))
  let s := s.recall r.cell 16
  bump (bump s (r.cell + 8) fails) r.cell 1

/-- The distinct bags of a command, in order of appearance. -/
def bagsOf (ents : List (Nat × Nat × Nat)) : List Nat :=
  ents.foldl (fun bs e => if bs.contains e.2.2 then bs else bs ++ [e.2.2]) []

/-- Some row of a valid command, as its records name them now, satisfies f, or waits for a walk. -/
def State.iredAny (s : State) (o : Op) (f : List Seg → Bool) : Bool := match o.kind with
  | .ired kt ko _ ents _ tempo =>
    match (s.gang o.gang).slot kt, (s.gang o.gang).slot ko with
    | some t, some u =>
      let row (w tempo : Bool) (r k : Nat) : Bool :=
        s.endWaits o (s.gang o.gang).task w (wrapN 64 ((recBase r : Int) + k * recStr r 1)) (recExt r 0 * recSize r) ||
          (s.iredRow o w tempo r k).any f
      iredValid t u ents && (ents.any (fun e => row false true t e.2.1) || (bagsOf ents).any fun b => row true tempo u b)
    | _, _ => false
  | _ => false
/-- A command that waits for a channel: its completion record's, or that of a row (R316). -/
def State.iredHeld (s : State) (o : Op) : Bool := match o.kind with
  | .ired _ _ _ _ rec _ => s.heldCell rec.cell || s.iredAny o s.segsHeld
  | _ => false
/-- A lane store of one word to a granule is half performed: another agent reads the granule old or new as a whole (R307, R338). -/
def State.halfStored (s : State) (cell n : Nat) : Bool :=
  let meets (a : Acc) (g : Nat) : Bool := (match a.space with
    | .flat _ => true
    | _ => false) && (granulesOf a.addr a.size).contains g
  s.ops.any fun p => !p.2.abandoned && (match p.2.kind with
    | .store _ => true
    | _ => false) && (granulesOf cell n).any fun g =>
      (p.2.accs.any fun a => a.done && meets a g) && p.2.accs.any fun a => !a.done && meets a g
def State.segsHalf (s : State) (segs : List Seg) : Bool := segs.any fun g => s.halfStored g.cell g.n

/-- What a command comes to: none where it is invalid. -/
def State.reduceOf (s : State) (o : Op) : Option Reduce := match o.kind with
  | .ired kt ko acc ents _ tempo =>
    match (s.gang o.gang).slot kt, (s.gang o.gang).slot ko with
    | some t, some u =>
      let rows := ents.map fun e => (e.2.2, s.iredRow o false true t e.2.1)
      let outs := (bagsOf ents).map fun b => (b, s.iredRow o true tempo u b)
      if !iredValid t u ents || (rows ++ outs).any fun p => p.2.isNone then none
      else
        some { bf16 := recEsz t == 1, acc := acc, n := recExt t 0, rows := rows.map fun p => (p.1, p.2.getD []),
               outs := outs.map fun p => (p.1, p.2.getD []) }
    | _, _ => none
  | _ => none
/-- Another command has written a part of a row, which meets one of these: they apply one after the other (R307). -/
def State.iredMeets (s : State) (id : Nat) (o : Op) (outs : List (Nat × List Seg)) : Bool :=
  let meets (a b : Seg) : Bool := a.cell < b.cell + b.n && b.cell < a.cell + a.n
  s.ops.any fun p => p.1 != id && !p.2.abandoned && dieOf p.2.core == dieOf o.core && p.2.accs.any (fun a => a.lane == 33) &&
    match s.reduceOf p.2 with
    | some y => y.outs.any fun q => (p.2.accs.any fun a => a.lane == 33 && a.addr / 128 == q.1) &&
        outs.any fun r => q.2.any fun a => r.2.any (meets a)
    | none => false
/-- A command may be performed, in whole or in part: its turn has come, no cell of it is held, and no row of it is half stored. -/
def State.iredReady (s : State) (id : Nat) (o : Op) : Bool := match o.kind with
  | .ired _ _ _ _ rec _ =>
    s.copiesTurn id o && s.storesDone id o && !s.segsWait id [rec] &&
      !(s.iredAny o fun segs => s.segsWait id segs || s.segsHalf segs) && match s.reduceOf o with
        | some x => !s.iredMeets id o x.outs
        | none => true
  | _ => false

/-- IRED_COMMAND: a release of die scope for what the gang has stored (R231, R241), then the rows. -/
def execIredCommand (op : Nat) (s : State) : Host.Outcome State Fault Refusal :=
  match s.liveOp op with
  | none => .next s
  | some o =>
    match o.kind with
    | .ired _ _ _ _ rec _ =>
      if !s.iredReady op o then .next s
      else
        let s := s.releaseArrival o.core
        let finish (s : State) (fails : Nat) : State := { s.iredDone rec fails with ops := tabDel s.ops op }
        match s.reduceOf o with
        | none => .next (finish s 1)
        | some x =>
          let r := (x.rows ++ x.outs).foldl (fun s p => s.recallSegs p.2) s
          let poisoned := (o.part? 35 0).isSome || x.rows.any fun p => r.tableSpoilt o p.2
          .next (finish (x.outs.foldl (fun s p => s.iredBag o x p) r) (if poisoned then 1 else 0))
    | _ => .next s
/-- The granules of a command's table rows, each by its window and number. -/
def Reduce.granules (x : Reduce) : List (Bool × Nat) :=
  x.rows.flatMap fun r => r.2.flatMap fun g => (granulesOf g.cell g.n).map fun k => (g.win, k)
/-- The granules of its output rows, each by its bag. -/
def Reduce.units (x : Reduce) : List (Nat × Nat) :=
  x.outs.flatMap fun p => (List.range (x.n / 8)).map fun g => (p.1, g)
/-- Part n of a command is done before the rest (R307): granule n / 2 of its tables is read, or granule n / 2 of its output rows
lands. -/
def State.reducePart (s : State) (id n : Nat) : State :=
  match s.liveOp id with
  | none => s
  | some o =>
    match (if s.iredReady id o then (s.releaseArrival o.core).reduceOf o else none) with
    | none => s
    | some x =>
      let s := s.releaseArrival o.core
      if n % 2 = 0 then
        match x.granules[n / 2]? with
        | none => s
        | some (win, k) =>
          if (o.part? 32 k).isSome then s
          else
            let s := s.recall (32 * k) 32
            s.addPart id (Acc.part 32 k (leNat (s.readBytes .die win (32 * k) 32)) (s.poisonedAt (32 * k) 32))
      else
        match x.units[n / 2]? with
        | none => s
        | some (bag, g) =>
          match x.outs.find? fun p => p.1 == bag with
          | none => s
          | some out =>
            -- rows of two bags that meet land one after the other
            let others := x.outs.takeWhile fun p => p.1 != bag
            let meets (p : Nat × List Seg) : Bool := p.2.any fun a => out.2.any fun b => a.cell < b.cell + b.n && b.cell < a.cell + a.n
            let whole (p : Nat × List Seg) : Bool := (List.range (x.n / 8)).all fun g => (o.part? 33 (p.1 * 128 + g)).isSome
            if (o.part? 33 (bag * 128 + g)).isSome || others.any fun p => meets p && !whole p then s
            else
              let r := (out.2 :: x.rowsOf bag).foldl State.recallSegs s
              let bad := r.bagSpoilt o x out
              let met := (x.rowsOf bag).any (r.tableSpoilt o)
              let t := (r.iredUnit o x out g).addPart id (Acc.part 33 (bag * 128 + g) 0 false)
              let t := if bad then t.addPart id (Acc.part 34 bag 0 true) else t
              if met then t.addPart id (Acc.part 35 0 0 true) else t

/-- Part n of an operation is done before the others (R227, R239, R270): a copy's element of lane n, or the unit of byte n % 32 of
lane (n − 32) / 32; a transfer's element or its next granule; a granule of an image or of an A row read; the next granule of stored
rows; a granule that a reduction reads or writes. -/
def State.doElement (s : State) (id n : Nat) : State :=
  match tabFind s.ops id with
  | none => s
  | some o =>
    match o.kind with
    | .cpy _ _ => if n < 32 then s.copyEarly id n else s.copyByte id (n / 32 - 1) (n % 32)
    | .cpyt _ _ _ _ _ _ _ _ => s.transferOne id n
    | .tloadb _ _ _ _ _ => s.loadGranule id o n
    | .tmma _ _ _ _ _ _ _ _ => s.rereadGranule id o n
    | .tstore _ _ _ _ => s.storeGranule id
    | .ired _ _ _ _ _ _ => s.reducePart id n
    | _ => s

/-! ## Broadcast writes (R311) -/

/-- The address of bank k for a cell of bank b. -/
def bcwAddr (va b k : Nat) : Nat := wrapN 64 ((va : Int) + ((k : Int) - b) * 2 ^ 27)
/-- What the checks find for a lane's sixteen addresses: its own first, then the others. -/
def Ctx.bcwFound (c : Ctx) (s : State) (k : Checks) (size l va : Nat) : List LaneFound :=
  let own := c.bookFound s k size va
  match own, c.pageAt s k va with
  | .fails 1 _, _ => [(l, va, own)]
  | _, .error _ => [(l, va, own)]
  | _, .ok leaf =>
    let b := blBank leaf.pa
    let other (n : Nat) : LaneFound :=
      let x := bcwAddr va b n
      match c.bookFound s k size x with
      | .here l2 =>
        if l2.pa = blAddr (blChannel leaf.pa) n (blRow leaf.pa) (blCol leaf.pa) then (l, x, .here l2)
        else (l, x, .fails 6 (failOf tcChannel))
      | f => (l, x, f)
    (l, va, own) :: ((List.range 16).filter (· != b)).map other
/-- BCW. -/
def execBcw (h : Hd) (sz : CSize) (d a : Reg) (off : BitVec 22) : State → Host.Outcome State Fault Refusal :=
  word (.bcw h sz d a off) fun c perf s =>
    let n := CSize.bytes sz
    let k : Checks :=
      { need := c.need s false true, align := n, leaves := false, tempo := false, dups := false, strong := true }
    let fs := (lanesIn perf).flatMap fun l => c.bcwFound s k n l (c.addr l a off)
    match pickFail true (failsOf fs) with
    | some t => .error t
    | none =>
      .ok (s.issueOp c perf .bcw .st .rlx .d none
        ((leavesOf fs).map fun p => Acc.flat p.1 p.2.1 n (c.storeData p.1 n d) p.2.2))

/-! ## Channel control (R312, R313) -/

/-- A channel's mode once every confirmed change has happened. -/
def Channel.modeToBe (c : Channel) : Bool := ((c.requests.getLast?).map (·.1)).getD c.promotion
/-- A write that aborts the sequence. -/
def Die.abort (d : Die) : Die := { d with chSeq := 0, chErr := true }
def Die.writeChkey (d : Die) (v : Nat) : Die :=
  let d := { d with chCh := v % 64, chErr := false }
  if d.chSeq = 0 && nbits v 31 16 == 0xC4A7 && nbits v 15 6 == 0 then { d with chSeq := 1 } else d.abort
def Die.writeChmode (d : Die) (v : Nat) : Die :=
  if d.chSeq = 1 && nbits v 13 8 == d.chCh && v % 4 < 2 && nbits v 31 16 ≤ 65514 && nbits v 15 14 == 0 &&
      nbits v 7 2 == 0 then
    { d with chSeq := 2, chMode := v % 4 == 1, chRow := nbits v 31 16 }
  else d.abort
def Die.writeChconf (d : Die) (v : Nat) : Die :=
  let ch := tabGet d.channels Channel.reset d.chCh
  if d.chSeq = 2 && nbits v 31 16 == 0x3B5C && v % 64 == d.chCh && nbits v 15 6 == 0 then
    (if d.chMode && (ch.modeToBe || d.stackFenced.contains (d.chCh / 32)) then d.abort
      else
        let ch := { ch with requests := ch.requests ++ [(d.chMode, d.chRow)] }
        { d with chSeq := 0, channels := tabPut d.channels d.chCh ch })
  else d.abort
/-- MOVSW of a channel-control register: the value of the leading lane. -/
def chWord (i : Instr) (src : Reg) (f : Die → Nat → Die) : State → Host.Outcome State Fault Refusal :=
  word i fun c perf s =>
    match lowestLane perf with
    | none => .ok s
    | some l => .ok (s.setDie c.die (f (s.die c.die) (c.rd l src.toNat 0)))
def execMovswChkey (h : Hd) (r : Reg) : State → Host.Outcome State Fault Refusal := chWord (.movswChkey h r) r Die.writeChkey
def execMovswChmode (h : Hd) (r : Reg) : State → Host.Outcome State Fault Refusal :=
  chWord (.movswChmode h r) r Die.writeChmode
def execMovswChconf (h : Hd) (r : Reg) : State → Host.Outcome State Fault Refusal :=
  chWord (.movswChconf h r) r Die.writeChconf

/-! ## Modes and power of a channel (R314, R315, R324, R480) -/

def State.channel (s : State) (die ch : Nat) : Channel := tabGet (s.die die).channels Channel.reset ch
/-- The cell is one of a channel of a die. -/
def inChannel (die ch cell : Nat) : Bool := cellDie cell == die && cellPlace cell == 0 && blChannel (cellAddr cell) == ch
/-- Every store on its way to a channel reaches its cells, and no cache keeps a copy of them: a sector lies in one channel. -/
def State.recallChannel (s : State) (die ch : Nat) : State :=
  let s := (s.toDie fun p => inChannel die ch p.cell).toCells fun p => inChannel die ch p.cell
  (s.dropL1 (fun c => dieOf c == die) fun c => inChannel die ch (c.num * 128)).dropL2 die fun c => inChannel die ch (c.num * 128)

/-- PROMOTION_ENTRY. -/
def execPromotionEntry (die ch : Nat) (s : State) : Host.Outcome State Fault Refusal :=
  match (s.channel die ch).requests with
  | (true, row) :: rest =>
    let s := s.recallChannel die ch
    let c : Channel :=
      { s.channel die ch with promotion := true, drop := false, progrow := row, latch := [],
                              units := [], power := .awake, requests := rest }
    .next (s.setChannel die ch c)
  | _ => .next s
/-- One cell of each line that pieces of memory reach. -/
def lineCells (segs : List Seg) : List Nat :=
  segs.flatMap fun g => (List.range ((g.cell % 512 + g.n + 511) / 512)).map fun i => Nat.max g.cell (g.cell / 512 * 512 + 512 * i)
/-- The flat pieces that an engine's command has yet to reach, where its turn has come: those that arrive at its channels. -/
def State.commandSegs (s : State) (id : Nat) (o : Op) : List Seg :=
  let flat (r : Ref) : List Seg := r.segs
  match o.kind with
  | .tloadb _ _ _ _ segs => if o.began || (s.tileReady id o && s.storesDone id o) then segs else []
  | .tstore _ _ _ rows => if (s.accOp id).isSome then o.unstored.flatMap (unitSegs rows) else []
  | .cpy _ elems => if s.storesDone id o then elems.flatMap fun e => flat e.2.1 ++ flat e.2.2 else []
  | .lrec _ segs => if s.recordsTurn id o && s.storesDone id o then segs else []
  | .bookq _ r idx => if o.accs.isEmpty && (idx.all fun p => s.bookTurn id o r.cell p.1) && s.bookReady id o r idx then [r] else []
  | .ired _ _ _ _ rec _ =>
    if s.copiesTurn id o && s.storesDone id o then
      rec :: match s.reduceOf o with
        | some x => (x.rows ++ x.outs).flatMap (·.2)
        | none => []
    else []
  | .cpyt _ _ _ _ _ _ _ _ =>
    match (if s.cpytReady id o then s.transfer o else none) with
    | some x => (List.range x.count).flatMap fun i =>
        ((s.elemEnd o x.task true x.tempo (x.dst i) x.size).map flat).getD [] ++ match s.transferSrc o x i with
          | some (some a) => ((s.elemEnd o x.task false false a x.size).map flat).getD []
          | _ => []
    | none => []
  | _ => []
/-- An access of a lane has come to its channel, where it may be held. -/
def State.accCame (s : State) (p : Nat × Op) (a : Acc) : Bool :=
  !a.done && a.size != 0 && !p.2.abandoned && p.2.kind.waitsHeld && (match a.space with
    | .flat _ => true
    | _ => false) && s.accReady p.1 p.2 a
/-- What of an operation arrives at the channels that hold it: one lane's access, or an engine's command for lane 32. -/
def State.arriveOp (s : State) (id lane : Nat) : State :=
  match s.liveOp id with
  | none => s
  | some o =>
    if lane = 32 then (lineCells (s.commandSegs id o)).foldl (fun s c => s.arriveAt (.engine id) c) s
    else match o.nextAcc lane with
      | some (_, a) => if s.accCame (id, o) a then s.arriveAt (.access id lane) a.addr else s
      | none => s
/-- What a channel holds and has not been seen to arrive there has arrived, in issue order. -/
def State.gatherHeld (s : State) (die ch : Nat) : State :=
  let mine (p : Nat × Op) : List Waiter :=
    ((p.2.accs.filter fun a => s.accCame p a && inChannel die ch a.addr && s.heldCell a.addr).map fun a => Waiter.access p.1 a.lane) ++
      (if !p.2.abandoned && (lineCells (s.commandSegs p.1 p.2)).any fun c => inChannel die ch c && s.heldCell c then [.engine p.1] else [])
  let c := s.channel die ch
  let old := c.queue.filter fun w => w.op = 0 || (tabFind s.ops w.op).isSome
  let more := (s.ops.flatMap mine).foldl (fun q w => if q.contains w then q else q ++ [w]) old
  s.setChannel die ch { c with queue := more }
/-- PROMOTION_EXIT: the units' state is kept; what the channel has held is performed in the order in which it arrived, and what is
issued from now on comes after it (R315). -/
def execPromotionExit (die ch : Nat) (s : State) : Host.Outcome State Fault Refusal :=
  match (s.channel die ch).requests with
  | (false, _) :: rest =>
    let s := s.gatherHeld die ch
    .next (s.setChannel die ch { s.channel die ch with promotion := false, requests := rest })
  | _ => .next s

/-- The spill rows take the units' state, whose layout is the device's: bytes that the spec leaves open
(assumption log 1). -/
def State.spillUnits (s : State) (die ch : Nat) : State :=
  let bank (s : State) (b : Nat) : State :=
    (List.range 4096).foldl (fun s i =>
      let cell := cellKey die 0 (blAddr ch b 65534 0) + i
      { s.memPut cell [(Config.freeValue s.free).setWidth 8] with free := s.free + 1 }) s
  (List.range 16).foldl bank s
/-- SELF_REFRESH_ENTRY: in promotion mode the units' state goes to the spill rows first. -/
def execSelfRefreshEntry (die ch : Nat) (s : State) : Host.Outcome State Fault Refusal :=
  if (s.channel die ch).power == .awake then
    let s := s.recallChannel die ch
    let s := if (s.channel die ch).promotion then s.spillUnits die ch else s
    .next (s.setChannel die ch { s.channel die ch with power := .selfRefresh })
  else .next s
/-- SELF_REFRESH_EXIT: the units' state is as it was. -/
def execSelfRefreshExit (die ch : Nat) (s : State) : Host.Outcome State Fault Refusal :=
  if (s.channel die ch).power == .selfRefresh then
    .next (s.setChannel die ch { s.channel die ch with power := .awake })
  else .next s
/-- POWER_DOWN_REQUEST: refused in promotion mode. -/
def execPowerDownRequest (die ch : Nat) (s : State) : Host.Outcome State Fault Refusal :=
  let c := s.channel die ch
  if c.promotion || c.power != .awake then .next s
  else .next (s.setChannel die ch { c with power := .powerDown })
/-- POWER_DOWN_EXIT. -/
def execPowerDownExit (die ch : Nat) (s : State) : Host.Outcome State Fault Refusal :=
  let c := s.channel die ch
  if c.power == .powerDown then .next (s.setChannel die ch { c with power := .awake }) else .next s

/-! ## The bank unit (R318 to R323) -/

/-- A register field a word may read, or write. -/
def buSource (f : Nat) : Bool := f ≤ 8 || (16 ≤ f && f ≤ 79) || f == 96
def buDest (f : Nat) : Bool := buSource f && f != 96

/-- What one bank unit works with: the die, channel and bank it stands in, and the latch. -/
structure BuCtx where
  die : Nat
  ch : Nat
  bank : Nat
  latch : Tab Byte
  deriving DecidableEq, Repr

/-- Register field f of lane l, the column word included. -/
def BuCtx.reg (c : BuCtx) (u : BankUnit) (l f : Nat) : Nat :=
  if f = 96 then leNat ((List.range 4).map fun i => tabGet c.latch 0 (4 * l + i)) else (tabGet u.regs 0 (f * 8 + l)).toNat
def BuCtx.cell (c : BuCtx) (row col : Nat) : Nat := cellKey c.die 0 (blAddr c.ch c.bank row col)
/-- The lanes whose mask bit is 1. -/
def BankUnit.lanes (u : BankUnit) : List Nat := (List.range 8).filter fun l => u.mask.getLsbD l
/-- A result goes to its destination and to the latch L (R319). -/
def BankUnit.write (u : BankUnit) (d : Nat) (f : Nat → Nat) : BankUnit :=
  { u with regs := u.lanes.foldl (fun t l =>
      let v := BitVec.ofNat 32 (f l)
      tabPut (if d = 0 then t else tabPut t (d * 8 + l) v) l v) u.regs }

/-- An arithmetic major in its default form: none where the major has no such form (R320). -/
def buArith (op b : Nat) (x y old : Nat) : Option Nat :=
  let i := IntTy.i32.val
  match op with
  | 0x0C => some (IntTy.i32.enc (i x + i y))
  | 0x0D => some (IntTy.i32.enc (i x - i y))
  | 0x10 => some (IntTy.i32.enc (i x * i y))
  | 0x12 => some (IntTy.i32.enc (i x * i y + i old))
  | 0x15 => some (if i y < i x then y else x)
  | 0x16 => some (if i x < i y then y else x)
  | 0x17 => some (Nat.land x y)
  | 0x18 => some (Nat.lor x y)
  | 0x19 => some (Nat.xor x y)
  | 0x1A => some (Nat.land x (2 ^ 32 - 1 - y))
  | 0x1B => some (Nat.lor x (2 ^ 32 - 1 - y))
  | 0x1C => some (if y < 32 then x * 2 ^ y % 2 ^ 32 else 0)
  | 0x1D => some (if y < 32 then x / 2 ^ y else 0)
  | 0x1E => some (wrapN 32 (sval 32 x / (2 ^ (if y < 32 then y else 32) : Nat)))
  | 0x20 => some (bfxOf .i32 x y)
  | 0x22 => if b = 0 then some x else if b = 1 then some (IntTy.i32.enc (-(i x)))
      else if b = 2 then some (IntTy.i32.enc (if i x < 0 then -(i x) else i x)) else none
  | 0x2C => some (fp32.add (.to .rne) (fp32.value x) (fp32.value y)).1
  | 0x2D => some (fp32.add (.to .rne) (fp32.value x) (fp32.value y).negate).1
  | 0x2E => some (fp32.mulR (.to .rne) (fp32.value x) (fp32.value y)).1
  | 0x2F => some (fp32.fmaR (.to .rne) (fp32.value x) (fp32.value y) (fp32.value old)).1
  | 0x31 => some (fp32.minMax false x y).1
  | 0x32 => some (fp32.minMax true x y).1
  | 0x36 => if b = 13 then some (cvtBits .i32 .f32 (.to .rne) false false x).1 else none
  | _ => none

/-- The one-operand majors: their B field is no register. -/
def buUnary (op : Nat) : Bool := op == 0x22 || op == 0x36

/-- What executing a word comes to: the unit and the stores it makes (cell, value), or the cause of its end. -/
abbrev BuResult := Except Nat (BankUnit × List (Nat × Nat))

/-- LD and ST in the unit's own bank (R320). -/
def BuCtx.memory (c : BuCtx) (s : State) (u : BankUnit) (d a b : Nat) : BuResult :=
  if b != 0x40 && b != 0x50 then .error 1
  else if !buSource a || (if b = 0x50 then !buSource d else !buDest d) then .error 2
  else
    let addr (l : Nat) : Nat := c.reg u l a
    let cell (l : Nat) : Nat := c.cell (addr l / 2 ^ 11 % 2 ^ 16) (addr l % 2 ^ 11)
    if u.lanes.any fun l => addr l % 4 != 0 || 65515 ≤ addr l / 2 ^ 11 % 2 ^ 16 then .error 4
    else if b = 0x50 then .ok (u, u.lanes.map fun l => (cell l, c.reg u l d))
    else .ok (u.write d fun l => leNat (s.homeBytes (cell l) 4), [])

/-- BOOKQ8 (R322). -/
def BuCtx.bookq8 (c : BuCtx) (s : State) (u : BankUnit) (pins : Tab Pin) (d a b : Nat) : BuResult :=
  if !buSource a || !buSource b || !buDest d then .error 2
  else
    let pin (l : Nat) : Option Pin := tabFind pins (c.bank * 4 + c.reg u l b / 2 ^ 11 % 4)
    let idx (l i : Nat) : Nat := c.reg u l b % 2 ^ 11 + c.reg u l a / 16 ^ i % 16
    let bad (l : Nat) : Bool := match pin l with
      | none => true
      | some p => (List.range 8).any fun i => (if p.e16 then 1024 else 2048) ≤ idx l i
    if u.lanes.any bad then .error 5
    else
      let sum (l : Nat) : Int := match pin l with
        | none => 0
        | some p => (List.range 8).foldl (fun x i =>
            x + sval (if p.e16 then 16 else 8) (s.bookEntry (c.cell p.row 0) p.e16 (idx l i))) 0
      .ok (u.write d fun l => wrapN 32 ((c.reg u l d : Int) + sum l), [])

/-- The mask words and STEPEND (R321). -/
def BuCtx.masks (c : BuCtx) (u : BankUnit) (d a b : Nat) : BuResult :=
  if d != 0 || 4 ≤ b || (b != 0 && a != 0) then .error 1
  else
    match b, u.stack with
    | 0, st =>
      if !buSource a then .error 2
      else if 4 ≤ st.length then .error 3
      else
        let live := (List.range 8).foldl (fun (m : BitVec 8) l =>
          if c.reg u l a = 0 then m else m ||| BitVec.ofNat 8 (2 ^ l)) 0
        .ok ({ u with stack := u.mask :: st, mask := u.mask &&& live }, [])
    | 1, top :: _ => .ok ({ u with mask := top &&& ~~~u.mask }, [])
    | 2, top :: st => .ok ({ u with mask := top, stack := st }, [])
    | 3, _ => .ok (u, [])
    | _, _ => .error 3

/-- Execute one word (R320). -/
def BuCtx.exec (c : BuCtx) (s : State) (u : BankUnit) (pins : Tab Pin) (w : Nat) : BuResult :=
  let op := nbits w 30 24
  let d := nbits w 20 14
  let a := nbits w 13 7
  let b := nbits w 6 0
  if nbit w 31 || nbits w 23 21 != 7 then .error 1
  else if op = 0x25 then
    (if buDest d then .ok (u.write d fun _ => wrapN 32 (sval 14 w), []) else .error 2)
  else if op = 0x2B then c.memory s u d a b
  else if op = 0x62 then c.bookq8 s u pins d a b
  else if op = 0x63 then c.masks u d a b
  else if (buArith op b 0 0 0).isNone then .error 1
  else if !buSource a || (!buUnary op && !buSource b) || !buDest d then .error 2
  else .ok (u.write d fun l => (buArith op b (c.reg u l a) (c.reg u l b) (c.reg u l d)).getD 0, [])

/-- One bank unit at a column access (R319, R323). -/
def State.bankStep (s : State) (die ch b : Nat) : State :=
  let k := s.channel die ch
  let u := tabGet k.units BankUnit.reset b
  if u.killed then s
  else
    let c : BuCtx := { die := die, ch := ch, bank := b, latch := k.latch }
    let w := leNat (s.homeBytes (c.cell k.progrow (4 * u.pc)) 4)
    let put (s : State) (u : BankUnit) : State :=
      let k := s.channel die ch
      s.setChannel die ch { k with units := tabPut k.units b u }
    match c.exec s u k.pins w with
    | .error cause => put s { u with killed := true, cause := cause }
    | .ok (u', stores) =>
      let s := stores.foldl (fun s p => s.storeAsked p.1 (leBytes 4 p.2)) s
      if nbits w 30 24 == 0x63 && nbits w 6 0 == 3 then put s { u' with pc := 0 }
      else if u.pc = 511 then put s { u' with killed := true, cause := 6 }
      else put s { u' with pc := u.pc + 1 }

/-- COLUMN_ACCESS: one lane of an ordered store to the step window, lanes ascending (R317). -/
def execColumnAccess (op lane : Nat) (s : State) : Host.Outcome State Fault Refusal :=
  match s.liveOp op with
  | none => .next s
  | some o =>
    match o.kind, o.nextAcc lane with
    | .store true, some (i, a) =>
      let first := o.accs.all fun x => x.done || x.size == 0 || lane ≤ x.lane
      if !s.stepStore o a || s.asleep a.addr || !first || !s.accReady op o a then .next s
      else
        let die := cellDie a.addr
        let ch := blChannel (cellAddr a.addr)
        let s := s.orderBefore o
        let k := s.channel die ch
        let latch := ((List.range a.size).zip (leBytes a.size a.data)).foldl
          (fun t p => tabPut t ((a.addr + p.1) % 32) p.2) k.latch
        let s := s.setChannel die ch { k with latch := latch }
        let s := (List.range 16).foldl (fun s b => s.bankStep die ch b) s
        .next ({ s with ops := tabMod s.ops op fun x => { x with accs := x.accs.set i a.finish } }.settleOp op)
    | _, _ => .next s

end Sys2Proof.Machine
end

