-- ==== Sys2Proof/Machine/Sched.lean ====
section
/-! DEFINITION. The distributor (R182 to R188, R141, R12): what is free on a core, where a block goes, the launch of its
gangs, the choice of victims, and BLOCK_PLACEMENT. -/

namespace Sys2Proof.Machine

/-! ## What a core has free (R183, R202) -/

def BlockStatus.occupies : BlockStatus → Bool
  | .resident | .halting | .halted => true
  | _ => false
/-- The blocks that hold positions on a core. -/
def State.occupants (s : State) (core : Nat) : List (Nat × Block) :=
  s.blocks.filter fun p => p.2.core == core && p.2.status.occupies
/-- The positions of a block: register units, gang places, scratchpad, lane-private space. -/
structure Room where
  units : List Nat
  places : List Nat
  scratch : Nat
  priv : Nat
  deriving DecidableEq, Repr

def State.blockUnits (s : State) (b : Block) : List Nat := b.gangs.flatMap fun g => (s.gang g).units
def State.blockPlaces (s : State) (b : Block) : List Nat := b.gangs.map fun g => (s.gang g).place
/-- The ranges of scratchpad and of lane-private space that blocks hold. -/
def State.scratchRanges (s : State) (bs : List (Nat × Block)) : List (Nat × Nat) :=
  bs.map fun p => (p.2.scratchPos, (s.task p.2.task).tcb.scratch)
def State.privRanges (s : State) (bs : List (Nat × Block)) : List (Nat × Nat) :=
  bs.map fun p => let t := (s.task p.2.task).tcb; (p.2.privPos, t.blkdim * t.priv)

/-- The n lowest free numbers below a limit, if there are so many. -/
def freeNumbers (limit n : Nat) (used : List Nat) : Option (List Nat) :=
  let f := ((List.range limit).filter fun u => !used.contains u).take n
  if f.length = n then some f else none
/-- A range of n from p meets none of the ranges used. -/
def rangeFree (limit p n : Nat) (used : List (Nat × Nat)) : Bool :=
  p + n ≤ limit && used.all fun r => p + n ≤ r.1 || r.1 + r.2 ≤ p
/-- The lowest start of a free range of n. -/
def freeRange (limit n : Nat) (used : List (Nat × Nat)) : Option Nat :=
  ((0 :: used.map fun r => r.1 + r.2).filter fun p => rangeFree limit p n used).foldl
    (fun b p => match b with
      | some q => some (Nat.min p q)
      | none => some p) none

/-- The positions a block of a task gets beside the blocks `occ`: the lowest that are free (assumption log 14). -/
def State.roomBeside (s : State) (occ : List (Nat × Block)) (t : Tcb) : Option Room :=
  let units := freeNumbers 512 (t.blkdim * t.regs / 8) (occ.flatMap fun p => s.blockUnits p.2)
  let places := freeNumbers 32 t.blkdim (occ.flatMap fun p => s.blockPlaces p.2)
  let scratch := freeRange 524288 t.scratch (s.scratchRanges occ)
  let priv := freeRange 32768 (t.blkdim * t.priv) (s.privRanges occ)
  match units, places, scratch, priv with
  | some u, some p, some x, some y => some { units := u, places := p, scratch := x, priv := y }
  | _, _, _, _ => none
def State.room (s : State) (core : Nat) (t : Tcb) : Option Room := s.roomBeside (s.occupants core) t
def State.freeUnits (s : State) (core : Nat) : Nat :=
  512 - ((s.occupants core).flatMap fun p => s.blockUnits p.2).length

/-! ## Who is served (R182, R188) -/

/-- The oldest task of the highest non-empty priority of a stream. -/
def Die.served (d : Die) (rook : Bool) : Option Nat :=
  ((d.ready.filter fun r => r.2.1 == rook).foldl
    (fun (b : Option (Nat × Bool × Nat)) r => match b with
      | some q => if q.1 < r.1 then some r else some q
      | none => some r) none).map fun r => r.2.2
/-- The block a task places next: a lost one first (R400), else the next of the grid. -/
def Task.nextBlock (t : Task) : Option Nat :=
  match t.reissue with
  | i :: _ => some i
  | [] => if t.placed < t.tcb.grid then some t.placed else none
/-- The task's saved blocks. -/
def State.savedBlocks (s : State) (task : Nat) : List (Nat × Block) :=
  s.blocks.filter fun p => p.2.task == task && p.2.status == .saved
/-- The stream of a task serves it. -/
def State.isServed (s : State) (task : Nat) : Bool :=
  let t := s.task task
  (s.die t.home).served t.tcb.rook == some task
/-- A task all of whose blocks are placed leaves its queue, with ST = RUNNING. -/
def State.leaveQueue (s : State) (task : Nat) : State :=
  let t := s.task task
  if t.nextBlock.isNone && (s.savedBlocks task).isEmpty then
    let d := s.die t.home
    let s := (s.setTask task { t with status := .running }).setDie t.home
      { d with ready := d.ready.filter fun r => r.2.2 != task }
    s.setTcbState t.cell 2
  else s
/-- A task enters the head of its priority queue (R188). -/
def State.requeue (s : State) (task : Nat) : State :=
  let t := s.task task
  let d := s.die t.home
  if d.fenced then s
  else s.setDie t.home { d with ready := (t.tcb.prio, t.tcb.rook, task) :: d.ready.filter fun r => r.2.2 != task }

/-! ## Where a block goes (R184) -/

/-- The dies of the home's package, from the home on. -/
def Task.dies (t : Task) : List Nat := (List.range 8).map fun k => pkgOf t.home * 8 + (t.home % 8 + k) % 8
/-- The dies that the members of the block's groups stand on. -/
def State.groupDies (s : State) (task : Nat) (t : Task) (idx : Nat) : List Nat :=
  let mates := (t.groups.map fun g => blocksOf t.tcb.blkdim g.2).filter fun bs => bs.contains idx
  (s.blocks.filter fun p => p.2.task == task && (p.2.status.occupies || p.2.status == .saved) &&
    mates.any fun bs => bs.contains p.2.idx).foldl (fun ds p => insNat ds (dieOf p.2.core)) []
/-- The die that a task with a tempo stands on, once a block of it has been placed: the whole task goes there. -/
def State.tempoDie (s : State) (task : Nat) : Option Nat :=
  (s.blocks.find? fun p => p.2.task == task && p.2.status != .lost && !(s.die (dieOf p.2.core)).fenced).map fun p => dieOf p.2.core
/-- The dies that block idx may go to, in the order in which they are tried. A block whose mates stand on more than one die waits
until one die is left, so that no group is ever resident on two (R148; DESIGN CHOICE, assumption log 68). -/
def State.diesFor (s : State) (task : Nat) (t : Task) (idx : Nat) : List Nat :=
  match s.groupDies task t idx with
  | [d] => [d]
  | _ :: _ :: _ => []
  | [] =>
    if t.tcb.hasTempo then
      match s.tempoDie task with
      | some d => [d]
      | none =>
        if (s.allowedOn t.tcb t.home).isEmpty then
          (((List.range 8).map fun k => pkgOf t.home * 8 + k).filter fun d => !(s.allowedOn t.tcb d).isEmpty).take 1
        else [t.home]
    else t.dies
/-- The core of a die with room that has the most free units; the lowest of equals. -/
def State.coreOn (s : State) (t : Tcb) (die : Nat) : Option Nat :=
  ((s.allowedOn t die).filter fun c => (s.room c t).isSome).foldl
    (fun b c => match b with
      | some k => if s.freeUnits k < s.freeUnits c then some c else some k
      | none => some c) none
def State.coreFor (s : State) (task : Nat) (t : Task) (idx : Nat) : Option Nat :=
  (s.diesFor task t idx).findSome? fun d => s.coreOn t.tcb d

/-! ## What the distributors report (R399, R401) -/

/-- The lowest die that a survivor does not know fenced: the master (R399). -/
def Die.master (d : Die) : Nat := ((List.range 8).find? fun k => !d.fencedMask.getLsbD k).getD 0
/-- A list of block numbers with a report's block put in, or taken out. -/
def reported (bs : List Nat) (block : Nat) (placed : Bool) : List Nat := if placed then insNat bs block else delNat bs block
/-- A report reaches the die that its sender takes for the master. -/
def State.noteReport (s : State) (die block : Nat) (placed : Bool) : State :=
  s.setDie die { s.die die with heldBlocks := reported (s.die die).heldBlocks block placed }
/-- A report leaves a distributor for the master that its die knows, on VC 2. -/
def State.sendReport (s : State) (home block : Nat) (placed : Bool) : State :=
  let m := pkgOf home * 8 + (s.die home).master
  if m = home then s.noteReport home block placed
  else
    s.send { Packet.blank with sdie := home, eng := engDistributor, dst := m, vc := 2, kind := kReport,
                               body := .report block placed } none none 0 none
/-- A distributor has placed a block, or one has retired: it keeps note, and reports it. -/
def State.report (s : State) (home block : Nat) (placed : Bool) : State :=
  (s.setDie home { s.die home with reports := reported (s.die home).reports block placed }).sendReport home block placed

/-! ## The launch of a block (R141, R12, R203) -/

/-- The lanes of a launch: generators seeded, everything else 0 (R12, R79). -/
def launchLanes (seed : DWord) (block gang : Nat) : Lanes :=
  let g := (List.range 32).map fun l => (l, genSeed seed (laneId block gang l))
  { Lanes.empty with g0 := g.map fun p => (p.1, p.2.1), g1 := g.map fun p => (p.1, p.2.2) }
/-- The fragments of a launched gang: its live slices, at the entry. -/
def launchFrags (ganglanes pc : Nat) : List Frag :=
  ((List.range 8).filter fun p => 4 * p < ganglanes).map fun p =>
    { slice := p, act := sliceLanes p &&& firstLanes ganglanes, stack := [], pc := pc, next := none, cohort := 0 }
/-- Gang g of block idx, as it is launched. -/
def State.launchGang (s : State) (task : Nat) (t : Task) (bid core idx g : Nat) (r : Room) : Gang :=
  let per := t.tcb.regs / 8
  let n := idx * t.tcb.blkdim + g
  { Gang.blank with
    task := task, block := bid, num := g, core := core, place := r.places.getD g 0, status := .resident,
    lanes := launchLanes (BitVec.ofNat 64 t.tcb.seed) idx g, allot := t.tcb.regs,
    units := (r.units.drop (g * per)).take per, frags := launchFrags t.tcb.ganglanes (t.tcb.entry / 4),
    cohorts := [{ id := 0, gathered := false, regang := false, barWait := [], fenceAt := none, resume := none, stamp := s.time }], nextCohort := 1,
    groups := (t.groups.filter fun e => e.2.contains n).map (·.1) }
/-- Place block idx of a task on a core. The tempo goes to gang 0 of block 0 (R197). -/
def State.placeBlock (s : State) (task core idx : Nat) (r : Room) : State :=
  let t := s.task task
  let bid := s.nextId
  let gids := (List.range t.tcb.blkdim).map (bid + 1 + ·)
  let b : Block :=
    { Block.blank with task := task, idx := idx, core := core, status := .resident, gangs := gids,
                       scratchPos := r.scratch, privPos := r.priv, stamp := s.time }
  let gangs := (List.range t.tcb.blkdim).foldl
    (fun gs g => tabPut gs (bid + 1 + g) (s.launchGang task t bid core idx g r)) s.gangs
  let t' : Task :=
    { t with placed := if t.reissue.isEmpty then t.placed + 1 else t.placed, reissue := t.reissue.drop 1,
             tempo := if idx = 0 && t.tcb.hasTempo && t.reissue.isEmpty then some 0 else t.tempo }
  let s := { s with gangs := gangs, nextId := bid + 1 + t.tcb.blkdim }
  (((s.setBlock bid b).setTask task t').leaveQueue task).report t.home bid true
/-- Place the task's next block on a core that has room. -/
def State.placeOn (s : State) (task core : Nat) : State :=
  let t := s.task task
  match t.nextBlock, s.room core t.tcb with
  | some idx, some r => s.placeBlock task core idx r
  | _, _ => s

/-! ## Victims (R187) -/

/-- A block that may make room for a task of a stream at a priority. -/
def State.mayYield (s : State) (t : Tcb) (b : Block) : Bool :=
  let v := (s.task b.task).tcb
  b.status == .resident && v.prio < t.prio && v.rook == t.rook && (s.die (dieOf b.core)).preempt
/-- The victim that goes first: of lowest priority, and of equals the one placed last. -/
def State.firstVictim (s : State) (bs : List (Nat × Block)) : Option (Nat × Block) :=
  let prio (p : Nat × Block) : Nat := (s.task p.2.task).tcb.prio
  bs.foldl (fun best p => match best with
    | some q =>
      if prio p < prio q || (prio p == prio q && (q.2.stamp < p.2.stamp || (q.2.stamp == p.2.stamp && q.1 < p.1)))
      then some p else some q
    | none => some p) none
/-- Victims of one core, in order, until the block fits; none if they do not suffice. n bounds the blocks left. -/
def State.victimsOn (s : State) (t : Tcb) : Nat → List (Nat × Block) → List (Nat × Block) → List Nat → Option (List Nat)
  | 0, _, _, _ => none
  | n + 1, occ, cands, chosen =>
    if (s.roomBeside occ t).isSome then some chosen
    else
      match s.firstVictim cands with
      | none => none
      | some v =>
        s.victimsOn t n (occ.filter fun p => p.1 != v.1) (cands.filter fun p => p.1 != v.1) (chosen ++ [v.1])
/-- The victims for a block of a task that may go to the given cores; a core that cannot yield enough is passed over. -/
def State.victims (s : State) (t : Tcb) : Nat → List Nat → List Nat
  | 0, _ => []
  | n + 1, cores =>
    let cands := (s.blocks.filter fun p => cores.contains p.2.core && s.mayYield t p.2)
    match s.firstVictim cands with
    | none => []
    | some v =>
      let core := v.2.core
      match s.victimsOn t 33 (s.occupants core) (cands.filter fun p => p.2.core == core) [] with
      | some vs => vs
      | none => s.victims t n (cores.filter (· != core))
/-- A halt request (R367), to make room for block idx of a task: no run of the block starts any more, and its GROW requests
leave their queue (R156). -/
def State.requestHalt (s : State) (task idx bid : Nat) : State :=
  let b := s.block bid
  let k := s.core b.core
  let grow := k.growQ.filter fun r => !b.gangs.contains r.gang
  (s.setBlock bid { b with status := .halting, pendingFor := some (task, idx) }).setCore b.core { k with growQ := grow }
/-- Choose victims for the served task's next block and ask their cores to halt them. -/
def State.chooseVictims (s : State) (task : Nat) (t : Task) (idx : Nat) : State :=
  let cores := (s.diesFor task t idx).flatMap (s.allowedOn t.tcb)
  (s.victims t.tcb (cores.length + 1) cores).foldl (fun s v => s.requestHalt task idx v) s

/-! ## BLOCK_PLACEMENT -/

/-- Blocks are being halted and saved for the task. -/
def State.makingRoom (s : State) (task : Nat) : Bool :=
  s.blocks.any fun p => (p.2.pendingFor.map (·.1)) == some task && p.2.status.occupies && !p.2.saveFailed
/-- No core of the package is allowed any more (R479): a placement fault, reason 6. -/
def State.placementFault (s : State) (task : Nat) : State :=
  let t := s.task task
  let d := s.die t.home
  let s := (s.setTask task { t with status := .faulted, reissue := [] }).setDie t.home
    { d with ready := d.ready.filter fun r => r.2.2 != task }
  ({ s with bufs := s.bufs.filter fun b => b.task != task }.setTcbState t.cell 4).asyncFault task tcAllot 6 0 true
/-- BLOCK_PLACEMENT: one placement step of one stream of a die's distributor. Saved blocks come first (R188). -/
def execBlockPlacement (die : Nat) (rook : Bool) (s : State) : Host.Outcome State Fault Refusal :=
  match if s.isUp die && !(s.die die).fenced then (s.die die).served rook else none with
  | none => .next s
  | some task =>
    let t := s.task task
    match t.nextBlock with
    | none => .next s
    | some idx =>
      if !(s.savedBlocks task).isEmpty || s.makingRoom task || s.heldCell t.cell then .next s
      else if t.dies.all fun d => (s.allowedOn t.tcb d).isEmpty then .next (s.placementFault task)
      else
        match s.coreFor task t idx with
        | some core => .next (s.placeOn task core)
        | none => .next (s.chooseVictims task t idx)

end Sys2Proof.Machine
end

