-- ==== Sys2Proof/Machine/Fence.lean ====
section
/-! DEFINITION. Fences (R398 to R401, R417, R479): a unit that is fenced, the blocks and fragments lost with it, the
notice at each survivor, and the reissue of blocks. -/

namespace Sys2Proof.Machine

/-! ## The host event (R477) -/

/-- A cause of the host event: a second one sends no second message while EVENT = 1. -/
def Pkg.raiseEvent (p : Pkg) : Pkg := if p.event then p else { p with event := true, messages := p.messages + 1 }
/-- A unit is newly fenced: REPLACE and the host event. -/
def State.fencedNew (s : State) (pkg : Nat) : State :=
  s.setPkg pkg { (s.pkg pkg).raiseEvent with replace := true }

/-! ## Lost blocks (R400) -/

/-- Blocks are lost: their gangs end where they are, their runs stop, and what they had not performed yet goes. What
they have performed stands. -/
def State.loseBlocks (s : State) (lost : Nat → Block → Bool) : State :=
  let ids := (s.blocks.filter fun p => (p.2.status.occupies || p.2.status == .saved) && lost p.1 p.2).map (·.1)
  let mine (gid : Nat) : Bool := (s.gang gid).guests.isEmpty && ids.contains (s.gang gid).block
  let bufs := s.bufs.filter fun b => b.arrived || match tabFind s.ops b.issued with
    | some o => !mine o.gang
    | none => true
  let endG (p : Nat × Gang) : Nat × Gang :=
    if mine p.1 then
      (p.1, { p.2 with status := .ended, window := none, frags := [], cohorts := [], holds := [], away := [] })
    else p
  let endB (p : Nat × Block) : Nat × Block :=
    if ids.contains p.1 then
      (p.1, { p.2 with status := .lost, scratch := [], full := [], priv := [], pendingFor := none, savedAccs := [],
                       savedBs := [] })
    else p
  let back (u : Unacked) : Bool := match u.pkt.body with
    | .ply q => mine q.origin && (q.isReturn || q.refused)
    | _ => false
  { s with gangs := s.gangs.map endG, blocks := s.blocks.map endB, bufs := bufs,
           runs := s.runs.filter fun p => !mine p.2.gang, ops := s.ops.filter fun p => !mine p.2.gang,
           departing := s.departing.filter fun p => !mine p.2.src, unacked := s.unacked.filter fun u => !back u }

/-- A block of a launch that was lost and stands nowhere else. -/
def State.toReissue (s : State) (task idx : Nat) : Bool :=
  !(s.task task).reissue.contains idx && s.blocks.any (fun p => p.2.task == task && p.2.idx == idx && p.2.status == .lost) &&
    !s.blocks.any fun p => p.2.task == task && p.2.idx == idx && p.2.status != .lost
/-- BLOCK_REISSUE (R400): the lost blocks of a launch, of those that `known` names, are placed again, in ascending order, before
the rest of its grid. -/
def State.reissue (known : Nat → Bool) (s : State) (task : Nat) : State :=
  let t := s.task task
  let live := t.status == .queued || t.status == .running || t.status == .preempted
  let idxs := (s.blocks.filter fun p => p.2.task == task && p.2.status == .lost && known p.1).map fun p => p.2.idx
  let todo := idxs.foldl (fun l i => if s.toReissue task i then insNat l i else l) []
  if !live || todo.isEmpty || (s.die t.home).fenced then s
  else (s.setTask task { t with reissue := todo.foldl insNat t.reissue }).requeue task
def State.reissueAll (s : State) (known : Nat → Bool) : State := (s.tasks.map (·.1)).foldl (State.reissue known) s

/-! ## Lost fragments (R417) -/

/-- A fragment is lost: its gang of origin takes a MIGREFUSED trap with INFO 3 that cannot be resumed. -/
def State.loseFragment (s : State) (q : Ply) : State :=
  if (s.gang q.origin).status == .ended then s
  else s.takeRefusal { q with refused := true, rcause := 3, isReturn := false } false
/-- The fragment in place p of a guest gang, as a ply whose registers are those that its gang of origin kept. A fragment that
stands within a run is named by the packet of the run (DESIGN CHOICE, assumption log 12). -/
def State.guestPly (s : State) (g : Gang) (p : Nat) (q : Guest) : Ply :=
  let fs := g.frags.filter fun f => f.slice == p
  let live := fs.foldl (fun m f => f.stack.foldl (fun m e => m ||| e.2) (m ||| f.act)) 0
  let ply : Ply :=
    { task := g.task, origin := q.origin, slice := q.slice, all := q.all, lanes := slicePart live p, hops := q.hops,
      xb := q.xb, base := q.base, allot := q.allot, pc := ((fs.head?.map (·.pc)).getD 0) * 4,
      word := ((fs.head?.map (·.pc)).getD 0) * 4, src := q.origin, place := q.slice, regs := [], preds := [], lstat := [],
      addrs := [], isReturn := false, refused := true, rcause := 3, dst := dieOf (s.gang q.origin).core }
  s.capture ply
/-- The fragments of guest places leave without a return; a gang whose guests have all left ends. -/
def Gang.dropGuests (g : Gang) (gone : Guest → Bool) : Gang :=
  if g.guests.isEmpty then g
  else
    let at_ (p : Nat) : Bool := match g.guests[p]? with
      | some q => gone q
      | none => false
    let g := { g with frags := g.frags.filter fun f => !at_ f.slice,
                      guests := g.guests.map fun q => if gone q then { q with left := true, all := 0 } else q }
    if g.guests.all (·.left) then { g with status := .ended, frags := [], cohorts := [], holds := [] } else g
/-- The lanes of the guest places that `gone` names. -/
def Gang.goneLanes (g : Gang) (gone : Guest → Bool) : LaneSet :=
  ((List.range g.guests.length).zip g.guests).foldl (fun m p => if gone p.2 then m ||| sliceLanes p.1 else m) 0
/-- Guests are discarded, in the middle of a run too: those that `here` places and whose origin `gone` names. -/
def State.dropGuests (s : State) (here : Gang → Bool) (gone : Nat → Bool) : State :=
  let out (g : Gang) : Bool := here g && g.guests.any fun q => !q.left && gone q.origin
  let ended (gid : Nat) : Bool := let g := s.gang gid; out g && (g.dropGuests fun q => gone q.origin).status == .ended
  { s with gangs := s.gangs.map fun p => if out p.2 then (p.1, p.2.dropGuests fun q => gone q.origin) else p,
           runs := (s.runs.filter fun p => !ended p.2.gang).map fun p =>
             if out (s.gang p.2.gang) then
               (p.1, { p.2 with act := p.2.act &&& ~~~((s.gang p.2.gang).goneLanes fun q => gone q.origin) })
             else p,
           departing := s.departing.filter fun p => !(here (s.gang p.2.src) && gone p.2.origin) }

/-- Plies whose origin `gone` names are discarded: those in the arrival queues of dies that `here` names, and on the fabric
towards them (R417). -/
def State.dropPlies (s : State) (here : Nat → Bool) (gone : Nat → Bool) : State :=
  let dead (b : Payload) : Bool := match b with
    | .ply q => gone q.origin
    | _ => false
  let dies : Tab Die := s.dies.map fun p =>
    if here p.1 then (p.1, { p.2 with arrivals := p.2.arrivals.filter fun q => !gone q.origin }) else p
  { s with dies := dies, unacked := s.unacked.filter fun u => !(here u.pkt.dst && dead u.pkt.body),
           flight := s.flight.filter fun p => !(here p.dst && dead p.body) }
/-- A ply that its sender holds has been performed at its destination. -/
def State.plyPerformed (s : State) (p : Packet) : Bool :=
  let st := tabGet s.streams Stream.blank p.stream
  seqBefore p.seq st.floor || (tabFind st.marks p.seq).isSome
/-- Every fragment that is on a core that `gone` names, on a die that `goneDie` names, or on its way to one, and whose
gang of origin `mine` names, is lost. -/
def State.loseFragments (s : State) (gone goneDie : Nat → Bool) (mine : Nat → Bool) : State :=
  let hosted := (s.gangs.filter fun p => gone p.2.core && p.2.status != .ended).flatMap fun p =>
    ((List.range p.2.guests.length).zip p.2.guests).filterMap fun (q : Nat × Guest) =>
      if !q.2.left && q.2.all != 0 && mine q.2.origin then some (s.guestPly p.2 q.1 q.2) else none
  let leaving := (s.departing.filter fun p => gone (s.gang p.2.src).core && mine p.2.origin &&
    !(s.gang p.2.src).guests.isEmpty).map fun p => s.capture p.2
  let waiting := (s.dies.filter fun p => goneDie p.1).flatMap fun p => p.2.arrivals.filter fun q => mine q.origin
  let onWay (u : Unacked) : Bool := u.sent && goneDie u.pkt.dst && match u.pkt.body with
    | .ply q => mine q.origin && !q.isReturn && !q.refused
    | _ => false
  let sent := (s.unacked.filter fun u => onWay u && !s.plyPerformed u.pkt).filterMap fun u => match u.pkt.body with
    | .ply q => some q
    | _ => none
  let flying (p : Packet) : Bool := goneDie p.dst && match p.body with
    | .ply q => mine q.origin && !q.isReturn && !q.refused
    | _ => false
  let dies : Tab Die := s.dies.map fun p =>
    if goneDie p.1 then (p.1, { p.2 with arrivals := p.2.arrivals.filter fun q => !mine q.origin }) else p
  let s := { s with dies := dies, unacked := s.unacked.filter fun u => !onWay u,
                    flight := s.flight.filter fun p => !flying p }
  let s := s.dropGuests (fun g => gone g.core) mine
  (hosted ++ leaving ++ waiting ++ sent).foldl State.loseFragment s

/-! ## FENCE_NOTICE (R398 to R400) -/

/-- The fenced dies of a package. -/
def State.fencedDies (s : State) (pkg : Nat) : List Nat := ((List.range 8).map (pkg * 8 + ·)).filter fun d => (s.die d).fenced
/-- The blocks of a die it knows fenced that a master holds are placed again (R399, R400). -/
def State.reissueHeld (s : State) (die : Nat) : State :=
  let d := s.die die
  let lost := d.heldBlocks.filter fun b =>
    (s.block b).status == .lost && d.fencedMask.getLsbD (dieOf (s.block b).core % 8)
  let s := s.setDie die { s.die die with heldBlocks := (s.die die).heldBlocks.filter fun b => !lost.contains b }
  s.reissueAll lost.contains
/-- The master's work for the dies it knows fenced (R400): tasks homed there end as by HALT, a faulted one too, and the lost
blocks that it holds are reissued. -/
def State.masterWork (s : State) (die : Nat) : State :=
  let out (home : Nat) : Bool := pkgOf home == pkgOf die && (s.die die).fencedMask.getLsbD (home % 8)
  let open_ (t : Task) : Bool := t.status != .retired && t.status != .ending
  let s := ((s.tasks.filter fun p => out p.2.home && open_ p.2).map (·.1)).foldl State.endTask s
  s.reissueHeld die
/-- Every placement that a distributor has reported goes to a new master once more (R401). -/
def State.replay (s : State) (die : Nat) : State := (s.die die).reports.foldl (fun s b => s.sendReport die b true) s
/-- A survivor has the notice that a die is fenced; a second notice of it changes nothing. What it hosts of the fenced die's
gangs, or has on the way to it, is discarded (R417). -/
def State.noteFence (s : State) (die fencedDie : Nat) : State :=
  let d := s.die die
  if d.fencedMask.getLsbD (fencedDie % 8) then s
  else
    let old := d.master
    let mask := d.fencedMask ||| BitVec.ofNat 8 (2 ^ (fencedDie % 8))
    let s := s.setDie die { d with fencedMask := mask, epoch := (d.epoch + 1) % 65536 }
    let gone (origin : Nat) : Bool := dieOf (s.gang origin).core == fencedDie
    let s := (s.dropGuests (fun g => dieOf g.core == die) gone).dropPlies (· == die) gone
    let s := if (s.die die).master = old then s else s.replay die
    if (s.die die).master = die % 8 then s.masterWork die else s
/-- FENCE_NOTICE. -/
def execFenceNotice (n : Nat) (s : State) : Host.Outcome State Fault Refusal :=
  let perform (s : State) (p : Packet) : State × Nat := match p.body with
    | .notice die => (s.noteFence p.dst die, 0)
    | _ => (s, 0)
  .next (s.deliver n (fun p => p.kind == kNotice) State.proxyLost (fun _ _ => false) (fun _ _ => false) perform)
/-- A distributor's report reaches the master: a block that was lost before its report came is reissued then (R399, R400). -/
def State.deliverReport (s : State) (n : Nat) : State :=
  let perform (s : State) (p : Packet) : State × Nat := match p.body with
    | .report block placed =>
      let s := s.noteReport p.dst block placed
      (if (s.die p.dst).master = p.dst % 8 then s.reissueHeld p.dst else s, 0)
    | _ => (s, 0)
  s.deliver n (fun p => p.kind == kReport) State.proxyLost (fun _ _ => false) (fun _ _ => false) perform

/-! ## Units (R479) -/

/-- A core is out: its stores reach the die, its remote unit, handles and queues are gone. -/
def State.stopCore (s : State) (core : Nat) : State :=
  let s := s.releaseCore core
  { s.setCore core { Core.reset with fenced := (s.core core).fenced } with
    pending := s.pending.filter fun p => match p.reach with
      | .gang k _ => k != core
      | _ => true
    runs := s.runs.filter fun p => p.1 / 2 != core,
    ops := s.ops.filter fun p => p.2.core != core,
    departing := s.departing.filter fun p => (s.gang p.2.src).core != core,
    unacked := s.unacked.filter fun u => !(u.pkt.sdie == dieOf core && u.pkt.eng == core % 64) }
/-- A core is fenced: its blocks, saved ones too, are lost and reissued by their distributor; its guests are lost. -/
def State.fenceCore (s : State) (core : Nat) : State :=
  let s := s.setCore core { s.core core with fenced := true }
  let p := s.pkg (pkgOf (dieOf core))
  let s := s.setPkg (pkgOf (dieOf core)) { p with coresOut := p.coresOut + 1 }
  let s := s.loseFragments (· == core) (fun _ => false) fun origin => (s.gang origin).core != core
  let s := s.loseBlocks fun _ b => b.core == core
  let gone (origin : Nat) : Bool := (s.block (s.gang origin).block).status == .lost
  let s := (s.dropGuests (fun _ => true) gone).dropPlies (fun _ => true) gone
  (s.stopCore core).reissueAll fun b => (s.block b).core == core

/-- A stack is fenced: its channels leave promotion mode or their sleep, and their units' state is lost. -/
def State.fenceStack (s : State) (die stack : Nat) : State :=
  let d := s.die die
  let out (p : Nat × Channel) : Nat × Channel :=
    if p.1 / 32 = stack then (p.1, { Channel.reset with pins := p.2.pins }) else p
  s.setDie die { d with stackFenced := insNat d.stackFenced stack, channels := d.channels.map out }

/-- Notices leave the distributor of the lowest survivor of a package, one for each fenced die and each survivor that does not
know of it and has none on its way: those that an earlier sender, fenced since, had yet to deliver among them (R398, R401). -/
def State.sendNotices (s : State) (pkg : Nat) : State :=
  let live := ((List.range 8).map (pkg * 8 + ·)).filter fun d => !(s.die d).fenced
  match live with
  | [] => s
  | master :: _ =>
    let onWay (s : State) (d f : Nat) : Bool := s.unacked.any fun u => u.pkt.dst == d && u.pkt.body == .notice f
    let notice (s : State) (d f : Nat) : State :=
      if (s.die d).fencedMask.getLsbD (f % 8) || onWay s d f then s
      else s.send { Packet.blank with sdie := master, eng := engDistributor, dst := d, vc := 2, kind := kNotice,
                                      body := .notice f } none none 0 none
    (s.fencedDies pkg).foldl (fun s f => live.foldl (fun s d => notice s d f) s) s
/-- A die is fenced: nothing of it goes on; its guests and the plies towards it are lost. Dies of other packages, which no notice
reaches, discard its gangs' guests and plies at once (R417; DESIGN CHOICE, assumption log 12). -/
def State.fenceDie (s : State) (die : Nat) : State :=
  let s := s.setDie die { s.die die with fenced := true, ready := [], reports := [], heldBlocks := [] }
  let s := s.loseFragments (fun k => dieOf k == die) (· == die) fun origin => dieOf (s.gang origin).core != die
  let far (k : Nat) : Bool := pkgOf k != pkgOf die
  let mine (origin : Nat) : Bool := dieOf (s.gang origin).core == die
  let s := (s.dropGuests (fun g => far (dieOf g.core)) mine).dropPlies far mine
  let s := s.loseBlocks fun _ b => dieOf b.core == die
  let s := (List.range 64).foldl (fun s k => s.stopCore (die * 64 + k)) s
  let s := { s with unacked := s.unacked.filter fun u => u.pkt.sdie != die,
                    jobs := s.jobs.filter fun p => p.2.request.dst != die,
                    serving := s.serving.filter fun v => v.pkt.dst != die }
  let s := s.setDie die { s.die die with arrivals := [], park := [] }
  s.sendNotices (pkgOf die)

/-! ## Torus ports (R375, R479) -/

/-- The package's neighbour over port p, in the order +X, −X, +Y, −Y, +Z, −Z, on a torus that wraps around. -/
def State.neighbour (s : State) (pkg p : Nat) : Nat :=
  let x := pkg % 16
  let y := pkg / 16 % 16
  let z := pkg / 256
  let step (v n : Nat) : Nat := if p % 2 = 0 then (v + 1) % n else (v + n - 1) % n
  if p / 2 = 0 then z * 256 + y * 16 + step x s.torus.1
  else if p / 2 = 1 then z * 256 + step y s.torus.2.1 * 16 + x
  else step z s.torus.2.2 * 256 + y * 16 + x
/-- The port at the other end of a link. -/
def portBack (p : Nat) : Nat := if p % 2 = 0 then p + 1 else p - 1
/-- The packages beside one over links that work. -/
def State.linked (s : State) (pkg : Nat) : List Nat :=
  ((List.range 6).filter fun p => !(s.pkg pkg).portFenced.contains p && !(s.pkg (s.neighbour pkg p)).portFenced.contains (portBack p)).map
    (s.neighbour pkg)
/-- The packages of the torus (R375). -/
def State.packages (s : State) : List Nat :=
  (List.range s.torus.2.2).flatMap fun z => (List.range s.torus.2.1).flatMap fun y =>
    (List.range s.torus.1).map fun x => z * 256 + y * 16 + x
/-- The packages that routes reach from a set, n links further at most. -/
def State.reach (s : State) : Nat → List Nat → List Nat
  | 0, r => r
  | n + 1, r =>
    let more := (r.flatMap s.linked).foldl insNat r
    if more.length = r.length then r else s.reach n more
/-- A package treats others as fenced, all dies of them (R458, R479): fragments there are lost, guests from there go. -/
def State.fencePkgs (s : State) (pkg : Nat) (out : List Nat) : State :=
  let p := s.pkg pkg
  let new := out.filter fun q => !p.fencedPkgs.contains q
  if new.isEmpty then s
  else
    let there (die : Nat) : Bool := new.contains (pkgOf die)
    let s := s.setPkg pkg { p with fencedPkgs := new.foldl insNat p.fencedPkgs }
    let s := s.loseFragments (fun k => there (dieOf k)) there fun origin => pkgOf (dieOf (s.gang origin).core) == pkg
    let gone (origin : Nat) : Bool := there (dieOf (s.gang origin).core)
    (s.dropGuests (fun g => pkgOf (dieOf g.core) == pkg) gone).dropPlies (fun die => pkgOf die == pkg) gone
/-- Torus ports of a package go out: packages that no route reaches are fenced to each other. -/
def State.fencePorts (s : State) (pkg : Nat) (ports : List Nat) : State :=
  let s := s.setPkg pkg { s.pkg pkg with portFenced := ports.foldl insNat (s.pkg pkg).portFenced }
  let all := s.packages
  all.foldl (fun s p =>
    let near := s.reach all.length [p]
    s.fencePkgs p (all.filter fun q => !near.contains q)) s

/-- Host link 1 is fenced: its armings are gone, and its windows. -/
def State.fenceLink1 (s : State) (pkg : Nat) : State :=
  let its (p : Packet) : Bool := pkgOf p.sdie == pkg && p.eng == engLink 1
  { s.setPkg pkg { s.pkg pkg with link1Fenced := true } with
    unacked := s.unacked.filter fun u => !its u.pkt, flight := s.flight.filter fun p => !its p }

/-! ## UNIT_FENCE -/

/-- The unit is one of the package and is not fenced yet. -/
def State.canFence (s : State) (pkg : Nat) : FenceUnit → Bool
  | .core die core =>
    die < 8 && core < 64 && !(s.die (pkg * 8 + die)).fenced && !(s.core ((pkg * 8 + die) * 64 + core)).fenced
  | .stack k => k < 16 && !(s.die (pkg * 8 + k / 2)).stackFenced.contains (k % 2)
  | .die die => die < 8 && !(s.die (pkg * 8 + die)).fenced
  | .torusPort p => p < 6 && !(s.pkg pkg).portFenced.contains p
  | .tierPort die => die < 8 && !(s.die (pkg * 8 + die)).tierFenced
  | .hostLink1 => !(s.pkg pkg).link1Fenced
/-- What the fence of a unit does to the machine. -/
def State.fenceUnit (s : State) (pkg : Nat) : FenceUnit → State
  | .core die core => s.fenceCore ((pkg * 8 + die) * 64 + core)
  | .stack k => s.fenceStack (pkg * 8 + k / 2) (k % 2)
  | .die die => s.fenceDie (pkg * 8 + die)
  | .torusPort p => s.fencePorts pkg [p]
  | .tierPort die => s.setDie (pkg * 8 + die) { s.die (pkg * 8 + die) with tierFenced := true }
  | .hostLink1 => s.fenceLink1 pkg
/-- UNIT_FENCE. -/
def execUnitFence (pkg : Nat) (unit : FenceUnit) (s : State) : Host.Outcome State Fault Refusal :=
  if s.pkgExists pkg && s.canFence pkg unit then .next ((s.fenceUnit pkg unit).fencedNew pkg) else .next s

end Sys2Proof.Machine
end

