-- ==== Sys2Proof/Machine/HostWin.lean ====
section
/-! DEFINITION. The host's windows (R242, R402, R445 to R450, R477): memory accesses, the arming window and the
configuration blocks. -/

namespace Sys2Proof.Machine

/-- A host link of a package is there: link 1 is not where it is not fitted, in minimal mode and once it is fenced (R476, R478,
R479). -/
def State.linkUp (s : State) (pkg link : Nat) : Bool := link == 0 || (link == 1 && !s.link1Out pkg && !(s.pkg pkg).minimal)

/-! ## HDM_ACCESS (R446, R447) -/

/-- An address of the interleaved window lies in a region that the enclave marks (R456). -/
def State.marked (s : State) (die pa : Nat) : Bool :=
  let p := s.pkg (pkgOf die)
  p.trust == 1 && p.enclMap.contains (die % 8, pa / 2 ^ 28)
/-- The pieces of a range that lie in one granule each: an address and a count. -/
def granulePieces : Nat → Nat → Nat → List (Nat × Nat)
  | 0, _, _ => []
  | fuel + 1, a, n =>
    if n = 0 then []
    else
      let k := Nat.min n (32 - a % 32)
      (a, k) :: granulePieces fuel (a + k) (n - k)
/-- What a host access finds at an address, in the order of R447: poison and nothing written, zero and nothing written, or
memory. -/
inductive HostPlace where
  | poison | zero | memory
  deriving DecidableEq, Repr
def State.hostPlace (s : State) (die pa : Nat) : HostPlace :=
  if s.marked die pa then .poison
  else if floorLo ≤ pa && pa ≤ floorHi then .zero
  else if (s.die die).fenced || s.cellFenced (tierCell die false pa) then .poison
  else .memory
/-- The access waits: its channel is in promotion mode, the step window included, or asleep (R316, R447, R480). -/
def State.hostWaits (s : State) (die pa : Nat) : Bool :=
  let cell := tierCell die false pa
  s.hostPlace die pa == .memory && (s.heldCell cell || s.inStep cell)
/-- A byte as the host sees it at its home slice (R447): a store that no agent has made for the host to see may still stand
above the memory there (R221; DEDUCED, assumption log 42). -/
def State.hostByte (s : State) (cell : Nat) : Byte := (sectorByte (s.die (cellDie cell)).l2 false cell).getD (memGet s.mem cell)
/-- A granule's bytes, and whether the host gets poison for it. -/
def State.hostReadPiece (s : State) (die : Nat) (p : Nat × Nat) : List Byte × Bool :=
  let cell := tierCell die false p.1
  match s.hostPlace die p.1 with
  | .poison => (List.replicate p.2 0, true)
  | .zero => (List.replicate p.2 0, false)
  | .memory =>
    if s.bits.poisoned cell p.2 || s.bits.conflict.contains (granuleOf cell) then (List.replicate p.2 0, true)
    else ((List.range p.2).map fun i => s.hostByte (cell + i), false)
/-- A host write within one granule: it clears WR and CF, and poison only where it writes the whole granule. -/
def State.hostWritePiece (s : State) (die pa : Nat) (bytes : List Byte) : State :=
  let cell := tierCell die false pa
  match s.hostPlace die pa with
  | .memory =>
    let s := s.recall cell bytes.length
    let bits := s.bits.clearOnce (granulesOf cell bytes.length)
    let bits := if bytes.length = 32 then bits.clearPoison (granulesOf cell 32) else bits
    { s with bits := bits }.memPut cell (s.honouredAll false cell bytes)
  | _ => s
def State.hostWriteAll (die : Nat) : List (Nat × Nat) → List Byte → State → State
  | [], _, s => s
  | p :: ps, bs, s => hostWriteAll die ps (bs.drop p.2) (s.hostWritePiece die p.1 (bs.take p.2))
/-- HDM_ACCESS: a read or a write through a host link's memory window, once start-up has completed. -/
def execHdmAccess (pkg link die pa len : Nat) (write : Option HostWrite) (s : State) : Host.Outcome State Fault Refusal :=
  let k := pkg * 8 + die
  let n := match write with
    | some w => w.bytes.length
    | none => len
  let ps := granulePieces (n / 32 + 2) pa n
  if !s.pkgExists pkg || 8 ≤ die || !s.linkUp pkg link || !(s.pkg pkg).ready || 2 ^ 37 < pa + n then .next s
  else if ps.any fun p => s.hostWaits k p.1 then .next s
  else
    match write with
    | some w => .next (s.hostWriteAll k ps w.bytes)
    | none =>
      let got := ps.map (s.hostReadPiece k)
      let bad := got.any (·.2)
      .next { s with hostRead := if bad then [] else got.flatMap (·.1), hostPoison := bad }

/-! ## The arming window (R449) -/

/-- The TCB that an arming names, or the cause of its rejection; 0 is none, but a walk that waits (R316). -/
def State.armTarget (s : State) (die va : Nat) : Except Nat Leaf :=
  if va % 512 != 0 || 2 ^ 52 ≤ va then .error 1
  else
    match s.walk die va with
    | .error f => .error (if f = failWait then 0 else 2)
    | .ok l =>
      if s.ignores l.die die || s.proxied die l.die then .error 2
      else if !l.w || (l.place == 0 && l.win && reservedRow l.pa) then .error 3
      else if l.encl || (l.place == 0 && s.marked l.die (interleaved (cellAddr l.cell))) then .error 4
      else .ok l
/-- ARMWIN: a write to the arming window of a die's block, once start-up has completed. -/
def execArmwin (die link size value : Nat) (s : State) : Host.Outcome State Fault Refusal :=
  let d := s.die die
  let va := value % 2 ^ 64
  if !s.dieExists die || size != 8 || !s.linkUp (pkgOf die) link || d.fenced || !s.isUp die then .next s
  else
    match s.armTarget die va with
    | .error k => .next (if k = 0 then s else s.setDie die { d with rejects := Nat.min (2 ^ 32 - 1) (d.rejects + 1), armCause := k })
    | .ok l =>
      .next (s.send { Packet.blank with sdie := die, eng := engLink link, dst := l.die, vc := 2, kind := kArm,
                                        pa := l.inPacket, body := .arm va } none none 0 none)

/-! ## Configuration registers (R186, R402, R448, R450, R477) -/

/-- One bit for each number of a list. -/
def bitsAt (l : List Nat) : Nat := l.foldl (fun v k => Nat.lor v (2 ^ k)) 0
/-- DEVSTAT. -/
def State.devstat (s : State) (pkg : Nat) : Nat :=
  let p := s.pkg pkg
  let dies := (List.range 8).map (pkg * 8 + ·)
  let outStacks := dies.flatMap fun d => (s.die d).stackFenced.map (d % 8 * 2 + ·)
  let out := (dies.filter fun d => (s.die d).fenced).map (· % 8)
  bitsAt outStacks * 2 ^ 48 + bitsAt out * 2 ^ 40 + bitsAt p.portFenced * 2 ^ 34 + p.reason % 256 * 2 ^ 24 + p.fails % 4 * 2 ^ 22 +
    p.link1x8.toNat * 2 ^ 17 + p.link0x8.toNat * 2 ^ 16 + Nat.min 255 p.coresOut * 2 ^ 8 + p.event.toNat * 2 ^ 3 +
    p.replace.toNat * 2 ^ 2 + p.minimal.toNat * 2 + p.ready.toNat
/-- FABSTAT. -/
def State.fabstat (s : State) (die : Nat) : Nat :=
  let d := s.die die
  d.epoch * 2 ^ 48 + (s.torus.2.2 - 1) * 2 ^ 44 + (s.torus.2.1 - 1) * 2 ^ 40 + (s.torus.1 - 1) * 2 ^ 36 + d.losts * 2 ^ 16 +
    d.fencedMask.toNat * 2 ^ 8 + d.master
/-- DISTSTAT: ready TCBs of each priority, both streams. -/
def Die.distStat (d : Die) : Nat :=
  (List.range 4).foldl (fun v k => v + Nat.min 255 (d.ready.countP fun r => r.1 == k) * 2 ^ (8 * k)) 0
/-- DISTCFG. -/
def Die.distCfg (d : Die) : Nat := d.preempt.toNat * 2 ^ 8 + d.rookn
/-- A block's registers as eight bytes at an aligned offset. -/
def State.configWord (s : State) (die offset : Nat) : Nat :=
  let d := s.die die
  if offset = 0x8 then d.rejects * 2 ^ 32 + d.armCause
  else if offset = 0x10 then s.devstat (pkgOf die)
  else if offset = 0x100 then d.distStat * 2 ^ 32 + d.distCfg
  else if offset = 0x200 then s.fabstat die
  else if offset = 0x208 then d.woconf
  else 0
/-- A read of a configuration block: 4 or 8 bytes, naturally aligned; any other has no answer. -/
def State.configRead (s : State) (die offset size : Nat) : Option Nat :=
  if (size = 4 || size = 8) && offset % size == 0 && offset + size ≤ 2 ^ 16 then
    some (s.configWord die (offset / 8 * 8) / 2 ^ (8 * (offset % 8)) % 2 ^ (8 * size))
  else none

/-- ARMSTAT: a 1 in [63:32] clears the count and the cause. -/
def Die.writeArmstat (d : Die) (v : Nat) : Die := if v / 2 ^ 32 = 0 then d else { d with rejects := 0, armCause := 0 }
/-- DISTCFG: a ROOKN of 9 to 15 leaves the field unchanged. -/
def Die.writeDistcfg (d : Die) (v : Nat) : Die :=
  { d with preempt := nbit v 8, rookn := if v % 16 ≤ 8 then v % 16 else d.rookn }
/-- WOCONF: a 1 anywhere clears the count. -/
def Die.writeWoconf (d : Die) (v : Nat) : Die := if v = 0 then d else { d with woconf := 0 }
/-- DEVSTAT: a 1 in EVENT clears it. -/
def State.writeDevstat (s : State) (pkg v : Nat) : State :=
  if nbit v 3 then s.setPkg pkg { s.pkg pkg with event := false } else s
/-- Eight bytes at an aligned offset are written, those outside the access as zeros, which no register takes amiss but
DISTCFG. -/
def State.configPut (s : State) (die offset v : Nat) (low : Bool) : State :=
  let d := s.die die
  if offset = 0x8 then s.setDie die (d.writeArmstat v)
  else if offset = 0x10 then s.writeDevstat (pkgOf die) v
  else if offset = 0x100 && low then s.setDie die (d.writeDistcfg (v % 2 ^ 32))
  else if offset = 0x208 then s.setDie die (d.writeWoconf v)
  else s
/-- A write to a configuration block: 4 or 8 bytes, naturally aligned; any other has no effect. -/
def State.configWrite (s : State) (die offset size value : Nat) : State :=
  if s.dieExists die && (size = 4 || size = 8) && offset % size == 0 then
    s.configPut die (offset / 8 * 8) (value % 2 ^ (8 * size) * 2 ^ (8 * (offset % 8))) (offset % 8 == 0)
  else s
/-- ARMSTAT. -/
def execArmstat (die size value : Nat) (s : State) : Host.Outcome State Fault Refusal := .next (s.configWrite die 0x8 size value)
/-- DEVSTAT. -/
def execDevstat (die size value : Nat) (s : State) : Host.Outcome State Fault Refusal := .next (s.configWrite die 0x10 size value)
/-- WOCONF. -/
def execWoconf (die size value : Nat) (s : State) : Host.Outcome State Fault Refusal := .next (s.configWrite die 0x208 size value)
/-- CONFIG_REGISTER_WRITE. -/
def execConfigRegisterWrite (die offset size value : Nat) (s : State) : Host.Outcome State Fault Refusal :=
  .next (s.configWrite die offset size value)

end Sys2Proof.Machine
end

