-- ==== Sys2Proof/Machine/Lane.lean ====
section
/-! DEFINITION. The cross-lane and gang-wide words (R159 to R173, R179, R180): exchange, votes, reductions, scans,
barriers, the allotment, the tempo and the register window. -/

namespace Sys2Proof.Machine

/-! ## Supplying lanes (R159) -/

/-- The slice of a lane is away, while any fragment of it is (R403). -/
def Gang.sliceAway (g : Gang) (l : Nat) : Bool := g.away.any fun a => a.slice == l / 4
/-- What lane l supplies from field a, 32 or 64 bits. A performing lane supplies its value, be its slice away in part; another lane of
a slice that is away supplies 0 (DESIGN CHOICE between the bullets of R159, assumption log 69). -/
def Ctx.supply (c : Ctx) (perf : LaneSet) (l : Nat) (x64 : Bool) (a : Reg) : Nat :=
  if c.gang.sliceAway l && !hasLane perf l then 0 else c.opA l x64 a
/-- A word that writes each performing lane what `f` gives it of the lanes that supply. -/
def exchangeWord (i : Instr) (f : Ctx → LaneSet → Nat → LaneOut) : State → Host.Outcome State Fault Refusal :=
  word i fun c perf s => .ok (s.modGang c.gid fun g => { g with lanes := writeLanes c.run.xb perf (f c perf) g.lanes })

/-! ## Exchange (R162 to R164) -/

def segWidth : SegWidth → Nat
  | .w32 => 32
  | .w16 => 16
  | .w8 => 8
  | .w4 => 4
  | .w2 => 2
/-- The lane that SHFL reads (R162). -/
def shflSource (m : ShflMode) (w l c : Nat) : Nat :=
  let base := l - l % w
  let i := l % w
  match m with
  | .idx => base + c % w
  | .up => if c ≤ i then l - c else l
  | .down => if i + c < w then l + c else l
  | .xor => base + Nat.xor i (c % w)
/-- SHFL. -/
def execShfl (h : Hd) (m : ShflMode) (w : SegWidth) (x64 : Bool) (d a : Reg) (b : Src) :
    State → Host.Outcome State Fault Refusal :=
  exchangeWord (.shfl h m w x64 d a b) fun c perf l =>
    outSize x64 d (c.supply perf (shflSource m (segWidth w) l (c.opCount l a b)) x64 a)
/-- PUSH (R163): of several lanes that name one, the highest-numbered. -/
def execPush (h : Hd) (x64 : Bool) (d a : Reg) (b : Src) : State → Host.Outcome State Fault Refusal :=
  exchangeWord (.push h x64 d a b) fun c perf t =>
    match (lanesIn perf).foldl (fun r l => if c.opCount l a b % 32 = t then some l else r) none with
    | some l => outSize x64 d (c.supply perf l x64 a)
    | none => LaneOut.none
def bflyDist : BflyK → Nat
  | .k1 => 1
  | .k2 => 2
  | .k4 => 4
  | .k8 => 8
  | .k16 => 16
/-- BFLY (R164). -/
def execBfly (h : Hd) (x64 : Bool) (k : BflyK) (d a : Reg) : State → Host.Outcome State Fault Refusal :=
  exchangeWord (.bfly h x64 k d a) fun c perf l => outSize x64 d (c.supply perf (Nat.xor l (bflyDist k)) x64 a)

/-! ## Votes and matches (R165, R166) -/

/-- VOTE. -/
def execVote (h : Hd) (m : VoteMode) (d : Reg) (pa : PredNo) : State → Host.Outcome State Fault Refusal :=
  word (.vote h m d pa) fun c perf s =>
    let ps := (lanesIn perf).map fun l => c.rdPred l pa.toNat
    let out : LaneOut := match m with
      | .ballot => outW d (perf &&& lanesWhere fun l => c.rdPred l pa.toNat).toNat
      | .any => outPred (d.setWidth 3) (ps.any fun p => p)
      | .all => outPred (d.setWidth 3) (ps.all fun p => p)
      | .eq => outPred (d.setWidth 3) (ps.all (fun p => p) || ps.all fun p => !p)
    .ok (s.modGang c.gid fun g => { g with lanes := writeLanes c.run.xb perf (fun _ => out) g.lanes })
/-- MATCH. -/
def execMatchLanes (h : Hd) (x64 : Bool) (d a : Reg) : State → Host.Outcome State Fault Refusal :=
  word (.matchLanes h x64 d a) fun c perf s =>
    let out (l : Nat) : LaneOut :=
      outW d (perf &&& lanesWhere fun m => c.opA m x64 a == c.opA l x64 a).toNat
    .ok (s.modGang c.gid fun g => { g with lanes := writeLanes c.run.xb perf out g.lanes })

/-! ## Reductions and scans (R167 to R169) -/

/-- The identity of an operation (R169). -/
def redIdentity (op : RedOp) (ty : IntTy) : Int :=
  match op with
  | .and => -1
  | .min => ty.hi
  | .max => ty.lo
  | _ => 0
def redStep (op : RedOp) (x y : Int) : Int :=
  match op with
  | .add => x + y
  | .min => if y < x then y else x
  | .max => if x < y then y else x
  | .and => Int.ofNat (Nat.land (wrapN 64 x) (wrapN 64 y))
  | .or => Int.ofNat (Nat.lor (wrapN 64 x) (wrapN 64 y))
  | .xor => Int.ofNat (Nat.xor (wrapN 64 x) (wrapN 64 y))
  | .fadd => x
/-- The combination of a list of register values, as bits of the type, with its flags. -/
def redCombine (op : RedOp) (ty : IntTy) (xs : List Nat) : Nat × FlagSet :=
  if op == .fadd then
    (if xs.isEmpty then (0, 0)
      else fp32.ofSum (.to .rne) (sumTerms (xs.map fun x => (fp32.value x, (fp32.value x).isSnan))))
  else (ty.enc (xs.foldl (fun r x => redStep op r (ty.val x)) (redIdentity op ty)), 0)
/-- A word that gives each performing lane the combination of the performing lanes that `sel` picks for it. -/
def combineWord (i : Instr) (op : RedOp) (ty : IntTy) (d a : Reg) (pick : Nat → Nat → Bool) (s : State) :
    Host.Outcome State Fault Refusal :=
  word i (fun c perf s =>
    let out (l : Nat) : LaneOut :=
      let r := redCombine op ty (((lanesIn perf).filter (pick l)).map fun m => c.opA m ty.is64 a)
      (outSize ty.is64 d r.1).withFlags r.2
    .ok (s.modGang c.gid fun g => { g with lanes := writeLanes c.run.xb perf out g.lanes })) s
/-- REDX. -/
def execRedx (h : Hd) (op : RedOp) (ty : IntTy) (w : SegWidth) (d a : Reg) :
    State → Host.Outcome State Fault Refusal :=
  combineWord (.redx h op ty w d a) op ty d a fun l m => l / segWidth w == m / segWidth w
/-- SCANX. -/
def execScanx (h : Hd) (op : RedOp) (ty : IntTy) (excl : Bool) (w : SegWidth) (d a : Reg) :
    State → Host.Outcome State Fault Refusal :=
  combineWord (.scanx h op ty excl w d a) op ty d a fun l m =>
    l / segWidth w == m / segWidth w && (m < l || (m == l && !excl))

/-! ## Barriers (R146, R170 to R172) -/

/-- The issuing gang may name the group (R146). -/
def Ctx.inGroup (c : Ctx) (s : State) (group : Nat) : Bool :=
  group == 256 || ((c.task s).members group (s.block c.gang.block).idx).contains (s.launchNumber c.gang)
/-- The cohort holds every live slice of its gang (R171). -/
def Ctx.holdsAll (c : Ctx) : Bool := c.gang.away.isEmpty && c.gang.frags.all fun f => f.cohort == c.run.cohort
/-- Why a gang may not arrive at a group (R146, R171). -/
def Ctx.noArrival (c : Ctx) (s : State) (group : Nat) : Bool :=
  !c.inGroup s group || !c.holdsAll ||
    tabGet c.gang.arrivals 0 group == tabGet (c.task s).gens 0 (genKey group (s.block c.gang.block).idx) + 1
/-- The gang arrives in the group's current generation, which may complete (R171). -/
def State.arrive (s : State) (c : Ctx) (group : Nat) : State :=
  let idx := (s.block c.gang.block).idx
  let gen := tabGet (c.task s).gens 0 (genKey group idx)
  let s := s.modGang c.gid fun g =>
    { g with arrivals := tabPut g.arrivals group (gen + 1), marks := tabPut g.marks group s.nextId }
  s.completeGroup c.gang.task group idx
/-- BAR, arriving and waiting at the start of the next run. -/
def execBarSync (chain : Bool) (g : BitVec 9) : State → Host.Outcome State Fault Refusal :=
  word (.barSync chain g) fun c perf s =>
    if c.noArrival s g.toNat then .error (Trap.of (failOf tcBarrier) (lowestLane perf) 0)
    else
      let gen := tabGet (c.task s).gens 0 (genKey g.toNat (s.block c.gang.block).idx)
      let s := s.modGang c.gid fun k =>
        k.modCohort c.run.cohort fun q => { q with barWait := (g.toNat, gen + 1) :: q.barWait }
      .ok (s.arrive c g.toNat)
/-- BAR.arrive. -/
def execBarArrive (chain : Bool) (g : BitVec 9) : State → Host.Outcome State Fault Refusal :=
  word (.barArrive chain g) fun c perf s =>
    if c.noArrival s g.toNat then .error (Trap.of (failOf tcBarrier) (lowestLane perf) 0) else .ok (s.arrive c g.toNat)
/-- BAR.wait: it acts through the start of its run. -/
def execBarWait (chain : Bool) (g : BitVec 9) : State → Host.Outcome State Fault Refusal :=
  word (.barWait chain g) fun c perf s =>
    if c.inGroup s g.toNat then .ok s else .error (Trap.of (failOf tcBarrier) (lowestLane perf) 0)

/-! ## The allotment (R155 to R157, R173) -/

/-- GROW: its units were granted when its run started; the allotment grows. -/
def execGrow (chain : Bool) (n : BitVec 14) : State → Host.Outcome State Fault Refusal :=
  word (.grow chain n) fun c perf s =>
    let new := (s.gang c.gid).allot + n.toNat
    if (c.task s).tcb.maxregs < new || 512 < new then
      .error (Trap.of { code := tcAllot, info := 7 } (lowestLane perf) 0)
    else .ok (s.modGang c.gid fun g => { g with allot := new })

/-- A destination that loses the registers from n on (R173). -/
def Dest.below (d : Dest) (n : Nat) : Option Dest :=
  if n ≤ d.first then none else some { d with count := Nat.min d.count (n - d.first) }
/-- SHRINK: the highest registers and their units return at once; pending writes to them are discarded. Units that a run in
progress has been granted for its GROW stay (R156). -/
def execShrink (chain : Bool) (n : BitVec 14) : State → Host.Outcome State Fault Refusal :=
  word (.shrink chain n) fun c perf s =>
    let g := s.gang c.gid
    let new := g.allot - n.toNat
    let inWindow := match g.window with
      | some w => 0 < w.n && new < w.base + w.n
      | none => false
    let trap (k : Nat) : Except Trap State := .error (Trap.of { code := tcAllot, info := k } (lowestLane perf) 0)
    if g.allot < n.toNat + (c.task s).tcb.regs then trap 8
    else if inWindow then trap 9
    else
      let g := { g with allot := new, units := g.units.take (new / 8) ++ g.units.drop (g.allot / 8),
                        lanes := { g.lanes with regs := g.lanes.regs.filter fun p => p.1 % 512 < new } }
      let cut (o : Op) : Op :=
        if o.gang = c.gid then { o with dest := o.dest.bind (·.below new), held := o.held.filter (· < new) } else o
      .ok { s.setGang c.gid g with ops := s.ops.map fun p => (p.1, cut p.2) }

/-! ## The tempo (R179) -/

/-- TAKE: it acts through the start of its run. -/
def execTake (chain : Bool) : State → Host.Outcome State Fault Refusal := word (.take chain) fun _ _ s => .ok s
/-- PASS: the tempo goes on in rotation order. -/
def execPass (chain : Bool) : State → Host.Outcome State Fault Refusal :=
  word (.pass chain) fun c _ s =>
    if s.holdsTempo c.gang then .ok (s.passTempo c.gang.task c.gid (s.launchNumber c.gang)) else .ok s

/-! ## Register windows (R180, R215) -/

/-- An on-chip map address. -/
def mapAddr (region core sel off : Nat) : Nat :=
  6 * 2 ^ 61 + region * 2 ^ 58 + core % 64 * 2 ^ 52 + sel % 2 ^ 32 * 2 ^ 20 + off
/-- RXWIN. -/
def execRxwin (chain : Bool) (n : BitVec 7) (d : Reg) (base : BitVec 7) : State → Host.Outcome State Fault Refusal :=
  word (.rxwin chain n d base) fun c perf s =>
    let first := c.run.xb + base.toNat
    if n != 0 && (s.gang c.gid).allot < first + n.toNat then .error (Trap.of (failOf tcRegBound) (lowestLane perf) 0)
    else
      let win : Option Window := if n = 0 then none else some { base := first, n := n.toNat, handle := s.nextId }
      let out : LaneOut := outPair d (mapAddr 1 c.core s.nextId 0)
      .ok (s.modGang c.gid fun g =>
        { g with window := win, lanes := writeLanes c.run.xb perf (fun _ => out) g.lanes }).bump

end Sys2Proof.Machine
end

