-- ==== Sys2Proof/Machine/Keccak.lean ====
section
/-! DEFINITION. SHAKE256 of FIPS 202, with which the measurement registers are extended (R452). -/

namespace Sys2Proof.Machine

/-- The lane at column x, row y; columns and rows wrap. -/
def keccakAt (a : List DWord) (x y : Nat) : DWord := a.getD (x % 5 + 5 * (y % 5)) 0

/-- The walk over the 24 lanes other than the first, from (1, 0), each with the triangular number it is turned by. -/
def keccakWalk : Nat → Nat × Nat → Nat → List (Nat × Nat)
  | 0, _, _ => []
  | n + 1, (x, y), t => (x + 5 * y, (t + 1) * (t + 2) / 2) :: keccakWalk n (y, (2 * x + 3 * y) % 5) (t + 1)
/-- How far lane i is turned. -/
def keccakTurn (i : Nat) : Nat := (((keccakWalk 24 (1, 0) 0).find? fun e => e.1 == i).map (·.2)).getD 0

/-- The bits of the generator x^8 + x^6 + x^5 + x^4 + 1, from 1. -/
def keccakStream : Nat → BitVec 8 → List Bool
  | 0, _ => []
  | n + 1, r => r.getLsbD 0 :: keccakStream n ((r <<< 1) ^^^ (if r.msb then 0x71 else 0))
/-- The constant of a round: seven bits of the stream, at the places 2^j - 1. -/
def keccakIota (round : Nat) : DWord :=
  let bits := (keccakStream 168 1).drop (7 * round)
  (List.range 7).foldl (fun v j => if bits.getD j false then v ||| BitVec.twoPow 64 (2 ^ j - 1) else v) 0

/-- The sum of column x. -/
def keccakColumn (a : List DWord) (x : Nat) : DWord := (List.range 5).foldl (fun v y => v ^^^ keccakAt a x y) 0
/-- Every lane as f gives it by its column and row. -/
def keccakMap (f : Nat → Nat → DWord) : List DWord := (List.range 25).map fun i => f (i % 5) (i / 5)
/-- One round: the columns are mixed, the lanes turned and moved, each row combined, and the constant put into the first
lane. -/
def keccakRound (a : List DWord) (round : Nat) : List DWord :=
  let sums := (List.range 5).map (keccakColumn a)
  let mixed := keccakMap fun x y =>
    keccakAt a x y ^^^ sums.getD ((x + 4) % 5) 0 ^^^ (sums.getD ((x + 1) % 5) 0).rotateLeft 1
  let moved := keccakMap fun x y =>
    let i := (x + 3 * y) % 5 + 5 * x
    (mixed.getD i 0).rotateLeft (keccakTurn i)
  keccakMap fun x y =>
    let v := keccakAt moved x y ^^^ (keccakAt moved (x + 2) y &&& ~~~keccakAt moved (x + 1) y)
    if x = 0 ∧ y = 0 then v ^^^ keccakIota round else v

def keccakF (a : List DWord) : List DWord := (List.range 24).foldl keccakRound a

/-- Eight bytes of a block as lane i. -/
def keccakLane (block : List Byte) (i : Nat) : DWord := BitVec.ofNat 64 (leNat ((block.drop (8 * i)).take 8))

def keccakAbsorb (a : List DWord) (block : List Byte) : List DWord :=
  keccakF ((List.range 25).map fun i => a.getD i 0 ^^^ (if i < 17 then keccakLane block i else 0))

/-- Absorb n blocks of 136 bytes. -/
def keccakAbsorbAll : Nat → List DWord → List Byte → List DWord
  | 0, a, _ => a
  | n + 1, a, bs => keccakAbsorbAll n (keccakAbsorb a (bs.take 136)) (bs.drop 136)

/-- The message with the suffix 1111 and the padding 10*1, as bytes. -/
def shakePad (msg : List Byte) : List Byte :=
  let gap := 136 - msg.length % 136
  if gap = 1 then msg ++ [0x9F] else msg ++ [0x1F] ++ List.replicate (gap - 2) 0 ++ [0x80]

/-- The first n bytes, n at most 136, of SHAKE256 of a message. -/
def shake256 (msg : List Byte) (n : Nat) : List Byte :=
  let p := shakePad msg
  let a := keccakAbsorbAll (p.length / 136) (List.replicate 25 0) p
  ((List.range 17).flatMap fun i => leBytes 8 (a.getD i 0).toNat).take n

end Sys2Proof.Machine
end

