-- ==== Sys2Proof/Machine/Trust.lean ====
section
/-! DEFINITION. The security engine (R451 to R458): the messages of the trust mailbox, each with its one answer. -/

namespace Sys2Proof.Machine

/-! ## Answers (R453) -/

def stDone : Nat := 0
def stMalformed : Nat := 1
def stSignature : Nat := 2
def stState : Nat := 3
def stStale : Nat := 4
/-- A list of bytes cut or filled with zeros to a length. -/
def fit (n : Nat) (l : List Byte) : List Byte := l.take n ++ List.replicate (n - l.length) 0
/-- The answer to a message on a link: a status of 4 bytes, then what the message returns. -/
def State.answer (s : State) (pkg link status : Nat) (body : List Byte) : State :=
  let p := s.pkg pkg
  s.setPkg pkg { p with answers := tabPut p.answers link (leBytes 4 status ++ body) }
/-- A message reaches the engine if the link is there; a halted package answers STATUS alone. -/
def State.mailbox (s : State) (pkg link : Nat) (f : State → State) : Host.Outcome State Fault Refusal :=
  if !s.pkgExists pkg || !s.linkUp pkg link then .next s
  else if (s.pkg pkg).trust = 2 then .next (s.answer pkg link stState [])
  else .next (f s)

/-! ## Identity and measurement (R451, R452, R454) -/

/-- MR_i takes in data. -/
def Pkg.extendMr (p : Pkg) (i : Nat) (d : List Byte) : Pkg :=
  { p with mrs := tabPut p.mrs i (shake256 (fit 64 (tabGet p.mrs [] i) ++ shake256 d 64) 64) }
def idPub (pkg : Nat) : List Byte := fit 64 (Config.identity pkg)
def Pkg.encapsulation (p : Pkg) : List Byte := fit 1568 (Config.kemKey p.kemSeed)
/-- Bytes 0x000 to 0x2BF of the report. -/
def Pkg.reportBody (p : Pkg) (pkg nonce : Nat) : List Byte :=
  leBytes 4 0x4F545231 ++ leBytes 2 pkg ++ leBytes 2 p.trust ++ leBytes 8 p.gen ++ leBytes 16 0 ++ leBytes 32 nonce ++
    idPub pkg ++ shake256 p.encapsulation 64 ++ (List.range 8).flatMap fun i => fit 64 (tabGet p.mrs [] i)
/-- GETID. -/
def execGetid (pkg link : Nat) (s : State) : Host.Outcome State Fault Refusal :=
  s.mailbox pkg link fun s => s.answer pkg link stDone (idPub pkg ++ Config.certificate pkg)
/-- ATTEST. -/
def execAttest (pkg link nonce : Nat) (s : State) : Host.Outcome State Fault Refusal :=
  s.mailbox pkg link fun s =>
    let body := (s.pkg pkg).reportBody pkg nonce
    s.answer pkg link stDone (body ++ fit 29792 (Config.identitySign pkg body))
/-- EXTEND. -/
def execExtend (pkg link mr : Nat) (data : List Byte) (s : State) : Host.Outcome State Fault Refusal :=
  s.mailbox pkg link fun s =>
    if 4 ≤ mr && mr ≤ 7 then (s.setPkg pkg ((s.pkg pkg).extendMr mr data)).answer pkg link stDone []
    else s.answer pkg link stMalformed []
/-- KEMKEY. -/
def execKemkey (pkg link : Nat) (s : State) : Host.Outcome State Fault Refusal :=
  s.mailbox pkg link fun s => s.answer pkg link stDone (s.pkg pkg).encapsulation
/-- The packets' streams of a package whose nonces are spent (R457). -/
def State.spentStreams (s : State) (pkg : Nat) : Nat :=
  s.wraps.countP fun w => w.1 / 2 ^ 25 == pkg && 65536 ≤ w.2
/-- STATUS: the answer of a halted package too. -/
def execStatus (pkg link : Nat) (s : State) : Host.Outcome State Fault Refusal :=
  if !s.pkgExists pkg || !s.linkUp pkg link then .next s
  else
    let p := s.pkg pkg
    let parts := bitsAt ((p.parts.map (·.index)).filter fun i => !p.revoked.contains i)
    .next (s.answer pkg link stDone (leBytes 2 p.trust ++ leBytes 8 p.gen ++ leBytes 2 parts ++ leBytes 4 (s.spentStreams pkg)))

/-! ## Forming an enclave (R455) -/

/-- What a participant signs of a FORM body: its ciphertext and its wrapped key. -/
def Participant.sealed (p : Participant) : List Byte := leBytes 1568 p.kemCipher ++ leBytes 48 p.wrappedKey
def Participant.bytes (p : Participant) : List Byte :=
  leBytes 2 p.index ++ leBytes 64 p.pubKey ++ leBytes 512 (bitsAt p.members) ++ Participant.sealed p ++ leBytes 29792 p.sig
/-- The body as bytes, for MR3. -/
def FormBody.bytes (b : FormBody) : List Byte :=
  leBytes 8 b.gen ++ leBytes 2 b.quorum ++ leBytes 2 b.parts.length ++ b.parts.flatMap Participant.bytes ++
    leBytes 512 (bitsAt (b.enclMap.map fun e => e.1 * 512 + e.2))
def FormBody.wellFormed (b : FormBody) : Bool :=
  2 ≤ b.parts.length && b.parts.length ≤ 16 && b.parts.length < 2 * b.quorum && b.quorum ≤ b.parts.length &&
    allDistinct (b.parts.map (·.index)) && b.parts.all (fun p => p.index < 16 && p.members.all (· < 4096)) &&
    b.enclMap.all fun e => e.1 < 8 && e.2 < 512
/-- The traffic keys that a body unwraps to for a package, all of them or none. -/
def FormBody.unwrap (b : FormBody) (seed : Nat) : Option (Tab Nat) :=
  b.parts.foldl (fun r p => match r, Config.unwrapKey seed p.kemCipher p.wrappedKey with
    | some t, some k => some (tabPut t p.index k)
    | _, _ => none) (some [])
/-- A region of 256 MiB of a die's first tier is zeroed (R455, R458). -/
def State.zeroRegion (s : State) (pkg : Nat) (r : Nat × Nat) : State :=
  let die := pkg * 8 + r.1
  let inside (cell : Nat) : Bool :=
    cellDie cell == die && cellPlace cell == 0 && interleaved (cellAddr cell) / 2 ^ 28 == r.2
  let clean (gs : List Nat) : List Nat := gs.filter fun g => !inside (g * 32)
  let s := s.recallDie die
  let s := (s.toDie fun p => inside p.cell).toCells fun p => inside p.cell
  { s with mem := s.mem.filter fun c => !inside c.1,
           bits := { poison := clean s.bits.poison, written := clean s.bits.written, conflict := clean s.bits.conflict } }
/-- The status that a FORM draws. -/
def State.formStatus (s : State) (pkg : Nat) (b : FormBody) : Nat :=
  let p := s.pkg pkg
  if !FormBody.wellFormed b then stMalformed
  else if b.gen ≤ p.gen then stStale
  else if (b.parts.countP fun q => q.members.contains pkg) != 1 then stMalformed
  else if b.parts.all (fun q => Config.sigValid q.pubKey (Participant.sealed q) q.sig) && (FormBody.unwrap b p.kemSeed).isSome then stDone
  else stSignature
/-- The package holds the new generation: keys replaced, wrap counts at 0 (R457), members of it fenced no longer unless
no route reaches them. -/
def State.acceptForm (s : State) (pkg : Nat) (b : FormBody) : State :=
  let p := s.pkg pkg
  let near := s.reach s.packages.length [pkg]
  let still := p.fencedPkgs.filter fun q => !near.contains q || !b.parts.any fun x => x.members.contains q
  let ours (sdie : Nat) : Bool := pkgOf sdie == pkg
  let p := { p with trust := 1, gen := b.gen, parts := b.parts, quorum := b.quorum, revoked := [], enclMap := b.enclMap,
                    keys := (FormBody.unwrap b p.kemSeed).getD [], fencedPkgs := still }
  { s.setPkg pkg p with
    wraps := s.wraps.filter fun w => w.1 / 2 ^ 25 != pkg,
    unacked := s.unacked.map fun u => if ours u.pkt.sdie then { u with pkt := { u.pkt with wrap := 0 } } else u }
/-- FORM. -/
def execForm (pkg link : Nat) (body : FormBody) (s : State) : Host.Outcome State Fault Refusal :=
  s.mailbox pkg link fun s =>
    let st := s.formStatus pkg body
    if st != stDone then s.answer pkg link st []
    else
      let p := s.pkg pkg
      let new := body.enclMap.filter fun r => !p.enclMap.contains r
      let s := s.setPkg pkg (p.extendMr 3 (FormBody.bytes body))
      let s := new.foldl (fun s r => s.zeroRegion pkg r) s
      (s.acceptForm pkg body).answer pkg link stDone []

/-! ## Revocation and the end of an enclave (R458) -/

/-- The distinct participants, none revoked and none of those barred, whose signatures over a message verify. -/
def Pkg.signers (p : Pkg) (barred : List Nat) (msg : List Byte) (sigs : List Signature) : List Nat :=
  sigs.foldl (fun l g =>
    if !barred.contains g.part && !p.revoked.contains g.part &&
        p.parts.any (fun q => q.index == g.part && Config.sigValid q.pubKey msg g.sig) then insNat l g.part
    else l) []
/-- The status that a REVOKE draws. -/
def Pkg.revokeStatus (p : Pkg) (gen part : Nat) (sigs : List Signature) : Nat :=
  if gen != p.gen then stStale
  else if p.revoked.contains part then stState
  else if p.parts.all fun q => q.index != part then stMalformed
  else if (p.signers [part] (leBytes 8 gen ++ leBytes 2 part) sigs).length < p.quorum then stSignature
  else stDone
/-- The packages of a participant. -/
def Pkg.ownedBy (p : Pkg) (part : Nat) : List Nat := (p.parts.filter fun q => q.index == part).flatMap (·.members)
/-- A package of the revoked participant: every task ends, every key goes, every die is fenced, and it is halted. -/
def State.haltPackage (s : State) (pkg : Nat) : State :=
  let tasks := (s.tasks.filter fun t => pkgOf t.2.home == pkg).map (·.1)
  let s := tasks.foldl State.haltTask s
  let s := (List.range 8).foldl (fun s d => s.setDie (pkg * 8 + d) { s.die (pkg * 8 + d) with fenced := true }) s
  let s := (List.range 8).foldl (fun s d => s.fenceDie (pkg * 8 + d)) s
  (s.setPkg pkg { s.pkg pkg with keys := [], kemSeed := 0, trust := 2 }).fencedNew pkg
/-- A survivor: the participant's key goes, and its packages count as fenced. -/
def State.dropParticipant (s : State) (pkg part : Nat) : State :=
  let p := s.pkg pkg
  let s := s.setPkg pkg { p with keys := tabDel p.keys part, revoked := insNat p.revoked part }
  s.fencePkgs pkg (p.ownedBy part)
/-- REVOKE. -/
def execRevoke (pkg link gen part : Nat) (sigs : List Signature) (s : State) : Host.Outcome State Fault Refusal :=
  s.mailbox pkg link fun s =>
    let p := s.pkg pkg
    let st := p.revokeStatus gen part sigs
    if st != stDone then s.answer pkg link st []
    else if (p.ownedBy part).contains pkg then (s.haltPackage pkg).answer pkg link stDone []
    else (s.dropParticipant pkg part).answer pkg link stDone []
/-- DISSOLVE: marked regions are zeroed, then the keys. -/
def execDissolve (pkg link gen : Nat) (sigs : List Signature) (s : State) : Host.Outcome State Fault Refusal :=
  s.mailbox pkg link fun s =>
    let p := s.pkg pkg
    if gen != p.gen then s.answer pkg link stStale []
    else if p.trust != 1 then s.answer pkg link stState []
    else if (p.signers [] (leBytes 8 gen) sigs).length < p.quorum then s.answer pkg link stSignature []
    else
      let s := p.enclMap.foldl (fun s r => s.zeroRegion pkg r) s
      (s.setPkg pkg { s.pkg pkg with keys := [], trust := 0, gen := 0, parts := [], quorum := 0, revoked := [],
                                     enclMap := [] }).answer pkg link stDone []

end Sys2Proof.Machine
end

