-- ==== Sys2Proof/Machine/Power.lean ====
section
/-! DEFINITION. Start-up, minimal mode, thermal limits and clocks (R27, R476 to R481). -/

namespace Sys2Proof.Machine

/-! ## Everything in a package stops (R476, R481) -/

/-- The package's work is gone: launches, blocks, gangs, runs, operations, stores on their way, packets its engines hold
or that are on their way from or to it. -/
def State.dropWork (s : State) (pkg : Nat) : State :=
  let die (d : Nat) : Bool := pkgOf d == pkg
  let task (t : Nat) : Bool := die (s.task t).home
  let gang (g : Nat) : Bool := task (s.gang g).task || die (dieOf (s.gang g).core)
  { s with
    tasks := s.tasks.filter fun p => !die p.2.home,
    blocks := s.blocks.filter fun p => !task p.2.task,
    gangs := s.gangs.filter fun p => !gang p.1,
    runs := s.runs.filter fun p => !gang p.2.gang,
    ops := s.ops.filter fun p => !gang p.2.gang,
    pending := s.pending.filter fun p => !die p.die,
    bufs := s.bufs.filter fun b => !task b.task,
    faults := s.faults.filter fun p => !task p.2.task,
    unacked := s.unacked.filter fun u => !die u.pkt.sdie,
    flight := s.flight.filter fun p => !die p.sdie && !die p.dst,
    acks := s.acks.filter fun a => !die a.src && !die a.sdie,
    jobs := s.jobs.filter fun p => !die p.2.request.dst,
    serving := s.serving.filter fun v => !die v.pkt.dst,
    departing := s.departing.filter fun p => !gang p.2.src && !task p.2.task,
    dies := s.dies.map fun p =>
      (p.1, { p.2 with arrivals := p.2.arrivals.filter fun q => !task q.task, park := p.2.park.filter fun q => !task q.task,
                       ready := p.2.ready.filter fun r => !task r.2.2,
                       reports := if die p.1 then [] else p.2.reports, heldBlocks := if die p.1 then [] else p.2.heldBlocks,
                       l2 := if die p.1 then [] else p.2.l2, tlb := if die p.1 then [] else p.2.tlb }),
    cores := s.cores.filter fun p => !die (dieOf p.1) || p.2.fenced }

/-! ## START_UP (R476 to R478) -/

/-- The package's dies, cores, streams and own registers take their reset values; the controller's memory stays. -/
def State.resetPkg (s : State) (pkg : Nat) : State :=
  let die (d : Nat) : Bool := pkgOf d == pkg
  let p := s.pkg pkg
  let s := s.dropWork pkg
  { s with
    dies := s.dies.filter fun d => !die d.1,
    cores := s.cores.filter fun c => !die (dieOf c.1),
    seqs := s.seqs.filter fun k => k.1 / 2 ^ 25 != pkg,
    wraps := s.wraps.filter fun k => k.1 / 2 ^ 25 != pkg,
    fields := s.fields.filter fun f => pkgOf (cellDie (f.1 * 32)) != pkg,
    streams := s.streams.filter fun k => k.1 % 2 ^ 15 / 8 != pkg,
    pkgs := tabPut s.pkgs pkg
      { Pkg.reset with fails := p.fails, retry := p.retry, fullReason := p.fullReason, hot := p.hot,
                       link1Fitted := p.link1Fitted } }
/-- Every cell of the package's first tier holds 0, with valid ECC, WR = CF = 0 and no poison (R476, step 4). -/
def State.clearTier (s : State) (pkg : Nat) : State :=
  let inside (cell : Nat) : Bool := pkgOf (cellDie cell) == pkg && cellPlace cell == 0
  let clean (gs : List Nat) : List Nat := gs.filter fun g => !inside (g * 32)
  { s with mem := s.mem.filter fun c => !inside c.1,
           bits := { poison := clean s.bits.poison, written := clean s.bits.written, conflict := clean s.bits.conflict } }
/-- A die is out from the start: every die of the package knows it, with no notice. -/
def State.startWithout (s : State) (pkg die : Nat) : State :=
  let s := s.setDie (pkg * 8 + die) { s.die (pkg * 8 + die) with fenced := true }
  (List.range 8).foldl (fun s d =>
    let x := s.die (pkg * 8 + d)
    s.setDie (pkg * 8 + d) { x with fencedMask := x.fencedMask ||| BitVec.ofNat 8 (2 ^ die) }) s
/-- A unit that a start fences (R476), which raises the host event (R477). -/
def State.startFence (s : State) (pkg : Nat) (u : FenceUnit) : State :=
  if !s.canFence pkg u then s
  else
    let s := match u with
      | .die d => s.startWithout pkg d
      | _ => s.fenceUnit pkg u
    s.fencedNew pkg
/-- The dies among the units of a report. -/
def fencedDies (us : List FenceUnit) : List Nat :=
  us.foldl (fun l u => match u with
    | .die d => insNat l d
    | _ => l) []
/-- The cause for which a full start fails (R478), if it does. -/
def StartReport.cause (r : StartReport) (hot : Bool) : Option Nat :=
  if hot then some 7
  else
    match r.failure with
    | some k => some k
    | none =>
      if (fencedDies r.fenced).contains 0 then some 3
      else if r.fenced.contains (.stack 0) || r.fenced.contains (.stack 1) then some 4
      else if 4 < (fencedDies r.fenced).length then some 8
      else none
/-- The units whose failure is confined to them: without die 0, or stack 0 or 1, no start completes (R476, R478). -/
def StartReport.confined (r : StartReport) : List FenceUnit := r.fenced.filter fun u => u != .die 0 && u != .stack 0 && u != .stack 1
/-- READY, and the host event with it. -/
def State.comeUp (s : State) (pkg : Nat) (f : Pkg → Pkg) : State :=
  s.setPkg pkg { (f (s.pkg pkg)).raiseEvent with ready := true }
/-- A full start. Its links are trained, and the units that fail alone are fenced, before it completes or fails. -/
def State.fullStart (s : State) (pkg : Nat) (r : StartReport) : State :=
  let cause := StartReport.cause r (s.pkg pkg).hot
  let s := (StartReport.confined r).foldl (fun s u => s.startFence pkg u) (if cause.isNone then s.clearTier pkg else s)
  let s := s.setPkg pkg { s.pkg pkg with link0x8 := r.link0x8, link1x8 := r.link1x8, retry := false }
  match cause with
  | some k =>
    let p := s.pkg pkg
    s.setPkg pkg { p with reason := k, fullReason := k, fails := Nat.min 3 (p.fails + 1) }
  | none => s.comeUp pkg fun p => { p with fails := 0, fullReason := 0 }
/-- A unit that minimal mode has: a core of die 0. -/
def FenceUnit.minimal (u : FenceUnit) : Bool := match u with
  | .core die _ => die == 0
  | _ => false
/-- MINIMAL_MODE: die 0, its stacks and link 0 alone; the mesh and every other port stay down, and no packet passes to or from
the package or through it. -/
def State.minimalStart (s : State) (pkg : Nat) (r : StartReport) : State :=
  let cause := if (s.pkg pkg).hot then some 7 else r.minimalFails
  let s := s.setPkg pkg { s.pkg pkg with link0x8 := r.link0x8 }
  let units (s : State) : State := (r.fenced.filter FenceUnit.minimal).foldl (fun s u => s.startFence pkg u) s
  match cause with
  | some k => let s := units s
              s.setPkg pkg { s.pkg pkg with reason := k }
  | none =>
    let s := (List.range 7).foldl (fun s d => s.startWithout pkg (d + 1)) (s.clearTier pkg)
    let s := units (s.setDie (pkg * 8) { s.die (pkg * 8) with tierFenced := true })
    let s := s.fencePorts pkg (List.range 6)
    let s := s.fencePkgs pkg (s.packages.filter (· != pkg))
    s.comeUp pkg fun p => { p with minimal := true, replace := true, reason := p.fullReason, retry := true }
/-- The security engine at a start: MR0 to MR2 take in what they measure, and a fresh value of the random source gives the KEM
key pair (R451, R452). -/
def State.measured (s : State) (pkg : Nat) (r : StartReport) : State :=
  let p := { s.pkg pkg with kemSeed := (Config.freeValue s.free).toNat, link1Fitted := r.link1Fitted }
  let p := (List.range 3).foldl (fun (p : Pkg) i => p.extendMr i (r.measure.getD i [])) p
  { s.setPkg pkg p with free := s.free + 1 }
/-- START_UP: the package comes out of reset. -/
def execStartUp (pkg : Nat) (report : StartReport) (s : State) : Host.Outcome State Fault Refusal :=
  if !s.pkgExists pkg then .next s
  else
    let s := (s.resetPkg pkg).measured pkg report
    let p := s.pkg pkg
    if p.fails = 3 && !p.retry then .next (s.minimalStart pkg report) else .next (s.fullStart pkg report)

/-! ## Islands and temperature (R480, R481) -/

/-- The frequency of an island in MHz. -/
def Die.freqOf (d : Die) (i : Nat) : Nat := tabGet d.freq 600 i
/-- One step of 25 MHz down, to 150 at the lowest. -/
def Die.stepDown (d : Die) (i : Nat) : Die := { d with freq := tabPut d.freq i (Nat.max 150 (d.freqOf i - 25)) }
/-- One step of 25 MHz up, to the ceiling of 600. -/
def Die.stepUp (d : Die) (i : Nat) : Die := { d with freq := tabPut d.freq i (Nat.min 600 (d.freqOf i + 25)) }
/-- RAIL_LIMITER_TRIP. -/
def execRailLimiterTrip (die island : Nat) (s : State) : Host.Outcome State Fault Refusal :=
  if s.dieExists die && island < 4 then .next (s.setDie die ((s.die die).stepDown island)) else .next s
/-- THERMAL_THROTTLE: every island of the hottest die steps down. -/
def execThermalThrottle (pkg die : Nat) (s : State) : Host.Outcome State Fault Refusal :=
  if s.pkgExists pkg && die < 8 then
    .next (s.setDie (pkg * 8 + die) ((List.range 4).foldl Die.stepDown (s.die (pkg * 8 + die))))
  else .next s
/-- THERMAL_RECOVERY: below 90 °C the islands step back up. The heat of a shutdown is gone once the junction falls to 95 °C, of
which this event of one die says nothing (`Env.cool`). -/
def execThermalRecovery (pkg die : Nat) (s : State) : Host.Outcome State Fault Refusal :=
  if s.pkgExists pkg && die < 8 then
    .next (s.setDie (pkg * 8 + die) ((List.range 4).foldl Die.stepUp (s.die (pkg * 8 + die))))
  else .next s
/-- THERMAL_SHUTDOWN: at 110 °C all work stops unsaved, and READY falls. -/
def execThermalShutdown (pkg : Nat) (s : State) : Host.Outcome State Fault Refusal :=
  if s.pkgExists pkg then
    let s := s.dropWork pkg
    .next (s.setPkg pkg { s.pkg pkg with ready := false, hot := true })
  else .next s
/-- CYCLES_ADVANCE: one tick of 600 MHz (R27). -/
def execCyclesAdvance (die : Nat) (s : State) : Host.Outcome State Fault Refusal :=
  if s.dieExists die then .next (s.setDie die { s.die die with cycles := (s.die die).cycles + 1 }) else .next s

end Sys2Proof.Machine
end

