-- ==== Sys2Proof/Machine/RunCheck.lean ====
section
/-! DEFINITION. The checks of a run as it is decoded (R50, and the rules that name ILLEGAL at decode or RUNDEP). -/

namespace Sys2Proof.Machine

/-- A word of a run: the place where its prefixes begin, its own place, its meaning, its chain bit, and whether its major is
TRAIL's. A word that is not accepted stands as a NOP. -/
structure Entry where
  start : Nat
  pos : Nat
  instr : Instr
  chain : Bool
  trail : Bool
  deriving DecidableEq, Repr

/-- A fault of a run at a place: the trap code (R49). -/
structure RunFault where
  pos : Nat
  code : Nat
  deriving DecidableEq, Repr

/-- A word's OP field is EXT's, or TRAIL's. -/
def isExtWord (w : Word) : Bool := fld 24 7 w == (0x0B : BitVec 7)
def isTrailWord (w : Word) : Bool := fld 24 7 w == (0x01 : BitVec 7)
/-- How many words at the head of a packet's rest stand before the EXT that is not accepted as such (R37, R50). -/
def badExt (p : Pre) : List Word → Nat
  | [] => 0
  | w :: ws =>
    if isExtWord w then
      match p.take w with
      | .ok p' => 1 + badExt p' ws
      | .error _ => 0
    else 0
/-- The words decode. -/
def decodes (ws : List Word) : Bool := match decodeWords ws with
  | .ok _ => true
  | .error _ => false
/-- The EXT that the word refuses: the first of a kind that it does not take alone, or with which alone it does not decode though
it does without (R49; DESIGN CHOICE, assumption log 24). -/
def refusedExt (exts : List Word) (w : Word) : Option Nat :=
  exts.findIdx? fun e => match decodeWords [e, w] with
    | .error .badPrefix => true
    | .error _ => decodes [w]
    | .ok _ => false
/-- The place of the offending word among the words from place p on, which do not decode: the EXT that stands wrong or that the
word refuses, else the word that the prefixes extend (R49, R50; DESIGN CHOICE where several might be named, assumption log 24). -/
def offender (here : List Word) (p : Nat) : Nat :=
  let exts := here.takeWhile isExtWord
  match readRaw Pre.empty here with
  | .error .short => p + here.length - 1
  | .error _ => p + badExt Pre.empty here
  | _ => p + (refusedExt exts (here.getD exts.length 0)).getD exts.length

/-- The words of a run from place p on, each decoded within its packet (R37, R39), and the places of those that are not
accepted. -/
def decodeFrom (ws : List Word) : Nat → Nat → List Entry × List Nat
  | 0, _ => ([], [])
  | n + 1, p =>
    let here := (ws.drop p).take (3 - p % 3)
    let entry (pos : Nat) (i : Instr) : Entry :=
      let w := ws.getD pos 0
      { start := p, pos := pos, instr := i, chain := bit1 31 w, trail := isTrailWord w }
    if here.isEmpty then ([], [])
    else
      match decodeWords here with
      | .error _ =>
        let q := offender here p
        let r := decodeFrom ws n (q + 1)
        (entry q (.nop { chain := false, guard := 7 }) :: r.1, q :: r.2)
      | .ok (i, rest) =>
        let k := here.length - rest.length
        let r := decodeFrom ws n (p + k)
        (entry (p + k - 1) i :: r.1, r.2)

/-- The entries of the issue group that ends with the list's last word come in order; a group ends at C = 0 (R39). -/
def groupsOf : List Entry → List Entry → List (List Entry)
  | acc, [] => if acc.isEmpty then [] else [acc.reverse]
  | acc, e :: es => if e.chain then groupsOf (e :: acc) es else (e :: acc).reverse :: groupsOf [] es

def disjoint (a b : List Nat) : Bool := a.all fun x => !b.contains x

/-- The pipes a later word of a group may not need after the earlier ones (R40). -/
def pipeClash (es : List Entry) (e : Entry) : Bool :=
  let ps := es.map fun x => pipeOf x.instr
  match pipeOf e.instr with
  | .none => false
  | .alu => 2 ≤ (ps.filter fun p => p == .alu || p == .alu0).length
  | .alu0 => ps.contains .alu0 || 2 ≤ (ps.filter fun p => p == .alu || p == .alu0).length
  | p => ps.contains p

/-- The faults of one group: pipes, common destinations, transfers (R40, R41, R44). Of two words that conflict the later one is
named (DESIGN CHOICE, assumption log 24). -/
def groupFaults : List Entry → List Entry → List Nat
  | _, [] => []
  | seen, e :: es =>
    let u := usesOf e.instr
    let bad := pipeClash seen e ||
      seen.any (fun x => !disjoint (usesOf x.instr).writes u.writes || !disjoint (usesOf x.instr).predW u.predW) ||
      (isTransfer e.instr && seen.any fun x => isTransfer x.instr)
    (if bad then [e.pos] else []) ++ groupFaults (seen ++ [e]) es

/-- The group number BAR names, if the word is a BAR (R170). -/
def barGroup : Instr → Option Nat
  | .barSync _ g | .barArrive _ g | .barWait _ g => some g.toNat
  | _ => none

/-- The faults a word brings with the words that follow it: it writes what a later word has locked (R249, R281, R301,
R421), or it stands before an RFENCE (R429). -/
def forwardIllegal (e : Entry) (later : List Entry) : Bool :=
  let u := usesOf e.instr
  later.any fun x =>
    let v := usesOf x.instr
    !disjoint u.writes v.locks || (v.lockGuard && !disjoint u.predW (pW (guardOf x.instr))) ||
      (match x.instr with
        | .rfence _ _ => sendsPackets e.instr || isStore e.instr
        | _ => false)

/-- The faults a word has with the words before it: a BAR of a group named again (R170), more pops than the queue is deep (R17). It
is the later word, or the one whose pops are too many, that is named (DESIGN CHOICE, assumption log 24). -/
def backwardIllegal (e : Entry) (before : List Entry) : Bool :=
  (match barGroup e.instr with
    | some g => before.any fun x => barGroup x.instr == some g
    | none => false) ||
  (List.range 3).any fun q =>
    let depth := if q = 0 then 8 else if q = 1 then 4 else 16
    popsOf (usesOf e.instr) q != 0 && depth < ((e :: before).map fun x => popsOf (usesOf x.instr) q).foldl (· + ·) 0

/-- The word reads or writes what an earlier long-latency word of the run writes (R46). -/
def runDep (e : Entry) (before : List Entry) : Bool :=
  let u := usesOf e.instr
  before.any fun x =>
    let v := usesOf x.instr
    v.long && (!disjoint v.writes u.reads || !disjoint v.writes u.writes)

/-- The faults of the words of a run, each with what stands before and after it. -/
def wordFaults : List Entry → List Entry → List RunFault
  | _, [] => []
  | before, e :: es =>
    (if forwardIllegal e es || backwardIllegal e before then [{ pos := e.pos, code := 1 }] else []) ++
    (if runDep e before then [{ pos := e.pos, code := 3 }] else []) ++ wordFaults (before ++ [e]) es

/-- The earliest fault; at one word ILLEGAL before RUNDEP (R49). -/
def firstFault : List RunFault → Option RunFault
  | [] => none
  | f :: fs =>
    match firstFault fs with
    | none => some f
    | some g => if g.pos < f.pos || (g.pos = f.pos && g.code < f.code) then some g else some f

def ill (p : Nat) : RunFault := { pos := p, code := 1 }

/-- Check a run's words, which end with the packet of its TRAIL (R50): its entries up to the TRAIL, or its fault. -/
def checkRun (ws : List Word) : Except RunFault (List Entry) :=
  let (es, bad) := decodeFrom ws ws.length 0
  let body := es.takeWhile fun e => !e.trail
  let tail := es.dropWhile fun e => !e.trail
  let run := body ++ tail.take 1
  let gs := groupsOf [] run
  let last := gs.getLastD []
  let notNop (e : Entry) : Bool := match e.instr with
    | .nop _ => false
    | _ => true
  let faults :=
    bad.map ill ++ ((es.filter fun e => e.pos % 3 == 2 && e.chain).map fun e => ill e.pos) ++
    (((tail.take 1).filter fun e => e.chain).map fun e => ill e.pos) ++
    (((tail.drop 1).filter notNop).map fun e => ill e.pos) ++
    (gs.flatMap fun g => (groupFaults [] g).map ill) ++
    ((body.filter fun e => isTransfer e.instr && !last.any fun x => x.pos == e.pos).map fun e => ill e.pos) ++
    wordFaults [] run
  match firstFault faults with
  | some f => .error f
  | none => if tail.isEmpty then .error { pos := 0, code := 2 } else .ok run

end Sys2Proof.Machine
end

