-- ==== Sys2Proof/Machine/Save.lean ====
section
/-! DEFINITION. Pre-emption (R366 to R372, R279, R280, R300, R316): BLOCK_HALTED, GANG_SAVE with the gang header,
BLOCK_SAVE_COMPLETE and BLOCK_RESTORE with the storage images. -/

namespace Sys2Proof.Machine

/-! ## BLOCK_HALTED (R367, R279) -/

/-- A load or store of a tile that has begun and waits for a channel in promotion mode (R316). -/
def State.tileHeld (s : State) (id : Nat) (o : Op) : Bool := match o.kind with
  | .tloadb _ _ _ _ segs => s.segsHeld segs
  | .tstore _ _ _ _ => o.unstored.any (s.unitWaits id o)
  | _ => false
/-- Work of the block that halting completes: a pass, a tile operation that has begun and is not held. -/
def State.blockBusy (s : State) (bid : Nat) (b : Block) : Bool :=
  s.runs.any (fun r => b.gangs.contains r.2.gang) ||
    s.ops.any fun o => o.2.block == bid && o.2.began && !s.tileHeld o.1 o.2
/-- BLOCK_HALTED: no run of the block holds a slot, and its passes have drained. -/
def execBlockHalted (block : Nat) (s : State) : Host.Outcome State Fault Refusal :=
  let b := s.block block
  if b.status != .halting || s.blockBusy block b then .next s
  else
    let again (o : Op) : Op := if o.block = block then { o with began := false } else o
    let ops : Tab Op := s.ops.map fun p => (p.1, again p.2)
    .next ({ s with ops := ops }.setBlock block { b with status := .halted })

/-! ## What a gang's save waits for (R368, R300, R316) -/

/-- Every part of an engine's command that is left waits for a channel in promotion mode: a copy's elements that have not been
copied, a transfer with an element that waits. -/
def State.engineHeld (s : State) (id : Nat) (o : Op) : Bool := match o.kind with
  | .cpy n es => !es.isEmpty && es.all fun e => s.refHeld o n e.2.1 || s.refHeld o n e.2.2
  | .cpyt _ _ _ _ _ _ _ _ => match s.transfer o with
    | some x => (List.range x.count).any (s.elemWaits id o x)
    | none => false
  | .lrec _ segs => s.segsHeld segs
  | .bookq _ row _ => o.accs.isEmpty && s.heldCell row.cell
  | .ired _ _ _ _ _ _ => s.iredHeld o
  | _ => false
def OpKind.isEngine : OpKind → Bool
  | .cpy _ _ | .cpyt _ _ _ _ _ _ _ _ | .lrec _ _ | .bookq _ _ _ | .ired _ _ _ _ _ _ => true
  | _ => false
/-- Access a of operation o comes after one of the operations q, by the order of its lane (R225, R310). -/
def accBehind (qs : List (Nat × Op)) (o : Op) (a : Acc) : Bool :=
  qs.any fun q => (q.2.accs.any fun b => !b.done && b.lane == a.lane && orderedPair q.2 b o a) || match o.kind with
    | .bookPin _ _ => q.2.booksLane a.addr a.lane
    | _ => false
/-- An engine's command comes after one of the operations q: a store of its gang, or a command of its engine's order. -/
def engineBehind (qs : List (Nat × Op)) (o : Op) : Bool :=
  qs.any fun q => (!q.2.kind.isRead && q.2.accs.any fun b => !b.done) || match o.kind with
    | .lrec _ _ | .cpyt _ _ _ _ _ _ _ _ => q.2.kind.usesRecords
    | .ired _ _ _ _ _ _ => q.2.kind.copies
    | .bookq _ row idx => idx.any fun p => q.2.booksLane row.cell p.1
    | _ => false
/-- An operation has nothing left but what is held, or can come only after operations that are (R316). -/
def State.opHeld (s : State) (qs : List (Nat × Op)) (id : Nat) (o : Op) : Bool :=
  if o.kind.isEngine then s.engineHeld id o || engineBehind qs o
  else (o.accs.any fun a => !a.done) && o.accs.all fun a => a.done || s.accHeld id o a || accBehind qs o a
/-- The operations that a save abandons, in issue order. -/
def State.abandonable (s : State) (gid : Nat) : List Nat :=
  let mine := s.ops.filter fun p => p.2.gang == gid && (p.2.cls == .ld || p.2.cls == .st || p.2.kind.isEngine)
  (mine.foldl (fun qs p => if s.opHeld qs p.1 p.2 then qs ++ [p] else qs) []).map (·.1)
/-- An operation that the save of its gang waits for: one that no trap of the gang holds, in the ld or st class, or an
engine's. -/
def State.saveWaits (s : State) (gid : Nat) (g : Gang) : Bool :=
  let left := s.abandonable gid
  s.ops.any fun p => p.2.gang == gid && (p.2.cls == .ld || p.2.cls == .st || p.2.kind.isEngine) &&
    !left.contains p.1 && !g.holds.any fun h => h.op == some p.1

/-! ## The gang header (R370)

The rule gives each field's offset and size; the places within WINDOW, BAR, SLICES, BATCH and QUEUES are this model's
(assumption log 15). -/

/-- Fields of n bytes for each of a list of keys. -/
def eachBytes (n : Nat) (ks : List Nat) (f : Nat → Nat) : List Byte := ks.flatMap fun k => leBytes n (f k)
def lanes32 : List Nat := List.range 32
/-- The 128 bytes of a slice: its PC, active set, status (0 ended, 1 live, 2 away, 3 parked: a part of it away), depth, cohort,
counts and stack, and then the PC, active set, depth and cohort of three further fragments (R403), whose stacks are among the
device's own bytes. -/
def State.sliceBytes (s : State) (gid : Nat) (g : Gang) (p : Nat) : List Byte :=
  let fs := g.frags.filter fun f => f.slice == p
  let f := fs.head?
  let more (k : Nat) : List Byte := match fs[k]? with
    | some f => leBytes 4 f.pc ++ leBytes 1 (f.act.toNat / 2 ^ (4 * p) % 16) ++ leBytes 1 f.stack.length ++ leBytes 4 f.cohort
    | none => List.replicate 10 0
  let away := g.away.any fun a => a.slice == p
  let act := (f.map fun f => f.act.toNat / 2 ^ (4 * p) % 16).getD 0
  let st := (f.map (·.stack)).getD []
  let entry (i : Nat) : Nat := match st[i]? with
    | some e => e.1 + 2 ^ 32 * (e.2.toNat / 2 ^ (4 * p) % 16)
    | none => 0
  leBytes 4 ((f.map (·.pc)).getD 0) ++ leBytes 1 act ++
    leBytes 1 (if f.isSome && away then 3 else if f.isSome then 1 else if away then 2 else 0) ++
    leBytes 2 st.length ++ leBytes 4 ((f.map (·.cohort)).getD 0) ++
    [Cls.ld, Cls.st, Cls.tl, Cls.rm].flatMap (fun c => leBytes 4 (s.classWords gid p c).length) ++ leBytes 4 0 ++
    eachBytes 8 (List.range 8) entry ++ more 1 ++ more 2 ++ more 3 ++ leBytes 2 0
/-- The header of a gang but for HELD, in ranges from its own start. -/
def State.gangHeader (s : State) (gid : Nat) (g : Gang) : List (Nat × List Byte) :=
  let t := s.task g.task
  let L := g.lanes
  let bit (b : Bool) (n : Nat) : Nat := if b then 2 ^ n else 0
  let gstate := bit (!g.holds.isEmpty) 0 + bit (g.holds.any fun h => h.marked.isSome) 1 +
    bit (s.holdsTempo g) 2 + bit (g.cohorts.any (·.gathered)) 3
  let win := match g.window with
    | some w => w.base + 2 ^ 16 * w.n + 2 ^ 32 * (w.handle % 2 ^ 32)
    | none => 0
  let queue (q depth : Nat) : List Byte := lanes32.flatMap fun l =>
    (List.range depth).flatMap fun i => leBytes 4 ((tabGet (g.queue q) [] l).getD i 0).toNat
  let rec_ (k : Nat) : List Byte := leBytes 64 ((tabGet g.records (some 0) k).getD 0).toNat
  let batch (l : Nat) : Nat :=
    tabGet g.seals 0 l % 2 ^ 31 + 2 ^ 31 * (tabGet g.finished 0 l % 2 ^ 31) +
      match g.batches.find? fun b => b.lane == l && b.num == 0 with
      | some b => 2 ^ 62 + 2 ^ 63 * b.fail.toNat
      | none => 0
  [(0x0000, leBytes 8 t.addr), (0x0008, leBytes 4 (s.launchNumber g)), (0x000C, leBytes 4 gstate),
   (0x0010, leBytes 4 (g.allot + 2 ^ 16 * g.xb)), (0x0014, leBytes 4 (g.units.headD 0)), (0x0018, leBytes 8 win),
   (0x0020, ((eachBytes 4 (g.groups ++ [256]) fun k => tabGet g.arrivals 0 k) ++ List.replicate 32 0).take 32),
   (0x0040, (List.range 8).flatMap fun p => s.sliceBytes gid g p),
   (0x0440, eachBytes 1 lanes32 fun l => (tabGet L.preds 0 l).toNat),
   (0x0460, eachBytes 4 lanes32 fun l => (tabGet L.lstat 0 l).toNat),
   (0x04E0, eachBytes 8 lanes32 fun l => (tabGet L.cursor 0 l).toNat),
   (0x05E0, lanes32.flatMap fun l => leBytes 8 (tabGet L.g0 0 l).toNat ++ leBytes 8 (tabGet L.g1 0 l).toNat),
   (0x0800, queue 0 8 ++ queue 1 4 ++ queue 2 16),
   (0x1600, lanes32.flatMap fun l => (List.range 3).flatMap fun q => leBytes 1 (g.queueLen q l)),
   (0x1660, eachBytes 8 lanes32 batch), (0x1760, (List.range 4).flatMap rec_),
   (0x1860, lanes32.flatMap fun l => eachBytes 4 (List.range 8) fun w => (tabGet L.w 0 (l * 8 + w)).toNat)]
/-- The register units of a gang, each with its 1,024 bytes (R369). -/
def Gang.unitBytes (g : Gang) : List (Nat × List Byte) :=
  ((List.range g.units.length).zip g.units).map fun u =>
    (u.2 * 1024, (List.range 8).flatMap fun r => lanes32.flatMap fun l =>
      leBytes 4 (tabGet g.lanes.regs 0 (regKey l (8 * u.1 + r))).toNat)

/-- n bytes that the spec leaves to the device (R369, R370): the free values from number `from_` on. -/
def State.deviceBytes (s : State) (from_ n : Nat) : List Byte :=
  (List.range n).map fun i => (Config.freeValue (s.free + from_ + i)).setWidth 8
def State.takeFree (s : State) (n : Nat) : State := { s with free := s.free + n }

/-! ## Writing to the save area (R368) -/

/-- A cell of the ranges is held: the save waits. -/
def State.rangesHeld (s : State) (t : Task) (core : Nat) (rs : List (Nat × Nat)) : Bool :=
  rs.any fun r => s.imageHeld t core r.1 r.2
def State.savesHeld (s : State) (t : Task) (core : Nat) (rs : List (Nat × List Byte)) : Bool :=
  s.rangesHeld t core (rs.map fun r => (r.1, r.2.length))
/-- A write to the save area faults: saving stops, and SUPER is served with ACCESS cause 9, not resumable (R368). -/
def State.saveFault (s : State) (bid : Nat) (b : Block) : State :=
  let id := s.nextId
  let s := (s.setBlock bid { b with saveFailed := true }).asyncFault b.task tcAccess 9 0 true
  { s with faults := tabMod s.faults id fun r => { r with die := dieOf b.core, core := b.core, block := b.idx } }

/-! ## GANG_SAVE -/

/-- GANG_SAVE: the header and the register units of a halted gang go to the image; held accesses are abandoned. -/
def execGangSave (gang : Nat) (s : State) : Host.Outcome State Fault Refusal :=
  let g := s.gang gang
  let b := s.block g.block
  if g.status != .resident || !g.guests.isEmpty || b.status != .halted || b.saveFailed || s.saveWaits gang g then .next s
  else
    let t := s.task g.task
    let place := imgGang + g.place * 8192
    let header := ((s.gangHeader gang g) ++ [(0x1C60, s.deviceBytes 0 928)]).map fun (r : Nat × List Byte) => (place + r.1, r.2)
    let rs := header ++ g.unitBytes
    if s.savesHeld t b.core rs then .next s
    else
      match State.imageWrites t b.core rs (s.takeFree 928) with
      | none => .next (s.saveFault g.block b)
      | some s' =>
        let left := s.abandonable gang
        let leave (p : Nat × Op) : Nat × Op := if left.contains p.1 then (p.1, { p.2 with abandoned := true }) else p
        .next ({ s' with ops := s'.ops.map leave }.setGang gang { g with status := .saved })

/-! ## The return to a saved gang (R355, R358) -/

/-- The saved gang that a resume names, and its block. -/
def State.savedHold (s : State) (token : Nat) : Option (Gang × Block) :=
  (s.gangs.find? fun p => p.2.status == .saved && p.2.holds.any fun h => h.token == token).map fun p =>
    (p.2, s.block p.2.block)
/-- The mark of a resume enters GSTATE of a saved gang's header (R370). -/
def State.markSaved (s : State) (token : Nat) : State :=
  match s.savedHold token with
  | none => s
  | some (g, _) => if g.holds.any fun h => h.token == token && h.marked.isSome then s.imageMark g 2 else s
def Packet.token (p : Packet) : Nat := match p.body with
  | .resume token _ _ _ => token
  | _ => 0
/-- The image of the gang that a resume names lies in a channel that holds accesses (R316). -/
def State.markHeld (s : State) (p : Packet) : Bool := match s.savedHold p.token with
  | some (g, b) => s.imageHeld (s.task g.task) b.core g.imageState 4
  | none => false
/-- RESUME_PACKET (R355): the held gang that the resume names goes on, or is marked to go on at its restore. -/
def execResumePacket (n : Nat) (s : State) : Host.Outcome State Fault Refusal :=
  let perform (s : State) (p : Packet) : State × Nat := match p.body with
    | .resume token rreg rval resumePc => ((s.returnFrom token rreg rval resumePc).markSaved token, 0)
    | _ => (s, 0)
  .next (s.deliver n (fun p => p.kind == kResume) State.proxyLost State.markHeld (fun _ _ => false) perform)

/-! ## The block's image -/

/-- A TFREE of a handle of the block is accepted and has not acted. -/
def State.freeing (s : State) (bid : Nat) (isB : Bool) (h : Nat) : Bool :=
  s.ops.any fun p => p.2.block == bid && p.2.kind == .tfree isB h
/-- The handles of a block, those included that it has freed and that its queued operations still use. -/
def State.blockAccs (s : State) (bid : Nat) (b : Block) : Tab AccHandle :=
  (s.core b.core).accs.filter fun p => p.2.owner == some bid || (p.2.freeing && s.freeing bid false p.1)
def State.blockBs (s : State) (bid : Nat) (b : Block) : Tab BHandle :=
  (s.core b.core).bs.filter fun p => p.2.owner == some bid || (p.2.freeing && s.freeing bid true p.1)
def accBytes (a : AccHandle) : List Byte := eachBytes 4 (List.range 8192) fun i => (tabGet a.elems 0 i).toNat
/-- The place of the block's gang 0. -/
def State.blockPlace (s : State) (b : Block) : Nat := (s.blockPlaces b).headD 0
/-- The storage of a block: scratchpad, lane-private banks, accumulator handles. -/
def State.blockStorage (s : State) (bid : Nat) (b : Block) : List (Nat × List Byte) :=
  let t := (s.task b.task).tcb
  [(imgScratch + b.scratchPos, (List.range t.scratch).map b.scratchByte)] ++
    lanes32.map (fun m => (imgPriv + m * 32768 + b.privPos,
      (List.range (t.blkdim * t.priv)).map fun i => tabGet b.priv 0 (m * 32768 + i))) ++
    (s.blockAccs bid b).map fun p => (imgAcc + p.1 * 32768, accBytes p.2)
/-- The contents that are the device's own: macros, the block header. -/
def State.blockPrivate (s : State) (bid : Nat) (b : Block) : List (Nat × List Byte) :=
  (s.blockBs bid b).map (fun p => (imgB + p.1 * 81920, s.deviceBytes (p.1 * 81920) 81920)) ++
    [(imgBlock + s.blockPlace b * 1024, s.deviceBytes (8 * 81920) 1024)]
/-- The bytes that hold the block's full/empty bits, with the bits of its neighbours as the image has them. -/
def State.fullBytes (s : State) (b : Block) : List (Nat × List Byte) :=
  let t := s.task b.task
  let first := b.scratchPos / 16
  let n := t.tcb.scratch / 16
  if n = 0 then []
  else
    let old (i : Nat) : Nat := leNat ((s.imageRead t b.core (imgFull + i) 1).getD [])
    let bit (i k : Nat) : Bool :=
      let q := 8 * i + k
      if first ≤ q && q < first + n then b.full.contains (q - first) else nbit (old i) k
    ((List.range ((first + n - 1) / 8 - first / 8 + 1)).map (first / 8 + ·)).map fun i =>
      (imgFull + i, [BitVec.ofNat 8 ((List.range 8).foldl (fun x k => x + if bit i k then 2 ^ k else 0) 0)])

/-! ## BLOCK_SAVE_COMPLETE (R368, R188) -/

/-- The block's positions and handles are free; the task goes to the head of its queue (R188). -/
def State.vacate (s : State) (bid : Nat) (b : Block) : State :=
  let accs := s.blockAccs bid b
  let bs := s.blockBs bid b
  let k := s.core b.core
  let k : Core := { k with accs := k.accs.filter fun p => (tabFind accs p.1).isNone,
                           bs := k.bs.filter fun p => (tabFind bs p.1).isNone }
  let b : Block := { b with status := .saved, pendingFor := none, unseen := [], savedAccs := accs, savedBs := bs }
  let s := (s.setCore b.core k).setBlock bid b
  let t := s.task b.task
  if t.status == .faulted || t.status == .ending then s
  else (s.setTask b.task { t with status := .preempted }).requeue b.task
/-- The pending block that a saved block has made room for is placed: it is still its task's next block, its task is served, and
the core is one that the task may use now (R186, R187). -/
def State.placePending (s : State) (core : Nat) (p : Nat × Nat) : State :=
  let t := s.task p.1
  if s.isUp t.home && s.isServed p.1 && (s.savedBlocks p.1).isEmpty && t.nextBlock == some p.2 && s.allowedCore t.tcb core then
    s.placeOn p.1 core
  else s
/-- BLOCK_SAVE_COMPLETE: every gang is saved; the block's storage goes to the image, and the pending block is placed once
it fits. It waits where the TCB of that block's task lies in a channel that holds accesses (R316). -/
def execBlockSaveComplete (block : Nat) (s : State) : Host.Outcome State Fault Refusal :=
  let b := s.block block
  if b.status != .halted || b.saveFailed || b.gangs.any fun g => (s.gang g).status == .resident then .next s
  else
    let t := s.task b.task
    let rs := s.blockStorage block b ++ s.blockPrivate block b ++ s.fullBytes b
    if s.savesHeld t b.core rs || (b.pendingFor.map fun p => s.heldCell (s.task p.1).cell) == some true then .next s
    else
      match State.imageWrites t b.core rs (s.takeFree (9 * 81920)) with
      | none => .next (s.saveFault block b)
      | some s' =>
        let s' := s'.vacate block b
        match b.pendingFor with
        | none => .next s'
        | some p => .next (s'.placePending b.core p)

/-! ## BLOCK_RESTORE (R188, R371) -/

/-- The exact positions that a saved block held are free on its core, and so are its handles' numbers. -/
def State.positionsFree (s : State) (b : Block) : Bool :=
  let occ := s.occupants b.core
  let t := (s.task b.task).tcb
  let k := s.core b.core
  disjoint (s.blockUnits b) (occ.flatMap fun p => s.blockUnits p.2) &&
    disjoint (s.blockPlaces b) (occ.flatMap fun p => s.blockPlaces p.2) &&
    rangeFree 524288 b.scratchPos t.scratch (s.scratchRanges occ) &&
    rangeFree 32768 b.privPos (t.blkdim * t.priv) (s.privRanges occ) &&
    b.savedAccs.all (fun p => (k.acc p.1).owner.isNone && !(k.acc p.1).freeing) &&
    b.savedBs.all fun p => (k.b p.1).owner.isNone && !(k.b p.1).freeing
/-- The words of a list of bytes. -/
def wordsOf : Nat → List Byte → List Word
  | 0, _ => []
  | n + 1, bs => BitVec.ofNat 32 (leNat (bs.take 4)) :: wordsOf n (bs.drop 4)
/-- A table of what is not 0 in a list, keyed by f. -/
def tabOfList {α : Type} [BEq α] (zero : α) (f : Nat → Nat) (xs : List α) : Tab α :=
  ((List.range xs.length).zip xs).foldl (fun t p => if p.2 == zero then t else tabPut t (f p.1) p.2) []
/-- The registers of a gang as its units stand in the image; none where they cannot be read. -/
def State.loadRegs (s : State) (t : Task) (core : Nat) (units : List Nat) : Option (Tab Word) :=
  ((List.range units.length).zip units).foldl (fun r u => match r, s.imageRead t core (u.2 * 1024) 1024 with
    | some regs, some bs =>
      some (((List.range 256).zip (wordsOf 256 bs)).foldl (fun regs p =>
        if p.2 = 0 then regs else tabPut regs (regKey (p.1 % 32) (8 * u.1 + p.1 / 32)) p.2) regs)
    | _, _ => none) (some [])
/-- A saved block with its storage as the image holds it; none where it cannot be read. -/
def State.loadBlock (s : State) (b : Block) : Option Block :=
  let t := s.task b.task
  let n := t.tcb.blkdim * t.tcb.priv
  let scratch := s.imageRead t b.core (imgScratch + b.scratchPos) t.tcb.scratch
  let bank (m : Nat) : Option (List Byte) := s.imageRead t b.core (imgPriv + m * 32768 + b.privPos) n
  let priv := lanes32.foldl (fun r m => match r, bank m with
    | some p, some bs => some (((List.range n).zip bs).foldl (fun p x =>
        if x.2 = 0 then p else tabPut p (m * 32768 + x.1) x.2) p)
    | _, _ => none) (some [])
  let full (r : Option (List Nat)) (g : Nat) : Option (List Nat) :=
    let q := b.scratchPos / 16 + g
    match r, s.imageRead t b.core (imgFull + q / 8) 1 with
    | some gs, some bs => some (if nbit (leNat bs) (q % 8) then gs ++ [g] else gs)
    | _, _ => none
  let accs := b.savedAccs.foldl (fun r p => match r, s.imageRead t b.core (imgAcc + p.1 * 32768) 32768 with
    | some as, some bs => some (as ++ [(p.1, { p.2 with elems := tabOfList 0 id (wordsOf 8192 bs) })])
    | _, _ => none) (some ([] : Tab AccHandle))
  match scratch, priv, accs, (List.range (t.tcb.scratch / 16)).foldl full (some []) with
  | some x, some y, some a, some f => some { b with scratch := tabOfList 0 id x, priv := y, savedAccs := a, full := f }
  | _, _, _, _ => none
/-- What a restore reads of a block's image. -/
def State.restoreRanges (s : State) (b : Block) : List (Nat × Nat) :=
  let t := (s.task b.task).tcb
  let fulls := if t.scratch = 0 then [] else
    let first := b.scratchPos / 128
    [(imgFull + first, (b.scratchPos + t.scratch - 1) / 128 - first + 1)]
  [(imgScratch + b.scratchPos, t.scratch)] ++
    lanes32.map (fun m => (imgPriv + m * 32768 + b.privPos, t.blkdim * t.priv)) ++
    b.savedAccs.map (fun p => (imgAcc + p.1 * 32768, 32768)) ++ (s.blockUnits b).map (fun u => (u * 1024, 1024)) ++ fulls
/-- A gang comes back: its registers, its cohorts due anew (R189), its abandoned accesses, its parked plies (R416), and what
an ERET that came meanwhile asked for (R358). -/
def State.resumeGang (s : State) (gid : Nat) (regs : Tab Word) : State :=
  let g := s.gang gid
  let time := s.time
  let due (c : Cohort) : Cohort := { c with stamp := time }
  let g' : Gang := { g with status := .resident, lanes := { g.lanes with regs := regs }, cohorts := g.cohorts.map due }
  let again (o : Op) : Op := if o.gang = gid then { o with abandoned := false } else o
  let ops : Tab Op := s.ops.map fun p => (p.1, again p.2)
  let s := ({ s with ops := ops }.setGang gid g').unpark gid
  g.holds.foldl (fun s h => match h.marked with
    | some (rreg, rval, pc) => s.returnFrom h.token rreg rval pc
    | none => s) s
/-- BLOCK_RESTORE: the lowest saved block of the served task goes back to its positions, in a package that is up (R481). -/
def execBlockRestore (block : Nat) (s : State) : Host.Outcome State Fault Refusal :=
  let b := s.block block
  let lowest := (s.savedBlocks b.task).all fun p => b.idx ≤ p.2.idx
  if b.status != .saved || !s.isUp (s.task b.task).home || !s.isServed b.task || !lowest || !s.positionsFree b ||
      s.rangesHeld (s.task b.task) b.core (s.restoreRanges b) || s.heldCell (s.task b.task).cell then .next s
  else
    let t := s.task b.task
    let live := b.gangs.filter fun g => (s.gang g).status == .saved
    let regs := live.map fun g => (g, s.loadRegs t b.core (s.gang g).units)
    match s.loadBlock b with
    | none => .next s
    | some x =>
      if regs.any fun r => r.2.isNone then .next s
      else
        let k := s.core b.core
        let k : Core := { k with accs := x.savedAccs.foldl (fun t p => tabPut t p.1 p.2) k.accs,
                                 bs := x.savedBs.foldl (fun t p => tabPut t p.1 p.2) k.bs }
        let x : Block := { x with status := .resident, savedAccs := [], savedBs := [] }
        let s := (s.setCore b.core k).setBlock block x
        let s := regs.foldl (fun s r => s.resumeGang r.1 (r.2.getD [])) s
        .next (s.leaveQueue b.task)

end Sys2Proof.Machine
end

