-- ==== Sys2Proof/Machine/Retire.lean ====
section
/-! DEFINITION. The end of blocks and tasks (R153, R154, R157, R196, R356): BLOCK_RETIREMENT and TASK_RETIREMENT, with the
buffered records and the successors. -/

namespace Sys2Proof.Machine

/-! ## BLOCK_RETIREMENT (R153, R278) -/

/-- A block's retirement does not wait for the operation: a load, whose result no lane will read, or a HALT (R356). -/
def Op.idle (o : Op) : Bool := match o.kind with
  | .load | .ldfe _ | .bsread _ _ | .accrd _ | .halt => true
  | _ => o.once && o.accs.all (·.done)
/-- The gangs whose operations a block answers for: its own, and the guests that its lanes ran in. -/
def State.actsFor (s : State) (b : Block) (gid : Nat) : Bool :=
  b.gangs.contains gid || (s.gang gid).guests.any fun q => b.gangs.contains q.origin
/-- A store, atomic, copy, tile or remote operation of the block's lanes is outstanding. -/
def State.blockOwes (s : State) (b : Block) : Bool :=
  s.ops.any (fun p => s.actsFor b p.2.gang && !p.2.idle) ||
    (s.unacked.any fun u => match u.gang with
      | some g => s.actsFor b g
      | none => false) ||
    s.departing.any fun p => s.actsFor b p.2.src
/-- The core's handles without those of a block; its claims go too. -/
def Core.release (k : Core) (bid : Nat) : Core :=
  { k with accs := k.accs.filter fun p => p.2.owner != some bid, bs := k.bs.filter fun p => p.2.owner != some bid,
           claims := k.claims.filter fun c => c.2.1 != bid }
/-- BLOCK_RETIREMENT: the block's storage returns to its core. A saved block of a task that HALT ended goes with its
image (R372). -/
def execBlockRetirement (block : Nat) (s : State) : Host.Outcome State Fault Refusal :=
  let b := s.block block
  let live := b.status.occupies || b.status == .saved
  if !live || b.gangs.any (fun g => (s.gang g).status != .ended) || s.blockOwes b then .next s
  else
    let t := s.task b.task
    let gone (p : Nat × Op) : Bool := p.2.block == block && b.gangs.contains p.2.gang && p.2.kind != .halt
    let s := { s with ops := s.ops.filter fun p => !gone p }
    let b' : Block :=
      { b with status := .retired, scratch := [], full := [], priv := [], pendingFor := none, savedAccs := [],
               savedBs := [] }
    let s := s.setCore b.core ((s.core b.core).release block)
    .next (((s.setBlock block b').setTask b.task { t with retired := t.retired + 1 }).report t.home block false)

/-! ## Buffered records (R196) -/

/-- The key of a record, as one number. -/
def BufRec.key (b : BufRec) : Nat := ((b.block * 32 + b.gang) * 32 + b.lane) * 2 ^ 32 + b.seq
/-- One record is applied to its word as it stands; poison is left alone. -/
def State.applyRecord (s : State) (b : BufRec) : State :=
  let n := AtomTy.bytes b.ty
  if s.poisonedAt b.cell n then s
  else s.askedStore b.cell (leBytes n (atomNew b.op b.ty (s.homeNat b.cell n) b.value))
/-- Every record of the task, in ascending order of (BLOCK, GANG, LANE, SEQ). -/
def State.applyRecords (s : State) (task : Nat) : State :=
  let mine := sortBy (fun x y => decide (BufRec.key x ≤ BufRec.key y)) (s.bufs.filter fun b => b.task == task)
  mine.foldl State.applyRecord { s with bufs := s.bufs.filter fun b => b.task != task }

/-! ## Successors (R154) -/

/-- The address of successor i, or the entry that cannot be read. -/
def State.successor (s : State) (t : Task) (i : Nat) : Except Nat Nat :=
  if i < 12 then .ok (t.tcb.succ.getD i 0)
  else
    let at_ := (t.tcb.overflow + 8 * (i - 12)) % 2 ^ 64
    match s.readRange t.home t.reads at_ 8 with
    | some bs => .ok (leNat bs)
    | none => .error at_
/-- An entry of OVERFLOW lies in a channel that holds accesses (R316). -/
def State.overflowHeld (s : State) (t : Task) : Bool :=
  (List.range (t.tcb.nsucc - 12)).any fun i => s.rangeHeld t.home t.reads ((t.tcb.overflow + 8 * i) % 2 ^ 64) 8
/-- An arming of one successor, or a record that it was skipped, with SUPER not served. A home that is fenced does not translate
(R374). -/
def State.armSuccessor (s : State) (task : Nat) (t : Task) (i : Nat) : State :=
  let skip (a : Nat) : State := s.asyncFault task tcAccess 7 a false
  match s.successor t i with
  | .error a => skip a
  | .ok va =>
    if va = 0 || va % 512 != 0 then skip va
    else
      match s.translate t.home va deviceWrites with
      | .error _ => skip va
      | .ok l =>
        let p : Packet :=
          { Packet.blank with sdie := t.home, eng := engDistributor, dst := l.die, vc := 2, kind := kArm,
                              pa := l.inPacket, body := .arm va }
        if (s.barred t.home l.die).isSome then skip va else s.send p none none 0 none
/-- The walk of a successor's address waits (R316). -/
def State.successorsHeld (s : State) (t : Task) : Bool :=
  (List.range t.tcb.nsucc).any fun i => match s.successor t i with
    | .ok va => va != 0 && va % 512 == 0 && s.walkHeld t.home va
    | .error _ => false

/-! ## TASK_RETIREMENT -/

/-- The stores of a task are performed at system scope, those that its lanes made as guests of other dies among them. -/
def State.releaseTask (s : State) (task : Nat) : State :=
  let mine (p : Pending) : Bool := p.gang != 0 && (s.gang p.gang).task == task
  (s.toDie mine).toCells mine
/-- A packet of the task's gangs is unacknowledged. -/
def State.taskOwes (s : State) (task : Nat) : Bool :=
  s.unacked.any fun u => match u.gang with
    | some g => (s.gang g).task == task
    | none => false
/-- The spill fill pointer goes back to 0 for the next launch of the TCB (R150, R195). -/
def State.clearFill (s : State) (t : Task) : State :=
  if s.homeNat (devFill t.cell) 8 = 0 then s else s.homeStore (devFill t.cell) (leBytes 8 0)
/-- A pending mark is cleared, and the TCB served again (R352). -/
def State.servePending (s : State) (t : Task) : State :=
  if s.homeNat (devPending t.cell) 1 = 0 then s
  else (s.homeStore (devPending t.cell) [0]).serve t.home t.cell t.addr
/-- TASK_RETIREMENT: all blocks of a running task have retired; or those of a task that HALT ended have (R356). -/
def execTaskRetirement (task : Nat) (s : State) : Host.Outcome State Fault Refusal :=
  let t := s.task task
  let left := s.blocks.any fun p => p.2.task == task && (p.2.status.occupies || p.2.status == .saved)
  let held := s.overflowHeld t || s.successorsHeld t || s.bufs.any fun b => b.task == task && s.heldCell b.cell
  let again := s.homeNat (devPending t.cell) 1 != 0 && s.readyHeld t.home t.cell t.addr
  if left || s.taskOwes task || s.heldCell t.cell then .next s
  else if t.status == .ending then
    .next (((s.setTask task { t with status := .retired }).setTcbState t.cell 4).clearFill t)
  else if t.status != .running || t.retired < t.tcb.grid || !t.reissue.isEmpty || held || again then .next s
  else
    let s := (s.setTask task { t with status := .retired }).setTcbState t.cell 3
    let s := ((s.releaseTask task).applyRecords task).clearFill t
    let s := (List.range t.tcb.nsucc).foldl (fun s i => s.armSuccessor task t i) s
    .next (s.servePending t)

end Sys2Proof.Machine
end

