-- ==== Sys2Proof/Machine/RunStart.lean ====
section
/-! DEFINITION. RUN_START (R47 to R50): fetching a run, its start conditions, the gathering of a gang (R144, R415), the queue of
GROW requests (R156), the choice among candidates (R189, R190), and run-start traps (R49). -/

namespace Sys2Proof.Machine

/-! ## Fetch (R38, R43, R362) -/

/-- What fetching a run gives: its packets up to the one with its TRAIL, a trap, or a wait for a channel (R316, R480). -/
inductive Fetched where
  | waits
  | trap (f : Fail) (addr : Nat)
  | words (ws : List Word)
  deriving DecidableEq, Repr

/-- The rights of instruction fetch. -/
def Task.fetches (t : Task) : Need := { r := false, w := false, x := true, priv := t.privileged, encl := t.tcb.encl }
/-- One word at a virtual address, for a core; a poisoned granule traps POISON (assumption log 16). -/
def State.fetchWord (s : State) (t : Task) (core va : Nat) : Fetched :=
  match s.coreTranslate core va 4 t.fetches with
  | .error f => if f = failWait then .waits else .trap f va
  | .ok l =>
    if s.heldCell l.cell then .waits
    else if s.poisonedAt l.cell 4 then .trap (failOf tcPoison) va
    else .words [BitVec.ofNat 32 (s.readNat .die l.win l.cell 4)]
/-- The three words of a packet. -/
def State.fetchPacket (s : State) (t : Task) (core pkt : Nat) : Fetched :=
  let at_ (k : Nat) : Nat := (t.tcb.codebase + 12 * pkt + 4 * k) % 2 ^ 64
  match s.fetchWord t core (at_ 0), s.fetchWord t core (at_ 1), s.fetchWord t core (at_ 2) with
  | .words a, .words b, .words c => .words (a ++ b ++ c)
  | .trap f a, _, _ => .trap f a
  | .waits, _, _ => .waits
  | _, .trap f a, _ => .trap f a
  | _, .waits, _ => .waits
  | _, _, x => x
/-- The packets of a run from its first on, n more at most, with `ws` already there; `start` is the place of its first word
that is left. A run that reaches packet 2^30 traps ILLEGAL in its first packet and RUNLONG in a later one (DESIGN CHOICE,
assumption log 64). -/
def State.fetchRun (s : State) (t : Task) (core base start : Nat) : Nat → List Word → Fetched
  | 0, _ => .trap (failOf tcRunLong) 0
  | n + 1, ws =>
    let pkt := base + ws.length / 3
    if pkt ≥ 2 ^ 30 then .trap (failOf (if ws.isEmpty then tcIllegal else tcRunLong)) 0
    else
      match s.fetchPacket t core pkt with
      | .words p =>
        let ws := ws ++ p
        if (ws.drop start).any isTrailWord then .words ws else fetchRun s t core base start n ws
      | x => x

/-- A NOP, which stands for words that are no part of a rest. -/
def nopWord : Word := 0x00E00000
/-- The words of a rest, with NOPs in place of those before it. -/
def restWords (ws : List Word) (start : Nat) : List Word := List.replicate start nopWord ++ ws.drop start
/-- What is left of a run in progress. -/
def Run.rest (r : Run) : List Entry :=
  ((decodeFrom (restWords r.words r.pos) r.words.length 0).1).filter fun e => r.pos ≤ e.start

/-! ## Start conditions (R47)

Each takes the run as it would stand in its slot, in a context of the state before it. -/

/-- The class that a word enters (R107, R281, R421). -/
def entersClass : Instr → Cls
  | .ld .. | .ldOrdered .. | .lds .. | .ldp .. | .ldfe .. | .bsread .. | .launch .. | .accrd .. | .halt .. => .ld
  | .atom _ _ _ _ _ noret _ _ _ => if noret then .st else .ld
  | .st .. | .stOrdered .. | .sts .. | .stp .. | .stfe .. | .red .. | .fence .. | .cflush .. | .cinv .. | .bcw ..
  | .tlbinvPage .. | .tlbinvAll .. | .bookld .. | .bookldUnpin .. => .st
  | .tloadb .. | .tmma .. | .tzero .. | .tcfg .. | .tread .. | .tstore .. | .tfree .. => .tl
  | i => if sendsPackets i then .rm else .none
/-- WAIT (condition 3): in every slice, what is outstanding and what the run issues before it. -/
def State.waitOk (s : State) (gid : Nat) (slices : List Nat) (before : List Entry) (l st : BitVec 4)
    (t m : BitVec 3) : Bool :=
  let ok (c : Cls) (limit none_ : Nat) : Bool :=
    limit == none_ || slices.all fun p =>
      (s.classWords gid p c).length + (before.countP fun e => entersClass e.instr == c) ≤ limit
  ok .ld l.toNat 15 && ok .st st.toNat 15 && ok .tl t.toNat 7 && ok .rm m.toNat 7
def State.waitsOk (s : State) (gid : Nat) (slices : List Nat) : List Entry → List Entry → Bool
  | _, [] => true
  | before, e :: es =>
    (match e.instr with
      | .wait _ l st t m => s.waitOk gid slices before l st t m
      | _ => true) && s.waitsOk gid slices (before ++ [e]) es

/-- The lanes that a word whose guard is fixed at the start performs in (R17, R281, R301). -/
def Ctx.perfOf (c : Ctx) (i : Instr) : LaneSet := c.perf (guardOf i)
/-- Pops (condition 4, R17): every active lane holds the entries. -/
def Ctx.popsOk (c : Ctx) (es : List Entry) : Bool :=
  (List.range 3).all fun q =>
    let n := (es.map fun e => popsOf (usesOf e.instr) q).foldl (· + ·) 0
    n = 0 || (lanesIn c.run.act).all fun l => n ≤ c.gang.queueLen q l
/-- The entries that a word adds to a queue in each performing lane (R290, R294, R310). -/
def fillsOf (q : Nat) : Instr → Nat
  | .tread _ _ n _ => if q = 0 then n.toNat + 1 else 0
  | .bookq .. => if q = 1 then 1 else 0
  | .seal _ posts => if q = 2 && posts then 1 else 0
  | _ => 0
/-- Entries in flight towards a queue of lane l. -/
def State.inFlight (s : State) (gid q l : Nat) : Nat :=
  if q = 2 then ((s.gang gid).batches.filter fun b => b.lane == l && b.num != 0 && b.post).length
  else
    (s.ops.map fun p =>
      if p.2.gang != gid then 0
      else match p.2.kind with
        | .tread _ n _ => if q = 0 && hasLane p.2.active l then n else 0
        | .bookq _ _ _ => if q = 1 && hasLane p.2.active l then 1 else 0
        | _ => 0).foldl (· + ·) 0
/-- Room (condition 4, R17): each queue takes what the run adds, in each performing lane. -/
def State.roomOk (s : State) (c : Ctx) (es : List Entry) : Bool :=
  (List.range 3).all fun q => (lanesIn c.run.act).all fun l =>
    let n := (es.map fun e => if hasLane (c.perfOf e.instr) l then fillsOf q e.instr else 0).foldl (· + ·) 0
    n = 0 || c.gang.queueLen q l + s.inFlight c.gid q l + n ≤ queueDepth q
/-- Holds (condition 5, R45): no register that the run names awaits a result in a lane of its slices. -/
def State.holdsOk (s : State) (c : Ctx) (slices : LaneSet) (es : List Entry) : Bool :=
  let named := es.flatMap fun e => let u := usesOf e.instr; (u.reads ++ u.writes).filter (· < 112)
  s.ops.all fun p => p.2.gang != c.gid || p.2.held.isEmpty || p.2.slices &&& slices == 0 ||
    !named.any fun f => p.2.held.contains (c.run.xb + f)

/-- The granules that an LDFE reads in its performing lanes; a lane whose offset fails traps later and holds nothing back. -/
def Ctx.ldfeGranules (c : Ctx) (s : State) (i : Instr) : List Nat :=
  match i with
  | .ldfe _ sz _ _ _ a off =>
    let ok (o : Nat) : Bool := o % sz.bytes == 0 && o + sz.bytes ≤ (c.task s).tcb.scratch
    (((lanesIn (c.perfOf i)).map fun l => c.addr l a off).filter ok).foldl (fun r o => insNat r (o / 16)) []
  | _ => []
/-- LDFE (R249): its granules are full, and no other run has claimed them. -/
def State.ldfeOk (s : State) (c : Ctx) (i : Instr) : Bool :=
  (c.ldfeGranules s i).all fun g => (s.block c.gang.block).full.contains g &&
    !(s.core c.core).claims.any fun k => k.1 != c.run.id && k.2.1 == c.gang.block && k.2.2 == g
/-- AWAIT (R428): each word has reached its target; an address that fails traps when the word issues. -/
def State.awaitOk (s : State) (c : Ctx) (i : Instr) : Bool :=
  match i with
  | .await _ d a off =>
    (lanesIn (c.perfOf i)).all fun l =>
      match c.wanted s (wantRead 8) (c.addr l a off) with
      | .here f => !s.heldCell f.cell && !s.poisonedAt f.cell 8 && decide (c.rdPair l d.toNat ≤ s.homeNat f.cell 8)
      | .fails _ f => f != failWait
      | .away _ => true
  | _ => true
/-- BWAIT (R294). -/
def Ctx.bwaitOk (c : Ctx) (i : Instr) (n : Nat) : Bool :=
  (lanesIn (c.perfOf i)).all fun l => tabGet c.gang.seals 0 l ≤ n + tabGet c.gang.finished 0 l
/-- What a generation orders: the members' gangs, with the number that what each issued after its arrival begins at. -/
def State.edgesOf (s : State) (c : Ctx) (group arrival : Nat) : List (Nat × Nat) :=
  tabGet (c.task s).edges [] (edgeKey (genKey group (s.block c.gang.block).idx) arrival)
/-- The generation of an arrival has completed, and what it orders has been performed (R171, R172). -/
def State.genDone (s : State) (c : Ctx) (group arrival : Nat) : Bool :=
  decide (arrival ≤ tabGet (c.task s).gens 0 (genKey group (s.block c.gang.block).idx)) &&
    (s.edgesOf c group arrival).all fun w => s.accessesDone w.1 w.2
/-- TAKE (R179, R197): the gang holds the tempo. -/
def State.takeOk (s : State) (c : Ctx) : Bool := !(c.task s).tcb.hasTempo || s.holdsTempo c.gang
/-- RFENCE (R429): what the gang issued before the run's first attempt has been acknowledged and performed. -/
def State.rfenceOk (s : State) (c : Ctx) : Bool :=
  let mark := ((c.gang.cohort? c.run.cohort).bind (·.fenceAt)).getD s.nextId
  s.fenceDone c.gid mark && !s.ops.any fun p => p.1 < mark && p.2.gang == c.gid && p.2.cls == .rm
/-- The condition of a blocking word but for GROW (condition 6). What a guest may not execute holds nothing back: it traps
(R412). -/
def State.blockingOk (s : State) (c : Ctx) (i : Instr) : Bool :=
  match i with
  | .await .. => s.awaitOk c i
  | .rfence .. => s.rfenceOk c
  | .ldfe .. => c.isGuest || s.ldfeOk c i
  | .bwait _ n => c.isGuest || c.bwaitOk i n.toNat
  | .barWait _ g => c.isGuest || s.genDone c g.toNat (tabGet c.gang.arrivals 0 g.toNat)
  | .take _ => c.isGuest || s.takeOk c
  | _ => true

/-- Room in the core's remote unit (R380): 32 packets for each word that sends, beside those of a run in the other slot. -/
def State.remoteRoom (s : State) (core : Nat) (es : List Entry) : Bool :=
  let sends (es : List Entry) : Nat := es.countP fun e => sendsPackets e.instr
  let mine := s.unacked.countP fun u => u.pkt.sdie == dieOf core && u.pkt.eng == core % 64
  let unsent := s.ops.countP fun p => p.2.core == core && match p.2.kind with
    | .rsend .. | .armWait _ | .eretWait => true
    | _ => false
  let others := (((List.range 2).filterMap fun k => tabFind s.runs (core * 2 + k)).map fun r => sends r.rest).foldl
    (· + ·) 0
  sends es = 0 || mine + 32 * (unsent + others + sends es) ≤ 16384

/-- A deterministic block's first run (R193): every gang of the block before has issued its first. -/
def State.detOk (s : State) (g : Gang) : Bool :=
  let b := s.block g.block
  !(s.task g.task).tcb.det || g.started || !g.guests.isEmpty || b.idx = 0 ||
    match s.blocks.find? fun p => p.2.task == g.task && p.2.idx + 1 == b.idx && p.2.status != .lost with
    | some p => p.2.gangs.all fun k => (s.gang k).started
    | none => false

/-! ## GROW (R156) -/

/-- The registers that a run's GROWs add to an allotment: one that would pass the limit traps when it issues, and neither it nor
what follows it is queued. -/
def growFrom (limit least : Nat) : Nat → List Entry → Nat
  | _, [] => 0
  | a, e :: es =>
    match e.instr with
    | .grow _ n => if limit < a + n.toNat then 0 else n.toNat + growFrom limit least (a + n.toNat) es
    | .shrink _ n => if a < least + n.toNat then 0 else growFrom limit least (a - n.toNat) es
    | _ => growFrom limit least a es
def State.growOf (s : State) (g : Gang) (es : List Entry) : Nat :=
  let t := (s.task g.task).tcb
  if !g.guests.isEmpty then 0 else growFrom (Nat.min t.maxregs 512) t.regs g.allot es
/-- The units that the run lacks: what runs of the gang in progress have been granted is theirs. -/
def State.growUnits (s : State) (gid : Nat) (g : Gang) (n : Nat) : Nat :=
  let others := ((s.runs.filter fun r => r.2.gang == gid).map fun r => s.growOf g r.2.rest).foldl (· + ·) 0
  (g.allot + others + n) / 8 - g.units.length
/-- The head of the highest non-empty queue. -/
def growHead (q : List GrowReq) : Option GrowReq :=
  q.foldl (fun b r => match b with
    | some x => if x.prio < r.prio then some r else some x
    | none => some r) none
def GrowReq.is (r : GrowReq) (gid cohort : Nat) : Bool := r.gang == gid && r.cohort == cohort
/-- The request of the cohort is at the head, and the pool has its units. -/
def State.growOk (s : State) (gid cohort : Nat) (g : Gang) (n : Nat) : Bool :=
  match growHead (s.core g.core).growQ with
  | some r => r.is gid cohort && decide (s.growUnits gid g n ≤ s.freeUnits g.core)
  | none => false
/-- A first attempt to start enters the request at the tail of its queue. -/
def State.growRequest (s : State) (gid cohort : Nat) (g : Gang) (n : Nat) : State :=
  let k := s.core g.core
  if k.growQ.any fun r => r.is gid cohort then s
  else
    let r : GrowReq := { prio := (s.task g.task).tcb.prio, gang := gid, cohort := cohort, n := n }
    s.setCore g.core { k with growQ := k.growQ ++ [r] }

/-! ## A start, tested whole -/

/-- What an attempt to start a cohort's next run finds: it does not start, it traps (the cohort, why, the address, the place of
the word that the record names, and the run), or it can start with these words left. `g` is the gang as gathered. -/
inductive Start where
  | no
  | trap (g : Gang) (cohort : Nat) (f : Fail) (addr pos : Nat) (r : Run)
  | grow (g : Gang) (cohort n : Nat) (rest : Bool) (r : Run) (es : List Entry)
  | go (g : Gang) (cohort : Nat) (r : Run) (es : List Entry)
  deriving DecidableEq, Repr

/-- The cohort may attempt its next run at all: it has lanes and no slot, it is not gathered (R144), and its gang is resident,
not held (R347, R413), and not being halted (R367), in a package that is up. -/
def State.mayAttempt (s : State) (gid : Nat) (g : Gang) (cohort : Nat) : Bool :=
  let held := if g.guests.isEmpty then !g.holds.isEmpty else g.holds.any fun h => h.cohort == cohort
  g.status == .resident && s.isUp (dieOf g.core) && !held && !(g.fragsOf cohort).isEmpty && (g.cohort? cohort).any (!·.gathered) &&
    (!g.guests.isEmpty || (s.block g.block).status == .resident) &&
    !s.runs.any fun r => r.2.gang == gid && r.2.cohort == cohort
/-- The run that a cohort would start next: what is left of one, or the one at its packet; and the place of its first word. -/
def Gang.nextRun (g : Gang) (gid id : Nat) (c : Cohort) (ws : List Word) : Run × Nat :=
  match c.resume with
  | some r =>
    let L := if r.keepW then g.lanes else g.lanes.dropW (g.ownLanes c.id)
    ({ id := if r.id = 0 then id else r.id, gang := gid, cohort := c.id, base := r.base, words := ws,
       pos := wordStart ws r.pos, xb := r.xb, act := r.act, entry := L, group := L, seeded := 0 }, r.pos)
  | none =>
    let L := g.lanes.dropW (g.ownLanes c.id)
    ({ id := id, gang := gid, cohort := c.id, base := ((g.fragsOf c.id).head?.map (·.pc)).getD 0, words := ws, pos := 0,
       xb := g.xb, act := g.activeOf c.id, entry := L, group := L, seeded := 0 }, 0)
/-- The conditions of R47 but for GROW's, for a run and the words that are left of it. -/
def State.mayStart (s : State) (c : Ctx) (k : Cohort) (es : List Entry) : Bool :=
  let slices := (List.range 8).filter fun p => (c.gang.fragsOf k.id).any fun f => f.slice == p
  s.waitsOk c.gid slices [] es && (c.isGuest || (c.popsOk es && s.roomOk c es)) &&
    s.holdsOk c (c.gang.slicesOf k.id) es && (es.all fun e => s.blockingOk c e.instr) &&
    (k.barWait.all fun w => s.genDone c w.1 w.2) && s.remoteRoom c.core es && s.detOk c.gang
/-- Attempt a cohort's start. -/
def State.attempt (s : State) (gid cohort : Nat) : Start :=
  let g := s.gang gid
  let id := cohort
  if !s.mayAttempt gid g cohort then .no
  else
    match g.cohort? id with
    | none => .no
    | some k =>
      let t := s.task g.task
      let empty := g.nextRun gid s.nextId k []
      match s.fetchRun t g.core empty.1.base empty.2 8 [] with
      | .waits => .no
      | .trap f addr => .trap g id f addr empty.2 empty.1
      | .words ws =>
        let (r, first) := g.nextRun gid s.nextId k ws
        match checkRun (restWords ws r.pos) with
        | .error e => .trap g id (failOf e.code) 0 e.pos r
        | .ok all =>
          let es := all.filter fun e => first ≤ e.pos
          let c : Ctx := { slot := 0, run := r, gid := gid, gang := g }
          let n := s.growOf g es
          if n != 0 then .grow g id n (s.mayStart c k es) r es
          else if s.mayStart c k es then .go g id r es
          else .no
/-- The run that an attempt lets start now. -/
def State.ready (s : State) (gid cohort : Nat) : Option (Gang × Nat × Run × List Entry) :=
  match s.attempt gid cohort with
  | .go g id r es => some (g, id, r, es)
  | .grow g id n rest r es => if rest && s.growOk gid id g n then some (g, id, r, es) else none
  | _ => none

/-! ## The choice among candidates (R189, R190) -/

/-- Priority, stamp, launch-wide number and lowest slice of a cohort. -/
def State.rank (s : State) (g : Gang) (cohort : Nat) : Nat × Nat × Nat × Nat :=
  let stamp := ((g.cohort? cohort).map (·.stamp)).getD 0
  let number := match g.guests with
    | [] => s.launchNumber g
    | q :: qs => qs.foldl (fun n q => Nat.min n (s.launchNumber (s.gang q.origin))) (s.launchNumber (s.gang q.origin))
  ((s.task g.task).tcb.prio, stamp, number, ((g.fragsOf cohort).map (·.slice)).foldl Nat.min 8)
def rankFirst (a b : Nat × Nat × Nat × Nat) : Bool :=
  b.1 < a.1 || (a.1 == b.1 && (a.2.1 < b.2.1 || (a.2.1 == b.2.1 && (a.2.2.1 < b.2.2.1 ||
    (a.2.2.1 == b.2.2.1 && a.2.2.2 < b.2.2.2)))))
/-- A candidate of the core comes before one of the given rank. -/
def State.outranked (s : State) (core : Nat) (rank : Nat × Nat × Nat × Nat) : Bool :=
  s.gangs.any fun p => p.2.core == core && p.2.cohorts.any fun k =>
    match s.ready p.1 k.id with
    | some (g, id, _) => rankFirst (s.rank g id) rank
    | none => false

/-! ## RUN_START -/

/-- A run-start trap (R49, R347): no word issues. Of a guest gang one fragment stops (R413). -/
def State.startTrap (s : State) (gid : Nat) (g : Gang) (cohort : Nat) (f : Fail) (addr pos : Nat) (r : Run) : State :=
  let f0 := (g.fragsOf cohort).head?
  let place := (f0.map (·.slice)).getD 0
  let alone := g.guests.isEmpty || (g.fragsOf cohort).length ≤ 1
  let id := if alone then cohort else g.nextCohort
  let g' := (if alone then g else g.splitFrag cohort place).modCohort id fun x => { x with fenceAt := none }
  let org := if g.guests.isEmpty then gid else (g.ident gid (4 * place)).1
  let act := if g.guests.isEmpty then r.act else (f0.map (·.act)).getD 0
  let first := (((g.cohort? cohort).bind (·.resume)).map (·.pos)).getD 0
  let rec_ := mkRecord (s.setGang gid g') gid g' org 0xFF f addr (codePtr r.base pos) (codePtr r.base first) 0
    (g'.recordLanes act)
  let res := ((g.cohort? cohort).bind (·.resume)).map fun x => { x with act := act }
  (s.setGang gid g').hold gid id act none rec_ res
/-- The barrier generations that a run's start waits for: those of its cohort's arrivals, and those of its wait forms. -/
def barriersOf (c : Ctx) (k : Cohort) (es : List Entry) : List (Nat × Nat) :=
  k.barWait ++ es.filterMap fun e => match e.instr with
    | .barWait _ g => some (g.toNat, tabGet c.gang.arrivals 0 g.toNat)
    | _ => none
/-- The arrivals at a barrier that spans cores act at die scope: what each member's core holds reaches the die, but for copies
of core scope, and the run that is released reads none of it from an older copy; those at one within a core act at core scope (R148,
R172, R231, R232). -/
def State.meetBarrier (s : State) (core gid : Nat) (edges : List (Nat × Nat)) : State :=
  let cores := edges.map fun w => (s.gang w.1).core
  if cores.all (· == core) then s.dropNear core gid else (cores.foldl State.releaseArrival s).refresh core
/-- What the start of a run orders (R231): a barrier's arrivals; the passing of the tempo before a TAKE; the arrivals that an
AWAIT has observed; the arming before a gang's first run; at core scope what an LDFE finds full; and an RFENCE releases what its core
has stored. -/
def State.startEdges (s : State) (c : Ctx) (k : Cohort) (es : List Entry) : State :=
  let has (f : Instr → Bool) : Bool := es.any fun e => f e.instr
  let s := (barriersOf c k es).foldl (fun s w => s.meetBarrier c.core c.gid (s.edgesOf c w.1 w.2)) s
  let takes := (has fun i => match i with
    | .take _ => true
    | _ => false) && s.holdsTempo c.gang
  let s := if takes then ((c.task s).tempoWait.map fun w => (s.gang w.1).core).foldl State.releaseCore s else s
  let awaits := has fun i => match i with
    | .await .. => true
    | _ => false
  let fills := has fun i => match i with
    | .ldfe .. => true
    | _ => false
  let s := if takes || awaits || !c.gang.started then s.refresh c.core else if fills then s.dropNear c.core c.gid else s
  if has fun i => match i with
    | .rfence .. => true
    | _ => false
  then (s.releaseCore c.core).releaseDie c.die else s
/-- A run takes its slot: the claims of its LDFE words, the units of its GROWs, and what its start orders go with it. -/
def State.takeSlot (s : State) (gid slot : Nat) (g : Gang) (cohort : Nat) (r : Run) (es : List Entry) : State :=
  let c : Ctx := { slot := slot, run := r, gid := gid, gang := g }
  let n := s.growOf g es
  let k := s.core g.core
  let new := if n != 0 then (freeNumbers 512 (s.growUnits gid g n) ((s.occupants g.core).flatMap fun p =>
      s.blockUnits p.2)).getD [] else []
  let claims := if c.isGuest then [] else es.flatMap fun e => (c.ldfeGranules s e.instr).map fun x =>
    (r.id, g.block, x)
  let k : Core := { k with claims := k.claims ++ claims, growQ := k.growQ.filter fun q => !q.is gid cohort }
  let start (x : Cohort) : Cohort := { x with resume := none, barWait := [], fenceAt := none }
  let g : Gang := { g.modCohort cohort start with lanes := r.group, units := g.units ++ new }
  let s := ((s.setCore g.core k).setGang gid g).bump
  match c.gang.cohort? cohort with
  | some k => { s with runs := tabPut s.runs slot r }.startEdges c k es
  | none => { s with runs := tabPut s.runs slot r }

/-- The first attempt of a run notes where the operations begin that an RFENCE in it does not wait for (R429). -/
def State.noteAttempt (s : State) (gid cohort : Nat) : State :=
  if s.mayAttempt gid (s.gang gid) cohort then
    s.modGang gid fun g => g.modCohort cohort fun x => { x with fenceAt := some (x.fenceAt.getD s.nextId) }
  else s
/-- RUN_START: the cohort's next run starts in a free slot, if it can and no candidate comes before it; a run that cannot be
fetched or decoded traps. With both slots free the first choice takes slot 0. -/
def execRunStart (core gang cohort slot : Nat) (s : State) : Host.Outcome State Fault Refusal :=
  if (s.gang gang).core != core then .next s
  else
    let s := s.noteAttempt gang cohort
    let s := match s.attempt gang cohort with
      | .grow g id n _ _ _ => s.growRequest gang id g n
      | _ => s
    match s.attempt gang cohort with
    | .trap g id f addr pos r => .next (s.startTrap gang g id f addr pos r)
    | _ =>
      match s.ready gang cohort with
      | none => .next s
      | some (g, id, r, es) =>
        let free := slot < 2 && (tabFind s.runs (core * 2 + slot)).isNone &&
          (slot == 0 || (tabFind s.runs (core * 2)).isSome)
        if !free || s.outranked core (s.rank g id) then .next s
        else .next (s.takeSlot gang (core * 2 + slot) g id r es)

end Sys2Proof.Machine
end

