-- ==== Sys2Proof/Machine/System.lean ====
section
/-! DEFINITION. The system words (R353 to R357, R364): SVC, ERET, HALT, MOVSW and TLBINV. -/

namespace Sys2Proof.Machine

/-- SVC (R354, R351). -/
def execSvc (h : Hd) (code : BitVec 14) : State → Host.Outcome State Fault Refusal :=
  raiseWord (.svc h code) tcSvc code.toNat

/-- A word that takes an address from its leading lane; without a performing lane it has no effect (R353). -/
def leadWord (i : Instr) (a : Reg) (f : Ctx → LaneSet → Nat → Nat → State → Except Trap State) :
    State → Host.Outcome State Fault Refusal :=
  word i fun c perf s =>
    match lowestLane perf with
    | none => .ok s
    | some l => f c perf l (c.rdPair l a.toNat) s

/-- What ERET finds of half a record: alignment, access, translation, home (R355). -/
def Ctx.recordFound (c : Ctx) (s : State) (va : Nat) : Found :=
  c.found s { need := c.need s true false, align := 64, leaves := false, tempo := false, dups := false, strong := true } 64 va
/-- ERET (R355): the record is read once the equivalent of an RFENCE and a release are complete, and the resume leaves. -/
def execEret (h : Hd) (a : Reg) : State → Host.Outcome State Fault Refusal :=
  leadWord (.eret h a) a fun c perf l va s =>
    let fs : List LaneFound := [va, va + 64].map fun v => (l, v, c.recordFound s v)
    match pickFail true (failsOf fs) with
    | some t => .error t
    | none => .ok (s.issueOp c perf .eretWait .rm .acqrel .s none ((leavesOf fs).map fun p => Acc.flat l p.2.1 64 0 p.2.2))

/-- HALT (R356): the TCB's home ends the launch; D receives the old STATE. It wants of its address what ARM wants
(assumption log 13). -/
def execHalt (h : Hd) (d a : Reg) : State → Host.Outcome State Fault Refusal :=
  leadWord (.halt h d a) a fun c perf l va s =>
    let fs : List LaneFound := [(l, va, c.armFound s va)]
    match pickFail true (failsOf fs) with
    | some t => .error t
    | none =>
      .ok (s.issueOp c perf .halt .ld .rlx .s (c.dest d 4 false) ((leavesOf fs).map fun p => Acc.flat l va 4 0 p.2.2))

/-- MOVSW of LSTAT: the bits written as 1 are cleared in each performing lane (R21, R357), as they stand at the word's own turn:
flags that words in lower slots of its group have raised are cleared too, those that words in higher slots raise stay (DESIGN CHOICE,
assumption log 69). -/
def execMovswLstat (h : Hd) (src : Reg) : State → Host.Outcome State Fault Refusal :=
  word (.movswLstat h src) fun c perf s =>
    .ok (s.modGang c.gid fun g =>
      let clear (t : Tab (BitVec 6)) (l : Nat) :=
        tabPut t l (tabGet t 0 l &&& ~~~BitVec.ofNat 6 (c.rd l src.toNat 0))
      { g with lanes := { g.lanes with lstat := (lanesIn perf).foldl clear g.lanes.lstat } })
/-- A system register of a die takes a value; reserved bits read 0 (R357). -/
def Die.writeSys (d : Die) (r : SysReg) (v : Nat) : Die :=
  match r with
  | .ptroot => { d with ptroot := BitVec.ofNat 64 (v / 2 ^ 16 * 2 ^ 16 + v % 2) }
  | .defsuper => { d with defsuper := BitVec.ofNat 64 v }
  | .deffault => { d with deffault := BitVec.ofNat 64 v }
/-- MOVSW of PTROOT, DEFSUPER or DEFFAULT. -/
def execMovsw (h : Hd) (r : SysReg) (src : Reg) : State → Host.Outcome State Fault Refusal :=
  leadWord (.movsw h r src) src fun c _ _ v s => .ok (s.setDie c.die ((s.die c.die).writeSys r v))

/-- TLBINV (R364): the translations go once every access made through them has been performed. -/
def tlbinvWord (i : Instr) (all : Bool) (a : Reg) : State → Host.Outcome State Fault Refusal :=
  leadWord i a fun c perf l va s => .ok (s.issueOp c perf (.tlbinv all va) .st .rlx .s none [Acc.fence l])
def execTlbinvPage (h : Hd) (a : Reg) : State → Host.Outcome State Fault Refusal := tlbinvWord (.tlbinvPage h a) false a
def execTlbinvAll (h : Hd) : State → Host.Outcome State Fault Refusal := tlbinvWord (.tlbinvAll h) true 0

end Sys2Proof.Machine
end

