-- ==== Sys2Proof/Machine/Dispatch.lean ====
section
/-! DEFINITION. The one dispatch: each instruction of the opcode table to its meaning. -/

namespace Sys2Proof.Machine

def exec (i : Instr) (s : State) : Host.Outcome State Fault Refusal :=
  match i with
  | .nop h => Sys2Proof.Machine.execNop h s
  | .trail d a b => Sys2Proof.Machine.execTrail d a b s
  | .wait chain l src t m => Sys2Proof.Machine.execWait chain l src t m s
  | .bra guard to_ => Sys2Proof.Machine.execBra guard to_ s
  | .brx guard a => Sys2Proof.Machine.execBrx guard a s
  | .call d to_ => Sys2Proof.Machine.execCall d to_ s
  | .ret guard a => Sys2Proof.Machine.execRet guard a s
  | .join => Sys2Proof.Machine.execJoin s
  | .regang => Sys2Proof.Machine.execRegang s
  | .exit guard => Sys2Proof.Machine.execExit guard s
  | .yield => Sys2Proof.Machine.execYield s
  | .trap h code => Sys2Proof.Machine.execTrap h code s
  | .brk h code => Sys2Proof.Machine.execBrk h code s
  | .add h ty sat d a b => Sys2Proof.Machine.execAdd h ty sat d a b s
  | .sub h ty sat d a b => Sys2Proof.Machine.execSub h ty sat d a b s
  | .addc h ty ps d a b => Sys2Proof.Machine.execAddc h ty ps d a b s
  | .subb h ty ps d a b => Sys2Proof.Machine.execSubb h ty ps d a b s
  | .mul h ty d a b => Sys2Proof.Machine.execMul h ty d a b s
  | .mulh h ty d a b => Sys2Proof.Machine.execMulh h ty d a b s
  | .mad h ty d a b => Sys2Proof.Machine.execMad h ty d a b s
  | .div h ty d a b => Sys2Proof.Machine.execDiv h ty d a b s
  | .rem h ty d a b => Sys2Proof.Machine.execRem h ty d a b s
  | .min h ty d a b => Sys2Proof.Machine.execMin h ty d a b s
  | .max h ty d a b => Sys2Proof.Machine.execMax h ty d a b s
  | .and h ty d a b => Sys2Proof.Machine.execAnd h ty d a b s
  | .or h ty d a b => Sys2Proof.Machine.execOr h ty d a b s
  | .xor h ty d a b => Sys2Proof.Machine.execXor h ty d a b s
  | .andn h ty d a b => Sys2Proof.Machine.execAndn h ty d a b s
  | .orn h ty d a b => Sys2Proof.Machine.execOrn h ty d a b s
  | .shl h ty d a b => Sys2Proof.Machine.execShl h ty d a b s
  | .shr h ty d a b => Sys2Proof.Machine.execShr h ty d a b s
  | .sar h ty d a b => Sys2Proof.Machine.execSar h ty d a b s
  | .rot h ty d a b => Sys2Proof.Machine.execRot h ty d a b s
  | .bfx h ty d a b => Sys2Proof.Machine.execBfx h ty d a b s
  | .bfi h ty d a b => Sys2Proof.Machine.execBfi h ty d a b s
  | .mov h ty d a => Sys2Proof.Machine.execMov h ty d a s
  | .neg h ty sat d a => Sys2Proof.Machine.execNeg h ty sat d a s
  | .abs h ty sat d a => Sys2Proof.Machine.execAbs h ty sat d a s
  | .popc h ty d a => Sys2Proof.Machine.execPopc h ty d a s
  | .clz h ty d a => Sys2Proof.Machine.execClz h ty d a s
  | .ctz h ty d a => Sys2Proof.Machine.execCtz h ty d a s
  | .brev h ty d a => Sys2Proof.Machine.execBrev h ty d a s
  | .perm h sel d a b => Sys2Proof.Machine.execPerm h sel d a b s
  | .sel h ty ps d a b => Sys2Proof.Machine.execSel h ty ps d a b s
  | .movi h ty d im => Sys2Proof.Machine.execMovi h ty d im s
  | .movh h d im => Sys2Proof.Machine.execMovh h d im s
  | .lea h scale z d a b => Sys2Proof.Machine.execLea h scale z d a b s
  | .cmp h cond ty pd a b => Sys2Proof.Machine.execCmp h cond ty pd a b s
  | .plog h lut pd pa pb => Sys2Proof.Machine.execPlog h lut pd pa pb s
  | .movs h d r => Sys2Proof.Machine.execMovs h d r s
  | .setxb h a => Sys2Proof.Machine.execSetxb h a s
  | .pmovToReg h d => Sys2Proof.Machine.execPmovToReg h d s
  | .pmovToPreds h mask a => Sys2Proof.Machine.execPmovToPreds h mask a s
  | .bsload h a => Sys2Proof.Machine.execBsload h a s
  | .bsread h sx d k => Sys2Proof.Machine.execBsread h sx d k s
  | .ld h sz sx d a off => Sys2Proof.Machine.execLd h sz sx d a off s
  | .st h sz d a off => Sys2Proof.Machine.execSt h sz d a off s
  | .fadd h ft rm d a b => Sys2Proof.Machine.execFadd h ft rm d a b s
  | .fsub h ft rm d a b => Sys2Proof.Machine.execFsub h ft rm d a b s
  | .fmul h ft rm d a b => Sys2Proof.Machine.execFmul h ft rm d a b s
  | .fma h ft rm d a b => Sys2Proof.Machine.execFma h ft rm d a b s
  | .fma2 h ft rm d a b => Sys2Proof.Machine.execFma2 h ft rm d a b s
  | .fmin h ft d a b => Sys2Proof.Machine.execFmin h ft d a b s
  | .fmax h ft d a b => Sys2Proof.Machine.execFmax h ft d a b s
  | .fcmp h cond ft pd a b => Sys2Proof.Machine.execFcmp h cond ft pd a b s
  | .fdiv h ft rm d a b => Sys2Proof.Machine.execFdiv h ft rm d a b s
  | .fsqrt h ft rm d a => Sys2Proof.Machine.execFsqrt h ft rm d a s
  | .frcp h ft rm d a => Sys2Proof.Machine.execFrcp h ft rm d a s
  | .frsq h ft d a => Sys2Proof.Machine.execFrsq h ft d a s
  | .fexp2 h ft d a => Sys2Proof.Machine.execFexp2 h ft d a s
  | .flog2 h ft d a => Sys2Proof.Machine.execFlog2 h ft d a s
  | .fsin h ft d a => Sys2Proof.Machine.execFsin h ft d a s
  | .fcos h ft d a => Sys2Proof.Machine.execFcos h ft d a s
  | .ftanh h ft d a => Sys2Proof.Machine.execFtanh h ft d a s
  | .fclass h ft d a => Sys2Proof.Machine.execFclass h ft d a s
  | .cvt h dst src rm sat int d a => Sys2Proof.Machine.execCvt h dst src rm sat int d a s
  | .cvtsr h dst src d a => Sys2Proof.Machine.execCvtsr h dst src d a s
  | .pack h nf sr rm half j d a b => Sys2Proof.Machine.execPack h nf sr rm half j d a b s
  | .unpack h nf half ix d a => Sys2Proof.Machine.execUnpack h nf half ix d a s
  | .dot4 h fmt alt half sc d a b => Sys2Proof.Machine.execDot4 h fmt alt half sc d a b s
  | .dot6 h fmt alt half sc d a b => Sys2Proof.Machine.execDot6 h fmt alt half sc d a b s
  | .dot8 h fmt alt half sc d a b => Sys2Proof.Machine.execDot8 h fmt alt half sc d a b s
  | .scale h ft rm map sr inv sel d a => Sys2Proof.Machine.execScale h ft rm map sr inv sel d a s
  | .rndseed h a => Sys2Proof.Machine.execRndseed h a s
  | .rnd h kind d => Sys2Proof.Machine.execRnd h kind d s
  | .shfl h mode w x64 d a b => Sys2Proof.Machine.execShfl h mode w x64 d a b s
  | .push h x64 d a b => Sys2Proof.Machine.execPush h x64 d a b s
  | .bfly h x64 k d a => Sys2Proof.Machine.execBfly h x64 k d a s
  | .vote h mode d pa => Sys2Proof.Machine.execVote h mode d pa s
  | .matchLanes h x64 d a => Sys2Proof.Machine.execMatchLanes h x64 d a s
  | .redx h op ty w d a => Sys2Proof.Machine.execRedx h op ty w d a s
  | .scanx h op ty excl w d a => Sys2Proof.Machine.execScanx h op ty excl w d a s
  | .barSync chain g => Sys2Proof.Machine.execBarSync chain g s
  | .barArrive chain g => Sys2Proof.Machine.execBarArrive chain g s
  | .barWait chain g => Sys2Proof.Machine.execBarWait chain g s
  | .grow chain n => Sys2Proof.Machine.execGrow chain n s
  | .shrink chain n => Sys2Proof.Machine.execShrink chain n s
  | .launch h d a b => Sys2Proof.Machine.execLaunch h d a b s
  | .arm h a => Sys2Proof.Machine.execArm h a s
  | .take chain => Sys2Proof.Machine.execTake chain s
  | .pass chain => Sys2Proof.Machine.execPass chain s
  | .rxwin chain n d base => Sys2Proof.Machine.execRxwin chain n d base s
  | .ldOrdered h sz sx acq scope d a off => Sys2Proof.Machine.execLdOrdered h sz sx acq scope d a off s
  | .stOrdered h sz rel scope d a off => Sys2Proof.Machine.execStOrdered h sz rel scope d a off s
  | .lds h sz sx d a off => Sys2Proof.Machine.execLds h sz sx d a off s
  | .sts h sz d a off => Sys2Proof.Machine.execSts h sz d a off s
  | .ldp h sz sx d a off => Sys2Proof.Machine.execLdp h sz sx d a off s
  | .stp h sz d a off => Sys2Proof.Machine.execStp h sz d a off s
  | .ldfe h sz sx clear d a off => Sys2Proof.Machine.execLdfe h sz sx clear d a off s
  | .stfe h d a off => Sys2Proof.Machine.execStfe h d a off s
  | .atom h op ty ord scope noret d a off => Sys2Proof.Machine.execAtom h op ty ord scope noret d a off s
  | .red h op ty rel scope d a off => Sys2Proof.Machine.execRed h op ty rel scope d a off s
  | .fence h ord scope als => Sys2Proof.Machine.execFence h ord scope als s
  | .cflush h die a off => Sys2Proof.Machine.execCflush h die a off s
  | .cinv h die a off => Sys2Proof.Machine.execCinv h die a off s
  | .pref h l2 a off => Sys2Proof.Machine.execPref h l2 a off s
  | .talloc h isB any n d => Sys2Proof.Machine.execTalloc h isB any n d s
  | .tfree h isB n => Sys2Proof.Machine.execTfree h isB n s
  | .tloadb h fmt orientT sparse bh a off => Sys2Proof.Machine.execTloadb h fmt orientT sparse bh a off s
  | .tmma h tri af bh acc ro so c => Sys2Proof.Machine.execTmma h tri af bh acc ro so c s
  | .tzero h acc => Sys2Proof.Machine.execTzero h acc s
  | .tcfg h sr reseed acc a => Sys2Proof.Machine.execTcfg h sr reseed acc a s
  | .tread h acc n a => Sys2Proof.Machine.execTread h acc n a s
  | .tstore h tf scope sr acc a off => Sys2Proof.Machine.execTstore h tf scope sr acc a off s
  | .cpy h sz scope d a off => Sys2Proof.Machine.execCpy h sz scope d a off s
  | .cpyt h scope ind ks kf kd od of_ os => Sys2Proof.Machine.execCpyt h scope ind ks kf kd od of_ os s
  | .lrec h k a off => Sys2Proof.Machine.execLrec h k a off s
  | .seal h q => Sys2Proof.Machine.execSeal h q s
  | .bwait h n => Sys2Proof.Machine.execBwait h n s
  | .bookld h e16 a off => Sys2Proof.Machine.execBookld h e16 a off s
  | .bookldUnpin h a off => Sys2Proof.Machine.execBookldUnpin h a off s
  | .bookq h e16 a b => Sys2Proof.Machine.execBookq h e16 a b s
  | .ired h kt ko acc bag d a off => Sys2Proof.Machine.execIred h kt ko acc bag d a off s
  | .bcw h sz d a off => Sys2Proof.Machine.execBcw h sz d a off s
  | .radd h ty vc d a off => Sys2Proof.Machine.execRadd h ty vc d a off s
  | .rmin h ty vc d a off => Sys2Proof.Machine.execRmin h ty vc d a off s
  | .rmax h ty vc d a off => Sys2Proof.Machine.execRmax h ty vc d a off s
  | .ror h b64 vc d a off => Sys2Proof.Machine.execRor h b64 vc d a off s
  | .rwo h n vc d a off => Sys2Proof.Machine.execRwo h n vc d a off s
  | .rarv h vc d a off => Sys2Proof.Machine.execRarv h vc d a off s
  | .rget h n rx vc d a off => Sys2Proof.Machine.execRget h n rx vc d a off s
  | .await h d a off => Sys2Proof.Machine.execAwait h d a off s
  | .rfence chain d => Sys2Proof.Machine.execRfence chain d s
  | .accrd h bf16 d a off => Sys2Proof.Machine.execAccrd h bf16 d a off s
  | .accclr h vc a off => Sys2Proof.Machine.execAccclr h vc a off s
  | .mig h d => Sys2Proof.Machine.execMig h d s
  | .home => Sys2Proof.Machine.execHome s
  | .coll h n arv rx vc d a off => Sys2Proof.Machine.execColl h n arv rx vc d a off s
  | .svc h code => Sys2Proof.Machine.execSvc h code s
  | .eret h a => Sys2Proof.Machine.execEret h a s
  | .halt h d a => Sys2Proof.Machine.execHalt h d a s
  | .movswLstat h src => Sys2Proof.Machine.execMovswLstat h src s
  | .movswChkey h src => Sys2Proof.Machine.execMovswChkey h src s
  | .movswChmode h src => Sys2Proof.Machine.execMovswChmode h src s
  | .movswChconf h src => Sys2Proof.Machine.execMovswChconf h src s
  | .movsw h r src => Sys2Proof.Machine.execMovsw h r src s
  | .tlbinvPage h a => Sys2Proof.Machine.execTlbinvPage h a s
  | .tlbinvAll h => Sys2Proof.Machine.execTlbinvAll h s
  | .runStart core gang cohort slot => Sys2Proof.Machine.execRunStart core gang cohort slot s
  | .longLatencyWrite op => Sys2Proof.Machine.execLongLatencyWrite op s
  | .accessPerformed op lane => Sys2Proof.Machine.execAccessPerformed op lane s
  | .faultRecordDelivery rcd => Sys2Proof.Machine.execFaultRecordDelivery rcd s
  | .blockPlacement die rook => Sys2Proof.Machine.execBlockPlacement die rook s
  | .blockHalted block => Sys2Proof.Machine.execBlockHalted block s
  | .gangSave gang => Sys2Proof.Machine.execGangSave gang s
  | .blockSaveComplete block => Sys2Proof.Machine.execBlockSaveComplete block s
  | .blockRestore block => Sys2Proof.Machine.execBlockRestore block s
  | .blockRetirement block => Sys2Proof.Machine.execBlockRetirement block s
  | .taskRetirement task => Sys2Proof.Machine.execTaskRetirement task s
  | .bufferedRecordArrival rcd => Sys2Proof.Machine.execBufferedRecordArrival rcd s
  | .matrixPassBegin core macro_ => Sys2Proof.Machine.execMatrixPassBegin core macro_ s
  | .matrixPassComplete core macro_ => Sys2Proof.Machine.execMatrixPassComplete core macro_ s
  | .tloadbBegin op => Sys2Proof.Machine.execTloadbBegin op s
  | .tloadbFinish op => Sys2Proof.Machine.execTloadbFinish op s
  | .tzeroEffect op => Sys2Proof.Machine.execTzeroEffect op s
  | .tcfgEffect op => Sys2Proof.Machine.execTcfgEffect op s
  | .treadDelivery op => Sys2Proof.Machine.execTreadDelivery op s
  | .tstorePerform op => Sys2Proof.Machine.execTstorePerform op s
  | .handleFreed op => Sys2Proof.Machine.execHandleFreed op s
  | .lrecRead op => Sys2Proof.Machine.execLrecRead op s
  | .cpyCompletion op => Sys2Proof.Machine.execCpyCompletion op s
  | .cpytExecution op => Sys2Proof.Machine.execCpytExecution op s
  | .batchFinish gang lane => Sys2Proof.Machine.execBatchFinish gang lane s
  | .iredCommand op => Sys2Proof.Machine.execIredCommand op s
  | .bookPin op lane => Sys2Proof.Machine.execBookPin op lane s
  | .bookQuery op => Sys2Proof.Machine.execBookQuery op s
  | .columnAccess op lane => Sys2Proof.Machine.execColumnAccess op lane s
  | .promotionEntry die ch => Sys2Proof.Machine.execPromotionEntry die ch s
  | .promotionExit die ch => Sys2Proof.Machine.execPromotionExit die ch s
  | .selfRefreshEntry die ch => Sys2Proof.Machine.execSelfRefreshEntry die ch s
  | .selfRefreshExit die ch => Sys2Proof.Machine.execSelfRefreshExit die ch s
  | .powerDownRequest die ch => Sys2Proof.Machine.execPowerDownRequest die ch s
  | .retransmission die eng => Sys2Proof.Machine.execRetransmission die eng s
  | .raddPacket n => Sys2Proof.Machine.execRaddPacket n s
  | .rminPacket n => Sys2Proof.Machine.execRminPacket n s
  | .rmaxPacket n => Sys2Proof.Machine.execRmaxPacket n s
  | .rorPacket n => Sys2Proof.Machine.execRorPacket n s
  | .rwoPacket n => Sys2Proof.Machine.execRwoPacket n s
  | .rarvPacket n => Sys2Proof.Machine.execRarvPacket n s
  | .rgetPacket n => Sys2Proof.Machine.execRgetPacket n s
  | .replyPacket n => Sys2Proof.Machine.execReplyPacket n s
  | .rgetArrivalSend job => Sys2Proof.Machine.execRgetArrivalSend job s
  | .ackPacket n => Sys2Proof.Machine.execAckPacket n s
  | .armingPacket n => Sys2Proof.Machine.execArmingPacket n s
  | .accclrPacket n => Sys2Proof.Machine.execAccclrPacket n s
  | .resumePacket n => Sys2Proof.Machine.execResumePacket n s
  | .collPacket n => Sys2Proof.Machine.execCollPacket n s
  | .plyDeparture ply => Sys2Proof.Machine.execPlyDeparture ply s
  | .plyPacket n => Sys2Proof.Machine.execPlyPacket n s
  | .refusedPlyArrival n => Sys2Proof.Machine.execRefusedPlyArrival n s
  | .returnPlyArrival n => Sys2Proof.Machine.execReturnPlyArrival n s
  | .guestGangFormation core => Sys2Proof.Machine.execGuestGangFormation core s
  | .fenceNotice n => Sys2Proof.Machine.execFenceNotice n s
  | .unitFence pkg unit => Sys2Proof.Machine.execUnitFence pkg unit s
  | .hdmAccess pkg link die pa len write => Sys2Proof.Machine.execHdmAccess pkg link die pa len write s
  | .armwin die link size value => Sys2Proof.Machine.execArmwin die link size value s
  | .armstat die size value => Sys2Proof.Machine.execArmstat die size value s
  | .devstat die size value => Sys2Proof.Machine.execDevstat die size value s
  | .woconf die size value => Sys2Proof.Machine.execWoconf die size value s
  | .configRegisterWrite die offset size value => Sys2Proof.Machine.execConfigRegisterWrite die offset size value s
  | .getid pkg link => Sys2Proof.Machine.execGetid pkg link s
  | .attest pkg link nonce => Sys2Proof.Machine.execAttest pkg link nonce s
  | .extend pkg link mr data => Sys2Proof.Machine.execExtend pkg link mr data s
  | .kemkey pkg link => Sys2Proof.Machine.execKemkey pkg link s
  | .form pkg link body => Sys2Proof.Machine.execForm pkg link body s
  | .revoke pkg link gen part sigs => Sys2Proof.Machine.execRevoke pkg link gen part sigs s
  | .dissolve pkg link gen sigs => Sys2Proof.Machine.execDissolve pkg link gen sigs s
  | .status pkg link => Sys2Proof.Machine.execStatus pkg link s
  | .startUp pkg report => Sys2Proof.Machine.execStartUp pkg report s
  | .railLimiterTrip die island => Sys2Proof.Machine.execRailLimiterTrip die island s
  | .thermalThrottle pkg die => Sys2Proof.Machine.execThermalThrottle pkg die s
  | .thermalRecovery pkg die => Sys2Proof.Machine.execThermalRecovery pkg die s
  | .thermalShutdown pkg => Sys2Proof.Machine.execThermalShutdown pkg s
  | .cyclesAdvance die => Sys2Proof.Machine.execCyclesAdvance die s
  | .powerDownExit die ch => Sys2Proof.Machine.execPowerDownExit die ch s

end Sys2Proof.Machine
end

