-- ==== Sys2Proof/Machine/Issue.lean ====
section
/-! DEFINITION. What a step does before and around exec: a run issues its next word (R41, R48), or something of the fabric, the
caches or the TLBs happens, or an event; and the order the model takes where no schedule names one. -/

namespace Sys2Proof.Machine

/-! ## A word issues (R39 to R41, R48) -/

/-- The words that are left of the packet a run stands in. -/
def Run.left (r : Run) : List Word := (r.words.drop r.pos).take (3 - r.pos % 3)
/-- The run's next word begins an issue group: it is the first of its packet, or the word before it does not chain (R39). -/
def Run.groupStarts (r : Run) : Bool :=
  r.pos % 3 == 0 || match r.words[r.pos - 1]? with
    | some w => !w.getLsbD 31
    | none => true
/-- The run as its next issue group starts: the group reads the lanes as it finds them now (R41). -/
def Run.atGroup (r : Run) (g : Gang) : Run := { r with group := g.lanes, seeded := 0 }
/-- The run past its next word, which is n words long with its prefixes. A group whose c-cycle another run shares has read the
lanes already (R159). -/
def Run.past (r : Run) (g : Gang) (n : Nat) : Run :=
  let r' := if r.groupStarts && !r.paired then r.atGroup g else r
  { r' with pos := r.pos + n, paired := false, stalled := false }
/-- The run has issued some words of a group and not yet the others, or has read for a group that it has not begun. -/
def Run.inGroup (r : Run) : Bool := r.paired || (!r.groupStarts && !r.stalled)
/-- A group of the run may begin: none of another run of its gang is in progress. Groups follow each other whole, so that what a
group reads of other lanes comes before all of another's writes or after them all (R41, R159). -/
def State.mayIssue (s : State) (slot : Nat) (r : Run) : Bool :=
  !r.groupStarts || r.paired || s.runs.all fun p => p.1 == slot || p.2.gang != r.gang || !p.2.inGroup
/-- The runs of a gang issue their next groups in one c-cycle: each reads before any of them writes (R159). -/
def State.pairRuns (s : State) (gang : Nat) : State :=
  let mine (p : Nat × Run) : Bool := p.2.gang == gang
  if s.runs.any fun p => mine p && (p.2.paired || !p.2.groupStarts) then s
  else { s with runs := s.runs.map fun p => if mine p then (p.1, { p.2.atGroup (s.gang gang) with paired := true }) else p }
/-- The state in which the run of a slot issues a word of n words. -/
def State.issuing (s : State) (slot : Nat) (r : Run) (n : Nat) : State :=
  { s with runs := tabPut s.runs slot (r.past (s.gang r.gang) n), focus := some slot }
/-- No slot is the one that issues. -/
def State.unfocus (s : State) : State := { s with focus := none }
/-- A word that does not decode traps ILLEGAL as it would have at the run's start (R50). -/
def State.illegalWord (s : State) (slot : Nat) (r : Run) : State :=
  let t := s.issuing slot r 1
  match t.issuer with
  | some c => t.takeTrap c c.run.act (Trap.of (failOf tcIllegal) (lowestLane c.run.act) 0)
  | none => s
/-- The run in a slot issues its next word. -/
def State.issue (s : State) (slot : Nat) : Host.Outcome State Fault Refusal :=
  match tabFind s.runs slot with
  | none => .next s
  | some r =>
    if (tabFind s.gangs r.gang).isNone then .next { s with runs := tabDel s.runs slot }
    else if !s.mayIssue slot r then .next s
    else
      match decodeWords r.left with
      | .error _ => .next (s.illegalWord slot r)
      | .ok (i, rest) => exec i (s.issuing slot r (r.left.length - rest.length))

/-! ## Happenings that are no instruction -/

/-- A packet or an acknowledgement is lost (R376, R383). -/
def State.loseAt (s : State) (n : Nat) : State :=
  if n < s.flight.length then { s with flight := s.flight.eraseIdx n }
  else { s with acks := s.acks.eraseIdx (n - s.flight.length) }
/-- Entries join a TLB of so many places, the new ones first; the oldest give way. -/
def keepEntries (room : Nat) (old new : List TlbEntry) : List TlbEntry :=
  (new.filter (fun e => !old.any fun t => t.level == e.level && t.va == e.va) ++ old).take room
/-- What a walk on a die reads and a TLB may keep. -/
def State.walkRead (s : State) (die va : Nat) : List TlbEntry :=
  let root := (s.die die).ptroot.toNat
  if nbit root 0 then s.walkEntries die va 3 1 (nbits root 63 16 * 2 ^ 16) else []
/-- The die caches what a walk reads (R363). -/
def State.tlbFill (s : State) (die va : Nat) : State :=
  let d := s.die die
  s.setDie die { d with tlb := keepEntries dieTlbEntries d.tlb (s.walkRead die va) }
/-- A core caches the leaf that a walk on its die finds: a page of 64 KiB among one sort of its entries, a larger one among the
other (R363). -/
def State.coreTlbFill (s : State) (core va : Nat) : State :=
  let k := s.core core
  let new := (s.walkRead (dieOf core) va).filter fun e => nbit e.entry 1
  let small (e : TlbEntry) : Bool := e.level == 3
  let kept := keepEntries coreTlbSmall (k.tlb.filter small) (new.filter small) ++
    keepEntries coreTlbLarge (k.tlb.filter fun e => !small e) (new.filter fun e => !small e)
  s.setCore core { k with tlb := kept }
/-- The die drops a cached translation. -/
def State.tlbEvict (s : State) (die n : Nat) : State :=
  s.setDie die { s.die die with tlb := (s.die die).tlb.eraseIdx n }
/-- The core drops one. -/
def State.coreTlbEvict (s : State) (core n : Nat) : State :=
  s.setCore core { s.core core with tlb := (s.core core).tlb.eraseIdx n }
/-- An L1, or where no core is named the L2 of a die, drops a clean sector. -/
def State.evictSector (s : State) (core : Option Nat) (die n : Nat) : State :=
  match core with
  | some c => s.setCore c { s.core c with l1 := (s.core c).l1.eraseIdx n }
  | none => s.setDie die { s.die die with l2 := (s.die die).l2.eraseIdx n }
/-- The sector of an address whose page is homed on a die comes into the die's L2, or into a core's L1, beside those that loads
bring there, where the page's policy lets it (R209). -/
def State.prefetch (s : State) (core : Option Nat) (die va : Nat) : State :=
  let die := (core.map dieOf).getD die
  match s.lookup die va with
  | .error _ => s
  | .ok l =>
    if l.die != die || s.inStep l.cell || s.heldCell l.cell || s.cellFenced l.cell then s
    else s.fillFor core (s.policyAt l.cache l.cell) l.win l.cell 1
/-- A gang keeps the sector of an address as its core sees it, where the page lets the L1 hold it (R221, R222). -/
def State.keepAt (s : State) (gang va : Nat) : State :=
  let core := (s.gang gang).core
  match s.lookup (dieOf core) va with
  | .error _ => s
  | .ok l =>
    if l.die != dieOf core || s.inStep l.cell || s.policyAt l.cache l.cell != 0 then s
    else s.keepSector core gang l.win (l.cell / 128)
/-- A held access, command or packet arrives at its channel (R315); a packet by its place in the fabric. -/
def State.arriveHeld (s : State) (op lane : Nat) : State :=
  if op != 0 then s.arriveOp op lane
  else match s.flight[lane]? with
    | some p => if s.packetHeld p then s.packetArrives p else s
    | none => s
/-- The junction of a package falls to 95 °C: a start-up no longer fails for it (R481). -/
def State.cool (s : State) (pkg : Nat) : State := s.setPkg pkg { s.pkg pkg with hot := false }
/-- A lane's store is seen by its gang before its core has it (R221). -/
def State.seenEarly (s : State) (op lane : Nat) : State :=
  match tabFind s.ops op with
  | none => s
  | some o =>
    match o.nextAcc lane with
    | none => s
    | some (k, a) => if !o.abandoned && s.accReady op o a && !s.accHeld op o a then s.storeEarly op o k a else s
/-- What the environment of the cores does. -/
def State.happen (s : State) : Env → State
  | .drain n => s.drainAt n
  | .early op lane => s.seenEarly op lane
  | .appear n core => s.showTo n core
  | .fill core die va => s.prefetch core die va
  | .keep gang va => s.keepAt gang va
  | .spread block => s.setBlock block { s.block block with unseen := [] }
  | .evict core die n => s.evictSector core die n
  | .lose n => s.loseAt n
  | .tlbFill die va => s.tlbFill die va
  | .tlbEvict die n => s.tlbEvict die n
  | .coreTlbFill core va => s.coreTlbFill core va
  | .coreTlbEvict core n => s.coreTlbEvict core n
  | .element op n => s.doElement op n
  | .unitFirst n k => s.serveFirst n k
  | .unitNext n k => s.serveUnit n k
  | .report n => s.deliverReport n
  | .arrive op lane => s.arriveHeld op lane
  | .pair gang => s.pairRuns gang
  | .cool pkg => s.cool pkg

/-! ## The model's own order -/

/-- The events that a die's state may be ready for. -/
def dieEvents (p : Nat × Die) : List Instr :=
  [Instr.blockPlacement p.1 false, .blockPlacement p.1 true] ++
    (p.2.channels.flatMap fun c => [Instr.promotionEntry p.1 c.1, .promotionExit p.1 c.1])
/-- The events that a gang may be ready for. -/
def gangEvents (p : Nat × Gang) : List Instr :=
  [Instr.gangSave p.1] ++ (p.2.batches.map fun b => Instr.batchFinish p.1 b.lane) ++
    p.2.cohorts.flatMap fun c => [Instr.runStart p.2.core p.1 c.id 0, .runStart p.2.core p.1 c.id 1]
/-- The events of a block. -/
def blockEvents (n : Nat) : List Instr := [.blockHalted n, .blockSaveComplete n, .blockRestore n, .blockRetirement n]
/-- The event by which an outstanding operation goes on. -/
def opEvents (p : Nat × Op) : List Instr := match p.2.kind with
  | .tloadb .. => [.tloadbBegin p.1, .tloadbFinish p.1]
  | .tzero _ => [.tzeroEffect p.1]
  | .tcfg .. => [.tcfgEffect p.1]
  | .tread .. => [.treadDelivery p.1]
  | .tstore .. => [.tstorePerform p.1]
  | .tfree .. => [.handleFreed p.1]
  | .lrec .. => [.lrecRead p.1]
  | .cpy .. => [.cpyCompletion p.1]
  | .cpyt .. => [.cpytExecution p.1]
  | .ired .. => [.iredCommand p.1]
  | .bookq .. => [.bookQuery p.1]
  | .bookPin .. => (p.2.accs.filter fun a => !a.done).map fun a => .bookPin p.1 a.lane
  | _ => (p.2.accs.filter fun a => !a.done).flatMap (fun a => [Instr.accessPerformed p.1 a.lane, .columnAccess p.1 a.lane]) ++
      [.longLatencyWrite p.1]
/-- The event that a packet is for. -/
def packetEvents (n : Nat) (p : Packet) : List Instr :=
  [.raddPacket n, .rminPacket n, .rmaxPacket n, .rorPacket n, .rwoPacket n, .rarvPacket n, .rgetPacket n, .replyPacket n,
    .armingPacket n, .accclrPacket n, .resumePacket n, .collPacket n, .plyPacket n, .refusedPlyArrival n,
    .returnPlyArrival n, .fenceNotice n].filter fun i => match i with
      | .raddPacket _ => p.kind == kRadd
      | .rminPacket _ => p.kind == kRmin
      | .rmaxPacket _ => p.kind == kRmax
      | .rorPacket _ => p.kind == kRor
      | .rwoPacket _ => p.kind == kRwo
      | .rarvPacket _ => p.kind == kRarv
      | .rgetPacket _ => p.kind == kRget
      | .replyPacket _ => p.kind == kReply
      | .armingPacket _ => p.kind == kArm
      | .accclrPacket _ => p.kind == kAccclr
      | .resumePacket _ => p.kind == kResume
      | .collPacket _ => p.kind == kColl
      | .fenceNotice _ => p.kind == kNotice
      | _ => p.kind == kPly
def unsentEvents (s : State) : List Instr :=
  (s.unacked.filter fun u => !u.sent).map fun u => .retransmission u.pkt.sdie u.pkt.eng
/-- A packet that has gone out, and of which neither it nor an acknowledgement is on its way, goes out again (R382). -/
def State.resends (s : State) : List Instr :=
  (s.unacked.filter fun u => u.sent && !(s.flight.any fun p => p.stream == u.pkt.stream && p.seq == u.pkt.seq) &&
    !(s.acks.any fun a => a.names u.pkt)).map fun u => .retransmission u.pkt.sdie u.pkt.eng
/-- A list from place n on, round to the place before. -/
def turned {α : Type} (n : Nat) (l : List α) : List α := l.drop (n % l.length) ++ l.take (n % l.length)
/-- The events by which what is outstanding goes on, the oldest operation first. -/
def State.opWork (s : State) : List Instr :=
  s.ops.flatMap opEvents ++ (List.range s.bufs.length).map fun n => .bufferedRecordArrival n
/-- The events of the fabric, n events into their round. -/
def State.fabricWork (s : State) (n : Nat) : List Instr :=
  turned n (((List.range s.flight.length).zip s.flight).flatMap (fun p => packetEvents p.1 p.2) ++
    (List.range s.acks.length).map (fun n => Instr.ackPacket n) ++ s.jobs.map (fun p => .rgetArrivalSend p.1) ++
    unsentEvents s ++ s.departing.map (fun p => .plyDeparture p.1) ++ s.faults.map (fun p => .faultRecordDelivery p.1)) ++ s.resends
/-- The events of gangs, n gangs into their round. -/
def State.gangWork (s : State) (n : Nat) : List Instr :=
  turned n ((s.gangs.filter fun p => p.2.status != .ended).map gangEvents) |>.flatten
/-- A start in which everything trains. -/
def plainStart : StartReport :=
  { fenced := [], failure := none, minimalFails := none, link0x8 := false, link1x8 := false, link1Fitted := true,
    measure := [] }
/-- The events of engines, blocks, tasks, dies and packages, n of them into their round. -/
def State.unitWork (s : State) (n : Nat) : List Instr :=
  turned n ((s.cores.flatMap fun p => p.2.passes.flatMap fun m =>
      [Instr.matrixPassBegin p.1 m.1, Instr.matrixPassComplete p.1 m.1]) ++
    (s.cores.flatMap fun p => (List.range 8).map fun m => Instr.matrixPassBegin p.1 m) ++
    (s.blocks.filter fun p => p.2.status != .retired && p.2.status != .lost).flatMap (fun p => blockEvents p.1) ++
    (s.tasks.filter fun p => p.2.status != .retired).map (fun p => .taskRetirement p.1) ++
    (s.dies.flatMap fun p => if p.2.arrivals.isEmpty then [] else
      (List.range 64).map fun k => Instr.guestGangFormation (p.1 * 64 + k)) ++
    s.dies.flatMap dieEvents ++
    (s.packages.filter fun n => !(s.pkg n).ready && (s.pkg n).trust != 2 && (s.pkg n).reason == 0).map fun n =>
      .startUp n plainStart)
/-- The event does something. -/
def State.moves (s : State) (i : Instr) : Bool := match exec i s with
  | .next t => t != s
  | _ => false
/-- What the environment may do of itself: a report arrives, a packet that a home has begun goes on, the oldest store on its way
moves on. -/
def State.envs (s : State) : List Env :=
  (((List.range s.flight.length).zip s.flight).filter fun p => p.2.kind == kReport).map (fun p => Env.report p.1) ++
    ((List.range s.serving.length).zip s.serving).flatMap (fun p => p.2.left.map fun k => Env.unitNext p.1 k) ++
    (List.range s.pending.length).map fun n => Env.drain n
/-- The next word of a run that may issue one, n runs into their round. -/
def State.runWork (s : State) (n : Nat) : Option Choice :=
  ((turned n s.runs).find? fun p => s.mayIssue p.1 p.2).map fun p => .issue p.1
/-- What an agent of class k does next, in round n, if there is something for it to do. -/
def State.classWork (s : State) (k n : Nat) : Option Choice :=
  let event (is : List Instr) : Option Choice := (is.find? s.moves).map .event
  match k with
  | 0 => s.runWork n
  | 1 => event s.opWork
  | 2 => event (s.fabricWork n)
  | 3 => event (s.gangWork n)
  | 4 => event (s.unitWork n)
  | 5 => (s.envs.find? fun e => s.happen e != s).map .env
  | _ => (turned n s.dies).head?.map fun p => .event (.cyclesAdvance p.1)
/-- What happens next where the schedule names nothing (assumption log 18). The classes of agents take turns, and within a class
its members: each of them that can go on does so within a bounded number of rounds (R158). Where no class has anything to do,
time passes. -/
def State.nextChoice (s : State) : Choice :=
  let turns := turned s.time (List.range 7)
  (turns.findSome? fun k => s.classWork k (s.time / 7)).getD (.event (.cyclesAdvance 0))
/-- A choice is carried out. -/
def State.perform (s : State) : Choice → Host.Outcome State Fault Refusal
  | .issue slot => s.issue slot
  | .event i => exec i s
  | .env e => .next (s.happen e)
/-- The choice of a step, and the state with that choice taken off the schedule and the step counted. -/
def State.choose (s : State) : Choice × State :=
  match s.schedule with
  | c :: rest => (c, { s with schedule := rest, time := s.time + 1, focus := none })
  | [] => (s.nextChoice, { s with time := s.time + 1, focus := none })

/-! ## A word placed where a run issues it -/

/-- A launch of one block of one gang, privileged, with every field of a word in bounds. -/
def probeTask (home : Nat) : Task :=
  { Task.blank with home := home, status := .running, privileged := true, placed := 1,
                    tcb := { Tcb.blank with grid := 1, blkdim := 1, ganglanes := 32, regs := 112, maxregs := 112 } }
def probeGang (task block : Nat) : Gang :=
  { Gang.blank with task := task, block := block, status := .resident, allot := 112, units := List.range 14,
                    frags := launchFrags 32 0,
                    cohorts := [{ id := 0, gathered := false, regang := false, barWait := [], fenceAt := none, resume := none,
                                  stamp := 0 }],
                    nextCohort := 1, started := true }
/-- The words of an instruction as a run holds them, zeros after them, eight packets in all. -/
def probeWords (nbits w : Nat) : List Word :=
  (List.range 24).map fun k => BitVec.ofNat 32 (w % 2 ^ nbits / 2 ^ (32 * k))
/-- A run of a launch of its own in slot 0 of core 0, about to issue the given words, next on the schedule. -/
def State.place (s : State) (words : List Word) : State :=
  let t := s.nextId
  let b : Block := { Block.blank with task := t, status := .resident, gangs := [t + 2] }
  let g := probeGang t (t + 1)
  let r : Run :=
    { id := t + 3, gang := t + 2, cohort := 0, base := 0, words := words, pos := 0, xb := 0, act := 0xFFFFFFFF,
      entry := g.lanes, group := g.lanes, seeded := 0 }
  { s with tasks := tabPut s.tasks t (probeTask 0), blocks := tabPut s.blocks (t + 1) b, gangs := tabPut s.gangs (t + 2) g,
           runs := tabPut s.runs 0 r, nextId := t + 4, schedule := .issue 0 :: s.schedule }

end Sys2Proof.Machine
end

