-- ==== Sys2Proof/Machine/Step.lean ====
section
/-! DEFINITION. The step: one word issued, one event, or one happening, as the schedule says. -/

namespace Sys2Proof.Machine

/-- One step of the machine. -/
def step (s : State) : Host.Outcome State Fault Refusal :=
  let c := s.choose
  c.2.perform c.1

/-- The state in which the next step issues the instruction of a table word: a run in slot 0 of core 0 holds the words, and
the schedule names it (assumption log 19). -/
def State.withFetchWord (s : State) (nbits w : Nat) : State := s.place (probeWords nbits w)

end Sys2Proof.Machine
end

