-- ==== Sys2Proof/Safety.lean ====
section
/-! DEFINITION. What a safe step and a safe run are, and the terms in which claims speak of a word's effect: when a word
issues, what it writes, what it leaves alone. -/

namespace Sys2Proof

open Machine

/-! ## Completing -/

/-- A step that is neither a fault nor a refusal. -/
def Completes (s : State) : Prop := ∃ t, step s = .next t
/-- An instruction that answers a next state. -/
def Runs (i : Instr) (s : State) : Prop := ∃ t, exec i s = .next t
/-- A run of k steps without a fault or a refusal. -/
def SafeRun (k : Nat) (s : State) : Prop := ∃ t, core.run k s = .next t

/-! ## A word that issues -/

/-- A well-formed word issues in context c, and none of the checks that come before its own effect stops it: registers in
bounds (R13), privilege (R353), what a guest may execute and name (R412). -/
structure Issues (i : Instr) (s : State) (c : Ctx) : Prop where
  wf : i.WellFormed
  issuer : s.issuer = some c
  clear : c.wordTrap s i (c.perf (guardOf i)) = none

/-- The lanes that perform word i in context c (R29). -/
def performing (i : Instr) (c : Ctx) : LaneSet := c.perf (guardOf i)
/-- The issuing gang once the queue entries that the word names have left (R16). -/
def popped (i : Instr) (c : Ctx) : Gang := c.gang.pops (usesOf i) (performing i c)

/-! ## What lanes write -/

/-- The value that a list of writes, in order, leaves in place f. -/
def lastOf {α : Type} (f : Nat) : List (Nat × α) → α → α
  | [], v => v
  | p :: ps, v => lastOf f ps (if p.1 = f then p.2 else v)

/-- Lane state L' is L after every lane of m has written what `out` gives it, at register index xb, and nothing else has
been written. -/
structure LaneWrite (xb : Nat) (m : LaneSet) (out : Nat → LaneOut) (L L' : Lanes) : Prop where
  /-- Each register field of a lane of m holds what the lane wrote there last, or its old value. -/
  value : ∀ l f, hasLane m l = true → f < 112 ∨ (120 ≤ f ∧ f < 128) →
    L'.reg xb l f = lastOf f (out l).regs (L.reg xb l f)
  /-- Every allotment register that no lane of m writes is unchanged. -/
  regs : ∀ k, (∀ l p, hasLane m l = true → p ∈ (out l).regs → p.1 < 112 → k ≠ regKey l (xb + p.1)) →
    tabGet L'.regs 0 k = tabGet L.regs 0 k
  /-- Every w register that no lane of m writes is unchanged. -/
  wregs : ∀ k, (∀ l p, hasLane m l = true → p ∈ (out l).regs → 120 ≤ p.1 → k ≠ l * 8 + (p.1 - 120)) →
    tabGet L'.w 0 k = tabGet L.w 0 k
  /-- Each predicate of a lane of m holds what the lane wrote there last, or its old value; p7 is true. -/
  pred : ∀ l n, hasLane m l = true → n < 7 → L'.pred l n = lastOf n (out l).preds (L.pred l n)
  /-- The predicates of the other lanes are unchanged. -/
  preds : ∀ l, hasLane m l = false → tabGet L'.preds 0 l = tabGet L.preds 0 l
  /-- The status flags gather in the lanes of m (R22), and stay in the others. -/
  flags : ∀ l, tabGet L'.lstat 0 l = tabGet L.lstat 0 l ||| (if hasLane m l then (out l).flags else 0)
  /-- Cursor, generator and remote status are unchanged. -/
  rest : L'.cursor = L.cursor ∧ L'.g0 = L.g0 ∧ L'.g1 = L.g1 ∧ L'.remote = L.remote

/-- t differs from s in gang gid alone, which is g there: every other gang, every other part of the machine and every byte
of memory, as any core or die sees it, is as before. -/
structure GangOnly (s : State) (gid : Nat) (g : Gang) (t : State) : Prop where
  here : tabFind t.gangs gid = some g
  others : ∀ n, n ≠ gid → tabFind t.gangs n = tabFind s.gangs n
  rest : t = { s with gangs := t.gangs }
  memory : ∀ core win cell, t.viewByte core win cell = s.viewByte core win cell

/-- Word i answers a next state in which the performing lanes have written what `out` gives them, the queue entries it
names have left, and nothing else has changed. -/
def WritesLanes (i : Instr) (s : State) (c : Ctx) (out : Nat → LaneOut) : Prop :=
  ∃ t L, exec i s = .next t ∧ GangOnly s c.gid { popped i c with lanes := L } t ∧
    LaneWrite c.run.xb (performing i c) out c.gang.lanes L

/-- Whenever word i issues, it writes what `out` gives its lanes, and nothing else. -/
def Computes (i : Instr) (s : State) (c : Ctx) (out : Nat → LaneOut) : Prop := Issues i s c → WritesLanes i s c out

/-! ## Operands and results as bits -/

/-- The first operand of lane l, as the bits of an integer type (R63). -/
def intA (c : Ctx) (l : Nat) (ty : IntTy) (a : Reg) : BitVec ty.bits := BitVec.ofNat ty.bits (c.opA l ty.is64 a)
/-- The second operand: a register, whose queue entry comes after the first operand's, or an immediate, extended as its
type says (R34). -/
def intB (c : Ctx) (l : Nat) (ty : IntTy) (a : Reg) : Src → BitVec ty.bits
  | .reg r => BitVec.ofNat ty.bits (if ty.is64 then c.rdPair l r.toNat else c.rd l r.toNat (if a = r then 1 else 0))
  | .imm v => if ty.signed then v.signExtend ty.bits else v.setWidth ty.bits
/-- The 32-bit second operand of a shift, a bit field, a permutation or an exchange; an immediate is sign-extended. -/
def wordB (c : Ctx) (l : Nat) (a : Reg) : Src → BitVec 32
  | .reg r => BitVec.ofNat 32 (c.rd l r.toNat (if a = r then 1 else 0))
  | .imm v => v.signExtend 32
/-- A result of an integer type: a pair for 64 bits, else one register, to which a narrow result is extended (R63). -/
def intOut (ty : IntTy) (d : Reg) (v : BitVec ty.bits) : LaneOut :=
  if ty.is64 then outPair d v.toNat else outW d (if ty.signed then v.signExtend 32 else v.setWidth 32).toNat
/-- The least and the greatest value of a type (R63). -/
def minOf (ty : IntTy) : Int := if ty.signed then -2 ^ (ty.bits - 1) else 0
def maxOf (ty : IntTy) : Int := if ty.signed then 2 ^ (ty.bits - 1) - 1 else 2 ^ ty.bits - 1
/-- The number that the bits of a type stand for. -/
def numOf (ty : IntTy) (v : BitVec ty.bits) : Int := if ty.signed then v.toInt else v.toNat
/-- An exact result, clamped to the range of its type where SAT is set, else wrapped (R85). -/
def fitTo (ty : IntTy) (sat : Bool) (x : Int) : BitVec ty.bits :=
  BitVec.ofInt ty.bits (if sat then max (minOf ty) (min (maxOf ty) x) else x)

/-! ## Float values and rounding

The exact value of an operation is a real number, and what the spec says of its result is said of that number: the last
place kept, the direction of the mode, the range of the format, the flags (R64, R70, R71). -/

/-- The number that a finite value is. -/
def numberOf : FVal → ℚ
  | .fin neg m e => (if neg then -1 else 1) * (m : ℚ) * (2 : ℚ) ^ e
  | _ => 0
/-- a < b among values that are no NaN; −0 equals +0. -/
def ltF (a b : FVal) : Prop :=
  match a, b with
  | .inf true, y => y ≠ .inf true
  | x, .inf false => x ≠ .inf false
  | .fin .., .fin .. => numberOf a < numberOf b
  | _, _ => False
/-- a = b among values that are no NaN. -/
def eqF (a b : FVal) : Prop :=
  match a, b with
  | .inf x, .inf y => x = y
  | .fin .., .fin .. => numberOf a = numberOf b
  | _, _ => False

/-- N is the multiple of 2^k that x ≥ 0, the magnitude of a number of the given sign, rounds to under a mode (R70), or
under a stochastic rounding with a 16-bit draw: w is the part of x below 2^k in units of 2^(k − 16), its lowest bit set where
anything is left below it (R76). -/
def RoundsAt (md : Mode) (neg : Bool) (x : ℝ) (k : Int) (N : Nat) : Prop :=
  ∃ n : Nat, n * (2 : ℝ) ^ k ≤ x ∧ x < (n + 1) * (2 : ℝ) ^ k ∧
    match md with
    | .to .rne => (x - n * (2 : ℝ) ^ k < 2 ^ k / 2 ∧ N = n) ∨ (2 ^ k / 2 < x - n * (2 : ℝ) ^ k ∧ N = n + 1) ∨
        (x - n * (2 : ℝ) ^ k = 2 ^ k / 2 ∧ N % 2 = 0 ∧ (N = n ∨ N = n + 1))
    | .to .rz => N = n
    | .to .rd => (n * (2 : ℝ) ^ k = x ∧ N = n) ∨ (n * (2 : ℝ) ^ k < x ∧ N = if neg then n + 1 else n)
    | .to .ru => (n * (2 : ℝ) ^ k = x ∧ N = n) ∨ (n * (2 : ℝ) ^ k < x ∧ N = if neg then n else n + 1)
    | .sr draw => ∃ w : Nat, w * (2 : ℝ) ^ k ≤ (x - n * (2 : ℝ) ^ k) * 2 ^ 16 ∧
        (x - n * (2 : ℝ) ^ k) * 2 ^ 16 < (w + 1) * (2 : ℝ) ^ k ∧
        ((w * (2 : ℝ) ^ k = (x - n * (2 : ℝ) ^ k) * 2 ^ 16 ∧ N = if draw < w then n + 1 else n) ∨
         (w * (2 : ℝ) ^ k ≠ (x - n * (2 : ℝ) ^ k) * 2 ^ 16 ∧ N = if draw < (if w % 2 = 0 then w + 1 else w) then n + 1 else n))
/-- An overflow gives an infinity, where the format has one and the mode does not keep the result finite (R71, R76). -/
def overflowsToInf (f : Fmt) (md : Mode) (neg : Bool) : Bool :=
  f.hasInf && match md with
    | .to .rne | .sr _ => true
    | .to .rz => false
    | .to .rd => neg
    | .to .ru => !neg
/-- r is x > 0, the magnitude of a number of the given sign, rounded once to format f under a mode, with the flags of
R71. E is the exponent of x, N the multiple of the last place that the format keeps at x, U that of the place it would keep
with an unbounded exponent. -/
def Rounded (f : Fmt) (md : Mode) (neg : Bool) (x : ℝ) (r : Nat × FlagSet) : Prop :=
  ∃ (E : Int) (N U : Nat), (2 : ℝ) ^ E ≤ x ∧ x < (2 : ℝ) ^ (E + 1) ∧
    RoundsAt md neg x (max E f.emin - f.mw) N ∧ RoundsAt md neg x (E - f.mw) U ∧
    if (f.maxSig : ℝ) * (2 : ℝ) ^ (f.emax - f.mw) < N * (2 : ℝ) ^ (max E f.emin - f.mw) then
      r = (f.signed neg (if overflowsToInf f md neg then f.infBits else f.maxBits), flOF ||| flNX)
    else
      (r.1 < 2 ^ f.width ∧ ∃ m e, f.value r.1 = .fin neg m e ∧ (m : ℝ) * (2 : ℝ) ^ e = N * (2 : ℝ) ^ (max E f.emin - f.mw)) ∧
      ((N * (2 : ℝ) ^ (max E f.emin - f.mw) = x ∧ r.2 = 0) ∨
       (N * (2 : ℝ) ^ (max E f.emin - f.mw) ≠ x ∧
          r.2 = flNX ||| (if U * (2 : ℝ) ^ (E - f.mw) < (2 : ℝ) ^ f.emin then flUF else 0)))
/-- r is the real number x rounded once; an exact zero takes the sign given. -/
def RoundsTo (f : Fmt) (md : Mode) (zeroNeg : Bool) (x : ℝ) (r : Nat × FlagSet) : Prop :=
  (x = 0 ∧ r = (f.signed zeroNeg 0, 0)) ∨ (0 < x ∧ Rounded f md false x r) ∨ (x < 0 ∧ Rounded f md true (-x) r)
/-- The canonical NaN, with NV where the condition holds (R65, R71). -/
def isNanResult (f : Fmt) (nv : Bool) (r : Nat × FlagSet) : Prop := r = (f.nanBits, if nv then flNV else 0)
/-- An infinity of the given sign, and no flag. -/
def isInfResult (f : Fmt) (neg : Bool) (r : Nat × FlagSet) : Prop := r = (f.signed neg f.infBits, 0)
/-- The sign of an exact zero sum of numbers of two signs: theirs where they agree, else + but under RD − (R119). -/
def zeroSumNeg (md : Mode) (a b : Bool) : Bool := if a = b then a else md == .to .rd

/-! ## What the float words give (R120 to R129) -/

/-- a + b (R120). -/
def SumRule (f : Fmt) (md : Mode) (a b : FVal) (r : Nat × FlagSet) : Prop :=
  if a.isNan || b.isNan then isNanResult f (a.isSnan || b.isSnan) r
  else if a.isInf && b.isInf && a.neg != b.neg then isNanResult f true r
  else if a.isInf then isInfResult f a.neg r
  else if b.isInf then isInfResult f b.neg r
  else RoundsTo f md (zeroSumNeg md a.neg b.neg) (numberOf a + numberOf b : ℚ) r
/-- a × b. -/
def ProductRule (f : Fmt) (md : Mode) (a b : FVal) (r : Nat × FlagSet) : Prop :=
  if a.isNan || b.isNan then isNanResult f (a.isSnan || b.isSnan) r
  else if (a.isInf && b.isZero) || (a.isZero && b.isInf) then isNanResult f true r
  else if a.isInf || b.isInf then isInfResult f (a.neg != b.neg) r
  else RoundsTo f md (a.neg != b.neg) (numberOf a * numberOf b : ℚ) r
/-- a × b + c, rounded once; 0 × ∞ + c is invalid even where c is a quiet NaN. -/
def FmaRule (f : Fmt) (md : Mode) (a b c : FVal) (r : Nat × FlagSet) : Prop :=
  if a.isNan || b.isNan || c.isNan || (a.isInf && b.isZero) || (a.isZero && b.isInf) then
    isNanResult f (a.isSnan || b.isSnan || c.isSnan || (a.isInf && b.isZero) || (a.isZero && b.isInf)) r
  else if (a.isInf || b.isInf) && c.isInf && (a.neg != b.neg) != c.neg then isNanResult f true r
  else if a.isInf || b.isInf then isInfResult f (a.neg != b.neg) r
  else if c.isInf then isInfResult f c.neg r
  else RoundsTo f md (zeroSumNeg md (a.neg != b.neg) c.neg) (numberOf a * numberOf b + numberOf c : ℚ) r
/-- a / b (R124). -/
def QuotientRule (f : Fmt) (md : Mode) (a b : FVal) (r : Nat × FlagSet) : Prop :=
  if a.isNan || b.isNan then isNanResult f (a.isSnan || b.isSnan) r
  else if (a.isInf && b.isInf) || (a.isZero && b.isZero) then isNanResult f true r
  else if a.isInf then isInfResult f (a.neg != b.neg) r
  else if b.isInf then r = (f.signed (a.neg != b.neg) 0, 0)
  else if b.isZero then r = (f.signed (a.neg != b.neg) f.infBits, flFZ)
  else RoundsTo f md (a.neg != b.neg) (numberOf a / numberOf b : ℚ) r
/-- √a (R125, R126). -/
def RootRule (f : Fmt) (md : Mode) (a : FVal) (r : Nat × FlagSet) : Prop :=
  if a.isNan then isNanResult f a.isSnan r
  else if a.isZero then r = (f.signed a.neg 0, 0)
  else if a.neg then isNanResult f true r
  else if a.isInf then isInfResult f false r
  else RoundsTo f md false (Real.sqrt (numberOf a : ℝ)) r
/-- The smaller or the larger of two patterns (R122). -/
def MinMaxRule (f : Fmt) (isMax : Bool) (x y : Nat) (r : Nat × FlagSet) : Prop :=
  let a := f.value x
  let b := f.value y
  r.2 = (if a.isSnan || b.isSnan then flNV else 0) ∧
  if a.isNan && b.isNan then r.1 = f.nanBits
  else if a.isNan then r.1 = y
  else if b.isNan then r.1 = x
  else (r.1 = x ∧ (if isMax then ltF b a ∨ (eqF a b ∧ (b.neg ∨ !a.neg)) else ltF a b ∨ (eqF a b ∧ (a.neg ∨ !b.neg)))) ∨
    (r.1 = y ∧ (if isMax then ltF a b ∨ (eqF a b ∧ (a.neg ∨ !b.neg)) else ltF b a ∨ (eqF a b ∧ (b.neg ∨ !a.neg))))
/-- What FCMP finds (R123). -/
def CompareRule (k : FCond) (a b : FVal) (r : Bool × FlagSet) : Prop :=
  let un := a.isNan || b.isNan
  let ordered : Bool := match k with
    | .lt | .le | .gt | .ge => true
    | _ => false
  r.2 = (if a.isSnan || b.isSnan || (un && ordered) then flNV else 0) ∧
  (r.1 = true ↔ match k with
    | .eq => un = false ∧ eqF a b
    | .ne => un = true ∨ ¬eqF a b
    | .lt => un = false ∧ ltF a b
    | .le => un = false ∧ (ltF a b ∨ eqF a b)
    | .gt => un = false ∧ ltF b a
    | .ge => un = false ∧ (ltF b a ∨ eqF a b)
    | .un => un = true
    | .ord => un = false)
/-- The bit that FCLASS sets for a pattern of an IEEE format (R127). -/
def classBit (f : Fmt) (x : Nat) : Nat :=
  let sign := x / 2 ^ (f.ew + f.mw) % 2 == 1
  let e := x / 2 ^ f.mw % 2 ^ f.ew
  let m := x % 2 ^ f.mw
  if e = 2 ^ f.ew - 1 then (if m = 0 then (if sign then 0 else 7) else if m < 2 ^ (f.mw - 1) then 8 else 9)
  else if e = 0 then (if m = 0 then (if sign then 3 else 4) else if sign then 2 else 5)
  else if sign then 1 else 6

/-- A float value into a float format (R72). -/
def FloatRule (f : Fmt) (md : Mode) (v : FVal) (r : Nat × FlagSet) : Prop :=
  if v.isNan then (if f.hasNan then isNanResult f v.isSnan r else r = (0, flNV))
  else if v.isInf then (if f.hasInf then isInfResult f v.neg r else r = (f.signed v.neg f.maxBits, flNV))
  else RoundsTo f md v.neg (numberOf v : ℝ) r
/-- A float value into the integers lo to hi (R72): the integer, and the flags. -/
def IntegerRule (md : Mode) (lo hi : Int) (v : FVal) (r : Int × FlagSet) : Prop :=
  if v.isNan then r = (0, flNV)
  else if v.isInf then r = (if v.neg then lo else hi, flNV)
  else ∃ N : Nat, RoundsAt md v.neg |(numberOf v : ℝ)| 0 N ∧
    let n : Int := if v.neg then -N else N
    if n < lo then r = (lo, flNV ||| flNX)
    else if hi < n then r = (hi, flNV ||| flNX)
    else r = (n, if (n : ℚ) = numberOf v then 0 else flNX)
/-- A float value rounded to an integral value of its own format (R129). -/
def IntegralRule (f : Fmt) (md : Mode) (v : FVal) (r : Nat × FlagSet) : Prop :=
  if v.isNan || v.isInf then FloatRule f md v r
  else ∃ N : Nat, RoundsAt md v.neg |(numberOf v : ℝ)| 0 N ∧
    let n : Int := if v.neg then -N else N
    (f.value r.1).isInf = false ∧ (f.value r.1).isNan = false ∧ (f.value r.1).neg = v.neg ∧ numberOf (f.value r.1) = n ∧
      r.2 = if (n : ℚ) = numberOf v then 0 else flNX
/-- A 32-bit accumulator plus the products of a block, with the scales of the block, rounded once under a mode (R74). Every
element of a block with a scale of 0xFF is a NaN (R66), and a product of integers is never −0. -/
def BlockIn (ints : Bool) (md : Mode) (acc : FVal) (ea eb : Nat) (ps : List (FVal × FVal)) (r : Nat × FlagSet) : Prop :=
  let bad (p : FVal × FVal) : Bool := (p.1.isInf && p.2.isZero) || (p.1.isZero && p.2.isInf)
  let inf (p : FVal × FVal) (neg : Bool) : Bool := (p.1.isInf || p.2.isInf) && (p.1.neg != p.2.neg) == neg
  let clash := (acc.isInf && !acc.neg || ps.any (inf · false)) && (acc.isInf && acc.neg || ps.any (inf · true))
  let snan := acc.isSnan || ps.any fun p => p.1.isSnan || p.2.isSnan
  if ea = 255 || eb = 255 then isNanResult fp32 snan r
  else if acc.isNan || ps.any fun p => p.1.isNan || p.2.isNan || bad p then
    r.1 = fp32.nanBits ∧ (¬clash → r.2 = if snan || ps.any bad then flNV else 0)
  else if clash then isNanResult fp32 true r
  else if acc.isInf || ps.any fun p => p.1.isInf || p.2.isInf then
    isInfResult fp32 (acc.isInf && acc.neg || ps.any (inf · true)) r
  else RoundsTo fp32 md (acc.isZero && acc.neg && ps.all fun p => !ints && (p.1.isZero || p.2.isZero) && p.1.neg != p.2.neg)
    (numberOf acc + 2 ^ ((ea : Int) + eb - 254) * (ps.map fun p => numberOf p.1 * numberOf p.2).sum : ℚ) r
/-- The same to nearest (R136). -/
def BlockRule (ints : Bool) : FVal → Nat → Nat → List (FVal × FVal) → Nat × FlagSet → Prop := BlockIn ints (.to .rne)

/-- The bits of an integer of w bits as a result: a narrow one is extended to 32 bits by its signedness (R63, R128). -/
def intResult (isSigned : Bool) (w : Nat) (n : Int) : Nat :=
  if w = 64 then (BitVec.ofInt 64 n).toNat
  else if isSigned then ((BitVec.ofInt w n).signExtend 32).toNat else (BitVec.ofInt w n).toNat
/-- The ends of the range of an integer of w bits. -/
def rangeLo (isSigned : Bool) (w : Nat) : Int := if isSigned then -2 ^ (w - 1) else 0
def rangeHi (isSigned : Bool) (w : Nat) : Int := if isSigned then 2 ^ (w - 1) - 1 else 2 ^ w - 1
/-- A conversion of the bits x (R72, R128, R129). -/
def CvtRule (dst src : CvtFmt) (md : Mode) (sat int : Bool) (x : Nat) (r : Nat × FlagSet) : Prop :=
  let v := src.fmt.value (x % 2 ^ src.fmt.width)
  let w := dst.intWidth
  if src.isFloat then
    if int then IntegralRule src.fmt md v r
    else if dst.isFloat then FloatRule dst.fmt md v r
    else ∃ n : Int, IntegerRule md (rangeLo dst.signedInt w) (rangeHi dst.signedInt w) v (n, r.2) ∧
      r.1 = intResult dst.signedInt w n
  else
    let y := BitVec.ofNat src.intWidth x
    let n : Int := if src.signedInt then y.toInt else y.toNat
    if dst.isFloat then RoundsTo dst.fmt md false n r
    else r = (intResult dst.signedInt w
      (if sat || w == 4 then max (rangeLo dst.signedInt w) (min (rangeHi dst.signedInt w) n) else n), 0)
/-- Element k of a packed operand: its bits, or for FP6 four bits of the nibble plane above two of the other (R67, R68). -/
def elemCode (nf : NarrowFmt) (half : Bool) (k x y : Nat) : Nat :=
  if nf.fp6 then
    let hi : BitVec 4 := (BitVec.ofNat 32 x).extractLsb' (4 * k) 4
    let lo : BitVec 2 := (BitVec.ofNat 32 y).extractLsb' ((if half then 16 else 0) + 2 * k) 2
    (hi ++ lo).toNat
  else ((BitVec.ofNat 32 x).extractLsb' (nf.bits * k) nf.bits).toNat
/-- A narrow element as FP32: exact, but for a NaN (R133). -/
def UnpackRule (nf : NarrowFmt) (e : Nat) (r : Nat × FlagSet) : Prop :=
  let v := nf.fmt.value e
  if nf.integer then
    let y := BitVec.ofNat nf.bits e
    RoundsTo fp32 (.to .rne) false (if nf.signedInt then y.toInt else y.toNat : Int) r ∧ r.2 = 0
  else if v.isNan then isNanResult fp32 v.isSnan r
  else if v.isInf then isInfResult fp32 v.neg r
  else (fp32.value r.1).isNan = false ∧ (fp32.value r.1).isInf = false ∧ (fp32.value r.1).neg = v.neg ∧
    numberOf (fp32.value r.1) = numberOf v ∧ r.2 = 0
/-- An FP32 value into a narrow format (R72, R132): the code of the element. -/
def NarrowRule (nf : NarrowFmt) (md : Mode) (v : FVal) (r : Nat × FlagSet) : Prop :=
  if nf.integer then
    ∃ n : Int, IntegerRule md (rangeLo nf.signedInt nf.bits) (rangeHi nf.signedInt nf.bits) v (n, r.2) ∧
      r.1 = (BitVec.ofInt nf.bits n).toNat
  else FloatRule nf.fmt md v r
/-- Registers x and y after elements 2j and 2j + 1 have taken two codes: every other bit is unchanged (R132). -/
def PackedRule (nf : NarrowFmt) (half : Bool) (j x y e0 e1 : Nat) (r : BitVec 32 × BitVec 32) : Prop :=
  elemCode nf half (2 * j) r.1.toNat r.2.toNat = e0 % 2 ^ nf.bits ∧
  elemCode nf half (2 * j + 1) r.1.toNat r.2.toNat = e1 % 2 ^ nf.bits ∧
  if nf.fp6 then
    (∀ n < 32, n < 8 * j ∨ 8 * j + 8 ≤ n → r.1.getLsbD n = (BitVec.ofNat 32 x).getLsbD n) ∧
    (∀ n < 32, n < (if half then 16 else 0) + 4 * j ∨ (if half then 16 else 0) + 4 * j + 4 ≤ n →
      r.2.getLsbD n = (BitVec.ofNat 32 y).getLsbD n)
  else
    ∀ n < 32, n < nf.bits * (2 * j) ∨ nf.bits * (2 * j + 2) ≤ n → r.1.getLsbD n = (BitVec.ofNat 32 x).getLsbD n

/-- An element of a packed operand, as a value. -/
def packedVal (nf : NarrowFmt) (half : Bool) (k x y : Nat) : FVal :=
  let e := elemCode nf half k x y
  if nf.integer then
    let n : Int := if nf.signedInt then (BitVec.ofNat nf.bits e).toInt else e
    .fin (n < 0) n.natAbs 0
  else nf.fmt.value e
/-- The leader of the block that element i of lane l lies in, where a register holds n elements (R69). -/
def blockLeader (n l i : Nat) : Nat := 32 / n * ((l * n + i) / 32)
/-- Byte sel of a 32-bit number. -/
def byteOf (x : Nat) (sel : BitVec 2) : Nat := ((BitVec.ofNat 32 x).extractLsb' (8 * sel.toNat) 8).toNat

/-- Element k of an operand, as a value. -/
def floatA (c : Ctx) (l : Nat) (ft : FloatTy) (a : Reg) (k : Nat) : FVal := ft.fmt.value (ft.elem (c.flA l ft a) k)
def floatB (c : Ctx) (l : Nat) (ft : FloatTy) (a : Reg) (b : Src) (k : Nat) : FVal :=
  ft.fmt.value (ft.elem (c.flB l ft a b) k)
/-- Whenever word i issues, each element of its result obeys a rule, and nothing else is written. -/
def ComputesFloat (i : Instr) (s : State) (c : Ctx) (ft : FloatTy) (d : Reg) (rule : Nat → Nat → Nat × FlagSet → Prop) :
    Prop :=
  Issues i s c → ∃ r : Nat → Nat → Nat × FlagSet, (∀ l k, rule l k (r l k)) ∧ WritesLanes i s c fun l => outFloat ft d (r l)

/-! ## Words that draw (R78, R139) -/

/-- One step of a generator: the two words it leaves (R77). -/
def genNext (g : DWord × DWord) : DWord × DWord :=
  let x := g.1 ^^^ (g.1 <<< 23)
  (g.2, x ^^^ (x >>> 17) ^^^ g.2 ^^^ (g.2 >>> 26))
/-- The number that a step gives, out of the words it leaves (R77). -/
def genOut (g : DWord × DWord) : DWord := ((genNext g).1 + (genNext g).2) * 0x9E3779B97F4A7C15
/-- n steps of a generator. -/
def genSteps : Nat → DWord × DWord → DWord × DWord
  | 0, g => g
  | n + 1, g => genSteps n (genNext g)
/-- The (k + 1)-th number that a lane of the word draws. -/
def drawAt (c : Ctx) (l k : Nat) : DWord :=
  genOut (genSteps k (if hasLane c.run.seeded l then c.run.group.gen l else c.gang.lanes.gen l))
/-- Word i answers a next state in which the performing lanes have written what `out` gives them and taken n draws, the queue
entries it names have left, and nothing else has changed. A generator that a RNDSEED of the same group has set keeps the
state it was set to. -/
def DrawsLanes (i : Instr) (s : State) (c : Ctx) (n : Nat) (out : Nat → LaneOut) : Prop :=
  ∃ t L L', exec i s = .next t ∧ GangOnly s c.gid { popped i c with lanes := L' } t ∧
    LaneWrite c.run.xb (performing i c) out c.gang.lanes L ∧ L' = { L with g0 := L'.g0, g1 := L'.g1 } ∧
    ∀ l, L'.gen l = if hasLane (performing i c) l && !hasLane c.run.seeded l then genSteps n (c.gang.lanes.gen l) else c.gang.lanes.gen l

/-! ## Exchange and combination among lanes (R159 to R169) -/

/-- What lane m supplies of field a to another lane, where the lanes of a set perform: its value, but 0 where it does not perform
and its slice is away (R159; of a slice that is away in part, the model's choice: assumption log 69). -/
def suppliedBy (c : Ctx) (perf : LaneSet) (x64 : Bool) (a : Reg) (m : Nat) : Nat :=
  if hasLane perf m = false ∧ ∃ w ∈ c.gang.away, w.slice = m / 4 then 0 else c.opA m x64 a
/-- The lanes of a segment, by its code (R162). -/
def segLanes : SegWidth → Nat
  | .w32 => 32
  | .w16 => 16
  | .w8 => 8
  | .w4 => 4
  | .w2 => 2
/-- The mask of the performing lanes that satisfy a condition. -/
def ballot (m : LaneSet) (p : Nat → Bool) : Nat :=
  (((List.range 32).filter fun l => hasLane m l && p l).map fun l => 2 ^ l).sum
/-- The combination of a list of values under an integer operation (R167, R169). -/
def combined (op : RedOp) (ty : IntTy) (xs : List (BitVec ty.bits)) : BitVec ty.bits :=
  match op with
  | .add | .fadd => xs.sum
  | .min => BitVec.ofInt ty.bits ((xs.map (numOf ty)).foldr min (maxOf ty))
  | .max => BitVec.ofInt ty.bits ((xs.map (numOf ty)).foldr max (minOf ty))
  | .and => xs.foldr (· &&& ·) (BitVec.allOnes ty.bits)
  | .or => xs.foldr (· ||| ·) 0
  | .xor => xs.foldr (· ^^^ ·) 0
/-- The sum of a list of FP32 values, rounded once to nearest even; +0 where there are none (R168, R169, R74). -/
def SumAllRule (xs : List FVal) (r : Nat × FlagSet) : Prop :=
  let clash := xs.any (· == .inf false) && xs.any (· == .inf true)
  if xs = [] then r = (0, 0)
  else if xs.any (·.isNan) then r.1 = fp32.nanBits ∧ (¬clash → r.2 = if xs.any (·.isSnan) then flNV else 0)
  else if clash then isNanResult fp32 true r
  else if xs.any (·.isInf) then isInfResult fp32 (xs.any (· == .inf true)) r
  else RoundsTo fp32 (.to .rne) (xs.all fun x => x.isZero && x.neg) ((xs.map numberOf).sum : ℚ) r

/-! ## A word that changes its gang alone -/

/-- Word i answers a next state in which the issuing gang is g, and nothing else has changed. -/
def LeavesGang (i : Instr) (s : State) (c : Ctx) (g : Gang) : Prop := ∃ t, exec i s = .next t ∧ GangOnly s c.gid g t
/-- Word i answers the state as it was, but for the queue entries that it names. -/
def NoEffect (i : Instr) (s : State) (c : Ctx) : Prop := LeavesGang i s c (popped i c)
/-- Each fragment of the issuing cohort becomes what a transfer makes of it; the others stay. -/
def movedFrags (c : Ctx) (f : Frag → Frag) : List Frag :=
  c.gang.frags.map fun x => if x.cohort = c.run.cohort then f x else x
/-- Lanes m of a fragment wait at packet S (R109): they join a top entry for S, or make an entry of their own. -/
def parkedAt (S : Nat) (m : LaneSet) (st : List (Nat × LaneSet)) : List (Nat × LaneSet) :=
  match st with
  | (p, n) :: rest => if p = S then (p, n ||| m) :: rest else (S, m) :: st
  | [] => [(S, m)]
/-- The stack has no room for an entry for S (R109). -/
def stackFull (S : Nat) (st : List (Nat × LaneSet)) : Bool := st.length == 8 && (st.head?.map (·.1)) != some S
/-- Resume (R109): the first entry with a lane runs, and what is above it goes; with none the slice has ended. -/
def Resumed (f f' : Frag) : Prop :=
  (∃ above p m below, f.stack = above ++ (p, m) :: below ∧ (∀ e ∈ above, e.2 = 0) ∧ m ≠ 0 ∧
    f' = { f with act := m, stack := (p, 0) :: below, next := some p }) ∨
  ((∀ e ∈ f.stack, e.2 = 0) ∧ f' = { f with act := 0, stack := [], next := none })

/-! ## Traps (R345 to R351) -/

/-- The trap codes that words raise (R345). -/
def trapIllegal : Fail := { code := 1, info := 0 }
def trapRegBound : Fail := { code := 4, info := 0 }
def trapPriv : Fail := { code := 6, info := 0 }
def trapMisalign : Fail := { code := 7, info := 0 }
def trapAddrDup : Fail := { code := 11, info := 0 }
def trapBarrier : Fail := { code := 12, info := 0 }
def trapRemote : Fail := { code := 13, info := 0 }
/-- Word i takes a trap: why, in which lane, the address it names, whether ERET goes on at the next word. -/
def TakesTrap (i : Instr) (s : State) (c : Ctx) (f : Fail) (lane : Option Nat) (addr : Nat) (next : Bool) : Prop :=
  exec i s = .next (s.takeTrap c (performing i c) { fail := f, lane := lane, addr := addr, performed := 0, next := next })
/-- l is the lowest lane of a set. -/
def IsLowest (m : LaneSet) (l : Nat) : Prop := hasLane m l = true ∧ ∀ k < l, hasLane m k = false

/-! ## Words that issue an operation (R107) -/

/-- The operation that a word files: what it does, the class it counts in, its order and scope, the register field it
writes, the lanes it acts in, its accesses. -/
def opIssued (s : State) (c : Ctx) (kind : OpKind) (cls : Cls) (ord : Order) (scope : Scope) (dest : Option Dest)
    (lanes : LaneSet) (accs : List Acc) : Op :=
  { kind := kind, cls := cls, gang := c.gid, block := c.gang.block, core := c.gang.core,
    slices := (c.gang.frags.filter fun f => f.cohort == c.run.cohort).foldl (fun m f => m ||| sliceLanes f.slice) 0,
    active := lanes, pc := codePtr c.run.base c.at, cohort := c.run.cohort, run := c.run.id, word := s.nextId, batch := [],
    ord := ord, scope := scope, dest := dest, held := [], accs := accs, began := false, abandoned := false,
    fromTrap := false }
/-- Word i answers a next state in which operation o is outstanding under the next number, the queue entries it names have
left, and nothing else has changed. A word that counts in the st class and accesses nothing is through at once. -/
def FilesOp (i : Instr) (s : State) (c : Ctx) (o : Op) : Prop :=
  ∃ t, exec i s = .next t ∧
    t = { s with gangs := tabPut s.gangs c.gid (popped i c),
                 ops := if o.cls = .st ∧ o.accs = [] then tabDel s.ops s.nextId else tabPut s.ops s.nextId o,
                 nextId := s.nextId + 1 } ∧
    ∀ core win cell, t.viewByte core win cell = s.viewByte core win cell
/-- A register destination of so many bytes at field d (R243). -/
def destOf (c : Ctx) (d : Reg) (bytes : Nat) (sx : Bool) : Dest :=
  { first := c.run.xb + d.toNat, count := (bytes + 3) / 4, width := bytes, sx := sx }
/-- The accesses of the lanes of a set, and the ordering effects in the active lanes that do not perform (R257). -/
def accesses (c : Ctx) (m : LaneSet) (ord : Order) (f : Nat → Acc) : List Acc :=
  (lanesIn m).map f ++ if ord = .rlx then [] else (lanesIn (c.run.act &&& ~~~m)).map Acc.fence
/-- An access that lane l has yet to make to flat memory. -/
def flatAcc (l va size data : Nat) (leaf : Leaf) : Acc :=
  { lane := l, space := .flat leaf.win, addr := leaf.cell, va := va, size := size, data := data, got := 0, done := false,
    early := false, poison := false, cache := leaf.cache, level := leaf.level }
/-- The rights that a word of the issuing task needs. -/
def needOf (s : State) (c : Ctx) (r w : Bool) : Need :=
  let t := s.task c.gang.task
  { r := r, w := w, x := false, priv := t.privileged, encl := t.tcb.encl }
/-- Every performing lane's address is aligned, its n bytes translate on the core, and its page is homed on the die of the
gang: checks 1 to 4 of R105 and 1, 3, 4 and 5 of R244. -/
def Reaches (i : Instr) (s : State) (c : Ctx) (align n : Nat) (need : Need) (addr : Nat → Nat) (leaf : Nat → Leaf) : Prop :=
  ∀ l, hasLane (performing i c) l = true →
    addr l % align = 0 ∧ s.coreTranslate c.gang.core (addr l) n need = .ok (leaf l) ∧ (leaf l).die = dieOf c.gang.core
/-- No performing lane touches a tempo range of a deterministic task without holding the tempo (R198). -/
def TempoFree (i : Instr) (s : State) (c : Ctx) (size : Nat) (addr : Nat → Nat) (leaf : Nat → Leaf) : Prop :=
  ∀ l, hasLane (performing i c) l = true → s.tempoViol c.gang (leaf l) (addr l) size = false
/-- No two performing lanes name one address. -/
def Apart (i : Instr) (c : Ctx) (addr : Nat → Nat) : Prop :=
  ∀ l m, hasLane (performing i c) l = true → hasLane (performing i c) m = true → addr l = addr m → l = m

/-- The checks 1 to 5 of R105 and R244 for an access of n aligned bytes, but for the tempo: their order and the trap. -/
def checkOf (s : State) (c : Ctx) (n : Nat) (need : Need) (va : Nat) : Option (Nat × Fail) :=
  if va % n ≠ 0 then some (1, trapMisalign)
  else
    match s.coreTranslate c.gang.core va n need with
    | .error f => some (if f.code = 8 then 4 else 3, f)
    | .ok leaf => if leaf.die ≠ dieOf c.gang.core then some (5, trapRemote) else none
/-- No performing lane leaves for another die: a page homed elsewhere does not let it (R360). -/
def Stays (i : Instr) (s : State) (c : Ctx) (n : Nat) (need : Need) (addr : Nat → Nat) : Prop :=
  ∀ l leaf, hasLane (performing i c) l = true → s.coreTranslate c.gang.core (addr l) n need = .ok leaf →
    leaf.die = dieOf c.gang.core ∨ ¬(leaf.policy = 1 ∨ (leaf.policy = 2 ∧ (s.task c.gang.task).tcb.mig = true))
/-- What a store takes from the registers at field d: so many bytes, the first register lowest (R103, R243). -/
def dataOf (c : Ctx) (l : Nat) (d : Reg) (bytes : Nat) : Nat := c.rdMany l d.toNat (max 1 (bytes / 4)) % 2 ^ (8 * bytes)
/-- An access to the block's scratchpad, or to the lane's private slice. -/
def localAccess (s : State) (c : Ctx) (isPriv : Bool) (l off size data : Nat) : Acc :=
  { lane := l, space := if isPriv then .priv else .scratch,
    addr := if isPriv then l * 32768 + c.gang.num * (s.task c.gang.task).tcb.priv + off else off, va := off,
    size := size, data := data, got := 0, done := false, early := false, poison := false, cache := 0 }

/-! ## Ranges of an engine word -/

/-- Every page that n bytes at an address touch translates, on the die of the gang, with the rights an engine needs; no
tempo range is written without the tempo. -/
def PagesHere (s : State) (c : Ctx) (w : Bool) (va n : Nat) (leaf : Nat → Leaf) : Prop :=
  ∀ p ∈ pieces (pagesFor n) va n,
    s.coreTranslate c.gang.core p.1 p.2 (needOf s c (!w) w) = .ok (leaf p.1) ∧ (leaf p.1).die = dieOf c.gang.core ∧
    (w = true → s.tempoViol c.gang (leaf p.1) p.1 p.2 = false)
/-- The cells of n bytes at an address, in order. -/
def segsAt (leaf : Nat → Leaf) (va n : Nat) : List Seg :=
  (pieces (pagesFor n) va n).flatMap fun p => (leaf p.1).segs p.1 p.2
/-- The trap of a handle that the block does not hold (R351). -/
def trapHandle : Fail := { code := 9, info := 6 }

/-! ## Packets that leave (R378 to R380, R423) -/

/-- State t is s after packets ps have entered their streams, in order, for an operation, or for an RGET that the home
serves: each takes the next number of its stream, and is in flight at once unless an older one of its stream still waits or
4,096 of its stream are unacknowledged. -/
structure SendsFor (s t : State) (op gang job : Option Nat) (ps : List (Packet × LaneSet)) : Prop where
  rest : t = { s with unacked := t.unacked, flight := t.flight, seqs := t.seqs, wraps := t.wraps }
  waiting : ∃ us : List Unacked, t.unacked = s.unacked ++ us ∧ t.flight = s.flight ++ (us.filter (·.sent)).map (·.pkt) ∧
    List.Forall₂ (fun (u : Unacked) (p : Packet × LaneSet) =>
      u.pkt = { p.1 with seq := u.pkt.seq, wrap := u.pkt.wrap, oldest := u.pkt.oldest, keyGen := u.pkt.keyGen,
                         key := u.pkt.key } ∧
      u.op = op ∧ u.gang = gang ∧ u.lanes = p.2 ∧ u.job = job) us ps ∧
    ∀ n u, us[n]? = some u →
      (tabGet s.seqs 0 u.pkt.stream + n < 2 ^ 42 - 1 → u.pkt.seq = tabGet s.seqs 0 u.pkt.stream +
        ((us.take n).filter fun x => x.pkt.stream == u.pkt.stream).length) ∧
      (u.sent = true ↔ u.pkt.wrap < 65536 ∧
        (∀ x ∈ s.unacked ++ us.take n, x.pkt.stream = u.pkt.stream → x.sent = true) ∧
        ((s.unacked ++ us.take n).filter fun x => x.sent && x.pkt.stream == u.pkt.stream).length < 4096)
/-- Packets of an operation leave. -/
def Sends (s t : State) (op gang : Option Nat) (ps : List (Packet × LaneSet)) : Prop := SendsFor s t op gang none ps

/-- A packet of the remote unit of the issuing core. -/
def packetOf (c : Ctx) (dst vc kind opq pa : Nat) (body : Payload) : Packet :=
  { sdie := c.gang.core / 64, eng := c.gang.core % 64, seq := 0, oldest := 0, wrap := 0, dst := dst, vc := vc, kind := kind,
    opq := opq, pa := pa, aux := 0, aux2 := 0, body := body, keyGen := 0, key := 0 }
/-- Every performing lane's address, for n granules, passes checks 1 to 3 of R422, and its home may be named: neither fenced nor
outside the enclave. -/
def Names (i : Instr) (s : State) (c : Ctx) (align n : Nat) (need : Need) (addr : Nat → Nat) (leaf : Nat → Leaf) : Prop :=
  ∀ l, hasLane (performing i c) l = true → addr l % align = 0 ∧
    s.coreTranslate c.gang.core (addr l) (32 * n) need = .ok (leaf l) ∧ s.barred (dieOf c.gang.core) (leaf l).die = none
/-- The address a packet gives a place of its home: the model's number, with the window, UC and the place (R378). -/
def packetAddr (leaf : Leaf) : Nat :=
  leaf.place * 2 ^ 66 + (if leaf.cache = 2 then 2 ^ 65 else 0) + (if leaf.win then 2 ^ 64 else 0) + leaf.pa
/-- The distinct values of a list, in order of first appearance. -/
def inOrder {α : Type} [DecidableEq α] (xs : List α) : List α := xs.foldl (fun r x => if x ∈ r then r else r ++ [x]) []
/-- The virtual channel a word names; 2 where it names none (R377). -/
def vcOf : Vc → Nat
  | .dflt | .vc2 => 2
  | .vc3 => 3
  | .vc4 => 4
  | .vc5 => 5
  | .vc6 => 6
  | .vc7 => 7

/-! ## Lanes that leave (R403 to R407) -/

/-- State t is s after lanes of gang g, each for the die that `dests` names, have left: for each slice place and each home,
in order, a ply waits with its lanes, their addresses and the place they go on at; their fragments and the run go on
without them; they are away, or, in a guest gang, no longer of its guest. -/
structure Departs (s : State) (c : Ctx) (g : Gang) (pc : Nat) (dests : List (Nat × Nat)) (addr : Nat → Nat) (t : State) :
    Prop where
  rest : t = { s with gangs := t.gangs, runs := t.runs, departing := t.departing, nextId := t.nextId }
  plies : ∃ ps : List Ply, t.departing = (ps.zipIdx s.nextId).foldl (fun d p => tabPut d p.2 p.1) s.departing ∧
    t.nextId = s.nextId + ps.length ∧
    ps = (List.range 8).flatMap fun p => (inOrder (dests.map (·.2))).filterMap fun home =>
      let ls := (dests.filter fun d => d.2 == home && d.1 / 4 == p).map (·.1)
      if ls = [] then none
      else
        let places : BitVec 4 := ls.foldl (fun m l => m ||| BitVec.ofNat 4 (2 ^ (l % 4))) 0
        let q := g.guests[p]?
        some { task := g.task, origin := (q.map (·.origin)).getD c.gid, slice := (q.map (·.slice)).getD p, all := places,
               lanes := places, hops := (q.map (·.hops)).getD 0 + 1, xb := (q.map (·.xb)).getD g.xb,
               base := (q.map (·.base)).getD c.run.xb, allot := (q.map (·.allot)).getD g.allot, pc := pc,
               word := codePtr c.run.base c.at, src := c.gid, place := p, regs := [], preds := [], lstat := [],
               addrs := ls.map fun l => (l % 4, addr l), isReturn := false, refused := false, rcause := 0, dst := home }
  gang : ∃ away guests, tabFind t.gangs c.gid = some { g with
      away := away, guests := guests,
      frags := g.frags.map fun f => if f.cohort = c.run.cohort then
        let left := ~~~(lanesOf (dests.map (·.1)) &&& sliceLanes f.slice)
        { f with act := f.act &&& left, stack := f.stack.map fun e => (e.1, e.2 &&& left) } else f } ∧
    (∀ l < 32, (∃ w ∈ away, w.slice = l / 4 ∧ hasLane w.lanes l = true) ↔
      (∃ w ∈ g.away, w.slice = l / 4 ∧ hasLane w.lanes l = true) ∨ (g.guests[l / 4]? = none ∧ l ∈ dests.map (·.1))) ∧
    guests.length = g.guests.length ∧
    ∀ (p : Nat) (q : Guest), g.guests[p]? = some q → ∃ q' : Guest, guests[p]? = some q' ∧ q' = { q with all := q'.all } ∧
      ∀ j < 4, q'.all.getLsbD j = (q.all.getLsbD j && !decide (4 * p + j ∈ dests.map (·.1)))
  others : ∀ n, n ≠ c.gid → tabFind t.gangs n = tabFind s.gangs n
  run : (tabFind t.runs c.slot).map (fun r => { r with act := 0 }) = some { c.run with act := 0 } ∧
    (∀ r, tabFind t.runs c.slot = some r → r.act = c.run.act &&& ~~~lanesOf (dests.map (·.1))) ∧
    ∀ n, n ≠ c.slot → tabFind t.runs n = tabFind s.runs n
  memory : ∀ core win cell, t.viewByte core win cell = s.viewByte core win cell

/-! ## Events -/

/-- Event i leads to state t, in which every byte of memory, as any core or die sees it, is as before. -/
def Becomes (i : Instr) (s t : State) : Prop :=
  exec i s = .next t ∧ ∀ core win cell, t.viewByte core win cell = s.viewByte core win cell

/-- The conditions of R47 from WAIT on, but for GROW's, for words es of a run of cohort k, in the context c in which it would
start. -/
structure MayStart (s : State) (c : Ctx) (k : Cohort) (es : List Entry) : Prop where
  /-- 3: in every slice, what is outstanding and what the run issues before a WAIT keep to its limits. -/
  waits : ∀ before e after h l st t m, es = before ++ e :: after → e.instr = .wait h l st t m →
    ∀ f ∈ c.gang.frags, f.cohort = k.id → f.slice < 8 →
      let count (x : Cls) : Nat := (s.classWords c.gid f.slice x).length + before.countP fun b => entersClass b.instr == x
      (l ≠ 15 → count .ld ≤ l.toNat) ∧ (st ≠ 15 → count .st ≤ st.toNat) ∧ (t ≠ 7 → count .tl ≤ t.toNat) ∧
        (m ≠ 7 → count .rm ≤ m.toNat)
  /-- 4: every active lane holds what the run pops, and each queue has room for what the run adds in the lane. -/
  queues : c.gang.guests = [] → ∀ q < 3, ∀ l, hasLane c.run.act l = true →
    let pops := (es.map fun e => popsOf (usesOf e.instr) q).sum
    let adds := (es.map fun e => if hasLane (c.perf (guardOf e.instr)) l then fillsOf q e.instr else 0).sum
    pops ≤ c.gang.queueLen q l ∧ (adds = 0 ∨ c.gang.queueLen q l + s.inFlight c.gid q l + adds ≤ queueDepth q)
  /-- 5: no register that the run names is under hold in its slices. -/
  holds : ∀ p ∈ s.ops, p.2.gang = c.gid → p.2.slices &&& c.gang.slicesOf k.id ≠ 0 →
    ∀ e ∈ es, ∀ f ∈ (usesOf e.instr).reads ++ (usesOf e.instr).writes, f < 112 → c.run.xb + f ∉ p.2.held
  /-- 6: each blocking word's own condition; what a guest may not execute holds nothing back. -/
  blocking : ∀ e ∈ es, s.blockingOk c e.instr = true
  /-- 7: the barriers that the cohort waits at are complete (R171) and what they order is performed (R172), the remote unit has
  room (R380), and every gang of the block before a deterministic one has issued its first run (R193). -/
  barriers : ∀ w ∈ k.barWait, w.2 ≤ tabGet (s.task c.gang.task).gens 0 (genKey w.1 (s.block c.gang.block).idx)
  edges : ∀ w ∈ k.barWait, ∀ x ∈ s.edgesOf c w.1 w.2, s.accessesDone x.1 x.2 = true
  room : s.remoteRoom c.gang.core es = true
  det : s.detOk c.gang = true

/-- Access a is the k-th of outstanding operation o, the first of its lane that has not been made, everything ordered before
it has been performed (R225), neither a save nor its channel holds it back (R316, R367), nor others that came to the channel
before it (R315), and it is no column access of a step window (R317). -/
structure AtAccess (s : State) (id : Nat) (o : Op) (k : Nat) (a : Acc) : Prop where
  filed : tabFind s.ops id = some o
  access : o.accs[k]? = some a
  undone : a.done = false
  first : ∀ j < k, ∀ b : Acc, o.accs[j]? = some b → b.lane = a.lane → b.done = true
  live : o.abandoned = false
  ordered : s.accReady id o a = true
  unheld : s.accHeld id o a = false
  flat : s.stepStore o a = false
/-- The table of operations once access k of operation id has come to a': an operation of the st class whose accesses have
all been performed leaves it (R107). -/
def opsAfter (s : State) (id : Nat) (k : Nat) (a' : Acc) : Tab Op :=
  match tabFind s.ops id with
  | none => s.ops
  | some o =>
    let o' : Op := { o with accs := o.accs.set k a' }
    if o'.cls = .st ∧ ∀ b ∈ o'.accs, b.done = true then tabDel s.ops id else tabPut s.ops id o'
/-- What an ordered access finds: the stores that its order puts before it have reached the die at die scope, and the cells,
where the host sees them, at system scope (R223, R221). -/
def orderedBefore (s : State) (o : Op) : State :=
  if o.ord = .rel ∨ o.ord = .acqrel then
    match o.scope with
    | .d => s.releaseCore o.core
    | .s => (s.releaseCore o.core).releaseDie (o.core / 64)
    | _ => s
  else s
/-- What it leaves for the accesses after it in a lane: an acquire orders after itself what its gang has been seen to store; one of
die or system scope leaves no older copy in the core's L1, one of core scope none that its gang has kept (R223, R230). -/
def orderedAfter (s : State) (id : Nat) (o : Op) (lane : Nat) : State :=
  if o.ord = .acq ∨ o.ord = .acqrel then
    let s := s.seeEarly o.gang lane id
    match o.scope with
    | .d | .s => s.refresh o.core
    | .k => s.dropNear o.core o.gang
    | .g => s
  else s
/-- No higher lane of the word stores to a byte that access a stores to (R104). -/
def Alone (o : Op) (a : Acc) : Prop :=
  ∀ b ∈ o.accs, a.lane < b.lane → b.space = a.space → b.addr + b.size ≤ a.addr ∨ a.addr + a.size ≤ b.addr

/-! ## Packets that arrive (R381, R385, R389) -/

/-- st is the stream of p once p has come: the floor is the later of itself and OLDEST, and the marks below it go (R381). -/
structure Raised (s : State) (p : Packet) (st : Stream) : Prop where
  floor : st.floor = (let f := (tabGet s.streams { floor := 0, marks := [] } p.stream).floor
    if seqBefore f p.oldest then p.oldest else f)
  marks : st.marks = (tabGet s.streams { floor := 0, marks := [] } p.stream).marks.filter fun m => !seqBefore m.1 st.floor
/-- No fence proxy answers p, its home accepts its keys, and the home's package is up (R398, R457, R481). -/
def Welcome (s : State) (p : Packet) : Prop :=
  s.proxied p.sdie p.dst = false ∧ s.ignores p.sdie p.dst = false ∧ s.accepts p.sdie p.dst p.keyGen p.key = true ∧
    s.isUp p.dst = true
/-- The n-th packet in flight, p, is one that its home performs: it is neither below the floor nor marked, and there is room
for its mark (R381). -/
structure Fresh (s : State) (n : Nat) (p : Packet) (st : Stream) : Prop where
  inFlight : s.flight[n]? = some p
  known : Welcome s p
  raised : Raised s p st
  above : seqBefore p.seq st.floor = false
  unmarked : tabFind st.marks p.seq = none
  room : st.marks = [] → ({ s with streams := tabPut s.streams p.stream st } : State).markedStreams p.dst < 16384
/-- The packet has left the fabric. -/
def taken (s : State) (n : Nat) (p : Packet) (st : Stream) : State :=
  { s with flight := s.flight.eraseIdx n, streams := tabPut s.streams p.stream st }
/-- An acknowledgement of p leaves a die (R383). -/
def ackOf (u : State) (p : Packet) (src status : Nat) : Ack :=
  { src := src, home := p.dst, sdie := p.sdie, eng := p.eng, seq := p.seq, wrap := p.wrap, status := status,
    keyGen := u.keyFor src p.sdie, key := u.sendKey src p.sdie }
/-- u with p's number marked, its status kept, and the acknowledgement on its way (R381). -/
def answered (u : State) (p : Packet) (st : Stream) (status : Nat) : State :=
  { u with
    streams := tabPut u.streams p.stream { st with marks := tabPut st.marks p.seq status }
    acks := u.acks ++ [ackOf u p p.dst status] }
/-- From a to b, each element of a list in turn has the effect that R gives it. -/
def InTurn {α β : Type} (R : α → β → β → Prop) (xs : List α) (a b : β) : Prop :=
  ∃ v : Nat → β, v 0 = a ∧ v xs.length = b ∧ ∀ i x, xs[i]? = some x → R x (v i) (v (i + 1))
/-- What a home performs a unit of n bytes on: its slice has recalled them, outside the step window (R303, R317). -/
def unitReady (s : State) (cell n : Nat) : State := if s.inStep cell = true then s else s.recall cell n
/-- A home's own store: no core's. -/
def homePut (s : State) (p : Packet) (cell : Nat) (bytes : List Byte) : State :=
  s.store none .d (if p.pa.testBit 65 then 2 else 0) (p.pa.testBit 64) cell bytes
    { op := 0, gang := 0, lane := 32, copy := false, own := false }
/-- One indivisible read-modify-write of the n bytes at an offset of a packet's address: a state and the status so far, before
and after (R385). A poisoned unit is left as it is; no granule bit changes. -/
def UpdatesUnit (p : Packet) (off n : Nat) (new : Nat → Nat → Prop) (a b : State × Nat) : Prop :=
  let cell := homeCell p.dst p.pa off
  let s := unitReady a.1 cell n
  (s.poisonedAt cell n = true → b = (s, a.2 ||| 2)) ∧
  (s.poisonedAt cell n = false → ∃ v, new (s.readNat .die (p.pa.testBit 64) cell n) v ∧
    b = ({ homePut s p cell (leBytes n v) with bits := s.bits }, a.2))
/-- A contribution of value x to a cell c (R81). -/
def CellTakes (x : FVal) (c c' : Nat) : Prop :=
  ∃ flags fix, c' = min (2 ^ 24 - 1) (c / 2 ^ 488 + 1) * 2 ^ 488 + flags * 2 ^ 480 + fix ∧ fix < 2 ^ 480 ∧
    (match x with
      | .nan _ => flags = c / 2 ^ 480 % 8 ||| 4 ∧ fix = c % 2 ^ 480
      | .inf false => flags = c / 2 ^ 480 % 8 ||| 1 ∧ fix = c % 2 ^ 480
      | .inf true => flags = c / 2 ^ 480 % 8 ||| 2 ∧ fix = c % 2 ^ 480
      | v => flags = c / 2 ^ 480 % 8 ∧ ∃ k : Int, (k : ℚ) = numberOf v * 2 ^ 149 ∧ (fix : Int) = (c % 2 ^ 480 + k) % 2 ^ 480)
/-- The key by which floats compare (R386). -/
def orderKey (x : Nat) : Nat := if x < 2 ^ 31 then x + 2 ^ 31 else 2 ^ 32 - 1 - x
/-- What RMIN, or RMAX, of a type makes of a word m and an operand x (R385, R386). -/
def Extremum (larger : Bool) (ty m x v : Nat) : Prop :=
  let best (f : Nat → Int) (m x : Nat) : Prop := (v = m ∨ v = x) ∧
    (if larger then f m ≤ f v ∧ f x ≤ f v else f v ≤ f m ∧ f v ≤ f x)
  let canonical (y : Nat) : Nat := if (fp32.value y).isNan then 0x7FC00000 else y % 2 ^ 32
  (ty = 0 → best (fun y => sval 32 y) m x) ∧ (ty = 2 → best (fun y => sval 64 y) m x) ∧
  (ty = 1 ∨ ty = 3 → best (fun y => y) m x) ∧
  (ty = 4 → best (fun y => orderKey y) (canonical m) (canonical x))
/-- A write of d to a granule at an offset of a packet's address, marked poisoned or not (R389, R391); the step window discards
it and sets no status bit (R317). -/
def WritesOnce (p : Packet) (off d : Nat) (bad : Bool) (a b : State × Nat) : Prop :=
  let cell := homeCell p.dst p.pa off
  let g := cell / 32
  let s := unitReady a.1 cell 32
  let home := s.die p.dst
  let base := if bad then 2 else 0
  let wr : Prop := g ∈ s.bits.written
  let clean : Prop := g ∉ s.bits.conflict ∧ ¬(bad = true ∧ ¬wr)
  let put (bits : GranuleBits) : State := { homePut s p cell (leBytes 32 d) with bits := bits }
  let isIn (new old : List Nat) : Prop := ∀ x, x ∈ new ↔ x = g ∨ x ∈ old
  (s.cellFenced cell = true → b = (s, a.2 ||| 2)) ∧
  (s.cellFenced cell = false → s.inStep cell = true → b = (s.dropWrite cell, a.2)) ∧
  (s.cellFenced cell = false → s.inStep cell = false →
    (g ∈ s.bits.conflict → b = (s, a.2 ||| (1 ||| base))) ∧
    (g ∉ s.bits.conflict → bad = true → ¬wr → ∃ ps ws, isIn ps s.bits.poison ∧ isIn ws s.bits.written ∧
      b = (put { s.bits with poison := ps, written := ws }, a.2 ||| 2)) ∧
    (clean → g ∈ s.bits.poison → b = (s, a.2 ||| 2)) ∧
    (clean → g ∉ s.bits.poison → ¬wr → ∃ ws, isIn ws s.bits.written ∧ b = (put { s.bits with written := ws }, a.2)) ∧
    (clean → g ∉ s.bits.poison → wr → s.readNat .die (p.pa.testBit 64) cell 32 = d → b = (s, a.2 ||| base)) ∧
    (clean → g ∉ s.bits.poison → wr → s.readNat .die (p.pa.testBit 64) cell 32 ≠ d →
      ∃ ps cs, isIn ps s.bits.poison ∧ isIn cs s.bits.conflict ∧ b = ({ s with
        bits := { s.bits with poison := ps, conflict := cs }
        dies := tabPut s.dies p.dst { home with woconf := min (2 ^ 64 - 1) (home.woconf + 1) } }, a.2 ||| (1 ||| base))))

/-- A gang's register index is a multiple of 8 below 512 (R13, R100), and each of its fragments has at most eight entries on its
divergence stack (R109), and no lane, active or parked, that is not of its slice (R140). -/
def Machine.Gang.Bounded (g : Gang) : Prop :=
  g.xb % 8 = 0 ∧ g.xb < 512 ∧ ∀ f ∈ g.frags, f.stack.length ≤ 8 ∧ f.act &&& ~~~sliceLanes f.slice = 0 ∧
    ∀ e ∈ f.stack, e.2 &&& ~~~sliceLanes f.slice = 0

end Sys2Proof
end

