-- ==== Sys2Proof/Certificates/Slice0/Obligations.lean ====
section
/-! DEFINITION. The statements for the provers. -/

open Sys2Proof Sys2Proof.Machine

/-! ## Integer words -/

/-- R85: what ADD, SUB, MIN, MAX, AND, OR, XOR, ANDN and ORN write in each performing lane. -/
def Obligations.ArithmeticAndLogic : Prop :=
  ∀ (s : State) (c : Ctx) (h : Hd) (ty : IntTy) (d a : Reg) (b : Src),
    let A (l : Nat) : BitVec ty.bits := intA c l ty a
    let B (l : Nat) : BitVec ty.bits := intB c l ty a b
    let N (v : BitVec ty.bits) : Int := numOf ty v
    (∀ sat, Computes (.add h ty sat d a b) s c fun l => intOut ty d (fitTo ty sat (N (A l) + N (B l)))) ∧
    (∀ sat, Computes (.sub h ty sat d a b) s c fun l => intOut ty d (fitTo ty sat (N (A l) - N (B l)))) ∧
    (Computes (.min h ty d a b) s c fun l => intOut ty d (if N (A l) ≤ N (B l) then A l else B l)) ∧
    (Computes (.max h ty d a b) s c fun l => intOut ty d (if N (A l) ≤ N (B l) then B l else A l)) ∧
    (Computes (.and h ty d a b) s c fun l => intOut ty d (A l &&& B l)) ∧
    (Computes (.or h ty d a b) s c fun l => intOut ty d (A l ||| B l)) ∧
    (Computes (.xor h ty d a b) s c fun l => intOut ty d (A l ^^^ B l)) ∧
    (Computes (.andn h ty d a b) s c fun l => intOut ty d (A l &&& ~~~B l)) ∧
    (Computes (.orn h ty d a b) s c fun l => intOut ty d (A l ||| ~~~B l))

/-- R86 to R88: what ADDC, SUBB, MUL, MULH, MAD, DIV and REM write; DIV and REM by zero set DZ in their lane alone. -/
def Obligations.CarryMultiplyDivide : Prop :=
  ∀ (s : State) (c : Ctx) (h : Hd) (ty : IntTy) (ps : PredNo) (d a : Reg) (b : Src),
    let A (l : Nat) : BitVec ty.bits := intA c l ty a
    let B (l : Nat) : BitVec ty.bits := intB c l ty a b
    let D (l : Nat) : BitVec ty.bits := intA c l ty d
    let N (v : BitVec ty.bits) : Int := numOf ty v
    let carry (l : Nat) : Nat := (c.rdPred l ps.toNat).toNat
    let dz (l : Nat) (o : LaneOut) : LaneOut := { o with flags := if B l = 0 then flDZ else 0 }
    (Computes (.addc h ty ps d a b) s c fun l =>
      { intOut ty d (A l + B l + BitVec.ofNat ty.bits (carry l)) with
        preds := [(ps.toNat, decide (2 ^ ty.bits ≤ (A l).toNat + (B l).toNat + carry l))] }) ∧
    (Computes (.subb h ty ps d a b) s c fun l =>
      { intOut ty d (A l - B l - BitVec.ofNat ty.bits (carry l)) with
        preds := [(ps.toNat, decide ((A l).toNat < (B l).toNat + carry l))] }) ∧
    (Computes (.mul h ty d a b) s c fun l => intOut ty d (A l * B l)) ∧
    (Computes (.mulh h ty d a b) s c fun l => intOut ty d (BitVec.ofInt ty.bits (N (A l) * N (B l) / 2 ^ ty.bits))) ∧
    (Computes (.mad h ty d a b) s c fun l => intOut ty d (A l * B l + D l)) ∧
    (Computes (.div h ty d a b) s c fun l => dz l (intOut ty d
      (if B l = 0 then BitVec.allOnes ty.bits else if ty.signed then (A l).sdiv (B l) else (A l).udiv (B l)))) ∧
    (Computes (.rem h ty d a b) s c fun l => dz l (intOut ty d
      (if B l = 0 then A l else if ty.signed then (A l).srem (B l) else (A l).umod (B l))))

/-- R89 to R91: what the shifts, the bit-field words and the words with one integer operand write. A count is the whole 32-bit operand; a field is given by its
position in bits 7 to 0 and its length in bits 15 to 8. -/
def Obligations.ShiftsAndFields : Prop :=
  ∀ (s : State) (c : Ctx) (h : Hd) (ty : IntTy) (d a : Reg) (b : Src),
    let A (l : Nat) : BitVec ty.bits := intA c l ty a
    let N (v : BitVec ty.bits) : Int := numOf ty v
    let D (l : Nat) : BitVec ty.bits := intA c l ty d
    let n (l : Nat) : Nat := (wordB c l a b).toNat
    let pos (l : Nat) : Nat := ((wordB c l a b).extractLsb' 0 8).toNat
    let len (l : Nat) : Nat := min ((wordB c l a b).extractLsb' 8 8).toNat ty.bits
    let mask (l : Nat) : BitVec ty.bits := (BitVec.allOnes ty.bits >>> (ty.bits - len l)) <<< pos l
    (Computes (.shl h ty d a b) s c fun l => intOut ty d (A l <<< n l)) ∧
    (Computes (.shr h ty d a b) s c fun l => intOut ty d (A l >>> n l)) ∧
    (Computes (.sar h ty d a b) s c fun l => intOut ty d ((A l).sshiftRight (n l))) ∧
    (Computes (.rot h ty d a b) s c fun l => intOut ty d ((A l).rotateLeft (n l))) ∧
    (Computes (.bfx h ty d a b) s c fun l => intOut ty d
      (let f : BitVec (len l) := (A l).extractLsb' (pos l) (len l)
       if ty.signed then f.signExtend ty.bits else f.setWidth ty.bits)) ∧
    (Computes (.bfi h ty d a b) s c fun l => intOut ty d ((D l &&& ~~~mask l) ||| ((A l <<< pos l) &&& mask l))) ∧
    (Computes (.mov h ty d a) s c fun l => intOut ty d (A l)) ∧
    (∀ sat, Computes (.neg h ty sat d a) s c fun l => intOut ty d (fitTo ty sat (-N (A l)))) ∧
    (∀ sat, Computes (.abs h ty sat d a) s c fun l => intOut ty d (fitTo ty sat |N (A l)|)) ∧
    (Computes (.popc h ty d a) s c fun l => outW d ((List.range ty.bits).countP (A l).getLsbD)) ∧
    (Computes (.clz h ty d a) s c fun l => outW d (A l).clz.toNat) ∧
    (Computes (.ctz h ty d a) s c fun l => outW d (A l).ctz.toNat) ∧
    (Computes (.brev h ty d a) s c fun l => intOut ty d (A l).reverse)

/-- R92 to R95: what PERM, SEL, MOVI, MOVH and LEA write. The model's choice: the immediate of PERM, and of LEA before its zero
extension, is sign-extended to 32 bits (assumption log 28). -/
def Obligations.PermSelectConstants : Prop :=
  ∀ (s : State) (c : Ctx) (h : Hd) (ty : IntTy) (ps : PredNo) (d a : Reg) (b : Src) (im : Imm36),
    let immediate : BitVec 64 := match im with
      | .short v => v.signExtend 64
      | .long v => v.signExtend 64
    (∀ sel : BitVec 16, Computes (.perm h sel d a b) s c fun l =>
      let ba : BitVec 64 := wordB c l a b ++ BitVec.ofNat 32 (c.rd l a.toNat 0)
      let byte (i : Nat) : BitVec 8 :=
        let nibble : BitVec 4 := sel.extractLsb' (4 * i) 4
        let k : BitVec 8 := ba.extractLsb' (8 * (nibble.toNat % 8)) 8
        if nibble.msb then (if k.msb then 0xFF else 0) else k
      outW d (byte 3 ++ byte 2 ++ byte 1 ++ byte 0).toNat) ∧
    (Computes (.sel h ty ps d a b) s c fun l =>
      intOut ty d (if c.rdPred l ps.toNat then intA c l ty a else intB c l ty a b)) ∧
    (Computes (.movi h ty d im) s c fun _ => intOut ty d (immediate.setWidth ty.bits)) ∧
    (Computes (.movh h d im) s c fun _ => outW (d + 1) (immediate.setWidth 32).toNat) ∧
    (∀ (scale : BitVec 3) (z : Bool), Computes (.lea h scale z d a b) s c fun l =>
      let base : BitVec 64 := BitVec.ofNat 64 (c.rdPair l a.toNat)
      let ext : BitVec 64 := if z then (wordB c l a b).setWidth 64 else (wordB c l a b).signExtend 64
      outPair d (base + ext <<< scale.toNat).toNat)

/-- R96 to R98: what CMP, PLOG and the two forms of PMOV write. A write to p7 is discarded (R18), as LaneWrite has it. -/
def Obligations.PredicateWords : Prop :=
  ∀ (s : State) (c : Ctx) (h : Hd) (ty : IntTy) (cond : Cond) (lut : BitVec 4) (mask : BitVec 7) (pd pa pb : PredNo)
    (d a : Reg) (b : Src),
    let X (l : Nat) : Int := numOf ty (intA c l ty a)
    let Y (l : Nat) : Int := numOf ty (intB c l ty a b)
    (Computes (.cmp h cond ty pd a b) s c fun l => outPred pd
      (match cond with
       | .eq => decide (X l = Y l)
       | .ne => decide (X l ≠ Y l)
       | .lt => decide (X l < Y l)
       | .le => decide (X l ≤ Y l)
       | .gt => decide (X l > Y l)
       | .ge => decide (X l ≥ Y l))) ∧
    (Computes (.plog h lut pd pa pb) s c fun l => outPred pd
      (match c.rdPred l pa.toNat, c.rdPred l pb.toNat with
       | false, false => lut.getLsbD 0
       | false, true => lut.getLsbD 1
       | true, false => lut.getLsbD 2
       | true, true => lut.getLsbD 3)) ∧
    (Computes (.pmovToReg h d) s c fun l => outW d
      ((1#1 ++ BitVec.ofBool (c.rdPred l 6) ++ BitVec.ofBool (c.rdPred l 5) ++ BitVec.ofBool (c.rdPred l 4) ++
        BitVec.ofBool (c.rdPred l 3) ++ BitVec.ofBool (c.rdPred l 2) ++ BitVec.ofBool (c.rdPred l 1) ++
        BitVec.ofBool (c.rdPred l 0) : BitVec 8)).toNat) ∧
    (Computes (.pmovToPreds h mask a) s c fun l =>
      { LaneOut.none with preds := ((List.range 7).filter mask.getLsbD).map fun n =>
          (n, (BitVec.ofNat 32 (c.rd l a.toNat 0)).getLsbD n) })

/-- R19, R20, R99: what MOVS gives for each special register. LANE to GROUPS and TCBP name the gang of origin, CORE to CYCLES
the place where the word executes. The model's choices: a guest reads in ALLOT what its ply carried (assumption log 34), and KILL
reads 0 outside promotion mode (assumption log 32). -/
def Obligations.SpecialRegisterReads : Prop :=
  ∀ (s : State) (c : Ctx) (h : Hd) (d : Reg) (r : SpecialReg),
    Computes (.movs h d r) s c fun l =>
      let g := s.gang (c.ident l).1
      let t := s.task g.task
      let die := s.die (c.core / 64)
      let ch := tabGet die.channels Channel.reset die.chCh
      let killed (b : Nat) : Bool := ch.promotion && (tabGet ch.units BankUnit.reset b).killed
      match r with
      | .lane => outW d (c.ident l).2
      | .slice => outW d ((c.ident l).2 / 4)
      | .gang => outW d g.num
      | .block => outW d (s.block g.block).idx
      | .blkdim => outW d t.tcb.blkdim
      | .grid => outW d t.tcb.grid
      | .core => outW d (c.core % 64)
      | .die => outW d (c.core / 64 % 8)
      | .pkg => outW d (c.core / 512)
      | .groups => outPair d (g.groups.getD 0 0 + 2 ^ 8 * g.groups.getD 1 0 + 2 ^ 16 * g.groups.getD 2 0 +
          2 ^ 24 * g.groups.getD 3 0 + 2 ^ 32 * g.groups.length)
      | .allot =>
        match c.gang.guestAt l with
        | some q => outW d (q.allot + 2 ^ 16 * q.xb)
        | none => outW d (c.gang.allot + 2 ^ 16 * c.gang.xb)
      | .tcbp => outPair d t.addr
      | .cycles => outPair d die.cycles.toNat
      | .lstat => outW d (tabGet c.run.group.lstat 0 l).toNat
      | .chstat => outW d (ch.promotion.toNat + 2 ^ 3 * die.chErr.toNat + 2 ^ 4 * ch.drop.toNat + 2 ^ 8 * die.chCh +
          2 ^ 14 * die.chSeq + 2 ^ 16 * ((List.range 16).filter killed).foldl (fun x b => x + 2 ^ b) 0)
      | .ptroot => outPair d die.ptroot.toNat
      | .defsuper => outPair d die.defsuper.toNat
      | .deffault => outPair d die.deffault.toNat

/-! ## Float words -/

/-- R120, R121, R124, R125: FADD, FSUB, FMUL, FMA, FMA2, FDIV, FSQRT and FRCP give the exact result rounded once. -/
def Obligations.FloatArithmetic : Prop :=
  ∀ (s : State) (c : Ctx) (h : Hd) (ft : FloatTy) (rm : Round) (d a : Reg) (b : Src),
    let A (l k : Nat) : FVal := floatA c l ft a k
    let B (l k : Nat) : FVal := floatB c l ft a b k
    let f := ft.fmt
    ComputesFloat (.fadd h ft rm d a b) s c ft d (fun l k => SumRule f (.to rm) (A l k) (B l k)) ∧
    ComputesFloat (.fsub h ft rm d a b) s c ft d (fun l k => SumRule f (.to rm) (A l k) (B l k).negate) ∧
    ComputesFloat (.fmul h ft rm d a b) s c ft d (fun l k => ProductRule f (.to rm) (A l k) (B l k)) ∧
    ComputesFloat (.fma h ft rm d a b) s c ft d (fun l k => FmaRule f (.to rm) (A l k) (B l k) (floatA c l ft d k)) ∧
    ComputesFloat (.fdiv h ft rm d a b) s c ft d (fun l k => QuotientRule f (.to rm) (A l k) (B l k)) ∧
    ComputesFloat (.fsqrt h ft rm d a) s c ft d (fun l k => RootRule f (.to rm) (A l k)) ∧
    ComputesFloat (.frcp h ft rm d a) s c ft d (fun l k => QuotientRule f (.to rm) (.fin false 1 0) (A l k)) ∧
    ∀ b' : Reg, Issues (.fma2 h ft rm d a b') s c → ∃ r : Nat → Nat → Nat × FlagSet,
      (∀ l, ∀ k < 2, FmaRule fp32 (.to rm) (A l k) (floatB c l ft a (.reg b') k) (fp32.value (c.rd l (d.toNat + k) 0)) (r l k)) ∧
      WritesLanes (.fma2 h ft rm d a b') s c fun l =>
        { regs := [(d.toNat, BitVec.ofNat 32 (r l 0).1), (d.toNat + 1, BitVec.ofNat 32 (r l 1).1)], preds := [],
          flags := (r l 0).2 ||| (r l 1).2 }

/-- R122, R123, R127: FMIN, FMAX, FCMP and FCLASS. -/
def Obligations.FloatCompare : Prop :=
  ∀ (s : State) (c : Ctx) (h : Hd) (ft : FloatTy) (cond : FCond) (pd : PredNo) (d a : Reg) (b : Src),
    let x (l k : Nat) : Nat := ft.elem (c.flA l ft a) k
    let y (l k : Nat) : Nat := ft.elem (c.flB l ft a b) k
    ComputesFloat (.fmin h ft d a b) s c ft d (fun l k => MinMaxRule ft.fmt false (x l k) (y l k)) ∧
    ComputesFloat (.fmax h ft d a b) s c ft d (fun l k => MinMaxRule ft.fmt true (x l k) (y l k)) ∧
    (Issues (.fcmp h cond ft pd a b) s c → ∃ r : Nat → Bool × FlagSet,
      (∀ l, CompareRule cond (floatA c l ft a 0) (floatB c l ft a b 0) (r l)) ∧
      WritesLanes (.fcmp h cond ft pd a b) s c fun l => { outPred pd (r l).1 with flags := (r l).2 }) ∧
    (Computes (.fclass h ft d a) s c fun l => outW d (2 ^ classBit ft.fmt (x l 0)))

/-- R126, what R125 calls exact, and its NX: FRSQ, FEXP2, FLOG2, FSIN, FCOS and FTANH complete, and give these results where the
spec names the result; elsewhere the result is no NaN, and NX is set unless it is the exact result. -/
def Obligations.SpecialFunctions : Prop :=
  ∀ (s : State) (c : Ctx) (h : Hd) (ft : FloatTy) (d a : Reg),
    let f := ft.fmt
    let A (l k : Nat) : FVal := floatA c l ft a k
    let nan (l k : Nat) (r : Nat × FlagSet) : Prop := (A l k).isNan → isNanResult f (A l k).isSnan r
    let neg (l k : Nat) : Prop := ¬(A l k).isNan ∧ (A l k).neg ∧ ¬(A l k).isZero
    let finite (l k : Nat) : Prop := ¬(A l k).isNan ∧ ¬(A l k).isInf
    let exactly (r : Nat × FlagSet) (q : ℚ) : Prop :=
      (f.value r.1).isNan = false ∧ (f.value r.1).isInf = false ∧ numberOf (f.value r.1) = q ∧ r.2 = 0
    let inexact (r : Nat × FlagSet) : Prop := (f.value r.1).isNan = false ∧ r.2 &&& flNX = flNX
    let integral (l k : Nat) : Prop := ∃ n : Int, numberOf (A l k) = n
    let halved (l k : Nat) : Prop := ∃ n : Int, numberOf (A l k) = n + 1 / 2
    ComputesFloat (.frsq h ft d a) s c ft d (fun l k r => nan l k r ∧ (neg l k → isNanResult f true r) ∧
      ((A l k).isZero → r = (f.signed (A l k).neg f.infBits, flFZ)) ∧
      (A l k = .inf false → r = (f.signed false 0, 0)) ∧
      (finite l k → ¬(A l k).neg → ¬(A l k).isZero → inexact r ∨ ∃ n : Int, numberOf (A l k) = 2 ^ (2 * n) ∧ exactly r (2 ^ (-n)))) ∧
    ComputesFloat (.fexp2 h ft d a) s c ft d (fun l k r => nan l k r ∧ (A l k = .inf true → r = (f.signed false 0, 0)) ∧
      (A l k = .inf false → isInfResult f false r) ∧
      (∀ n : Int, finite l k → numberOf (A l k) = n → f.emin - f.mw ≤ n → n ≤ f.emax → exactly r (2 ^ n)) ∧
      (finite l k → (f.emax : ℚ) + 1 ≤ numberOf (A l k) → r = (f.signed false f.infBits, flOF ||| flNX)) ∧
      (finite l k → numberOf (A l k) < (f.emax : ℚ) + 1 → ¬integral l k ∨ numberOf (A l k) < (f.emin : ℚ) - f.mw → inexact r)) ∧
    ComputesFloat (.flog2 h ft d a) s c ft d (fun l k r => nan l k r ∧ (neg l k → isNanResult f true r) ∧
      ((A l k).isZero → r = (f.signed true f.infBits, flFZ)) ∧ (A l k = .inf false → isInfResult f false r) ∧
      (∀ n : Int, finite l k → numberOf (A l k) = 2 ^ n → exactly r n) ∧
      (finite l k → numberOf (A l k) = 1 → r = (f.signed false 0, 0)) ∧
      (finite l k → ¬(A l k).neg → ¬(A l k).isZero → (∀ n : Int, numberOf (A l k) ≠ 2 ^ n) → inexact r)) ∧
    ComputesFloat (.fsin h ft d a) s c ft d (fun l k r => nan l k r ∧ ((A l k).isInf → isNanResult f true r) ∧
      ((A l k).isZero → r = (f.signed (A l k).neg 0, 0)) ∧
      (∀ n : Int, finite l k → ¬(A l k).isZero → numberOf (A l k) = n → r = (f.signed false 0, 0)) ∧
      (finite l k → ¬integral l k → ¬halved l k → inexact r) ∧
      (∀ n : Int, finite l k → numberOf (A l k) = n + 1 / 2 → inexact r ∨ exactly r (if n % 2 = 0 then 1 else -1))) ∧
    ComputesFloat (.fcos h ft d a) s c ft d (fun l k r => nan l k r ∧ ((A l k).isInf → isNanResult f true r) ∧
      (∀ n : Int, finite l k → numberOf (A l k) = n + 1 / 2 → r = (f.signed false 0, 0)) ∧
      (finite l k → ¬integral l k → ¬halved l k → inexact r) ∧
      (∀ n : Int, finite l k → numberOf (A l k) = n → inexact r ∨ exactly r (if n % 2 = 0 then 1 else -1))) ∧
    ComputesFloat (.ftanh h ft d a) s c ft d (fun l k r => nan l k r ∧ ((A l k).isZero → r = (f.signed (A l k).neg 0, 0)) ∧
      ((A l k).isInf → exactly r (if (A l k).neg then -1 else 1)) ∧
      (finite l k → ¬(A l k).isZero → inexact r))

/-- R72, R128 to R133: CVT, UNPACK and PACK under a rounding mode. -/
def Obligations.Conversions : Prop :=
  ∀ (s : State) (c : Ctx) (h : Hd) (dst src : CvtFmt) (nf : NarrowFmt) (rm : Round) (sat int half : Bool) (j : BitVec 2)
    (i : BitVec 3) (d a : Reg) (b : Src),
    (Issues (.cvt h dst src rm sat int d a) s c → ∃ r : Nat → Nat × FlagSet,
      (∀ l, CvtRule dst src (.to rm) sat int (c.opA l src.is64 a) (r l)) ∧
      WritesLanes (.cvt h dst src rm sat int d a) s c fun l => { outSize dst.is64 d (r l).1 with flags := (r l).2 }) ∧
    (Issues (.unpack h nf half i d a) s c → ∃ r : Nat → Nat × FlagSet,
      (∀ l, UnpackRule nf (elemCode nf half i.toNat (c.rd l a.toNat 0) (c.rd l (a.toNat + 1) 0)) (r l)) ∧
      WritesLanes (.unpack h nf half i d a) s c fun l => { outW d (r l).1 with flags := (r l).2 }) ∧
    (Issues (.pack h nf false rm half j d a b) s c → ∃ e : Nat → Nat → Nat × FlagSet,
      (∀ l, NarrowRule nf (.to rm) (fp32.value (c.rd l a.toNat 0)) (e l 0) ∧
        NarrowRule nf (.to rm) (floatB c l .f32 a b 0) (e l 1)) ∧
      ∃ r : Nat → BitVec 32 × BitVec 32,
        (∀ l, PackedRule nf half j.toNat (c.rd l d.toNat 0) (c.rd l (d.toNat + 1) 0) (e l 0).1 (e l 1).1 (r l)) ∧
        WritesLanes (.pack h nf false rm half j d a b) s c fun l =>
          { regs := (d.toNat, (r l).1) :: (if nf.fp6 then [(d.toNat + 1, (r l).2)] else []), preds := [],
            flags := (e l 0).2 ||| (e l 1).2 })

/-- R69, R134: SCALE multiplies or divides by the scale of the element's block; a scale of 0xFF gives NaN with no flag. The model's
choice: in a gang of guests, or where the leader's slice is away, the scale is what the leader's place of the issuing gang holds
(assumption log 34). -/
def Obligations.ScaleWord : Prop :=
  ∀ (s : State) (c : Ctx) (h : Hd) (ft : FloatTy) (rm : Round) (map : ScaleMap) (sr : Reg) (inv : Bool) (sel : BitVec 2)
    (d a : Reg),
    let n : Nat := match map with
      | .byFt => if ft.packed then 2 else 1
      | .m4 => 8
      | .m8 => 4
      | .m16 => 2
    ComputesFloat (.scale h ft rm map sr inv sel d a) s c ft d fun l k r =>
      let v := floatA c l ft a k
      let e := byteOf (c.rd (blockLeader n l k) sr.toNat 0) sel
      if e = 255 then r = (ft.fmt.nanBits, 0)
      else if v.isNan then isNanResult ft.fmt v.isSnan r
      else if v.isInf then isInfResult ft.fmt v.neg r
      else RoundsTo ft.fmt (.to rm) v.neg (numberOf v * 2 ^ (if inv then 127 - (e : Int) else e - 127) : ℚ) r

/-- R74, R135, R136: DOT4, DOT6 and DOT8 add the products of the lane's elements to the accumulator, rounding once. The model's
choices: the scale is read at the leader's place of the issuing gang (assumption log 34), NV in a block with a scale of 0xFF comes from
signalling NaNs alone (assumption log 52), and B pops after A (assumption log 6). -/
def Obligations.DotProducts : Prop :=
  ∀ (s : State) (c : Ctx) (h : Hd) (fmt : DotFmt) (alt half : Bool) (sc : Option DotScale) (d a b : Reg),
    let scale (n l : Nat) (sel : DotScale → BitVec 2) : Nat := match sc with
      | none => 127
      | some q => byteOf (c.rd (blockLeader n l 0) q.reg.toNat 0) (sel q)
    let sum (i : Instr) (n count : Nat) (na nb : NarrowFmt) (x y : Nat → Nat × Nat) : Prop :=
      Issues i s c → ∃ r : Nat → Nat × FlagSet,
        (∀ l, BlockRule na.integer (fp32.value (c.rd l d.toNat 0)) (scale n l (·.selA)) (scale n l (·.selB))
          ((List.range count).map fun k => (packedVal na half k (x l).1 (x l).2, packedVal nb half k (y l).1 (y l).2)) (r l)) ∧
        WritesLanes i s c fun l => { outW d (r l).1 with flags := (r l).2 }
    let one (r : Reg) (pop l : Nat) : Nat × Nat := (c.rd l r.toNat pop, 0)
    let two (r : Reg) (l : Nat) : Nat × Nat := (c.rd l r.toNat 0, c.rd l (r.toNat + 1) 0)
    let pop : Nat := if a = b then 1 else 0
    sum (.dot4 h fmt alt half sc d a b) 4 4
      (match fmt with | .fmt0 => .e4m3 | .fmt1 => .e5m2 | .fmt2 => .i8)
      (match fmt, alt with | .fmt2, _ => .i8 | .fmt0, false | .fmt1, true => .e4m3 | _, _ => .e5m2) (one a 0) (one b pop) ∧
    sum (.dot6 h fmt alt half sc d a b) 8 8
      (match fmt with | .fmt0 => .e3m2 | _ => .e2m3)
      (match fmt, alt with | .fmt0, false | .fmt1, true => .e3m2 | _, _ => .e2m3) (two a) (two b) ∧
    sum (.dot8 h fmt alt half sc d a b) 8 8
      (match fmt with | .fmt0 => .e2m1 | .fmt1 => .i4 | .fmt2 => .n4)
      (match fmt with | .fmt0 => .e2m1 | .fmt1 => .i4 | .fmt2 => .n4) (one a 0) (one b pop)

/-- R76 to R79, R130, R132, R137 to R139: the words that draw from the lane generator, and RNDSEED, which sets it. -/
def Obligations.DrawingWords : Prop :=
  ∀ (s : State) (c : Ctx) (h : Hd) (dst src : CvtFmt) (nf : NarrowFmt) (half : Bool) (j : BitVec 2) (kind : RndKind)
    (d a : Reg) (b : Src),
    let draw16 (l k : Nat) : Nat := ((drawAt c l k).extractLsb' 48 16).toNat
    (Issues (.cvtsr h dst src d a) s c → ∃ r : Nat → Nat × FlagSet,
      (∀ l, CvtRule dst src (.sr (draw16 l 0)) false false (c.opA l src.is64 a) (r l)) ∧
      DrawsLanes (.cvtsr h dst src d a) s c 1 fun l => { outSize dst.is64 d (r l).1 with flags := (r l).2 }) ∧
    (Issues (.pack h nf true .rne half j d a b) s c → ∃ e : Nat → Nat → Nat × FlagSet,
      (∀ l, NarrowRule nf (.sr (draw16 l 0)) (fp32.value (c.rd l a.toNat 0)) (e l 0) ∧
        NarrowRule nf (.sr (draw16 l 1)) (floatB c l .f32 a b 0) (e l 1)) ∧
      ∃ r : Nat → BitVec 32 × BitVec 32,
        (∀ l, PackedRule nf half j.toNat (c.rd l d.toNat 0) (c.rd l (d.toNat + 1) 0) (e l 0).1 (e l 1).1 (r l)) ∧
        DrawsLanes (.pack h nf true .rne half j d a b) s c 2 fun l =>
          { regs := (d.toNat, (r l).1) :: (if nf.fp6 then [(d.toNat + 1, (r l).2)] else []), preds := [],
            flags := (e l 0).2 ||| (e l 1).2 }) ∧
    (Issues (.rnd h kind d) s c → ∃ f : Nat → Nat,
      (∀ l, f l < 2 ^ 32 ∧ (fp32.value (f l)).isNan = false ∧ (fp32.value (f l)).isInf = false ∧
        numberOf (fp32.value (f l)) = ((drawAt c l 0).extractLsb' 40 24).toNat / 2 ^ 24) ∧
      DrawsLanes (.rnd h kind d) s c 1 fun l => match kind with
        | .n16 => outW d (draw16 l 0)
        | .n32 => outW d ((drawAt c l 0).extractLsb' 32 32).toNat
        | .n64 => outPair d (drawAt c l 0).toNat
        | .f32 => outW d (f l)) ∧
    (Issues (.rndseed h a) s c → ∃ t L,
      let mix (z : BitVec 64) : BitVec 64 :=
        let z := z + 0x9E3779B97F4A7C15
        let z := (z ^^^ (z >>> 30)) * 0xBF58476D1CE4E5B9
        let z := (z ^^^ (z >>> 27)) * 0x94D049BB133111EB
        z ^^^ (z >>> 31)
      let g0 (l : Nat) : BitVec 64 :=
        let g := s.gang (c.ident l).1
        mix (BitVec.ofNat 64 (c.rdPair l a.toNat) ^^^
          BitVec.ofNat 64 (((s.block g.block).idx * 32 + g.num) * 32 + (c.ident l).2))
      let g1 (l : Nat) : BitVec 64 := mix (g0 l ^^^ 0x6A09E667F3BCC909)
      exec (.rndseed h a) s = .next t ∧ tabFind t.gangs c.gid = some { c.gang with lanes := L } ∧
      (∀ n, n ≠ c.gid → tabFind t.gangs n = tabFind s.gangs n) ∧
      L = { c.gang.lanes with g0 := L.g0, g1 := L.g1 } ∧
      (∀ l, L.gen l = if hasLane (performing (.rndseed h a) c) l then
          (if g0 l = 0 ∧ g1 l = 0 then (1, 0) else (g0 l, g1 l)) else c.gang.lanes.gen l) ∧
      t = { s with gangs := t.gangs,
                   runs := tabPut s.runs c.slot
                     { c.run with seeded := c.run.seeded ||| performing (.rndseed h a) c } })

/-! ## Cross-lane words -/

/-- R159, R162 to R166: SHFL, PUSH, BFLY, VOTE and MATCH. Only performing lanes receive; a performing lane reads any lane of
the gang as it stands. The model's choice: a performing lane of a slice that is away in part supplies its value (assumption log 69). -/
def Obligations.CrossLaneExchange : Prop :=
  ∀ (s : State) (c : Ctx) (h : Hd) (mode : ShflMode) (w : SegWidth) (x64 : Bool) (k : BflyK) (vm : VoteMode) (d a : Reg)
    (b : Src) (pa : PredNo),
    let count (l : Nat) : Nat := (wordB c l a b).toNat
    (Computes (.shfl h mode w x64 d a b) s c fun l =>
      let W := segLanes w
      let base := l - l % W
      let i := l % W
      outSize x64 d (suppliedBy c (performing (.shfl h mode w x64 d a b) c) x64 a (match mode with
        | .idx => base + count l % W
        | .up => if count l ≤ i then l - count l else l
        | .down => if i + count l < W then l + count l else l
        | .xor => base + (i ^^^ (count l % W))))) ∧
    (Computes (.push h x64 d a b) s c fun t =>
      let senders := (List.range 32).filter fun l =>
        hasLane (performing (.push h x64 d a b) c) l && decide (count l % 32 = t)
      match senders.max? with
      | some l => outSize x64 d (c.opA l x64 a)
      | none => LaneOut.none) ∧
    (Computes (.bfly h x64 k d a) s c fun l =>
      outSize x64 d (suppliedBy c (performing (.bfly h x64 k d a) c) x64 a (l ^^^ (match k with | .k1 => 1 | .k2 => 2 | .k4 => 4 | .k8 => 8 | .k16 => 16)))) ∧
    (Computes (.vote h vm d pa) s c fun _ =>
      let m := performing (.vote h vm d pa) c
      let p (l : Nat) : Bool := c.rdPred l pa.toNat
      match vm with
      | .ballot => outW d (ballot m p)
      | .any => outPred (d.setWidth 3) ((List.range 32).any fun l => hasLane m l && p l)
      | .all => outPred (d.setWidth 3) ((List.range 32).all fun l => !hasLane m l || p l)
      | .eq => outPred (d.setWidth 3) ((List.range 32).all fun l => (List.range 32).all fun n =>
          !(hasLane m l && hasLane m n) || p l == p n)) ∧
    (Computes (.matchLanes h x64 d a) s c fun l =>
      outW d (ballot (performing (.matchLanes h x64 d a) c) fun n => c.opA n x64 a == c.opA l x64 a))

/-- R167 to R169: REDX and SCANX combine the performing lanes of a segment; a float sum is exact, rounded once. -/
def Obligations.ReductionsAndScans : Prop :=
  ∀ (s : State) (c : Ctx) (h : Hd) (op : RedOp) (ty : IntTy) (w : SegWidth) (excl : Bool) (d a : Reg),
    let combines (i : Instr) (takes : Nat → Nat → Bool) : Prop :=
      let from_ (l : Nat) : List Nat := (lanesIn (performing i c)).filter (takes l)
      Issues i s c → ∃ r : Nat → Nat × FlagSet,
        (∀ l, op = .fadd → SumAllRule ((from_ l).map fun m => fp32.value (c.rd m a.toNat 0)) (r l)) ∧
        WritesLanes i s c fun l =>
          if op = .fadd then { outW d (r l).1 with flags := (r l).2 }
          else intOut ty d (combined op ty ((from_ l).map fun m => intA c m ty a))
    combines (.redx h op ty w d a) (fun l m => decide (m / segLanes w = l / segLanes w)) ∧
    combines (.scanx h op ty excl w d a) (fun l m =>
      decide (m / segLanes w = l / segLanes w) && decide (if excl then m < l else m ≤ l))

/-! ## Traps -/

/-- R347, R350: a trap at issue stops the cohort at its word. A record names why, where and which lanes; the gang is held,
and keeps what is left of its run; registers, queues and memory stay, and of the cores all but the claims of the run for LDFE words that it
has not issued (R249). For a gang that is no guest. The model's choices: the transfers that words of the group have chosen stay with the
fragments (assumption log 25), and a gang with several trapped cohorts keeps a hold for each (assumption log 26). -/
def Obligations.TakingATrap : Prop :=
  ∀ (s : State) (c : Ctx) (m : LaneSet) (tr : Trap),
    s.issuer = some c → c.gang.guests = [] →
    let t := s.takeTrap c m tr
    let resumeAt := if tr.next then c.run.pos else c.run.pos - 1
    let pointer (n : Nat) : Nat := (c.run.base + n / 3) * 4 + n % 3
    let task := s.task c.gang.task
    tabFind t.faults s.nextId = some
      { code := tr.fail.code, lane := tr.lane.getD 0xFF, info := tr.fail.info, resumable := true, guest := false,
        privileged := task.privileged, task := c.gang.task, addr := tr.addr, block := (s.block c.gang.block).idx,
        lgang := (s.block c.gang.block).idx * task.tcb.blkdim + c.gang.num, pc := pointer (c.run.pos - 1),
        resumePc := pointer resumeAt, performed := tr.performed, active := m, die := c.gang.core / 64,
        core := c.gang.core, token := s.nextId, gang := some c.gid, serve := true } ∧
    (∀ n, n ≠ s.nextId → tabFind t.faults n = tabFind s.faults n) ∧
    (∃ hold rest, tabFind t.gangs c.gid = some { c.gang with holds := c.gang.holds ++ [hold], cohorts := rest } ∧
      hold.token = s.nextId ∧ hold.cohort = c.run.cohort ∧ hold.lanes = m ∧ hold.resumable = true ∧
      rest = c.gang.cohorts.map fun k => if k.id = c.run.cohort then
        { k with resume := some { id := c.run.id, base := c.run.base, pos := resumeAt, xb := c.run.xb, act := c.run.act,
                                  keepW := true } } else k) ∧
    (∀ n, n ≠ c.gid → tabFind t.gangs n = tabFind s.gangs n) ∧
    tabFind t.runs c.slot = none ∧ (∀ n, n ≠ c.slot → tabFind t.runs n = tabFind s.runs n) ∧ t.focus = none ∧
    (∀ core win cell, t.viewByte core win cell = s.viewByte core win cell) ∧
    (∀ n, t.core n = { s.core n with claims := (t.core n).claims }) ∧
    (∀ n, n ≠ c.gang.core → (t.core n).claims = (s.core n).claims) ∧
    (∀ x, x ∈ (t.core c.gang.core).claims ↔ x ∈ (s.core c.gang.core).claims ∧ (x.1 = c.run.id →
      ∃ p ∈ s.ops, p.2.run = c.run.id ∧ (∃ clear, p.2.kind = .ldfe clear) ∧
        ∃ a ∈ p.2.accs, a.done = false ∧ a.addr / 16 = x.2.2)) ∧
    t = { s with gangs := t.gangs, runs := t.runs, focus := none, faults := t.faults, cores := t.cores,
                 nextId := s.nextId + 1 }

/-- R13, R353: a register beyond the allotment traps REGBOUND, a privileged word in an unprivileged task PRIV, before any
effect of the word. The registers are all that the word names, those of its pairs and quads among them; PREF names one and takes no
trap (R259). -/
def Obligations.BoundsAndPrivilege : Prop :=
  ∀ (s : State) (c : Ctx) (i : Instr) (l : Nat),
    let needs : Prop := match i with
      | .eret .. | .halt .. | .tlbinvPage .. | .tlbinvAll .. | .movsw .. | .movswChkey .. | .movswChmode ..
      | .movswChconf .. => True
      | .movs _ _ r => r = .chstat ∨ r = .ptroot ∨ r = .defsuper ∨ r = .deffault
      | _ => False
    let beyond (f : Nat) : Prop := f < 112 ∧ c.gang.allot ≤ c.run.xb + f
    s.issuer = some c → c.gang.guests = [] → IsLowest (performing i c) l → l < 32 →
    (i.WellFormed → needs → (s.task c.gang.task).privileged = false → TakesTrap i s c trapPriv (some l) 0 false) ∧
    (i.WellFormed → (needs → (s.task c.gang.task).privileged = true) → (∀ h l2 a off, i ≠ .pref h l2 a off) →
      (∃ f ∈ (usesOf i).reads ++ (usesOf i).writes, beyond f) → TakesTrap i s c trapRegBound (some l) 0 false) ∧
    (∀ h ty sat d a (b : Reg), i = .add h ty sat d a (.reg b) → i.WellFormed →
      (∃ r ∈ [d, a, b], beyond r.toNat ∨ (ty.is64 = true ∧ r.toNat < 112 ∧ beyond (r.toNat + 1))) →
      TakesTrap i s c trapRegBound (some l) 0 false) ∧
    (∀ h ty sat d a b, i = .add h ty sat d a b → i.WellFormed → d.toNat < 112 → c.gang.allot ≤ c.run.xb + d.toNat →
      TakesTrap i s c trapRegBound (some l) 0 false) ∧
    (∀ h sz sx d a off, i = .ld h sz sx d a off → i.WellFormed → c.gang.allot ≤ c.run.xb + d.toNat →
      TakesTrap i s c trapRegBound (some l) 0 false) ∧
    (∀ h sz d a off, i = .st h sz d a off → i.WellFormed → d.toNat < 112 → c.gang.allot ≤ c.run.xb + d.toNat →
      TakesTrap i s c trapRegBound (some l) 0 false)

/-- R116, R354: TRAP, BRK and SVC trap in their performing lanes and go on at the next word; with none, they have no
effect. -/
def Obligations.ProgramTraps : Prop :=
  ∀ (s : State) (c : Ctx) (h : Hd) (code : BitVec 14),
    let raises (i : Instr) (f : Fail) : Prop := Issues i s c →
      (performing i c = 0 → NoEffect i s c) ∧
      (∀ l < 32, IsLowest (performing i c) l → TakesTrap i s c f (some l) 0 true)
    raises (.trap h code) { code := 22, info := 2 ^ 14 + code.toNat } ∧
    raises (.brk h code) { code := 22, info := code.toNat } ∧
    raises (.svc h code) { code := 21, info := code.toNat }

/-! ## Control flow -/

/-- R55, R110, R111, R114, R115: BRA, JOIN and EXIT move each slice of the cohort by its own divergence stack. -/
def Obligations.DivergenceTransfers : Prop :=
  ∀ (s : State) (c : Ctx) (p : PredNo) (im : Imm36),
    let J0 := c.run.base
    let N := c.run.base + c.run.words.length / 3
    let P := c.run.base + (c.run.pos - 1) / 3
    let target : Int := P + match im with
      | .short v => v.toInt
      | .long v => v.toInt
    let inRange : Prop := 0 ≤ target ∧ target < 2 ^ 30
    let S := target.toNat
    -- the lowest active lane of the slices that have no room for an entry takes the trap
    let stuck (full : Frag → Bool) (l : Nat) : Prop :=
      IsLowest ((c.gang.frags.filter fun f => f.cohort = c.run.cohort && full f).foldl (fun m f => m ||| f.act) 0) l
    let bra : Instr := .bra p im
    let taken : LaneSet := performing bra c
    (Issues (.bra 7 im) s c → inRange →
      LeavesGang (.bra 7 im) s c { c.gang with frags := movedFrags c fun f => { f with next := some S } }) ∧
    (Issues bra s c → p ≠ 7 → inRange → (∀ f ∈ c.gang.frags, f.cohort = c.run.cohort → stackFull S f.stack = false) →
      ∃ go : Frag → Frag, LeavesGang bra s c { c.gang with frags := movedFrags c go } ∧
        ∀ f ∈ c.gang.frags, f.cohort = c.run.cohort →
          let f1 : Frag := { f with stack := parkedAt S (f.act &&& taken) f.stack }
          if f.act &&& ~~~taken ≠ 0 then go f = { f1 with act := f.act &&& ~~~taken, next := some N } else Resumed f1 (go f)) ∧
    (Issues bra s c → ¬inRange → ∀ l < 32, IsLowest (performing bra c) l → TakesTrap bra s c trapIllegal (some l) 0 false) ∧
    (Issues bra s c → p ≠ 7 → inRange → ∀ l < 32, stuck (fun f => stackFull S f.stack) l →
      TakesTrap bra s c trapIllegal (some l) 0 false) ∧
    (Issues .join s c → ∀ l < 32, stuck (fun f => match f.stack with
        | [] => false
        | e :: st => e.1 != J0 && e.2 != 0 && stackFull J0 st) l →
      TakesTrap .join s c trapIllegal (some l) 0 false) ∧
    (Issues .join s c → (∀ f ∈ c.gang.frags, f.cohort = c.run.cohort → ∀ e st, f.stack = e :: st →
        e.1 = J0 ∨ e.2 = 0 ∨ stackFull J0 st = false) →
      LeavesGang .join s c { c.gang with frags := movedFrags c fun f =>
        match f.stack with
        | [] => { f with next := some N }
        | (q, n) :: st =>
          if q = J0 then { f with stack := st, act := f.act ||| n, next := some N }
          else if n = 0 then { f with stack := st, next := some N }
          else { f with stack := parkedAt J0 f.act st, act := n, next := some q } }) ∧
    (Issues (.exit p) s c →
      ∃ go : Frag → Frag, LeavesGang (.exit p) s c { c.gang with frags := movedFrags c go } ∧
        ∀ f ∈ c.gang.frags, f.cohort = c.run.cohort →
          let gone := f.act &&& performing (.exit p) c
          let f1 : Frag := { f with act := f.act &&& ~~~gone, stack := f.stack.map fun e => (e.1, e.2 &&& ~~~gone) }
          if f1.act ≠ 0 then go f = { f1 with next := some N } else Resumed f1 (go f))

/-- R55, R112, R113, R115: BRX and RET go where each lane's code pointer says, those that go elsewhere than the lowest lane waiting
at the run's first packet; CALL writes the link and goes to its target. A stack without room, and a target out of range, trap
ILLEGAL. The model's choice: the link of a CALL in the last packet wraps to 0 (assumption log 64). -/
def Obligations.ComputedTransfers : Prop :=
  ∀ (s : State) (c : Ctx) (p : PredNo) (d a : Reg) (im : Imm36),
    let N := c.run.base + c.run.words.length / 3
    let P := c.run.base + (c.run.pos - 1) / 3
    let target : Int := P + match im with
      | .short v => v.toInt
      | .long v => v.toInt
    let jumps (i : Instr) : Prop :=
      let goal (l : Nat) : Nat := if hasLane (performing i c) l then c.rd l a.toNat 0 / 4 else N
      let same (f : Frag) (l0 : Nat) : LaneSet := f.act &&& BitVec.ofNat 32 (ballot f.act fun l => goal l == goal l0)
      let aligned : Prop := ∀ l < 32, hasLane (performing i c) l = true → c.rd l a.toNat 0 % 4 = 0
      let full (f : Frag) : Bool := stackFull c.run.base f.stack && (lowestLane f.act).any fun l0 => same f l0 != f.act
      (Issues i s c → aligned → (∀ f ∈ c.gang.frags, f.cohort = c.run.cohort → full f = false) →
        ∃ go : Frag → Frag,
          LeavesGang i s c { popped i c with frags := movedFrags c go } ∧
          ∀ f ∈ c.gang.frags, f.cohort = c.run.cohort →
            (f.act = 0 → go f = f) ∧
            ∀ l0, IsLowest f.act l0 →
              go f = { f with act := same f l0, next := some (goal l0),
                              stack := if same f l0 = f.act then f.stack
                                else parkedAt c.run.base (f.act &&& ~~~same f l0) f.stack }) ∧
      (Issues i s c → ∀ l < 32, hasLane (performing i c) l = true → c.rd l a.toNat 0 % 4 ≠ 0 →
        (∀ k < l, hasLane (performing i c) k = true → c.rd k a.toNat 0 % 4 = 0) →
        TakesTrap i s c trapIllegal (some l) 0 false) ∧
      (Issues i s c → aligned → ∀ l < 32,
        IsLowest ((c.gang.frags.filter fun f => f.cohort = c.run.cohort && full f).foldl (fun m f => m ||| f.act) 0) l →
        TakesTrap i s c trapIllegal (some l) 0 false)
    jumps (.brx p a) ∧ jumps (.ret p a) ∧
    (Issues (.call d im) s c → 0 ≤ target → target < 2 ^ 30 →
      ∃ t L, exec (.call d im) s = .next t ∧
        GangOnly s c.gid
          { c.gang with lanes := L, frags := movedFrags c fun f => { f with next := some target.toNat } } t ∧
        LaneWrite c.run.xb c.run.act (fun _ => outW d ((P + 1) * 4)) c.gang.lanes L) ∧
    (Issues (.call d im) s c → ¬(0 ≤ target ∧ target < 2 ^ 30) → ∀ l < 32, IsLowest (performing (.call d im) c) l →
      TakesTrap (.call d im) s c trapIllegal (some l) 0 false)

/-- R117, R106, R170, R171, R179, R259: NOP, WAIT, TAKE, BAR.wait of a group of the gang, and PREF leave everything as it
was: what they do, they do through the start of their run. -/
def Obligations.WordsWithoutEffect : Prop :=
  ∀ (s : State) (c : Ctx) (h : Hd) (k : Bool) (l st : BitVec 4) (t m : BitVec 3) (g : BitVec 9) (l2 : Bool) (a : Reg)
    (off : BitVec 22),
    (Issues (.nop h) s c → NoEffect (.nop h) s c) ∧
    (Issues (.wait k l st t m) s c → NoEffect (.wait k l st t m) s c) ∧
    (Issues (.take k) s c → NoEffect (.take k) s c) ∧
    (s.issuer = some c → exec (.pref h l2 a off) s = .next s) ∧
    (Issues (.barWait k g) s c →
      let n := (s.block c.gang.block).idx * (s.task c.gang.task).tcb.blkdim + c.gang.num
      (g.toNat = 256 ∨ n ∈ tabGet (s.task c.gang.task).groups [] g.toNat → NoEffect (.barWait k g) s c) ∧
      (g.toNat ≠ 256 → n ∉ tabGet (s.task c.gang.task).groups [] g.toNat →
        TakesTrap (.barWait k g) s c trapBarrier (lowestLane (performing (.barWait k g) c)) 0 false))

/-- R21, R100, R101, R144, R178, R357: SETXB takes the register index from the lowest lane of the highest slice that performs; BSLOAD
sets the cursors; MOVSW of LSTAT clears the bits written as 1; REGANG has the end of its run gather the cohort; YIELD starts
its waiting anew. The model's choices: BSLOAD of a cursor at or beyond 2^55 traps ACCESS with cause 3 (assumption log 48), of words of
one group a MOVSW of LSTAT clears what lower slots have set (assumption log 69), and waiting is counted in steps (assumption log 51). -/
def Obligations.GangWords : Prop :=
  ∀ (s : State) (c : Ctx) (h : Hd) (a : Reg),
    (Issues (.setxb h a) s c →
      (performing (.setxb h a) c = 0 → NoEffect (.setxb h a) s c) ∧
      ∀ l < 32, hasLane (performing (.setxb h a) c) l = true →
        (∀ k < 32, hasLane (performing (.setxb h a) c) k = true → k / 4 < l / 4 ∨ (k / 4 = l / 4 ∧ l ≤ k)) →
        LeavesGang (.setxb h a) s c
          { popped (.setxb h a) c with xb := (BitVec.ofNat 9 (c.rd l a.toNat 0) &&& ~~~7).toNat }) ∧
    (Issues (.bsload h a) s c →
      ((∀ l < 32, hasLane (performing (.bsload h a) c) l = true → c.rdPair l a.toNat < 2 ^ 55) →
        ∃ cur, LeavesGang (.bsload h a) s c
            { popped (.bsload h a) c with lanes := { c.gang.lanes with cursor := cur } } ∧
          ∀ l, tabGet cur 0 l = if hasLane (performing (.bsload h a) c) l then BitVec.ofNat 55 (c.rdPair l a.toNat)
            else tabGet c.gang.lanes.cursor 0 l) ∧
      ∀ l < 32, hasLane (performing (.bsload h a) c) l = true → 2 ^ 55 ≤ c.rdPair l a.toNat →
        (∀ k < l, hasLane (performing (.bsload h a) c) k = true → c.rdPair k a.toNat < 2 ^ 55) →
        TakesTrap (.bsload h a) s c { code := 9, info := 3 } (some l) (c.rdPair l a.toNat / 8) false) ∧
    (Issues (.movswLstat h a) s c →
      ∃ st, LeavesGang (.movswLstat h a) s c
          { popped (.movswLstat h a) c with lanes := { c.gang.lanes with lstat := st } } ∧
        ∀ l, tabGet st 0 l = if hasLane (performing (.movswLstat h a) c) l then
            tabGet c.gang.lanes.lstat 0 l &&& ~~~BitVec.ofNat 6 (c.rd l a.toNat 0) else tabGet c.gang.lanes.lstat 0 l) ∧
    (Issues .regang s c → LeavesGang .regang s c { c.gang with
      cohorts := c.gang.cohorts.map fun k => if k.id = c.run.cohort then { k with regang := true } else k }) ∧
    (Issues .yield s c → LeavesGang .yield s c { c.gang with
      cohorts := c.gang.cohorts.map fun k => if k.id = c.run.cohort then { k with stamp := s.time } else k })

/-! ## Barriers, tempo, allotment -/

/-- R146, R171, R172: BAR and BAR.arrive record the gang's arrival; the generation completes once every member has arrived or
ended, and it keeps, for every member, the number below which what it issued is performed before the runs that the generation
releases start. The model's choices: which operations a generation keeps as its edges, by the mark of each arrival, and its completion at
once with the last arrival (assumption log 41). -/
def Obligations.BarrierArrivals : Prop :=
  ∀ (s : State) (c : Ctx) (k : Bool) (g : BitVec 9),
    let G := g.toNat
    let tn := c.gang.task
    let task := s.task tn
    let idx := (s.block c.gang.block).idx
    let n := idx * task.tcb.blkdim + c.gang.num
    let key := if G = 256 then 256 + idx else G
    let gen := tabGet task.gens 0 key
    let members : List Nat := if G = 256 then (List.range task.tcb.blkdim).map (idx * task.tcb.blkdim + ·)
      else tabGet task.groups [] G
    let mayArrive : Prop := (G = 256 ∨ n ∈ members) ∧ c.gang.away = [] ∧
      (∀ f ∈ c.gang.frags, f.cohort = c.run.cohort) ∧ tabGet c.gang.arrivals 0 G ≠ gen + 1
    let arrives (i : Instr) (g' : Gang) : Prop :=
      Issues i s c →
      (mayArrive →
        let g1 : Gang := { g' with arrivals := tabPut g'.arrivals G (gen + 1), marks := tabPut g'.marks G s.nextId }
        let s1 := s.setGang c.gid g1
        let completes : Prop :=
          (∀ m ∈ members, ∃ p, s1.findGang tn m = some p ∧ (p.2.status = .ended ∨ tabGet p.2.arrivals 0 G = gen + 1)) ∧
          (∃ m ∈ members, ∃ p, s1.findGang tn m = some p ∧ p.2.status ≠ .ended)
        let issuedBefore (p : Nat × Gang) : Nat × Nat :=
          (p.1, if p.2.status = .ended then s.nextId else tabGet p.2.marks s.nextId G)
        ∃ t, exec i s = .next t ∧ tabFind t.gangs c.gid = some g1 ∧
          (∀ m, m ≠ c.gid → tabFind t.gangs m = tabFind s.gangs m) ∧
          t = { s with gangs := t.gangs, tasks := t.tasks } ∧
          (¬completes → t.tasks = s.tasks) ∧
          (completes → t.tasks = tabPut s.tasks tn { task with
            gens := tabPut task.gens key (gen + 1),
            edges := tabPut task.edges (key * 2 ^ 40 + (gen + 1)) ((members.filterMap (s1.findGang tn)).map issuedBefore) }) ∧
          ∀ core win cell, t.viewByte core win cell = s.viewByte core win cell) ∧
      (¬mayArrive → TakesTrap i s c trapBarrier (lowestLane (performing i c)) 0 false)
    arrives (.barArrive k g) c.gang ∧
    arrives (.barSync k g) { c.gang with
      cohorts := c.gang.cohorts.map fun q => if q.id = c.run.cohort then { q with barWait := (G, gen + 1) :: q.barWait } else q }

/-- R156, R157, R173, R179, R180, R197: PASS of the gang that holds the tempo hands it to the next gang in ascending order that
has not ended, which holds it once what the gangs before it issued has been performed; GROW and SHRINK change the allotment within MAXREGS, 512 and REGS; SHRINK
discards the registers it returns and the writes pending to them; RXWIN opens the register window and gives its address. The model's
choices: the window's handle is the model's next number (assumption log 20), and the next holder of the tempo waits for all that the
gangs before it have issued (assumption log 70). -/
def Obligations.TempoAllotmentWindow : Prop :=
  (∀ (s : State) (c : Ctx) (k : Bool),
     let tn := c.gang.task
     let task := s.task tn
     let n := (s.block c.gang.block).idx * task.tcb.blkdim + c.gang.num
     let total := task.tcb.grid * task.tcb.blkdim
     let ended (m : Nat) : Prop := ∃ p ∈ s.gangs, p.2.task = tn ∧ p.2.guests = [] ∧ p.2.status = .ended ∧
       (s.block p.2.block).status ≠ .lost ∧ (s.block p.2.block).idx * (s.task p.2.task).tcb.blkdim + p.2.num = m
     let has : Prop := task.tcb.det ∧ (task.tcb.tempoFlag ∨ ∃ r ∈ task.tcb.tempo, r.1 ≤ r.2)
     let holds : Prop := has ∧ task.tempo = some n ∧ ∀ w ∈ task.tempoWait,
       (s.block (s.gang w.1).block).idx * (s.task (s.gang w.1).task).tcb.blkdim + (s.gang w.1).num = n ∨
       ∀ o ∈ s.ops, o.2.gang = w.1 → o.1 < w.2 → ∀ a ∈ o.2.accs, a.done = true
     Issues (.pass k) s c →
     (¬holds → NoEffect (.pass k) s c) ∧
     (holds →
       ∃ t next, exec (.pass k) s = .next t ∧ tabFind t.gangs c.gid = some c.gang ∧
         (∀ m, m ≠ c.gid → tabFind t.gangs m = tabFind s.gangs m) ∧
         t = { s with gangs := t.gangs,
                      tasks := tabPut s.tasks tn { task with tempo := next, tempoWait := (c.gid, s.nextId) :: task.tempoWait } } ∧
         (∀ j < total, ¬ended ((n + 1 + j) % total) → (∀ j' < j, ended ((n + 1 + j') % total)) →
           next = some ((n + 1 + j) % total)) ∧
         ∀ core win cell, t.viewByte core win cell = s.viewByte core win cell)) ∧
  (∀ (s : State) (c : Ctx) (k : Bool) (n : BitVec 14) (m : BitVec 7) (d : Reg) (base : BitVec 7),
     let tcb := (s.task c.gang.task).tcb
     let up := c.gang.allot + n.toNat
     let down := c.gang.allot - n.toNat
     let first := c.run.xb + base.toNat
     let low (i : Instr) : Option Nat := lowestLane (performing i c)
     let inWindow : Prop := ∃ w, c.gang.window = some w ∧ 0 < w.n ∧ down < w.base + w.n
     (Issues (.grow k n) s c →
       (up ≤ tcb.maxregs → up ≤ 512 → LeavesGang (.grow k n) s c { c.gang with allot := up }) ∧
       (tcb.maxregs < up ∨ 512 < up → TakesTrap (.grow k n) s c { code := 5, info := 7 } (low (.grow k n)) 0 false)) ∧
     (Issues (.shrink k n) s c →
       (c.gang.allot < n.toNat + tcb.regs →
         TakesTrap (.shrink k n) s c { code := 5, info := 8 } (low (.shrink k n)) 0 false) ∧
       (n.toNat + tcb.regs ≤ c.gang.allot → inWindow →
         TakesTrap (.shrink k n) s c { code := 5, info := 9 } (low (.shrink k n)) 0 false) ∧
       (n.toNat + tcb.regs ≤ c.gang.allot → ¬inWindow →
         ∃ t rs, exec (.shrink k n) s = .next t ∧
           tabFind t.gangs c.gid = some { c.gang with
             allot := down, lanes := { c.gang.lanes with regs := rs },
             units := c.gang.units.take (down / 8) ++ c.gang.units.drop (c.gang.allot / 8) } ∧
           (∀ x, tabGet rs 0 x = if x % 512 < down then tabGet c.gang.lanes.regs 0 x else 0) ∧
           (∀ x, x ≠ c.gid → tabFind t.gangs x = tabFind s.gangs x) ∧ t = { s with gangs := t.gangs, ops := t.ops } ∧
           (∀ x, tabFind t.ops x = (tabFind s.ops x).map fun o =>
             if o.gang = c.gid then
               { o with
                 dest := match o.dest with
                   | none => none
                   | some e => if down ≤ e.first then none else some { e with count := min e.count (down - e.first) },
                 held := o.held.filter fun r => decide (r < down) }
             else o) ∧
           ∀ core win cell, t.viewByte core win cell = s.viewByte core win cell)) ∧
     (Issues (.rxwin k m d base) s c →
       (m ≠ 0 → c.gang.allot < first + m.toNat →
         TakesTrap (.rxwin k m d base) s c trapRegBound (low (.rxwin k m d base)) 0 false) ∧
       (m = 0 ∨ first + m.toNat ≤ c.gang.allot →
         ∃ t L, exec (.rxwin k m d base) s = .next t ∧
           tabFind t.gangs c.gid = some { c.gang with
             lanes := L,
             window := if m = 0 then none else some { base := first, n := m.toNat, handle := s.nextId } } ∧
           LaneWrite c.run.xb (performing (.rxwin k m d base) c)
             (fun _ => outPair d (6 * 2 ^ 61 + 2 ^ 58 + c.core % 64 * 2 ^ 52 + s.nextId % 2 ^ 32 * 2 ^ 20)) c.gang.lanes L ∧
           (∀ x, x ≠ c.gid → tabFind t.gangs x = tabFind s.gangs x) ∧
           t = { s with gangs := t.gangs, nextId := s.nextId + 1 } ∧
           ∀ core win cell, t.viewByte core win cell = s.viewByte core win cell)))

/-- R15, R43, R45, R142 to R144, R177, R415: TRAIL ends the run. Its slot is free, the registers it names whose writes are
pending are held, the run temporaries go, each slice stands where its transfer left it or after the run, slices that stand at
one packet stay one cohort, slices that stand apart part. Where every cohort is gathered then, and no lane is away, they form
one cohort at each packet, and fragments of a slice that wait for the same packets merge. Of a gang that keeps a slice. The model's
choice: the odd half of a pair, named in TRAIL, sets no hold (assumption log 39). -/
def Obligations.RunEnds : Prop :=
  ∀ (s : State) (c : Ctx) (d a b : Reg),
    let N := c.run.base + c.run.words.length / 3
    let goesOn (f f' : Frag) : Prop :=
      if f.act = 0 then ∃ f1, Resumed f f1 ∧ f1.act ≠ 0 ∧ f' = { f1 with pc := f1.next.getD N, next := none }
      else f' = { f with pc := f.next.getD N, next := none }
    let ends (f : Frag) : Prop := f.act = 0 ∧ ∀ e ∈ f.stack, e.2 = 0
    let mine (f : Frag) : Prop := f.cohort = c.run.cohort
    let settled (fs : List Frag) : Prop :=
      (∀ f' ∈ fs, ∃ f ∈ c.gang.frags, if f.cohort = c.run.cohort then goesOn f { f' with cohort := f.cohort } else f' = f) ∧
      (∀ f ∈ c.gang.frags, mine f → ends f ∨ ∃ f' ∈ fs, goesOn f { f' with cohort := f.cohort }) ∧
      ∀ f ∈ c.gang.frags, ¬mine f → f ∈ fs
    let apart : Prop := c.gang.away ≠ [] ∨ (∃ q ∈ c.gang.cohorts, q.id ≠ c.run.cohort ∧ q.gathered = false) ∨
      ((∃ f ∈ c.gang.frags, mine f ∧ ¬ends f) ∧
        ∃ q ∈ c.gang.cohorts, q.id = c.run.cohort ∧ q.gathered = false ∧ q.regang = false)
    let gathers : Prop := c.gang.away = [] ∧ c.gang.cohorts ≠ [] ∧ (∃ f ∈ c.gang.frags, mine f ∧ ¬ends f) ∧
      (∃ q ∈ c.gang.cohorts, q.id = c.run.cohort) ∧
      ∀ q ∈ c.gang.cohorts, q.gathered = true ∨ (q.id = c.run.cohort ∧ q.regang = true)
    let named : Prop := (∀ f ∈ c.gang.frags, f.cohort < c.gang.nextCohort) ∧
      (∃ q ∈ c.gang.cohorts, q.id = c.run.cohort) ∧ c.run.cohort < c.gang.nextCohort
    let lanesAt (f : Frag) (i : Nat) : LaneSet := if i = 0 then f.act else ((f.stack[i - 1]?).map (·.2)).getD 0
    Issues (.trail d a b) s c → c.gang.guests = [] →
    (∃ f ∈ c.gang.frags, ¬mine f ∨ ¬ends f) →
      ∃ t g, exec (.trail d a b) s = .next t ∧ tabFind t.gangs c.gid = some g ∧
        (∀ x, x ≠ c.gid → tabFind t.gangs x = tabFind s.gangs x) ∧
        t = { s with gangs := t.gangs, ops := t.ops, runs := tabDel s.runs c.slot, focus := none } ∧
        g = { c.gang with lanes := g.lanes, frags := g.frags, cohorts := g.cohorts, nextCohort := g.nextCohort, started := true } ∧
        (apart → settled g.frags ∧ (named →
          ∀ f1 ∈ g.frags, ∀ f2 ∈ g.frags, (f1.cohort = c.run.cohort ∨ c.gang.nextCohort ≤ f1.cohort) →
            (f2.cohort = c.run.cohort ∨ c.gang.nextCohort ≤ f2.cohort) → (f1.cohort = f2.cohort ↔ f1.pc = f2.pc))) ∧
        (gathers → (∀ q ∈ g.cohorts, q.gathered = false) ∧
          (named → (∀ f1 ∈ c.gang.frags, ∀ f2 ∈ c.gang.frags, ¬mine f1 → f1.cohort = f2.cohort → f1.pc = f2.pc) →
            ∀ f1 ∈ g.frags, ∀ f2 ∈ g.frags, (f1.cohort = f2.cohort ↔ f1.pc = f2.pc)) ∧
          (∀ f1 ∈ g.frags, ∀ f2 ∈ g.frags, f1.slice = f2.slice → f1.pc = f2.pc →
            f1.stack.map (·.1) = f2.stack.map (·.1) → f1 = f2) ∧
          ∃ fs, settled fs ∧ ∀ slice pc ps i l,
            (∃ f ∈ g.frags, f.slice = slice ∧ f.pc = pc ∧ f.stack.map (·.1) = ps ∧ hasLane (lanesAt f i) l = true) ↔
            ∃ f ∈ fs, f.slice = slice ∧ f.pc = pc ∧ f.stack.map (·.1) = ps ∧ hasLane (lanesAt f i) l = true) ∧
        g.lanes = { c.gang.lanes with w := g.lanes.w } ∧
        (∀ l n, n < 8 → tabGet g.lanes.w 0 (l * 8 + n) =
          if (∃ f ∈ c.gang.frags, mine f ∧ hasLane (sliceLanes f.slice) l = true) ∧
            ¬∃ f ∈ c.gang.frags, ¬mine f ∧ hasLane f.act l = true then 0
          else tabGet c.gang.lanes.w 0 (l * 8 + n)) ∧
        (∀ x, tabFind t.ops x = (tabFind s.ops x).map fun o =>
          match o.dest with
          | some e =>
            if o.run = c.run.id ∧ ∃ r ∈ [d, a, b], r.toNat < 112 ∧ c.run.xb + r.toNat = e.first then
              { o with held := (List.range e.count).map (e.first + ·) }
            else o
          | none => o) ∧
        ∀ core win cell, t.viewByte core win cell = s.viewByte core win cell

/-! ## Memory words -/

/-- R103, R243, R245, R257: LD, ST and their ordered forms issue one access in each performing lane. -/
def Obligations.FlatLoadsAndStores : Prop :=
  ∀ (s : State) (c : Ctx) (h : Hd) (sz : Size) (sx acq : Bool) (scope : Scope) (d a : Reg) (off : BitVec 22)
    (leaf : Nat → Leaf),
    let addr (l : Nat) : Nat := c.addr l a off
    let n := sz.bytes
    let loads (i : Instr) (ord : Order) (scope : Scope) : Prop :=
      Issues i s c → Reaches i s c n n (needOf s c true false) addr leaf →
      FilesOp i s c (opIssued s c .load .ld ord scope (some (destOf c d n sx)) (performing i c)
        (accesses c (performing i c) ord fun l => flatAcc l (addr l) n 0 (leaf l)))
    let stores (i : Instr) (strong : Bool) (ord : Order) (scope : Scope) : Prop :=
      Issues i s c → Reaches i s c n n (needOf s c false true) addr leaf → TempoFree i s c n addr leaf →
      FilesOp i s c (opIssued s c (.store strong) .st ord scope none (performing i c)
        (accesses c (performing i c) ord fun l => flatAcc l (addr l) n (dataOf c l d n) (leaf l)))
    loads (.ld h sz sx d a off) .rlx .k ∧ loads (.ldOrdered h sz sx acq scope d a off) (if acq then .acq else .rlx) scope ∧
    stores (.st h sz d a off) false .rlx .k ∧
    stores (.stOrdered h sz acq scope d a off) true (if acq then .rel else .rlx) scope

/-- R105, R244: a plain access that fails traps in the lowest-numbered failing lane, an ordered one at the first check that
fails in any lane; an atomic traps ADDRDUP where two performing lanes name one address. No lane performs. No table entry that the word's
walks read is held by a channel in promotion mode: there the word waits (R316). -/
def Obligations.AccessChecks : Prop :=
  ∀ (s : State) (c : Ctx) (h : Hd) (sz : Size) (sx acq noret : Bool) (scope : Scope) (op : AtomOp) (ty : AtomTy) (ord : Order)
    (d a : Reg) (off : BitVec 22) (l k : Nat) (f : Fail),
    let addr (l : Nat) : Nat := c.addr l a off
    let check (need : Need) (l : Nat) : Option (Nat × Fail) := checkOf s c sz.bytes need (addr l)
    let ld : Instr := .ld h sz sx d a off
    let ordered : Instr := .ldOrdered h sz sx acq scope d a off
    let atom : Instr := .atom h op ty ord scope noret d a off
    let r := needOf s c true false
    let rw := needOf s c true true
    l < 32 →
    (Issues ld s c → Stays ld s c sz.bytes r addr → hasLane (performing ld c) l = true → check r l = some (k, f) → f ≠ failWait →
      (∀ m < l, hasLane (performing ld c) m = true → check r m = none) → TakesTrap ld s c f (some l) (addr l) false) ∧
    (Issues ordered s c → Stays ordered s c sz.bytes r addr → hasLane (performing ordered c) l = true → check r l = some (k, f) →
      (∀ m k' f', hasLane (performing ordered c) m = true → check r m = some (k', f') →
        f' ≠ failWait ∧ (k < k' ∨ (k = k' ∧ l ≤ m))) →
      TakesTrap ordered s c f (some l) (addr l) false) ∧
    (Issues atom s c → Stays atom s c ty.bytes rw addr →
      (∀ m < 32, hasLane (performing atom c) m = true → tabGet c.gang.seqs 0 m < 2 ^ 32 ∧ addr m % ty.bytes = 0 ∧
        s.coreTranslate c.gang.core (addr m) ty.bytes rw ≠ .error failWait) →
      hasLane (performing atom c) l = true →
      (∃ m < 32, m ≠ l ∧ hasLane (performing atom c) m = true ∧ addr m = addr l) →
      (∀ m < l, ∀ m' < 32, hasLane (performing atom c) m = true → hasLane (performing atom c) m' = true → m' ≠ m →
        addr m' ≠ addr m) →
      TakesTrap atom s c trapAddrDup (some l) (addr l) false)

/-- R201, R247 to R250: the scratchpad and lane-private words issue one access in each performing lane within the space;
LDFE, whose addresses are those at the start of its run, is an acquire and STFE a release at core scope. An offset that is
not aligned, or beyond its space, traps. The model's choice: so does an access that begins in its space and crosses the end
(assumption log 48). -/
def Obligations.ScratchpadAndPrivate : Prop :=
  ∀ (s : State) (c : Ctx) (h : Hd) (sz : SSize) (sx clear : Bool) (d a : Reg) (off : BitVec 22),
    let o (l : Nat) : Nat := c.addr l a off
    let tcb := (s.task c.gang.task).tcb
    let fits (i : Instr) (n limit : Nat) : Prop :=
      ∀ l, hasLane (performing i c) l = true → o l % n = 0 ∧ o l + n ≤ limit
    let acc (isPriv : Bool) (n : Nat) (data : Nat → Nat) (l : Nat) : Acc := localAccess s c isPriv l (o l) n (data l)
    let loads (i : Instr) (isPriv : Bool) : Prop := Issues i s c → fits i sz.bytes (if isPriv then tcb.priv else tcb.scratch) →
      FilesOp i s c (opIssued s c .load .ld .rlx .k (some (destOf c d sz.bytes sx)) (performing i c)
        (accesses c (performing i c) .rlx (acc isPriv sz.bytes fun _ => 0)))
    let stores (i : Instr) (isPriv : Bool) : Prop := Issues i s c → fits i sz.bytes (if isPriv then tcb.priv else tcb.scratch) →
      FilesOp i s c (opIssued s c (.store false) .st .rlx .k none (performing i c)
        (accesses c (performing i c) .rlx (acc isPriv sz.bytes fun l => dataOf c l d sz.bytes)))
    let traps (i : Instr) (isPriv : Bool) : Prop := ∀ l < 32, Issues i s c → hasLane (performing i c) l = true →
      (o l % sz.bytes ≠ 0 → (∀ m < l, hasLane (performing i c) m = true → o m % sz.bytes = 0) →
        TakesTrap i s c trapMisalign (some l) (o l) false) ∧
      ((∀ m < 32, hasLane (performing i c) m = true → o m % sz.bytes = 0) →
        (if isPriv then tcb.priv else tcb.scratch) < o l + sz.bytes →
        (∀ m < l, hasLane (performing i c) m = true → o m + sz.bytes ≤ if isPriv then tcb.priv else tcb.scratch) →
        TakesTrap i s c { code := 9, info := 11 } (some l) (o l) false)
    loads (.lds h sz sx d a off) false ∧ loads (.ldp h sz sx d a off) true ∧
    stores (.sts h sz d a off) false ∧ stores (.stp h sz d a off) true ∧
    traps (.lds h sz sx d a off) false ∧ traps (.ldp h sz sx d a off) true ∧
    traps (.sts h sz d a off) false ∧ traps (.stp h sz d a off) true ∧
    (Issues (.stfe h d a off) s c → fits (.stfe h d a off) 16 tcb.scratch →
      FilesOp (.stfe h d a off) s c (opIssued s c .stfe .st .rel .k none (performing (.stfe h d a off) c)
        (accesses c (performing (.stfe h d a off) c) .rel (acc false 16 fun l => dataOf c l d 16)))) ∧
    (Issues (.ldfe h sz sx clear d a off) s c →
      let start (l : Nat) : Nat := ({ c with run := { c.run with group := c.run.entry } } : Ctx).addr l a off
      (∀ l, hasLane (performing (.ldfe h sz sx clear d a off) c) l = true →
        start l % sz.bytes = 0 ∧ start l + sz.bytes ≤ tcb.scratch) →
      ∃ t, exec (.ldfe h sz sx clear d a off) s = .next t ∧ (∀ x, tabFind t.cores x = tabFind s.cores x) ∧
        t = { s with
          gangs := tabPut s.gangs c.gid (popped (.ldfe h sz sx clear d a off) c),
          ops := tabPut s.ops s.nextId (opIssued s c (.ldfe clear) .ld .acq .k (some (destOf c d sz.bytes sx))
            (performing (.ldfe h sz sx clear d a off) c)
            (accesses c (performing (.ldfe h sz sx clear d a off) c) .acq fun l =>
              localAccess s c false l (start l) sz.bytes 0)),
          nextId := s.nextId + 1, cores := t.cores } ∧
        ∀ core win cell, t.viewByte core win cell = s.viewByte core win cell)

/-- R174, R176, R194, R251 to R254: ATOM, RED and LAUNCH issue one access in each performing lane, no two of which name one
address; a float atomic of a deterministic task is buffered, each record keyed by block, gang, lane and its count in the lane. -/
def Obligations.AtomicWords : Prop :=
  ∀ (s : State) (c : Ctx) (h : Hd) (op : AtomOp) (ty : AtomTy) (ord : Order) (scope : Scope) (rel noret : Bool) (d a : Reg)
    (b : Src) (off : BitVec 22) (leaf : Nat → Leaf),
    let addr (l : Nat) : Nat := c.addr l a off
    let n := ty.bytes
    let data (l : Nat) : Nat := c.rdMany l d.toNat ((if op = .cas then 2 else 1) * (n / 4))
    let det := (s.task c.gang.task).tcb.det
    let acts (i : Instr) (ord : Order) (noret : Bool) : Prop :=
      let o (kind : OpKind) : Op := opIssued s c kind (if noret then .st else .ld) ord scope
        (if noret then none else some (destOf c d n false)) (performing i c)
        (accesses c (performing i c) ord fun l => flatAcc l (addr l) n (data l) (leaf l))
      Issues i s c → Reaches i s c n n (needOf s c true true) addr leaf → TempoFree i s c n addr leaf → Apart i c addr →
      (det = false ∨ ty.integer = true → FilesOp i s c (o (.atom op ty !noret))) ∧
      (det = true → ty.integer = false →
        (∀ l < 32, hasLane (performing i c) l = true → tabGet c.gang.seqs 0 l < 2 ^ 32) →
        ∃ t seqs, exec i s = .next t ∧
          (∀ l, tabGet seqs 0 l = tabGet c.gang.seqs 0 l + if l < 32 ∧ hasLane (performing i c) l = true then 1 else 0) ∧
          t = { s with
            gangs := tabPut s.gangs c.gid { c.gang with seqs := seqs },
            bufs := s.bufs ++ (lanesIn (performing i c)).map fun l =>
              { issued := s.nextId, task := c.gang.task, block := (s.block c.gang.block).idx, gang := c.gang.num, lane := l,
                seq := tabGet c.gang.seqs 0 l, op := op, ty := ty, cell := (leaf l).cell, va := addr l, value := data l,
                arrived := false, spilled := false },
            ops := if noret = true ∧ (o (.bufAtom op ty !noret)).accs = [] then tabDel s.ops s.nextId
              else tabPut s.ops s.nextId (o (.bufAtom op ty !noret)),
            nextId := s.nextId + 1 } ∧
          ∀ core win cell, t.viewByte core win cell = s.viewByte core win cell)
    acts (.atom h op ty ord scope noret d a off) ord noret ∧
    acts (.red h op ty rel scope d a off) (if rel then .rel else .rlx) true ∧
    (Issues (.launch h d a b) s c →
      Reaches (.launch h d a b) s c 512 16 (needOf s c true true) (fun l => c.rdPair l a.toNat) leaf →
      Apart (.launch h d a b) c (fun l => c.rdPair l a.toNat) →
      FilesOp (.launch h d a b) s c (opIssued s c .launch .ld .rlx .s (some (destOf c d 4 false))
        (performing (.launch h d a b) c)
        ((lanesIn (performing (.launch h d a b) c)).map fun l =>
          flatAcc l (c.rdPair l a.toNat) 16 ((wordB c l a b).signExtend 64).toNat (leaf l))))

/-- R102, R255 to R258: FENCE acts in every active lane; CFLUSH and CINV name a line of the die, of a page that is not UC;
BSREAD reads the bytes of k bits at the cursor, which advances. The model's choice: the cursor wraps at 2^55 (assumption log 48). -/
def Obligations.FencesFlushesBitReads : Prop :=
  ∀ (s : State) (c : Ctx) (h : Hd) (ord : FenceOrder) (scope : Scope) (als die sx : Bool) (d a : Reg) (off : BitVec 22)
    (k : BitVec 7) (leaf : Nat → Nat → Leaf),
    let fence : Instr := .fence h ord scope als
    let read : Instr := .bsread h sx d k
    let flushes (i : Instr) (inval : Bool) : Prop :=
      let addr (l : Nat) : Nat := c.addr l a off
      Issues i s c → (∀ l, hasLane (performing i c) l = true →
        s.coreTranslate c.gang.core (addr l) 1 (needOf s c true false) = .ok (leaf l 0)) →
      FilesOp i s c (opIssued s c (.flush die inval) .st .rlx .k none (performing i c)
        (((lanesIn (performing i c)).filter fun l => (leaf l 0).die == dieOf c.gang.core && (leaf l 0).cache != 2).map fun l =>
          { flatAcc l (addr l) 512 0 (leaf l 0) with addr := (leaf l 0).cell / 512 * 512 }))
    (Issues fence s c →
      FilesOp fence s c (opIssued s c (.fence als) .st
        (if als then .acqrel else match ord with | .none => .rlx | .acq => .acq | .rel => .rel | .acqrel => .acqrel)
        (if als then .d else scope) none c.run.act ((lanesIn c.run.act).map Acc.fence))) ∧
    flushes (.cflush h die a off) false ∧ flushes (.cinv h die a off) true ∧
    (Issues read s c →
      let cur (l : Nat) : Nat := (tabGet c.gang.lanes.cursor 0 l).toNat
      let bytes (l : Nat) : List Nat := (List.range ((cur l % 8 + k.toNat + 7) / 8)).map (cur l / 8 + ·)
      (∀ l, hasLane (performing read c) l = true → ∀ va ∈ bytes l,
        s.coreTranslate c.gang.core va 1 (needOf s c true false) = .ok (leaf l va) ∧ (leaf l va).die = dieOf c.gang.core) →
      ∃ t cs, exec read s = .next t ∧
        (∀ l, tabGet cs 0 l = if l < 32 ∧ hasLane (performing read c) l = true
          then tabGet c.gang.lanes.cursor 0 l + BitVec.ofNat 55 k.toNat else tabGet c.gang.lanes.cursor 0 l) ∧
        t = { s with
          gangs := tabPut s.gangs c.gid { c.gang with lanes := { c.gang.lanes with cursor := cs } },
          ops := tabPut s.ops s.nextId (opIssued s c (.bsread k.toNat sx) .ld .rlx .k (some (destOf c d 4 false))
            (performing read c) ((lanesIn (performing read c)).flatMap fun l =>
              (bytes l).map fun va => flatAcc l va 1 (cur l % 8) (leaf l va))),
          nextId := s.nextId + 1 } ∧
        ∀ core win cell, t.viewByte core win cell = s.viewByte core win cell)

/-! ## Matrix engine words -/

/-- R263, R283, R284: TALLOC gives a handle that the block holds or that is free, a fresh accumulator with its generators
seeded, else 0xFFFFFFFF; TFREE gives a held handle up, and is outstanding until the engine is through with it. -/
def Obligations.HandleWords : Prop :=
  ∀ (s : State) (c : Ctx) (h : Hd) (isB any : Bool) (n : BitVec 5) (d : Reg),
    let i : Instr := .talloc h isB any n d
    let f : Instr := .tfree h isB n
    let k := s.core c.gang.core
    let owner (x : Nat) : Option Nat := if isB then (tabGet k.bs BHandle.reset x).owner else (tabGet k.accs AccHandle.reset x).owner
    let freeing (x : Nat) : Bool := if isB then (tabGet k.bs BHandle.reset x).freeing else (tabGet k.accs AccHandle.reset x).freeing
    let free (x : Nat) : Prop := owner x = none ∧ freeing x = false
    let count := if isB then 8 else 16
    let takes (x : Nat) : Prop :=
      ∃ t L k', exec i s = .next t ∧ tabFind t.gangs c.gid = some { c.gang with lanes := L } ∧
        LaneWrite c.run.xb (performing i c) (fun _ => outW d x) c.gang.lanes L ∧
        (∀ m, m ≠ c.gid → tabFind t.gangs m = tabFind s.gangs m) ∧
        t = { s with gangs := t.gangs, cores := tabPut s.cores c.gang.core k' } ∧
        (∀ core win cell, t.viewByte core win cell = s.viewByte core win cell) ∧
        if isB then ∃ b : BHandle, k' = { k with bs := tabPut k.bs x b } ∧
          b = { tabGet k.bs BHandle.reset x with owner := some c.gang.block, valid := false, reason := 0 }
        else ∃ a : AccHandle, k' = { k with accs := tabPut k.accs x a } ∧ a.owner = some c.gang.block ∧ a.freeing = false ∧
          a.elems = [] ∧ a.sr = false ∧ ∀ m < 32, (tabGet a.g0 0 m, tabGet a.g1 0 m) =
            genSeed (BitVec.ofNat 64 (s.task c.gang.task).tcb.seed)
              (BitVec.ofNat 64 (((s.block c.gang.block).idx * 32 + x) * 32 + m) ^^^ 0x8000000000000000)
    (Issues i s c → performing i c = 0 → NoEffect i s c) ∧
    (Issues i s c → performing i c ≠ 0 → any = false → owner n.toNat = some c.gang.block →
      WritesLanes i s c fun _ => outW d n.toNat) ∧
    (Issues i s c → performing i c ≠ 0 → any = false → owner n.toNat ≠ some c.gang.block → ¬free n.toNat →
      WritesLanes i s c fun _ => outW d 0xFFFFFFFF) ∧
    (Issues i s c → performing i c ≠ 0 → any = false → free n.toNat → takes n.toNat) ∧
    (Issues i s c → performing i c ≠ 0 → any = true → (∀ x < count, ¬free x) → WritesLanes i s c fun _ => outW d 0xFFFFFFFF) ∧
    (Issues i s c → performing i c ≠ 0 → any = true → ∀ x < count, free x → (∀ y < x, ¬free y) → takes x) ∧
    (Issues f s c → performing f c = 0 ∨ owner n.toNat ≠ some c.gang.block → NoEffect f s c) ∧
    (Issues f s c → performing f c ≠ 0 → owner n.toNat = some c.gang.block →
      ∃ t, exec f s = .next t ∧
        t = { s with
          gangs := tabPut s.gangs c.gid (popped f c),
          cores := tabPut s.cores c.gang.core
            (let kb : BHandle := { tabGet k.bs BHandle.reset n.toNat with owner := none, freeing := true }
             let ka : AccHandle := { tabGet k.accs AccHandle.reset n.toNat with owner := none, freeing := true }
             if isB then { k with bs := tabPut k.bs n.toNat kb } else { k with accs := tabPut k.accs n.toNat ka }),
          ops := tabPut s.ops s.nextId (opIssued s c (.tfree isB n.toNat) .tl .rlx .k none (performing f c) []),
          nextId := s.nextId + 1 } ∧
        ∀ core win cell, t.viewByte core win cell = s.viewByte core win cell)

/-- R281, R285, R286, R289 to R291: TLOADB, TZERO, TCFG, TREAD and TSTORE of a held handle file one operation of the tl class;
of a handle that is not held they trap ACCESS cause 6; without a performing lane they have no effect. -/
def Obligations.TileWords : Prop :=
  ∀ (s : State) (c : Ctx) (h : Hd) (f : TileFmt) (orientT sparse sr reseed : Bool) (bh : BitVec 3) (acc : BitVec 4)
    (n : BitVec 3) (tf : StoreFmt) (sc : EngScope) (a : Reg) (off : BitVec 22) (leaf : Nat → Leaf),
    let holds : Prop := (tabGet (s.core c.gang.core).accs AccHandle.reset acc.toNat).owner = some c.gang.block
    let holdsB : Prop := (tabGet (s.core c.gang.core).bs BHandle.reset bh.toNat).owner = some c.gang.block
    let files (i : Instr) (kind : OpKind) (scope : Scope) : Prop :=
      FilesOp i s c (opIssued s c kind .tl .rlx scope none (performing i c) [])
    let low (i : Instr) : Option Nat := lowestLane (performing i c)
    let load : Instr := .tloadb h f orientT sparse bh a off
    let zero : Instr := .tzero h acc
    let cfg : Instr := .tcfg h sr reseed acc a
    let read : Instr := .tread h acc n a
    let store : Instr := .tstore h tf sc sr acc a off
    let col (l : Nat) : Nat := c.rd l a.toNat 0 % 256
    let row : Nat := match tf with | .f32 => 1024 | .bf16 | .f16 => 512 | .e4m3 | .e5m2 => 256 | .e2m1 => 128
    (∀ i ∈ [load, zero, cfg, read, store], Issues i s c → performing i c = 0 → NoEffect i s c) ∧
    (Issues load s c → ∀ l < 32, IsLowest (performing load c) l →
      (¬holdsB → TakesTrap load s c trapHandle (some l) (c.addr l a off) false) ∧
      (holdsB → c.addr l a off % 4096 ≠ 0 → TakesTrap load s c trapMisalign (some l) (c.addr l a off) false) ∧
      (holdsB → c.addr l a off % 4096 = 0 → PagesHere s c false (c.addr l a off) (f.image sparse) leaf →
        files load (.tloadb f orientT sparse bh.toNat (segsAt leaf (c.addr l a off) (f.image sparse))) .k)) ∧
    (∀ i ∈ [zero, cfg, read, store], Issues i s c → performing i c ≠ 0 → ¬holds →
      TakesTrap i s c trapHandle (low i) 0 false) ∧
    (Issues zero s c → performing zero c ≠ 0 → holds → files zero (.tzero acc.toNat) .k) ∧
    (Issues cfg s c → holds → ∀ l < 32, IsLowest (performing cfg c) l →
      files cfg (.tcfg acc.toNat sr (if reseed then some (c.rdPair l a.toNat) else none)) .k) ∧
    (Issues read s c → holds → performing read c ≠ 0 →
      (∀ l < 32, hasLane (performing read c) l = true → col l + (n.toNat + 1) ≤ 256) →
      files read (.tread acc.toNat (n.toNat + 1) ((lanesIn (performing read c)).map fun l => (l, col l))) .k) ∧
    (Issues read s c → holds → ∀ l < 32, hasLane (performing read c) l = true → 256 < col l + (n.toNat + 1) →
      (∀ m < l, hasLane (performing read c) m = true → col m + (n.toNat + 1) ≤ 256) →
      TakesTrap read s c { code := 9, info := 11 } (some l) 0 false) ∧
    (Issues store s c → holds → performing store c ≠ 0 →
      (∀ l < 32, hasLane (performing store c) l = true →
        c.addr l a off % 32 = 0 ∧ PagesHere s c true (c.addr l a off) row leaf) →
      files store (.tstore tf sr acc.toNat
        ((lanesIn (performing store c)).map fun l => (l, segsAt leaf (c.addr l a off) row)))
        (match sc with | .k => .k | .d => .d | .s => .s))

/-- R145, R287, R288: TMMA files one operation for each quarter that holds a performing lane, with the row and scale offsets
of its lanes, the diagonal and the constant of its lowest lane. The tile is a dense or a sparse one, loaded, or one that a TLOADB is
still loading, the latest of which counts. A handle without a tile traps ACCESS, with the reason where a load of it has failed; formats that
are no pair trap ILLEGAL; an offset that is not aligned, or beyond SCRATCH, traps. The model's choice: the word pops the queue entries of
A, then B, then D (assumption log 6). -/
def Obligations.MatrixMultiplyWord : Prop :=
  ∀ (s : State) (c : Ctx) (h : Hd) (tri : Bool) (af : TileFmt) (bh : BitVec 3) (acc : BitVec 4) (ro so cc : Reg),
    let i : Instr := .tmma h tri af bh acc ro so cc
    let b := tabGet (s.core c.gang.core).bs BHandle.reset bh.toNat
    let bytes (sparse : Bool) : Nat :=
      let k := if sparse then 512 else 256
      match af with
      | .e2m1 | .i4 => k / 2
      | .e3m2 | .e2m3 => k * 3 / 4
      | .bf16 => 2 * k
      | _ => k
    let scaled : Bool := match af with | .bf16 | .i4 | .i8 => false | _ => true
    let scales (sparse : Bool) : Nat := if sparse then 16 else 8
    let before (x : Bool) : List Nat := (if tri || scaled then [so.toNat] else []) ++ if x && tri then [cc.toNat] else []
    let row (l : Nat) : Nat := c.rdAfter l ro.toNat (before true) % 2 ^ 19
    let scale (l : Nat) : Nat := c.rd l so.toNat 0 % 2 ^ 19
    let holds : Prop := (tabGet (s.core c.gang.core).accs AccHandle.reset acc.toNat).owner = some c.gang.block ∧
      b.owner = some c.gang.block
    let loading (p : Nat × Op) (f : TileFmt) (sparse : Bool) : Prop :=
      p.2.block = c.gang.block ∧ ∃ o sg, p.2.kind = .tloadb f o sparse bh.toNat sg
    let idle (ops : Tab Op) : Prop := ∀ p ∈ ops, ∀ f sparse, ¬loading p f sparse
    -- the tile's format, and whether it is sparse
    let tile (f : TileFmt) (sparse : Bool) : Prop :=
      (idle s.ops ∧ b.valid = true ∧ f = b.fmt ∧ sparse = b.sparse) ∨
      ∃ older p newer, s.ops = older ++ p :: newer ∧ loading p f sparse ∧ idle newer
    let limit := (s.task c.gang.task).tcb.scratch
    let unit (n : Nat) : Nat := if n ≤ 64 then 64 else if n ≤ 128 then 128 else if n ≤ 256 then 256 else 512
    let rowOk (sp : Bool) (l : Nat) : Prop := row l % unit (bytes sp) = 0
    let scaleOk (sp : Bool) (l : Nat) : Prop := scaled = true → scale l % scales sp = 0
    let rowIn (sp : Bool) (l : Nat) : Prop := row l + bytes sp ≤ limit
    let scaleIn (sp : Bool) (l : Nat) : Prop := scaled = true → scale l + scales sp ≤ limit
    let quarter (q : Nat) : LaneSet := performing i c &&& BitVec.ofNat 32 (0xFF * 2 ^ (8 * q))
    let quarters : List Nat := (List.range 4).filter fun q => quarter q != 0
    let op (q : Nat) : Op :=
      let low : Nat := (lowestLane (quarter q)).getD 0
      opIssued s c (.tmma tri af bh.toNat acc.toNat q ((lanesIn (quarter q)).map fun l => (l, row l, scale l))
        ((BitVec.ofNat 32 (c.rd low so.toNat 0)).extractLsb' 23 9).toInt
        (if tri then BitVec.ofNat 32 (c.rdAfter low cc.toNat (before false)) else 0)) .tl .rlx .k none (quarter q) []
    (Issues i s c → performing i c = 0 → NoEffect i s c) ∧
    (Issues i s c → performing i c ≠ 0 → ¬holds → TakesTrap i s c trapHandle (lowestLane (performing i c)) 0 false) ∧
    (Issues i s c → performing i c ≠ 0 → holds → idle s.ops → b.valid = false →
      TakesTrap i s c (if b.reason = 0 then trapHandle else { code := 9, info := 6 + bh.toNat * 256 + b.reason * 4096 })
        (lowestLane (performing i c)) 0 false) ∧
    (∀ f sp, Issues i s c → performing i c ≠ 0 → holds → tile f sp → af.pairs f = false →
      TakesTrap i s c trapIllegal (lowestLane (performing i c)) 0 false) ∧
    (∀ f sp, ∀ l < 32, Issues i s c → holds → tile f sp → af.pairs f = true → hasLane (performing i c) l = true →
      (¬(rowOk sp l ∧ scaleOk sp l) → (∀ m < l, hasLane (performing i c) m = true → rowOk sp m ∧ scaleOk sp m) →
        (¬rowOk sp l → TakesTrap i s c trapMisalign (some l) (row l) false) ∧
        (rowOk sp l → TakesTrap i s c trapMisalign (some l) (scale l) false)) ∧
      ((∀ m < 32, hasLane (performing i c) m = true → rowOk sp m ∧ scaleOk sp m) →
        ¬(rowIn sp l ∧ scaleIn sp l) → (∀ m < l, hasLane (performing i c) m = true → rowIn sp m ∧ scaleIn sp m) →
        (¬rowIn sp l → TakesTrap i s c { code := 9, info := 11 } (some l) (row l) false) ∧
        (rowIn sp l → TakesTrap i s c { code := 9, info := 11 } (some l) (scale l) false))) ∧
    (∀ f sp, Issues i s c → performing i c ≠ 0 → holds → tile f sp → af.pairs f = true →
      (∀ l < 32, hasLane (performing i c) l = true → rowOk sp l ∧ scaleOk sp l ∧ rowIn sp l ∧ scaleIn sp l) →
      ∃ t, exec i s = .next t ∧
        t = { s with
          gangs := tabPut s.gangs c.gid (popped i c),
          ops := (quarters.zipIdx s.nextId).foldl (fun ops q => tabPut ops q.2 (op q.1)) s.ops,
          nextId := s.nextId + quarters.length } ∧
        ∀ core win cell, t.viewByte core win cell = s.viewByte core win cell)

/-! ## Copy engine words -/

/-- R293 to R298: CPY and CPYT file a copy, which joins the open batch of each lane it acts for; LREC files the read of a
record; SEAL closes the open batch of each performing lane under the lane's next number; BWAIT acts through the start of its
run. The model's choice: CPYT pops the queue entries of A, then B, then D (assumption log 6). -/
def Obligations.CopyWords : Prop :=
  ∀ (s : State) (c : Ctx) (h : Hd) (sz : CSize) (sc : EngScope) (ind q : Bool) (k ks kf kd : BitVec 2) (n : BitVec 8)
    (d a od of_ os : Reg) (off : BitVec 22) (src dst : Nat → Leaf),
    let cpy : Instr := .cpy h sz sc d a off
    let cpyt : Instr := .cpyt h sc ind ks kf kd od of_ os
    let lrec : Instr := .lrec h k a off
    let sealing : Instr := .seal h q
    let scope : Scope := match sc with | .k => .k | .d => .d | .s => .s
    let size : Nat := match sz with | .four => 4 | .eight => 8 | .sixteen => 16
    let map (va : Nat) : Bool := va / 2 ^ 61 == 6
    let copies (i : Instr) (m : LaneSet) (kind : OpKind) : Prop :=
      ∃ t bs, exec i s = .next t ∧
        t = { s with
          gangs := tabPut s.gangs c.gid { popped i c with batches := bs },
          ops := tabPut s.ops s.nextId
            { opIssued s c kind .none .rlx scope none m [] with batch := (lanesIn m).map fun l => (l, 0) },
          nextId := s.nextId + 1 } ∧
        (∀ b ∈ c.gang.batches, b ∈ bs) ∧ (∀ l < 32, hasLane m l = true → ∃ b ∈ bs, b.lane = l ∧ b.num = 0) ∧
        (∀ b ∈ bs, b ∈ c.gang.batches ∨ (hasLane m b.lane = true ∧ b = { lane := b.lane, num := 0, post := false, fail := false })) ∧
        ∀ core win cell, t.viewByte core win cell = s.viewByte core win cell
    (∀ i ∈ [cpy, cpyt, lrec, sealing], Issues i s c → performing i c = 0 → NoEffect i s c) ∧
    (Issues cpy s c → performing cpy c ≠ 0 →
      (∀ l < 32, hasLane (performing cpy c) l = true →
        (map (c.addr l a off) = false → PagesHere s c false (c.addr l a off) size src) ∧
        (map (c.rdPair l d.toNat) = false → PagesHere s c true (c.rdPair l d.toNat) size dst)) →
      copies cpy (performing cpy c) (.cpy size ((lanesIn (performing cpy c)).map fun l =>
        (l, if map (c.addr l a off) then .map (c.addr l a off) else .flat (segsAt src (c.addr l a off) size),
          if map (c.rdPair l d.toNat) then .map (c.rdPair l d.toNat) else .flat (segsAt dst (c.rdPair l d.toNat) size))))) ∧
    (Issues cpyt s c → ∀ l < 32, IsLowest (performing cpyt c) l →
      let w (x : Nat) : Int := (BitVec.ofNat 32 x).toInt
      copies cpyt (BitVec.ofNat 32 (2 ^ l))
        (.cpyt ind ks.toNat kf.toNat kd.toNat
          (w (c.rdAfter l od.toNat (of_.toNat :: if ind then [os.toNat] else []))) (w (c.rd l of_.toNat 0))
          (if ind then w (c.rdAfter l os.toNat [of_.toNat]) else 0) (s.holdsTempo c.gang))) ∧
    (Issues lrec s c → ∀ l < 32, IsLowest (performing lrec c) l →
      (c.addr l a off % 64 ≠ 0 → TakesTrap lrec s c trapMisalign (some l) (c.addr l a off) false) ∧
      (c.addr l a off % 64 = 0 → PagesHere s c false (c.addr l a off) 64 src →
        FilesOp lrec s c (opIssued s c (.lrec k.toNat (segsAt src (c.addr l a off) 64)) .none .rlx .k none
          (performing lrec c) []))) ∧
    (Issues sealing s c →
      ∃ t bs ns, exec sealing s = .next t ∧ tabFind t.gangs c.gid = some { c.gang with batches := bs, seals := ns } ∧
        (∀ m, m ≠ c.gid → tabFind t.gangs m = tabFind s.gangs m) ∧
        t = { s with gangs := t.gangs, ops := t.ops } ∧
        (∀ l < 32, tabGet ns 0 l = tabGet c.gang.seals 0 l + if hasLane (performing sealing c) l then 1 else 0) ∧
        (∀ l, bs.filter (fun b => b.lane == l) =
          let mine := c.gang.batches.filter fun b => b.lane == l
          if l < 32 ∧ hasLane (performing sealing c) l = true then
            (if ∃ b ∈ mine, b.num = 0 then
              mine.map fun b => if b.num = 0 then { b with num := tabGet ns 0 l, post := q } else b
            else mine ++ [{ lane := l, num := tabGet ns 0 l, post := q, fail := false }])
          else mine) ∧
        (∀ x l, (tabFind t.ops x).map (fun o => tabFind o.batch l) = (tabFind s.ops x).map fun o =>
          if o.gang = c.gid ∧ l < 32 ∧ hasLane (performing sealing c) l = true ∧ tabFind o.batch l = some 0
          then some (tabGet ns 0 l) else tabFind o.batch l) ∧
        ∀ core win cell, t.viewByte core win cell = s.viewByte core win cell) ∧
    (Issues (.bwait h n) s c → NoEffect (.bwait h n) s c)

/-! ## Near-memory words -/

/-- R302, R304, R308 to R311: BOOKLD and BCW file an access for each cell they name; BOOKQ files a query, IRED a command,
from the leading lane's address; a cell that no book may stand in traps CHANNEL, an index beyond the book BOOKRANGE. The model's choice:
BCW, BOOKLD and IRED make no check of the tempo at issue (assumption log 49). -/
def Obligations.NearMemoryWords : Prop :=
  ∀ (s : State) (c : Ctx) (h : Hd) (e16 acc : Bool) (kt ko : BitVec 2) (sz : CSize) (bag d a b : Reg) (off : BitVec 22)
    (leaf : Nat → Leaf),
    let addr (l : Nat) : Nat := c.addr l a off
    let die := dieOf c.gang.core
    let capable (p : Leaf) : Prop := p.die = die ∧ p.place = 0 ∧ p.win = true ∧ p.pa / 2 ^ 11 % 2 ^ 16 ≤ 65514
    let slot (p : Leaf) : Nat × Nat × Nat := (p.pa / 2 ^ 31 % 64, p.pa / 2 ^ 27 % 16, p.pa / 2 ^ 25 % 4)
    let lead (i : Instr) (l : Nat) : Prop := l < 32 ∧ IsLowest (performing i c) l
    let found (va : Nat) (need : Need) (p : Leaf) : Prop := s.coreLookup c.gang.core va = .ok p ∧ p.check need = .ok p
    let pins (i : Instr) (kind : OpKind) : Prop :=
      Issues i s c → (∀ l, hasLane (performing i c) l = true →
          found (addr l) (needOf s c true false) (leaf l) ∧ capable (leaf l)) →
        (∀ l m, hasLane (performing i c) l = true → hasLane (performing i c) m = true →
          slot (leaf l) = slot (leaf m) → l = m) →
        FilesOp i s c (opIssued s c kind .st .rlx .d none (performing i c)
          ((lanesIn (performing i c)).map fun l => flatAcc l (addr l) 1 0 (leaf l)))
    let query : Instr := .bookq h e16 a b
    let ired : Instr := .ired h kt ko acc bag d a off
    let bcw : Instr := .bcw h sz d a off
    let n : Nat := match sz with | .four => 4 | .eight => 8 | .sixteen => 16
    let bank (va : Nat) : Nat := (leaf va).pa / 2 ^ 27 % 16
    let other (va k : Nat) : Nat := (BitVec.ofInt 64 ((va : Int) + ((k : Int) - bank va) * 2 ^ 27)).toNat
    pins (.bookld h e16 a off) (.bookPin false e16) ∧ pins (.bookldUnpin h a off) (.bookPin true false) ∧
    (∀ i ∈ [query, ired], Issues i s c → performing i c = 0 → NoEffect i s c) ∧
    (Issues query s c → ∀ l, lead query l →
      found (c.rdPair l a.toNat) (needOf s c true false) (leaf l) →
      ((leaf l).die = die → ¬capable (leaf l) →
        TakesTrap query s c { code := 20, info := 0 } (some l) (c.rdPair l a.toNat) false) ∧
      (capable (leaf l) → (∀ m, hasLane (performing query c) m = true → c.rd m b.toNat 0 < if e16 then 1024 else 2048) →
        FilesOp query s c (opIssued s c (.bookq e16
          { va := c.rdPair l a.toNat, cell := (leaf l).cell, win := true, cache := (leaf l).cache, n := 1, level := (leaf l).level }
          ((lanesIn (performing query c)).map fun m => (m, c.rd m b.toNat 0))) .none .rlx .d none (performing query c) [])) ∧
      (capable (leaf l) → ∀ m < 32, hasLane (performing query c) m = true → (if e16 then 1024 else 2048) ≤ c.rd m b.toNat 0 →
        (∀ k < m, hasLane (performing query c) k = true → c.rd k b.toNat 0 < if e16 then 1024 else 2048) →
        TakesTrap query s c { code := 19, info := 0 } (some m) (c.rdPair l a.toNat) false)) ∧
    (Issues ired s c → ∀ l, lead ired l → addr l % 16 = 0 →
      s.coreTranslate c.gang.core (addr l) 16 (needOf s c true true) = .ok (leaf l) →
      ((leaf l).die ≠ die → TakesTrap ired s c trapRemote (some l) (addr l) false) ∧
      ((leaf l).die = die → FilesOp ired s c (opIssued s c (.ired kt.toNat ko.toNat acc
        ((lanesIn (performing ired c)).map fun m => (m, c.rd m d.toNat 0, c.rd m bag.toNat 0))
        { va := addr l, cell := (leaf l).cell, win := (leaf l).win, cache := (leaf l).cache, n := 16, level := (leaf l).level }
        (s.holdsTempo c.gang)) .none .rlx .d none (performing ired c) []))) ∧
    (Issues bcw s c →
      (∀ l, hasLane (performing bcw c) l = true → ∀ k < 16, let va := if k = bank (addr l) then addr l else other (addr l) k
        va % n = 0 ∧ s.coreTranslate c.gang.core va n (needOf s c false true) = .ok (leaf va) ∧ capable (leaf va) ∧
        ((leaf va).pa / 2 ^ 31 % 64, (leaf va).pa % 2 ^ 27) = ((leaf (addr l)).pa / 2 ^ 31 % 64, (leaf (addr l)).pa % 2 ^ 27) ∧
        bank va = k ∧ (leaf va).pa < 2 ^ 37) →
      FilesOp bcw s c (opIssued s c .bcw .st .rlx .d none (performing bcw c)
        ((lanesIn (performing bcw c)).flatMap fun l =>
          (addr l :: ((List.range 16).filter fun k => k != bank (addr l)).map (other (addr l))).map fun va =>
            flatAcc l va n (dataOf c l d n) (leaf va))))

/-! ## Remote words -/

/-- R420 to R425, R431: RADD, RMIN, RMAX, ROR, RARV and ACCCLR send one packet for each line of each home, with an entry for
each lane in order: its operand, its offset within the line, its number. -/
def Obligations.CommutativeWords : Prop :=
  ∀ (s : State) (c : Ctx) (h : Hd) (rt : RaddTy) (mt : RminTy) (b64 : Bool) (vc : Vc) (d a : Reg) (off : BitVec 22)
    (leaf : Nat → Leaf),
    let addr (l : Nat) : Nat := c.addr l a off
    let sends (i : Instr) (kind ty align : Nat) (data : Nat → Nat) : Prop :=
      Issues i s c → (performing i c = 0 → NoEffect i s c) ∧
      (performing i c ≠ 0 → Names i s c align 0 (needOf s c false true) addr leaf →
        let line (l : Nat) : Nat × Nat := ((leaf l).die, packetAddr (leaf l) / 512 * 512)
        let s1 : State :=
          { s with gangs := tabPut s.gangs c.gid (popped i c),
                   ops := tabPut s.ops s.nextId (opIssued s c .remote .rm .rlx .s none (performing i c) []),
                   nextId := s.nextId + 1 }
        ∃ t, exec i s = .next t ∧
          Sends s1 t (some s.nextId) (some c.gid) ((inOrder ((lanesIn (performing i c)).map line)).map fun k =>
            let ls := (lanesIn (performing i c)).filter fun l => line l == k
            (packetOf c k.1 (vcOf vc) kind ((ls.length - 1) * 8 + ty) k.2
              (.entries (ls.map fun l => (data l, (leaf l).pa % 512, l))), lanesOf ls)) ∧
          ∀ core win cell, t.viewByte core win cell = s.viewByte core win cell)
    let operand (wide : Bool) (l : Nat) : Nat := if wide then c.rdPair l d.toNat else c.rd l d.toNat 0
    sends (.radd h rt vc d a off) 0 (match rt with | .i32 => 0 | .i64 => 1 | .f32 => 2 | .bf16 => 3 | .f16 => 4 | .e4m3 => 5 | .e5m2 => 6)
      (match rt with | .i32 => 4 | .i64 => 8 | _ => 64)
      (fun l => operand (rt == .i64) l % 2 ^ (match rt with | .i32 | .f32 => 32 | .i64 => 64 | .bf16 | .f16 => 16 | _ => 8)) ∧
    sends (.rmin h mt vc d a off) 1 (match mt with | .i32 => 0 | .n32 => 1 | .i64 => 2 | .n64 => 3 | .f32 => 4)
      (match mt with | .i64 | .n64 => 8 | _ => 4) (operand (mt == .i64 || mt == .n64)) ∧
    sends (.rmax h mt vc d a off) 2 (match mt with | .i32 => 0 | .n32 => 1 | .i64 => 2 | .n64 => 3 | .f32 => 4)
      (match mt with | .i64 | .n64 => 8 | _ => 4) (operand (mt == .i64 || mt == .n64)) ∧
    sends (.ror h b64 vc d a off) 3 (if b64 then 1 else 0) (if b64 then 8 else 4) (operand b64) ∧
    sends (.rarv h vc d a off) 5 0 8 (operand true) ∧
    sends (.accclr h vc a off) 11 0 64 (fun _ => 0)

/-- R420, R422, R423, R426, R427, R434: RWO and COLL file the reads of their local granules and where each lane's go; RGET
sends a request for each lane with its landing range and arrival word. The model's choice: the landing range of a COLL may cross a
line, as R440, R473 and R474 have it (assumption log 8). -/
def Obligations.GranuleWords : Prop :=
  ∀ (s : State) (c : Ctx) (h : Hd) (n : BitVec 4) (arv : Bool) (rx : Reg) (vc : Vc) (d a : Reg) (off : BitVec 22)
    (leaf here arr : Nat → Leaf),
    let k := n.toNat + 1
    let die := dieOf c.gang.core
    let addr (l : Nat) : Nat := c.addr l a off
    let loc (l : Nat) : Nat := c.rdPair l d.toNat
    let peer (l : Nat) : Nat :=
      let v := BitVec.ofNat 32 (c.rd l rx.toNat 0)
      (v.extractLsb' 0 12).toNat * 8 + (v.extractLsb' 12 3).toNat
    let inLine (f : Nat → Nat) (i : Instr) : Prop :=
      ∀ l, hasLane (performing i c) l = true → f l % 512 + 32 * k ≤ 512
    let isHere (i : Instr) (f : Nat → Leaf) : Prop := ∀ l, hasLane (performing i c) l = true → (f l).die = die
    let reads (i : Instr) : List Acc := (lanesIn (performing i c)).flatMap fun l => (List.range k).map fun x =>
      { flatAcc l (loc l + 32 * x) 32 0 (here l) with addr := (here l).cell + 32 * x }
    let rwo : Instr := .rwo h n vc d a off
    let coll : Instr := .coll h n arv rx vc d a off
    let rget : Instr := .rget h n rx vc d a off
    (∀ i ∈ [rwo, coll, rget], Issues i s c → performing i c = 0 → NoEffect i s c) ∧
    (Issues rwo s c → performing rwo c ≠ 0 →
      Names rwo s c 32 k (needOf s c true false) loc here → inLine loc rwo → isHere rwo here →
      Names rwo s c 32 k (needOf s c false true) addr leaf → inLine addr rwo →
      FilesOp rwo s c (opIssued s c (.rsend (vcOf vc) k false false
        ((lanesIn (performing rwo c)).map fun l => (l, (leaf l).die, packetAddr (leaf l)))) .rm .rlx .s none
        (performing rwo c) (reads rwo))) ∧
    (Issues coll s c → performing coll c ≠ 0 →
      Names coll s c 32 k (needOf s c true false) loc here → inLine loc coll → isHere coll here →
      (∀ l, hasLane (performing coll c) l = true → addr l % 32 = 0 ∧
        s.coreTranslate c.gang.core (addr l) (32 * k + if arv then 8 else 0) (needOf s c false true) = .ok (leaf l) ∧
        (leaf l).place = 0 ∧
        s.dieExists (peer l) = true ∧ s.barred die (peer l) = none) →
      FilesOp coll s c (opIssued s c (.rsend (vcOf vc) k true arv
        ((lanesIn (performing coll c)).map fun l => (l, peer l, packetAddr (leaf l)))) .rm .rlx .s none
        (performing coll c) (reads coll))) ∧
    (Issues rget s c → performing rget c ≠ 0 →
      Names rget s c 32 k (needOf s c true false) addr leaf → inLine addr rget →
      Names rget s c 32 k (needOf s c false true) loc here → inLine loc rget → isHere rget here →
      Names rget s c 8 0 (needOf s c false true) (fun l => c.rdPair l rx.toNat) arr → isHere rget arr →
      let s1 : State :=
        { s with gangs := tabPut s.gangs c.gid (popped rget c),
                 ops := tabPut s.ops s.nextId (opIssued s c .remote .rm .rlx .s none (performing rget c) []),
                 nextId := s.nextId + 1 }
      ∃ t, exec rget s = .next t ∧
        Sends s1 t (some s.nextId) (some c.gid) ((lanesIn (performing rget c)).map fun l =>
          ({ packetOf c (leaf l).die (vcOf vc) 6 (k - 1) (packetAddr (leaf l)) .none with
              aux := packetAddr (here l), aux2 := packetAddr (arr l) }, BitVec.ofNat 32 (2 ^ l))) ∧
        ∀ core win cell, t.viewByte core win cell = s.viewByte core win cell)

/-- R175, R176, R422, R424, R428 to R430: AWAIT acts through the start of its run; RFENCE gives each lane its remote status
and clears it; ACCRD files a read of a cell; ARM files an arming of the TCB each lane names, behind a release. -/
def Obligations.WaitingAndArming : Prop :=
  ∀ (s : State) (c : Ctx) (h : Hd) (k bf16 : Bool) (d a : Reg) (off : BitVec 22) (leaf : Nat → Leaf),
    let addr (l : Nat) : Nat := c.addr l a off
    let isHere (i : Instr) : Prop := ∀ l, hasLane (performing i c) l = true → (leaf l).die = dieOf c.gang.core
    let await : Instr := .await h d a off
    let rf : Instr := .rfence k d
    let rd : Instr := .accrd h bf16 d a off
    let arm : Instr := .arm h a
    let tcb (l : Nat) : Nat := c.rdPair l a.toNat
    (Issues await s c → Names await s c 8 0 (needOf s c true false) addr leaf → isHere await → NoEffect await s c) ∧
    (Issues rf s c → ∃ t L R, exec rf s = .next t ∧
      GangOnly s c.gid { popped rf c with lanes := { L with remote := R } } t ∧
      LaneWrite c.run.xb (performing rf c) (fun l => outW d (tabGet c.gang.lanes.remote 0 l).toNat) c.gang.lanes L ∧
      ∀ l, tabGet R 0 l = if hasLane (performing rf c) l then 0 else tabGet c.gang.lanes.remote 0 l) ∧
    (Issues rd s c → Names rd s c 64 0 (needOf s c true false) addr leaf → isHere rd →
      FilesOp rd s c (opIssued s c (.accrd bf16) .ld .rlx .d (some (destOf c d 4 false)) (performing rd c)
        ((lanesIn (performing rd c)).map fun l => flatAcc l (addr l) 64 0 (leaf l)))) ∧
    (Issues arm s c → performing arm c = 0 → NoEffect arm s c) ∧
    (Issues arm s c → performing arm c ≠ 0 → Names arm s c 512 0 (needOf s c false true) tcb leaf → Apart arm c tcb →
      FilesOp arm s c (opIssued s c (.armWait ((lanesIn (performing arm c)).map fun l =>
        (l, (leaf l).die, packetAddr (leaf l), tcb l))) .rm .rel .s none (performing arm c)
        ((lanesIn (performing arm c)).map Acc.fence)))

/-- R403 to R405, R412, R414, R432, R433: MIG sends the lanes whose destination is another die away; a load whose pages are
homed elsewhere, and let its lanes leave, does the same; a departure beyond 15 hops traps MIGHOPS; HOME returns the guests of
a cohort and has no effect elsewhere. The model's choices: a ply carries the allotment (assumption log 34) and the word that it left
at (assumption log 35). -/
def Obligations.LanesLeave : Prop :=
  ∀ (s : State) (c : Ctx) (h : Hd) (sz : Size) (sx : Bool) (d a : Reg) (off : BitVec 22) (leaf : Nat → Leaf),
    let die := dieOf c.gang.core
    let mig : Instr := .mig h d
    let ld : Instr := .ld h sz sx d a off
    let goal (l : Nat) : Nat :=
      let v := BitVec.ofNat 32 (c.rd l d.toNat 0)
      (v.extractLsb' 0 12).toNat * 8 + (v.extractLsb' 12 3).toNat
    let away : List (Nat × Nat) :=
      ((lanesIn (performing mig c)).map fun l => (l, goal l)).filter fun p => p.2 != die
    let hops (l : Nat) : Nat := ((c.gang.guests[l / 4]?).map (·.hops)).getD 0
    let pointer (n : Nat) : Nat := (c.run.base + n / 3) * 4 + n % 3
    (Issues mig s c → (∀ l, hasLane (performing mig c) l = true → s.dieExists (goal l) = true) →
      ((∀ p ∈ away, hops p.1 < 15) →
        ∃ t, exec mig s = .next t ∧ Departs s c (popped mig c) (pointer c.run.pos) away (fun _ => 0) t) ∧
      (∀ l g, (l, g) ∈ away → 15 ≤ hops l → (∀ p ∈ away, p.1 < l → hops p.1 < 15) →
        TakesTrap mig s c { code := 16, info := 0 } (some l) 0 false)) ∧
    (Issues mig s c → ∀ l < 32, hasLane (performing mig c) l = true → s.dieExists (goal l) = false →
      (∀ m < l, hasLane (performing mig c) m = true → s.dieExists (goal m) = true) →
      TakesTrap mig s c { code := 9, info := 2 } (some l) 0 false) ∧
    (Issues ld s c → performing ld c ≠ 0 →
      (∀ l, hasLane (performing ld c) l = true → c.addr l a off % sz.bytes = 0 ∧ hops l < 15 ∧
        s.coreTranslate c.gang.core (c.addr l a off) sz.bytes (needOf s c true false) = .ok (leaf l) ∧ (leaf l).die ≠ die ∧
        ((leaf l).policy = 1 ∨ ((leaf l).policy = 2 ∧ (s.task c.gang.task).tcb.mig = true))) →
      ∃ t t1, exec ld s = .next t ∧
        Departs s c (popped ld c) (pointer (c.run.pos - 1))
          ((lanesIn (performing ld c)).map fun l => (l, (leaf l).die)) (fun l => c.addr l a off) t1 ∧
        t = { t1 with
          ops := tabPut s.ops t1.nextId { opIssued s c .load .ld .rlx .k (some (destOf c d sz.bytes sx)) 0 [] with
            word := t1.nextId },
          nextId := t1.nextId + 1 }) ∧
    (Issues .home s c → c.gang.guests = [] → NoEffect .home s c) ∧
    (Issues .home s c → c.gang.guests ≠ [] →
      let mine := c.gang.frags.filter fun f => f.cohort == c.run.cohort
      (mine.map (·.slice)).Nodup → (∀ f ∈ mine, ∃ q : Guest, c.gang.guests[f.slice]? = some q ∧ q.all ≠ 0) →
      ∃ t gs, exec .home s = .next t ∧
        tabFind t.gangs c.gid = some { c.gang with
          guests := gs, frags := c.gang.frags.filter fun f => f.cohort != c.run.cohort } ∧
        (∀ n, n ≠ c.gid → tabFind t.gangs n = tabFind s.gangs n) ∧
        (∀ p : Nat, gs[p]? = (c.gang.guests[p]?).map fun (q : Guest) =>
          if p ∈ mine.map (·.slice) then { q with left := true, all := 0 } else q) ∧
        t = { s with gangs := t.gangs, departing := t.departing, nextId := s.nextId + mine.length } ∧
        t.departing = (mine.zipIdx s.nextId).foldl (fun dp x =>
          let q : Guest := (c.gang.guests[x.1.slice]?).getD { origin := 0, slice := 0, all := 0, hops := 0, xb := 0, base := 0, allot := 0, left := false }
          tabPut dp x.2
            { task := c.gang.task, origin := q.origin, slice := q.slice, all := q.all,
              lanes := ((x.1.stack.foldl (fun m e => m ||| e.2) x.1.act) >>> (4 * x.1.slice)).setWidth 4, hops := q.hops,
              xb := q.xb, base := q.base, allot := q.allot, pc := (c.run.base + c.run.words.length / 3) * 4,
              word := pointer (c.run.pos - 1), src := c.gid, place := x.1.slice, regs := [],
              preds := [], lstat := [], addrs := [], isReturn := true, refused := false, rcause := 0,
              dst := (s.gang q.origin).core / 64 }) s.departing ∧
        ∀ core win cell, t.viewByte core win cell = s.viewByte core win cell)

/-! ## System words -/

/-- R353, R355 to R357, R364: ERET files the read of its fault record, HALT the halt of a TCB's launch, TLBINV the removal of
translations, all from the leading lane's address; MOVSW writes a register of the die, whose reserved bits read 0. -/
def Obligations.SystemWords : Prop :=
  ∀ (s : State) (c : Ctx) (h : Hd) (d a : Reg) (r : SysReg) (l : Nat) (leaf leaf2 : Leaf),
    let die := dieOf c.gang.core
    let va := c.rdPair l a.toNat
    let eret : Instr := .eret h a
    let halt : Instr := .halt h d a
    let write : Instr := .movsw h r a
    let page : Instr := .tlbinvPage h a
    let all : Instr := .tlbinvAll h
    let lead (i : Instr) : Prop := Issues i s c ∧ l < 32 ∧ IsLowest (performing i c) l
    let old := s.die die
    let v : BitVec 64 := BitVec.ofNat 64 va
    (∀ i ∈ [eret, halt, write, page, all], Issues i s c → performing i c = 0 → NoEffect i s c) ∧
    (lead eret → va % 64 ≠ 0 → TakesTrap eret s c trapMisalign (some l) va false) ∧
    (lead eret → va % 64 = 0 →
      s.coreTranslate c.gang.core va 64 (needOf s c true false) = .ok leaf →
      s.coreTranslate c.gang.core (va + 64) 64 (needOf s c true false) = .ok leaf2 →
      (leaf.die ≠ die → TakesTrap eret s c trapRemote (some l) va false) ∧
      (leaf.die = die → leaf2.die = die →
        FilesOp eret s c (opIssued s c .eretWait .rm .acqrel .s none (performing eret c)
          [flatAcc l va 64 0 leaf, flatAcc l (va + 64) 64 0 leaf2]))) ∧
    (lead halt → va % 512 = 0 → s.coreTranslate c.gang.core va 1 (needOf s c false true) = .ok leaf →
      s.barred die leaf.die = none →
      FilesOp halt s c (opIssued s c .halt .ld .rlx .s (some (destOf c d 4 false)) (performing halt c)
        [flatAcc l va 4 0 leaf])) ∧
    (lead write → ∃ t, exec write s = .next t ∧
      t = { s with
        gangs := tabPut s.gangs c.gid (popped write c),
        dies := tabPut s.dies die (match r with
          | .ptroot => { old with ptroot := v &&& 0xFFFFFFFFFFFF0001 }
          | .defsuper => { old with defsuper := v }
          | .deffault => { old with deffault := v }) } ∧
      ∀ core win cell, t.viewByte core win cell = s.viewByte core win cell) ∧
    (lead page → FilesOp page s c (opIssued s c (.tlbinv false va) .st .rlx .s none (performing page c) [Acc.fence l])) ∧
    (lead all → ∃ x, FilesOp all s c (opIssued s c (.tlbinv true x) .st .rlx .s none (performing all c) [Acc.fence l]))

/-- R312, R313: the three writes of channel control drive one machine per die: unlock, arm, confirm. Any other write, or a
reserved bit set, makes it idle with ERR; the confirmed change is queued at its channel. -/
def Obligations.ChannelControl : Prop :=
  ∀ (s : State) (c : Ctx) (h : Hd) (a : Reg) (l : Nat),
    let die := dieOf c.gang.core
    let v : BitVec 32 := BitVec.ofNat 32 (c.rd l a.toNat 0)
    let f (hi lo : Nat) : Nat := (v.extractLsb' lo (hi + 1 - lo)).toNat
    let old := s.die die
    let writes (i : Instr) (d' : Die) : Prop := Issues i s c →
      (performing i c = 0 → NoEffect i s c) ∧
      (l < 32 → IsLowest (performing i c) l → ∃ t, exec i s = .next t ∧
        t = { s with gangs := tabPut s.gangs c.gid (popped i c), dies := tabPut s.dies die d' } ∧
        ∀ core win cell, t.viewByte core win cell = s.viewByte core win cell)
    let ch := tabGet old.channels Channel.reset old.chCh
    let toBe : Bool := match ch.requests.getLast? with
      | some r => r.1
      | none => ch.promotion
    let confirmed : Prop := old.chSeq = 2 ∧ f 31 16 = 0x3B5C ∧ f 15 6 = 0 ∧ f 5 0 = old.chCh
    writes (.movswChkey h a) (if f 31 16 = 0xC4A7 ∧ f 15 6 = 0 ∧ old.chSeq = 0 then
        { old with chCh := f 5 0, chErr := false, chSeq := 1 }
      else { old with chCh := f 5 0, chErr := true, chSeq := 0 }) ∧
    writes (.movswChmode h a) (if old.chSeq = 1 ∧ f 13 8 = old.chCh ∧ f 1 0 ≤ 1 ∧ f 31 16 ≤ 65514 ∧ f 15 14 = 0 ∧ f 7 2 = 0 then
        { old with chSeq := 2, chMode := f 1 0 == 1, chRow := f 31 16 }
      else { old with chSeq := 0, chErr := true }) ∧
    writes (.movswChconf h a) (if confirmed ∧ ¬(old.chMode = true ∧ (toBe = true ∨ old.chCh / 32 ∈ old.stackFenced)) then
        (let queued : Channel := { ch with requests := ch.requests ++ [(old.chMode, old.chRow)] }
         { old with chSeq := 0, channels := tabPut old.channels old.chCh queued })
      else { old with chSeq := 0, chErr := true })

/-! ## Events of a core -/

/-- R47, R49, R50, R144, R156, R231: a run starts in a free slot when its words have been fetched and decode without a trap, the
conditions of R47 hold and no candidate of its core comes first. The claims of its LDFE words and the units of its GROWs go with
the start, and what it orders: the arrivals of a barrier, what an LDFE finds full, the tempo's passing, an RFENCE. A cohort that
waits to gather does not start; a run with a GROW waits in its queue. A run that cannot be fetched or decoded traps, before any
word issues. The model's choices: a poisoned code word traps POISON (assumption log 16), the word that PC names where several break a rule
(log 24), the edges of a barrier (log 41), the slices that a hold counts for (log 45), and stamps counted in steps (log 51). -/
def Obligations.RunStarts : Prop :=
  ∀ (s : State) (gid : Nat) (g : Gang) (k : Cohort) (slot : Nat) (ws : List Word) (es : List Entry),
    let core := g.core
    let task := s.task g.task
    let note (x : Cohort) : Cohort := if x.id = k.id then { x with fenceAt := some (x.fenceAt.getD s.nextId) } else x
    let g1 : Gang := { g with cohorts := g.cohorts.map note }
    let s1 : State := { s with gangs := tabPut s.gangs gid g1 }
    let pos := (k.resume.map (·.pos)).getD 0
    let fresh := g.lanes.dropW (g.ownLanes k.id)
    let run (ws : List Word) : Run := match k.resume with
      | some r => { id := if r.id = 0 then s.nextId else r.id, gang := gid, cohort := k.id, base := r.base, words := ws,
                    pos := wordStart ws r.pos, xb := r.xb, act := r.act, entry := if r.keepW then g.lanes else fresh,
                    group := if r.keepW then g.lanes else fresh, seeded := 0 }
      | none => { id := s.nextId, gang := gid, cohort := k.id, base := ((g.fragsOf k.id).head?.map (·.pc)).getD 0, words := ws,
                  pos := 0, xb := g.xb, act := g.activeOf k.id, entry := fresh, group := fresh, seeded := 0 }
    let c : Ctx := { slot := 0, run := run ws, gid := gid, gang := g1 }
    let event : Instr := .runStart core gid k.id slot
    let attempts : Prop := tabFind s.gangs gid = some g ∧ g.status = .resident ∧ s.isUp (dieOf core) = true ∧
      (∀ h ∈ g.holds, g.guests ≠ [] ∧ h.cohort ≠ k.id) ∧ g.fragsOf k.id ≠ [] ∧ g.cohort? k.id = some k ∧
      (g.guests = [] → (s.block g.block).status = .resident) ∧ ∀ r ∈ s.runs, r.2.gang = gid → r.2.cohort ≠ k.id
    let n := s.growOf g es
    let lacks := s.growUnits gid g n
    let used := (s.occupants core).flatMap fun p => s.blockUnits p.2
    let claims := if g.guests = [] then es.flatMap fun e => (c.ldfeGranules s e.instr).map fun x => ((run ws).id, g.block, x)
      else []
    let old := s.core core
    let starts (t : State) : Prop := ∃ units : List Nat,
      (n ≠ 0 → units.length = lacks ∧ units.Nodup ∧ ∀ u ∈ units, u < 512 ∧ u ∉ used) ∧ (n = 0 → units = []) ∧
      t = { s with
        nextId := s.nextId + 1
        cores := tabPut s.cores core { old with
          claims := old.claims ++ claims, growQ := old.growQ.filter fun q => !(q.gang == gid && q.cohort == k.id) }
        gangs := tabPut s.gangs gid { g with
          cohorts := g.cohorts.map fun x => if x.id = k.id then { x with resume := none, barWait := [], fenceAt := none } else x
          lanes := (run ws).group, units := g.units ++ units }
        runs := tabPut s.runs (core * 2 + slot) (run ws) }
    let edges : List (List Nat) := (barriersOf c k es).map fun w => (s.edgesOf c w.1 w.2).map fun x => (s.gang x.1).core
    let has (f : Instr → Prop) : Prop := ∃ e ∈ es, f e.instr
    let isFence (i : Instr) : Prop := ∃ b d, i = .rfence b d
    let isTake (i : Instr) : Prop := ∃ b, i = .take b
    let isAwait (i : Instr) : Prop := ∃ h d a off, i = .await h d a off
    let isFill (i : Instr) : Prop := ∃ h sz sx clear d a off, i = .ldfe h sz sx clear d a off
    let takes : Prop := has isTake ∧ s.holdsTempo g = true
    let spans (xs : List Nat) : Prop := ∃ x ∈ xs, x ≠ core
    let orders (t u : State) : Prop :=
      u = { t with pending := u.pending, bits := u.bits, mem := u.mem, cores := u.cores, dies := u.dies, blocks := u.blocks } ∧
      (∀ x, u.core x = { t.core x with l1 := (u.core x).l1, near := (u.core x).near }) ∧
      (∀ x, u.die x = { t.die x with l2 := (u.die x).l2 }) ∧ (∀ x, u.block x = { t.block x with unseen := (u.block x).unseen }) ∧
      (∀ xs ∈ edges, spans xs → ∀ x ∈ xs, ∀ p ∈ u.pending, p.reach = .core x → p.copy = true) ∧
      (takes → ∀ w ∈ task.tempoWait, ∀ p ∈ u.pending, p.reach ≠ .core (s.gang w.1).core) ∧
      (has isFence → ∀ p ∈ u.pending, p.reach ≠ .core core ∧ (p.reach = .die → p.die ≠ dieOf core)) ∧
      ((∃ xs ∈ edges, spans xs) ∨ takes ∨ has isAwait ∨ g.started = false → (u.core core).l1 = []) ∧
      (edges ≠ [] ∨ takes ∨ has isAwait ∨ has isFill ∨ g.started = false → ∀ x ∈ (u.core core).near, x.1 ≠ gid)
    let orderless : Prop := (∀ xs ∈ edges, ¬spans xs) ∧ ¬takes ∧ ¬has isAwait ∧ ¬has isFence ∧ g.started = true ∧
      ∀ x ∈ old.near, x.1 ≠ gid
    let traps (f : Fail) (addr place : Nat) (r : Run) : Prop := g.guests = [] → ∃ t rec,
      Becomes event s t ∧
      tabFind t.faults s.nextId = some rec ∧ rec.code = f.code ∧ rec.info = f.info ∧ rec.lane = 0xFF ∧ rec.addr = addr ∧
      rec.pc = codePtr r.base place ∧ rec.resumePc = codePtr r.base pos ∧ rec.performed = 0 ∧ rec.active = r.act ∧
      rec.token = s.nextId ∧ rec.gang = some gid ∧
      (t.gang gid).holds = [{ token := s.nextId, cohort := k.id, lanes := r.act, op := none, resumePc := codePtr r.base pos,
                              resumable := true, marked := none }] ∧
      t = { s with gangs := t.gangs, faults := tabPut s.faults s.nextId rec, nextId := s.nextId + 1 }
    (tabFind s.gangs gid = some g → g.cohort? k.id = some k → k.gathered = true → exec event s = .next s) ∧
    (attempts → k.gathered = false →
      ∀ words ok e, s.fetchRun task core (run []).base pos 8 [] = words →
      (∀ f addr, words = .trap f addr → traps f addr pos (run [])) ∧
      (words = .words ws → checkRun (restWords ws (run ws).pos) = ok →
        (ok = .error e → traps { code := e.code, info := 0 } 0 e.pos (run ws)) ∧
        (∀ all, ok = .ok all → es = all.filter (fun x => decide (pos ≤ x.pos)) →
          (n ≠ 0 → (∀ q ∈ old.growQ, ¬(q.gang = gid ∧ q.cohort = k.id)) → (∃ q ∈ old.growQ, task.tcb.prio ≤ q.prio) →
            ∃ t, Becomes event s t ∧ t = { s1 with cores := tabPut s.cores core { old with
              growQ := old.growQ ++ [{ prio := task.tcb.prio, gang := gid, cohort := k.id, n := n }] } }) ∧
          (MayStart s1 c (note k) es →
            (n ≠ 0 → (∃ q, growHead old.growQ = some q ∧ q.gang = gid ∧ q.cohort = k.id) ∧ lacks ≤ 512 - used.length) →
            slot < 2 → tabFind s.runs (core * 2 + slot) = none → (slot = 1 → tabFind s.runs (core * 2) ≠ none) →
            s1.outranked core (s1.rank g1 k.id) = false →
            ∃ t u, exec event s = .next u ∧ starts t ∧ orders t u ∧ (orderless → u = t ∧ Becomes event s t))))) ∧
    (∀ h b, (∀ (n : BitVec 8), s.blockingOk c (.bwait h n) = true ↔ g.guests ≠ [] ∨
        ∀ l, hasLane (c.perf h.guard) l = true → tabGet g.seals 0 l ≤ n.toNat + tabGet g.finished 0 l) ∧
      (∀ x, s.blockingOk c (.barWait b x) = true ↔ g.guests ≠ [] ∨
        (tabGet g.arrivals 0 x.toNat ≤ tabGet task.gens 0 (genKey x.toNat (s.block g.block).idx) ∧
          ∀ w ∈ s.edgesOf c x.toNat (tabGet g.arrivals 0 x.toNat), s.accessesDone w.1 w.2 = true)) ∧
      (s.blockingOk c (.take b) = true ↔ g.guests ≠ [] ∨ task.tcb.hasTempo = false ∨
        (task.tempo = some (s.launchNumber g) ∧
          ∀ w ∈ task.tempoWait, s.launchNumber (s.gang w.1) = s.launchNumber g ∨ s.accessesDone w.1 w.2 = true)) ∧
      (∀ d, g.cohort? k.id = some k → (s.blockingOk c (.rfence b d) = true ↔
        s.fenceDone gid (k.fenceAt.getD s.nextId) = true ∧
        ∀ p ∈ s.ops, p.1 < k.fenceAt.getD s.nextId → p.2.gang = gid → p.2.cls ≠ .rm)) ∧
      (∀ d a off, s.blockingOk c (.await h d a off) = true ↔ ∀ l, hasLane (c.perf h.guard) l = true →
        (∀ k, c.wanted s (wantRead 8) (c.addr l a off) ≠ .fails k failWait) ∧
        ∀ leaf, c.wanted s (wantRead 8) (c.addr l a off) = .here leaf → s.heldCell leaf.cell = false ∧
          s.poisonedAt leaf.cell 8 = false ∧ c.rdPair l d.toNat ≤ s.homeNat leaf.cell 8) ∧
      (∀ sz sx clear d a off, s.blockingOk c (.ldfe h sz sx clear d a off) = true ↔ g.guests ≠ [] ∨
        ∀ l, hasLane (c.perf h.guard) l = true → c.addr l a off % sz.bytes = 0 →
          c.addr l a off + sz.bytes ≤ task.tcb.scratch →
          c.addr l a off / 16 ∈ (s.block g.block).full ∧
          ∀ x ∈ (s.core g.core).claims, x.2 = (g.block, c.addr l a off / 16) → x.1 = (run ws).id))

/-- R45, R103 to R105, R207 to R209, R221, R223, R225, R240, R245, R249 to R256, R258, R364, R425: what performing one access of
an outstanding operation does: a read takes what its agent sees and fills the sectors it needs; a store is seen from then on by
the agents of its scope, and in the cells where no cache holds its page or the host must see it; an atomic replaces what it
returns. Which stores and copies stand between an agent and the cells, and what an order makes of them, is the model's choice
(assumption logs 13 and 42), as are the fields that a store leaves to the device (log 46), the room for a broadcast write (log
43) and the lane that a load's poison is found in (log 10). -/
def Obligations.AccessesPerformed : Prop :=
  ∀ (s : State) (id : Nat) (o : Op) (k : Nat) (a : Acc) (win : Bool),
    let s1 := orderedBefore s o
    let event : Instr := .accessPerformed id a.lane
    let gets (v : Nat) : Acc := { a with got := v, done := true }
    let done : Acc := { a with done := true }
    let leads (t : State) : Prop := exec event s = .next t
    let after (u : State) : State := orderedAfter u id o a.lane
    let through (u : State) (a' : Acc) : Prop := leads { after u with ops := opsAfter (after u) id k a' }
    let still (u : State) (a' : Acc) : Prop :=
      leads { after u with ops := tabMod (after u).ops id fun x => { x with accs := x.accs.set k a' } }
    let clean : Prop := s.poisonedAt a.addr a.size = false
    let isFlat : Prop := a.space = .flat win ∧ a.size ≠ 0
    let bytes := leBytes a.size a.data
    let b := s1.block o.block
    let me : Viewer := .lane o.core o.gang
    let maker : Maker := { op := id, gang := o.gang, lane := a.lane, copy := false, own := false }
    let mine (t : Tab Byte) (new : Tab Byte) : Prop := ∀ j, tabGet new 0 j =
      if a.addr ≤ j ∧ j < a.addr + a.size then bytes.getD (j - a.addr) 0 else tabGet t 0 j
    let uncached : Prop := s1.policyAt a.cache a.addr = 2
    -- an access to plain memory of its own die, where the caches it goes through have room
    let plain : Prop := s1.mem.wf = true ∧ s.cellFenced a.addr = false ∧ s.inStep a.addr = false ∧
      cellDie a.addr = dieOf o.core ∧ cellDie (a.addr + a.size) = cellDie a.addr ∧
      s1.pending.length + (s1.core o.core).l1.length < 4096 ∧
      s1.pending.length + (s1.die (dieOf o.core)).l2.length < 4096 ∧
      ∀ i < a.size, tabGet s1.fields 0 (granuleOf (a.addr + i)) = 0
    let u0 := s1.beforeLoad o.core o.scope a.cache win a.addr a.size
    let e := s1.dropEarly id a.lane
    let stored (u : State) : Prop :=
      (∀ i < a.size, u.viewByte (.core o.core) win (a.addr + i) = bytes.getD i 0) ∧
      u.poisonSeen (.core o.core) a.addr a.size = false ∧
      (o.scope = .d ∨ o.scope = .s → ∀ i < a.size, u.viewByte .die win (a.addr + i) = bytes.getD i 0) ∧
      (o.scope = .s ∨ uncached → ∀ i < a.size, u.viewByte .home win (a.addr + i) = bytes.getD i 0) ∧
      ((∀ p ∈ s1.pending, p.cell + p.bytes.length < a.addr / 128 * 128 ∨ (a.addr + a.size + 127) / 128 * 128 ≤ p.cell) →
        (∀ win' cell, cell < a.addr ∨ a.addr + a.size ≤ cell → u.viewByte .home win' cell = s1.viewByte .home win' cell) ∧
        (¬uncached → ∀ win' cell, cell < a.addr ∨ a.addr + a.size ≤ cell →
          u.viewByte .die win' cell = s1.viewByte .die win' cell) ∧
        ∀ x win' cell, cell / 128 < a.addr / 128 ∨ (a.addr + a.size - 1) / 128 < cell / 128 →
          u.viewByte (.core x) win' cell = s1.viewByte (.core x) win' cell)
    let own := s1.ownFirst o.core a.addr a.size
    let unseen : List (Nat × Byte) := b.unseen.filter fun p => decide (p.1 < a.addr ∨ a.addr + a.size ≤ p.1)
    AtAccess s id o k a →
    ((∀ x ∈ o.accs, x.poison = false) →
    -- reads
    (isFlat → u0.poisonedFor me a.addr a.size = false → (o.kind = .load ∨ ∃ n sx, o.kind = .bsread n sx) →
      through (u0.afterLoad o.core a.cache win a.addr a.size) (gets (u0.readNat me win a.addr a.size)) ∧
      (plain → u0.readNat me win a.addr a.size = leNat ((List.range a.size).map fun i => u0.viewByte me win (a.addr + i))) ∧
      (plain → ∀ i < a.size,
        (∀ p ∈ s1.pending, p.win = win → p.covers (a.addr + i) = true →
          p.seenOn o.core = false ∧ p.reach ≠ .gang o.core o.gang) →
        (uncached → u0.viewByte me win (a.addr + i) = u0.viewByte .home win (a.addr + i)) ∧
        (¬uncached → o.scope = .d ∨ o.scope = .s → u0.viewByte me win (a.addr + i) = s1.viewByte .die win (a.addr + i)) ∧
        (¬uncached → o.scope = .g ∨ o.scope = .k → u0 = s1))) ∧
    -- stores
    (isFlat → Alone o a → (∃ st, o.kind = .store st) →
      through (e.store (some o.core) o.scope a.cache win a.addr bytes maker) done ∧
      (plain → stored (e.store (some o.core) o.scope a.cache win a.addr bytes maker))) ∧
    (isFlat → Alone o a → o.kind = .bcw →
      through (if s1.promoted a.addr then s1.store (some o.core) .d a.cache win a.addr bytes maker
        else s1.askedStore a.addr bytes) done) ∧
    -- atomics
    (∀ op ty ret, isFlat → clean → s.cellFenced a.addr = false → o.kind = .atom op ty ret →
      let here := if s1.policyAt a.cache a.addr == 2 && !s1.inStep a.addr then own.recallThrough win a.addr a.size else own
      let m := here.readNat .die win a.addr a.size
      let new := atomNew op ty m a.data
      let u := here.store none (if o.scope = .s then .s else .d) a.cache win a.addr (leBytes a.size new) maker
      through u (gets m) ∧
      (plain → ∀ i < a.size, u.viewByte .die win (a.addr + i) = (leBytes a.size new).getD i 0) ∧
      let n := if ty.is64 then 64 else 32
      let x := a.data
      let smaller : Prop := if ty.int.signed then sval n x < sval n m else x % 2 ^ n < m % 2 ^ n
      (op = .add → new = (m + x) % 2 ^ n) ∧
      (ty.integer = true → op = .min → smaller → new = x) ∧ (ty.integer = true → op = .min → ¬smaller → new = m) ∧
      (ty.integer = true → op = .max → smaller → new = m) ∧ (ty.integer = true → op = .max → ¬smaller → new = x) ∧
      (op = .and → new = m &&& x) ∧ (op = .or → new = m ||| x) ∧ (op = .xor → new = m ^^^ x) ∧
      (op = .exch → new = x % 2 ^ n) ∧ (op = .cas → new = if m = x % 2 ^ n then x / 2 ^ n % 2 ^ n else m) ∧
      (op = .fadd → ty = .f32 ∨ ty = .f64 → ∃ fl, SumRule ty.fmt (.to .rne) (ty.fmt.value (m % 2 ^ n)) (ty.fmt.value (x % 2 ^ n)) (new, fl)) ∧
      (op = .fadd → ty = .bf16x2 ∨ ty = .f16x2 → ∃ lo hi fl gl, new = lo + 2 ^ 16 * hi ∧
        SumRule ty.fmt (.to .rne) (ty.fmt.value (m % 2 ^ 16)) (ty.fmt.value (x % 2 ^ 16)) (lo, fl) ∧
        SumRule ty.fmt (.to .rne) (ty.fmt.value (m / 2 ^ 16 % 2 ^ 16)) (ty.fmt.value (x / 2 ^ 16 % 2 ^ 16)) (hi, gl)) ∧
      (op = .fmin → m < 2 ^ n → x < 2 ^ n → ∃ fl, MinMaxRule ty.fmt false m x (new, fl)) ∧
      (op = .fmax → m < 2 ^ n → x < 2 ^ n → ∃ fl, MinMaxRule ty.fmt true m x (new, fl))) ∧
    -- LAUNCH, ACCRD, CFLUSH and CINV
    (isFlat → s.poisonedAt a.addr 16 = false → o.kind = .launch →
      let v := s1.ownFirst o.core a.addr 16
      let u := if v.policyAt a.cache a.addr = 2 ∧ v.inStep a.addr = false then v.recallThrough win a.addr 16 else v
      let old := u.readNat .die win (a.addr + 8) 4
      let st := if tabGet u.fields 0 (a.addr / 32) = 1 then old % 16 else 0
      let w := if u.inStep a.addr then u else { u with fields := tabPut u.fields (a.addr / 32) 1 }
      if st = 1 ∨ st = 2 then through (if u.inStep a.addr then u.dropWrite a.addr else u) (gets old)
      else through ((w.store none .s a.cache win a.addr (leBytes 8 a.data) Maker.dev).store none .s a.cache win (a.addr + 8)
        (leBytes 4 0) Maker.dev) (gets old)) ∧
    (∀ bf16, isFlat → clean → a.size = 64 → o.kind = .accrd bf16 →
      let c := own.readNat .die win a.addr 64
      let f := if bf16 then fbf16 else fp32
      ∃ r : Nat × FlagSet, through own (gets (r.1 + 2 ^ 32 * r.2.toNat)) ∧
        if nbit c 482 ∨ (nbit c 480 ∧ nbit c 481) then isNanResult f (nbit c 480 && nbit c 481) r
        else if nbit c 480 then isInfResult f false r
        else if nbit c 481 then isInfResult f true r
        else RoundsTo f (.to .rne) false ((sval 480 c : ℝ) * (2 : ℝ) ^ (-149 : Int)) r) ∧
    (∀ die inval, isFlat → o.kind = .flush die inval →
      let line := a.addr / 512 * 512
      let w := s1.toDie fun p => (die || p.reach == .core o.core) && p.overlaps line 512
      let u := if die then w.toCells fun p => p.overlaps line 512 else w
      through (if inval = false then u
        else if die = true then
          (u.dropL1 (fun c => dieOf c == cellDie line) fun c => c.meets line 512).dropL2 (cellDie line) fun c => c.meets line 512
        else u.dropL1 (· == o.core) fun c => c.meets line 512) done) ∧
    -- orders alone: FENCE, and the lanes of an ordered word that do not perform; TLBINV
    (a.space = .scratch → a.size = 0 → (∃ st, o.kind = .store st) ∨ o.kind = .load ∨ o.kind = .fence false ∨
      (∃ op ty ret, o.kind = .atom op ty ret) → through s1 done) ∧
    (a.space = .scratch → a.size = 0 → o.kind = .fence true → through (s1.recallDie (dieOf o.core)) done) ∧
    (∀ all va d, a.space = .scratch → a.size = 0 → o.kind = .tlbinv all va → a.data = 0 →
      tabFind s.dies (dieOf o.core) = some d →
      (∀ p ∈ s.ops, p.1 < id → p.2.gang = o.gang → p.2.kind.isStore = true → p.2.scope = .d ∨ p.2.scope = .s →
        ∀ x ∈ p.2.accs, x.done = true) →
      let keeps (t : List TlbEntry) : List TlbEntry :=
        if all then [] else t.filter fun e => e.va != va / 2 ^ (52 - 12 * e.level)
      leads { s with
        dies := tabPut s.dies (dieOf o.core) { d with tlb := keeps d.tlb }
        cores := s.cores.map fun p =>
          if dieOf p.1 = dieOf o.core then (p.1, { p.2 with tlb := keeps p.2.tlb }) else p
        ops := tabPut s.ops id { o with accs := o.accs.set k { a with data := s.nextId } } }) ∧
    (∀ all va, a.space = .scratch → a.size = 0 → o.kind = .tlbinv all va → a.data ≠ 0 →
      let other (x level : Nat) : Prop := all = false ∧ x / 2 ^ (52 - 12 * level) ≠ va / 2 ^ (52 - 12 * level)
      (∀ p ∈ s.ops, p.1 < a.data → dieOf p.2.core = dieOf o.core → p.2.kind.leavesDie = false ∧
        (∀ x ∈ p.2.accs, x.done = true ∨ x.size = 0 ∨ x.space = .scratch ∨ x.space = .priv ∨ other x.va x.level) ∧
        ∀ g ∈ p.2.kind.segs, other g.va g.level) →
      through s1 done) ∧
    -- scratchpad and lane-private space
    (a.space = .scratch → a.size ≠ 0 → o.kind = .load →
      through s1 (gets (leNat ((List.range a.size).map fun i => tabGet b.scratch 0 (a.addr + i))))) ∧
    (a.space = .priv → o.kind = .load →
      through s1 (gets (leNat ((List.range a.size).map fun i => tabGet b.priv 0 (a.addr + i))))) ∧
    (a.space = .scratch → a.size ≠ 0 → Alone o a → (∃ st, o.kind = .store st) → ∃ new, mine b.scratch new ∧
      through { s1 with blocks := tabPut s1.blocks o.block { b with scratch := new, unseen := unseen } } done) ∧
    (a.space = .priv → Alone o a → (∃ st, o.kind = .store st) → ∃ new, mine b.priv new ∧
      through { s1 with blocks := tabPut s1.blocks o.block { b with priv := new } } done) ∧
    (a.space = .scratch → a.size ≠ 0 → Alone o a → o.kind = .stfe → ∃ new, mine b.scratch new ∧
      through { s1 with blocks := tabPut s1.blocks o.block { b with
        scratch := new, unseen := unseen, full := insNat b.full (a.addr / 16) } } done) ∧
    (∀ clear, a.space = .scratch → a.size ≠ 0 → o.kind = .ldfe clear →
      let got := leNat ((List.range a.size).map fun i => tabGet b.scratch 0 (a.addr + i))
      let v := after { s1 with blocks := tabPut s1.blocks o.block (if clear then
        { b with full := b.full.filter fun g => g != a.addr / 16 } else b) }
      ∃ t, leads t ∧ t = { v with ops := opsAfter v id k (gets got), cores := t.cores } ∧
        ((∃ x ∈ o.accs.set k done, x.done = false) → t.cores = v.cores)) ∧
    -- HALT
    (o.kind = .halt → isFlat → s1.poisonedAt (a.addr + 8) 4 = false →
      let old := s1.homeNat (a.addr + 8) 4
      let st := if tabGet s1.fields 0 (a.addr / 32) = 1 then old % 16 else 0
      (a.data = 0 → st ≠ 1 → st ≠ 2 → st ≠ 4 → through s1 (gets old)) ∧
      (a.data = 0 → st = 1 ∨ st = 2 ∨ st = 4 →
        still (((s1.tasks.filter fun p => p.2.cell == a.addr && p.2.status != .retired).map (·.1)).foldl
          (fun s t => s.endTask t) s1) { a with data := old + 1 }) ∧
      (a.data ≠ 0 → (∀ p ∈ s.tasks, p.2.cell = a.addr → p.2.status = .retired) →
        through (s1.homeStore (a.addr + 8) (leBytes 4 (old / 16 * 16 + 4))) (gets (a.data - 1))) ∧
      (a.data ≠ 0 → (∃ p ∈ s.tasks, p.2.cell = a.addr ∧ p.2.status ≠ .retired) → still s1 a)) ∧
    -- ARM, its fence complete
    (∀ addrs dst pa va, o.kind = .armWait addrs → a.space = .scratch → a.size = 0 → o.cls = .rm →
      s.fenceDone o.gang id = true →
      addrs.find? (fun x => x.1 == a.lane) = some (a.lane, dst, pa, va) → ∃ t, leads t ∧
        Sends { after s1 with ops := opsAfter (after s1) id k done } t (some id) (some o.gang)
          [({ sdie := o.core / 64, eng := o.core % 64, seq := 0, oldest := 0, wrap := 0, dst := dst, vc := 2, kind := 10,
              opq := 0, pa := pa, aux := 0, aux2 := 0, body := .arm va, keyGen := 0, key := 0 },
            BitVec.ofNat 32 (2 ^ a.lane))])) ∧
    -- poison: the load is not complete, and its last access traps POISON in the lowest poisoned lane
    (isFlat → o.kind = .load → u0.poisonedFor me a.addr a.size = true →
      (∃ x ∈ o.accs.set k done, x.done = false) → through u0 { a with done := true, poison := true }) ∧
    (isFlat → o.kind = .halt → o.cls = .ld → s1.poisonedAt (a.addr + 8) 4 = true →
      (∃ x ∈ o.accs.set k done, x.done = false) → through s1 { a with done := true, poison := true }) ∧
    (isFlat → o.kind = .load → o.cls = .ld → o.fromTrap = false → u0.poisonedFor me a.addr a.size = true →
      (∀ d ∈ s.departing, d.2.src = o.gang → placeLanes d.2.lanes d.2.place &&& o.active = 0) →
      (∀ x ∈ o.accs.set k done, x.done = true) → (∀ x ∈ o.accs, x.poison = true → a.lane < x.lane) → a.lane < 32 →
      (s.gang o.gang).guests = [] → ((s.gang o.gang).fragWith a.lane).isSome = true → ∃ t rec, leads t ∧
        tabFind t.faults s.nextId = some rec ∧ rec.code = 10 ∧ rec.lane = a.lane ∧ rec.addr = a.va ∧ rec.pc = o.pc ∧
        rec.resumePc = o.pc ∧ rec.performed = 0 ∧ rec.active = o.active ∧ rec.gang = some o.gang ∧
        (t.gang o.gang).lanes = (s.gang o.gang).lanes ∧
        ∃ h, (t.gang o.gang).holds = (s.gang o.gang).holds ++ [h] ∧ h.token = s.nextId ∧ h.op = some id)

/-- R45, R46, R102, R103, R194, R195, R317, R319, R405: a long-latency result is written in every lane that may receive it
once all its accesses have been performed; an ordered store to the step window of a channel in promotion mode sets its latch
and steps its 16 bank units; a float operation of a deterministic task is held at its home slice, or goes to the spill
region, and memory does not change. Where the spill record and its count stand (assumption log 5), what a promoted channel's
step meets (log 32), what is seen of the caches (log 42) and the address of a spill's fault (log 47) are the model's choices. -/
def Obligations.LateResults : Prop :=
  ∀ (s : State) (id : Nat) (o : Op) (k : Nat) (a : Acc),
    let s1 := orderedBefore s o
    let noPoison : Prop := ∀ x ∈ o.accs, x.poison = false
    (∀ (g : Gang) (d : Dest), tabFind s.ops id = some o → tabFind s.gangs o.gang = some g → o.cls = .ld → o.dest = some d →
      d.first + d.count ≤ 512 → (∀ x ∈ o.accs, x.done = true) → (o.once = true ∨ noPoison) →
      let mine (l : Nat) : List Acc := o.accs.filter fun x => x.lane == l && x.size != 0
      let got (l : Nat) : Nat := ((mine l).head?.map (·.got)).getD 0
      let writes (l : Nat) : Prop := hasLane o.active l = true ∧ ∀ x ∈ o.accs, x.lane = l → x.poison = false
      ∃ (t : State) (L : Lanes) (value : Nat → Nat), Becomes (.longLatencyWrite id) s t ∧
        t = { s with gangs := tabPut s.gangs o.gang { g with lanes := L }, ops := tabDel s.ops id } ∧
        L = { g.lanes with regs := L.regs, lstat := L.lstat } ∧
        (∀ l < 32, ∀ n < 512, tabGet L.regs 0 (l * 512 + n) =
          if writes l ∧ d.first ≤ n ∧ n < d.first + d.count ∧ s.receives o.gang g l n = true
          then BitVec.ofNat 32 (value l / 2 ^ (32 * (n - d.first))) else tabGet g.lanes.regs 0 (l * 512 + n)) ∧
        (∀ l, tabGet L.lstat 0 l = tabGet g.lanes.lstat 0 l |||
          if (∃ bf, o.kind = .accrd bf) ∧ writes l ∧ ((g.fragWith l).isSome = true ∨ s.leaving o.gang l = true)
          then BitVec.ofNat 6 (((o.accs.find? fun x => x.lane == l).map (·.got)).getD 0 / 2 ^ 32) else 0) ∧
        ((∀ n sx, o.kind ≠ .bsread n sx) → o.kind ≠ .halt → d.width ≠ 0 → ∀ l, value l =
          if d.sx = true ∧ d.width < 4 then ((BitVec.ofNat (8 * d.width) (got l)).signExtend 32).toNat
          else got l % 2 ^ (8 * d.width)) ∧
        (o.kind = .halt → ∀ l, value l = (o.accs.head?.map (·.got)).getD 0) ∧
        (∀ n sx, o.kind = .bsread n sx → 1 ≤ n → n ≤ 32 → ∀ l,
          let x := (mine l).foldr (fun b v => b.got + 256 * v) 0
          let f : BitVec n := BitVec.ofNat n (x / 2 ^ (((mine l).head?.map (·.data)).getD 0))
          value l = if sx then (f.signExtend 32).toNat else f.toNat)) ∧
    (∀ win, let die := cellDie a.addr
     let ch := blChannel (cellAddr a.addr)
     let c := tabGet (s1.die die).channels Channel.reset ch
     let bytes := leBytes a.size a.data
     a.space = .flat win → tabFind s.ops id = some o → o.accs[k]? = some a → a.done = false →
     (∀ j < k, ∀ b : Acc, o.accs[j]? = some b → b.lane = a.lane → b.done = true) → o.abandoned = false →
     s.accReady id o a = true → o.kind = .store true → noPoison → s.inStep a.addr = true → s.asleep a.addr = false →
     0 < a.size → a.size ≤ 8 → (∀ x ∈ o.accs, x.done = true ∨ x.size = 0 ∨ a.lane ≤ x.lane) →
     ∃ latch : Tab Byte,
       (∀ i < a.size, tabGet latch 0 ((a.addr + i) % 32) = bytes.getD i 0) ∧
       (∀ j, (∀ i < a.size, (a.addr + i) % 32 ≠ j) → tabGet latch 0 j = tabGet c.latch 0 j) ∧
       let s2 : State := { s1 with dies := tabPut s1.dies die { s1.die die with
         channels := tabPut (s1.die die).channels ch { c with latch := latch } } }
       let s3 := (List.range 16).foldl (fun s b => s.bankStep die ch b) s2
       exec (.columnAccess id a.lane) s = .next { s3 with ops := opsAfter s3 id k { a with done := true } }) ∧
    (∀ die ch b,
      let c := s.channel die ch
      let u := tabGet c.units BankUnit.reset b
      let x : BuCtx := { die := die, ch := ch, bank := b, latch := c.latch }
      let at_ (row col : Nat) : Nat := (die * 4) * 2 ^ 64 + ch * 2 ^ 31 + b * 2 ^ 27 + row * 2 ^ 11 + col
      let word := leNat (s.homeBytes (at_ c.progrow (4 * u.pc)) 4)
      let becomes (u' : BankUnit) : Prop :=
        s.bankStep die ch b = s.setChannel die ch { c with units := tabPut c.units b u' }
      (u.killed = true → s.bankStep die ch b = s) ∧
      (∀ cause, u.killed = false → x.exec s u c.pins word = .error cause →
        becomes { u with killed := true, cause := cause }) ∧
      (∀ u', u.killed = false → x.exec s u c.pins word = .ok (u', []) →
        (nbits word 30 24 = 0x63 → nbits word 6 0 = 3 → becomes { u' with pc := 0 }) ∧
        ((nbits word 30 24 ≠ 0x63 ∨ nbits word 6 0 ≠ 3) → u.pc ≠ 511 → becomes { u' with pc := u.pc + 1 })) ∧
      let d := nbits word 20 14
      let p (l : Nat) : Nat := x.reg u l (nbits word 13 7)
      let q (l : Nat) : Nat := x.reg u l (nbits word 6 0)
      let gives (r : Nat → Nat) : Prop := ∃ u', x.exec s u c.pins word = .ok (u', []) ∧ u' = { u with regs := u'.regs } ∧
        ∀ l < 8, ∀ f, tabGet u'.regs 0 (f * 8 + l) =
          if u.mask.getLsbD l = true ∧ (f = d ∨ f = 0) then BitVec.ofNat 32 (r l) else tabGet u.regs 0 (f * 8 + l)
      nbit word 31 = false → nbits word 23 21 = 7 → buDest d = true → buSource (nbits word 13 7) = true →
      buSource (nbits word 6 0) = true →
      (nbits word 30 24 = 0x0C → gives fun l => (p l + q l) % 2 ^ 32) ∧
      (nbits word 30 24 = 0x10 → gives fun l => p l * q l % 2 ^ 32) ∧
      (nbits word 30 24 = 0x17 → gives fun l => p l &&& q l) ∧ (nbits word 30 24 = 0x18 → gives fun l => p l ||| q l) ∧
      (nbits word 30 24 = 0x19 → gives fun l => p l ^^^ q l) ∧
      (nbits word 30 24 = 0x2C → ∃ r : Nat → Nat, gives r ∧
        ∀ l, ∃ fl, SumRule fp32 (.to .rne) (fp32.value (p l)) (fp32.value (q l)) (r l, fl))) ∧
    (∀ (n : Nat) (b : BufRec) (op : AtomOp) (ty : AtomTy) (ret : Bool), s.bufs[n]? = some b → b.issued = id →
      AtAccess s id o k a → a.lane = b.lane → o.kind = .bufAtom op ty ret → b.arrived = false →
      noPoison → (ret = true → s.poisonedAt a.addr a.size = false) →
      let s2 := s1.ownFirst o.core a.addr a.size
      let arrives (u : State) (b' : BufRec) : State := orderedAfter { u with bufs := s.bufs.set n b' } id o a.lane
      let a' : Acc := { a with got := s2.readNat .die (a.space == .flat true) a.addr a.size, done := true }
      let atSlice := s.bufs.countP fun x =>
        x.arrived && !x.spilled && cellDie x.cell == cellDie b.cell && sliceOf x.cell == sliceOf b.cell
      let task := s.task b.task
      let fill := s2.homeNat (task.cell + 0x148) 8
      (atSlice < 65536 → let v := arrives s2 { b with arrived := true }
        exec (.bufferedRecordArrival n) s = .next { v with ops := opsAfter v id k a' }) ∧
      (∀ ls, 65536 ≤ atSlice → s.spillHeld b = false → fill * 32 + 32 ≤ task.tcb.spillsize →
        s2.translateRange (cellDie b.cell) { r := false, w := true, x := false, priv := task.privileged, encl := task.tcb.encl }
          3 (task.tcb.spillbase + fill * 32) 32 = .ok ls →
        let bits := b.block % 2 ^ 32 * 2 ^ 224 + b.gang % 32 * 2 ^ 219 + b.lane % 32 * 2 ^ 214 + b.seq % 2 ^ 32 * 2 ^ 176 +
          Machine.AtomOp.code b.op * 2 ^ 172 + Machine.AtomTy.code b.ty * 2 ^ 168 + b.va % 2 ^ 52 * 2 ^ 116 + b.value % 2 ^ 64
        let s3 := (s2.putPieces ls (leBytes 32 bits)).homeStore (task.cell + 0x148) (leBytes 8 (fill + 1))
        let v := arrives s3 { b with arrived := true, spilled := true }
        exec (.bufferedRecordArrival n) s = .next { v with ops := opsAfter v id k a' }) ∧
      (65536 ≤ atSlice → s.spillHeld b = false → task.tcb.spillsize < fill * 32 + 32 → task.status ≠ .faulted → ∃ t rec,
        exec (.bufferedRecordArrival n) s = .next t ∧ (t.task b.task).status = .faulted ∧
        tabFind t.faults s.nextId = some rec ∧ rec.code = 9 ∧ rec.addr = b.va ∧ rec.task = b.task ∧ rec.serve = true))

/-! ## Events of blocks, tasks and fault records -/

/-- R12, R141, R151 to R154, R182, R184, R188, R196, R197, R203, R348 to R350, R352: a fault record goes into the next slot
of its area, then HEAD is raised, then the supervisor is served; the served task's next block is placed; a block whose gangs
have ended and whose operations are through retires; placements and retirements are reported to the master (R399); a task all
of whose blocks have retired applies its buffered records in key order and arms its successors. The model's choices in it: where
the device keeps its mark and its count in a TCB (assumption log 5), the lowest free positions (log 14), the report's packet (log
17), the core taken among those with room (log 21), a record with no area or no supervisor (log 27), the walk that a launch has
its privilege from (log 37), and the fields that are the device's from the first arming on (log 46). -/
def Obligations.FaultsBlocksTasks : Prop :=
  ∀ (s : State) (id task bid : Nat) (r : FaultRec),
    let leads (i : Instr) (t : State) : Prop := exec i s = .next t
    -- the record (R350)
    (∀ tcb seq, let b := r.bits tcb seq
      let f (off n : Nat) : Nat := b / 256 ^ off % 256 ^ n
      f 0 1 = r.code % 256 ∧ f 1 1 = r.lane % 256 ∧ f 2 2 = r.info % 2 ^ 16 ∧
      f 4 4 = r.resumable.toNat + 2 * r.guest.toNat + 4 * r.privileged.toNat ∧ f 8 8 = tcb % 2 ^ 64 ∧
      f 0x10 8 = r.addr % 2 ^ 64 ∧ f 0x18 4 = r.block % 2 ^ 32 ∧ f 0x1C 4 = r.lgang % 2 ^ 32 ∧ f 0x20 4 = r.pc % 2 ^ 32 ∧
      f 0x24 4 = r.resumePc % 2 ^ 32 ∧ f 0x28 4 = r.performed.toNat ∧ f 0x2C 4 = r.active.toNat ∧ f 0x30 1 = r.die % 8 ∧
      f 0x31 1 = r.core % 64 ∧ f 0x32 2 = r.die / 8 % 2 ^ 16 ∧ f 0x34 1 = 127 ∧ f 0x3C 4 = seq % 2 ^ 32 ∧
      f 0x40 8 = r.token % 2 ^ 64) ∧
    -- its delivery (R348, R349)
    (let own := (s.task r.task).tcb.faultrec
     let dflt := (s.die r.die).deffault.toNat
     let without : State := { s with faults := tabDel s.faults id }
     tabFind s.faults id = some r →
     (own = 0 → dflt = 0 → leads (.faultRecordDelivery id) (without.haltTask r.task)) ∧
     ((s.task r.task).status ≠ .retired → (s.task r.task).status ≠ .ending →
       ((without.haltTask r.task).task r.task).status = .ending) ∧
     ∀ area leaf, area = (if own = 0 then dflt else own) → area ≠ 0 → s.translate r.die area deviceWrites = .ok leaf →
       s.heldCell leaf.cell = false → s.poisonedAt leaf.cell 32 = false →
       let head := s.homeNat leaf.cell 8
       let cap := s.homeNat (leaf.cell + 16) 4
       let full : Prop := (head + 2 ^ 64 - s.homeNat (leaf.cell + 8) 8) % 2 ^ 64 = cap
       (cap = 0 ∨ full → leads (.faultRecordDelivery id) s) ∧
       (∀ ps, cap ≠ 0 → ¬full →
         s.translateRange r.die deviceWrites 3 (area + 64 + 128 * (head % cap)) 128 = .ok ps →
         (∀ p ∈ ps, s.heldCell p.1.cell = false ∧ s.poisonedAt p.1.cell p.2 = false) →
         let s1 := s.storePieces ps (leBytes 128 (r.bits (s.task r.task).addr head))
         let s2 := s1.store none .d leaf.cache leaf.win leaf.cell (leBytes 8 (head + 1)) Maker.dev
         let s3 : State := { (s2.ownRecord 3 ps).markField leaf.cell 2 with faults := tabDel s2.faults id }
         (r.serve = false → leads (.faultRecordDelivery id) s3) ∧
         (∀ sup, r.serve = true → (s3.task r.task).tcb.super ≠ 0 → (s3.task r.task).tcb.super % 512 = 0 →
           s3.translate r.die (s3.task r.task).tcb.super deviceWrites = .ok sup →
           s3.serveHeld sup.die sup.cell (s3.task r.task).tcb.super = false →
           leads (.faultRecordDelivery id) (s3.serve sup.die sup.cell (s3.task r.task).tcb.super)))) ∧
    -- serving a supervisor (R352), and becoming ready (R151, R152)
    (∀ home cell va,
      let u := if tabGet s.fields 0 (cell / 32) = 1 ∨ s.cellFenced cell = true ∨ s.inStep cell = true then s
        else ({ s with fields := tabPut s.fields (cell / 32) 1 } : State).homeStore (cell + 8) (leBytes 4 0)
      let st := if tabGet u.fields 0 (cell / 32) = 1 then u.homeNat (cell + 8) 4 % 16 else 0
      (st = 0 ∨ st = 3 → s.serve home cell va = (u.homeStore cell (leBytes 8 0)).makeReady home cell va) ∧
      (st = 1 ∨ st = 2 → s.serve home cell va = u.homeStore (cell + 0x140) [1]) ∧
      (st = 4 → s.serve home cell va = u) ∧
      let s1 := s.homeStore (cell + 8) (leBytes 4 (s.homeNat (cell + 8) 4 / 16 * 16 + 1))
      let t : Task := {
        addr := va, home := home, cell := cell, tcb := Tcb.ofLine (s.homeNat cell 512), status := .queued,
        privileged := (match s.walk home va with | .ok l => l.sup | .error _ => false), groups := [], placed := 0,
        retired := 0, gens := [], edges := [], tempo := none, tempoWait := [], enclGen := (s.pkg (home / 8)).gen, reissue := [] }
      let d := s1.die home
      (∀ gs, { s1 with nextId := s.nextId + 1 }.checkTcb home t (s.homeNat cell 512) = .ok gs →
        s.makeReady home cell va = { s1 with
          nextId := s.nextId + 1, tasks := tabPut s.tasks s.nextId { t with groups := gs },
          dies := tabPut s1.dies home { d with ready := d.ready ++ [(t.tcb.prio, t.tcb.rook, s.nextId)] } }) ∧
      (∀ k, { s1 with nextId := s.nextId + 1 }.checkTcb home t (s.homeNat cell 512) = .error k →
        ((s.makeReady home cell va).task s.nextId).status = .faulted ∧ ∃ rec,
          tabFind (s.makeReady home cell va).faults (s.nextId + 1) = some rec ∧ rec.code = 5 ∧ rec.info = k ∧
          rec.task = s.nextId ∧ rec.serve = true)) ∧
    -- placing a block (R182, R184, R188)
    (∀ (die idx core : Nat) (rook : Bool) (pre post : List (Nat × Bool × Nat)) (p : Nat) (room : Room),
      let t := s.task task
      let n := t.tcb.blkdim
      let bid := s.nextId
      let occ := s.occupants core
      s.isUp die = true → (s.die die).fenced = false → (s.die die).ready = pre ++ (p, rook, task) :: post → (∀ e ∈ pre, e.2.1 = rook → e.1 < p) →
      (∀ e ∈ post, e.2.1 = rook → e.1 ≤ p) →
      idx = t.reissue.headD t.placed → (t.reissue = [] → t.placed < t.tcb.grid) →
      (∀ b ∈ s.blocks, b.2.task = task → b.2.status ≠ .saved) → s.makingRoom task = false → s.heldCell t.cell = false →
      (∃ d ∈ t.dies, s.allowedOn t.tcb d ≠ []) → s.coreFor task t idx = some core → s.room core t.tcb = some room →
      (room.units.length = n * t.tcb.regs / 8 ∧ room.units.Nodup ∧
        (∀ u ∈ room.units, u < 512 ∧ ∀ b ∈ occ, u ∉ s.blockUnits b.2) ∧
        room.places.length = n ∧ room.places.Nodup ∧ (∀ u ∈ room.places, u < 32 ∧ ∀ b ∈ occ, u ∉ s.blockPlaces b.2) ∧
        room.scratch + t.tcb.scratch ≤ 524288 ∧ room.priv + n * t.tcb.priv ≤ 32768) ∧
      ∃ t' : State, leads (.blockPlacement die rook) t' ∧
        tabFind t'.blocks bid = some {
          task := task, idx := idx, core := core, status := .resident,
          gangs := (List.range n).map (bid + 1 + ·), scratch := [], full := [], priv := [], scratchPos := room.scratch,
          privPos := room.priv, stamp := s.time, pendingFor := none, saveFailed := false, savedAccs := [], savedBs := [] } ∧
        (∀ g < n, ∃ G, tabFind t'.gangs (bid + 1 + g) = some G ∧ G.task = task ∧ G.block = bid ∧ G.num = g ∧ G.core = core ∧
          G.status = .resident ∧ G.xb = 0 ∧ G.allot = t.tcb.regs ∧ G.q0 = [] ∧ G.q1 = [] ∧ G.q2 = [] ∧ G.guests = [] ∧
          G.lanes.regs = [] ∧ G.lanes.w = [] ∧ G.lanes.preds = [] ∧ G.lanes.lstat = [] ∧ G.lanes.cursor = [] ∧
          (∀ l < 32, (tabGet G.lanes.g0 0 l, tabGet G.lanes.g1 0 l) =
            genSeed (BitVec.ofNat 64 t.tcb.seed) (BitVec.ofNat 64 ((idx * 32 + g) * 32 + l))) ∧
          (∀ f ∈ G.frags, f.pc = t.tcb.entry / 4 ∧ f.stack = [] ∧
            ∀ l < 32, hasLane f.act l = true ↔ l / 4 = f.slice ∧ l < t.tcb.ganglanes) ∧
          G.frags.map (·.slice) = (List.range 8).filter fun x => decide (4 * x < t.tcb.ganglanes)) ∧
        (∀ k, k < bid ∨ bid + n < k → tabFind t'.gangs k = tabFind s.gangs k) ∧
        (∀ k, k ≠ bid → tabFind t'.blocks k = tabFind s.blocks k) ∧
        (t'.task task).placed = (if t.reissue = [] then t.placed + 1 else t.placed) ∧
        (t'.task task).reissue = t.reissue.drop 1 ∧
        (t'.task task).tempo = (if idx = 0 ∧ t.tcb.hasTempo = true ∧ t.reissue = [] then some 0 else t.tempo) ∧
        (t'.die t.home).reports = reported (s.die t.home).reports bid true ∧ t'.nextId = bid + 1 + n) ∧
    -- a report goes to the master (R399)
    (∀ home b placed, let u := s.report home b placed
      let m := home / 8 * 8 + (s.die home).master
      (u.die home).reports = reported (s.die home).reports b placed ∧
      (m = home → (u.die home).heldBlocks = reported (s.die home).heldBlocks b placed) ∧
      (m ≠ home → ∃ x ∈ u.unacked, x.pkt.sdie = home ∧ x.pkt.dst = m ∧ x.pkt.vc = 2 ∧ x.pkt.body = .report b placed)) ∧
    (∀ (t : Task) (d c : Nat), s.coreOn t.tcb d = some c → c ∈ s.allowedOn t.tcb d ∧ (s.room c t.tcb).isSome = true ∧
      ∀ c' ∈ s.allowedOn t.tcb d, (s.room c' t.tcb).isSome = true →
        s.freeUnits c' < s.freeUnits c ∨ (s.freeUnits c' = s.freeUnits c ∧ c ≤ c')) ∧
    -- a block retires (R153)
    (∀ b, tabFind s.blocks bid = some b → b.status = .resident ∨ b.status = .halting ∨ b.status = .halted ∨ b.status = .saved →
      (∀ g ∈ b.gangs, (s.gang g).status = .ended) → s.blockOwes b = false →
      let k := s.core b.core
      let old := s.task b.task
      Becomes (.blockRetirement bid) s (State.report { s with
        ops := s.ops.filter fun p => !(p.2.block == bid && b.gangs.contains p.2.gang && p.2.kind != .halt)
        cores := tabPut s.cores b.core { k with
          accs := k.accs.filter fun p => p.2.owner != some bid, bs := k.bs.filter fun p => p.2.owner != some bid
          claims := k.claims.filter fun c => c.2.1 != bid }
        blocks := tabPut s.blocks bid { b with
          status := .retired, scratch := [], full := [], priv := [], pendingFor := none, savedAccs := [], savedBs := [] }
        tasks := tabPut s.tasks b.task { old with retired := old.retired + 1 } } old.home bid false)) ∧
    -- a task retires (R154, R196)
    (let t := s.task task
     let stateIs (s : State) (v : Nat) : State :=
       s.homeStore (t.cell + 8) (leBytes 4 (s.homeNat (t.cell + 8) 4 / 16 * 16 + v))
     let s1 := stateIs { s with tasks := tabPut s.tasks task { t with status := .retired } } 3
     let s2 := s1.releaseTask task
     let noBlocks : Prop := ∀ b ∈ s.blocks, b.2.task = task → b.2.status = .retired ∨ b.2.status = .lost
     noBlocks → s.taskOwes task = false → s.heldCell t.cell = false →
     (t.status = .ending → s.homeNat (t.cell + 0x148) 8 = 0 →
       (stateIs { s with tasks := tabPut s.tasks task { t with status := .retired } } 4).homeNat (t.cell + 0x148) 8 = 0 →
       leads (.taskRetirement task) (stateIs { s with tasks := tabPut s.tasks task { t with status := .retired } } 4)) ∧
     (∀ (va : Nat → Nat) (leaf : Nat → Leaf), t.status = .running → t.tcb.grid ≤ t.retired → t.reissue = [] →
       (∀ b ∈ s.bufs, b.task ≠ task) → s.overflowHeld t = false → s.successorsHeld t = false → s.homeNat (t.cell + 0x140) 1 = 0 → s2.homeNat (t.cell + 0x148) 8 = 0 →
       (∀ i < t.tcb.nsucc, s2.successor t i = .ok (va i) ∧ va i ≠ 0 ∧ va i % 512 = 0 ∧
         s2.translate t.home (va i) deviceWrites = .ok (leaf i) ∧ s2.barred t.home (leaf i).die = none) → s2.homeNat (t.cell + 0x140) 1 = 0 →
       ∃ t', leads (.taskRetirement task) t' ∧
         Sends s2 t' none none ((List.range t.tcb.nsucc).map fun i =>
           ({ sdie := t.home, eng := 64, seq := 0, oldest := 0, wrap := 0, dst := (leaf i).die, vc := 2, kind := 10, opq := 0,
              pa := packetAddr (leaf i), aux := 0, aux2 := 0, body := .arm (va i), keyGen := 0, key := 0 }, 0))) ∧
     (∀ ms : List BufRec, ms.Perm (s.bufs.filter fun b => b.task == task) →
       (∀ b ∈ ms, b.gang < 32 ∧ b.lane < 32 ∧ b.seq < 2 ^ 32) →
       ms.Pairwise (fun x y => x.block < y.block ∨ (x.block = y.block ∧ (x.gang < y.gang ∨ (x.gang = y.gang ∧
         (x.lane < y.lane ∨ (x.lane = y.lane ∧ x.seq < y.seq)))))) →
       s.applyRecords task = ms.foldl (fun s b =>
         if s.poisonedAt b.cell b.ty.bytes then s
         else s.askedStore b.cell (leBytes b.ty.bytes (atomNew b.op b.ty (s.homeNat b.cell b.ty.bytes) b.value)))
         { s with bufs := s.bufs.filter fun b => b.task != task }))

/-- R188, R279, R280, R358, R366 to R371: a halted block waits for nothing but its gangs' saves; a gang's save writes its
header and its register units to the image of its core; the block's save frees its positions and queues its task first;
the restore brings block and gangs back as the image has them, at the positions they held. Where a field that the spec does not
place stands in the image (assumption log 15), the stamp of a cohort that comes back (log 51), and what a save does where its
area fails (log 47), are the model's choices. -/
def Obligations.SavesAndRestores : Prop :=
  ∀ (s : State) (gid bid : Nat) (g : Gang) (b : Block),
    let task := s.task b.task
    let at_ (off : Nat) : Nat := (task.tcb.savearea + b.core % 512 * 0x400000 + off) % 2 ^ 64
    let image (off n : Nat) : Option (List Byte) := s.imageRead task b.core off n
    (∀ off, task.tcb.imageVa b.core off = at_ off) ∧
    -- BLOCK_HALTED
    (tabFind s.blocks bid = some b → b.status = .halting → (∀ r ∈ s.runs, r.2.gang ∉ b.gangs) →
      (∀ o ∈ s.ops, o.2.block = bid → o.2.began = true → s.tileHeld o.1 o.2 = true) →
      Becomes (.blockHalted bid) s { s with
        ops := s.ops.map fun p => (p.1, if p.2.block = bid then { p.2 with began := false } else p.2)
        blocks := tabPut s.blocks bid { b with status := .halted } }) ∧
    -- GANG_SAVE
    (tabFind s.gangs gid = some g → g.block = bid → g.task = b.task → tabFind s.blocks bid = some b → g.status = .resident →
      g.guests = [] → b.status = .halted → b.saveFailed = false →
      ((∀ p ∈ s.ops, p.2.gang = gid → p.2.cls ≠ .ld ∧ p.2.cls ≠ .st ∧ p.2.kind.isEngine = false) →
        s.saveWaits gid g = false ∧ s.abandonable gid = []) ∧
      (s.saveWaits gid g = false →
      let L := g.lanes
      let H := s.gangHeader gid g
      let ranges : List (Nat × List Byte) := 
        List.map (fun (r : Nat × List Byte) => (0x320000 + g.place * 8192 + r.1, r.2)) (H ++ [(0x1C60, s.deviceBytes 0 928)]) ++ g.unitBytes
      ((0x0000, leBytes 8 task.addr) ∈ H ∧ (0x0008, leBytes 4 ((s.block g.block).idx * task.tcb.blkdim + g.num)) ∈ H ∧
        (∃ st : Nat, (0x000C, leBytes 4 st) ∈ H ∧ (nbit st 0 = true ↔ g.holds ≠ []) ∧
          (nbit st 1 = true ↔ ∃ h ∈ g.holds, h.marked ≠ none) ∧ (nbit st 2 = true ↔ s.holdsTempo g = true) ∧
          (nbit st 3 = true ↔ ∃ c ∈ g.cohorts, c.gathered = true)) ∧
        (0x0010, leBytes 4 (g.allot + 2 ^ 16 * g.xb)) ∈ H ∧ (0x0014, leBytes 4 (g.units.headD 0)) ∈ H ∧
        (∀ off n f, (off, n, f) ∈ ([
            (0x0440, 1, fun l => (tabGet L.preds 0 l).toNat), (0x0460, 4, fun l => (tabGet L.lstat 0 l).toNat),
            (0x04E0, 8, fun l => (tabGet L.cursor 0 l).toNat),
            (0x05E0, 16, fun l => (tabGet L.g0 0 l).toNat + 2 ^ 64 * (tabGet L.g1 0 l).toNat)] :
            List (Nat × Nat × (Nat → Nat))) →
          ∃ bs, (off, bs) ∈ H ∧ bs.length = 32 * n ∧ ∀ l < 32, leNat ((bs.drop (l * n)).take n) = f l) ∧
        (∀ i u, g.units[i]? = some u → ∃ bs, (u * 1024, bs) ∈ g.unitBytes ∧ bs.length = 1024 ∧ ∀ r < 8, ∀ l < 32,
          leNat ((bs.drop ((r * 32 + l) * 4)).take 4) = (tabGet L.regs 0 (l * 512 + (8 * i + r))).toNat)) ∧
      (∀ s', s.savesHeld task b.core ranges = false →
        State.imageWrites task b.core ranges { s with free := s.free + 928 } = some s' →
        exec (.gangSave gid) s = .next { s' with
          gangs := tabPut s'.gangs gid { g with status := .saved }
          ops := s'.ops.map fun p => (p.1, if p.1 ∈ s.abandonable gid then { p.2 with abandoned := true } else p.2) }) ∧
      (s.savesHeld task b.core ranges = false → State.imageWrites task b.core ranges { s with free := s.free + 928 } = none →
        ∃ t rec, exec (.gangSave gid) s = .next t ∧ (t.block bid).saveFailed = true ∧ t.gangs = s.gangs ∧
          tabFind t.faults s.nextId = some rec ∧ rec.code = 9 ∧ rec.info = 9 ∧ rec.resumable = false ∧ rec.serve = true ∧
          rec.task = b.task))) ∧
    -- BLOCK_SAVE_COMPLETE
    (let ranges := s.blockStorage bid b ++ s.blockPrivate bid b ++ s.fullBytes b
     tabFind s.blocks bid = some b → b.status = .halted → b.saveFailed = false → b.pendingFor = none →
     (∀ x ∈ b.gangs, (s.gang x).status ≠ .resident) → s.savesHeld task b.core ranges = false →
     ((0x080000 + b.scratchPos, (List.range task.tcb.scratch).map fun i => tabGet b.scratch 0 i) ∈ ranges ∧
      (∀ m < 32, (0x100000 + m * 32768 + b.privPos, (List.range (task.tcb.blkdim * task.tcb.priv)).map fun i =>
        tabGet b.priv 0 (m * 32768 + i)) ∈ ranges) ∧
      (∀ h a, (h, a) ∈ (s.core b.core).accs → a.owner = some bid → ∃ bs, (0x200000 + h * 32768, bs) ∈ ranges ∧
        ∀ i < 8192, leNat ((bs.drop (4 * i)).take 4) = (tabGet a.elems 0 i).toNat)) ∧
     ∀ s', State.imageWrites task b.core ranges { s with free := s.free + 9 * 81920 } = some s' →
       ∃ t, exec (.blockSaveComplete bid) s = .next t ∧
         (t.block bid).status = .saved ∧ (t.block bid).scratchPos = b.scratchPos ∧ (t.block bid).privPos = b.privPos ∧
         (∀ h, (∃ a, tabFind (s.core b.core).accs h = some a ∧ a.owner = some bid) → ((t.core b.core).acc h).owner = none) ∧
         (∀ h, (∃ a, tabFind (s.core b.core).bs h = some a ∧ a.owner = some bid) → ((t.core b.core).b h).owner = none) ∧
         (task.status ≠ .faulted → task.status ≠ .ending → (t.task b.task).status = .preempted ∧
           (t.die task.home).ready = if (s.die task.home).fenced = true then (s.die task.home).ready
             else (task.tcb.prio, task.tcb.rook, b.task) :: (s.die task.home).ready.filter fun r => r.2.2 != b.task) ∧ t.gangs = s.gangs) ∧
    -- BLOCK_RESTORE
    (tabFind s.blocks bid = some b → b.status = .saved → s.isUp task.home = true → s.isServed b.task = true →
      (∀ x ∈ s.blocks, x.2.task = b.task → x.2.status = .saved → b.idx ≤ x.2.idx) → s.positionsFree b = true →
      s.rangesHeld task b.core (s.restoreRanges b) = false → s.heldCell task.cell = false →
      (∀ x ∈ b.gangs, ∀ h ∈ (s.gang x).holds, h.marked = none) → (∀ d ∈ s.dies, ∀ q ∈ d.2.park, q.origin ∉ b.gangs) →
      (∀ x ∈ b.gangs, ∃ G, tabFind s.gangs x = some G) →
      (∀ x ∈ b.gangs, (s.gang x).units.length ≤ 64 ∧ ∀ u ∈ (s.gang x).units, ∃ bs, image (u * 1024) 1024 = some bs) →
      ∀ x, s.loadBlock b = some x → ∃ t, exec (.blockRestore bid) s = .next t ∧
        tabFind t.blocks bid = some { x with status := .resident, savedAccs := [], savedBs := [] } ∧
        x = { b with scratch := x.scratch, priv := x.priv, full := x.full, savedAccs := x.savedAccs } ∧
        (∀ bs, image (0x080000 + b.scratchPos) task.tcb.scratch = some bs → ∀ i < task.tcb.scratch,
          tabGet x.scratch 0 i = bs.getD i 0) ∧
        (∀ G ∈ b.gangs, (s.gang G).status = .saved → (t.gang G).status = .resident ∧
          (t.gang G).units = (s.gang G).units ∧ (t.gang G).holds = (s.gang G).holds ∧
          (t.gang G).lanes = { (s.gang G).lanes with regs := (t.gang G).lanes.regs } ∧
          ∀ i u bs, (s.gang G).units[i]? = some u → image (u * 1024) 1024 = some bs → ∀ r < 8, ∀ l < 32,
            tabGet (t.gang G).lanes.regs 0 (l * 512 + (8 * i + r)) =
              BitVec.ofNat 32 (leNat ((bs.drop ((r * 32 + l) * 4)).take 4))) ∧
        ∀ G, G ∉ b.gangs → tabFind t.gangs G = tabFind s.gangs G)

/-! ## Events of the engines -/

/-- R263, R266 to R270, R274 to R278, R284 to R286, R288 to R291: a load begins when the tile is free and makes the image
the tile, or leaves it invalid with a reason; a pass reads its A rows as it begins and adds their products block by block,
in ascending K, with one draw for each element under stochastic rounding; TZERO, TCFG, TREAD, TSTORE and TFREE act in
acceptance order, and a TSTORE's granules are stored in ascending order. What a scale of 0xFF makes of a block is the model's
choice (assumption log 52). -/
def Obligations.MatrixEvents : Prop :=
  ∀ (s : State) (id : Nat) (o : Op) (core m : Nat),
    let leads (i : Instr) (t : State) : Prop := exec i s = .next t
    let ready : Prop := tabFind s.ops id = some o ∧ s.tileReady id o = true
    let k := s.core o.core
    let without := tabDel s.ops id
    let withAcc (h : Nat) (a : AccHandle) : State :=
      { s with cores := tabPut s.cores o.core { k with accs := tabPut k.accs h a }, ops := without }
    let withB (h : Nat) (b : BHandle) : State :=
      { s with cores := tabPut s.cores o.core { k with bs := tabPut k.bs h b }, ops := without }
    let draw (g : DWord × DWord) (n : Nat) : Mode :=
      let g := genSteps n g
      .sr ((genOut g).extractLsb' 48 16).toNat
    -- acceptance order: no earlier operation of the block names a row or a tile in common
    (s.tileReady id o = true ↔ (s.block o.block).status = .resident ∧
      ∀ p ∈ s.ops, p.1 < id → p.2.cls = .tl → p.2.block = o.block → p.2.precedes o = false) ∧
    -- TLOADB
    (∀ f orientT sparse h segs, tabFind s.ops id = some o → o.kind = .tloadb f orientT sparse h segs →
      s.segsWait id segs = false →
      (o.began = false → s.tileReady id o = true → s.storesDone id o = true →
        Becomes (.tloadbBegin id) s { s with
          cores := tabPut s.cores o.core { k with bs := tabPut k.bs h { k.b h with valid := false, reason := 0 } }
          ops := tabPut s.ops id { o with began := true } }) ∧
      (o.began = true → (k.b h).owner ≠ none ∨ (k.b h).freeing = true →
        let img := s.loadImage o segs
        let bad := s.loadPoisoned o segs
        -- a granule that was read before the rest is as it was then
        (img.length = (s.segBytes (.core o.core) segs).length ∧ ∀ i < img.length,
          img.getD i 0 = match o.accs.find? fun a => a.lane == 32 && a.addr == i / 32 with
            | some a => BitVec.ofNat 8 (a.got / 256 ^ (i % 32))
            | none => (s.segBytes (.core o.core) segs).getD i 0) ∧
        (bad = true →
          Becomes (.tloadbFinish id) s (withB h { k.b h with valid := false, reason := 2 })) ∧
        (bad = false → sparse = true → metaOk f img = false →
          Becomes (.tloadbFinish id) s (withB h { k.b h with valid := false, reason := 1 })) ∧
        (bad = false → (sparse = true → metaOk f img = true) → ∃ elems scales,
          Becomes (.tloadbFinish id) s (withB h { k.b h with
            valid := true, reason := 0, fmt := f, sparse := sparse, orientT := orientT, elems := elems, scales := scales }) ∧
          (f.scaled = true → ∀ n < 256, ∀ j < (if sparse then 16 else 8),
            tabGet scales 0 (n * 16 + j) = (img.getD (f.data + n * (if sparse then 16 else 8) + j) 0).toNat) ∧
          (f.scaled = false → scales = []) ∧
          (sparse = false → ∀ kk < 256, ∀ n < 256,
            let e := if orientT then 256 * n + kk else 256 * kk + n
            let byte (i : Nat) : Nat := (img.getD i 0).toNat
            tabFind elems (kk * 256 + n) = some (match f with
              | .e2m1 | .i4 => byte (e / 2) / 16 ^ (e % 2) % 16
              | .e4m3 | .e5m2 | .i8 => byte e
              | .bf16 => byte (2 * e) + 256 * byte (2 * e + 1)
              | .e3m2 | .e2m3 => byte (e / 2) / 16 ^ (e % 2) % 16 * 4 + byte (32768 + e / 4) / 4 ^ (e % 4) % 4))))) ∧
    -- a pass begins
    (∀ first rest, tabFind (s.core core).passes m = none → s.passOps core m = first :: rest →
      (∀ q ∈ first :: rest, s.storesDone q.1 q.2 = true) →
      let b := (s.core core).b m
      let ids := (first :: rest).map (·.1)
      ∃ rows, Becomes (.matrixPassBegin core m) s { s with
          cores := tabPut s.cores core { s.core core with
            passes := tabPut (s.core core).passes m { ops := ids, rows := rows, void := !b.valid } }
          ops := s.ops.map fun q => if ids.contains q.1 then (q.1, { q.2 with began := true }) else q } ∧
        (b.valid = false → rows = []) ∧
        (b.valid = true → ∀ q ∈ first :: rest, ∀ tri af bh acc quarter rs d c, q.2.kind = .tmma tri af bh acc quarter rs d c →
          ∀ r ∈ rs, ∃ codes scales, (q.1 * 32 + r.1, codes, scales) ∈ rows ∧
            codes.length = (if b.sparse then 512 else 256) ∧ scales.length = (if b.sparse then 16 else 8) ∧
            let at_ (i : Nat) : Nat := (tabGet (s.block q.2.block).scratch 0 (r.2.1 + i)).toNat
            (∀ i < codes.length, codes.getD i 0 = match af with
              | .e2m1 | .i4 => at_ (i / 2) / 16 ^ (i % 2) % 16
              | .e4m3 | .e5m2 | .i8 => at_ i
              | .bf16 => at_ (2 * i) + 256 * at_ (2 * i + 1)
              | .e3m2 | .e2m3 => at_ (i / 2) / 16 ^ (i % 2) % 16 * 4 + at_ (codes.length / 2 + i / 4) / 4 ^ (i % 4) % 4) ∧
            ∀ j < scales.length, scales.getD j 0 =
              if af.scaled then (tabGet (s.block q.2.block).scratch 0 (r.2.2 + j)).toNat else 127)) ∧
    -- a pass is written
    (∀ p, tabFind (s.core core).passes m = some p →
      let kc := s.core core
      let b := kc.b m
      let target (r : Nat × List Nat × List Nat) : Option (Nat × Nat) := (tabFind s.ops (r.1 / 32)).bind fun x =>
        match x.kind with
        | .tmma _ _ _ acc _ _ _ _ => some (acc, r.1 % 32)
        | _ => none
      ∃ k', Becomes (.matrixPassComplete core m) s { s with
          cores := tabPut s.cores core k', ops := s.ops.filter fun q => !p.ops.contains q.1 } ∧
        k' = { kc with accs := k'.accs, passes := tabDel kc.passes m } ∧
        (p.void = true → k'.accs = kc.accs) ∧
        (∀ h i n, (∀ r ∈ p.rows, target r ≠ some (h, i)) → i < 32 → n < 256 →
          tabGet (k'.acc h).elems 0 (i * 256 + n) = tabGet (kc.acc h).elems 0 (i * 256 + n)) ∧
        (p.void = false → p.rows.Pairwise (fun r r' => target r ≠ target r') → ∀ r ∈ p.rows,
          ∀ x tri af bh acc quarter rs d c, tabFind s.ops (r.1 / 32) = some x → x.kind = .tmma tri af bh acc quarter rs d c →
          let i := r.1 % 32
          let a := kc.acc acc
          let old (n : Nat) : Nat := (tabGet a.elems 0 (i * 256 + n)).toNat
          let new (n : Nat) : Word := tabGet (k'.acc acc).elems 0 (i * 256 + n)
          let above (n : Nat) : Bool := tri && decide ((i : Int) + d < n)
          let below (n : Nat) : Nat := ((List.range n).filter fun y => !above y).length
          let per := if af = .bf16 then 8 else 32
          let steps := r.2.1.length / per
          let g := (tabGet a.g0 0 i, tabGet a.g1 0 i)
          let mode (n j : Nat) : Mode := if a.sr then draw g (j * below 256 + below n) else .to .rne
          (∀ n < 256, above n = true → new n =
            if (fp32.value c.toNat).isNan then BitVec.ofNat 32 fp32.nanBits else c) ∧
          (∀ n < 256, above n = false → ∃ v : Nat → Nat, v 0 = old n ∧ new n = BitVec.ofNat 32 (v steps) ∧
            ∀ j < steps, if af = .bf16 then
                v (j + 1) = (windowSum (mode n j) (v j) (passTerms af b r.2.1 n (8 * j) 8)).1
              else ∃ fl, BlockIn af.integer (mode n j) (fp32.value (v j)) (r.2.2.getD j 127)
                (if af.scaled then tabGet b.scales 127 (n * 16 + j) else 127) (passTerms af b r.2.1 n (32 * j) 32)
                (v (j + 1), fl)) ∧
          (tabGet (k'.acc acc).g0 0 i, tabGet (k'.acc acc).g1 0 i) =
            if a.sr then genSteps (steps * below 256) g else g)) ∧
    -- TZERO, TCFG, TREAD, TFREE
    (∀ h, ready → o.kind = .tzero h → ∃ elems, Becomes (.tzeroEffect id) s (withAcc h { k.acc h with elems := elems }) ∧
      ∀ i n, n < 256 → tabGet elems 0 (i * 256 + n) =
        if hasLane o.active i then 0 else tabGet (k.acc h).elems 0 (i * 256 + n)) ∧
    (∀ h sr, ready → o.kind = .tcfg h sr none → Becomes (.tcfgEffect id) s (withAcc h { k.acc h with sr := sr })) ∧
    (∀ h sr seed, ready → o.kind = .tcfg h sr (some seed) → ∃ g0 g1,
      Becomes (.tcfgEffect id) s (withAcc h { k.acc h with sr := sr, g0 := g0, g1 := g1 }) ∧
      ∀ i < 32, (tabGet g0 0 i, tabGet g1 0 i) = genSeed (BitVec.ofNat 64 seed)
        (BitVec.ofNat 64 (((s.block o.block).idx * 32 + h) * 32 + i) ^^^ 0x8000000000000000)) ∧
    (∀ h n cols g, ready → o.kind = .tread h n cols → tabFind s.gangs o.gang = some g → (cols.map (·.1)).Nodup →
      ∃ q0, Becomes (.treadDelivery id) s { s with
          gangs := tabPut s.gangs o.gang { g with q0 := q0 }, ops := without } ∧
        (∀ l col, (l, col) ∈ cols → tabGet q0 [] l = tabGet g.q0 [] l ++
          (List.range n).map fun i => tabGet (k.acc h).elems 0 (l * 256 + col + i)) ∧
        ∀ l, l ∉ cols.map (·.1) → tabGet q0 [] l = tabGet g.q0 [] l) ∧
    (∀ h, ready → o.kind = .tfree false h → Becomes (.handleFreed id) s (withAcc h { k.acc h with freeing := false })) ∧
    (∀ h, ready → o.kind = .tfree true h →
      Becomes (.handleFreed id) s (withB h { k.b h with freeing := false, valid := false, reason := 0 })) ∧
    -- TSTORE
    (∀ tf sr h rows, ready → o.kind = .tstore tf sr h rows → o.accs = [] →
      (∀ u ∈ storeUnits tf rows, s.segsWait id (unitSegs rows u) = false) → (rows.map (·.1)).Nodup →
      let f := StoreFmt.fmt tf
      let a := k.acc h
      let g (x : AccHandle) (i : Nat) : DWord × DWord := (tabGet x.g0 0 i, tabGet x.g1 0 i)
      ∃ (codes : Nat → List Nat) (after : Nat → AccHandle → AccHandle),
        (∀ i, (codes i).length = 256 ∧ ∀ n < 256, ∃ fl, FloatRule f (if sr then draw (g a i) n else .to .rne)
          (fp32.value (tabGet a.elems 0 (i * 256 + n)).toNat) ((codes i).getD n 0, fl)) ∧
        (∀ i x, after i x = { x with g0 := (after i x).g0, g1 := (after i x).g1 } ∧
          ∀ j, g (after i x) j = if sr = true ∧ j = i then genSteps 256 (g x i) else g x j) ∧
        let bytes (i : Nat) : List Byte :=
          leBytes (32 * f.width) ((codes i).foldr (fun c x => c % 2 ^ f.width + 2 ^ f.width * x) 0)
        -- a granule: its address, its lane, its number in the row
        let put (u : State) (x : Nat × Nat × Nat) : State :=
          u.segStore o.core o.scope true { op := id, gang := o.gang, lane := 32, copy := false, own := false } (unitSegs rows x)
            (((bytes x.2.1).drop (32 * x.2.2)).take 32)
        let at_ (r : Nat × List Seg) (n : Nat) : Nat := (r.2.head?.map (·.va)).getD 0 + 32 * n
        let drawn (c : Core) (r : Nat × List Seg) : Core := { c with accs := tabPut c.accs h (after r.1 (c.acc h)) }
        let u := (storeUnits tf rows).foldl put s
        (storeUnits tf rows).Pairwise (fun x y => x.1 ≤ y.1) ∧
        (∀ x, x ∈ storeUnits tf rows ↔ ∃ r ∈ rows, ∃ n < f.width, x = (at_ r n, r.1, n) ∧
          ∀ r' ∈ rows, ∀ n' < f.width, at_ r' n' = at_ r n → r'.1 ≤ r.1) ∧
        leads (.tstorePerform id) { u with
          cores := tabPut u.cores o.core (rows.foldl drawn (u.core o.core)), ops := tabDel u.ops id })

/-- R217, R293 to R299, R303, R305, R306, R308 to R310: a record enters its slot, copies go element by element and mark
their batch when one fails, batches finish in number order, an indexed reduce pools its rows in lane order and raises COUNT
last, a pin takes its slot, a query answers from the row of its pin. The model's choices in it: what the spec leaves open of a
command's order and of a copy's parts (assumption logs 30 and 31), the address of a fault (log 47), and what a query reads where
its entry is poisoned (log 66). -/
def Obligations.CopyAndStackEvents : Prop :=
  ∀ (s : State) (id : Nat) (o : Op) (g : Gang),
    let without := tabDel s.ops id
    let leads (i : Instr) (t : State) : Prop := exec i s = .next t
    let turn : Prop := ∀ p ∈ s.ops, p.1 < id → p.2.gang = o.gang → p.2.kind.usesRecords = false
    let maker (lane : Nat) : Maker :=
      { op := id, gang := o.gang, lane := lane, copy := o.scope == .g || o.scope == .k, own := false }
    tabFind s.ops id = some o → o.abandoned = false → tabFind s.gangs o.gang = some g →
    -- LREC
    (∀ k segs, o.kind = .lrec k segs → turn → s.storesDone id o = true → s.segsWait id segs = false →
      let slot : Option (BitVec 512) :=
        if s.segsPoisoned o.core segs then none else some (BitVec.ofNat 512 (leNat (s.segBytes (.core o.core) segs)))
      Becomes (.lrecRead id) s { s with
        gangs := tabPut s.gangs o.gang { g with records := tabPut g.records k slot }
        ops := without }) ∧
    -- CPY
    (∀ n elems, o.kind = .cpy n elems → s.storesDone id o = true → o.accs = [] →
      (∀ e ∈ elems, s.refWaits id o n e.2.1 = false ∧ s.refWaits id o n e.2.2 = false) →
      let one (u : State) (e : Nat × Ref × Ref) : State :=
        let r := u.copyElem o (maker e.1) false (u.gang o.gang).task n e.2.1 e.2.2
        if r.2 then r.1.failBatch o e.1 else r.1
      leads (.cpyCompletion id) { elems.foldl one s with ops := tabDel (elems.foldl one s).ops id }) ∧
    (∀ (u : State) (m : Maker) (granules : Bool) (tk n : Nat) (src dst : List Seg) (a : Nat) (bs : List Byte),
      let copy (x y : Ref) : State × Bool := u.copyElem o m granules tk n x y
      let bytes := u.segBytes (.core o.core) src
      (u.segsPoisoned o.core src = false →
        copy (.flat src) (.flat dst) = (u.segStore o.core o.scope granules m dst bytes, false)) ∧
      (u.segsPoisoned o.core src = true → (∀ x ∈ dst, u.inStep x.cell = false) →
        copy (.flat src) (.flat dst) = (dst.foldl (fun u x => u.poisonFrom o.core x.cell x.n) u, true)) ∧
      (u.mapRead o.core tk a n = some bs →
        copy (.map a) (.flat dst) = (u.segStore o.core o.scope granules m dst bs, false)) ∧
      (u.mapRead o.core tk a n = none → copy (.map a) (.flat dst) = (u, true)) ∧
      (u.segsPoisoned o.core src = true → copy (.flat src) (.map a) = (u, true)) ∧
      (∀ v, u.segsPoisoned o.core src = false → u.mapWrite o.core o.scope.wide tk a bytes = some v →
        copy (.flat src) (.map a) = (v, false)) ∧
      (u.segsPoisoned o.core src = false → u.mapWrite o.core o.scope.wide tk a bytes = none →
        copy (.flat src) (.map a) = (u, true)) ∧
      -- the on-chip map: scratchpad, lane-private space, a window of a resident gang (R215 to R217); a copy of core scope is
      -- seen by the engines of its own core (R232)
      (let die := dieOf o.core
       let on := die * 64 + a / 2 ^ 52 % 64
       let off := a % 2 ^ 20
       let t := (u.task tk).tcb
       let at_ (i : Nat) : Byte := bs.getD (i - off) 0
       let wide := o.scope.wide
       (∀ bid b, u.mapBlock tk on (a / 2 ^ 20 % 2 ^ 32) = some (bid, b) → b.status = .resident →
         let seen (i : Nat) : Byte := (tabFind b.unseen i).getD (tabGet b.scratch 0 i)
         (a / 2 ^ 58 % 8 = 0 → off + n ≤ t.scratch →
           u.mapRead o.core tk a n = some ((List.range n).map fun i =>
             if on = o.core then tabGet b.scratch 0 (off + i) else seen (off + i))) ∧
         (a / 2 ^ 58 % 8 = 0 → off + bs.length ≤ t.scratch → bs ≠ [] → ∃ b' : Block,
           u.mapWrite o.core wide tk a bs = some { u with blocks := tabPut u.blocks bid b' } ∧
           b' = { b with scratch := b'.scratch, unseen := b'.unseen, full := b'.full } ∧
           (∀ i, tabGet b'.scratch 0 i = if off ≤ i ∧ i < off + bs.length then at_ i else tabGet b.scratch 0 i) ∧
           (∀ i, tabFind b'.unseen i = if off ≤ i ∧ i < off + bs.length then
             (if wide = false ∧ on = o.core then some (seen i) else none) else tabFind b.unseen i) ∧
           ∀ q, q ∈ b'.full ↔ q ∈ b.full ∨ (off / 16 ≤ q ∧ q ≤ (off + bs.length - 1) / 16)) ∧
         (a / 2 ^ 58 % 8 = 0 → t.scratch < off + bs.length → bs ≠ [] → u.mapWrite o.core wide tk a bs = none) ∧
         (a / 2 ^ 58 % 8 = 2 → (∀ i < n, off + i < 2 ^ 20 ∧ (off + i) % 32768 < t.blkdim * t.priv) →
           u.mapRead o.core tk a n = some ((List.range n).map fun i => tabGet b.priv 0 (off + i)))) ∧
       (∀ gid x w, u.mapGang tk on (a / 2 ^ 20 % 2 ^ 32) = some (gid, x) → x.window = some w →
         x.status = .resident → a / 2 ^ 58 % 8 = 1 → off + n ≤ 128 * w.n →
         u.mapRead o.core tk a n = some ((List.range n).map fun i =>
           let y := off + i
           BitVec.ofNat 8 ((tabGet x.lanes.regs 0 (y / 4 % 32 * 512 + (w.base + y / 128))).toNat / 256 ^ (y % 4)))))) ∧
    (∀ l, let marked := g.batches.map fun b =>
        if b.lane = l ∧ tabFind o.batch l = some b.num then { b with fail := true } else b
      s.failBatch o l = { s with gangs := tabPut s.gangs o.gang { g with batches := marked } }) ∧
    -- CPYT
    (∀ (ind : Bool) (ks kf kd : Nat) (od of_ os : Int) (tempo : Bool) (d f k : Nat),
      o.kind = .cpyt ind ks kf kd od of_ os tempo → turn → s.storesDone id o = true →
      g.slot kd = some d → g.slot kf = some f → (if ind then g.slot ks else some 0) = some k →
      let valid : Prop := recOk d = true ∧ recOk f = true ∧ (ind = true → recOk k = true) ∧
        recEsz d = recEsz (if ind then k else f) ∧ (if ind then recKind f = 1 else recCount d ≤ recCount f)
      let lane := (lowestLane o.active).getD 0
      let src (i : Nat) : Option (Option Nat) :=
        if ind then s.gatherSource o g.task f k i of_ os else some (some (recAddr f i of_))
      let end_ (w : Bool) (a : Nat) : Option Ref := s.elemEnd o g.task w (w && tempo) a (recSize d)
      let x : Transfer := { task := g.task, size := recSize d, count := recCount d, tempo := tempo, ind := ind, d := d, f := f,
                            k := k, od := od, of_ := of_, os := os }
      let at_ (i : Nat) : Nat := recAddr d i od
      let copies (v w : State) : Prop := leads (.cpytExecution id) { v with ops := tabDel w.ops id }
      (¬valid → copies (s.failBatch o lane) s) ∧
      (valid → s.transfer o = some x ∧ (o.accs = [] →
        -- the elements are read, and their granules land in ascending order; one that fails marks the batch
        ((∀ i < recCount d, s.elemWaits id o x i = false) →
          let es := s.elemsOf o x (List.range (recCount d))
          let t := (granulesAt x es).foldl (fun u c => u.landGranule id o x es c) s
          copies (if es.any (fun e => e.2.fails) then t.failBatch o lane else t) t) ∧
        ∀ i,
          -- an index out of range fails its element, an address that does not translate ends the transfer
          (end_ true (at_ i) = none ∨ src i = none ∨ (∃ a, src i = some (some a) ∧ end_ false a = none) →
            s.elemOf o x i = .stop) ∧
          (∀ y, end_ true (at_ i) = some y → src i = some none → s.elemOf o x i = .skip) ∧
          ∀ y a z, end_ true (at_ i) = some y → src i = some (some a) → end_ false a = some z →
            (∀ b, z = .map b → s.mapRead o.core g.task b (recSize d) = none → s.elemOf o x i = .skip) ∧
            ∀ bs, (∀ segs, z = .flat segs → bs = s.segBytes (.core o.core) segs) →
              (∀ b, z = .map b → s.mapRead o.core g.task b (recSize d) = some bs) →
              (∀ segs ys, z = .flat segs → s.segsPoisoned o.core segs = true → y = .flat ys → s.elemOf o x i = .spoil y) ∧
              (∀ segs b, z = .flat segs → s.segsPoisoned o.core segs = true → y = .map b → s.elemOf o x i = .skip) ∧
              ((∀ segs, z = .flat segs → s.segsPoisoned o.core segs = false) →
                s.elemOf o x i = if s.mapTakes o (recSize d) y then .copy y bs else .skip))) ∧
      (∀ i is, s.elemsOf o x (i :: is) = if s.elemOf o x i = .stop then [(i, .stop)] else
        (i, s.elemOf o x i) :: s.elemsOf o x is) ∧
      ∀ es : List (Nat × Elem), (granulesAt x es).Pairwise (fun c c' => c ≤ c') ∧
        (∀ c, c ∈ granulesAt x es ↔ ∃ e ∈ es, e.2 ≠ .stop ∧ e.2 ≠ .skip ∧ at_ e.1 / 32 ≤ c ∧
          c ≤ (at_ e.1 + recSize d - 1) / 32) ∧
        ∀ (u : State) (c : Nat), u.landGranule id o x es c =
          (es.filter fun e => decide (at_ e.1 / 32 ≤ c ∧ c ≤ (at_ e.1 + recSize d - 1) / 32)).foldl (fun u e =>
            let j := max (at_ e.1) (32 * c) - at_ e.1
            let n := min (recSize d) (32 * c + 32 - at_ e.1) - j
            match e.2 with
            | .copy (.flat segs) bs => u.segStore o.core o.scope true (maker 32) (segPart j n segs) ((bs.drop j).take n)
            | .copy (.map b) bs => (u.mapWrite o.core o.scope.wide g.task (b + j) ((bs.drop j).take n)).getD u
            | .spoil (.flat segs) => u.spoil o (segPart j n segs)
            | _ => u) u) ∧
    (∀ (r i : Nat) (off : Int), r < 2 ^ 512 →
      let f (hi lo : Nat) : BitVec (hi + 1 - lo) := (BitVec.ofNat 512 r).extractLsb' lo (hi + 1 - lo)
      let e0 := (f 447 416).toNat
      let e1 := (f 415 384).toNat
      let e2 := (f 383 352).toNat
      recAddr r i off = (((f 511 448).toNat : Int) + (i % e0 : Nat) * (f 319 288).toInt +
        (i / e0 % e1 : Nat) * (f 287 256).toInt + (i / (e0 * e1) % e2 : Nat) * (f 255 224).toInt +
        (i / (e0 * e1 * e2) : Nat) * (f 223 192).toInt + off) % 2 ^ 64 ∧
      recCount r = e0 * e1 * e2 * (f 351 320).toNat ∧ recSize r = 2 ^ (f 191 189).toNat ∧
      (recOk r = true ↔ (f 191 189).toNat ≤ 4 ∧ (f 188 187).toNat ≤ 1 ∧
        ((f 188 187).toNat = 0 ∨ (f 191 189).toNat = 2 ∨ (f 191 189).toNat = 3))) ∧
    -- batches
    (∀ (l : Nat) (b : Batch), g.batches.find? (fun b => b.lane == l && b.num == tabGet g.finished 0 l + 1) = some b →
      (∀ p ∈ s.ops, p.2.gang = o.gang → tabFind p.2.batch l ≠ some (tabGet g.finished 0 l + 1)) → ∃ g',
      Becomes (.batchFinish o.gang l) s ({ s with gangs := tabPut s.gangs o.gang g' }.dropNear g.core o.gang) ∧
      g' = { g with finished := g'.finished, batches := g'.batches, q2 := g'.q2 } ∧
      (∀ x, tabGet g'.finished 0 x = tabGet g.finished 0 x + if x = l then 1 else 0) ∧
      (∀ x, tabGet g'.q2 [] x = tabGet g.q2 [] x ++ if x = l ∧ b.post = true then
        [BitVec.ofNat 32 (b.num % 2 ^ 31 + if b.fail then 2 ^ 31 else 0)] else []) ∧
      g'.batches = g.batches.filter fun x => !(x.lane == l && x.num == tabGet g.finished 0 l + 1)) ∧
    -- IRED
    (∀ kt ko acc ents rec tempo, o.kind = .ired kt ko acc ents rec tempo →
      (∀ p ∈ s.ops, p.1 < id → p.2.gang = o.gang → p.2.kind.usesRecords = false ∧ ∀ n es, p.2.kind ≠ .cpy n es) →
      s.storesDone id o = true → s.segsWait id [rec] = false → o.accs = [] →
      (∀ p ∈ s.ops, p.1 ≠ id → ∀ a ∈ p.2.accs, a.lane ≠ 33) →
      -- first a release of die scope for what the gang has stored
      let r := s.toDie fun p => p.reach == .core o.core && !p.copy
      let reduced (v : State) (fails : Nat) : Prop := leads (.iredCommand id) { v.iredDone rec fails with ops := without }
      ((g.slot kt = none ∨ g.slot ko = none) → reduced r 1) ∧
      (∀ t u, g.slot kt = some t → g.slot ko = some u →
        (iredValid t u ents = false → reduced r 1) ∧
        (iredValid t u ents = true → s.iredReady id o = true →
          (∃ e ∈ ents, r.iredRow o false true t e.2.1 = none ∨ r.iredRow o true tempo u e.2.2 = none) → reduced r 1) ∧
        (∀ (row out : Nat → List Seg), iredValid t u ents = true →
          (∀ e ∈ ents, s.iredRow o false true t e.2.1 = some (row e.2.1) ∧ s.iredRow o true tempo u e.2.2 = some (out e.2.2)) →
          -- a row that a channel holds, or a lane store has half written, is waited for
          let waits (segs : List Seg) : Prop := s.segsWait id segs = true ∨ s.segsHalf segs = true
          ((∃ e ∈ ents, waits (row e.2.1) ∨ waits (out e.2.2)) → leads (.iredCommand id) s) ∧
          ((∀ e ∈ ents, ¬waits (row e.2.1) ∧ ¬waits (out e.2.2)) →
            (∀ e ∈ ents, r.iredRow o false true t e.2.1 = some (row e.2.1) ∧ r.iredRow o true tempo u e.2.2 = some (out e.2.2)) →
            let x : Reduce := { bf16 := recEsz t == 1, acc := acc, n := recExt t 0,
                                rows := ents.map fun e => (e.2.2, row e.2.1)
                                outs := (inOrder (ents.map (·.2.2))).map fun b => (b, out b) }
            -- the home slices recall the rows first
            let r' := (x.rows ++ x.outs).foldl (fun v p => p.2.foldl (fun v c => v.recall c.cell c.n) v) r
            reduced (x.outs.foldl (fun v p => v.iredBag o x p) r')
              (if ents.any fun e => r'.tableSpoilt o (row e.2.1) then 1 else 0)))) ∧
      (∀ (u : State), u.mem.wf = true → u.cellFenced rec.cell = false → u.cellFenced (rec.cell + 8) = false → u.inStep rec.cell = false →
        u.inStep (rec.cell + 8) = false → ∀ fails, fails ≤ 1 →
        (u.iredDone rec fails).homeNat rec.cell 8 = ((u.recall rec.cell 16).homeNat rec.cell 8 + 1) % 2 ^ 64 ∧
        (u.iredDone rec fails).homeNat (rec.cell + 8) 8 = ((u.recall rec.cell 16).homeNat (rec.cell + 8) 8 + fails) % 2 ^ 64) ∧
      ∀ (bf16 : Bool) (n : Nat) (start : List Byte) (rows : List (List Byte)), start.length = 4 * n →
        (iredPool bf16 n start rows).length = 4 * n ∧ ∀ e < n, ∃ v : Nat → Nat,
          v 0 = leNat ((start.drop (4 * e)).take 4) ∧
          leNat (((iredPool bf16 n start rows).drop (4 * e)).take 4) = v rows.length % 2 ^ 32 ∧
          ∀ j < rows.length, ∃ fl, SumRule fp32 (.to .rne) (fp32.value (v j))
            (let bs := rows.getD j []
             if bf16 then fbf16.value (leNat ((bs.drop (2 * e)).take 2)) else fp32.value (leNat ((bs.drop (4 * e)).take 4)))
            (v (j + 1), fl)) ∧
    -- books
    (∀ unpin e16 k a, o.kind = .bookPin unpin e16 → o.accs[k]? = some a → a.done = false →
      (∀ j < k, ∀ b : Acc, o.accs[j]? = some b → b.lane = a.lane → b.done = true) → (∀ x ∈ o.accs, x.poison = false) →
      s.asleep a.addr = false → s.bookTurn id o a.addr a.lane = true →
      let die := cellDie a.addr
      let ch := blChannel (cellAddr a.addr)
      let row := blRow (cellAddr a.addr)
      let key := blBank (cellAddr a.addr) * 4 + row / 2 ^ 14
      let c := tabGet (s.die die).channels Channel.reset ch
      let pins : Tab Pin := if unpin = false then tabPut c.pins key { row := row, e16 := e16 }
        else if (tabFind c.pins key).map (·.row) = some row then tabDel c.pins key else c.pins
      let d := s.die die
      Becomes (.bookPin id a.lane) s { s with
        dies := tabPut s.dies die { d with channels := tabPut d.channels ch { c with pins := pins } }
        ops := opsAfter s id k { a with done := true } }) ∧
    (∀ e16 r idx, o.kind = .bookq e16 r idx → idx ≠ [] → (idx.map (·.1)).Nodup → s.segsWait id [r] = false →
      (∀ p ∈ idx, s.bookTurn id o r.cell p.1 = true) → s.bookReady id o r idx = true →
      -- no query of the gang has been served and waits for an older one's replies
      (∀ p ∈ s.ops, p.2.gang = o.gang → (∃ e r' i, p.2.kind = .bookq e r' i) → p.2.accs = []) →
      let older : Prop := ∃ p ∈ s.ops, p.1 < id ∧ p.2.gang = o.gang ∧ ∃ e r' more, p.2.kind = .bookq e r' more ∧
        ∃ l, l ∈ more.map (·.1) ∧ l ∈ idx.map (·.1)
      let base := r.cell / 2 ^ 11 * 2 ^ 11
      let u := s.recall base 2048
      let pin := tabFind (tabGet (s.die (cellDie r.cell)).channels Channel.reset (blChannel (cellAddr r.cell))).pins
        (blBank (cellAddr r.cell) * 4 + blRow (cellAddr r.cell) / 2 ^ 14)
      let hit : Prop := ∃ p, pin = some p ∧ p.row = blRow (cellAddr r.cell) ∧ p.e16 = e16
      let w := if e16 then 2 else 1
      let bad (i : Nat) : Prop := u.poisonedAt (base + w * i) w = true
      ∃ (reply : Nat × Nat → Nat) (free : Nat),
        -- the spec states no entry where its granule is poisoned
        (∀ p ∈ idx, (hit → ¬bad p.2 → reply p = leNat (u.homeBytes (base + w * p.2) w)) ∧ (¬hit → reply p = 0x80000000) ∧
          (hit → bad p.2 → reply p < 256 ^ w)) ∧
        ((¬hit ∨ ∀ p ∈ idx, ¬bad p.2) → free = s.free) ∧
        (older → ∃ parts, leads (.bookQuery id) { u with
            free := free, ops := tabMod s.ops id fun x => { x with accs := parts } } ∧
          parts.map (fun a : Acc => (a.lane, a.got)) = idx.map fun p => (p.1, reply p)) ∧
        (¬older → ∃ q1, leads (.bookQuery id) { u with
            free := free, gangs := tabPut s.gangs o.gang { g with q1 := q1 }, ops := without } ∧
          (∀ l i, (l, i) ∈ idx → tabGet q1 [] l = tabGet g.q1 [] l ++ [BitVec.ofNat 32 (reply (l, i))]) ∧
          ∀ l, l ∉ idx.map (·.1) → tabGet q1 [] l = tabGet g.q1 [] l))

/-- R27, R314, R315, R324, R389, R476 to R481: promotion mode is entered with every store in its cells and every bank unit
reset, and left with their state kept; power-down is refused in promotion mode; an island steps by 25 MHz; a shutdown drops all
work; CYCLES advances by 1; a full start clears the first tier, fences what a start may fence and sets READY; a start that
fails counts in FAILS and leaves its cause; with FAILS 3 and no retry mark a start brings up die 0 alone. The spill rows' bytes
are free values (assumption log 1); what of a promoted channel arrives when, and in which order it goes on at exit (log 32), and
what a shutdown, a start that fails and minimal mode do to units and to held work (log 55), are the model's choices. -/
def Obligations.ChannelsPowerAndStart : Prop :=
  (∀ (s : State) (die ch : Nat),
     let d := s.die die
     let c := tabGet d.channels Channel.reset ch
     let inside (cell : Nat) : Bool := cellDie cell == die && cellPlace cell == 0 && blChannel (cellAddr cell) == ch
     let put (u : State) (c' : Channel) : State :=
       { u with dies := tabPut u.dies die { u.die die with channels := tabPut d.channels ch c' } }
     let freq (d : Die) (i : Nat) : Nat := tabGet d.freq 600 i
     -- every store on its way to the channel's cells reaches them, a die's before a core's, each in order, and no copy stays
     (let u := s.recallChannel die ch
      let order := s.pending.filter (fun p => inside p.cell && p.reach == .die) ++
         s.pending.filter fun p => inside p.cell && match p.reach with
           | .core _ => true
           | _ => false
      u = { s with pending := u.pending, mem := u.mem, bits := u.bits, cores := u.cores, dies := u.dies } ∧
        (∀ k, u.core k = { s.core k with l1 := (u.core k).l1, near := (u.core k).near }) ∧
        (∀ k, u.die k = { s.die k with l2 := (u.die k).l2 }) ∧
        (∀ k, dieOf k = die → (∀ x ∈ (u.core k).l1, inside (x.num * 128) = false) ∧
          ∀ x ∈ (u.core k).near, inside (x.2.num * 128) = false) ∧
        (∀ x ∈ (u.die die).l2, inside (x.num * 128) = false) ∧
        (∀ p ∈ u.pending, inside p.cell = true → p.reach ≠ .die ∧ ∀ k, p.reach ≠ .core k) ∧
        (s.mem.wf = true → u.mem.wf = true) ∧
        ((∀ p ∈ s.pending, ∀ cell, p.covers cell = true → inside cell = inside p.cell) → s.mem.wf = true →
          (∀ k, s.pending.length + (s.die k).l2.length ≤ 8192) →
          (∀ cell, (∀ p ∈ order, p.covers cell = false) → memGet u.mem cell = memGet s.mem cell) ∧
          ∀ before p after cell, order = before ++ p :: after → p.covers cell = true → (∀ q ∈ after, q.covers cell = false) →
            tabGet s.fields 0 (granuleOf cell) = 0 → memGet u.mem cell = p.byteAt cell)) ∧
     -- promotion mode
     (∀ row rest, c.requests = (true, row) :: rest →
       exec (.promotionEntry die ch) s = .next (put (s.recallChannel die ch)
         { promotion := true, drop := false, progrow := row, latch := [], units := [], pins := c.pins, power := .awake,
           requests := rest, queue := c.queue })) ∧
     BankUnit.reset = { regs := [], mask := 255, stack := [], pc := 0, killed := false, cause := 0 } ∧
     (∀ row rest, c.requests = (false, row) :: rest →
       ∃ q, Becomes (.promotionExit die ch) s (put s { c with promotion := false, requests := rest, queue := q }) ∧
         -- in the order of arrival, and then of issue
         (c.queue.filter fun w => w.op == 0 || (tabFind s.ops w.op).isSome) <+: q ∧
         ∀ p ∈ s.ops, ∀ a ∈ p.2.accs, s.accCame p a = true → inside a.addr = true → s.heldCell a.addr = true →
           Waiter.access p.1 a.lane ∈ q) ∧
     -- power states
     (c.power = .awake → c.promotion = false →
       exec (.selfRefreshEntry die ch) s = .next (put (s.recallChannel die ch) { c with power := .selfRefresh }) ∧
       Becomes (.powerDownRequest die ch) s (put s { c with power := .powerDown })) ∧
     (s.mem.wf = true → c.power = .awake → c.promotion = true → ch < 64 →
       Becomes (.powerDownRequest die ch) s s ∧
       ∃ m, exec (.selfRefreshEntry die ch) s = .next (put
         { s.recallChannel die ch with mem := m, free := s.free + 65536 } { c with power := .selfRefresh }) ∧
         (∀ cell, ¬(inside cell = true ∧ (blRow (cellAddr cell) = 65534 ∨ blRow (cellAddr cell) = 65535)) →
           memGet m cell = memGet (s.recallChannel die ch).mem cell) ∧
         ∀ b < 16, ∀ i < 4096,
           memGet m (cellKey die 0 (blAddr ch b 65534 0) + i) = (Config.freeValue (s.free + b * 4096 + i)).setWidth 8) ∧
     (c.power = .selfRefresh → Becomes (.selfRefreshExit die ch) s (put s { c with power := .awake })) ∧
     (c.power = .powerDown → Becomes (.powerDownExit die ch) s (put s { c with power := .awake })) ∧
     -- islands and temperature
     (s.dieExists die = true → ∀ island < 4, ∃ f, (∀ i, tabGet f 600 i = if i = island then max 150 (freq d i - 25) else freq d i) ∧
       Becomes (.railLimiterTrip die island) s { s with dies := tabPut s.dies die { d with freq := f } }) ∧
     (∀ pkg k, s.pkgExists pkg = true → k < 8 →
       let x := s.die (pkg * 8 + k)
       (∃ f, (∀ i, tabGet f 600 i = if i < 4 then max 150 (freq x i - 25) else freq x i) ∧
         Becomes (.thermalThrottle pkg k) s { s with dies := tabPut s.dies (pkg * 8 + k) { x with freq := f } }) ∧
       (∃ f, (∀ i, tabGet f 600 i = if i < 4 then min 600 (freq x i + 25) else freq x i) ∧
         Becomes (.thermalRecovery pkg k) s { s with dies := tabPut s.dies (pkg * 8 + k) { x with freq := f } })) ∧
     (∀ pkg, s.pkgExists pkg = true → ∃ t, exec (.thermalShutdown pkg) s = .next t ∧
       t.pkgs = tabPut s.pkgs pkg { s.pkg pkg with ready := false, hot := true } ∧
       (∀ p ∈ t.tasks, pkgOf p.2.home ≠ pkg) ∧ (∀ k g, tabFind t.gangs k = some g → pkgOf (dieOf g.core) ≠ pkg) ∧
       (∀ p ∈ t.runs, pkgOf (dieOf (s.gang p.2.gang).core) ≠ pkg) ∧
       (∀ p ∈ t.ops, pkgOf (dieOf (s.gang p.2.gang).core) ≠ pkg) ∧
       (∀ p ∈ t.pending, pkgOf p.die ≠ pkg) ∧ (∀ u ∈ t.unacked, pkgOf u.pkt.sdie ≠ pkg) ∧
       (∀ k, pkgOf k = pkg → (t.die k).l2 = [] ∧ (t.die k).tlb = []) ∧ t.mem = s.mem ∧ t.bits = s.bits) ∧
     (s.dieExists die = true →
       Becomes (.cyclesAdvance die) s { s with dies := tabPut s.dies die { d with cycles := d.cycles + 1 } })) ∧
  (∀ (s : State) (pkg : Nat) (r : StartReport), s.pkgExists pkg = true →
     let p := s.pkg pkg
     let minimal : Prop := p.fails = 3 ∧ p.retry = false
     let measured := ((List.range 3).foldl (fun (q : Pkg) i => q.extendMr i (r.measure.getD i [])) Pkg.reset).mrs
     let fresh : Pkg := { Pkg.reset with
       fails := p.fails, retry := p.retry, fullReason := p.fullReason, hot := p.hot, mrs := measured
       kemSeed := (Config.freeValue s.free).toNat, link1Fitted := r.link1Fitted }
     let inside (cell : Nat) : Bool := pkgOf (cellDie cell) == pkg && cellPlace cell == 0
     let cleared (t : State) : Prop :=
       (∀ cell, memGet t.mem cell = if inside cell then 0 else memGet s.mem cell) ∧
       (∀ g, g ∈ t.bits.poison ↔ g ∈ s.bits.poison ∧ inside (g * 32) = false) ∧
       (∀ g, g ∈ t.bits.written ↔ g ∈ s.bits.written ∧ inside (g * 32) = false) ∧
       ∀ g, g ∈ t.bits.conflict ↔ g ∈ s.bits.conflict ∧ inside (g * 32) = false
     let idle (t : State) : Prop :=
       (∀ q ∈ t.tasks, pkgOf q.2.home ≠ pkg) ∧ (∀ k g, tabFind t.gangs k = some g → pkgOf (dieOf g.core) ≠ pkg) ∧ ∀ q ∈ t.pending, pkgOf q.die ≠ pkg
     let dieOut (d : Nat) : Prop := .die d ∈ r.fenced
     -- the units that a start fences, but for those without which none completes
     let fencesUnits (t : State) : Prop :=
       let q := t.pkg pkg
       let noted : Prop := q.replace = true ∧ q.event = true ∧ q.messages = 1
       (∀ d < 8, (t.die (pkg * 8 + d)).fenced = true ↔ dieOut d ∧ d ≠ 0) ∧
       (∀ d < 8, ∀ e < 8, (t.die (pkg * 8 + e)).fencedMask.getLsbD d = true ↔ dieOut d ∧ d ≠ 0) ∧
       (∀ d < 8, ∀ k < 64, .core d k ∈ r.fenced → ¬dieOut d ∨ d = 0 →
         (t.core ((pkg * 8 + d) * 64 + k)).fenced = true ∧ noted) ∧
       (∀ k < 16, 2 ≤ k → .stack k ∈ r.fenced → k % 2 ∈ (t.die (pkg * 8 + k / 2)).stackFenced ∧ noted) ∧
       (∀ k < 6, .torusPort k ∈ r.fenced → k ∈ q.portFenced ∧ noted) ∧
       (∀ d < 8, .tierPort d ∈ r.fenced → (t.die (pkg * 8 + d)).tierFenced = true ∧ noted) ∧
       (.hostLink1 ∈ r.fenced → q.link1Fenced = true ∧ noted) ∧ (∀ d < 8, d ≠ 0 → dieOut d → noted)
     -- no store stands on a core of another die than its own, and no gang is saved whose header a lost fragment marks
     let still : Prop := (∀ q ∈ s.pending, ∀ c, q.reach = .core c → q.die = dieOf c) ∧ ∀ g ∈ s.gangs, g.2.status ≠ .saved
     let failed (t : State) (k : Nat) : Prop :=
       let q := t.pkg pkg
       q.ready = false ∧ q.reason = k ∧ q.fullReason = k ∧ q.fails = min 3 (p.fails + 1) ∧ q.retry = false ∧
       q.link0x8 = r.link0x8 ∧ q.link1x8 = r.link1x8 ∧ q.hot = p.hot ∧ q.mrs = measured ∧ fencesUnits t ∧
       (r.fenced = [] → q = { fresh with reason := k, fullReason := k, fails := min 3 (p.fails + 1), retry := false,
                                         link0x8 := r.link0x8, link1x8 := r.link1x8 })
     s.mem.wf = true → ∃ t, exec (.startUp pkg r) s = .next t ∧ idle t ∧
       -- a full start with nothing to fence
       (¬minimal → p.hot = false → r.failure = none → r.fenced = [] → cleared t ∧
         t.pkg pkg = { fresh with ready := true, event := true, messages := 1, reason := 0, fails := 0, retry := false,
                                  fullReason := 0, link0x8 := r.link0x8, link1x8 := r.link1x8 } ∧
         (∀ d < 8, t.die (pkg * 8 + d) = Die.reset ∧ ∀ k < 64, t.core ((pkg * 8 + d) * 64 + k) = Core.reset) ∧
         (∀ k, pkgOf k ≠ pkg → t.die k = { s.die k with
           arrivals := (t.die k).arrivals, park := (t.die k).park, ready := (t.die k).ready }) ∧ ∀ k, k ≠ pkg → t.pkg k = s.pkg k) ∧
       -- a full start that fences units
       (¬minimal → p.hot = false → r.failure = none → ¬dieOut 0 → .stack 0 ∉ r.fenced → .stack 1 ∉ r.fenced →
         ((List.range 8).filter fun d => FenceUnit.die d ∈ r.fenced).length ≤ 4 → (∀ d, dieOut d → d < 8) →
         let q := t.pkg pkg
         (still → cleared t) ∧ q.ready = true ∧ q.minimal = false ∧ q.event = true ∧ q.messages = 1 ∧ q.fails = 0 ∧
         q.retry = false ∧ q.reason = 0 ∧ q.mrs = measured ∧ q.link0x8 = r.link0x8 ∧ q.link1x8 = r.link1x8 ∧ fencesUnits t) ∧
       -- a full start that fails
       (∀ k, ¬minimal → (p.hot = true ∧ k = 7 ∨ p.hot = false ∧ r.failure = some k) → failed t k) ∧
       (¬minimal → p.hot = false → r.failure = none →
         (dieOut 0 → failed t 3) ∧ (¬dieOut 0 → (.stack 0 ∈ r.fenced ∨ .stack 1 ∈ r.fenced) → failed t 4) ∧
         (¬dieOut 0 → .stack 0 ∉ r.fenced → .stack 1 ∉ r.fenced → (∀ d, dieOut d → d < 8) →
           4 < ((List.range 8).filter fun d => FenceUnit.die d ∈ r.fenced).length → failed t 8)) ∧
       -- minimal mode
       (minimal → p.hot = false → r.minimalFails = none →
         let q := t.pkg pkg
         (still → cleared t) ∧ q.ready = true ∧ q.minimal = true ∧ q.replace = true ∧ q.event = true ∧ q.messages = 1 ∧
         q.reason = p.fullReason ∧ q.fails = 3 ∧ q.retry = true ∧ q.mrs = measured ∧
         (∀ d < 8, (t.die (pkg * 8 + d)).fenced = decide (d ≠ 0) ∧ (t.die (pkg * 8 + d)).fencedMask = 0xFE) ∧
         (∀ k < 64, .core 0 k ∈ r.fenced → (t.core (pkg * 8 * 64 + k)).fenced = true) ∧ (∀ k < 6, k ∈ q.portFenced) ∧
         (t.die (pkg * 8)).tierFenced = true ∧ ∀ k ∈ s.packages, k ≠ pkg → k ∈ q.fencedPkgs) ∧
       (∀ k, minimal → (p.hot = true ∧ k = 7 ∨ p.hot = false ∧ r.minimalFails = some k) →
         let q := t.pkg pkg
         q.ready = false ∧ q.reason = k ∧ q.fullReason = p.fullReason ∧ q.fails = 3 ∧ q.retry = false ∧
         (∀ k < 64, .core 0 k ∈ r.fenced → (t.core (pkg * 8 * 64 + k)).fenced = true) ∧
         (r.fenced = [] → q = { fresh with reason := k, link0x8 := r.link0x8 })))

/-- R81, R381, R383, R385, R386, R389, R391, R398, R425, R431, R434: a packet is performed at its home at most once, entry by
entry or granule by granule, and acknowledged with the status it drew. The proxy's place, what an entry that cannot be performed
draws, what waits at a channel and where a range that passes an edge goes on are the model's choices (assumption logs 12, 29,
30, 32 and 64). -/
def Obligations.PacketsPerformed : Prop :=
  ∀ (s : State) (n : Nat) (p : Packet) (st : Stream), s.flight[n]? = some p →
    let u := taken s n p st
    let gone : State := { s with flight := s.flight.eraseIdx n }
    let leads (i : Instr) (t : State) : Prop := exec i s = .next t
    -- the places that the packet names, as offsets from its address
    let named : List Nat := match p.body with
      | .entries es => es.map fun e => e.2.1
      | .granules gs => (List.range gs.length).map (fun i => 32 * i) ++
          (if p.kind = 13 ∧ p.opq.testBit 4 = true then [32 * gs.length] else [])
      | .arm _ => [0]
      | _ => if p.kind = 6 then (List.range (p.opq % 16 + 1)).map fun i => 32 * i else []
    let held : Prop := ∃ off ∈ named, s.heldCell (homeCell p.dst p.pa off) = true ∨
      s.behind (Waiter.packet p) (homeCell p.dst p.pa off) = true
    let ty := p.opq % 8
    let memory : List (Nat × Instr) := [(0, .raddPacket n), (1, .rminPacket n), (2, .rmaxPacket n), (3, .rorPacket n),
      (4, .rwoPacket n), (5, .rarvPacket n), (6, .rgetPacket n), (7, .replyPacket n), (10, .armingPacket n),
      (11, .accclrPacket n), (13, .collPacket n)]
    -- duplicates, fences and keys are settled first
    (∀ e ∈ (12, Instr.resumePacket n) :: memory, p.kind = e.1 →
      (s.proxied p.sdie p.dst = true → leads e.2 { gone with acks := s.acks ++ [ackOf s p p.sdie 4] }) ∧
      (s.proxied p.sdie p.dst = false →
        s.ignores p.sdie p.dst = true ∨ s.accepts p.sdie p.dst p.keyGen p.key = false → leads e.2 gone) ∧
      (Welcome s p → Raised s p st →
        (seqBefore p.seq st.floor = true → leads e.2 u) ∧
        (seqBefore p.seq st.floor = false → ∀ v, tabFind st.marks p.seq = some v →
          leads e.2 (if v < 256 then { u with acks := u.acks ++ [ackOf u p p.dst v] } else u)) ∧
        (seqBefore p.seq st.floor = false → st.marks = [] → ¬held → (p.kind = 10 → s.armHeld p = false) →
          (p.kind = 12 → s.markHeld p = false) → 16384 ≤ ({ s with streams := tabPut s.streams p.stream st } : State).markedStreams p.dst → leads e.2 u)) ∧
      -- a package that is not up performs nothing
      (s.proxied p.sdie p.dst = false → s.ignores p.sdie p.dst = false → s.accepts p.sdie p.dst p.keyGen p.key = true →
        Raised s p st → seqBefore p.seq st.floor = false → tabFind st.marks p.seq = none → ¬held →
        (p.kind = 10 → s.armHeld p = false) → (p.kind = 12 → s.markHeld p = false) → s.isUp p.dst = false → leads e.2 u)) ∧
    -- a channel that holds accesses, or has others to perform first, holds the packet (R315, R316)
    (∀ e ∈ memory, p.kind = e.1 → Fresh s n p st → held → leads e.2 s) ∧
    -- RADD, RMIN, RMAX, ROR, RARV, ACCCLR
    (∀ es, p.body = .entries es → Fresh s n p st → ¬held →
      (p.kind = 0 → ty ≤ 6 → ∃ b, leads (.raddPacket n) (answered b.1 p st b.2) ∧
        InTurn (fun e a b =>
          (ty = 0 → UpdatesUnit p e.2.1 4 (fun m v => v = (m + e.1) % 2 ^ 32) a b) ∧
          (ty = 1 → UpdatesUnit p e.2.1 8 (fun m v => v = (m + e.1) % 2 ^ 64) a b) ∧
          (∀ f, [(2, fp32), (3, fbf16), (4, fp16), (5, fe4m3), (6, fe5m2)].lookup ty = some f →
            UpdatesUnit p e.2.1 64 (CellTakes (f.value e.1)) a b)) es (u, 0) b) ∧
      (p.kind = 1 → ty ≤ 4 → ∃ b, leads (.rminPacket n) (answered b.1 p st b.2) ∧
        InTurn (fun e => UpdatesUnit p e.2.1 (if ty = 2 ∨ ty = 3 then 8 else 4) fun m => Extremum false ty m e.1) es (u, 0) b) ∧
      (p.kind = 2 → ty ≤ 4 → ∃ b, leads (.rmaxPacket n) (answered b.1 p st b.2) ∧
        InTurn (fun e => UpdatesUnit p e.2.1 (if ty = 2 ∨ ty = 3 then 8 else 4) fun m => Extremum true ty m e.1) es (u, 0) b) ∧
      (p.kind = 3 → ty ≤ 1 → ∃ b, leads (.rorPacket n) (answered b.1 p st b.2) ∧
        InTurn (fun e => UpdatesUnit p e.2.1 (if ty = 1 then 8 else 4) fun m v => v = m ||| e.1) es (u, 0) b) ∧
      (p.kind = 5 → ∃ b, leads (.rarvPacket n) (answered b.1 p st b.2) ∧
        InTurn (fun e => UpdatesUnit p e.2.1 8 fun m v => v = (m + e.1) % 2 ^ 64) es (u, 0) b) ∧
      (p.kind = 11 → ∃ b, leads (.accclrPacket n) (answered b.1 p st b.2) ∧
        InTurn (fun e (a b : State × Nat) =>
          let cell := homeCell p.dst p.pa e.2.1
          b = if a.1.cellFenced cell then (a.1, a.2 ||| 2)
            else if a.1.inStep cell then (a.1.dropWrite cell, a.2)
            else (homePut (a.1.recall cell 64) p cell (List.replicate 64 0), a.2)) es (u, 0) b)) ∧
    -- RWO, replies of RGET, COLL
    (∀ gs, p.body = .granules gs → Fresh s n p st → ¬held →
      let writes (b : State × Nat) : Prop :=
        InTurn (fun e => WritesOnce p (32 * e.1) e.2.1 e.2.2) ((List.range gs.length).zip gs) (u, 0) b
      (p.kind = 4 → ∃ b, leads (.rwoPacket n) (answered b.1 p st b.2) ∧ writes b) ∧
      (p.kind = 7 → ∃ b, leads (.replyPacket n) (answered b.1 p st b.2) ∧ writes b) ∧
      (p.kind = 13 → p.opq.testBit 4 = false → ∃ b, leads (.collPacket n) (answered b.1 p st b.2) ∧ writes b) ∧
      (p.kind = 13 → p.opq.testBit 4 = true → ∃ b c, leads (.collPacket n) (answered c.1 p st c.2) ∧ writes b ∧
        UpdatesUnit p (32 * (p.opq % 16 + 1)) 8 (fun m v => v = (m + 1) % 2 ^ 64) b c))

/-- R151, R355, R380, R382, R383, R391, R398, R402, R424: a home serves an RGET by a reply for each granule, then an arrival,
then its acknowledgement; an acknowledgement sets its lanes' status bits and ends the wait; a sender sends again what is not
acknowledged; an arming lowers PRED; a resume continues the gang that is held at its record. The order of replies, which packet
goes out again and when, the mark in a saved gang's image, and that a TCB is IDLE at its first arming are the model's choices
(assumption logs 10, 11, 15 and 46). -/
def Obligations.ReadsAndAcknowledgements : Prop :=
  ∀ (s : State),
    let leads (i : Instr) (t : State) : Prop := exec i s = .next t
    (∀ (n : Nat) (p : Packet) (st : Stream), Fresh s n p st →
      let u := taken s n p st
      -- RGET
      (p.kind = 6 → p.body = .none → (∀ i < p.opq % 16 + 1, s.heldCell (homeCell p.dst p.pa (32 * i)) = false ∧
        s.behind (Waiter.packet p) (homeCell p.dst p.pa (32 * i)) = false) → ∃ t,
        leads (.rgetPacket n) { t with streams := tabPut s.streams p.stream { st with marks := tabPut st.marks p.seq 256 } } ∧
        SendsFor { u with jobs := tabPut s.jobs s.nextId { request := p, arrived := false, status := 0 }, nextId := s.nextId + 1 }
          t none none (some s.nextId) ((List.range (p.opq % 16 + 1)).map fun i =>
            let cell := homeCell p.dst p.pa (32 * i)
            ({ sdie := p.dst, eng := 67, seq := 0, oldest := 0, wrap := 0, dst := p.sdie, vc := 0, kind := 7, opq := 0,
               pa := p.aux + 32 * i, aux := 0, aux2 := 0, keyGen := 0, key := 0,
               body := .granules [(s.readNat .die (p.pa.testBit 64) cell 32, s.poisonedAt cell 32)] }, 0))) ∧
      -- arming
      (∀ va, p.kind = 10 → p.body = .arm va → s.armHeld p = false →
        let cell := homeCell p.dst p.pa 0
        -- the home slice recalls PRED and STATE
        let r := unitReady u cell 12
        let w := unitReady r cell 8
        let pred := r.homeNat cell 8
        (w.poisonedAt cell 8 = true → leads (.armingPacket n) (answered w p st 2)) ∧
        (w.poisonedAt cell 8 = false → ∃ v : State,
          v = { homePut w p cell (leBytes 8 ((w.readNat .die (p.pa.testBit 64) cell 8 + 2 ^ 64 - 1) % 2 ^ 64)) with bits := w.bits } ∧
          -- a TCB that the device has not taken up is IDLE, whatever was stored to its STATE
          let t : State := if v.takenUp cell = true ∨ v.cellFenced cell = true ∨ v.inStep cell = true then v
            else ({ v with fields := tabPut v.fields (cell / 32) 1 } : State).homeStore (cell + 8) (leBytes 4 0)
          let idle : Prop := t.takenUp cell = true → t.homeNat (cell + 8) 4 % 16 = 0
          (pred = 1 → idle → leads (.armingPacket n) (answered (t.makeReady p.dst cell va) p st 0)) ∧
          (pred = 1 → ¬idle → leads (.armingPacket n) (answered t p st 0)) ∧
          (1 < pred → pred < 2 ^ 63 → leads (.armingPacket n) (answered t p st 0)) ∧
          (pred = 0 ∨ 2 ^ 63 ≤ pred → pred < 2 ^ 64 → leads (.armingPacket n)
            (answered (t.homeStore (cell + 8) (leBytes 4 (t.homeNat (cell + 8) 4 ||| 16))) p st 0)))) ∧
      -- resume
      (∀ token rreg rval pc, p.kind = 12 → p.body = .resume token rreg rval pc → s.markHeld p = false →
        leads (.resumePacket n) (answered ((u.returnFrom token rreg rval pc).markSaved token) p st 0))) ∧
    -- the gang that a resume names
    (∀ token rreg rval pc,
      ((∀ q ∈ s.gangs, ∀ h ∈ q.2.holds, h.token ≠ token) → s.returnFrom token rreg rval pc = s) ∧
      (∀ pre gid g post pre' h post', s.gangs = pre ++ (gid, g) :: post → (∀ q ∈ pre, ∀ h ∈ q.2.holds, h.token ≠ token) →
        g.holds = pre' ++ h :: post' → (∀ x ∈ pre', x.token ≠ token) → h.token = token →
        (h.resumable = false → s.returnFrom token rreg rval pc = s) ∧
        (h.resumable = true → g.status = .saved → s.returnFrom token rreg rval pc = { s with gangs := tabPut s.gangs gid { g with
          holds := g.holds.map fun x => if x.token = token then { x with marked := some (rreg, rval, pc) } else x } }) ∧
        (h.resumable = true → g.status ≠ .saved → ∃ L : Lanes, ∃ g1 : Gang, ∃ ops,
          g1 = { g with lanes := L, holds := g.holds.filter fun x => x.token != token } ∧
          s.returnFrom token rreg rval pc = { s with gangs := tabPut s.gangs gid (g1.continueAt h.cohort pc), ops := ops } ∧
          (h.op = none → ops = s.ops) ∧
          -- a load that trapped when performed issues again; an atomic is made once
          (∀ o, h.op = some o → ∀ q, q ∈ ops ↔ q ∈ s.ops ∧
            (q.1 = o → (match q.2.kind with | .atom _ _ _ | .bufAtom _ _ _ | .launch => true | _ => false) = true)) ∧
          (rreg = 127 → L = g.lanes) ∧
          (let xb := match (g.cohort? h.cohort).bind (·.resume) with | some r => r.xb | none => g.xb
           rreg < 112 → xb + rreg < g.allot → xb + rreg < 512 → g.guests = [] → L = { g.lanes with regs := L.regs } ∧
             ∀ k, tabGet L.regs 0 k = if k % 512 = xb + rreg ∧ k / 512 < 32 ∧ hasLane h.lanes (k / 512) = true
               then BitVec.ofNat 32 rval else tabGet g.lanes.regs 0 k)))) ∧
    -- the mark of a saved gang enters GSTATE in its image
    (∀ token, (∀ q ∈ s.gangs, q.2.status = .saved → ∀ h ∈ q.2.holds, h.token ≠ token) → s.markSaved token = s) ∧
    (∀ token g b bs s', s.savedHold token = some (g, b) → (∃ h ∈ g.holds, h.token = token ∧ h.marked ≠ none) →
      s.imageRead (s.task g.task) b.core (0x320000 + g.place * 8192 + 12) 4 = some bs →
      s.imageWrite (s.task g.task) b.core (0x320000 + g.place * 8192 + 12) (leBytes 4 (leNat bs ||| 2)) = some s' →
      s.markSaved token = s') ∧
    -- the arrival of an RGET
    (∀ job j, tabFind s.jobs job = some j → j.arrived = false → (∀ x ∈ s.unacked, x.job ≠ some job) →
      (∀ x ∈ s.serving, x.job = job → x.left = []) → ∃ t,
      leads (.rgetArrivalSend job) t ∧
      SendsFor { s with jobs := tabPut s.jobs job { j with arrived := true } } t none none (some job)
        [({ sdie := j.request.dst, eng := 67, seq := 0, oldest := 0, wrap := 0, dst := j.request.sdie, vc := 0, kind := 5,
            opq := 0, pa := j.request.aux2 / 512 * 512, aux := 0, aux2 := 0, keyGen := 0, key := 0,
            body := .entries [(1, j.request.aux2 % 512, 0)] }, 0)]) ∧
    (∀ job j, tabFind s.jobs job = some j → j.arrived = true ∨ (∃ x ∈ s.unacked, x.job = some job) ∨
      (∃ x ∈ s.serving, x.job = job ∧ x.left ≠ []) → leads (.rgetArrivalSend job) s) ∧
    -- acknowledgements
    (∀ n a, s.acks[n]? = some a →
      let names (q : Packet) : Bool := q.sdie == a.sdie && q.eng == a.eng && q.seq == a.seq && q.dst == a.home
      let t : State := { s with acks := s.acks.eraseIdx n }
      let d := s.die a.sdie
      let v : State := if a.status.testBit 2 then
        { t with dies := tabPut s.dies a.sdie { d with losts := min 65535 (d.losts + 1) } } else t
      let w : State := { v with unacked := s.unacked.filter fun x => !names x.pkt }
      (d.fenced = true ∨ s.ignores a.src a.sdie = true ∨ s.accepts a.src a.sdie a.keyGen a.key = false →
        leads (.ackPacket n) t) ∧
      (d.fenced = false → s.ignores a.src a.sdie = false → s.accepts a.src a.sdie a.keyGen a.key = true →
        ((∀ x ∈ s.unacked, names x.pkt = false) → leads (.ackPacket n) v) ∧
        (∀ pre x post, s.unacked = pre ++ x :: post → (∀ y ∈ pre, names y.pkt = false) → names x.pkt = true →
          -- of a gang's operation
          (∀ gid o id, x.gang = some gid → x.op = some id → x.job = none → tabFind s.ops id = some o → ∃ g' ops,
            leads (.ackPacket n) { w with gangs := (if a.status % 8 = 0 then s.gangs else tabPut s.gangs gid g'), ops := ops } ∧
            (let g := s.gang gid
             ∃ R : Tab (BitVec 3), g' = { g with lanes := { g.lanes with remote := R } } ∧ ∀ l < 32, tabGet R 0 l =
               tabGet g.lanes.remote 0 l ||| (if hasLane x.lanes l then BitVec.ofNat 3 a.status else 0) |||
                 (if a.status.testBit 0 ∧ hasLane x.also l then 1 else 0)) ∧
            (let waits : Prop := o.kind = .remote ∨ ∃ ls, o.kind = .armWait ls
             let settled : Prop := waits ∧ (∀ b ∈ o.accs, b.done = true) ∧ ∀ y ∈ w.unacked, y.op ≠ some id
             (settled → ops = tabDel s.ops id) ∧ (¬settled → ops = s.ops))) ∧
          -- of no operation
          (x.gang = none → x.op = none → x.job = none → leads (.ackPacket n) w) ∧
          -- of an RGET that the home serves
          (∀ job j, x.gang = none → x.op = none → x.job = some job → tabFind s.jobs job = some j →
            let status := j.status ||| a.status
            let open_ : Prop := (∃ y ∈ w.unacked, y.job = some job) ∨ ∃ y ∈ s.serving, y.job = job ∧ y.left ≠ []
            (j.arrived = true → ¬open_ →
              let q := j.request
              let k := tabGet s.streams { floor := 0, marks := [] } q.stream
              leads (.ackPacket n) (answered { w with jobs := tabDel s.jobs job } q k status)) ∧
            (j.arrived = false ∨ open_ →
              leads (.ackPacket n) { w with jobs := tabPut s.jobs job { j with status := status } }))))) ∧
    -- retransmission
    (∀ die eng, let mine (x : Unacked) : Prop := x.pkt.sdie = die ∧ x.pkt.eng = eng
      -- a packet goes out after the older ones of its stream, and among 4,096 that are not acknowledged
      let may (i : Nat) (x : Unacked) : Prop := x.sent = false ∧ x.pkt.wrap < 65536 ∧
        (∀ y ∈ s.unacked.take i, y.pkt.stream = x.pkt.stream → y.sent = true) ∧
        (s.unacked.filter fun y => y.sent && y.pkt.stream == x.pkt.stream).length < 4096
      (∀ i x, s.unacked[i]? = some x → mine x → may i x → (∀ j < i, ∀ y, s.unacked[j]? = some y → mine y → ¬may j y) →
        ∃ q : Packet,
        q = { x.pkt with oldest := q.oldest, keyGen := s.keyFor x.pkt.sdie x.pkt.dst, key := s.sendKey x.pkt.sdie x.pkt.dst } ∧
        leads (.retransmission die eng) { s with
          unacked := s.unacked.set i { x with pkt := q, sent := true }, flight := s.flight ++ [q] } ∧
        ∀ lo, let nums := x.pkt.seq :: (s.unacked.filter fun y => y.sent && y.pkt.stream == x.pkt.stream).map (·.pkt.seq)
          lo ∈ nums → (∀ m ∈ nums, m = lo ∨ seqBefore lo m = true) → q.oldest = lo) ∧
      ((∀ i x, s.unacked[i]? = some x → mine x → ¬may i x) → ∀ pre x post, s.unacked = pre ++ x :: post →
        (∀ y ∈ pre, mine y → y.sent = false) → mine x → x.sent = true →
        let q : Packet :=
          { x.pkt with keyGen := s.keyFor x.pkt.sdie x.pkt.dst, key := s.sendKey x.pkt.sdie x.pkt.dst }
        leads (.retransmission die eng) { s with
          unacked := pre ++ post ++ [{ x with pkt := q }], flight := s.flight ++ [q] }))

/-- R405, R407 to R411, R413, R414, R416, R456: a ply leaves once its lanes' loads are written and their stores performed, and
carries their travelling registers; its destination admits or refuses it; a return or a refusal enters its gang of origin; a
core forms a guest gang of the plies that are to go first. What a ply carries beside its registers, the word at which a refused
ply's lanes are held, the stamps of the cohorts formed and how a ply fares with a die that is fenced or of another package are
the model's choices (assumption logs 12, 34, 35, 51 and 54), as are the marks in a saved gang's image (log 15). -/
def Obligations.PlyEvents : Prop :=
  ∀ (s : State),
    let leads (i : Instr) (t : State) : Prop := exec i s = .next t
    let fields (task : Nat) : List Nat := (List.range 112).filter fun f => (s.task task).tcb.migmask.testBit f
    let predMask (task : Nat) : BitVec 7 := BitVec.ofNat 7 ((s.task task).tcb.migmask / 2 ^ 112)
    let placed (b : BitVec 4) (k : Nat) : LaneSet := BitVec.ofNat 32 (b.toNat * 2 ^ (4 * k))
    let isPly (p : Packet) (q : Ply) : Packet := { p with
      eng := 67, seq := 0, oldest := 0, wrap := 0, vc := 1, kind := 9, opq := 0, pa := 0, aux := 0, aux2 := 0, body := .ply q,
      keyGen := 0, key := 0 }
    let refusal (from_ : Nat) (q : Ply) (cause : Nat) : List (Packet × LaneSet) :=
      let home := (s.gang q.origin).core / 64
      [(isPly { Packet.blank with sdie := from_, dst := home } { q with refused := true, rcause := cause, dst := home }, 0)]
    -- departure
    (∀ ply p, tabFind s.departing ply = some p →
      let g := s.gang p.src
      let here := placed p.lanes p.place
      let base := if g.guests = [] then p.base else 0
      let carried := (fields p.task).map fun f => base + f
      let all (o : Op) : Prop := ∀ a ∈ o.accs, a.done = true ∨ hasLane here a.lane = false
      let ready : Prop := ∀ x ∈ s.ops, x.2.gang = p.src → x.2.active &&& here ≠ 0 →
        match x.2.dest, x.2.kind with
        | some d, .atom _ _ _ | some d, .bufAtom _ _ _ | some d, .launch => all x.2 ∧ ∀ i < d.count, d.first + i ∉ carried
        | some d, _ => ∀ i < d.count, d.first + i ∉ carried
        | none, .rsend _ _ _ _ _ | none, .remote | none, .armWait _ | none, .eretWait => True
        | none, _ => all x.2
      -- the plies of one word leave in the order of their lowest lanes
      let first : Prop := ∀ x ∈ s.departing, x.1 < ply → x.2.src = p.src → x.2.word = p.word → x.2.isReturn = true
      -- its lanes' stores, and no others', are performed at die scope
      let v := s.toDie fun x => x.reach == .core g.core && x.gang == p.src && x.lane < 32 && hasLane here x.lane
      let left : State := { v with
        departing := tabDel s.departing ply
        ops := s.ops.map fun x =>
          if x.2.gang = p.src ∧ x.2.dest ≠ none then (x.1, { x.2 with active := x.2.active &&& ~~~here }) else x }
      let inside : Prop := (s.pkg (g.core / 64 / 8)).trust ≠ 1 ∨ p.dst / 8 = g.core / 64 / 8 ∨
        (s.pkg (g.core / 64 / 8)).member (p.dst / 8) = true ∨ p.dst / 8 ∈ (s.pkg (g.core / 64 / 8)).fencedPkgs
      (¬ready ∨ ¬first → leads (.plyDeparture ply) s) ∧
      (ready → first → ∃ q : Ply, q = { p with regs := q.regs, preds := q.preds, lstat := q.lstat } ∧
        (∀ i f j, (fields p.task)[i]? = some f → j < 4 →
          tabGet q.regs 0 (i * 4 + j) = if p.lanes.getLsbD j = true ∧ base + f < g.allot
            then tabGet g.lanes.regs 0 ((p.place * 4 + j) * 512 + (base + f)) else 0) ∧
        (∀ j < 4, tabGet q.preds 0 j = if p.lanes.getLsbD j = true
          then tabGet g.lanes.preds 0 (p.place * 4 + j) &&& predMask p.task else 0) ∧
        (∀ j < 4, tabGet q.lstat 0 j = if p.lanes.getLsbD j = true then tabGet g.lanes.lstat 0 (p.place * 4 + j) else 0) ∧
        (inside → ∃ t, leads (.plyDeparture ply) t ∧ SendsFor left t none none none
          [({ isPly { Packet.blank with sdie := g.core / 64, dst := p.dst } q with eng := g.core % 64 }, 0)]) ∧
        (¬inside → g.core / 64 = (s.gang p.origin).core / 64 →
          leads (.plyDeparture ply) (left.takeRefusal { q with refused := true, rcause := 2 } true)) ∧
        (¬inside → g.core / 64 ≠ (s.gang p.origin).core / 64 → ∃ t, leads (.plyDeparture ply) t ∧
          SendsFor left t none none none (refusal (g.core / 64) q 2)))) ∧
    -- arrival, admission, refusal
    (∀ n p q st, s.flight[n]? = some p → p.kind = 9 → p.body = .ply q →
      let event : Instr := if q.refused then .refusedPlyArrival n else if q.isReturn then .returnPlyArrival n else .plyPacket n
      let goes : Prop := q.refused = false ∧ q.isReturn = false
      let u := taken s n p st
      let gone : State := { s with flight := s.flight.eraseIdx n }
      let d := s.die p.dst
      let t := s.task q.task
      let k := s.pkg (p.dst / 8)
      let cause := if t.tcb.encl = true ∧ ¬(k.trust = 1 ∧ k.gen = t.enclGen) then 2
        else if t.tcb.rook = true ∧ d.rookn = 0 then 4 else if 1024 ≤ d.arrivals.length then 1 else 0
      let kept := s.unacked.countP fun x => x.pkt.sdie == p.dst && x.pkt.eng == 67 && x.pkt.kind == 9
      let same (x : Unacked) : Bool := x.pkt.stream == p.stream && x.pkt.seq == p.seq
      let o := (s.gang q.origin).core / 64
      -- the die knows the origin fenced; of another package at once (the model's choice, assumption log 12)
      let orphan : Prop := if o / 8 = p.dst / 8 then d.fencedMask.getLsbD (o % 8) = true
        else (s.die o).fenced = true ∨ o / 8 ∈ k.fencedPkgs
      let parkHeld : Prop := let g := s.gang q.origin
        q.refused = true ∧ g.status = .saved ∧
          s.imageHeld (s.task g.task) (s.block g.block).core (0x320000 + g.place * 8192 + 12) 4 = true
      (s.proxied p.sdie p.dst = false → s.ignores p.sdie p.dst = true ∨ s.accepts p.sdie p.dst p.keyGen p.key = false →
        leads event gone) ∧
      (Welcome s p → Raised s p st → seqBefore p.seq st.floor = true → leads event u) ∧
      (Welcome s p → Raised s p st → seqBefore p.seq st.floor = false → ∀ v, tabFind st.marks p.seq = some v →
        leads event (if v < 256 then { u with acks := u.acks ++ [ackOf u p p.dst v] } else u)) ∧
      (goes → s.proxied p.sdie p.dst = true →
        ((∀ x ∈ s.unacked, same x = false) → leads event gone) ∧
        ((∃ x ∈ s.unacked, same x = true) → ∃ t, leads event t ∧
          SendsFor { gone with unacked := s.unacked.filter fun x => !same x } t none none none (refusal p.sdie q 3))) ∧
      (q.refused = true ∨ q.isReturn = true → s.proxied p.sdie p.dst = true →
        leads event { gone with acks := s.acks ++ [ackOf s p p.sdie 4] }) ∧
      (Fresh s n p st →
        (goes → 1024 ≤ kept → leads event u) ∧
        (goes → kept < 1024 → orphan → leads event (answered u p st 0)) ∧
        (goes → kept < 1024 → ¬orphan → cause = 0 → leads event (answered
          { u with dies := tabPut s.dies p.dst { d with arrivals := d.arrivals ++ [q] } } p st 0)) ∧
        (goes → kept < 1024 → ¬orphan → cause ≠ 0 → ∃ t, leads event (answered t p st 0) ∧
          SendsFor u t none none none (refusal p.dst q cause)) ∧
        (¬goes → (s.gang q.origin).status = .ended → leads event (answered u p st 0)) ∧
        (q.refused = false → q.isReturn = true → (s.gang q.origin).status = .resident →
          leads event (answered (u.takeReturn q) p st 0)) ∧
        (q.refused = true → (s.gang q.origin).status = .resident → leads event (answered (u.takeRefusal q true) p st 0)) ∧
        -- the header of a saved gang that traps may lie in a channel that holds accesses (R316)
        (parkHeld → leads event s) ∧
        (¬goes → ¬parkHeld → (s.gang q.origin).status = .saved → 8192 ≤ d.park.length → leads event u) ∧
        (¬goes → ¬parkHeld → (s.gang q.origin).status = .saved → d.park.length < 8192 →
          let w : State := { u with dies := tabPut s.dies p.dst { d with park := d.park ++ [q] } }
          leads event (answered (if q.refused then w.takeRefusal q true else w) p st 0)))) ∧
    -- what comes back
    (∀ q : Ply, let g := s.gang q.origin
      g.allot ≤ 512 → (s.gang q.origin).status ≠ .ended → ∃ L : Lanes,
      let lane (j : Nat) : Nat := q.slice * 4 + j
      let f (pc : Nat) : Frag :=
        { slice := q.slice, act := placed q.lanes q.slice, stack := [], pc := pc / 4, next := none, cohort := g.nextCohort }
      let back (pc : Nat) (res : Option Resume) : Gang :=
        let away := (g.away.map fun a =>
          if a.slice = q.slice then { a with lanes := a.lanes &&& ~~~placed q.all q.slice } else a).filter fun a => a.lanes != 0
        if q.lanes = 0 then { g with lanes := L, away := away }
        else { g with
          lanes := L, away := away, frags := g.frags ++ [f pc], nextCohort := g.nextCohort + 1
          cohorts := g.cohorts ++ [{ id := g.nextCohort, gathered := false, regang := false, barWait := [], fenceAt := none,
                                     resume := res, stamp := s.time }] }
      L = { g.lanes with regs := L.regs, preds := L.preds, lstat := L.lstat } ∧
      (∀ i f j, (fields q.task)[i]? = some f → j < 4 → q.lanes.getLsbD j = true → q.base + f < g.allot →
        tabGet L.regs 0 (lane j * 512 + (q.base + f)) = tabGet q.regs 0 (i * 4 + j)) ∧
      (∀ key, (∀ f j, f ∈ fields q.task → j < 4 → q.lanes.getLsbD j = true → q.base + f < g.allot →
        key ≠ lane j * 512 + (q.base + f)) → tabGet L.regs 0 key = tabGet g.lanes.regs 0 key) ∧
      (∀ x, tabGet L.preds 0 x = if ∃ j < 4, q.lanes.getLsbD j = true ∧ x = lane j
        then (tabGet g.lanes.preds 0 x &&& ~~~predMask q.task) ||| tabGet q.preds 0 (x % 4) else tabGet g.lanes.preds 0 x) ∧
      (∀ x, tabGet L.lstat 0 x = if ∃ j < 4, q.lanes.getLsbD j = true ∧ x = lane j
        then tabGet q.lstat 0 (x % 4) else tabGet g.lanes.lstat 0 x) ∧
      -- a return
      ((back q.pc none).frags ≠ [] ∨ (back q.pc none).away ≠ [] ∨ g.guests ≠ [] ∨ g.status = .saved →
        s.takeReturn q = { s.dropNear g.core q.origin with gangs := tabPut s.gangs q.origin ((back q.pc none).gatherDue s.time) }) ∧
      ((back q.pc none).frags = [] → (back q.pc none).away = [] → g.guests = [] → g.status = .resident →
        ((s.takeReturn q).gang q.origin).status = .ended) ∧
      -- a refusal
      (∀ resumable l, q.lanes ≠ 0 → IsLowest (placed q.lanes q.slice) l → (∀ c ∈ g.cohorts, c.id < g.nextCohort) →
        let res : Resume := { id := s.nextId, base := q.word / 4, pos := q.word % 4, xb := q.base, act := placed q.lanes q.slice,
                              keepW := false }
        let held : Gang := { back q.word (some res) with holds := g.holds ++
          [{ token := s.nextId + 1, cohort := g.nextCohort, lanes := placed q.lanes q.slice, op := none, resumePc := q.word,
             resumable := resumable, marked := none }] }
        let rec1 : FaultRec :=
          { code := 14, lane := l, info := q.rcause, resumable := resumable, guest := !g.guests.isEmpty,
            privileged := (s.task g.task).privileged, task := g.task, addr := tabGet q.addrs 0 (l % 4),
            block := (s.block g.block).idx, lgang := (s.block g.block).idx * (s.task g.task).tcb.blkdim + g.num, pc := q.word,
            resumePc := q.word, performed := 0, active := placed q.lanes q.slice, die := g.core / 64, core := g.core,
            token := s.nextId + 1, gang := some q.origin, serve := true }
        let r : State := { s.dropNear g.core q.origin with
          gangs := tabPut s.gangs q.origin held, faults := tabPut s.faults (s.nextId + 1) rec1, nextId := s.nextId + 2 }
        (g.status = .resident → s.takeRefusal q resumable = r) ∧
        -- a saved gang's header says that it is held
        (g.status = .saved → ∀ bs r', r.imageRead (s.task g.task) (s.block g.block).core (0x320000 + g.place * 8192 + 12) 4 = some bs →
          r.imageWrite (s.task g.task) (s.block g.block).core (0x320000 + g.place * 8192 + 12) (leBytes 4 (leNat bs ||| 1)) = some r' →
          s.takeRefusal q resumable = r'))) ∧
    -- guest gangs
    (∀ core, let die := core / 64
      let d := s.die die
      let mayHost (k : Nat) (p : Ply) : Bool := (s.task p.task).tcb.rook == decide (64 - d.rookn ≤ k % 64) && !(s.core k).fenced
      let prio (p : Ply) : Nat := (s.task p.task).tcb.prio
      let used := s.guestSlots core
      ((∀ q ∈ d.arrivals, mayHost core q = false) ∨ 256 ≤ used → leads (.guestGangFormation core) s) ∧
      ∀ pre p post, d.arrivals = pre ++ p :: post → mayHost core p = true →
        (∀ q ∈ pre, mayHost core q = true → prio q < prio p) → (∀ q ∈ post, mayHost core q = true → prio q ≤ prio p) →
        let first : Prop := ∀ i < 64, let k := die * 64 + i
          k = core ∨ mayHost k p = false ∨ used < s.guestSlots k ∨ (used = s.guestSlots k ∧ core < k)
        (¬first → leads (.guestGangFormation core) s) ∧
        (used < 256 → first →
          let more := ((pre ++ post).filter fun q => mayHost core q && q.task == p.task && q.pc == p.pc).take (min 7 (255 - used))
          let ps := p :: more
          let origin := s.gang p.origin
          let act := ((List.range ps.length).zip ps).foldl (fun m q => m ||| placed q.2.lanes q.1) 0
          ∃ L : Lanes, L = { regs := L.regs, w := [], preds := L.preds, lstat := L.lstat, cursor := [], g0 := [], g1 := [],
                             remote := [] } ∧
          (∀ i q j, ps[i]? = some q → j < 4 → q.lanes.getLsbD j = true →
            (∀ x f, (fields p.task)[x]? = some f → tabGet L.regs 0 ((i * 4 + j) * 512 + f) = tabGet q.regs 0 (x * 4 + j)) ∧
            (∀ f, f ∉ fields p.task → tabGet L.regs 0 ((i * 4 + j) * 512 + f) = 0) ∧
            tabGet L.preds 0 (i * 4 + j) = tabGet q.preds 0 j ∧ tabGet L.lstat 0 (i * 4 + j) = tabGet q.lstat 0 j) ∧
          leads (.guestGangFormation core) { s with
            dies := tabPut s.dies die { d with arrivals := more.foldl (fun l q => l.erase q) (pre ++ post) }
            nextId := s.nextId + 2
            gangs := tabPut s.gangs (s.nextId + 1) { Gang.blank with
              task := p.task, block := origin.block, core := core, status := .resident, lanes := L, allot := 112, started := true
              nextCohort := 1
              frags := ((List.range ps.length).zip ps).map fun q =>
                { slice := q.1, act := placed q.2.lanes q.1, stack := [], pc := p.pc / 4, next := none, cohort := 0 }
              cohorts := [{ id := 0, gathered := false, regang := false, barWait := [], fenceAt := none, stamp := s.time, resume := some {
                id := s.nextId, base := p.pc / 4, pos := p.pc % 4, xb := 0, act := act, keepW := false } }]
              guests := ps.map fun q =>
                { origin := q.origin, slice := q.slice, all := q.all, hops := q.hops, xb := q.xb, base := q.base, allot := q.allot
                  left := false } } }))

/-- R398 to R400, R402, R417, R446 to R450, R477, R479: a survivor that has the notice of a fence notes it; a unit that is
fenced does nothing more, its blocks are lost and placed again; the host reads and writes memory through its window, arms
tasks, and writes configuration registers. Which die answers for a fenced one, what a fenced unit's work becomes and what the host
may see of stores that are not for it are the model's choices (assumption logs 12, 17, 29, 42, 53 and 56), as are the fields that
its writes leave to the device (log 46) and the answer to an arming that names a fenced die of another package (log 67). -/
def Obligations.FencesAndHost : Prop :=
  ∀ (s : State),
    let leads (i : Instr) (t : State) : Prop := exec i s = .next t
    let open_ (t : Task) : Prop := t.status ≠ .retired ∧ t.status ≠ .ending
    -- a notice at a survivor
    (∀ n p st fd, Fresh s n p st → p.kind = 32 → p.body = .notice fd →
      let d := s.die p.dst
      let mask := d.fencedMask ||| BitVec.ofNat 8 (2 ^ (fd % 8))
      -- a second notice of it changes nothing
      (d.fencedMask.getLsbD (fd % 8) = true → leads (.fenceNotice n) (answered (taken s n p st) p st 0)) ∧
      (d.fencedMask.getLsbD (fd % 8) = false → ∃ t, leads (.fenceNotice n) (answered t p st 0) ∧
        (t.die p.dst).fencedMask = mask ∧ (t.die p.dst).epoch = (d.epoch + 1) % 65536 ∧ t.mem = s.mem ∧ t.pending = s.pending ∧
        -- guests whose origin is the fenced die go
        (∀ gid g k q, tabFind s.gangs gid = some g → g.core / 64 = p.dst → g.guests[k]? = some q → q.left = false →
          (s.gang q.origin).core / 64 = fd → ∃ g' q', tabFind t.gangs gid = some g' ∧ g'.guests[k]? = some q' ∧ q'.left = true ∧
            ∀ f ∈ g'.frags, f.slice ≠ k) ∧
        -- the master, the lowest die not fenced, ends the tasks homed on a fenced die
        (∀ m < 8, mask.getLsbD m = false → (∀ j < m, mask.getLsbD j = true) →
          (m = p.dst % 8 → ∀ task x, tabFind s.tasks task = some x → x.home / 8 = p.dst / 8 → mask.getLsbD (x.home % 8) = true →
            open_ x → (t.task task).status = .ending) ∧
          (m ≠ p.dst % 8 → t.tasks = s.tasks ∧ t.blocks = s.blocks)))) ∧
    -- a unit is fenced
    (∀ pkg, s.pkgExists pkg = true →
      let p := s.pkg pkg
      let noted (q : Pkg) : Pkg := { q with
        event := true, messages := if p.event then p.messages else p.messages + 1, replace := true }
      -- the L2s have room, so that nothing is written back for it, and no saved gang's header is marked
      let roomy : Prop := (∀ k, s.pending.length + (s.die k).l2.length ≤ 8192) ∧ ∀ g ∈ s.gangs, g.2.status ≠ .saved
      let lost (t : State) (out : Nat → Bool) : Prop :=
        (∀ b x, tabFind s.blocks b = some x → out x.core = true →
          x.status.occupies = true ∨ x.status = .saved → (t.block b).status = .lost) ∧
        (∀ gid g, tabFind s.gangs gid = some g → g.guests = [] → out (s.block g.block).core = true →
          (∃ x, tabFind s.blocks g.block = some x ∧ (x.status.occupies = true ∨ x.status = .saved)) →
          (t.gang gid).status = .ended) ∧
        (∀ r ∈ t.runs, out (r.1 / 2) = false) ∧ (∀ o ∈ t.ops, out o.2.core = false) ∧ (roomy → t.mem = s.mem) ∧
        (∀ q ∈ t.pending, ∀ c, q.reach = .core c → out c = false)
      (∀ k < 16, k % 2 ∉ (s.die (pkg * 8 + k / 2)).stackFenced → ∃ gone : List Nat, (∀ x, x ∈ gone ↔ x = k % 2 ∨
          x ∈ (s.die (pkg * 8 + k / 2)).stackFenced) ∧
        let d := s.die (pkg * 8 + k / 2)
        Becomes (.unitFence pkg (.stack k)) s { s with
          pkgs := tabPut s.pkgs pkg (noted p)
          dies := tabPut s.dies (pkg * 8 + k / 2) { d with stackFenced := gone, channels := d.channels.map fun c =>
            if c.1 / 32 = k % 2 then (c.1, { Channel.reset with pins := c.2.pins }) else c } }) ∧
      (∀ k < 8, (s.die (pkg * 8 + k)).tierFenced = false → Becomes (.unitFence pkg (.tierPort k)) s { s with
        pkgs := tabPut s.pkgs pkg (noted p)
        dies := tabPut s.dies (pkg * 8 + k) { s.die (pkg * 8 + k) with tierFenced := true } }) ∧
      (p.link1Fenced = false → Becomes (.unitFence pkg .hostLink1) s { s with
        pkgs := tabPut s.pkgs pkg (noted { p with link1Fenced := true })
        -- its armings go with it
        unacked := s.unacked.filter fun u => !(u.pkt.sdie / 8 == pkg && u.pkt.eng == 66)
        flight := s.flight.filter fun q => !(q.sdie / 8 == pkg && q.eng == 66) }) ∧
      (∀ k < 6, k ∉ p.portFenced → ∃ t, leads (.unitFence pkg (.torusPort k)) t ∧
        (∀ x, x ∈ (t.pkg pkg).portFenced ↔ x = k ∨ x ∈ p.portFenced) ∧ (t.pkg pkg).replace = true ∧ (t.pkg pkg).event = true ∧
        (roomy → t.mem = s.mem)) ∧
      (∀ d < 8, ∀ k < 64, (s.die (pkg * 8 + d)).fenced = false → (s.core ((pkg * 8 + d) * 64 + k)).fenced = false →
        let core := (pkg * 8 + d) * 64 + k
        ∃ t, leads (.unitFence pkg (.core d k)) t ∧ t.core core = { Core.reset with fenced := true } ∧
          (t.pkg pkg).coresOut = p.coresOut + 1 ∧ (t.pkg pkg).replace = true ∧ (t.pkg pkg).event = true ∧
          lost t (fun c => c == core) ∧
          -- a lost block of a task that goes on is to be placed again
          ∀ b x y, tabFind s.blocks b = some x → x.core = core → x.status.occupies = true ∨ x.status = .saved →
            tabFind s.tasks x.task = some y → y.status = .running → (s.die y.home).fenced = false → (∀ q ∈ s.blocks, q.2.task = x.task → q.2.idx = x.idx → q.1 = b) →
            x.idx ∈ (t.task x.task).reissue) ∧
      (∀ d < 8, (s.die (pkg * 8 + d)).fenced = false →
        let die := pkg * 8 + d
        ∃ t, leads (.unitFence pkg (.die d)) t ∧ (t.die die).fenced = true ∧ (t.die die).ready = [] ∧ (t.die die).arrivals = [] ∧
          (t.die die).park = [] ∧ (t.pkg pkg).replace = true ∧ (t.pkg pkg).event = true ∧ lost t (fun c => c / 64 == die) ∧
          -- every survivor is sent a notice by the lowest
          (∀ m < 8, (s.die (pkg * 8 + m)).fenced = false → m ≠ d →
            (∀ j < m, j = d ∨ (s.die (pkg * 8 + j)).fenced = true) →
            (∀ u ∈ s.unacked, u.pkt.body ≠ .notice die) →
            ∀ k < 8, (s.die (pkg * 8 + k)).fenced = false → k ≠ d → (s.die (pkg * 8 + k)).fencedMask.getLsbD d = false →
            ∃ u ∈ t.unacked, u.pkt.sdie = pkg * 8 + m ∧ u.pkt.eng = 64 ∧ u.pkt.dst = pkg * 8 + k ∧ u.pkt.vc = 2 ∧ u.pkt.kind = 32 ∧
              u.pkt.body = .notice die))) ∧
    -- the host's memory window
    (∀ pkg link die pa, s.pkgExists pkg = true → die < 8 → (s.pkg pkg).ready = true →
      link = 0 ∨ (link = 1 ∧ (s.pkg pkg).link1Fitted = true ∧ (s.pkg pkg).link1Fenced = false ∧ (s.pkg pkg).minimal = false) →
      let k := pkg * 8 + die
      let p := s.pkg pkg
      let cell (a : Nat) : Nat := tierCell k false a
      let secret (a : Nat) : Prop := p.trust = 1 ∧ (die, a / 2 ^ 28) ∈ p.enclMap
      let floor (a : Nat) : Prop := 0x1FFD600000 ≤ a ∧ a ≤ 0x1FFF9FFFFF
      let out (a : Nat) : Prop := (s.die k).fenced = true ∨ s.cellFenced (cell a) = true
      let memory (a : Nat) : Prop := ¬secret a ∧ ¬floor a ∧ ¬out a
      let waits (a : Nat) : Prop := memory a ∧ (s.heldCell (cell a) = true ∨ s.inStep (cell a) = true)
      (∀ len, pa + len ≤ 2 ^ 37 →
        ((∃ i < len, waits (pa + i)) → leads (.hdmAccess pkg link die pa len none) s) ∧
        ((∀ i < len, ¬waits (pa + i)) → ∃ bytes bad, Becomes (.hdmAccess pkg link die pa len none) s
            { s with hostRead := bytes, hostPoison := bad } ∧
          (bad = true ↔ ∃ i < len, secret (pa + i) ∨ (¬floor (pa + i) ∧ out (pa + i)) ∨
            (memory (pa + i) ∧ (cell (pa + i) / 32 ∈ s.bits.poison ∨ cell (pa + i) / 32 ∈ s.bits.conflict))) ∧
          (bad = true → bytes = []) ∧
          (bad = false → bytes.length = len ∧ ∀ i < len,
            (floor (pa + i) → bytes[i]? = some 0) ∧
            (memory (pa + i) → bytes[i]? = some ((sectorByte (s.die (cellDie (cell (pa + i)))).l2 false (cell (pa + i))).getD
              (memGet s.mem (cell (pa + i)))))))) ∧
      (∀ w : HostWrite, pa + w.bytes.length ≤ 2 ^ 37 → s.mem.wf = true →
        let n := w.bytes.length
        let touched (g : Nat) : Prop := ∃ i < n, memory (pa + i) ∧ cell (pa + i) / 32 = g
        let whole (g : Nat) : Prop := ∃ i, i + 32 ≤ n ∧ (pa + i) % 32 = 0 ∧ memory (pa + i) ∧ cell (pa + i) / 32 = g
        ((∃ i < n, waits (pa + i)) → leads (.hdmAccess pkg link die pa n (some w)) s) ∧
        ((∀ i < n, ¬waits (pa + i)) → ∃ t, leads (.hdmAccess pkg link die pa n (some w)) t ∧
          t = { s with mem := t.mem, pending := t.pending, bits := t.bits, cores := t.cores, dies := t.dies } ∧
          (∀ k, t.core k = { s.core k with l1 := (t.core k).l1, near := (t.core k).near }) ∧
          (∀ k, t.die k = { s.die k with l2 := (t.die k).l2 }) ∧
          -- bytes that are no field of the device's own
          (∀ i < n, memory (pa + i) → tabGet s.fields 0 (cell (pa + i) / 32) = 0 →
            (∀ q ∈ s.pending, q.covers (cell (pa + i)) = true → ∀ x g, q.reach ≠ .gang x g) →
            (∀ x, dieOf x ≠ k → (∀ y ∈ (s.core x).l1, cellDie (y.num * 128) ≠ k) ∧ ∀ y ∈ (s.core x).near, cellDie (y.2.num * 128) ≠ k) →
            ∀ v win, t.viewByte v win (cell (pa + i)) = w.bytes.getD i 0) ∧
          (∀ c, (∀ q ∈ s.pending, q.covers c = false) →
            ((∀ i < n, memory (pa + i) → c ≠ cell (pa + i)) → memGet t.mem c = memGet s.mem c) ∧
            ((∀ i < n, memory (pa + i) → c / 128 ≠ cell (pa + i) / 128) →
              (∀ q ∈ s.pending, q.overlaps (c / 128 * 128) 128 = false) → (∀ k, s.pending.length + (s.die k).l2.length ≤ 8192) →
              ∀ v win, t.viewByte v win c = s.viewByte v win c)) ∧
          ((∀ q ∈ s.pending, ∀ i < n, q.covers (cell (pa + i)) = false) →
            (∀ g, g ∈ t.bits.written ↔ g ∈ s.bits.written ∧ ¬touched g) ∧
            (∀ g, g ∈ t.bits.conflict ↔ g ∈ s.bits.conflict ∧ ¬touched g) ∧
            ∀ g, g ∈ t.bits.poison ↔ g ∈ s.bits.poison ∧ ¬whole g)))) ∧
    -- the arming window
    (∀ die link size value, s.isUp die = false → Becomes (.armwin die link size value) s s) ∧
    (∀ die link value, s.dieExists die = true → (s.die die).fenced = false → s.isUp die = true →
      link = 0 ∨ (link = 1 ∧ (s.pkg (die / 8)).link1Fitted = true ∧ (s.pkg (die / 8)).link1Fenced = false ∧
        (s.pkg (die / 8)).minimal = false) →
      let d := s.die die
      let va := value % 2 ^ 64
      let rejected (k : Nat) : Prop := Becomes (.armwin die link 8 value) s { s with
        dies := tabPut s.dies die { d with rejects := min (2 ^ 32 - 1) (d.rejects + 1), armCause := k } }
      let aligned : Prop := va % 512 = 0 ∧ va < 2 ^ 52
      let arming (l : Leaf) : Packet :=
        { sdie := die, eng := 65 + link, seq := 0, oldest := 0, wrap := 0, dst := l.die, vc := 2, kind := 10, opq := 0,
          pa := packetAddr l, aux := 0, aux2 := 0, body := .arm va, keyGen := 0, key := 0 }
      (∀ size, size ≠ 8 → Becomes (.armwin die link size value) s s) ∧
      (¬aligned → rejected 1) ∧
      -- a walk that reads a channel that holds accesses waits (R316)
      (aligned → s.walk die va = .error failWait → Becomes (.armwin die link 8 value) s s) ∧
      (aligned → ∀ e, e ≠ failWait → s.walk die va = .error e → rejected 2) ∧
      (aligned → ∀ l, s.walk die va = .ok l →
        let reserved : Prop := l.place = 0 ∧ l.win = true ∧ 65515 ≤ blRow l.pa ∧ blRow l.pa ≤ 65532
        let secret : Prop := l.encl = true ∨ (l.place = 0 ∧ s.marked l.die (interleaved (cellAddr l.cell)) = true)
        let fenced : Prop := s.ignores l.die die = true ∨ s.proxied die l.die = true
        (fenced → rejected 2) ∧
        (¬fenced → l.w = false ∨ reserved → rejected 3) ∧
        (¬fenced → l.w = true → ¬reserved → secret → rejected 4) ∧
        (¬fenced → l.w = true → ¬reserved → ¬secret → ∃ t, leads (.armwin die link 8 value) t ∧
          SendsFor s t none none none [(arming l, 0)]))) ∧
    -- configuration registers
    (∀ die value, s.dieExists die = true →
      let d := s.die die
      let p := s.pkg (die / 8)
      let word (i : Instr) (f : Die → Die) : Prop := Becomes i s { s with dies := tabPut s.dies die (f d) }
      let stat (i : Instr) : Prop := Becomes i s { s with pkgs := tabPut s.pkgs (die / 8) { p with event := false } }
      let v8 := value % 2 ^ 64
      let v4 := value % 2 ^ 32
      (∀ i ∈ [Instr.armstat die 8 value, .configRegisterWrite die 0x8 8 value],
        (v8 < 2 ^ 32 → word i id) ∧ (2 ^ 32 ≤ v8 → word i fun d => { d with rejects := 0, armCause := 0 })) ∧
      (∀ i ∈ [Instr.devstat die 8 value, .devstat die 4 value, .configRegisterWrite die 0x10 8 value,
          .configRegisterWrite die 0x10 4 value],
        (value.testBit 3 = true → stat i) ∧ (value.testBit 3 = false → Becomes i s s)) ∧
      (∀ i ∈ [Instr.woconf die 8 value, .configRegisterWrite die 0x208 8 value],
        (v8 = 0 → word i id) ∧ (v8 ≠ 0 → word i fun d => { d with woconf := 0 })) ∧
      (∀ size ∈ [4, 8], word (.configRegisterWrite die 0x100 size value) fun d => { d with
        preempt := v4.testBit 8, rookn := if v4 % 16 ≤ 8 then v4 % 16 else d.rookn }) ∧
      (word (.configRegisterWrite die 0xC 4 value) fun d => if v4 = 0 then d else { d with rejects := 0, armCause := 0 }) ∧
      (word (.configRegisterWrite die 0x20C 4 value) fun d => if v4 = 0 then d else { d with woconf := 0 }) ∧
      (∀ offset size, offset / 8 * 8 ∉ [0, 0x8, 0x10, 0x100, 0x208] ∨ size ≠ 4 ∧ size ≠ 8 ∨ offset % size ≠ 0 →
        Becomes (.configRegisterWrite die offset size value) s s)) ∧
    -- DEVSTAT reads what the package is
    (∀ pkg, let p := s.pkg pkg
      let v := s.devstat pkg
      (∀ k ∈ p.portFenced, k < 6) → (∀ d < 8, ∀ k ∈ (s.die (pkg * 8 + d)).stackFenced, k < 2) →
      s.configRead (pkg * 8) 0x10 8 = some v ∧ v < 2 ^ 64 ∧
      v.testBit 0 = p.ready ∧ v.testBit 1 = p.minimal ∧ v.testBit 2 = p.replace ∧ v.testBit 3 = p.event ∧
      v.testBit 16 = p.link0x8 ∧ v.testBit 17 = p.link1x8 ∧ v / 2 ^ 8 % 256 = min 255 p.coresOut ∧
      v / 2 ^ 22 % 4 = p.fails % 4 ∧ v / 2 ^ 24 % 256 = p.reason % 256 ∧
      (∀ k < 6, v.testBit (34 + k) = true ↔ k ∈ p.portFenced) ∧
      (∀ d < 8, v.testBit (40 + d) = (s.die (pkg * 8 + d)).fenced) ∧
      ∀ k < 16, v.testBit (48 + k) = true ↔ k % 2 ∈ (s.die (pkg * 8 + k / 2)).stackFenced)

/-- R452 to R455, R457, R458: the messages of the trust mailbox and their answers; SHAKE256 extends the measurement
registers; a FORM that passes every check replaces the generation; a quorum revokes a participant or dissolves the enclave.
The keys, signatures and the identity are open constants (assumption log 1); what the layout of STATUS' answer and the
signed bodies are is the model's choice (assumption log 22), as are what a revocation halts and whose fences a FORM lifts (log
54). -/
def Obligations.TrustMessages : Prop :=
  ∀ (s : State) (pkg link : Nat),
    let p := s.pkg pkg
    let up : Prop := s.pkgExists pkg = true ∧
      (link = 0 ∨ (link = 1 ∧ p.link1Fitted = true ∧ p.link1Fenced = false ∧ p.minimal = false))
    let told (u : State) (status : Nat) (body : List Byte) : State :=
      let q := u.pkg pkg
      { u with pkgs := tabPut u.pkgs pkg { q with answers := tabPut q.answers link (leBytes 4 status ++ body) } }
    let replies (i : Instr) (status : Nat) (body : List Byte) : Prop := Becomes i s (told s status body)
    let pad (n : Nat) (l : List Byte) : List Byte := l.take n ++ List.replicate (n - l.length) 0
    let extended (q : Pkg) (k : Nat) (data : List Byte) : Pkg :=
      { q with mrs := tabPut q.mrs k (shake256 (pad 64 (tabGet q.mrs [] k) ++ shake256 data 64) 64) }
    let idPub := pad 64 (Config.identity pkg)
    let kem := pad 1568 (Config.kemKey p.kemSeed)
    let sound : Prop := s.mem.wf = true ∧
      (∀ q ∈ s.pending, (∀ c, q.covers c = true → cellDie c = q.die) ∧ ∀ x g, q.reach ≠ .gang x g) ∧
      ∀ k, (∀ x ∈ (s.core k).l1, cellDie (x.num * 128) = dieOf k) ∧ ∀ x ∈ (s.core k).near, cellDie (x.2.num * 128) = dieOf k
    -- the L2s have room, so that nothing is written back for it, and no saved gang's header is marked
    let roomy : Prop := (∀ k, s.pending.length + (s.die k).l2.length ≤ 8192) ∧ ∀ g ∈ s.gangs, g.2.status ≠ .saved
    let within (rs : List (Nat × Nat)) (c : Nat) : Prop :=
      cellDie c / 8 = pkg ∧ cellPlace c = 0 ∧ (cellDie c % 8, interleaved (cellAddr c) / 2 ^ 28) ∈ rs
    -- the regions read 0, with no poison, WR or CF; what no store is on its way to and no cache holds is unchanged elsewhere
    let zeroed (rs : List (Nat × Nat)) (t : State) : Prop :=
      t.mem.wf = true ∧ (∀ c, within rs c → ∀ v win, t.viewByte v win c = 0) ∧
      (∀ c, ¬within rs c → (∀ q ∈ s.pending, q.covers c = false) → memGet t.mem c = memGet s.mem c ∧
        ((∀ k, (∀ x ∈ (s.core k).l1, x.num ≠ c / 128) ∧ ∀ x ∈ (s.core k).near, x.2.num ≠ c / 128) →
          (∀ x ∈ (s.die (cellDie c)).l2, x.num ≠ c / 128) → ∀ v win, t.viewByte v win c = s.viewByte v win c)) ∧
      (∀ k, t.core k = { s.core k with l1 := (t.core k).l1, near := (t.core k).near }) ∧ (∀ k, t.die k = { s.die k with l2 := (t.die k).l2 }) ∧
      ∀ g, (within rs (g * 32) → g ∉ t.bits.poison ∧ g ∉ t.bits.written ∧ g ∉ t.bits.conflict) ∧
        (¬within rs (g * 32) → (∀ q ∈ s.pending, q.overlaps (g * 32) 32 = false) →
          (g ∈ t.bits.poison ↔ g ∈ s.bits.poison) ∧ (g ∈ t.bits.written ↔ g ∈ s.bits.written) ∧
          (g ∈ t.bits.conflict ↔ g ∈ s.bits.conflict))
    let messages (nonce mr gen part : Nat) (data : List Byte) (body : FormBody) (sigs : List Signature) : List Instr :=
      [.getid pkg link, .attest pkg link nonce, .extend pkg link mr data, .kemkey pkg link, .form pkg link body,
       .revoke pkg link gen part sigs, .dissolve pkg link gen sigs]
    -- no mailbox, or a halted package
    (∀ nonce mr gen part data body sigs,
      (¬up → ∀ i ∈ Instr.status pkg link :: messages nonce mr gen part data body sigs, Becomes i s s) ∧
      (up → p.trust = 2 → ∀ i ∈ messages nonce mr gen part data body sigs, replies i 3 [])) ∧
    (up → ∃ parts, replies (.status pkg link) 0 (leBytes 2 p.trust ++ leBytes 8 p.gen ++ leBytes 2 parts ++
        leBytes 4 (s.wraps.countP fun w => w.1 / 2 ^ 25 == pkg && decide (65536 ≤ w.2))) ∧
      ∀ i < 16, parts.testBit i = true ↔ i ∉ p.revoked ∧ ∃ q ∈ p.parts, q.index = i) ∧
    (up → p.trust ≠ 2 →
      replies (.getid pkg link) 0 (idPub ++ Config.certificate pkg) ∧
      replies (.kemkey pkg link) 0 kem ∧
      -- the report of R454
      (∀ nonce, ∃ report, replies (.attest pkg link nonce) 0 report ∧ report.length = 30496 ∧
        let field (off n : Nat) : List Byte := (report.drop off).take n
        field 0 4 = leBytes 4 0x4F545231 ∧ field 4 2 = leBytes 2 pkg ∧ field 6 2 = leBytes 2 p.trust ∧
        field 8 8 = leBytes 8 p.gen ∧ field 0x10 16 = List.replicate 16 0 ∧ field 0x20 32 = leBytes 32 nonce ∧
        field 0x40 64 = idPub ∧ field 0x80 64 = shake256 kem 64 ∧
        (∀ k < 8, field (0xC0 + 64 * k) 64 = pad 64 (tabGet p.mrs [] k)) ∧
        field 0x2C0 29792 = pad 29792 (Config.identitySign pkg (field 0 0x2C0))) ∧
      (∀ k data, 4 ≤ k → k ≤ 7 → Becomes (.extend pkg link k data) s
        (told { s with pkgs := tabPut s.pkgs pkg (extended p k data) } 0 [])) ∧
      (∀ k data, k < 4 ∨ 7 < k → replies (.extend pkg link k data) 1 []) ∧
      -- FORM
      (∀ b : FormBody,
        let n := b.parts.length
        let formed : Prop := 2 ≤ n ∧ n ≤ 16 ∧ n < 2 * b.quorum ∧ b.quorum ≤ n ∧ (b.parts.map (·.index)).Nodup ∧
          (∀ q ∈ b.parts, q.index < 16 ∧ ∀ m ∈ q.members, m < 4096) ∧ ∀ e ∈ b.enclMap, e.1 < 8 ∧ e.2 < 512
        let member : Prop := (b.parts.filter fun q => q.members.contains pkg).length = 1
        let genuine : Prop := (∀ q ∈ b.parts, Config.sigValid q.pubKey (leBytes 1568 q.kemCipher ++ leBytes 48 q.wrappedKey) q.sig = true) ∧
          ∀ q ∈ b.parts, Config.unwrapKey p.kemSeed q.kemCipher q.wrappedKey ≠ none
        (¬formed → replies (.form pkg link b) 1 []) ∧
        (formed → b.gen ≤ p.gen → replies (.form pkg link b) 4 []) ∧
        (formed → p.gen < b.gen → ¬member → replies (.form pkg link b) 1 []) ∧
        (formed → p.gen < b.gen → member → ¬genuine → replies (.form pkg link b) 2 []) ∧
        (formed → p.gen < b.gen → member → genuine → sound → ∃ t q,
          exec (.form pkg link b) s = .next (told t 0 []) ∧
          t = { s with mem := t.mem, pending := t.pending, bits := t.bits, cores := t.cores, dies := t.dies,
                       pkgs := tabPut s.pkgs pkg q, wraps := t.wraps, unacked := t.unacked } ∧
          zeroed (b.enclMap.filter fun e => !p.enclMap.contains e) t ∧
          q = { extended p 3 (FormBody.bytes b) with
            trust := 1, gen := b.gen, parts := b.parts, quorum := b.quorum, revoked := [], enclMap := b.enclMap, keys := q.keys,
            fencedPkgs := q.fencedPkgs } ∧
          (∀ x ∈ b.parts, tabFind q.keys x.index = Config.unwrapKey p.kemSeed x.kemCipher x.wrappedKey) ∧
          (∀ i, (∀ x ∈ b.parts, x.index ≠ i) → tabFind q.keys i = none) ∧
          (∀ k, k ∈ q.fencedPkgs → k ∈ p.fencedPkgs) ∧
          (∀ k ∈ p.fencedPkgs, (∀ x ∈ b.parts, k ∉ x.members) → k ∈ q.fencedPkgs) ∧
          t.wraps = (s.wraps.filter fun w => w.1 / 2 ^ 25 != pkg) ∧
          t.unacked = s.unacked.map fun u =>
            if u.pkt.sdie / 8 = pkg then { u with pkt := { u.pkt with wrap := 0 } } else u)) ∧
      -- REVOKE and DISSOLVE
      (∀ gen part (sigs : List Signature),
        let signers (barred : List Nat) (msg : List Byte) (l : List Nat) : Prop := l.Nodup ∧ ∀ i, i ∈ l ↔
          i ∉ barred ∧ i ∉ p.revoked ∧ ∃ g ∈ sigs, g.part = i ∧ ∃ q ∈ p.parts, q.index = i ∧ Config.sigValid q.pubKey msg g.sig = true
        let known : Prop := ∃ q ∈ p.parts, q.index = part
        let own : List Nat := (p.parts.filter fun q => q.index == part).flatMap (·.members)
        (gen ≠ p.gen → replies (.revoke pkg link gen part sigs) 4 []) ∧
        (gen = p.gen → part ∈ p.revoked → replies (.revoke pkg link gen part sigs) 3 []) ∧
        (gen = p.gen → part ∉ p.revoked → ¬known → replies (.revoke pkg link gen part sigs) 1 []) ∧
        (∀ l, gen = p.gen → part ∉ p.revoked → known → signers [part] (leBytes 8 gen ++ leBytes 2 part) l →
          (l.length < p.quorum → replies (.revoke pkg link gen part sigs) 2 []) ∧
          (p.quorum ≤ l.length → pkg ∉ own → ∃ t, exec (.revoke pkg link gen part sigs) s = .next (told t 0 []) ∧
            (roomy → t.mem = s.mem ∧ t.bits = s.bits) ∧ (t.pkg pkg).trust = p.trust ∧ tabFind (t.pkg pkg).keys part = none ∧
            (∀ i, i ≠ part → tabFind (t.pkg pkg).keys i = tabFind p.keys i) ∧
            (∀ i, i ∈ (t.pkg pkg).revoked ↔ i = part ∨ i ∈ p.revoked) ∧
            ∀ k, k ∈ (t.pkg pkg).fencedPkgs ↔ k ∈ own ∨ k ∈ p.fencedPkgs) ∧
          (p.quorum ≤ l.length → pkg ∈ own → ∃ t, exec (.revoke pkg link gen part sigs) s = .next (told t 0 []) ∧
            (roomy → t.mem = s.mem) ∧ (t.pkg pkg).trust = 2 ∧ (t.pkg pkg).keys = [] ∧ (t.pkg pkg).kemSeed = 0 ∧
            (∀ d < 8, (t.die (pkg * 8 + d)).fenced = true) ∧
            ∀ k x, tabFind s.tasks k = some x → x.home / 8 = pkg → (t.task k).status = .ending ∨ (t.task k).status = .retired)) ∧
        (gen ≠ p.gen → replies (.dissolve pkg link gen sigs) 4 []) ∧
        (gen = p.gen → p.trust ≠ 1 → replies (.dissolve pkg link gen sigs) 3 []) ∧
        (∀ l, gen = p.gen → p.trust = 1 → signers [] (leBytes 8 gen) l →
          (l.length < p.quorum → replies (.dissolve pkg link gen sigs) 2 []) ∧
          (p.quorum ≤ l.length → sound → (∀ e ∈ p.enclMap, e.1 < 8) → ∃ t, exec (.dissolve pkg link gen sigs) s = .next (told t 0 []) ∧
            t = { s with mem := t.mem, pending := t.pending, bits := t.bits, cores := t.cores, dies := t.dies, pkgs := tabPut s.pkgs pkg { p with
              keys := [], trust := 0, gen := 0, parts := [], quorum := 0, revoked := [], enclMap := [] } } ∧
            zeroed p.enclMap t))))

/-- R38 to R41, R48, R50: a step whose turn is a slot's takes the next word of that slot's run, with its prefixes, and is exec
of the instruction those words are, in the state in which the run has moved past them and that slot issues; the first word
of an issue group fixes the lanes that the group reads. A group begins when no other run of its gang is within one, or in one
c-cycle with others that have all read their lanes (R159). A word that is none traps ILLEGAL. A step whose turn is an event's is
exec of that event, and one whose turn is one of the model's own happenings is that happening. Time and the schedule are the
model's own (assumption logs 18 and 20). -/
def Obligations.StepRunsDecoded : Prop :=
  ∀ (s : State) (later : List Choice),
    let u : State := { s with schedule := later, time := s.time + 1, focus := none }
    (∀ i, s.schedule = .event i :: later → step s = exec i u) ∧
    (∀ e, s.schedule = .env e :: later → step s = .next (u.happen e)) ∧
    let starts (r : Run) : Prop := r.pos % 3 = 0 ∨ ∀ w, r.words[r.pos - 1]? = some w → w.getLsbD 31 = false
    -- a run stands within an issue group, or has read for one that it has not begun
    let within (r : Run) : Prop := r.paired = true ∨ (¬starts r ∧ r.stalled = false)
    let may (slot : Nat) (r : Run) : Prop :=
      ¬starts r ∨ r.paired = true ∨ ∀ p ∈ s.runs, p.1 = slot ∨ p.2.gang ≠ r.gang ∨ ¬within p.2
    (∀ slot r g, s.schedule = .issue slot :: later → tabFind s.runs slot = some r → tabFind s.gangs r.gang = some g → ¬may slot r →
      step s = .next u) ∧
    (∀ slot r g, s.schedule = .issue slot :: later → tabFind s.runs slot = some r → tabFind s.gangs r.gang = some g → may slot r →
      let next := (r.words.drop r.pos).take (3 - r.pos % 3)
      let first : Prop := starts r ∧ r.paired = false
      let past (r' : Run) (n : Nat) : Run := { r' with pos := r.pos + n, paired := false, stalled := false }
      let at_ (r' : Run) : State := { u with runs := tabPut s.runs slot r', focus := some slot }
      (∀ i rest, decodeWords next = .ok (i, rest) →
        let n := next.length - rest.length
        (first → step s = exec i (at_ (past { r with group := g.lanes, seeded := 0 } n))) ∧
        (¬first → step s = exec i (at_ (past r n)))) ∧
      (∀ e r', decodeWords next = .error e → (first → r' = past { r with group := g.lanes, seeded := 0 } 1) →
        (¬first → r' = past r 1) → ∃ c, (at_ r').issuer = some c ∧ c.run = r' ∧
        step s = .next ((at_ r').takeTrap c r.act
          { fail := trapIllegal, lane := lowestLane r.act, addr := 0, performed := 0, next := false }))) ∧
    (s.schedule = [] → step s = ({ s with time := s.time + 1, focus := none } : State).perform s.nextChoice)

/-- Words of the spec's own examples, written out with their prefixes, decode to the instructions they stand for. -/
def Obligations.DecodesWords : Prop :=
  let v (n : Nat) : Reg := BitVec.ofNat 7 n
  let all : Hd := { chain := false, guard := 7 }
  let more : Hd := { chain := true, guard := 7 }
  let reads (ws : List Word) (i : Instr) : Prop := decodeWords ws = .ok (i, [])
  reads [0x01E23FFF] (.trail (v 8) (v 127) (v 127)) ∧
  reads [0x02E003FF] (.wait false 0 15 7 7) ∧
  reads [0x83200002] (.bra 1 (.short 2)) ∧
  reads [0x8B3FFFFB, 0x8B80000A, 0x0CE18400] (.add all .i64 true (v 6) (v 8) (.imm 0x3FFFFB)) ∧
  reads [0x8B805410, 0x23F70001] (.perm all 0x5410 (v 92) (v 0) (.reg (v 1))) ∧
  reads [0x8B400040, 0xABE20140] (.ld more .b32 false (v 8) (v 2) 64) ∧
  reads [0x2EE2450B] (.fmul all .f32 .rne (v 9) (v 10) (.reg (v 11))) ∧
  reads [0x8B800060, 0x4DE20303] (.redx all .fadd .i32 .w4 (v 8) (v 6)) ∧
  reads [0x50E04040] (.shrink false 64) ∧
  reads [0x8B800001, 0x5C22010A] (.atom { chain := false, guard := 1 } .add .n32 .rlx .d true (v 8) (v 2) 0) ∧
  reads [0x6FE04000] (.bwait all 0) ∧
  reads [0x73E50C20] (.bcw all .eight (v 20) (v 24) 0) ∧
  reads [0x8B804204, 0x7B6C135F] (.coll { chain := false, guard := 3 } 15 true (v 33) .vc4 (v 48) (v 38) 0) ∧
  reads [0x7DE00500] (.eret all (v 10))

/-- R27, R186, R312, R357, R402, R450, R454, R476, R477: what every die and package holds at reset; no work is in the
machine, the caches hold nothing (R476), and memory reads 0. That memory beyond the first tier does so and that the TLBs are empty are
the model's choices (assumption logs 4 and 21). -/
def Obligations.ResetState : Prop :=
  let s := State.reset
  s.mem.wf = true ∧ (∀ core win cell, s.viewByte core win cell = 0) ∧ s.fields = [] ∧ (∀ g ∈ s.gangs, g.2.Bounded) ∧
  s.tasks = [] ∧ s.blocks = [] ∧ s.gangs = [] ∧ s.runs = [] ∧ s.ops = [] ∧ s.pending = [] ∧ s.flight = [] ∧ s.acks = [] ∧
  s.unacked = [] ∧ s.bits.poison = [] ∧ s.bits.written = [] ∧ s.bits.conflict = [] ∧
  (∀ k, let d := s.die k
    d.cycles = 0 ∧ d.rookn = 4 ∧ d.preempt = true ∧ d.rejects = 0 ∧ d.armCause = 0 ∧ d.woconf = 0 ∧ d.epoch = 0 ∧ d.losts = 0 ∧
    d.fencedMask = 0 ∧ d.fenced = false ∧ d.ptroot = 0 ∧ d.defsuper = 0 ∧ d.deffault = 0 ∧ d.chSeq = 0 ∧ d.tlb = [] ∧
    d.l2 = [] ∧ (s.core k).l1 = [] ∧ (s.core k).near = [] ∧ (s.core k).tlb = [] ∧
    ∀ c, (tabGet d.channels Channel.reset c).promotion = false ∧ (tabGet d.channels Channel.reset c).pins = []) ∧
  ∀ k, let p := s.pkg k
    p.ready = false ∧ p.minimal = false ∧ p.replace = false ∧ p.event = false ∧ p.reason = 0 ∧ p.fails = 0 ∧ p.trust = 0 ∧
    p.gen = 0 ∧ p.mrs = []

/-- R28 to R38: what the encoder writes for a well-formed word, the decoder reads back, every operand with it, and leaves what
comes after it: as words, and as bytes. -/
def Obligations.RoundTrip : Prop :=
  ∀ i : Instr, i.WellFormed →
    (∀ rest, decodeWords (encodeWords i ++ rest) = .ok (i, rest)) ∧ ∀ bytes, decode (encode i ++ bytes) = .ok (i, bytes)

/-- No step takes memory out of its canonical form: addresses strictly rising, and none listed that holds the default. The form is
the model's own representation of memory (R210, R211); State.reset has it (ResetState). -/
def Obligations.MemoryKept : Prop :=
  ∀ s t : State, s.mem.wf = true → step s = .next t → t.mem.wf = true

/-- R13, R100, R109, R140: no step takes a gang out of its bounds: its register index is a multiple of 8 below 512, a divergence
stack has eight entries at most, and the lanes of a fragment, active or parked, are those of its slice. -/
def Obligations.GangsKept : Prop :=
  ∀ s t : State, (∀ g ∈ s.gangs, g.2.Bounded) → step s = .next t → ∀ g ∈ t.gangs, g.2.Bounded
end

