-- ==== Sys2Proof/Laws/Exec.lean ====
section
/-! SUPPORT. Each instruction's arm of exec. -/

namespace Sys2Proof.Machine

@[simp] theorem exec_nop (h : Hd) (s : State) :
    exec (.nop h) s = execNop h s := rfl
@[simp] theorem exec_trail (d : Reg) (a : Reg) (b : Reg) (s : State) :
    exec (.trail d a b) s = execTrail d a b s := rfl
@[simp] theorem exec_wait (chain : Bool) (l : BitVec 4) (src : BitVec 4) (t : BitVec 3) (m : BitVec 3) (s : State) :
    exec (.wait chain l src t m) s = execWait chain l src t m s := rfl
@[simp] theorem exec_bra (guard : PredNo) (to_ : Imm36) (s : State) :
    exec (.bra guard to_) s = execBra guard to_ s := rfl
@[simp] theorem exec_brx (guard : PredNo) (a : Reg) (s : State) :
    exec (.brx guard a) s = execBrx guard a s := rfl
@[simp] theorem exec_call (d : Reg) (to_ : Imm36) (s : State) :
    exec (.call d to_) s = execCall d to_ s := rfl
@[simp] theorem exec_ret (guard : PredNo) (a : Reg) (s : State) :
    exec (.ret guard a) s = execRet guard a s := rfl
@[simp] theorem exec_join (s : State) :
    exec .join s = execJoin s := rfl
@[simp] theorem exec_regang (s : State) :
    exec .regang s = execRegang s := rfl
@[simp] theorem exec_exit (guard : PredNo) (s : State) :
    exec (.exit guard) s = execExit guard s := rfl
@[simp] theorem exec_yield (s : State) :
    exec .yield s = execYield s := rfl
@[simp] theorem exec_trap (h : Hd) (code : BitVec 14) (s : State) :
    exec (.trap h code) s = execTrap h code s := rfl
@[simp] theorem exec_brk (h : Hd) (code : BitVec 14) (s : State) :
    exec (.brk h code) s = execBrk h code s := rfl
@[simp] theorem exec_add (h : Hd) (ty : IntTy) (sat : Bool) (d : Reg) (a : Reg) (b : Src) (s : State) :
    exec (.add h ty sat d a b) s = execAdd h ty sat d a b s := rfl
@[simp] theorem exec_sub (h : Hd) (ty : IntTy) (sat : Bool) (d : Reg) (a : Reg) (b : Src) (s : State) :
    exec (.sub h ty sat d a b) s = execSub h ty sat d a b s := rfl
@[simp] theorem exec_addc (h : Hd) (ty : IntTy) (ps : PredNo) (d : Reg) (a : Reg) (b : Src) (s : State) :
    exec (.addc h ty ps d a b) s = execAddc h ty ps d a b s := rfl
@[simp] theorem exec_subb (h : Hd) (ty : IntTy) (ps : PredNo) (d : Reg) (a : Reg) (b : Src) (s : State) :
    exec (.subb h ty ps d a b) s = execSubb h ty ps d a b s := rfl
@[simp] theorem exec_mul (h : Hd) (ty : IntTy) (d : Reg) (a : Reg) (b : Src) (s : State) :
    exec (.mul h ty d a b) s = execMul h ty d a b s := rfl
@[simp] theorem exec_mulh (h : Hd) (ty : IntTy) (d : Reg) (a : Reg) (b : Src) (s : State) :
    exec (.mulh h ty d a b) s = execMulh h ty d a b s := rfl
@[simp] theorem exec_mad (h : Hd) (ty : IntTy) (d : Reg) (a : Reg) (b : Src) (s : State) :
    exec (.mad h ty d a b) s = execMad h ty d a b s := rfl
@[simp] theorem exec_div (h : Hd) (ty : IntTy) (d : Reg) (a : Reg) (b : Src) (s : State) :
    exec (.div h ty d a b) s = execDiv h ty d a b s := rfl
@[simp] theorem exec_rem (h : Hd) (ty : IntTy) (d : Reg) (a : Reg) (b : Src) (s : State) :
    exec (.rem h ty d a b) s = execRem h ty d a b s := rfl
@[simp] theorem exec_min (h : Hd) (ty : IntTy) (d : Reg) (a : Reg) (b : Src) (s : State) :
    exec (.min h ty d a b) s = execMin h ty d a b s := rfl
@[simp] theorem exec_max (h : Hd) (ty : IntTy) (d : Reg) (a : Reg) (b : Src) (s : State) :
    exec (.max h ty d a b) s = execMax h ty d a b s := rfl
@[simp] theorem exec_and (h : Hd) (ty : IntTy) (d : Reg) (a : Reg) (b : Src) (s : State) :
    exec (.and h ty d a b) s = execAnd h ty d a b s := rfl
@[simp] theorem exec_or (h : Hd) (ty : IntTy) (d : Reg) (a : Reg) (b : Src) (s : State) :
    exec (.or h ty d a b) s = execOr h ty d a b s := rfl
@[simp] theorem exec_xor (h : Hd) (ty : IntTy) (d : Reg) (a : Reg) (b : Src) (s : State) :
    exec (.xor h ty d a b) s = execXor h ty d a b s := rfl
@[simp] theorem exec_andn (h : Hd) (ty : IntTy) (d : Reg) (a : Reg) (b : Src) (s : State) :
    exec (.andn h ty d a b) s = execAndn h ty d a b s := rfl
@[simp] theorem exec_orn (h : Hd) (ty : IntTy) (d : Reg) (a : Reg) (b : Src) (s : State) :
    exec (.orn h ty d a b) s = execOrn h ty d a b s := rfl
@[simp] theorem exec_shl (h : Hd) (ty : IntTy) (d : Reg) (a : Reg) (b : Src) (s : State) :
    exec (.shl h ty d a b) s = execShl h ty d a b s := rfl
@[simp] theorem exec_shr (h : Hd) (ty : IntTy) (d : Reg) (a : Reg) (b : Src) (s : State) :
    exec (.shr h ty d a b) s = execShr h ty d a b s := rfl
@[simp] theorem exec_sar (h : Hd) (ty : IntTy) (d : Reg) (a : Reg) (b : Src) (s : State) :
    exec (.sar h ty d a b) s = execSar h ty d a b s := rfl
@[simp] theorem exec_rot (h : Hd) (ty : IntTy) (d : Reg) (a : Reg) (b : Src) (s : State) :
    exec (.rot h ty d a b) s = execRot h ty d a b s := rfl
@[simp] theorem exec_bfx (h : Hd) (ty : IntTy) (d : Reg) (a : Reg) (b : Src) (s : State) :
    exec (.bfx h ty d a b) s = execBfx h ty d a b s := rfl
@[simp] theorem exec_bfi (h : Hd) (ty : IntTy) (d : Reg) (a : Reg) (b : Src) (s : State) :
    exec (.bfi h ty d a b) s = execBfi h ty d a b s := rfl
@[simp] theorem exec_mov (h : Hd) (ty : IntTy) (d : Reg) (a : Reg) (s : State) :
    exec (.mov h ty d a) s = execMov h ty d a s := rfl
@[simp] theorem exec_neg (h : Hd) (ty : IntTy) (sat : Bool) (d : Reg) (a : Reg) (s : State) :
    exec (.neg h ty sat d a) s = execNeg h ty sat d a s := rfl
@[simp] theorem exec_abs (h : Hd) (ty : IntTy) (sat : Bool) (d : Reg) (a : Reg) (s : State) :
    exec (.abs h ty sat d a) s = execAbs h ty sat d a s := rfl
@[simp] theorem exec_popc (h : Hd) (ty : IntTy) (d : Reg) (a : Reg) (s : State) :
    exec (.popc h ty d a) s = execPopc h ty d a s := rfl
@[simp] theorem exec_clz (h : Hd) (ty : IntTy) (d : Reg) (a : Reg) (s : State) :
    exec (.clz h ty d a) s = execClz h ty d a s := rfl
@[simp] theorem exec_ctz (h : Hd) (ty : IntTy) (d : Reg) (a : Reg) (s : State) :
    exec (.ctz h ty d a) s = execCtz h ty d a s := rfl
@[simp] theorem exec_brev (h : Hd) (ty : IntTy) (d : Reg) (a : Reg) (s : State) :
    exec (.brev h ty d a) s = execBrev h ty d a s := rfl
@[simp] theorem exec_perm (h : Hd) (sel : BitVec 16) (d : Reg) (a : Reg) (b : Src) (s : State) :
    exec (.perm h sel d a b) s = execPerm h sel d a b s := rfl
@[simp] theorem exec_sel (h : Hd) (ty : IntTy) (ps : PredNo) (d : Reg) (a : Reg) (b : Src) (s : State) :
    exec (.sel h ty ps d a b) s = execSel h ty ps d a b s := rfl
@[simp] theorem exec_movi (h : Hd) (ty : IntTy) (d : Reg) (im : Imm36) (s : State) :
    exec (.movi h ty d im) s = execMovi h ty d im s := rfl
@[simp] theorem exec_movh (h : Hd) (d : Reg) (im : Imm36) (s : State) :
    exec (.movh h d im) s = execMovh h d im s := rfl
@[simp] theorem exec_lea (h : Hd) (scale : BitVec 3) (z : Bool) (d : Reg) (a : Reg) (b : Src) (s : State) :
    exec (.lea h scale z d a b) s = execLea h scale z d a b s := rfl
@[simp] theorem exec_cmp (h : Hd) (cond : Cond) (ty : IntTy) (pd : PredNo) (a : Reg) (b : Src) (s : State) :
    exec (.cmp h cond ty pd a b) s = execCmp h cond ty pd a b s := rfl
@[simp] theorem exec_plog (h : Hd) (lut : BitVec 4) (pd : PredNo) (pa : PredNo) (pb : PredNo) (s : State) :
    exec (.plog h lut pd pa pb) s = execPlog h lut pd pa pb s := rfl
@[simp] theorem exec_movs (h : Hd) (d : Reg) (r : SpecialReg) (s : State) :
    exec (.movs h d r) s = execMovs h d r s := rfl
@[simp] theorem exec_setxb (h : Hd) (a : Reg) (s : State) :
    exec (.setxb h a) s = execSetxb h a s := rfl
@[simp] theorem exec_pmovToReg (h : Hd) (d : Reg) (s : State) :
    exec (.pmovToReg h d) s = execPmovToReg h d s := rfl
@[simp] theorem exec_pmovToPreds (h : Hd) (mask : BitVec 7) (a : Reg) (s : State) :
    exec (.pmovToPreds h mask a) s = execPmovToPreds h mask a s := rfl
@[simp] theorem exec_bsload (h : Hd) (a : Reg) (s : State) :
    exec (.bsload h a) s = execBsload h a s := rfl
@[simp] theorem exec_bsread (h : Hd) (sx : Bool) (d : Reg) (k : BitVec 7) (s : State) :
    exec (.bsread h sx d k) s = execBsread h sx d k s := rfl
@[simp] theorem exec_ld (h : Hd) (sz : Size) (sx : Bool) (d : Reg) (a : Reg) (off : BitVec 22) (s : State) :
    exec (.ld h sz sx d a off) s = execLd h sz sx d a off s := rfl
@[simp] theorem exec_st (h : Hd) (sz : Size) (d : Reg) (a : Reg) (off : BitVec 22) (s : State) :
    exec (.st h sz d a off) s = execSt h sz d a off s := rfl
@[simp] theorem exec_fadd (h : Hd) (ft : FloatTy) (rm : Round) (d : Reg) (a : Reg) (b : Src) (s : State) :
    exec (.fadd h ft rm d a b) s = execFadd h ft rm d a b s := rfl
@[simp] theorem exec_fsub (h : Hd) (ft : FloatTy) (rm : Round) (d : Reg) (a : Reg) (b : Src) (s : State) :
    exec (.fsub h ft rm d a b) s = execFsub h ft rm d a b s := rfl
@[simp] theorem exec_fmul (h : Hd) (ft : FloatTy) (rm : Round) (d : Reg) (a : Reg) (b : Src) (s : State) :
    exec (.fmul h ft rm d a b) s = execFmul h ft rm d a b s := rfl
@[simp] theorem exec_fma (h : Hd) (ft : FloatTy) (rm : Round) (d : Reg) (a : Reg) (b : Src) (s : State) :
    exec (.fma h ft rm d a b) s = execFma h ft rm d a b s := rfl
@[simp] theorem exec_fma2 (h : Hd) (ft : FloatTy) (rm : Round) (d : Reg) (a : Reg) (b : Reg) (s : State) :
    exec (.fma2 h ft rm d a b) s = execFma2 h ft rm d a b s := rfl
@[simp] theorem exec_fmin (h : Hd) (ft : FloatTy) (d : Reg) (a : Reg) (b : Src) (s : State) :
    exec (.fmin h ft d a b) s = execFmin h ft d a b s := rfl
@[simp] theorem exec_fmax (h : Hd) (ft : FloatTy) (d : Reg) (a : Reg) (b : Src) (s : State) :
    exec (.fmax h ft d a b) s = execFmax h ft d a b s := rfl
@[simp] theorem exec_fcmp (h : Hd) (cond : FCond) (ft : FloatTy) (pd : PredNo) (a : Reg) (b : Src) (s : State) :
    exec (.fcmp h cond ft pd a b) s = execFcmp h cond ft pd a b s := rfl
@[simp] theorem exec_fdiv (h : Hd) (ft : FloatTy) (rm : Round) (d : Reg) (a : Reg) (b : Src) (s : State) :
    exec (.fdiv h ft rm d a b) s = execFdiv h ft rm d a b s := rfl
@[simp] theorem exec_fsqrt (h : Hd) (ft : FloatTy) (rm : Round) (d : Reg) (a : Reg) (s : State) :
    exec (.fsqrt h ft rm d a) s = execFsqrt h ft rm d a s := rfl
@[simp] theorem exec_frcp (h : Hd) (ft : FloatTy) (rm : Round) (d : Reg) (a : Reg) (s : State) :
    exec (.frcp h ft rm d a) s = execFrcp h ft rm d a s := rfl
@[simp] theorem exec_frsq (h : Hd) (ft : FloatTy) (d : Reg) (a : Reg) (s : State) :
    exec (.frsq h ft d a) s = execFrsq h ft d a s := rfl
@[simp] theorem exec_fexp2 (h : Hd) (ft : FloatTy) (d : Reg) (a : Reg) (s : State) :
    exec (.fexp2 h ft d a) s = execFexp2 h ft d a s := rfl
@[simp] theorem exec_flog2 (h : Hd) (ft : FloatTy) (d : Reg) (a : Reg) (s : State) :
    exec (.flog2 h ft d a) s = execFlog2 h ft d a s := rfl
@[simp] theorem exec_fsin (h : Hd) (ft : FloatTy) (d : Reg) (a : Reg) (s : State) :
    exec (.fsin h ft d a) s = execFsin h ft d a s := rfl
@[simp] theorem exec_fcos (h : Hd) (ft : FloatTy) (d : Reg) (a : Reg) (s : State) :
    exec (.fcos h ft d a) s = execFcos h ft d a s := rfl
@[simp] theorem exec_ftanh (h : Hd) (ft : FloatTy) (d : Reg) (a : Reg) (s : State) :
    exec (.ftanh h ft d a) s = execFtanh h ft d a s := rfl
@[simp] theorem exec_fclass (h : Hd) (ft : FloatTy) (d : Reg) (a : Reg) (s : State) :
    exec (.fclass h ft d a) s = execFclass h ft d a s := rfl
@[simp] theorem exec_cvt (h : Hd) (dst : CvtFmt) (src : CvtFmt) (rm : Round) (sat : Bool) (int : Bool) (d : Reg) (a : Reg) (s : State) :
    exec (.cvt h dst src rm sat int d a) s = execCvt h dst src rm sat int d a s := rfl
@[simp] theorem exec_cvtsr (h : Hd) (dst : CvtFmt) (src : CvtFmt) (d : Reg) (a : Reg) (s : State) :
    exec (.cvtsr h dst src d a) s = execCvtsr h dst src d a s := rfl
@[simp] theorem exec_pack (h : Hd) (nf : NarrowFmt) (sr : Bool) (rm : Round) (half : Bool) (j : BitVec 2) (d : Reg) (a : Reg) (b : Src) (s : State) :
    exec (.pack h nf sr rm half j d a b) s = execPack h nf sr rm half j d a b s := rfl
@[simp] theorem exec_unpack (h : Hd) (nf : NarrowFmt) (half : Bool) (ix : BitVec 3) (d : Reg) (a : Reg) (s : State) :
    exec (.unpack h nf half ix d a) s = execUnpack h nf half ix d a s := rfl
@[simp] theorem exec_dot4 (h : Hd) (fmt : DotFmt) (alt : Bool) (half : Bool) (sc : Option DotScale) (d : Reg) (a : Reg) (b : Reg) (s : State) :
    exec (.dot4 h fmt alt half sc d a b) s = execDot4 h fmt alt half sc d a b s := rfl
@[simp] theorem exec_dot6 (h : Hd) (fmt : DotFmt) (alt : Bool) (half : Bool) (sc : Option DotScale) (d : Reg) (a : Reg) (b : Reg) (s : State) :
    exec (.dot6 h fmt alt half sc d a b) s = execDot6 h fmt alt half sc d a b s := rfl
@[simp] theorem exec_dot8 (h : Hd) (fmt : DotFmt) (alt : Bool) (half : Bool) (sc : Option DotScale) (d : Reg) (a : Reg) (b : Reg) (s : State) :
    exec (.dot8 h fmt alt half sc d a b) s = execDot8 h fmt alt half sc d a b s := rfl
@[simp] theorem exec_scale (h : Hd) (ft : FloatTy) (rm : Round) (map : ScaleMap) (sr : Reg) (inv : Bool) (sel : BitVec 2) (d : Reg) (a : Reg) (s : State) :
    exec (.scale h ft rm map sr inv sel d a) s = execScale h ft rm map sr inv sel d a s := rfl
@[simp] theorem exec_rndseed (h : Hd) (a : Reg) (s : State) :
    exec (.rndseed h a) s = execRndseed h a s := rfl
@[simp] theorem exec_rnd (h : Hd) (kind : RndKind) (d : Reg) (s : State) :
    exec (.rnd h kind d) s = execRnd h kind d s := rfl
@[simp] theorem exec_shfl (h : Hd) (mode : ShflMode) (w : SegWidth) (x64 : Bool) (d : Reg) (a : Reg) (b : Src) (s : State) :
    exec (.shfl h mode w x64 d a b) s = execShfl h mode w x64 d a b s := rfl
@[simp] theorem exec_push (h : Hd) (x64 : Bool) (d : Reg) (a : Reg) (b : Src) (s : State) :
    exec (.push h x64 d a b) s = execPush h x64 d a b s := rfl
@[simp] theorem exec_bfly (h : Hd) (x64 : Bool) (k : BflyK) (d : Reg) (a : Reg) (s : State) :
    exec (.bfly h x64 k d a) s = execBfly h x64 k d a s := rfl
@[simp] theorem exec_vote (h : Hd) (mode : VoteMode) (d : Reg) (pa : PredNo) (s : State) :
    exec (.vote h mode d pa) s = execVote h mode d pa s := rfl
@[simp] theorem exec_matchLanes (h : Hd) (x64 : Bool) (d : Reg) (a : Reg) (s : State) :
    exec (.matchLanes h x64 d a) s = execMatchLanes h x64 d a s := rfl
@[simp] theorem exec_redx (h : Hd) (op : RedOp) (ty : IntTy) (w : SegWidth) (d : Reg) (a : Reg) (s : State) :
    exec (.redx h op ty w d a) s = execRedx h op ty w d a s := rfl
@[simp] theorem exec_scanx (h : Hd) (op : RedOp) (ty : IntTy) (excl : Bool) (w : SegWidth) (d : Reg) (a : Reg) (s : State) :
    exec (.scanx h op ty excl w d a) s = execScanx h op ty excl w d a s := rfl
@[simp] theorem exec_barSync (chain : Bool) (g : BitVec 9) (s : State) :
    exec (.barSync chain g) s = execBarSync chain g s := rfl
@[simp] theorem exec_barArrive (chain : Bool) (g : BitVec 9) (s : State) :
    exec (.barArrive chain g) s = execBarArrive chain g s := rfl
@[simp] theorem exec_barWait (chain : Bool) (g : BitVec 9) (s : State) :
    exec (.barWait chain g) s = execBarWait chain g s := rfl
@[simp] theorem exec_grow (chain : Bool) (n : BitVec 14) (s : State) :
    exec (.grow chain n) s = execGrow chain n s := rfl
@[simp] theorem exec_shrink (chain : Bool) (n : BitVec 14) (s : State) :
    exec (.shrink chain n) s = execShrink chain n s := rfl
@[simp] theorem exec_launch (h : Hd) (d : Reg) (a : Reg) (b : Src) (s : State) :
    exec (.launch h d a b) s = execLaunch h d a b s := rfl
@[simp] theorem exec_arm (h : Hd) (a : Reg) (s : State) :
    exec (.arm h a) s = execArm h a s := rfl
@[simp] theorem exec_take (chain : Bool) (s : State) :
    exec (.take chain) s = execTake chain s := rfl
@[simp] theorem exec_pass (chain : Bool) (s : State) :
    exec (.pass chain) s = execPass chain s := rfl
@[simp] theorem exec_rxwin (chain : Bool) (n : BitVec 7) (d : Reg) (base : BitVec 7) (s : State) :
    exec (.rxwin chain n d base) s = execRxwin chain n d base s := rfl
@[simp] theorem exec_ldOrdered (h : Hd) (sz : Size) (sx : Bool) (acq : Bool) (scope : Scope) (d : Reg) (a : Reg) (off : BitVec 22) (s : State) :
    exec (.ldOrdered h sz sx acq scope d a off) s = execLdOrdered h sz sx acq scope d a off s := rfl
@[simp] theorem exec_stOrdered (h : Hd) (sz : Size) (rel : Bool) (scope : Scope) (d : Reg) (a : Reg) (off : BitVec 22) (s : State) :
    exec (.stOrdered h sz rel scope d a off) s = execStOrdered h sz rel scope d a off s := rfl
@[simp] theorem exec_lds (h : Hd) (sz : SSize) (sx : Bool) (d : Reg) (a : Reg) (off : BitVec 22) (s : State) :
    exec (.lds h sz sx d a off) s = execLds h sz sx d a off s := rfl
@[simp] theorem exec_sts (h : Hd) (sz : SSize) (d : Reg) (a : Reg) (off : BitVec 22) (s : State) :
    exec (.sts h sz d a off) s = execSts h sz d a off s := rfl
@[simp] theorem exec_ldp (h : Hd) (sz : SSize) (sx : Bool) (d : Reg) (a : Reg) (off : BitVec 22) (s : State) :
    exec (.ldp h sz sx d a off) s = execLdp h sz sx d a off s := rfl
@[simp] theorem exec_stp (h : Hd) (sz : SSize) (d : Reg) (a : Reg) (off : BitVec 22) (s : State) :
    exec (.stp h sz d a off) s = execStp h sz d a off s := rfl
@[simp] theorem exec_ldfe (h : Hd) (sz : SSize) (sx : Bool) (clear : Bool) (d : Reg) (a : Reg) (off : BitVec 22) (s : State) :
    exec (.ldfe h sz sx clear d a off) s = execLdfe h sz sx clear d a off s := rfl
@[simp] theorem exec_stfe (h : Hd) (d : Reg) (a : Reg) (off : BitVec 22) (s : State) :
    exec (.stfe h d a off) s = execStfe h d a off s := rfl
@[simp] theorem exec_atom (h : Hd) (op : AtomOp) (ty : AtomTy) (ord : Order) (scope : Scope) (noret : Bool) (d : Reg) (a : Reg) (off : BitVec 22) (s : State) :
    exec (.atom h op ty ord scope noret d a off) s = execAtom h op ty ord scope noret d a off s := rfl
@[simp] theorem exec_red (h : Hd) (op : AtomOp) (ty : AtomTy) (rel : Bool) (scope : Scope) (d : Reg) (a : Reg) (off : BitVec 22) (s : State) :
    exec (.red h op ty rel scope d a off) s = execRed h op ty rel scope d a off s := rfl
@[simp] theorem exec_fence (h : Hd) (ord : FenceOrder) (scope : Scope) (als : Bool) (s : State) :
    exec (.fence h ord scope als) s = execFence h ord scope als s := rfl
@[simp] theorem exec_cflush (h : Hd) (die : Bool) (a : Reg) (off : BitVec 22) (s : State) :
    exec (.cflush h die a off) s = execCflush h die a off s := rfl
@[simp] theorem exec_cinv (h : Hd) (die : Bool) (a : Reg) (off : BitVec 22) (s : State) :
    exec (.cinv h die a off) s = execCinv h die a off s := rfl
@[simp] theorem exec_pref (h : Hd) (l2 : Bool) (a : Reg) (off : BitVec 22) (s : State) :
    exec (.pref h l2 a off) s = execPref h l2 a off s := rfl
@[simp] theorem exec_talloc (h : Hd) (isB : Bool) (any : Bool) (n : BitVec 5) (d : Reg) (s : State) :
    exec (.talloc h isB any n d) s = execTalloc h isB any n d s := rfl
@[simp] theorem exec_tfree (h : Hd) (isB : Bool) (n : BitVec 5) (s : State) :
    exec (.tfree h isB n) s = execTfree h isB n s := rfl
@[simp] theorem exec_tloadb (h : Hd) (fmt : TileFmt) (orientT : Bool) (sparse : Bool) (bh : BitVec 3) (a : Reg) (off : BitVec 22) (s : State) :
    exec (.tloadb h fmt orientT sparse bh a off) s = execTloadb h fmt orientT sparse bh a off s := rfl
@[simp] theorem exec_tmma (h : Hd) (tri : Bool) (af : TileFmt) (bh : BitVec 3) (acc : BitVec 4) (ro : Reg) (so : Reg) (c : Reg) (s : State) :
    exec (.tmma h tri af bh acc ro so c) s = execTmma h tri af bh acc ro so c s := rfl
@[simp] theorem exec_tzero (h : Hd) (acc : BitVec 4) (s : State) :
    exec (.tzero h acc) s = execTzero h acc s := rfl
@[simp] theorem exec_tcfg (h : Hd) (sr : Bool) (reseed : Bool) (acc : BitVec 4) (a : Reg) (s : State) :
    exec (.tcfg h sr reseed acc a) s = execTcfg h sr reseed acc a s := rfl
@[simp] theorem exec_tread (h : Hd) (acc : BitVec 4) (n : BitVec 3) (a : Reg) (s : State) :
    exec (.tread h acc n a) s = execTread h acc n a s := rfl
@[simp] theorem exec_tstore (h : Hd) (tf : StoreFmt) (scope : EngScope) (sr : Bool) (acc : BitVec 4) (a : Reg) (off : BitVec 22) (s : State) :
    exec (.tstore h tf scope sr acc a off) s = execTstore h tf scope sr acc a off s := rfl
@[simp] theorem exec_cpy (h : Hd) (sz : CSize) (scope : EngScope) (d : Reg) (a : Reg) (off : BitVec 22) (s : State) :
    exec (.cpy h sz scope d a off) s = execCpy h sz scope d a off s := rfl
@[simp] theorem exec_cpyt (h : Hd) (scope : EngScope) (ind : Bool) (ks : BitVec 2) (kf : BitVec 2) (kd : BitVec 2) (od : Reg) (of_ : Reg) (os : Reg) (s : State) :
    exec (.cpyt h scope ind ks kf kd od of_ os) s = execCpyt h scope ind ks kf kd od of_ os s := rfl
@[simp] theorem exec_lrec (h : Hd) (k : BitVec 2) (a : Reg) (off : BitVec 22) (s : State) :
    exec (.lrec h k a off) s = execLrec h k a off s := rfl
@[simp] theorem exec_seal (h : Hd) (q : Bool) (s : State) :
    exec (.seal h q) s = execSeal h q s := rfl
@[simp] theorem exec_bwait (h : Hd) (n : BitVec 8) (s : State) :
    exec (.bwait h n) s = execBwait h n s := rfl
@[simp] theorem exec_bookld (h : Hd) (e16 : Bool) (a : Reg) (off : BitVec 22) (s : State) :
    exec (.bookld h e16 a off) s = execBookld h e16 a off s := rfl
@[simp] theorem exec_bookldUnpin (h : Hd) (a : Reg) (off : BitVec 22) (s : State) :
    exec (.bookldUnpin h a off) s = execBookldUnpin h a off s := rfl
@[simp] theorem exec_bookq (h : Hd) (e16 : Bool) (a : Reg) (b : Reg) (s : State) :
    exec (.bookq h e16 a b) s = execBookq h e16 a b s := rfl
@[simp] theorem exec_ired (h : Hd) (kt : BitVec 2) (ko : BitVec 2) (acc : Bool) (bag : Reg) (d : Reg) (a : Reg) (off : BitVec 22) (s : State) :
    exec (.ired h kt ko acc bag d a off) s = execIred h kt ko acc bag d a off s := rfl
@[simp] theorem exec_bcw (h : Hd) (sz : CSize) (d : Reg) (a : Reg) (off : BitVec 22) (s : State) :
    exec (.bcw h sz d a off) s = execBcw h sz d a off s := rfl
@[simp] theorem exec_radd (h : Hd) (ty : RaddTy) (vc : Vc) (d : Reg) (a : Reg) (off : BitVec 22) (s : State) :
    exec (.radd h ty vc d a off) s = execRadd h ty vc d a off s := rfl
@[simp] theorem exec_rmin (h : Hd) (ty : RminTy) (vc : Vc) (d : Reg) (a : Reg) (off : BitVec 22) (s : State) :
    exec (.rmin h ty vc d a off) s = execRmin h ty vc d a off s := rfl
@[simp] theorem exec_rmax (h : Hd) (ty : RminTy) (vc : Vc) (d : Reg) (a : Reg) (off : BitVec 22) (s : State) :
    exec (.rmax h ty vc d a off) s = execRmax h ty vc d a off s := rfl
@[simp] theorem exec_ror (h : Hd) (b64 : Bool) (vc : Vc) (d : Reg) (a : Reg) (off : BitVec 22) (s : State) :
    exec (.ror h b64 vc d a off) s = execRor h b64 vc d a off s := rfl
@[simp] theorem exec_rwo (h : Hd) (n : BitVec 4) (vc : Vc) (d : Reg) (a : Reg) (off : BitVec 22) (s : State) :
    exec (.rwo h n vc d a off) s = execRwo h n vc d a off s := rfl
@[simp] theorem exec_rarv (h : Hd) (vc : Vc) (d : Reg) (a : Reg) (off : BitVec 22) (s : State) :
    exec (.rarv h vc d a off) s = execRarv h vc d a off s := rfl
@[simp] theorem exec_rget (h : Hd) (n : BitVec 4) (rx : Reg) (vc : Vc) (d : Reg) (a : Reg) (off : BitVec 22) (s : State) :
    exec (.rget h n rx vc d a off) s = execRget h n rx vc d a off s := rfl
@[simp] theorem exec_await (h : Hd) (d : Reg) (a : Reg) (off : BitVec 22) (s : State) :
    exec (.await h d a off) s = execAwait h d a off s := rfl
@[simp] theorem exec_rfence (chain : Bool) (d : Reg) (s : State) :
    exec (.rfence chain d) s = execRfence chain d s := rfl
@[simp] theorem exec_accrd (h : Hd) (bf16 : Bool) (d : Reg) (a : Reg) (off : BitVec 22) (s : State) :
    exec (.accrd h bf16 d a off) s = execAccrd h bf16 d a off s := rfl
@[simp] theorem exec_accclr (h : Hd) (vc : Vc) (a : Reg) (off : BitVec 22) (s : State) :
    exec (.accclr h vc a off) s = execAccclr h vc a off s := rfl
@[simp] theorem exec_mig (h : Hd) (d : Reg) (s : State) :
    exec (.mig h d) s = execMig h d s := rfl
@[simp] theorem exec_home (s : State) :
    exec .home s = execHome s := rfl
@[simp] theorem exec_coll (h : Hd) (n : BitVec 4) (arv : Bool) (rx : Reg) (vc : Vc) (d : Reg) (a : Reg) (off : BitVec 22) (s : State) :
    exec (.coll h n arv rx vc d a off) s = execColl h n arv rx vc d a off s := rfl
@[simp] theorem exec_svc (h : Hd) (code : BitVec 14) (s : State) :
    exec (.svc h code) s = execSvc h code s := rfl
@[simp] theorem exec_eret (h : Hd) (a : Reg) (s : State) :
    exec (.eret h a) s = execEret h a s := rfl
@[simp] theorem exec_halt (h : Hd) (d : Reg) (a : Reg) (s : State) :
    exec (.halt h d a) s = execHalt h d a s := rfl
@[simp] theorem exec_movswLstat (h : Hd) (src : Reg) (s : State) :
    exec (.movswLstat h src) s = execMovswLstat h src s := rfl
@[simp] theorem exec_movswChkey (h : Hd) (src : Reg) (s : State) :
    exec (.movswChkey h src) s = execMovswChkey h src s := rfl
@[simp] theorem exec_movswChmode (h : Hd) (src : Reg) (s : State) :
    exec (.movswChmode h src) s = execMovswChmode h src s := rfl
@[simp] theorem exec_movswChconf (h : Hd) (src : Reg) (s : State) :
    exec (.movswChconf h src) s = execMovswChconf h src s := rfl
@[simp] theorem exec_movsw (h : Hd) (r : SysReg) (src : Reg) (s : State) :
    exec (.movsw h r src) s = execMovsw h r src s := rfl
@[simp] theorem exec_tlbinvPage (h : Hd) (a : Reg) (s : State) :
    exec (.tlbinvPage h a) s = execTlbinvPage h a s := rfl
@[simp] theorem exec_tlbinvAll (h : Hd) (s : State) :
    exec (.tlbinvAll h) s = execTlbinvAll h s := rfl
@[simp] theorem exec_runStart (core : Nat) (gang : Nat) (cohort : Nat) (slot : Nat) (s : State) :
    exec (.runStart core gang cohort slot) s = execRunStart core gang cohort slot s := rfl
@[simp] theorem exec_longLatencyWrite (op : Nat) (s : State) :
    exec (.longLatencyWrite op) s = execLongLatencyWrite op s := rfl
@[simp] theorem exec_accessPerformed (op : Nat) (lane : Nat) (s : State) :
    exec (.accessPerformed op lane) s = execAccessPerformed op lane s := rfl
@[simp] theorem exec_faultRecordDelivery (rcd : Nat) (s : State) :
    exec (.faultRecordDelivery rcd) s = execFaultRecordDelivery rcd s := rfl
@[simp] theorem exec_blockPlacement (die : Nat) (rook : Bool) (s : State) :
    exec (.blockPlacement die rook) s = execBlockPlacement die rook s := rfl
@[simp] theorem exec_blockHalted (block : Nat) (s : State) :
    exec (.blockHalted block) s = execBlockHalted block s := rfl
@[simp] theorem exec_gangSave (gang : Nat) (s : State) :
    exec (.gangSave gang) s = execGangSave gang s := rfl
@[simp] theorem exec_blockSaveComplete (block : Nat) (s : State) :
    exec (.blockSaveComplete block) s = execBlockSaveComplete block s := rfl
@[simp] theorem exec_blockRestore (block : Nat) (s : State) :
    exec (.blockRestore block) s = execBlockRestore block s := rfl
@[simp] theorem exec_blockRetirement (block : Nat) (s : State) :
    exec (.blockRetirement block) s = execBlockRetirement block s := rfl
@[simp] theorem exec_taskRetirement (task : Nat) (s : State) :
    exec (.taskRetirement task) s = execTaskRetirement task s := rfl
@[simp] theorem exec_bufferedRecordArrival (rcd : Nat) (s : State) :
    exec (.bufferedRecordArrival rcd) s = execBufferedRecordArrival rcd s := rfl
@[simp] theorem exec_matrixPassBegin (core : Nat) (macro_ : Nat) (s : State) :
    exec (.matrixPassBegin core macro_) s = execMatrixPassBegin core macro_ s := rfl
@[simp] theorem exec_matrixPassComplete (core : Nat) (macro_ : Nat) (s : State) :
    exec (.matrixPassComplete core macro_) s = execMatrixPassComplete core macro_ s := rfl
@[simp] theorem exec_tloadbBegin (op : Nat) (s : State) :
    exec (.tloadbBegin op) s = execTloadbBegin op s := rfl
@[simp] theorem exec_tloadbFinish (op : Nat) (s : State) :
    exec (.tloadbFinish op) s = execTloadbFinish op s := rfl
@[simp] theorem exec_tzeroEffect (op : Nat) (s : State) :
    exec (.tzeroEffect op) s = execTzeroEffect op s := rfl
@[simp] theorem exec_tcfgEffect (op : Nat) (s : State) :
    exec (.tcfgEffect op) s = execTcfgEffect op s := rfl
@[simp] theorem exec_treadDelivery (op : Nat) (s : State) :
    exec (.treadDelivery op) s = execTreadDelivery op s := rfl
@[simp] theorem exec_tstorePerform (op : Nat) (s : State) :
    exec (.tstorePerform op) s = execTstorePerform op s := rfl
@[simp] theorem exec_handleFreed (op : Nat) (s : State) :
    exec (.handleFreed op) s = execHandleFreed op s := rfl
@[simp] theorem exec_lrecRead (op : Nat) (s : State) :
    exec (.lrecRead op) s = execLrecRead op s := rfl
@[simp] theorem exec_cpyCompletion (op : Nat) (s : State) :
    exec (.cpyCompletion op) s = execCpyCompletion op s := rfl
@[simp] theorem exec_cpytExecution (op : Nat) (s : State) :
    exec (.cpytExecution op) s = execCpytExecution op s := rfl
@[simp] theorem exec_batchFinish (gang : Nat) (lane : Nat) (s : State) :
    exec (.batchFinish gang lane) s = execBatchFinish gang lane s := rfl
@[simp] theorem exec_iredCommand (op : Nat) (s : State) :
    exec (.iredCommand op) s = execIredCommand op s := rfl
@[simp] theorem exec_bookPin (op : Nat) (lane : Nat) (s : State) :
    exec (.bookPin op lane) s = execBookPin op lane s := rfl
@[simp] theorem exec_bookQuery (op : Nat) (s : State) :
    exec (.bookQuery op) s = execBookQuery op s := rfl
@[simp] theorem exec_columnAccess (op : Nat) (lane : Nat) (s : State) :
    exec (.columnAccess op lane) s = execColumnAccess op lane s := rfl
@[simp] theorem exec_promotionEntry (die : Nat) (ch : Nat) (s : State) :
    exec (.promotionEntry die ch) s = execPromotionEntry die ch s := rfl
@[simp] theorem exec_promotionExit (die : Nat) (ch : Nat) (s : State) :
    exec (.promotionExit die ch) s = execPromotionExit die ch s := rfl
@[simp] theorem exec_selfRefreshEntry (die : Nat) (ch : Nat) (s : State) :
    exec (.selfRefreshEntry die ch) s = execSelfRefreshEntry die ch s := rfl
@[simp] theorem exec_selfRefreshExit (die : Nat) (ch : Nat) (s : State) :
    exec (.selfRefreshExit die ch) s = execSelfRefreshExit die ch s := rfl
@[simp] theorem exec_powerDownRequest (die : Nat) (ch : Nat) (s : State) :
    exec (.powerDownRequest die ch) s = execPowerDownRequest die ch s := rfl
@[simp] theorem exec_retransmission (die : Nat) (eng : Nat) (s : State) :
    exec (.retransmission die eng) s = execRetransmission die eng s := rfl
@[simp] theorem exec_raddPacket (n : Nat) (s : State) :
    exec (.raddPacket n) s = execRaddPacket n s := rfl
@[simp] theorem exec_rminPacket (n : Nat) (s : State) :
    exec (.rminPacket n) s = execRminPacket n s := rfl
@[simp] theorem exec_rmaxPacket (n : Nat) (s : State) :
    exec (.rmaxPacket n) s = execRmaxPacket n s := rfl
@[simp] theorem exec_rorPacket (n : Nat) (s : State) :
    exec (.rorPacket n) s = execRorPacket n s := rfl
@[simp] theorem exec_rwoPacket (n : Nat) (s : State) :
    exec (.rwoPacket n) s = execRwoPacket n s := rfl
@[simp] theorem exec_rarvPacket (n : Nat) (s : State) :
    exec (.rarvPacket n) s = execRarvPacket n s := rfl
@[simp] theorem exec_rgetPacket (n : Nat) (s : State) :
    exec (.rgetPacket n) s = execRgetPacket n s := rfl
@[simp] theorem exec_replyPacket (n : Nat) (s : State) :
    exec (.replyPacket n) s = execReplyPacket n s := rfl
@[simp] theorem exec_rgetArrivalSend (job : Nat) (s : State) :
    exec (.rgetArrivalSend job) s = execRgetArrivalSend job s := rfl
@[simp] theorem exec_ackPacket (n : Nat) (s : State) :
    exec (.ackPacket n) s = execAckPacket n s := rfl
@[simp] theorem exec_armingPacket (n : Nat) (s : State) :
    exec (.armingPacket n) s = execArmingPacket n s := rfl
@[simp] theorem exec_accclrPacket (n : Nat) (s : State) :
    exec (.accclrPacket n) s = execAccclrPacket n s := rfl
@[simp] theorem exec_resumePacket (n : Nat) (s : State) :
    exec (.resumePacket n) s = execResumePacket n s := rfl
@[simp] theorem exec_collPacket (n : Nat) (s : State) :
    exec (.collPacket n) s = execCollPacket n s := rfl
@[simp] theorem exec_plyDeparture (ply : Nat) (s : State) :
    exec (.plyDeparture ply) s = execPlyDeparture ply s := rfl
@[simp] theorem exec_plyPacket (n : Nat) (s : State) :
    exec (.plyPacket n) s = execPlyPacket n s := rfl
@[simp] theorem exec_refusedPlyArrival (n : Nat) (s : State) :
    exec (.refusedPlyArrival n) s = execRefusedPlyArrival n s := rfl
@[simp] theorem exec_returnPlyArrival (n : Nat) (s : State) :
    exec (.returnPlyArrival n) s = execReturnPlyArrival n s := rfl
@[simp] theorem exec_guestGangFormation (core : Nat) (s : State) :
    exec (.guestGangFormation core) s = execGuestGangFormation core s := rfl
@[simp] theorem exec_fenceNotice (n : Nat) (s : State) :
    exec (.fenceNotice n) s = execFenceNotice n s := rfl
@[simp] theorem exec_unitFence (pkg : Nat) (unit : FenceUnit) (s : State) :
    exec (.unitFence pkg unit) s = execUnitFence pkg unit s := rfl
@[simp] theorem exec_hdmAccess (pkg : Nat) (link : Nat) (die : Nat) (pa : Nat) (len : Nat) (write : Option HostWrite) (s : State) :
    exec (.hdmAccess pkg link die pa len write) s = execHdmAccess pkg link die pa len write s := rfl
@[simp] theorem exec_armwin (die : Nat) (link : Nat) (size : Nat) (value : Nat) (s : State) :
    exec (.armwin die link size value) s = execArmwin die link size value s := rfl
@[simp] theorem exec_armstat (die : Nat) (size : Nat) (value : Nat) (s : State) :
    exec (.armstat die size value) s = execArmstat die size value s := rfl
@[simp] theorem exec_devstat (die : Nat) (size : Nat) (value : Nat) (s : State) :
    exec (.devstat die size value) s = execDevstat die size value s := rfl
@[simp] theorem exec_woconf (die : Nat) (size : Nat) (value : Nat) (s : State) :
    exec (.woconf die size value) s = execWoconf die size value s := rfl
@[simp] theorem exec_configRegisterWrite (die : Nat) (offset : Nat) (size : Nat) (value : Nat) (s : State) :
    exec (.configRegisterWrite die offset size value) s = execConfigRegisterWrite die offset size value s := rfl
@[simp] theorem exec_getid (pkg : Nat) (link : Nat) (s : State) :
    exec (.getid pkg link) s = execGetid pkg link s := rfl
@[simp] theorem exec_attest (pkg : Nat) (link : Nat) (nonce : Nat) (s : State) :
    exec (.attest pkg link nonce) s = execAttest pkg link nonce s := rfl
@[simp] theorem exec_extend (pkg : Nat) (link : Nat) (mr : Nat) (data : List Byte) (s : State) :
    exec (.extend pkg link mr data) s = execExtend pkg link mr data s := rfl
@[simp] theorem exec_kemkey (pkg : Nat) (link : Nat) (s : State) :
    exec (.kemkey pkg link) s = execKemkey pkg link s := rfl
@[simp] theorem exec_form (pkg : Nat) (link : Nat) (body : FormBody) (s : State) :
    exec (.form pkg link body) s = execForm pkg link body s := rfl
@[simp] theorem exec_revoke (pkg : Nat) (link : Nat) (gen : Nat) (part : Nat) (sigs : List Signature) (s : State) :
    exec (.revoke pkg link gen part sigs) s = execRevoke pkg link gen part sigs s := rfl
@[simp] theorem exec_dissolve (pkg : Nat) (link : Nat) (gen : Nat) (sigs : List Signature) (s : State) :
    exec (.dissolve pkg link gen sigs) s = execDissolve pkg link gen sigs s := rfl
@[simp] theorem exec_status (pkg : Nat) (link : Nat) (s : State) :
    exec (.status pkg link) s = execStatus pkg link s := rfl
@[simp] theorem exec_startUp (pkg : Nat) (report : StartReport) (s : State) :
    exec (.startUp pkg report) s = execStartUp pkg report s := rfl
@[simp] theorem exec_railLimiterTrip (die : Nat) (island : Nat) (s : State) :
    exec (.railLimiterTrip die island) s = execRailLimiterTrip die island s := rfl
@[simp] theorem exec_thermalThrottle (pkg : Nat) (die : Nat) (s : State) :
    exec (.thermalThrottle pkg die) s = execThermalThrottle pkg die s := rfl
@[simp] theorem exec_thermalRecovery (pkg : Nat) (die : Nat) (s : State) :
    exec (.thermalRecovery pkg die) s = execThermalRecovery pkg die s := rfl
@[simp] theorem exec_thermalShutdown (pkg : Nat) (s : State) :
    exec (.thermalShutdown pkg) s = execThermalShutdown pkg s := rfl
@[simp] theorem exec_cyclesAdvance (die : Nat) (s : State) :
    exec (.cyclesAdvance die) s = execCyclesAdvance die s := rfl
@[simp] theorem exec_powerDownExit (die : Nat) (ch : Nat) (s : State) :
    exec (.powerDownExit die ch) s = execPowerDownExit die ch s := rfl

end Sys2Proof.Machine
end

