-- ==== Sys2Proof/Laws/Tab.lean ====
section
/-! SUPPORT. What the operations over sparse tables, lane sets and lists of numbers do. -/

namespace Sys2Proof.Machine

variable {α : Type}

/-- What every step of a fold keeps, the fold keeps. -/
theorem foldl_keeps {σ β : Type} (P : σ → Prop) (f : σ → β → σ) (h : ∀ s b, P s → P (f s b)) (l : List β) (s : σ) (hs : P s) :
    P (l.foldl f s) := by
  induction l generalizing s with
  | nil => exact hs
  | cons b l ih => exact ih _ (h s b hs)

/-! ## Sparse tables -/

@[simp] theorem tabFind_nil (k : Nat) : tabFind ([] : Tab α) k = none := rfl
@[simp] theorem tabGet_nil (d : α) (k : Nat) : tabGet ([] : Tab α) d k = d := rfl

theorem tabFind_tabPut (t : Tab α) (k n : Nat) (v : α) :
    tabFind (tabPut t k v) n = if k = n then some v else tabFind t n := by
  induction t with
  | nil => simp [tabPut, tabFind]
  | cons p t ih =>
    obtain ⟨k', v'⟩ := p
    simp only [tabPut]
    split
    · next h => subst h; simp only [tabFind]; split <;> simp_all
    · split
      · simp only [tabFind]
      · simp only [tabFind, ih]
        split
        · next h1 h2 h3 => subst h3; simp [Ne.symm h1]
        · rfl

@[simp] theorem tabFind_tabPut_self (t : Tab α) (k : Nat) (v : α) : tabFind (tabPut t k v) k = some v := by
  simp [tabFind_tabPut]
theorem tabFind_tabPut_ne (t : Tab α) {k n : Nat} (v : α) (h : k ≠ n) : tabFind (tabPut t k v) n = tabFind t n := by
  simp [tabFind_tabPut, h]

theorem tabGet_tabPut (t : Tab α) (d v : α) (k n : Nat) :
    tabGet (tabPut t k v) d n = if k = n then v else tabGet t d n := by
  simp only [tabGet, tabFind_tabPut]
  split <;> rfl
@[simp] theorem tabGet_tabPut_self (t : Tab α) (d v : α) (k : Nat) : tabGet (tabPut t k v) d k = v := by
  simp [tabGet_tabPut]
theorem tabGet_tabPut_ne (t : Tab α) (d v : α) {k n : Nat} (h : k ≠ n) : tabGet (tabPut t k v) d n = tabGet t d n := by
  simp [tabGet_tabPut, h]

/-- A second entry under one key takes the place of the first. -/
@[simp] theorem tabPut_tabPut (t : Tab α) (k : Nat) (v w : α) : tabPut (tabPut t k v) k w = tabPut t k w := by
  induction t with
  | nil => simp [tabPut]
  | cons p t ih =>
    obtain ⟨k', v'⟩ := p
    simp only [tabPut]
    split
    · simp [tabPut]
    · split
      · simp [tabPut]
      · next h1 h2 => simp [tabPut, h1, h2, ih]

theorem tabFind_tabDel (t : Tab α) (k n : Nat) : tabFind (tabDel t k) n = if k = n then none else tabFind t n := by
  induction t with
  | nil => simp [tabDel, tabFind]
  | cons p t ih =>
    obtain ⟨k', v'⟩ := p
    simp only [tabDel, List.filter_cons, tabFind] at ih ⊢
    by_cases h1 : k' = k <;> by_cases h2 : k = n <;> by_cases h3 : k' = n <;> simp_all [tabFind]

theorem tabFind_tabMod (t : Tab α) (k n : Nat) (f : α → α) :
    tabFind (tabMod t k f) n = if k = n then (tabFind t n).map f else tabFind t n := by
  unfold tabMod
  split
  · next v h => rw [tabFind_tabPut]; split <;> simp_all
  · next h => split <;> simp_all
/-- What a change of an entry keeps, looking the table up keeps. -/
theorem tabGet_tabMod_keep {β : Type} (t : Tab α) (d : α) (k n : Nat) {f : α → α} {g : α → β} (h : ∀ v, g (f v) = g v) :
    g (tabGet (tabMod t k f) d n) = g (tabGet t d n) := by
  simp only [tabGet, tabFind_tabMod]
  by_cases hk : k = n
  · subst hk; cases tabFind t k <;> simp [h]
  · simp [hk]

/-! ## Lane sets -/

theorem mem_lanesIn (m : LaneSet) (l : Nat) : l ∈ lanesIn m ↔ hasLane m l = true := by
  simp only [lanesIn, hasLane, List.mem_filter, List.mem_range, and_iff_right_iff_imp]
  intro h
  exact BitVec.lt_of_getLsbD h
theorem hasLane_lt {m : LaneSet} {l : Nat} (h : hasLane m l = true) : l < 32 := BitVec.lt_of_getLsbD h
theorem lanesIn_nodup (m : LaneSet) : (lanesIn m).Nodup := List.Nodup.filter _ List.nodup_range
theorem lanesIn_zero : lanesIn 0 = [] := by decide

end Sys2Proof.Machine
end

