-- ==== Sys2Proof/Laws/Lanes.lean ====
section
/-! SUPPORT. What lanes write: the registers, predicates and flags of a lane, and of every lane of a set. -/

namespace Sys2Proof.Machine

/-! ## One register -/

@[simp] theorem Lanes.setReg_preds (L : Lanes) (xb l f : Nat) (v : Word) : (L.setReg xb l f v).preds = L.preds := by
  unfold Lanes.setReg; split <;> [rfl; split <;> rfl]
@[simp] theorem Lanes.setReg_lstat (L : Lanes) (xb l f : Nat) (v : Word) : (L.setReg xb l f v).lstat = L.lstat := by
  unfold Lanes.setReg; split <;> [rfl; split <;> rfl]
@[simp] theorem Lanes.setReg_cursor (L : Lanes) (xb l f : Nat) (v : Word) : (L.setReg xb l f v).cursor = L.cursor := by
  unfold Lanes.setReg; split <;> [rfl; split <;> rfl]
@[simp] theorem Lanes.setReg_g0 (L : Lanes) (xb l f : Nat) (v : Word) : (L.setReg xb l f v).g0 = L.g0 := by
  unfold Lanes.setReg; split <;> [rfl; split <;> rfl]
@[simp] theorem Lanes.setReg_g1 (L : Lanes) (xb l f : Nat) (v : Word) : (L.setReg xb l f v).g1 = L.g1 := by
  unfold Lanes.setReg; split <;> [rfl; split <;> rfl]
@[simp] theorem Lanes.setReg_remote (L : Lanes) (xb l f : Nat) (v : Word) : (L.setReg xb l f v).remote = L.remote := by
  unfold Lanes.setReg; split <;> [rfl; split <;> rfl]

theorem Lanes.setReg_regs (L : Lanes) (xb l f k : Nat) (v : Word) (h : f < 112 → k ≠ regKey l (xb + f)) :
    tabGet (L.setReg xb l f v).regs 0 k = tabGet L.regs 0 k := by
  unfold Lanes.setReg
  split
  · next hf => exact tabGet_tabPut_ne _ _ _ (Ne.symm (h hf))
  · split <;> rfl
theorem Lanes.setReg_w (L : Lanes) (xb l f k : Nat) (v : Word) (h : 120 ≤ f → k ≠ l * 8 + (f - 120)) :
    tabGet (L.setReg xb l f v).w 0 k = tabGet L.w 0 k := by
  unfold Lanes.setReg
  split
  · rfl
  · split
    · next hf => exact tabGet_tabPut_ne _ _ _ (Ne.symm (h hf))
    · rfl

/-- A register reads as it was written; a field of another lane, or another field, reads as before. -/
theorem Lanes.reg_setReg (L : Lanes) (xb l l' f f' : Nat) (v : Word) (hf : f < 128)
    (hf' : f' < 112 ∨ (120 ≤ f' ∧ f' < 128)) :
    (L.setReg xb l f v).reg xb l' f' = if l = l' ∧ f = f' then v else L.reg xb l' f' := by
  unfold Lanes.setReg Lanes.reg
  by_cases h1 : f < 112
  · simp only [h1, if_true]
    by_cases h2 : f' < 112
    · simp only [h2, if_true, tabGet_tabPut, regKey]
      congr 1
      simp only [eq_iff_iff]
      omega
    · have h3 : ¬ (l = l' ∧ f = f') := by omega
      simp [h2, h3]
  · simp only [h1, if_false]
    by_cases h2 : 120 ≤ f
    · simp only [h2, if_true]
      by_cases h3 : f' < 112
      · have h4 : ¬ (l = l' ∧ f = f') := by omega
        simp [h3, h4]
      · have h5 : 120 ≤ f' := by omega
        simp only [h3, if_false, h5, if_true, tabGet_tabPut]
        congr 1
        simp only [eq_iff_iff]
        omega
    · have h4 : ¬ (l = l' ∧ f = f') := by omega
      simp [h2, h4]

/-! ## One predicate, the flags -/

@[simp] theorem Lanes.setPred_regs (L : Lanes) (l n : Nat) (v : Bool) : (L.setPred l n v).regs = L.regs := by
  unfold Lanes.setPred; split <;> rfl
@[simp] theorem Lanes.setPred_w (L : Lanes) (l n : Nat) (v : Bool) : (L.setPred l n v).w = L.w := by
  unfold Lanes.setPred; split <;> rfl
@[simp] theorem Lanes.setPred_lstat (L : Lanes) (l n : Nat) (v : Bool) : (L.setPred l n v).lstat = L.lstat := by
  unfold Lanes.setPred; split <;> rfl
@[simp] theorem Lanes.setPred_cursor (L : Lanes) (l n : Nat) (v : Bool) : (L.setPred l n v).cursor = L.cursor := by
  unfold Lanes.setPred; split <;> rfl
@[simp] theorem Lanes.setPred_g0 (L : Lanes) (l n : Nat) (v : Bool) : (L.setPred l n v).g0 = L.g0 := by
  unfold Lanes.setPred; split <;> rfl
@[simp] theorem Lanes.setPred_g1 (L : Lanes) (l n : Nat) (v : Bool) : (L.setPred l n v).g1 = L.g1 := by
  unfold Lanes.setPred; split <;> rfl
@[simp] theorem Lanes.setPred_remote (L : Lanes) (l n : Nat) (v : Bool) : (L.setPred l n v).remote = L.remote := by
  unfold Lanes.setPred; split <;> rfl
theorem Lanes.setPred_preds_ne (L : Lanes) {l l' : Nat} (n : Nat) (v : Bool) (h : l ≠ l') :
    tabGet (L.setPred l n v).preds 0 l' = tabGet L.preds 0 l' := by
  unfold Lanes.setPred; split
  · rfl
  · exact tabGet_tabPut_ne _ _ _ h

theorem getLsbD_twoPow7 (n k : Nat) (hk : k < 7) : (BitVec.ofNat 7 (2 ^ n)).getLsbD k = decide (n = k) := by
  simp only [BitVec.getLsbD_ofNat, Nat.testBit_two_pow]
  simp [hk]

theorem Lanes.pred_setPred (L : Lanes) (l n n' : Nat) (v : Bool) (hn : n' < 7) :
    (L.setPred l n v).pred l n' = if n = n' then v else L.pred l n' := by
  unfold Lanes.setPred Lanes.pred
  have h7 : n' ≠ 7 := by omega
  simp only [h7, if_false]
  by_cases h : n = 7
  · simp [h, h7.symm]
  · simp only [h, if_false, tabGet_tabPut_self]
    cases v
    · simp only [Bool.false_eq_true, if_false, BitVec.getLsbD_and, BitVec.getLsbD_not, getLsbD_twoPow7 _ _ hn]
      by_cases e : n = n' <;> simp [e, hn]
    · simp only [if_true, BitVec.getLsbD_or, getLsbD_twoPow7 _ _ hn]
      by_cases e : n = n' <;> simp [e]

@[simp] theorem Lanes.orFlags_regs (L : Lanes) (l : Nat) (f : FlagSet) : (L.orFlags l f).regs = L.regs := by
  unfold Lanes.orFlags; split <;> rfl
@[simp] theorem Lanes.orFlags_w (L : Lanes) (l : Nat) (f : FlagSet) : (L.orFlags l f).w = L.w := by
  unfold Lanes.orFlags; split <;> rfl
@[simp] theorem Lanes.orFlags_preds (L : Lanes) (l : Nat) (f : FlagSet) : (L.orFlags l f).preds = L.preds := by
  unfold Lanes.orFlags; split <;> rfl
@[simp] theorem Lanes.orFlags_cursor (L : Lanes) (l : Nat) (f : FlagSet) : (L.orFlags l f).cursor = L.cursor := by
  unfold Lanes.orFlags; split <;> rfl
@[simp] theorem Lanes.orFlags_g0 (L : Lanes) (l : Nat) (f : FlagSet) : (L.orFlags l f).g0 = L.g0 := by
  unfold Lanes.orFlags; split <;> rfl
@[simp] theorem Lanes.orFlags_g1 (L : Lanes) (l : Nat) (f : FlagSet) : (L.orFlags l f).g1 = L.g1 := by
  unfold Lanes.orFlags; split <;> rfl
@[simp] theorem Lanes.orFlags_remote (L : Lanes) (l : Nat) (f : FlagSet) : (L.orFlags l f).remote = L.remote := by
  unfold Lanes.orFlags; split <;> rfl
@[simp] theorem Lanes.orFlags_reg (L : Lanes) (l xb l' f' : Nat) (f : FlagSet) :
    (L.orFlags l f).reg xb l' f' = L.reg xb l' f' := by simp [Lanes.reg]
@[simp] theorem Lanes.orFlags_pred (L : Lanes) (l l' n : Nat) (f : FlagSet) : (L.orFlags l f).pred l' n = L.pred l' n := by
  simp [Lanes.pred]
@[simp] theorem Lanes.setPred_reg (L : Lanes) (l xb l' f' n : Nat) (v : Bool) :
    (L.setPred l n v).reg xb l' f' = L.reg xb l' f' := by simp [Lanes.reg]
theorem Lanes.orFlags_lstat (L : Lanes) (l l' : Nat) (f : FlagSet) :
    tabGet (L.orFlags l f).lstat 0 l' = tabGet L.lstat 0 l' ||| (if l = l' then f else 0) := by
  unfold Lanes.orFlags
  split
  · next h => subst h; simp
  · simp only [tabGet_tabPut]
    split
    · next h => subst h; rfl
    · simp

/-! ## A list of writes in one lane -/

theorem foldl_regs_frame (xb l : Nat) (ws : List (Nat × Word)) (L : Lanes) :
    let L' := ws.foldl (fun L r => L.setReg xb l r.1 r.2) L
    L'.preds = L.preds ∧ L'.lstat = L.lstat ∧ L'.cursor = L.cursor ∧ L'.g0 = L.g0 ∧ L'.g1 = L.g1 ∧ L'.remote = L.remote := by
  induction ws generalizing L with
  | nil => simp
  | cons w ws ih => simpa using ih (L.setReg xb l w.1 w.2)
theorem foldl_preds_frame (l : Nat) (ws : List (Nat × Bool)) (L : Lanes) :
    let L' := ws.foldl (fun L p => L.setPred l p.1 p.2) L
    L'.regs = L.regs ∧ L'.w = L.w ∧ L'.lstat = L.lstat ∧ L'.cursor = L.cursor ∧ L'.g0 = L.g0 ∧ L'.g1 = L.g1 ∧
      L'.remote = L.remote := by
  induction ws generalizing L with
  | nil => simp
  | cons w ws ih => simpa using ih (L.setPred l w.1 w.2)

theorem foldl_regs_reg (xb l l' f' : Nat) (ws : List (Nat × Word)) (L : Lanes) (hw : ∀ p ∈ ws, p.1 < 128)
    (hf : f' < 112 ∨ (120 ≤ f' ∧ f' < 128)) :
    (ws.foldl (fun L r => L.setReg xb l r.1 r.2) L).reg xb l' f' =
      if l = l' then lastOf f' ws (L.reg xb l' f') else L.reg xb l' f' := by
  induction ws generalizing L with
  | nil => simp [lastOf]
  | cons w ws ih =>
    simp only [List.foldl_cons, lastOf]
    rw [ih _ (fun p hp => hw p (List.mem_cons_of_mem _ hp)),
      Lanes.reg_setReg _ _ _ _ _ _ _ (hw w List.mem_cons_self) hf]
    by_cases h : l = l' <;> simp [h]
theorem foldl_regs_regs (xb l k : Nat) (ws : List (Nat × Word)) (L : Lanes)
    (h : ∀ p ∈ ws, p.1 < 112 → k ≠ regKey l (xb + p.1)) :
    tabGet (ws.foldl (fun L r => L.setReg xb l r.1 r.2) L).regs 0 k = tabGet L.regs 0 k := by
  induction ws generalizing L with
  | nil => rfl
  | cons w ws ih =>
    simp only [List.foldl_cons]
    rw [ih _ (fun p hp => h p (List.mem_cons_of_mem _ hp)), Lanes.setReg_regs _ _ _ _ _ _ (h w List.mem_cons_self)]
theorem foldl_regs_w (xb l k : Nat) (ws : List (Nat × Word)) (L : Lanes)
    (h : ∀ p ∈ ws, 120 ≤ p.1 → k ≠ l * 8 + (p.1 - 120)) :
    tabGet (ws.foldl (fun L r => L.setReg xb l r.1 r.2) L).w 0 k = tabGet L.w 0 k := by
  induction ws generalizing L with
  | nil => rfl
  | cons w ws ih =>
    simp only [List.foldl_cons]
    rw [ih _ (fun p hp => h p (List.mem_cons_of_mem _ hp)), Lanes.setReg_w _ _ _ _ _ _ (h w List.mem_cons_self)]
theorem foldl_preds_pred (l n : Nat) (ws : List (Nat × Bool)) (L : Lanes) (hn : n < 7) :
    (ws.foldl (fun L p => L.setPred l p.1 p.2) L).pred l n = lastOf n ws (L.pred l n) := by
  induction ws generalizing L with
  | nil => rfl
  | cons w ws ih => simp only [List.foldl_cons, lastOf, ih, Lanes.pred_setPred _ _ _ _ _ hn]
theorem foldl_preds_ne {l l' : Nat} (ws : List (Nat × Bool)) (L : Lanes) (h : l ≠ l') :
    tabGet (ws.foldl (fun L p => L.setPred l p.1 p.2) L).preds 0 l' = tabGet L.preds 0 l' := by
  induction ws generalizing L with
  | nil => rfl
  | cons w ws ih => simp only [List.foldl_cons, ih, Lanes.setPred_preds_ne _ _ _ h]

/-! ## Every lane of a set -/

/-- What writeLanes does over a list of lanes, each at most once. -/
theorem foldl_apply_laneWrite (xb : Nat) (out : Nat → LaneOut) (hout : ∀ l, ∀ p ∈ (out l).regs, p.1 < 128)
    (ls : List Nat) (hn : ls.Nodup) (L : Lanes) :
    let L' := ls.foldl (fun L l => (out l).apply xb l L) L
    (∀ l f, f < 112 ∨ (120 ≤ f ∧ f < 128) →
      L'.reg xb l f = if l ∈ ls then lastOf f (out l).regs (L.reg xb l f) else L.reg xb l f) ∧
    (∀ k, (∀ l p, l ∈ ls → p ∈ (out l).regs → p.1 < 112 → k ≠ regKey l (xb + p.1)) →
      tabGet L'.regs 0 k = tabGet L.regs 0 k) ∧
    (∀ k, (∀ l p, l ∈ ls → p ∈ (out l).regs → 120 ≤ p.1 → k ≠ l * 8 + (p.1 - 120)) →
      tabGet L'.w 0 k = tabGet L.w 0 k) ∧
    (∀ l n, n < 7 → l ∈ ls → L'.pred l n = lastOf n (out l).preds (L.pred l n)) ∧
    (∀ l, l ∉ ls → tabGet L'.preds 0 l = tabGet L.preds 0 l) ∧
    (∀ l, tabGet L'.lstat 0 l = tabGet L.lstat 0 l ||| (if l ∈ ls then (out l).flags else 0)) ∧
    (L'.cursor = L.cursor ∧ L'.g0 = L.g0 ∧ L'.g1 = L.g1 ∧ L'.remote = L.remote) := by
  induction ls generalizing L with
  | nil => simp
  | cons a ls ih =>
    obtain ⟨ha, hn⟩ := List.nodup_cons.mp hn
    obtain ⟨i1, i2, i3, i4, i5, i6, i7⟩ := ih hn ((out a).apply xb a L)
    simp only [List.foldl_cons]
    have fr := foldl_regs_frame xb a (out a).regs L
    have fp := foldl_preds_frame a (out a).preds ((out a).regs.foldl (fun L r => L.setReg xb a r.1 r.2) L)
    simp only at fr fp
    refine ⟨fun l f hf => ?_, fun k hk => ?_, fun k hk => ?_, fun l n h7 hl => ?_, fun l hl => ?_, fun l => ?_, ?_⟩
    · rw [i1 l f hf]
      have e : ((out a).apply xb a L).reg xb l f = if a = l then lastOf f (out a).regs (L.reg xb l f) else L.reg xb l f := by
        unfold LaneOut.apply
        simp only [Lanes.orFlags_reg]
        rw [show ∀ M : Lanes, (List.foldl (fun L p => L.setPred a p.1 p.2) M (out a).preds).reg xb l f = M.reg xb l f from
          fun M => by have := foldl_preds_frame a (out a).preds M; simp only at this; simp [Lanes.reg, this]]
        exact foldl_regs_reg xb a l f _ L (hout a) hf
      rw [e]
      by_cases h : a = l
      · subst h; simp [ha]
      · simp [h, List.mem_cons, Ne.symm h]
    · rw [i2 k fun l p hl => hk l p (List.mem_cons_of_mem _ hl)]
      unfold LaneOut.apply
      simp only [Lanes.orFlags_regs, fp]
      exact foldl_regs_regs xb a k _ L fun p hp => hk a p List.mem_cons_self hp
    · rw [i3 k fun l p hl => hk l p (List.mem_cons_of_mem _ hl)]
      unfold LaneOut.apply
      simp only [Lanes.orFlags_w, fp]
      exact foldl_regs_w xb a k _ L fun p hp => hk a p List.mem_cons_self hp
    · by_cases h : a = l
      · subst h
        have e : tabGet (ls.foldl (fun L l => (out l).apply xb l L) ((out a).apply xb a L)).preds 0 a =
            tabGet ((out a).apply xb a L).preds 0 a := i5 a ha
        have : (ls.foldl (fun L l => (out l).apply xb l L) ((out a).apply xb a L)).pred a n =
            ((out a).apply xb a L).pred a n := by simp only [Lanes.pred, e]
        rw [this]
        unfold LaneOut.apply
        simp only [Lanes.orFlags_pred]
        rw [foldl_preds_pred _ _ _ _ h7]
        simp only [Lanes.pred, fr]
      · have hl' : l ∈ ls := by simpa [Ne.symm h] using hl
        rw [i4 l n h7 hl']
        congr 1
        have e : tabGet ((out a).apply xb a L).preds 0 l = tabGet L.preds 0 l := by
          unfold LaneOut.apply
          simp only [Lanes.orFlags_preds, foldl_preds_ne _ _ h, fr]
        simp only [Lanes.pred, e]
    · have h : a ≠ l := fun e => hl (by simp [e])
      rw [i5 l fun h => hl (List.mem_cons_of_mem _ h)]
      unfold LaneOut.apply
      simp only [Lanes.orFlags_preds, foldl_preds_ne _ _ h, fr]
    · rw [i6 l]
      have e : tabGet ((out a).apply xb a L).lstat 0 l = tabGet L.lstat 0 l ||| (if a = l then (out a).flags else 0) := by
        unfold LaneOut.apply
        simp only [Lanes.orFlags_lstat, fp, fr]
      rw [e]
      by_cases h : a = l
      · subst h; simp [ha]
      · simp [h, List.mem_cons, Ne.symm h]
    · refine ⟨?_, ?_, ?_, ?_⟩
      · rw [i7.1]; unfold LaneOut.apply; simp only [Lanes.orFlags_cursor, fp, fr]
      · rw [i7.2.1]; unfold LaneOut.apply; simp only [Lanes.orFlags_g0, fp, fr]
      · rw [i7.2.2.1]; unfold LaneOut.apply; simp only [Lanes.orFlags_g1, fp, fr]
      · rw [i7.2.2.2]; unfold LaneOut.apply; simp only [Lanes.orFlags_remote, fp, fr]

/-- writeLanes writes what each lane's output says, and nothing else. -/
theorem writeLanes_laneWrite (xb : Nat) (m : LaneSet) (out : Nat → LaneOut) (L : Lanes)
    (hout : ∀ l, ∀ p ∈ (out l).regs, p.1 < 128) : LaneWrite xb m out L (writeLanes xb m out L) := by
  obtain ⟨h1, h2, h3, h4, h5, h6, h7⟩ := foldl_apply_laneWrite xb out hout (lanesIn m) (lanesIn_nodup m) L
  constructor
  · intro l f hl hf
    have := h1 l f hf
    rw [if_pos ((mem_lanesIn m l).mpr hl)] at this
    exact this
  · exact fun k hk => h2 k fun l p hl => hk l p ((mem_lanesIn m l).mp hl)
  · exact fun k hk => h3 k fun l p hl => hk l p ((mem_lanesIn m l).mp hl)
  · exact fun l n hl h7 => h4 l n h7 ((mem_lanesIn m l).mpr hl)
  · exact fun l hl => h5 l fun h => by simp [(mem_lanesIn m l).mp h] at hl
  · intro l
    have := h6 l
    simp only [mem_lanesIn] at this
    exact this
  · exact h7

end Sys2Proof.Machine
end

