-- ==== Sys2Proof/Laws/State.lean ====
section
/-! SUPPORT. What each update of the state leaves in each of its fields, and what a part reads as after it. -/

namespace Sys2Proof.Machine

/-! ## Fields after an update -/

/-! ### setTask -/

@[simp] theorem State.setTask_torus (s : State) (n : Nat) (t : Task) : (s.setTask n t).torus = s.torus := rfl
@[simp] theorem State.setTask_pkgs (s : State) (n : Nat) (t : Task) : (s.setTask n t).pkgs = s.pkgs := rfl
@[simp] theorem State.setTask_dies (s : State) (n : Nat) (t : Task) : (s.setTask n t).dies = s.dies := rfl
@[simp] theorem State.setTask_cores (s : State) (n : Nat) (t : Task) : (s.setTask n t).cores = s.cores := rfl
@[simp] theorem State.setTask_tasks (s : State) (n : Nat) (t : Task) : (s.setTask n t).tasks = tabPut s.tasks n t := rfl
@[simp] theorem State.setTask_blocks (s : State) (n : Nat) (t : Task) : (s.setTask n t).blocks = s.blocks := rfl
@[simp] theorem State.setTask_gangs (s : State) (n : Nat) (t : Task) : (s.setTask n t).gangs = s.gangs := rfl
@[simp] theorem State.setTask_runs (s : State) (n : Nat) (t : Task) : (s.setTask n t).runs = s.runs := rfl
@[simp] theorem State.setTask_focus (s : State) (n : Nat) (t : Task) : (s.setTask n t).focus = s.focus := rfl
@[simp] theorem State.setTask_ops (s : State) (n : Nat) (t : Task) : (s.setTask n t).ops = s.ops := rfl
@[simp] theorem State.setTask_pending (s : State) (n : Nat) (t : Task) : (s.setTask n t).pending = s.pending := rfl
@[simp] theorem State.setTask_mem (s : State) (n : Nat) (t : Task) : (s.setTask n t).mem = s.mem := rfl
@[simp] theorem State.setTask_bits (s : State) (n : Nat) (t : Task) : (s.setTask n t).bits = s.bits := rfl
@[simp] theorem State.setTask_fields (s : State) (n : Nat) (t : Task) : (s.setTask n t).fields = s.fields := rfl
@[simp] theorem State.setTask_bufs (s : State) (n : Nat) (t : Task) : (s.setTask n t).bufs = s.bufs := rfl
@[simp] theorem State.setTask_faults (s : State) (n : Nat) (t : Task) : (s.setTask n t).faults = s.faults := rfl
@[simp] theorem State.setTask_unacked (s : State) (n : Nat) (t : Task) : (s.setTask n t).unacked = s.unacked := rfl
@[simp] theorem State.setTask_flight (s : State) (n : Nat) (t : Task) : (s.setTask n t).flight = s.flight := rfl
@[simp] theorem State.setTask_acks (s : State) (n : Nat) (t : Task) : (s.setTask n t).acks = s.acks := rfl
@[simp] theorem State.setTask_seqs (s : State) (n : Nat) (t : Task) : (s.setTask n t).seqs = s.seqs := rfl
@[simp] theorem State.setTask_wraps (s : State) (n : Nat) (t : Task) : (s.setTask n t).wraps = s.wraps := rfl
@[simp] theorem State.setTask_streams (s : State) (n : Nat) (t : Task) : (s.setTask n t).streams = s.streams := rfl
@[simp] theorem State.setTask_jobs (s : State) (n : Nat) (t : Task) : (s.setTask n t).jobs = s.jobs := rfl
@[simp] theorem State.setTask_serving (s : State) (n : Nat) (t : Task) : (s.setTask n t).serving = s.serving := rfl
@[simp] theorem State.setTask_departing (s : State) (n : Nat) (t : Task) : (s.setTask n t).departing = s.departing := rfl
@[simp] theorem State.setTask_nextId (s : State) (n : Nat) (t : Task) : (s.setTask n t).nextId = s.nextId := rfl
@[simp] theorem State.setTask_free (s : State) (n : Nat) (t : Task) : (s.setTask n t).free = s.free := rfl
@[simp] theorem State.setTask_time (s : State) (n : Nat) (t : Task) : (s.setTask n t).time = s.time := rfl
@[simp] theorem State.setTask_hostRead (s : State) (n : Nat) (t : Task) : (s.setTask n t).hostRead = s.hostRead := rfl
@[simp] theorem State.setTask_hostPoison (s : State) (n : Nat) (t : Task) : (s.setTask n t).hostPoison = s.hostPoison := rfl
@[simp] theorem State.setTask_schedule (s : State) (n : Nat) (t : Task) : (s.setTask n t).schedule = s.schedule := rfl

/-! ### setBlock -/

@[simp] theorem State.setBlock_torus (s : State) (n : Nat) (b : Block) : (s.setBlock n b).torus = s.torus := rfl
@[simp] theorem State.setBlock_pkgs (s : State) (n : Nat) (b : Block) : (s.setBlock n b).pkgs = s.pkgs := rfl
@[simp] theorem State.setBlock_dies (s : State) (n : Nat) (b : Block) : (s.setBlock n b).dies = s.dies := rfl
@[simp] theorem State.setBlock_cores (s : State) (n : Nat) (b : Block) : (s.setBlock n b).cores = s.cores := rfl
@[simp] theorem State.setBlock_tasks (s : State) (n : Nat) (b : Block) : (s.setBlock n b).tasks = s.tasks := rfl
@[simp] theorem State.setBlock_blocks (s : State) (n : Nat) (b : Block) : (s.setBlock n b).blocks = tabPut s.blocks n b := rfl
@[simp] theorem State.setBlock_gangs (s : State) (n : Nat) (b : Block) : (s.setBlock n b).gangs = s.gangs := rfl
@[simp] theorem State.setBlock_runs (s : State) (n : Nat) (b : Block) : (s.setBlock n b).runs = s.runs := rfl
@[simp] theorem State.setBlock_focus (s : State) (n : Nat) (b : Block) : (s.setBlock n b).focus = s.focus := rfl
@[simp] theorem State.setBlock_ops (s : State) (n : Nat) (b : Block) : (s.setBlock n b).ops = s.ops := rfl
@[simp] theorem State.setBlock_pending (s : State) (n : Nat) (b : Block) : (s.setBlock n b).pending = s.pending := rfl
@[simp] theorem State.setBlock_mem (s : State) (n : Nat) (b : Block) : (s.setBlock n b).mem = s.mem := rfl
@[simp] theorem State.setBlock_bits (s : State) (n : Nat) (b : Block) : (s.setBlock n b).bits = s.bits := rfl
@[simp] theorem State.setBlock_fields (s : State) (n : Nat) (b : Block) : (s.setBlock n b).fields = s.fields := rfl
@[simp] theorem State.setBlock_bufs (s : State) (n : Nat) (b : Block) : (s.setBlock n b).bufs = s.bufs := rfl
@[simp] theorem State.setBlock_faults (s : State) (n : Nat) (b : Block) : (s.setBlock n b).faults = s.faults := rfl
@[simp] theorem State.setBlock_unacked (s : State) (n : Nat) (b : Block) : (s.setBlock n b).unacked = s.unacked := rfl
@[simp] theorem State.setBlock_flight (s : State) (n : Nat) (b : Block) : (s.setBlock n b).flight = s.flight := rfl
@[simp] theorem State.setBlock_acks (s : State) (n : Nat) (b : Block) : (s.setBlock n b).acks = s.acks := rfl
@[simp] theorem State.setBlock_seqs (s : State) (n : Nat) (b : Block) : (s.setBlock n b).seqs = s.seqs := rfl
@[simp] theorem State.setBlock_wraps (s : State) (n : Nat) (b : Block) : (s.setBlock n b).wraps = s.wraps := rfl
@[simp] theorem State.setBlock_streams (s : State) (n : Nat) (b : Block) : (s.setBlock n b).streams = s.streams := rfl
@[simp] theorem State.setBlock_jobs (s : State) (n : Nat) (b : Block) : (s.setBlock n b).jobs = s.jobs := rfl
@[simp] theorem State.setBlock_serving (s : State) (n : Nat) (b : Block) : (s.setBlock n b).serving = s.serving := rfl
@[simp] theorem State.setBlock_departing (s : State) (n : Nat) (b : Block) : (s.setBlock n b).departing = s.departing := rfl
@[simp] theorem State.setBlock_nextId (s : State) (n : Nat) (b : Block) : (s.setBlock n b).nextId = s.nextId := rfl
@[simp] theorem State.setBlock_free (s : State) (n : Nat) (b : Block) : (s.setBlock n b).free = s.free := rfl
@[simp] theorem State.setBlock_time (s : State) (n : Nat) (b : Block) : (s.setBlock n b).time = s.time := rfl
@[simp] theorem State.setBlock_hostRead (s : State) (n : Nat) (b : Block) : (s.setBlock n b).hostRead = s.hostRead := rfl
@[simp] theorem State.setBlock_hostPoison (s : State) (n : Nat) (b : Block) : (s.setBlock n b).hostPoison = s.hostPoison := rfl
@[simp] theorem State.setBlock_schedule (s : State) (n : Nat) (b : Block) : (s.setBlock n b).schedule = s.schedule := rfl

/-! ### setGang -/

@[simp] theorem State.setGang_torus (s : State) (n : Nat) (g : Gang) : (s.setGang n g).torus = s.torus := rfl
@[simp] theorem State.setGang_pkgs (s : State) (n : Nat) (g : Gang) : (s.setGang n g).pkgs = s.pkgs := rfl
@[simp] theorem State.setGang_dies (s : State) (n : Nat) (g : Gang) : (s.setGang n g).dies = s.dies := rfl
@[simp] theorem State.setGang_cores (s : State) (n : Nat) (g : Gang) : (s.setGang n g).cores = s.cores := rfl
@[simp] theorem State.setGang_tasks (s : State) (n : Nat) (g : Gang) : (s.setGang n g).tasks = s.tasks := rfl
@[simp] theorem State.setGang_blocks (s : State) (n : Nat) (g : Gang) : (s.setGang n g).blocks = s.blocks := rfl
@[simp] theorem State.setGang_gangs (s : State) (n : Nat) (g : Gang) : (s.setGang n g).gangs = tabPut s.gangs n g := rfl
@[simp] theorem State.setGang_runs (s : State) (n : Nat) (g : Gang) : (s.setGang n g).runs = s.runs := rfl
@[simp] theorem State.setGang_focus (s : State) (n : Nat) (g : Gang) : (s.setGang n g).focus = s.focus := rfl
@[simp] theorem State.setGang_ops (s : State) (n : Nat) (g : Gang) : (s.setGang n g).ops = s.ops := rfl
@[simp] theorem State.setGang_pending (s : State) (n : Nat) (g : Gang) : (s.setGang n g).pending = s.pending := rfl
@[simp] theorem State.setGang_mem (s : State) (n : Nat) (g : Gang) : (s.setGang n g).mem = s.mem := rfl
@[simp] theorem State.setGang_bits (s : State) (n : Nat) (g : Gang) : (s.setGang n g).bits = s.bits := rfl
@[simp] theorem State.setGang_fields (s : State) (n : Nat) (g : Gang) : (s.setGang n g).fields = s.fields := rfl
@[simp] theorem State.setGang_bufs (s : State) (n : Nat) (g : Gang) : (s.setGang n g).bufs = s.bufs := rfl
@[simp] theorem State.setGang_faults (s : State) (n : Nat) (g : Gang) : (s.setGang n g).faults = s.faults := rfl
@[simp] theorem State.setGang_unacked (s : State) (n : Nat) (g : Gang) : (s.setGang n g).unacked = s.unacked := rfl
@[simp] theorem State.setGang_flight (s : State) (n : Nat) (g : Gang) : (s.setGang n g).flight = s.flight := rfl
@[simp] theorem State.setGang_acks (s : State) (n : Nat) (g : Gang) : (s.setGang n g).acks = s.acks := rfl
@[simp] theorem State.setGang_seqs (s : State) (n : Nat) (g : Gang) : (s.setGang n g).seqs = s.seqs := rfl
@[simp] theorem State.setGang_wraps (s : State) (n : Nat) (g : Gang) : (s.setGang n g).wraps = s.wraps := rfl
@[simp] theorem State.setGang_streams (s : State) (n : Nat) (g : Gang) : (s.setGang n g).streams = s.streams := rfl
@[simp] theorem State.setGang_jobs (s : State) (n : Nat) (g : Gang) : (s.setGang n g).jobs = s.jobs := rfl
@[simp] theorem State.setGang_serving (s : State) (n : Nat) (g : Gang) : (s.setGang n g).serving = s.serving := rfl
@[simp] theorem State.setGang_departing (s : State) (n : Nat) (g : Gang) : (s.setGang n g).departing = s.departing := rfl
@[simp] theorem State.setGang_nextId (s : State) (n : Nat) (g : Gang) : (s.setGang n g).nextId = s.nextId := rfl
@[simp] theorem State.setGang_free (s : State) (n : Nat) (g : Gang) : (s.setGang n g).free = s.free := rfl
@[simp] theorem State.setGang_time (s : State) (n : Nat) (g : Gang) : (s.setGang n g).time = s.time := rfl
@[simp] theorem State.setGang_hostRead (s : State) (n : Nat) (g : Gang) : (s.setGang n g).hostRead = s.hostRead := rfl
@[simp] theorem State.setGang_hostPoison (s : State) (n : Nat) (g : Gang) : (s.setGang n g).hostPoison = s.hostPoison := rfl
@[simp] theorem State.setGang_schedule (s : State) (n : Nat) (g : Gang) : (s.setGang n g).schedule = s.schedule := rfl

/-! ### modGang -/

@[simp] theorem State.modGang_torus (s : State) (n : Nat) (f : Gang → Gang) : (s.modGang n f).torus = s.torus := rfl
@[simp] theorem State.modGang_pkgs (s : State) (n : Nat) (f : Gang → Gang) : (s.modGang n f).pkgs = s.pkgs := rfl
@[simp] theorem State.modGang_dies (s : State) (n : Nat) (f : Gang → Gang) : (s.modGang n f).dies = s.dies := rfl
@[simp] theorem State.modGang_cores (s : State) (n : Nat) (f : Gang → Gang) : (s.modGang n f).cores = s.cores := rfl
@[simp] theorem State.modGang_tasks (s : State) (n : Nat) (f : Gang → Gang) : (s.modGang n f).tasks = s.tasks := rfl
@[simp] theorem State.modGang_blocks (s : State) (n : Nat) (f : Gang → Gang) : (s.modGang n f).blocks = s.blocks := rfl
@[simp] theorem State.modGang_gangs (s : State) (n : Nat) (f : Gang → Gang) : (s.modGang n f).gangs = tabPut s.gangs n (f (s.gang n)) := rfl
@[simp] theorem State.modGang_runs (s : State) (n : Nat) (f : Gang → Gang) : (s.modGang n f).runs = s.runs := rfl
@[simp] theorem State.modGang_focus (s : State) (n : Nat) (f : Gang → Gang) : (s.modGang n f).focus = s.focus := rfl
@[simp] theorem State.modGang_ops (s : State) (n : Nat) (f : Gang → Gang) : (s.modGang n f).ops = s.ops := rfl
@[simp] theorem State.modGang_pending (s : State) (n : Nat) (f : Gang → Gang) : (s.modGang n f).pending = s.pending := rfl
@[simp] theorem State.modGang_mem (s : State) (n : Nat) (f : Gang → Gang) : (s.modGang n f).mem = s.mem := rfl
@[simp] theorem State.modGang_bits (s : State) (n : Nat) (f : Gang → Gang) : (s.modGang n f).bits = s.bits := rfl
@[simp] theorem State.modGang_fields (s : State) (n : Nat) (f : Gang → Gang) : (s.modGang n f).fields = s.fields := rfl
@[simp] theorem State.modGang_bufs (s : State) (n : Nat) (f : Gang → Gang) : (s.modGang n f).bufs = s.bufs := rfl
@[simp] theorem State.modGang_faults (s : State) (n : Nat) (f : Gang → Gang) : (s.modGang n f).faults = s.faults := rfl
@[simp] theorem State.modGang_unacked (s : State) (n : Nat) (f : Gang → Gang) : (s.modGang n f).unacked = s.unacked := rfl
@[simp] theorem State.modGang_flight (s : State) (n : Nat) (f : Gang → Gang) : (s.modGang n f).flight = s.flight := rfl
@[simp] theorem State.modGang_acks (s : State) (n : Nat) (f : Gang → Gang) : (s.modGang n f).acks = s.acks := rfl
@[simp] theorem State.modGang_seqs (s : State) (n : Nat) (f : Gang → Gang) : (s.modGang n f).seqs = s.seqs := rfl
@[simp] theorem State.modGang_wraps (s : State) (n : Nat) (f : Gang → Gang) : (s.modGang n f).wraps = s.wraps := rfl
@[simp] theorem State.modGang_streams (s : State) (n : Nat) (f : Gang → Gang) : (s.modGang n f).streams = s.streams := rfl
@[simp] theorem State.modGang_jobs (s : State) (n : Nat) (f : Gang → Gang) : (s.modGang n f).jobs = s.jobs := rfl
@[simp] theorem State.modGang_serving (s : State) (n : Nat) (f : Gang → Gang) : (s.modGang n f).serving = s.serving := rfl
@[simp] theorem State.modGang_departing (s : State) (n : Nat) (f : Gang → Gang) : (s.modGang n f).departing = s.departing := rfl
@[simp] theorem State.modGang_nextId (s : State) (n : Nat) (f : Gang → Gang) : (s.modGang n f).nextId = s.nextId := rfl
@[simp] theorem State.modGang_free (s : State) (n : Nat) (f : Gang → Gang) : (s.modGang n f).free = s.free := rfl
@[simp] theorem State.modGang_time (s : State) (n : Nat) (f : Gang → Gang) : (s.modGang n f).time = s.time := rfl
@[simp] theorem State.modGang_hostRead (s : State) (n : Nat) (f : Gang → Gang) : (s.modGang n f).hostRead = s.hostRead := rfl
@[simp] theorem State.modGang_hostPoison (s : State) (n : Nat) (f : Gang → Gang) : (s.modGang n f).hostPoison = s.hostPoison := rfl
@[simp] theorem State.modGang_schedule (s : State) (n : Nat) (f : Gang → Gang) : (s.modGang n f).schedule = s.schedule := rfl

/-! ### setPkg -/

@[simp] theorem State.setPkg_torus (s : State) (n : Nat) (p : Pkg) : (s.setPkg n p).torus = s.torus := rfl
@[simp] theorem State.setPkg_pkgs (s : State) (n : Nat) (p : Pkg) : (s.setPkg n p).pkgs = tabPut s.pkgs n p := rfl
@[simp] theorem State.setPkg_dies (s : State) (n : Nat) (p : Pkg) : (s.setPkg n p).dies = s.dies := rfl
@[simp] theorem State.setPkg_cores (s : State) (n : Nat) (p : Pkg) : (s.setPkg n p).cores = s.cores := rfl
@[simp] theorem State.setPkg_tasks (s : State) (n : Nat) (p : Pkg) : (s.setPkg n p).tasks = s.tasks := rfl
@[simp] theorem State.setPkg_blocks (s : State) (n : Nat) (p : Pkg) : (s.setPkg n p).blocks = s.blocks := rfl
@[simp] theorem State.setPkg_gangs (s : State) (n : Nat) (p : Pkg) : (s.setPkg n p).gangs = s.gangs := rfl
@[simp] theorem State.setPkg_runs (s : State) (n : Nat) (p : Pkg) : (s.setPkg n p).runs = s.runs := rfl
@[simp] theorem State.setPkg_focus (s : State) (n : Nat) (p : Pkg) : (s.setPkg n p).focus = s.focus := rfl
@[simp] theorem State.setPkg_ops (s : State) (n : Nat) (p : Pkg) : (s.setPkg n p).ops = s.ops := rfl
@[simp] theorem State.setPkg_pending (s : State) (n : Nat) (p : Pkg) : (s.setPkg n p).pending = s.pending := rfl
@[simp] theorem State.setPkg_mem (s : State) (n : Nat) (p : Pkg) : (s.setPkg n p).mem = s.mem := rfl
@[simp] theorem State.setPkg_bits (s : State) (n : Nat) (p : Pkg) : (s.setPkg n p).bits = s.bits := rfl
@[simp] theorem State.setPkg_fields (s : State) (n : Nat) (p : Pkg) : (s.setPkg n p).fields = s.fields := rfl
@[simp] theorem State.setPkg_bufs (s : State) (n : Nat) (p : Pkg) : (s.setPkg n p).bufs = s.bufs := rfl
@[simp] theorem State.setPkg_faults (s : State) (n : Nat) (p : Pkg) : (s.setPkg n p).faults = s.faults := rfl
@[simp] theorem State.setPkg_unacked (s : State) (n : Nat) (p : Pkg) : (s.setPkg n p).unacked = s.unacked := rfl
@[simp] theorem State.setPkg_flight (s : State) (n : Nat) (p : Pkg) : (s.setPkg n p).flight = s.flight := rfl
@[simp] theorem State.setPkg_acks (s : State) (n : Nat) (p : Pkg) : (s.setPkg n p).acks = s.acks := rfl
@[simp] theorem State.setPkg_seqs (s : State) (n : Nat) (p : Pkg) : (s.setPkg n p).seqs = s.seqs := rfl
@[simp] theorem State.setPkg_wraps (s : State) (n : Nat) (p : Pkg) : (s.setPkg n p).wraps = s.wraps := rfl
@[simp] theorem State.setPkg_streams (s : State) (n : Nat) (p : Pkg) : (s.setPkg n p).streams = s.streams := rfl
@[simp] theorem State.setPkg_jobs (s : State) (n : Nat) (p : Pkg) : (s.setPkg n p).jobs = s.jobs := rfl
@[simp] theorem State.setPkg_serving (s : State) (n : Nat) (p : Pkg) : (s.setPkg n p).serving = s.serving := rfl
@[simp] theorem State.setPkg_departing (s : State) (n : Nat) (p : Pkg) : (s.setPkg n p).departing = s.departing := rfl
@[simp] theorem State.setPkg_nextId (s : State) (n : Nat) (p : Pkg) : (s.setPkg n p).nextId = s.nextId := rfl
@[simp] theorem State.setPkg_free (s : State) (n : Nat) (p : Pkg) : (s.setPkg n p).free = s.free := rfl
@[simp] theorem State.setPkg_time (s : State) (n : Nat) (p : Pkg) : (s.setPkg n p).time = s.time := rfl
@[simp] theorem State.setPkg_hostRead (s : State) (n : Nat) (p : Pkg) : (s.setPkg n p).hostRead = s.hostRead := rfl
@[simp] theorem State.setPkg_hostPoison (s : State) (n : Nat) (p : Pkg) : (s.setPkg n p).hostPoison = s.hostPoison := rfl
@[simp] theorem State.setPkg_schedule (s : State) (n : Nat) (p : Pkg) : (s.setPkg n p).schedule = s.schedule := rfl

/-! ### setDie -/

@[simp] theorem State.setDie_torus (s : State) (k : Nat) (d : Die) : (s.setDie k d).torus = s.torus := rfl
@[simp] theorem State.setDie_pkgs (s : State) (k : Nat) (d : Die) : (s.setDie k d).pkgs = s.pkgs := rfl
@[simp] theorem State.setDie_dies (s : State) (k : Nat) (d : Die) : (s.setDie k d).dies = tabPut s.dies k d := rfl
@[simp] theorem State.setDie_cores (s : State) (k : Nat) (d : Die) : (s.setDie k d).cores = s.cores := rfl
@[simp] theorem State.setDie_tasks (s : State) (k : Nat) (d : Die) : (s.setDie k d).tasks = s.tasks := rfl
@[simp] theorem State.setDie_blocks (s : State) (k : Nat) (d : Die) : (s.setDie k d).blocks = s.blocks := rfl
@[simp] theorem State.setDie_gangs (s : State) (k : Nat) (d : Die) : (s.setDie k d).gangs = s.gangs := rfl
@[simp] theorem State.setDie_runs (s : State) (k : Nat) (d : Die) : (s.setDie k d).runs = s.runs := rfl
@[simp] theorem State.setDie_focus (s : State) (k : Nat) (d : Die) : (s.setDie k d).focus = s.focus := rfl
@[simp] theorem State.setDie_ops (s : State) (k : Nat) (d : Die) : (s.setDie k d).ops = s.ops := rfl
@[simp] theorem State.setDie_pending (s : State) (k : Nat) (d : Die) : (s.setDie k d).pending = s.pending := rfl
@[simp] theorem State.setDie_mem (s : State) (k : Nat) (d : Die) : (s.setDie k d).mem = s.mem := rfl
@[simp] theorem State.setDie_bits (s : State) (k : Nat) (d : Die) : (s.setDie k d).bits = s.bits := rfl
@[simp] theorem State.setDie_fields (s : State) (k : Nat) (d : Die) : (s.setDie k d).fields = s.fields := rfl
@[simp] theorem State.setDie_bufs (s : State) (k : Nat) (d : Die) : (s.setDie k d).bufs = s.bufs := rfl
@[simp] theorem State.setDie_faults (s : State) (k : Nat) (d : Die) : (s.setDie k d).faults = s.faults := rfl
@[simp] theorem State.setDie_unacked (s : State) (k : Nat) (d : Die) : (s.setDie k d).unacked = s.unacked := rfl
@[simp] theorem State.setDie_flight (s : State) (k : Nat) (d : Die) : (s.setDie k d).flight = s.flight := rfl
@[simp] theorem State.setDie_acks (s : State) (k : Nat) (d : Die) : (s.setDie k d).acks = s.acks := rfl
@[simp] theorem State.setDie_seqs (s : State) (k : Nat) (d : Die) : (s.setDie k d).seqs = s.seqs := rfl
@[simp] theorem State.setDie_wraps (s : State) (k : Nat) (d : Die) : (s.setDie k d).wraps = s.wraps := rfl
@[simp] theorem State.setDie_streams (s : State) (k : Nat) (d : Die) : (s.setDie k d).streams = s.streams := rfl
@[simp] theorem State.setDie_jobs (s : State) (k : Nat) (d : Die) : (s.setDie k d).jobs = s.jobs := rfl
@[simp] theorem State.setDie_serving (s : State) (k : Nat) (d : Die) : (s.setDie k d).serving = s.serving := rfl
@[simp] theorem State.setDie_departing (s : State) (k : Nat) (d : Die) : (s.setDie k d).departing = s.departing := rfl
@[simp] theorem State.setDie_nextId (s : State) (k : Nat) (d : Die) : (s.setDie k d).nextId = s.nextId := rfl
@[simp] theorem State.setDie_free (s : State) (k : Nat) (d : Die) : (s.setDie k d).free = s.free := rfl
@[simp] theorem State.setDie_time (s : State) (k : Nat) (d : Die) : (s.setDie k d).time = s.time := rfl
@[simp] theorem State.setDie_hostRead (s : State) (k : Nat) (d : Die) : (s.setDie k d).hostRead = s.hostRead := rfl
@[simp] theorem State.setDie_hostPoison (s : State) (k : Nat) (d : Die) : (s.setDie k d).hostPoison = s.hostPoison := rfl
@[simp] theorem State.setDie_schedule (s : State) (k : Nat) (d : Die) : (s.setDie k d).schedule = s.schedule := rfl

/-! ### setCore -/

@[simp] theorem State.setCore_torus (s : State) (k : Nat) (c : Core) : (s.setCore k c).torus = s.torus := rfl
@[simp] theorem State.setCore_pkgs (s : State) (k : Nat) (c : Core) : (s.setCore k c).pkgs = s.pkgs := rfl
@[simp] theorem State.setCore_dies (s : State) (k : Nat) (c : Core) : (s.setCore k c).dies = s.dies := rfl
@[simp] theorem State.setCore_cores (s : State) (k : Nat) (c : Core) : (s.setCore k c).cores = tabPut s.cores k c := rfl
@[simp] theorem State.setCore_tasks (s : State) (k : Nat) (c : Core) : (s.setCore k c).tasks = s.tasks := rfl
@[simp] theorem State.setCore_blocks (s : State) (k : Nat) (c : Core) : (s.setCore k c).blocks = s.blocks := rfl
@[simp] theorem State.setCore_gangs (s : State) (k : Nat) (c : Core) : (s.setCore k c).gangs = s.gangs := rfl
@[simp] theorem State.setCore_runs (s : State) (k : Nat) (c : Core) : (s.setCore k c).runs = s.runs := rfl
@[simp] theorem State.setCore_focus (s : State) (k : Nat) (c : Core) : (s.setCore k c).focus = s.focus := rfl
@[simp] theorem State.setCore_ops (s : State) (k : Nat) (c : Core) : (s.setCore k c).ops = s.ops := rfl
@[simp] theorem State.setCore_pending (s : State) (k : Nat) (c : Core) : (s.setCore k c).pending = s.pending := rfl
@[simp] theorem State.setCore_mem (s : State) (k : Nat) (c : Core) : (s.setCore k c).mem = s.mem := rfl
@[simp] theorem State.setCore_bits (s : State) (k : Nat) (c : Core) : (s.setCore k c).bits = s.bits := rfl
@[simp] theorem State.setCore_fields (s : State) (k : Nat) (c : Core) : (s.setCore k c).fields = s.fields := rfl
@[simp] theorem State.setCore_bufs (s : State) (k : Nat) (c : Core) : (s.setCore k c).bufs = s.bufs := rfl
@[simp] theorem State.setCore_faults (s : State) (k : Nat) (c : Core) : (s.setCore k c).faults = s.faults := rfl
@[simp] theorem State.setCore_unacked (s : State) (k : Nat) (c : Core) : (s.setCore k c).unacked = s.unacked := rfl
@[simp] theorem State.setCore_flight (s : State) (k : Nat) (c : Core) : (s.setCore k c).flight = s.flight := rfl
@[simp] theorem State.setCore_acks (s : State) (k : Nat) (c : Core) : (s.setCore k c).acks = s.acks := rfl
@[simp] theorem State.setCore_seqs (s : State) (k : Nat) (c : Core) : (s.setCore k c).seqs = s.seqs := rfl
@[simp] theorem State.setCore_wraps (s : State) (k : Nat) (c : Core) : (s.setCore k c).wraps = s.wraps := rfl
@[simp] theorem State.setCore_streams (s : State) (k : Nat) (c : Core) : (s.setCore k c).streams = s.streams := rfl
@[simp] theorem State.setCore_jobs (s : State) (k : Nat) (c : Core) : (s.setCore k c).jobs = s.jobs := rfl
@[simp] theorem State.setCore_serving (s : State) (k : Nat) (c : Core) : (s.setCore k c).serving = s.serving := rfl
@[simp] theorem State.setCore_departing (s : State) (k : Nat) (c : Core) : (s.setCore k c).departing = s.departing := rfl
@[simp] theorem State.setCore_nextId (s : State) (k : Nat) (c : Core) : (s.setCore k c).nextId = s.nextId := rfl
@[simp] theorem State.setCore_free (s : State) (k : Nat) (c : Core) : (s.setCore k c).free = s.free := rfl
@[simp] theorem State.setCore_time (s : State) (k : Nat) (c : Core) : (s.setCore k c).time = s.time := rfl
@[simp] theorem State.setCore_hostRead (s : State) (k : Nat) (c : Core) : (s.setCore k c).hostRead = s.hostRead := rfl
@[simp] theorem State.setCore_hostPoison (s : State) (k : Nat) (c : Core) : (s.setCore k c).hostPoison = s.hostPoison := rfl
@[simp] theorem State.setCore_schedule (s : State) (k : Nat) (c : Core) : (s.setCore k c).schedule = s.schedule := rfl

/-! ### modCore -/

@[simp] theorem State.modCore_torus (s : State) (n : Nat) (f : Core → Core) : (s.modCore n f).torus = s.torus := rfl
@[simp] theorem State.modCore_pkgs (s : State) (n : Nat) (f : Core → Core) : (s.modCore n f).pkgs = s.pkgs := rfl
@[simp] theorem State.modCore_dies (s : State) (n : Nat) (f : Core → Core) : (s.modCore n f).dies = s.dies := rfl
@[simp] theorem State.modCore_cores (s : State) (n : Nat) (f : Core → Core) : (s.modCore n f).cores = tabPut s.cores n (f (s.core n)) := rfl
@[simp] theorem State.modCore_tasks (s : State) (n : Nat) (f : Core → Core) : (s.modCore n f).tasks = s.tasks := rfl
@[simp] theorem State.modCore_blocks (s : State) (n : Nat) (f : Core → Core) : (s.modCore n f).blocks = s.blocks := rfl
@[simp] theorem State.modCore_gangs (s : State) (n : Nat) (f : Core → Core) : (s.modCore n f).gangs = s.gangs := rfl
@[simp] theorem State.modCore_runs (s : State) (n : Nat) (f : Core → Core) : (s.modCore n f).runs = s.runs := rfl
@[simp] theorem State.modCore_focus (s : State) (n : Nat) (f : Core → Core) : (s.modCore n f).focus = s.focus := rfl
@[simp] theorem State.modCore_ops (s : State) (n : Nat) (f : Core → Core) : (s.modCore n f).ops = s.ops := rfl
@[simp] theorem State.modCore_pending (s : State) (n : Nat) (f : Core → Core) : (s.modCore n f).pending = s.pending := rfl
@[simp] theorem State.modCore_mem (s : State) (n : Nat) (f : Core → Core) : (s.modCore n f).mem = s.mem := rfl
@[simp] theorem State.modCore_bits (s : State) (n : Nat) (f : Core → Core) : (s.modCore n f).bits = s.bits := rfl
@[simp] theorem State.modCore_fields (s : State) (n : Nat) (f : Core → Core) : (s.modCore n f).fields = s.fields := rfl
@[simp] theorem State.modCore_bufs (s : State) (n : Nat) (f : Core → Core) : (s.modCore n f).bufs = s.bufs := rfl
@[simp] theorem State.modCore_faults (s : State) (n : Nat) (f : Core → Core) : (s.modCore n f).faults = s.faults := rfl
@[simp] theorem State.modCore_unacked (s : State) (n : Nat) (f : Core → Core) : (s.modCore n f).unacked = s.unacked := rfl
@[simp] theorem State.modCore_flight (s : State) (n : Nat) (f : Core → Core) : (s.modCore n f).flight = s.flight := rfl
@[simp] theorem State.modCore_acks (s : State) (n : Nat) (f : Core → Core) : (s.modCore n f).acks = s.acks := rfl
@[simp] theorem State.modCore_seqs (s : State) (n : Nat) (f : Core → Core) : (s.modCore n f).seqs = s.seqs := rfl
@[simp] theorem State.modCore_wraps (s : State) (n : Nat) (f : Core → Core) : (s.modCore n f).wraps = s.wraps := rfl
@[simp] theorem State.modCore_streams (s : State) (n : Nat) (f : Core → Core) : (s.modCore n f).streams = s.streams := rfl
@[simp] theorem State.modCore_jobs (s : State) (n : Nat) (f : Core → Core) : (s.modCore n f).jobs = s.jobs := rfl
@[simp] theorem State.modCore_serving (s : State) (n : Nat) (f : Core → Core) : (s.modCore n f).serving = s.serving := rfl
@[simp] theorem State.modCore_departing (s : State) (n : Nat) (f : Core → Core) : (s.modCore n f).departing = s.departing := rfl
@[simp] theorem State.modCore_nextId (s : State) (n : Nat) (f : Core → Core) : (s.modCore n f).nextId = s.nextId := rfl
@[simp] theorem State.modCore_free (s : State) (n : Nat) (f : Core → Core) : (s.modCore n f).free = s.free := rfl
@[simp] theorem State.modCore_time (s : State) (n : Nat) (f : Core → Core) : (s.modCore n f).time = s.time := rfl
@[simp] theorem State.modCore_hostRead (s : State) (n : Nat) (f : Core → Core) : (s.modCore n f).hostRead = s.hostRead := rfl
@[simp] theorem State.modCore_hostPoison (s : State) (n : Nat) (f : Core → Core) : (s.modCore n f).hostPoison = s.hostPoison := rfl
@[simp] theorem State.modCore_schedule (s : State) (n : Nat) (f : Core → Core) : (s.modCore n f).schedule = s.schedule := rfl

/-! ### setChannel -/

@[simp] theorem State.setChannel_torus (s : State) (die ch : Nat) (c : Channel) : (s.setChannel die ch c).torus = s.torus := rfl
@[simp] theorem State.setChannel_pkgs (s : State) (die ch : Nat) (c : Channel) : (s.setChannel die ch c).pkgs = s.pkgs := rfl
@[simp] theorem State.setChannel_dies (s : State) (die ch : Nat) (c : Channel) : (s.setChannel die ch c).dies = tabPut s.dies die { s.die die with channels := tabPut (s.die die).channels ch c } := rfl
@[simp] theorem State.setChannel_cores (s : State) (die ch : Nat) (c : Channel) : (s.setChannel die ch c).cores = s.cores := rfl
@[simp] theorem State.setChannel_tasks (s : State) (die ch : Nat) (c : Channel) : (s.setChannel die ch c).tasks = s.tasks := rfl
@[simp] theorem State.setChannel_blocks (s : State) (die ch : Nat) (c : Channel) : (s.setChannel die ch c).blocks = s.blocks := rfl
@[simp] theorem State.setChannel_gangs (s : State) (die ch : Nat) (c : Channel) : (s.setChannel die ch c).gangs = s.gangs := rfl
@[simp] theorem State.setChannel_runs (s : State) (die ch : Nat) (c : Channel) : (s.setChannel die ch c).runs = s.runs := rfl
@[simp] theorem State.setChannel_focus (s : State) (die ch : Nat) (c : Channel) : (s.setChannel die ch c).focus = s.focus := rfl
@[simp] theorem State.setChannel_ops (s : State) (die ch : Nat) (c : Channel) : (s.setChannel die ch c).ops = s.ops := rfl
@[simp] theorem State.setChannel_pending (s : State) (die ch : Nat) (c : Channel) : (s.setChannel die ch c).pending = s.pending := rfl
@[simp] theorem State.setChannel_mem (s : State) (die ch : Nat) (c : Channel) : (s.setChannel die ch c).mem = s.mem := rfl
@[simp] theorem State.setChannel_bits (s : State) (die ch : Nat) (c : Channel) : (s.setChannel die ch c).bits = s.bits := rfl
@[simp] theorem State.setChannel_fields (s : State) (die ch : Nat) (c : Channel) : (s.setChannel die ch c).fields = s.fields := rfl
@[simp] theorem State.setChannel_bufs (s : State) (die ch : Nat) (c : Channel) : (s.setChannel die ch c).bufs = s.bufs := rfl
@[simp] theorem State.setChannel_faults (s : State) (die ch : Nat) (c : Channel) : (s.setChannel die ch c).faults = s.faults := rfl
@[simp] theorem State.setChannel_unacked (s : State) (die ch : Nat) (c : Channel) : (s.setChannel die ch c).unacked = s.unacked := rfl
@[simp] theorem State.setChannel_flight (s : State) (die ch : Nat) (c : Channel) : (s.setChannel die ch c).flight = s.flight := rfl
@[simp] theorem State.setChannel_acks (s : State) (die ch : Nat) (c : Channel) : (s.setChannel die ch c).acks = s.acks := rfl
@[simp] theorem State.setChannel_seqs (s : State) (die ch : Nat) (c : Channel) : (s.setChannel die ch c).seqs = s.seqs := rfl
@[simp] theorem State.setChannel_wraps (s : State) (die ch : Nat) (c : Channel) : (s.setChannel die ch c).wraps = s.wraps := rfl
@[simp] theorem State.setChannel_streams (s : State) (die ch : Nat) (c : Channel) : (s.setChannel die ch c).streams = s.streams := rfl
@[simp] theorem State.setChannel_jobs (s : State) (die ch : Nat) (c : Channel) : (s.setChannel die ch c).jobs = s.jobs := rfl
@[simp] theorem State.setChannel_serving (s : State) (die ch : Nat) (c : Channel) : (s.setChannel die ch c).serving = s.serving := rfl
@[simp] theorem State.setChannel_departing (s : State) (die ch : Nat) (c : Channel) : (s.setChannel die ch c).departing = s.departing := rfl
@[simp] theorem State.setChannel_nextId (s : State) (die ch : Nat) (c : Channel) : (s.setChannel die ch c).nextId = s.nextId := rfl
@[simp] theorem State.setChannel_free (s : State) (die ch : Nat) (c : Channel) : (s.setChannel die ch c).free = s.free := rfl
@[simp] theorem State.setChannel_time (s : State) (die ch : Nat) (c : Channel) : (s.setChannel die ch c).time = s.time := rfl
@[simp] theorem State.setChannel_hostRead (s : State) (die ch : Nat) (c : Channel) : (s.setChannel die ch c).hostRead = s.hostRead := rfl
@[simp] theorem State.setChannel_hostPoison (s : State) (die ch : Nat) (c : Channel) : (s.setChannel die ch c).hostPoison = s.hostPoison := rfl
@[simp] theorem State.setChannel_schedule (s : State) (die ch : Nat) (c : Channel) : (s.setChannel die ch c).schedule = s.schedule := rfl

/-! ### bump -/

@[simp] theorem State.bump_torus (s : State) : s.bump.torus = s.torus := rfl
@[simp] theorem State.bump_pkgs (s : State) : s.bump.pkgs = s.pkgs := rfl
@[simp] theorem State.bump_dies (s : State) : s.bump.dies = s.dies := rfl
@[simp] theorem State.bump_cores (s : State) : s.bump.cores = s.cores := rfl
@[simp] theorem State.bump_tasks (s : State) : s.bump.tasks = s.tasks := rfl
@[simp] theorem State.bump_blocks (s : State) : s.bump.blocks = s.blocks := rfl
@[simp] theorem State.bump_gangs (s : State) : s.bump.gangs = s.gangs := rfl
@[simp] theorem State.bump_runs (s : State) : s.bump.runs = s.runs := rfl
@[simp] theorem State.bump_focus (s : State) : s.bump.focus = s.focus := rfl
@[simp] theorem State.bump_ops (s : State) : s.bump.ops = s.ops := rfl
@[simp] theorem State.bump_pending (s : State) : s.bump.pending = s.pending := rfl
@[simp] theorem State.bump_mem (s : State) : s.bump.mem = s.mem := rfl
@[simp] theorem State.bump_bits (s : State) : s.bump.bits = s.bits := rfl
@[simp] theorem State.bump_fields (s : State) : s.bump.fields = s.fields := rfl
@[simp] theorem State.bump_bufs (s : State) : s.bump.bufs = s.bufs := rfl
@[simp] theorem State.bump_faults (s : State) : s.bump.faults = s.faults := rfl
@[simp] theorem State.bump_unacked (s : State) : s.bump.unacked = s.unacked := rfl
@[simp] theorem State.bump_flight (s : State) : s.bump.flight = s.flight := rfl
@[simp] theorem State.bump_acks (s : State) : s.bump.acks = s.acks := rfl
@[simp] theorem State.bump_seqs (s : State) : s.bump.seqs = s.seqs := rfl
@[simp] theorem State.bump_wraps (s : State) : s.bump.wraps = s.wraps := rfl
@[simp] theorem State.bump_streams (s : State) : s.bump.streams = s.streams := rfl
@[simp] theorem State.bump_jobs (s : State) : s.bump.jobs = s.jobs := rfl
@[simp] theorem State.bump_serving (s : State) : s.bump.serving = s.serving := rfl
@[simp] theorem State.bump_departing (s : State) : s.bump.departing = s.departing := rfl
@[simp] theorem State.bump_nextId (s : State) : s.bump.nextId = s.nextId + 1 := rfl
@[simp] theorem State.bump_free (s : State) : s.bump.free = s.free := rfl
@[simp] theorem State.bump_time (s : State) : s.bump.time = s.time := rfl
@[simp] theorem State.bump_hostRead (s : State) : s.bump.hostRead = s.hostRead := rfl
@[simp] theorem State.bump_hostPoison (s : State) : s.bump.hostPoison = s.hostPoison := rfl
@[simp] theorem State.bump_schedule (s : State) : s.bump.schedule = s.schedule := rfl

/-! ### takeFree -/

@[simp] theorem State.takeFree_torus (s : State) (n : Nat) : (s.takeFree n).torus = s.torus := rfl
@[simp] theorem State.takeFree_pkgs (s : State) (n : Nat) : (s.takeFree n).pkgs = s.pkgs := rfl
@[simp] theorem State.takeFree_dies (s : State) (n : Nat) : (s.takeFree n).dies = s.dies := rfl
@[simp] theorem State.takeFree_cores (s : State) (n : Nat) : (s.takeFree n).cores = s.cores := rfl
@[simp] theorem State.takeFree_tasks (s : State) (n : Nat) : (s.takeFree n).tasks = s.tasks := rfl
@[simp] theorem State.takeFree_blocks (s : State) (n : Nat) : (s.takeFree n).blocks = s.blocks := rfl
@[simp] theorem State.takeFree_gangs (s : State) (n : Nat) : (s.takeFree n).gangs = s.gangs := rfl
@[simp] theorem State.takeFree_runs (s : State) (n : Nat) : (s.takeFree n).runs = s.runs := rfl
@[simp] theorem State.takeFree_focus (s : State) (n : Nat) : (s.takeFree n).focus = s.focus := rfl
@[simp] theorem State.takeFree_ops (s : State) (n : Nat) : (s.takeFree n).ops = s.ops := rfl
@[simp] theorem State.takeFree_pending (s : State) (n : Nat) : (s.takeFree n).pending = s.pending := rfl
@[simp] theorem State.takeFree_mem (s : State) (n : Nat) : (s.takeFree n).mem = s.mem := rfl
@[simp] theorem State.takeFree_bits (s : State) (n : Nat) : (s.takeFree n).bits = s.bits := rfl
@[simp] theorem State.takeFree_fields (s : State) (n : Nat) : (s.takeFree n).fields = s.fields := rfl
@[simp] theorem State.takeFree_bufs (s : State) (n : Nat) : (s.takeFree n).bufs = s.bufs := rfl
@[simp] theorem State.takeFree_faults (s : State) (n : Nat) : (s.takeFree n).faults = s.faults := rfl
@[simp] theorem State.takeFree_unacked (s : State) (n : Nat) : (s.takeFree n).unacked = s.unacked := rfl
@[simp] theorem State.takeFree_flight (s : State) (n : Nat) : (s.takeFree n).flight = s.flight := rfl
@[simp] theorem State.takeFree_acks (s : State) (n : Nat) : (s.takeFree n).acks = s.acks := rfl
@[simp] theorem State.takeFree_seqs (s : State) (n : Nat) : (s.takeFree n).seqs = s.seqs := rfl
@[simp] theorem State.takeFree_wraps (s : State) (n : Nat) : (s.takeFree n).wraps = s.wraps := rfl
@[simp] theorem State.takeFree_streams (s : State) (n : Nat) : (s.takeFree n).streams = s.streams := rfl
@[simp] theorem State.takeFree_jobs (s : State) (n : Nat) : (s.takeFree n).jobs = s.jobs := rfl
@[simp] theorem State.takeFree_serving (s : State) (n : Nat) : (s.takeFree n).serving = s.serving := rfl
@[simp] theorem State.takeFree_departing (s : State) (n : Nat) : (s.takeFree n).departing = s.departing := rfl
@[simp] theorem State.takeFree_nextId (s : State) (n : Nat) : (s.takeFree n).nextId = s.nextId := rfl
@[simp] theorem State.takeFree_free (s : State) (n : Nat) : (s.takeFree n).free = s.free + n := rfl
@[simp] theorem State.takeFree_time (s : State) (n : Nat) : (s.takeFree n).time = s.time := rfl
@[simp] theorem State.takeFree_hostRead (s : State) (n : Nat) : (s.takeFree n).hostRead = s.hostRead := rfl
@[simp] theorem State.takeFree_hostPoison (s : State) (n : Nat) : (s.takeFree n).hostPoison = s.hostPoison := rfl
@[simp] theorem State.takeFree_schedule (s : State) (n : Nat) : (s.takeFree n).schedule = s.schedule := rfl

/-! ### endRun -/

@[simp] theorem State.endRun_torus (s : State) (slot : Nat) : (s.endRun slot).torus = s.torus := rfl
@[simp] theorem State.endRun_pkgs (s : State) (slot : Nat) : (s.endRun slot).pkgs = s.pkgs := rfl
@[simp] theorem State.endRun_dies (s : State) (slot : Nat) : (s.endRun slot).dies = s.dies := rfl
@[simp] theorem State.endRun_cores (s : State) (slot : Nat) : (s.endRun slot).cores = s.cores := rfl
@[simp] theorem State.endRun_tasks (s : State) (slot : Nat) : (s.endRun slot).tasks = s.tasks := rfl
@[simp] theorem State.endRun_blocks (s : State) (slot : Nat) : (s.endRun slot).blocks = s.blocks := rfl
@[simp] theorem State.endRun_gangs (s : State) (slot : Nat) : (s.endRun slot).gangs = s.gangs := rfl
@[simp] theorem State.endRun_runs (s : State) (slot : Nat) : (s.endRun slot).runs = tabDel s.runs slot := rfl
@[simp] theorem State.endRun_focus (s : State) (slot : Nat) : (s.endRun slot).focus = none := rfl
@[simp] theorem State.endRun_ops (s : State) (slot : Nat) : (s.endRun slot).ops = s.ops := rfl
@[simp] theorem State.endRun_pending (s : State) (slot : Nat) : (s.endRun slot).pending = s.pending := rfl
@[simp] theorem State.endRun_mem (s : State) (slot : Nat) : (s.endRun slot).mem = s.mem := rfl
@[simp] theorem State.endRun_bits (s : State) (slot : Nat) : (s.endRun slot).bits = s.bits := rfl
@[simp] theorem State.endRun_fields (s : State) (slot : Nat) : (s.endRun slot).fields = s.fields := rfl
@[simp] theorem State.endRun_bufs (s : State) (slot : Nat) : (s.endRun slot).bufs = s.bufs := rfl
@[simp] theorem State.endRun_faults (s : State) (slot : Nat) : (s.endRun slot).faults = s.faults := rfl
@[simp] theorem State.endRun_unacked (s : State) (slot : Nat) : (s.endRun slot).unacked = s.unacked := rfl
@[simp] theorem State.endRun_flight (s : State) (slot : Nat) : (s.endRun slot).flight = s.flight := rfl
@[simp] theorem State.endRun_acks (s : State) (slot : Nat) : (s.endRun slot).acks = s.acks := rfl
@[simp] theorem State.endRun_seqs (s : State) (slot : Nat) : (s.endRun slot).seqs = s.seqs := rfl
@[simp] theorem State.endRun_wraps (s : State) (slot : Nat) : (s.endRun slot).wraps = s.wraps := rfl
@[simp] theorem State.endRun_streams (s : State) (slot : Nat) : (s.endRun slot).streams = s.streams := rfl
@[simp] theorem State.endRun_jobs (s : State) (slot : Nat) : (s.endRun slot).jobs = s.jobs := rfl
@[simp] theorem State.endRun_serving (s : State) (slot : Nat) : (s.endRun slot).serving = s.serving := rfl
@[simp] theorem State.endRun_departing (s : State) (slot : Nat) : (s.endRun slot).departing = s.departing := rfl
@[simp] theorem State.endRun_nextId (s : State) (slot : Nat) : (s.endRun slot).nextId = s.nextId := rfl
@[simp] theorem State.endRun_free (s : State) (slot : Nat) : (s.endRun slot).free = s.free := rfl
@[simp] theorem State.endRun_time (s : State) (slot : Nat) : (s.endRun slot).time = s.time := rfl
@[simp] theorem State.endRun_hostRead (s : State) (slot : Nat) : (s.endRun slot).hostRead = s.hostRead := rfl
@[simp] theorem State.endRun_hostPoison (s : State) (slot : Nat) : (s.endRun slot).hostPoison = s.hostPoison := rfl
@[simp] theorem State.endRun_schedule (s : State) (slot : Nat) : (s.endRun slot).schedule = s.schedule := rfl

/-! ### unfocus -/

@[simp] theorem State.unfocus_torus (s : State) : s.unfocus.torus = s.torus := rfl
@[simp] theorem State.unfocus_pkgs (s : State) : s.unfocus.pkgs = s.pkgs := rfl
@[simp] theorem State.unfocus_dies (s : State) : s.unfocus.dies = s.dies := rfl
@[simp] theorem State.unfocus_cores (s : State) : s.unfocus.cores = s.cores := rfl
@[simp] theorem State.unfocus_tasks (s : State) : s.unfocus.tasks = s.tasks := rfl
@[simp] theorem State.unfocus_blocks (s : State) : s.unfocus.blocks = s.blocks := rfl
@[simp] theorem State.unfocus_gangs (s : State) : s.unfocus.gangs = s.gangs := rfl
@[simp] theorem State.unfocus_runs (s : State) : s.unfocus.runs = s.runs := rfl
@[simp] theorem State.unfocus_focus (s : State) : s.unfocus.focus = none := rfl
@[simp] theorem State.unfocus_ops (s : State) : s.unfocus.ops = s.ops := rfl
@[simp] theorem State.unfocus_pending (s : State) : s.unfocus.pending = s.pending := rfl
@[simp] theorem State.unfocus_mem (s : State) : s.unfocus.mem = s.mem := rfl
@[simp] theorem State.unfocus_bits (s : State) : s.unfocus.bits = s.bits := rfl
@[simp] theorem State.unfocus_fields (s : State) : s.unfocus.fields = s.fields := rfl
@[simp] theorem State.unfocus_bufs (s : State) : s.unfocus.bufs = s.bufs := rfl
@[simp] theorem State.unfocus_faults (s : State) : s.unfocus.faults = s.faults := rfl
@[simp] theorem State.unfocus_unacked (s : State) : s.unfocus.unacked = s.unacked := rfl
@[simp] theorem State.unfocus_flight (s : State) : s.unfocus.flight = s.flight := rfl
@[simp] theorem State.unfocus_acks (s : State) : s.unfocus.acks = s.acks := rfl
@[simp] theorem State.unfocus_seqs (s : State) : s.unfocus.seqs = s.seqs := rfl
@[simp] theorem State.unfocus_wraps (s : State) : s.unfocus.wraps = s.wraps := rfl
@[simp] theorem State.unfocus_streams (s : State) : s.unfocus.streams = s.streams := rfl
@[simp] theorem State.unfocus_jobs (s : State) : s.unfocus.jobs = s.jobs := rfl
@[simp] theorem State.unfocus_serving (s : State) : s.unfocus.serving = s.serving := rfl
@[simp] theorem State.unfocus_departing (s : State) : s.unfocus.departing = s.departing := rfl
@[simp] theorem State.unfocus_nextId (s : State) : s.unfocus.nextId = s.nextId := rfl
@[simp] theorem State.unfocus_free (s : State) : s.unfocus.free = s.free := rfl
@[simp] theorem State.unfocus_time (s : State) : s.unfocus.time = s.time := rfl
@[simp] theorem State.unfocus_hostRead (s : State) : s.unfocus.hostRead = s.hostRead := rfl
@[simp] theorem State.unfocus_hostPoison (s : State) : s.unfocus.hostPoison = s.hostPoison := rfl
@[simp] theorem State.unfocus_schedule (s : State) : s.unfocus.schedule = s.schedule := rfl

/-! ### memPut -/

@[simp] theorem State.memPut_torus (s : State) (cell : Nat) (bytes : List Byte) : (s.memPut cell bytes).torus = s.torus := rfl
@[simp] theorem State.memPut_pkgs (s : State) (cell : Nat) (bytes : List Byte) : (s.memPut cell bytes).pkgs = s.pkgs := rfl
@[simp] theorem State.memPut_dies (s : State) (cell : Nat) (bytes : List Byte) : (s.memPut cell bytes).dies = s.dies := rfl
@[simp] theorem State.memPut_cores (s : State) (cell : Nat) (bytes : List Byte) : (s.memPut cell bytes).cores = s.cores := rfl
@[simp] theorem State.memPut_tasks (s : State) (cell : Nat) (bytes : List Byte) : (s.memPut cell bytes).tasks = s.tasks := rfl
@[simp] theorem State.memPut_blocks (s : State) (cell : Nat) (bytes : List Byte) : (s.memPut cell bytes).blocks = s.blocks := rfl
@[simp] theorem State.memPut_gangs (s : State) (cell : Nat) (bytes : List Byte) : (s.memPut cell bytes).gangs = s.gangs := rfl
@[simp] theorem State.memPut_runs (s : State) (cell : Nat) (bytes : List Byte) : (s.memPut cell bytes).runs = s.runs := rfl
@[simp] theorem State.memPut_focus (s : State) (cell : Nat) (bytes : List Byte) : (s.memPut cell bytes).focus = s.focus := rfl
@[simp] theorem State.memPut_ops (s : State) (cell : Nat) (bytes : List Byte) : (s.memPut cell bytes).ops = s.ops := rfl
@[simp] theorem State.memPut_pending (s : State) (cell : Nat) (bytes : List Byte) : (s.memPut cell bytes).pending = s.pending := rfl
@[simp] theorem State.memPut_mem (s : State) (cell : Nat) (bytes : List Byte) : (s.memPut cell bytes).mem = memWrite s.mem cell bytes := rfl
@[simp] theorem State.memPut_bits (s : State) (cell : Nat) (bytes : List Byte) : (s.memPut cell bytes).bits = s.bits := rfl
@[simp] theorem State.memPut_fields (s : State) (cell : Nat) (bytes : List Byte) : (s.memPut cell bytes).fields = s.fields := rfl
@[simp] theorem State.memPut_bufs (s : State) (cell : Nat) (bytes : List Byte) : (s.memPut cell bytes).bufs = s.bufs := rfl
@[simp] theorem State.memPut_faults (s : State) (cell : Nat) (bytes : List Byte) : (s.memPut cell bytes).faults = s.faults := rfl
@[simp] theorem State.memPut_unacked (s : State) (cell : Nat) (bytes : List Byte) : (s.memPut cell bytes).unacked = s.unacked := rfl
@[simp] theorem State.memPut_flight (s : State) (cell : Nat) (bytes : List Byte) : (s.memPut cell bytes).flight = s.flight := rfl
@[simp] theorem State.memPut_acks (s : State) (cell : Nat) (bytes : List Byte) : (s.memPut cell bytes).acks = s.acks := rfl
@[simp] theorem State.memPut_seqs (s : State) (cell : Nat) (bytes : List Byte) : (s.memPut cell bytes).seqs = s.seqs := rfl
@[simp] theorem State.memPut_wraps (s : State) (cell : Nat) (bytes : List Byte) : (s.memPut cell bytes).wraps = s.wraps := rfl
@[simp] theorem State.memPut_streams (s : State) (cell : Nat) (bytes : List Byte) : (s.memPut cell bytes).streams = s.streams := rfl
@[simp] theorem State.memPut_jobs (s : State) (cell : Nat) (bytes : List Byte) : (s.memPut cell bytes).jobs = s.jobs := rfl
@[simp] theorem State.memPut_serving (s : State) (cell : Nat) (bytes : List Byte) : (s.memPut cell bytes).serving = s.serving := rfl
@[simp] theorem State.memPut_departing (s : State) (cell : Nat) (bytes : List Byte) : (s.memPut cell bytes).departing = s.departing := rfl
@[simp] theorem State.memPut_nextId (s : State) (cell : Nat) (bytes : List Byte) : (s.memPut cell bytes).nextId = s.nextId := rfl
@[simp] theorem State.memPut_free (s : State) (cell : Nat) (bytes : List Byte) : (s.memPut cell bytes).free = s.free := rfl
@[simp] theorem State.memPut_time (s : State) (cell : Nat) (bytes : List Byte) : (s.memPut cell bytes).time = s.time := rfl
@[simp] theorem State.memPut_hostRead (s : State) (cell : Nat) (bytes : List Byte) : (s.memPut cell bytes).hostRead = s.hostRead := rfl
@[simp] theorem State.memPut_hostPoison (s : State) (cell : Nat) (bytes : List Byte) : (s.memPut cell bytes).hostPoison = s.hostPoison := rfl
@[simp] theorem State.memPut_schedule (s : State) (cell : Nat) (bytes : List Byte) : (s.memPut cell bytes).schedule = s.schedule := rfl

/-! ### clearBits -/

@[simp] theorem State.clearBits_torus (s : State) (cell n : Nat) : (s.clearBits cell n).torus = s.torus := rfl
@[simp] theorem State.clearBits_pkgs (s : State) (cell n : Nat) : (s.clearBits cell n).pkgs = s.pkgs := rfl
@[simp] theorem State.clearBits_dies (s : State) (cell n : Nat) : (s.clearBits cell n).dies = s.dies := rfl
@[simp] theorem State.clearBits_cores (s : State) (cell n : Nat) : (s.clearBits cell n).cores = s.cores := rfl
@[simp] theorem State.clearBits_tasks (s : State) (cell n : Nat) : (s.clearBits cell n).tasks = s.tasks := rfl
@[simp] theorem State.clearBits_blocks (s : State) (cell n : Nat) : (s.clearBits cell n).blocks = s.blocks := rfl
@[simp] theorem State.clearBits_gangs (s : State) (cell n : Nat) : (s.clearBits cell n).gangs = s.gangs := rfl
@[simp] theorem State.clearBits_runs (s : State) (cell n : Nat) : (s.clearBits cell n).runs = s.runs := rfl
@[simp] theorem State.clearBits_focus (s : State) (cell n : Nat) : (s.clearBits cell n).focus = s.focus := rfl
@[simp] theorem State.clearBits_ops (s : State) (cell n : Nat) : (s.clearBits cell n).ops = s.ops := rfl
@[simp] theorem State.clearBits_pending (s : State) (cell n : Nat) : (s.clearBits cell n).pending = s.pending := rfl
@[simp] theorem State.clearBits_mem (s : State) (cell n : Nat) : (s.clearBits cell n).mem = s.mem := rfl
@[simp] theorem State.clearBits_bits (s : State) (cell n : Nat) : (s.clearBits cell n).bits = (s.bits.clearPoison (granulesOf cell n)).clearOnce (granulesOf cell n) := rfl
@[simp] theorem State.clearBits_fields (s : State) (cell n : Nat) : (s.clearBits cell n).fields = s.fields := rfl
@[simp] theorem State.clearBits_bufs (s : State) (cell n : Nat) : (s.clearBits cell n).bufs = s.bufs := rfl
@[simp] theorem State.clearBits_faults (s : State) (cell n : Nat) : (s.clearBits cell n).faults = s.faults := rfl
@[simp] theorem State.clearBits_unacked (s : State) (cell n : Nat) : (s.clearBits cell n).unacked = s.unacked := rfl
@[simp] theorem State.clearBits_flight (s : State) (cell n : Nat) : (s.clearBits cell n).flight = s.flight := rfl
@[simp] theorem State.clearBits_acks (s : State) (cell n : Nat) : (s.clearBits cell n).acks = s.acks := rfl
@[simp] theorem State.clearBits_seqs (s : State) (cell n : Nat) : (s.clearBits cell n).seqs = s.seqs := rfl
@[simp] theorem State.clearBits_wraps (s : State) (cell n : Nat) : (s.clearBits cell n).wraps = s.wraps := rfl
@[simp] theorem State.clearBits_streams (s : State) (cell n : Nat) : (s.clearBits cell n).streams = s.streams := rfl
@[simp] theorem State.clearBits_jobs (s : State) (cell n : Nat) : (s.clearBits cell n).jobs = s.jobs := rfl
@[simp] theorem State.clearBits_serving (s : State) (cell n : Nat) : (s.clearBits cell n).serving = s.serving := rfl
@[simp] theorem State.clearBits_departing (s : State) (cell n : Nat) : (s.clearBits cell n).departing = s.departing := rfl
@[simp] theorem State.clearBits_nextId (s : State) (cell n : Nat) : (s.clearBits cell n).nextId = s.nextId := rfl
@[simp] theorem State.clearBits_free (s : State) (cell n : Nat) : (s.clearBits cell n).free = s.free := rfl
@[simp] theorem State.clearBits_time (s : State) (cell n : Nat) : (s.clearBits cell n).time = s.time := rfl
@[simp] theorem State.clearBits_hostRead (s : State) (cell n : Nat) : (s.clearBits cell n).hostRead = s.hostRead := rfl
@[simp] theorem State.clearBits_hostPoison (s : State) (cell n : Nat) : (s.clearBits cell n).hostPoison = s.hostPoison := rfl
@[simp] theorem State.clearBits_schedule (s : State) (cell n : Nat) : (s.clearBits cell n).schedule = s.schedule := rfl

/-! ### poison -/

@[simp] theorem State.poison_torus (s : State) (cell n : Nat) : (s.poison cell n).torus = s.torus := rfl
@[simp] theorem State.poison_pkgs (s : State) (cell n : Nat) : (s.poison cell n).pkgs = s.pkgs := rfl
@[simp] theorem State.poison_dies (s : State) (cell n : Nat) : (s.poison cell n).dies = s.dies := rfl
@[simp] theorem State.poison_cores (s : State) (cell n : Nat) : (s.poison cell n).cores = s.cores := rfl
@[simp] theorem State.poison_tasks (s : State) (cell n : Nat) : (s.poison cell n).tasks = s.tasks := rfl
@[simp] theorem State.poison_blocks (s : State) (cell n : Nat) : (s.poison cell n).blocks = s.blocks := rfl
@[simp] theorem State.poison_gangs (s : State) (cell n : Nat) : (s.poison cell n).gangs = s.gangs := rfl
@[simp] theorem State.poison_runs (s : State) (cell n : Nat) : (s.poison cell n).runs = s.runs := rfl
@[simp] theorem State.poison_focus (s : State) (cell n : Nat) : (s.poison cell n).focus = s.focus := rfl
@[simp] theorem State.poison_ops (s : State) (cell n : Nat) : (s.poison cell n).ops = s.ops := rfl
@[simp] theorem State.poison_pending (s : State) (cell n : Nat) : (s.poison cell n).pending = s.pending := rfl
@[simp] theorem State.poison_mem (s : State) (cell n : Nat) : (s.poison cell n).mem = s.mem := rfl
@[simp] theorem State.poison_bits (s : State) (cell n : Nat) : (s.poison cell n).bits = s.bits.setPoison (granulesOf cell n) := rfl
@[simp] theorem State.poison_fields (s : State) (cell n : Nat) : (s.poison cell n).fields = s.fields := rfl
@[simp] theorem State.poison_bufs (s : State) (cell n : Nat) : (s.poison cell n).bufs = s.bufs := rfl
@[simp] theorem State.poison_faults (s : State) (cell n : Nat) : (s.poison cell n).faults = s.faults := rfl
@[simp] theorem State.poison_unacked (s : State) (cell n : Nat) : (s.poison cell n).unacked = s.unacked := rfl
@[simp] theorem State.poison_flight (s : State) (cell n : Nat) : (s.poison cell n).flight = s.flight := rfl
@[simp] theorem State.poison_acks (s : State) (cell n : Nat) : (s.poison cell n).acks = s.acks := rfl
@[simp] theorem State.poison_seqs (s : State) (cell n : Nat) : (s.poison cell n).seqs = s.seqs := rfl
@[simp] theorem State.poison_wraps (s : State) (cell n : Nat) : (s.poison cell n).wraps = s.wraps := rfl
@[simp] theorem State.poison_streams (s : State) (cell n : Nat) : (s.poison cell n).streams = s.streams := rfl
@[simp] theorem State.poison_jobs (s : State) (cell n : Nat) : (s.poison cell n).jobs = s.jobs := rfl
@[simp] theorem State.poison_serving (s : State) (cell n : Nat) : (s.poison cell n).serving = s.serving := rfl
@[simp] theorem State.poison_departing (s : State) (cell n : Nat) : (s.poison cell n).departing = s.departing := rfl
@[simp] theorem State.poison_nextId (s : State) (cell n : Nat) : (s.poison cell n).nextId = s.nextId := rfl
@[simp] theorem State.poison_free (s : State) (cell n : Nat) : (s.poison cell n).free = s.free := rfl
@[simp] theorem State.poison_time (s : State) (cell n : Nat) : (s.poison cell n).time = s.time := rfl
@[simp] theorem State.poison_hostRead (s : State) (cell n : Nat) : (s.poison cell n).hostRead = s.hostRead := rfl
@[simp] theorem State.poison_hostPoison (s : State) (cell n : Nat) : (s.poison cell n).hostPoison = s.hostPoison := rfl
@[simp] theorem State.poison_schedule (s : State) (cell n : Nat) : (s.poison cell n).schedule = s.schedule := rfl

/-! ### dropClaims -/

@[simp] theorem State.dropClaims_torus (s : State) (core run : Nat) : (s.dropClaims core run).torus = s.torus := rfl
@[simp] theorem State.dropClaims_pkgs (s : State) (core run : Nat) : (s.dropClaims core run).pkgs = s.pkgs := rfl
@[simp] theorem State.dropClaims_dies (s : State) (core run : Nat) : (s.dropClaims core run).dies = s.dies := rfl
@[simp] theorem State.dropClaims_tasks (s : State) (core run : Nat) : (s.dropClaims core run).tasks = s.tasks := rfl
@[simp] theorem State.dropClaims_blocks (s : State) (core run : Nat) : (s.dropClaims core run).blocks = s.blocks := rfl
@[simp] theorem State.dropClaims_gangs (s : State) (core run : Nat) : (s.dropClaims core run).gangs = s.gangs := rfl
@[simp] theorem State.dropClaims_runs (s : State) (core run : Nat) : (s.dropClaims core run).runs = s.runs := rfl
@[simp] theorem State.dropClaims_focus (s : State) (core run : Nat) : (s.dropClaims core run).focus = s.focus := rfl
@[simp] theorem State.dropClaims_ops (s : State) (core run : Nat) : (s.dropClaims core run).ops = s.ops := rfl
@[simp] theorem State.dropClaims_pending (s : State) (core run : Nat) : (s.dropClaims core run).pending = s.pending := rfl
@[simp] theorem State.dropClaims_mem (s : State) (core run : Nat) : (s.dropClaims core run).mem = s.mem := rfl
@[simp] theorem State.dropClaims_bits (s : State) (core run : Nat) : (s.dropClaims core run).bits = s.bits := rfl
@[simp] theorem State.dropClaims_fields (s : State) (core run : Nat) : (s.dropClaims core run).fields = s.fields := rfl
@[simp] theorem State.dropClaims_bufs (s : State) (core run : Nat) : (s.dropClaims core run).bufs = s.bufs := rfl
@[simp] theorem State.dropClaims_faults (s : State) (core run : Nat) : (s.dropClaims core run).faults = s.faults := rfl
@[simp] theorem State.dropClaims_unacked (s : State) (core run : Nat) : (s.dropClaims core run).unacked = s.unacked := rfl
@[simp] theorem State.dropClaims_flight (s : State) (core run : Nat) : (s.dropClaims core run).flight = s.flight := rfl
@[simp] theorem State.dropClaims_acks (s : State) (core run : Nat) : (s.dropClaims core run).acks = s.acks := rfl
@[simp] theorem State.dropClaims_seqs (s : State) (core run : Nat) : (s.dropClaims core run).seqs = s.seqs := rfl
@[simp] theorem State.dropClaims_wraps (s : State) (core run : Nat) : (s.dropClaims core run).wraps = s.wraps := rfl
@[simp] theorem State.dropClaims_streams (s : State) (core run : Nat) : (s.dropClaims core run).streams = s.streams := rfl
@[simp] theorem State.dropClaims_jobs (s : State) (core run : Nat) : (s.dropClaims core run).jobs = s.jobs := rfl
@[simp] theorem State.dropClaims_serving (s : State) (core run : Nat) : (s.dropClaims core run).serving = s.serving := rfl
@[simp] theorem State.dropClaims_departing (s : State) (core run : Nat) : (s.dropClaims core run).departing = s.departing := rfl
@[simp] theorem State.dropClaims_nextId (s : State) (core run : Nat) : (s.dropClaims core run).nextId = s.nextId := rfl
@[simp] theorem State.dropClaims_free (s : State) (core run : Nat) : (s.dropClaims core run).free = s.free := rfl
@[simp] theorem State.dropClaims_time (s : State) (core run : Nat) : (s.dropClaims core run).time = s.time := rfl
@[simp] theorem State.dropClaims_hostRead (s : State) (core run : Nat) : (s.dropClaims core run).hostRead = s.hostRead := rfl
@[simp] theorem State.dropClaims_hostPoison (s : State) (core run : Nat) : (s.dropClaims core run).hostPoison = s.hostPoison := rfl
@[simp] theorem State.dropClaims_schedule (s : State) (core run : Nat) : (s.dropClaims core run).schedule = s.schedule := rfl

/-! ## Parts after an update -/

@[simp] theorem State.task_setTask_self (s : State) (n : Nat) (x : Task) : (s.setTask n x).task n = x := by
  simp [State.task]
theorem State.task_setTask_ne (s : State) {n m : Nat} (x : Task) (h : n ≠ m) : (s.setTask n x).task m = s.task m := by
  simp [State.task, tabGet_tabPut_ne _ _ _ h]
@[simp] theorem State.block_setBlock_self (s : State) (n : Nat) (x : Block) : (s.setBlock n x).block n = x := by
  simp [State.block]
theorem State.block_setBlock_ne (s : State) {n m : Nat} (x : Block) (h : n ≠ m) : (s.setBlock n x).block m = s.block m := by
  simp [State.block, tabGet_tabPut_ne _ _ _ h]
@[simp] theorem State.gang_setGang_self (s : State) (n : Nat) (x : Gang) : (s.setGang n x).gang n = x := by
  simp [State.gang]
theorem State.gang_setGang_ne (s : State) {n m : Nat} (x : Gang) (h : n ≠ m) : (s.setGang n x).gang m = s.gang m := by
  simp [State.gang, tabGet_tabPut_ne _ _ _ h]
@[simp] theorem State.pkg_setPkg_self (s : State) (n : Nat) (x : Pkg) : (s.setPkg n x).pkg n = x := by
  simp [State.pkg]
theorem State.pkg_setPkg_ne (s : State) {n m : Nat} (x : Pkg) (h : n ≠ m) : (s.setPkg n x).pkg m = s.pkg m := by
  simp [State.pkg, tabGet_tabPut_ne _ _ _ h]
@[simp] theorem State.die_setDie_self (s : State) (n : Nat) (x : Die) : (s.setDie n x).die n = x := by
  simp [State.die]
theorem State.die_setDie_ne (s : State) {n m : Nat} (x : Die) (h : n ≠ m) : (s.setDie n x).die m = s.die m := by
  simp [State.die, tabGet_tabPut_ne _ _ _ h]
@[simp] theorem State.core_setCore_self (s : State) (n : Nat) (x : Core) : (s.setCore n x).core n = x := by
  simp [State.core]
theorem State.core_setCore_ne (s : State) {n m : Nat} (x : Core) (h : n ≠ m) : (s.setCore n x).core m = s.core m := by
  simp [State.core, tabGet_tabPut_ne _ _ _ h]
@[simp] theorem State.gang_modGang_self (s : State) (n : Nat) (f : Gang → Gang) : (s.modGang n f).gang n = f (s.gang n) := by
  simp [State.modGang]
theorem State.gang_modGang_ne (s : State) {n m : Nat} (f : Gang → Gang) (h : n ≠ m) : (s.modGang n f).gang m = s.gang m := by
  simp [State.modGang, State.gang_setGang_ne s _ h]
@[simp] theorem State.setGang_setGang (s : State) (n : Nat) (g k : Gang) : (s.setGang n g).setGang n k = s.setGang n k := by
  simp [State.setGang]
@[simp] theorem State.modGang_setGang (s : State) (n : Nat) (g : Gang) (f : Gang → Gang) :
    (s.setGang n g).modGang n f = s.setGang n (f g) := by
  simp [State.modGang]
@[simp] theorem State.task_setBlock (s : State) (n : Nat) (b : Block) (k' : Nat) : (s.setBlock n b).task k' = s.task k' := rfl
@[simp] theorem State.task_setGang (s : State) (n : Nat) (g : Gang) (k' : Nat) : (s.setGang n g).task k' = s.task k' := rfl
@[simp] theorem State.task_modGang (s : State) (n : Nat) (f : Gang → Gang) (k' : Nat) : (s.modGang n f).task k' = s.task k' := rfl
@[simp] theorem State.task_setPkg (s : State) (n : Nat) (p : Pkg) (k' : Nat) : (s.setPkg n p).task k' = s.task k' := rfl
@[simp] theorem State.task_setDie (s : State) (k : Nat) (d : Die) (k' : Nat) : (s.setDie k d).task k' = s.task k' := rfl
@[simp] theorem State.task_setCore (s : State) (k : Nat) (c : Core) (k' : Nat) : (s.setCore k c).task k' = s.task k' := rfl
@[simp] theorem State.task_modCore (s : State) (n : Nat) (f : Core → Core) (k' : Nat) : (s.modCore n f).task k' = s.task k' := rfl
@[simp] theorem State.task_setChannel (s : State) (die ch : Nat) (c : Channel) (k' : Nat) : (s.setChannel die ch c).task k' = s.task k' := rfl
@[simp] theorem State.task_bump (s : State) (k' : Nat) : s.bump.task k' = s.task k' := rfl
@[simp] theorem State.task_takeFree (s : State) (n : Nat) (k' : Nat) : (s.takeFree n).task k' = s.task k' := rfl
@[simp] theorem State.task_endRun (s : State) (slot : Nat) (k' : Nat) : (s.endRun slot).task k' = s.task k' := rfl
@[simp] theorem State.task_unfocus (s : State) (k' : Nat) : s.unfocus.task k' = s.task k' := rfl
@[simp] theorem State.task_memPut (s : State) (cell : Nat) (bytes : List Byte) (k' : Nat) : (s.memPut cell bytes).task k' = s.task k' := rfl
@[simp] theorem State.task_clearBits (s : State) (cell n : Nat) (k' : Nat) : (s.clearBits cell n).task k' = s.task k' := rfl
@[simp] theorem State.task_poison (s : State) (cell n : Nat) (k' : Nat) : (s.poison cell n).task k' = s.task k' := rfl
@[simp] theorem State.task_dropClaims (s : State) (core run : Nat) (k' : Nat) : (s.dropClaims core run).task k' = s.task k' := rfl
@[simp] theorem State.block_setTask (s : State) (n : Nat) (t : Task) (k' : Nat) : (s.setTask n t).block k' = s.block k' := rfl
@[simp] theorem State.block_setGang (s : State) (n : Nat) (g : Gang) (k' : Nat) : (s.setGang n g).block k' = s.block k' := rfl
@[simp] theorem State.block_modGang (s : State) (n : Nat) (f : Gang → Gang) (k' : Nat) : (s.modGang n f).block k' = s.block k' := rfl
@[simp] theorem State.block_setPkg (s : State) (n : Nat) (p : Pkg) (k' : Nat) : (s.setPkg n p).block k' = s.block k' := rfl
@[simp] theorem State.block_setDie (s : State) (k : Nat) (d : Die) (k' : Nat) : (s.setDie k d).block k' = s.block k' := rfl
@[simp] theorem State.block_setCore (s : State) (k : Nat) (c : Core) (k' : Nat) : (s.setCore k c).block k' = s.block k' := rfl
@[simp] theorem State.block_modCore (s : State) (n : Nat) (f : Core → Core) (k' : Nat) : (s.modCore n f).block k' = s.block k' := rfl
@[simp] theorem State.block_setChannel (s : State) (die ch : Nat) (c : Channel) (k' : Nat) : (s.setChannel die ch c).block k' = s.block k' := rfl
@[simp] theorem State.block_bump (s : State) (k' : Nat) : s.bump.block k' = s.block k' := rfl
@[simp] theorem State.block_takeFree (s : State) (n : Nat) (k' : Nat) : (s.takeFree n).block k' = s.block k' := rfl
@[simp] theorem State.block_endRun (s : State) (slot : Nat) (k' : Nat) : (s.endRun slot).block k' = s.block k' := rfl
@[simp] theorem State.block_unfocus (s : State) (k' : Nat) : s.unfocus.block k' = s.block k' := rfl
@[simp] theorem State.block_memPut (s : State) (cell : Nat) (bytes : List Byte) (k' : Nat) : (s.memPut cell bytes).block k' = s.block k' := rfl
@[simp] theorem State.block_clearBits (s : State) (cell n : Nat) (k' : Nat) : (s.clearBits cell n).block k' = s.block k' := rfl
@[simp] theorem State.block_poison (s : State) (cell n : Nat) (k' : Nat) : (s.poison cell n).block k' = s.block k' := rfl
@[simp] theorem State.block_dropClaims (s : State) (core run : Nat) (k' : Nat) : (s.dropClaims core run).block k' = s.block k' := rfl
@[simp] theorem State.gang_setTask (s : State) (n : Nat) (t : Task) (k' : Nat) : (s.setTask n t).gang k' = s.gang k' := rfl
@[simp] theorem State.gang_setBlock (s : State) (n : Nat) (b : Block) (k' : Nat) : (s.setBlock n b).gang k' = s.gang k' := rfl
@[simp] theorem State.gang_setPkg (s : State) (n : Nat) (p : Pkg) (k' : Nat) : (s.setPkg n p).gang k' = s.gang k' := rfl
@[simp] theorem State.gang_setDie (s : State) (k : Nat) (d : Die) (k' : Nat) : (s.setDie k d).gang k' = s.gang k' := rfl
@[simp] theorem State.gang_setCore (s : State) (k : Nat) (c : Core) (k' : Nat) : (s.setCore k c).gang k' = s.gang k' := rfl
@[simp] theorem State.gang_modCore (s : State) (n : Nat) (f : Core → Core) (k' : Nat) : (s.modCore n f).gang k' = s.gang k' := rfl
@[simp] theorem State.gang_setChannel (s : State) (die ch : Nat) (c : Channel) (k' : Nat) : (s.setChannel die ch c).gang k' = s.gang k' := rfl
@[simp] theorem State.gang_bump (s : State) (k' : Nat) : s.bump.gang k' = s.gang k' := rfl
@[simp] theorem State.gang_takeFree (s : State) (n : Nat) (k' : Nat) : (s.takeFree n).gang k' = s.gang k' := rfl
@[simp] theorem State.gang_endRun (s : State) (slot : Nat) (k' : Nat) : (s.endRun slot).gang k' = s.gang k' := rfl
@[simp] theorem State.gang_unfocus (s : State) (k' : Nat) : s.unfocus.gang k' = s.gang k' := rfl
@[simp] theorem State.gang_memPut (s : State) (cell : Nat) (bytes : List Byte) (k' : Nat) : (s.memPut cell bytes).gang k' = s.gang k' := rfl
@[simp] theorem State.gang_clearBits (s : State) (cell n : Nat) (k' : Nat) : (s.clearBits cell n).gang k' = s.gang k' := rfl
@[simp] theorem State.gang_poison (s : State) (cell n : Nat) (k' : Nat) : (s.poison cell n).gang k' = s.gang k' := rfl
@[simp] theorem State.gang_dropClaims (s : State) (core run : Nat) (k' : Nat) : (s.dropClaims core run).gang k' = s.gang k' := rfl
@[simp] theorem State.pkg_setTask (s : State) (n : Nat) (t : Task) (k' : Nat) : (s.setTask n t).pkg k' = s.pkg k' := rfl
@[simp] theorem State.pkg_setBlock (s : State) (n : Nat) (b : Block) (k' : Nat) : (s.setBlock n b).pkg k' = s.pkg k' := rfl
@[simp] theorem State.pkg_setGang (s : State) (n : Nat) (g : Gang) (k' : Nat) : (s.setGang n g).pkg k' = s.pkg k' := rfl
@[simp] theorem State.pkg_modGang (s : State) (n : Nat) (f : Gang → Gang) (k' : Nat) : (s.modGang n f).pkg k' = s.pkg k' := rfl
@[simp] theorem State.pkg_setDie (s : State) (k : Nat) (d : Die) (k' : Nat) : (s.setDie k d).pkg k' = s.pkg k' := rfl
@[simp] theorem State.pkg_setCore (s : State) (k : Nat) (c : Core) (k' : Nat) : (s.setCore k c).pkg k' = s.pkg k' := rfl
@[simp] theorem State.pkg_modCore (s : State) (n : Nat) (f : Core → Core) (k' : Nat) : (s.modCore n f).pkg k' = s.pkg k' := rfl
@[simp] theorem State.pkg_setChannel (s : State) (die ch : Nat) (c : Channel) (k' : Nat) : (s.setChannel die ch c).pkg k' = s.pkg k' := rfl
@[simp] theorem State.pkg_bump (s : State) (k' : Nat) : s.bump.pkg k' = s.pkg k' := rfl
@[simp] theorem State.pkg_takeFree (s : State) (n : Nat) (k' : Nat) : (s.takeFree n).pkg k' = s.pkg k' := rfl
@[simp] theorem State.pkg_endRun (s : State) (slot : Nat) (k' : Nat) : (s.endRun slot).pkg k' = s.pkg k' := rfl
@[simp] theorem State.pkg_unfocus (s : State) (k' : Nat) : s.unfocus.pkg k' = s.pkg k' := rfl
@[simp] theorem State.pkg_memPut (s : State) (cell : Nat) (bytes : List Byte) (k' : Nat) : (s.memPut cell bytes).pkg k' = s.pkg k' := rfl
@[simp] theorem State.pkg_clearBits (s : State) (cell n : Nat) (k' : Nat) : (s.clearBits cell n).pkg k' = s.pkg k' := rfl
@[simp] theorem State.pkg_poison (s : State) (cell n : Nat) (k' : Nat) : (s.poison cell n).pkg k' = s.pkg k' := rfl
@[simp] theorem State.pkg_dropClaims (s : State) (core run : Nat) (k' : Nat) : (s.dropClaims core run).pkg k' = s.pkg k' := rfl
@[simp] theorem State.die_setTask (s : State) (n : Nat) (t : Task) (k' : Nat) : (s.setTask n t).die k' = s.die k' := rfl
@[simp] theorem State.die_setBlock (s : State) (n : Nat) (b : Block) (k' : Nat) : (s.setBlock n b).die k' = s.die k' := rfl
@[simp] theorem State.die_setGang (s : State) (n : Nat) (g : Gang) (k' : Nat) : (s.setGang n g).die k' = s.die k' := rfl
@[simp] theorem State.die_modGang (s : State) (n : Nat) (f : Gang → Gang) (k' : Nat) : (s.modGang n f).die k' = s.die k' := rfl
@[simp] theorem State.die_setPkg (s : State) (n : Nat) (p : Pkg) (k' : Nat) : (s.setPkg n p).die k' = s.die k' := rfl
@[simp] theorem State.die_setCore (s : State) (k : Nat) (c : Core) (k' : Nat) : (s.setCore k c).die k' = s.die k' := rfl
@[simp] theorem State.die_modCore (s : State) (n : Nat) (f : Core → Core) (k' : Nat) : (s.modCore n f).die k' = s.die k' := rfl
@[simp] theorem State.die_bump (s : State) (k' : Nat) : s.bump.die k' = s.die k' := rfl
@[simp] theorem State.die_takeFree (s : State) (n : Nat) (k' : Nat) : (s.takeFree n).die k' = s.die k' := rfl
@[simp] theorem State.die_endRun (s : State) (slot : Nat) (k' : Nat) : (s.endRun slot).die k' = s.die k' := rfl
@[simp] theorem State.die_unfocus (s : State) (k' : Nat) : s.unfocus.die k' = s.die k' := rfl
@[simp] theorem State.die_memPut (s : State) (cell : Nat) (bytes : List Byte) (k' : Nat) : (s.memPut cell bytes).die k' = s.die k' := rfl
@[simp] theorem State.die_clearBits (s : State) (cell n : Nat) (k' : Nat) : (s.clearBits cell n).die k' = s.die k' := rfl
@[simp] theorem State.die_poison (s : State) (cell n : Nat) (k' : Nat) : (s.poison cell n).die k' = s.die k' := rfl
@[simp] theorem State.die_dropClaims (s : State) (core run : Nat) (k' : Nat) : (s.dropClaims core run).die k' = s.die k' := rfl
@[simp] theorem State.core_setTask (s : State) (n : Nat) (t : Task) (k' : Nat) : (s.setTask n t).core k' = s.core k' := rfl
@[simp] theorem State.core_setBlock (s : State) (n : Nat) (b : Block) (k' : Nat) : (s.setBlock n b).core k' = s.core k' := rfl
@[simp] theorem State.core_setGang (s : State) (n : Nat) (g : Gang) (k' : Nat) : (s.setGang n g).core k' = s.core k' := rfl
@[simp] theorem State.core_modGang (s : State) (n : Nat) (f : Gang → Gang) (k' : Nat) : (s.modGang n f).core k' = s.core k' := rfl
@[simp] theorem State.core_setPkg (s : State) (n : Nat) (p : Pkg) (k' : Nat) : (s.setPkg n p).core k' = s.core k' := rfl
@[simp] theorem State.core_setDie (s : State) (k : Nat) (d : Die) (k' : Nat) : (s.setDie k d).core k' = s.core k' := rfl
@[simp] theorem State.core_setChannel (s : State) (die ch : Nat) (c : Channel) (k' : Nat) : (s.setChannel die ch c).core k' = s.core k' := rfl
@[simp] theorem State.core_bump (s : State) (k' : Nat) : s.bump.core k' = s.core k' := rfl
@[simp] theorem State.core_takeFree (s : State) (n : Nat) (k' : Nat) : (s.takeFree n).core k' = s.core k' := rfl
@[simp] theorem State.core_endRun (s : State) (slot : Nat) (k' : Nat) : (s.endRun slot).core k' = s.core k' := rfl
@[simp] theorem State.core_unfocus (s : State) (k' : Nat) : s.unfocus.core k' = s.core k' := rfl
@[simp] theorem State.core_memPut (s : State) (cell : Nat) (bytes : List Byte) (k' : Nat) : (s.memPut cell bytes).core k' = s.core k' := rfl
@[simp] theorem State.core_clearBits (s : State) (cell n : Nat) (k' : Nat) : (s.clearBits cell n).core k' = s.core k' := rfl
@[simp] theorem State.core_poison (s : State) (cell n : Nat) (k' : Nat) : (s.poison cell n).core k' = s.core k' := rfl
/-- A byte is seen as before where the stores on their way, the cells and every cache are. -/
theorem State.viewByte_congr {s t : State} (hp : t.pending = s.pending) (hm : t.mem = s.mem)
    (h1 : ∀ k, (t.core k).l1 = (s.core k).l1) (hn : ∀ k, (t.core k).near = (s.core k).near)
    (h2 : ∀ k, (t.die k).l2 = (s.die k).l2) (v : Viewer) (win : Bool) (at_ : Nat) :
    t.viewByte v win at_ = s.viewByte v win at_ := by
  have hd : t.dieByte win at_ = s.dieByte win at_ := by simp only [State.dieByte, hp, hm, h2]
  have hc : ∀ k, t.coreByte k win at_ = s.coreByte k win at_ := fun k => by simp only [State.coreByte, hp, h1, hd]
  cases v <;> simp only [State.viewByte, Core.nearOf, hp, hm, hd, hc, hn]
/-- A die changes, its L2 does not. -/
theorem State.viewByte_setDie (s : State) {k : Nat} {d : Die} (h : d.l2 = (s.die k).l2) (v : Viewer) (win : Bool) (at_ : Nat) :
    (s.setDie k d).viewByte v win at_ = s.viewByte v win at_ := by
  refine State.viewByte_congr (s := s) (t := s.setDie k d) rfl rfl (fun _ => rfl) (fun _ => rfl) (fun j => ?_) v win at_
  by_cases hj : k = j
  · subst hj; simpa using h
  · rw [State.die_setDie_ne s d hj]
/-- A core changes, its L1 and what its gangs keep do not. -/
theorem State.viewByte_setCore (s : State) {k : Nat} {c : Core} (h : c.l1 = (s.core k).l1) (hn : c.near = (s.core k).near)
    (v : Viewer) (win : Bool) (at_ : Nat) : (s.setCore k c).viewByte v win at_ = s.viewByte v win at_ := by
  refine State.viewByte_congr (s := s) (t := s.setCore k c) rfl rfl (fun j => ?_) (fun j => ?_) (fun _ => rfl) v win at_
  all_goals
    by_cases hj : k = j
    · subst hj; simpa
    · rw [State.core_setCore_ne s c hj]
theorem State.viewByte_modCore (s : State) {n : Nat} {f : Core → Core} (h : (f (s.core n)).l1 = (s.core n).l1)
    (hn : (f (s.core n)).near = (s.core n).near) (v : Viewer) (win : Bool) (at_ : Nat) :
    (s.modCore n f).viewByte v win at_ = s.viewByte v win at_ := s.viewByte_setCore h hn v win at_
@[simp] theorem State.viewByte_setChannel (s : State) (die ch : Nat) (c : Channel) (v : Viewer) (win : Bool) (at_ : Nat) :
    (s.setChannel die ch c).viewByte v win at_ = s.viewByte v win at_ :=
  s.viewByte_setDie (d := { s.die die with channels := tabPut (s.die die).channels ch c }) rfl v win at_
@[simp] theorem State.viewByte_dropClaims (s : State) (core run : Nat) (v : Viewer) (win : Bool) (at_ : Nat) :
    (s.dropClaims core run).viewByte v win at_ = s.viewByte v win at_ := by
  refine State.viewByte_congr (s := s) (t := s.dropClaims core run) rfl rfl (fun j => ?_) (fun j => ?_) (fun _ => rfl) v win at_
  · exact tabGet_tabMod_keep (g := Core.l1) s.cores Core.reset core j fun _ => rfl
  · exact tabGet_tabMod_keep (g := Core.near) s.cores Core.reset core j fun _ => rfl
@[simp] theorem State.viewByte_bump (s : State) (v : Viewer) (win : Bool) (at_ : Nat) :
    s.bump.viewByte v win at_ = s.viewByte v win at_ := rfl
@[simp] theorem State.viewByte_takeFree (s : State) (n : Nat) (v : Viewer) (win : Bool) (at_ : Nat) :
    (s.takeFree n).viewByte v win at_ = s.viewByte v win at_ := rfl
@[simp] theorem State.viewByte_endRun (s : State) (slot : Nat) (v : Viewer) (win : Bool) (at_ : Nat) :
    (s.endRun slot).viewByte v win at_ = s.viewByte v win at_ := rfl
@[simp] theorem State.viewByte_unfocus (s : State) (v : Viewer) (win : Bool) (at_ : Nat) :
    s.unfocus.viewByte v win at_ = s.viewByte v win at_ := rfl
@[simp] theorem State.viewByte_clearBits (s : State) (cell n : Nat) (v : Viewer) (win : Bool) (at_ : Nat) :
    (s.clearBits cell n).viewByte v win at_ = s.viewByte v win at_ := rfl
@[simp] theorem State.viewByte_poison (s : State) (cell n : Nat) (v : Viewer) (win : Bool) (at_ : Nat) :
    (s.poison cell n).viewByte v win at_ = s.viewByte v win at_ := rfl

end Sys2Proof.Machine
end

