-- ==== Sys2Proof/Laws/Word.lean ====
section
/-! SUPPORT. What a word does: once for every word, then for the words that write lanes. -/

namespace Sys2Proof.Machine

/-! ## Queue pops leave everything but the queues -/

theorem Gang.setQueue_eq (g : Gang) (q : Nat) (t : Tab (List Word)) :
    g.setQueue q t = { g with q0 := (g.setQueue q t).q0, q1 := (g.setQueue q t).q1, q2 := (g.setQueue q t).q2 } := by
  unfold Gang.setQueue
  split <;> rfl
theorem Gang.popLanes_eq (g : Gang) (q n : Nat) (m : LaneSet) :
    g.popLanes q n m =
      { g with q0 := (g.popLanes q n m).q0, q1 := (g.popLanes q n m).q1, q2 := (g.popLanes q n m).q2 } := by
  unfold Gang.popLanes
  split
  · rfl
  · exact Gang.setQueue_eq ..
/-- A word's pops change the queues alone (R16). -/
theorem Gang.pops_eq (g : Gang) (u : Uses) (m : LaneSet) :
    g.pops u m = { g with q0 := (g.pops u m).q0, q1 := (g.pops u m).q1, q2 := (g.pops u m).q2 } := by
  simp only [Gang.pops]
  rw [Gang.popLanes_eq (Gang.popLanes _ _ _ _) 2, Gang.popLanes_eq (Gang.popLanes _ _ _ _) 1, Gang.popLanes_eq g 0]
@[simp] theorem Gang.pops_lanes (g : Gang) (u : Uses) (m : LaneSet) : (g.pops u m).lanes = g.lanes := by
  rw [Gang.pops_eq]
@[simp] theorem Gang.pops_frags (g : Gang) (u : Uses) (m : LaneSet) : (g.pops u m).frags = g.frags := by
  rw [Gang.pops_eq]
/-- A word that names no queue register pops nothing. -/
theorem Gang.pops_none (g : Gang) (u : Uses) (m : LaneSet) (h : ∀ f ∈ u.reads, f < 112 ∨ 115 ≤ f) : g.pops u m = g := by
  have e (q : Nat) (hq : q < 3) : popsOf u q = 0 := by
    simp only [popsOf, List.count_eq_zero]
    exact fun hm => by have := h _ hm; omega
  simp [Gang.pops, Gang.popLanes, e 0, e 1, e 2]

/-! ## The issuing run -/

/-- The issuer's gang is the one filed under its number. -/
theorem State.issuer_gang {s : State} {c : Ctx} (h : s.issuer = some c) : tabFind s.gangs c.gid = some c.gang := by
  simp only [State.issuer] at h
  split at h
  · simp at h
  · split at h
    · simp at h
    · split at h
      · simp at h
      · next g hg => simp only [Option.some.injEq] at h; subst h; exact hg
theorem State.issuer_run {s : State} {c : Ctx} (h : s.issuer = some c) :
    s.focus = some c.slot ∧ tabFind s.runs c.slot = some c.run ∧ c.gid = c.run.gang := by
  simp only [State.issuer] at h
  split at h
  · simp at h
  · next k hk =>
    split at h
    · simp at h
    · next r hr =>
      split at h
      · simp at h
      · simp only [Option.some.injEq] at h; subst h; exact ⟨hk, hr, rfl⟩
theorem State.gang_of_issuer {s : State} {c : Ctx} (h : s.issuer = some c) : s.gang c.gid = c.gang := by
  simp [State.gang, tabGet, State.issuer_gang h]

/-! ## Every word -/

/-- The state in which a word's own effect begins: its queue entries have left. -/
def Ctx.begin (c : Ctx) (i : Instr) (s : State) : State := s.setGang c.gid (c.gang.pops (usesOf i) (c.perf (guardOf i)))

/-- A word for which no run issues stops. -/
theorem word_noIssuer {i : Instr} {body : Ctx → LaneSet → State → Except Trap State} {s : State} (h : s.issuer = none) :
    word i body s = .fault .noIssuer := by
  simp [word, h]
/-- A word that is not clear takes its trap, in the lowest lane that it fails in. -/
theorem word_trap {i : Instr} {body : Ctx → LaneSet → State → Except Trap State} {s : State} {c : Ctx} {f : Fail × LaneSet}
    (h : s.issuer = some c) (ht : c.wordTrap s i (c.perf (guardOf i)) = some f) :
    word i body s = .next (s.takeTrap c (if c.perf (guardOf i) = 0 then c.run.act else c.perf (guardOf i))
      (Trap.of f.1 (lowestLane f.2) 0)) := by
  simp only [word, h, ht]
/-- A clear word whose body succeeds answers the body's state. -/
theorem word_ok {i : Instr} {body : Ctx → LaneSet → State → Except Trap State} {s t : State} {c : Ctx}
    (h : s.issuer = some c) (hc : c.wordTrap s i (c.perf (guardOf i)) = none)
    (hb : body c (c.perf (guardOf i)) (c.begin i s) = .ok t) : word i body s = .next t := by
  simp only [Ctx.begin] at hb
  simp only [word, h, hc, hb]
/-- A clear word whose body fails takes the trap, with nothing else changed. -/
theorem word_error {i : Instr} {body : Ctx → LaneSet → State → Except Trap State} {s : State} {c : Ctx} {t : Trap}
    (h : s.issuer = some c) (hc : c.wordTrap s i (c.perf (guardOf i)) = none)
    (hb : body c (c.perf (guardOf i)) (c.begin i s) = .error t) :
    word i body s = .next (if t.fail = failWait then s.stall c else s.takeTrap c (c.perf (guardOf i)) t) := by
  simp only [Ctx.begin] at hb
  simp only [word, h, hc, hb]
/-- The four ways a word ends: no issuer, a trap, its body's state, a wait for the rest of its group. -/
theorem word_cases {i : Instr} {body : Ctx → LaneSet → State → Except Trap State} {s : State}
    {r : Host.Outcome State Fault Refusal} (h : word i body s = r) :
    (s.issuer = none ∧ r = .fault .noIssuer) ∨
    (∃ c m t, s.issuer = some c ∧ r = .next (s.takeTrap c m t)) ∨
    (∃ c t, s.issuer = some c ∧ body c (c.perf (guardOf i)) (c.begin i s) = .ok t ∧ r = .next t) ∨
    (∃ c, s.issuer = some c ∧ r = .next (s.stall c)) := by
  subst h
  cases hi : s.issuer with
  | none => exact .inl ⟨rfl, word_noIssuer hi⟩
  | some c =>
    right
    cases hc : c.wordTrap s i (c.perf (guardOf i)) with
    | some f => exact .inl ⟨c, _, _, rfl, word_trap hi hc⟩
    | none =>
      cases hb : body c (c.perf (guardOf i)) (c.begin i s) with
      | ok t => exact .inr (.inl ⟨c, t, rfl, hb, word_ok hi hc hb⟩)
      | error t =>
        have h := word_error hi hc hb
        split at h
        · exact .inr (.inr ⟨c, rfl, h⟩)
        · exact .inl ⟨c, _, t, rfl, h⟩

/-! ## Words that change their gang alone -/

/-- A change of one gang changes nothing else. -/
theorem gangOnly_setGang (s : State) (gid : Nat) (g : Gang) : GangOnly s gid g (s.setGang gid g) :=
  ⟨tabFind_tabPut_self .., fun _ h => tabFind_tabPut_ne _ _ (Ne.symm h), rfl, fun _ _ _ => rfl⟩
@[simp] theorem Ctx.begin_gang (c : Ctx) (i : Instr) (s : State) : (c.begin i s).gang c.gid = popped i c := by
  simp [Ctx.begin, popped, performing]
theorem Ctx.begin_modGang (c : Ctx) (i : Instr) (s : State) (f : Gang → Gang) :
    (c.begin i s).modGang c.gid f = s.setGang c.gid (f (popped i c)) := by
  simp [Ctx.begin, popped, performing]

/-- A word whose body writes lanes writes them, and nothing else. -/
theorem writesLanes_of_body {i : Instr} {body : Ctx → LaneSet → State → Except Trap State} {s : State} {c : Ctx}
    {out : Nat → LaneOut} (he : exec i s = word i body s) (h : Issues i s c)
    (hb : body c (c.perf (guardOf i)) (c.begin i s) =
      .ok ((c.begin i s).modGang c.gid fun g => { g with lanes := writeLanes c.run.xb (c.perf (guardOf i)) out g.lanes }))
    (hr : ∀ l, ∀ p ∈ (out l).regs, p.1 < 128) : WritesLanes i s c out := by
  refine ⟨_, _, he.trans (word_ok h.issuer h.clear hb), ?_, writeLanes_laneWrite _ _ out _ hr⟩
  rw [Ctx.begin_modGang]
  have e : (popped i c).lanes = c.gang.lanes := by simp [popped]
  rw [e]
  exact gangOnly_setGang ..
/-- A word each lane of which computes by itself. -/
theorem laneWord_writes {i : Instr} {f : Ctx → State → Nat → LaneOut} {s : State} {c : Ctx}
    (he : exec i s = laneWord i f s) (h : Issues i s c) (hr : ∀ l, ∀ p ∈ (f c (c.begin i s) l).regs, p.1 < 128) :
    WritesLanes i s c (f c (c.begin i s)) :=
  writesLanes_of_body (body := fun c perf s => .ok (s.modGang c.gid fun g =>
    { g with lanes := writeLanes c.run.xb perf (f c s) g.lanes })) he h rfl hr

/-! ## Registers that results name -/

@[simp] theorem outW_regs (d : Reg) (v : Nat) : (outW d v).regs = [(d.toNat, BitVec.ofNat 32 v)] := rfl
@[simp] theorem outW_preds (d : Reg) (v : Nat) : (outW d v).preds = [] := rfl
@[simp] theorem outW_flags (d : Reg) (v : Nat) : (outW d v).flags = 0 := rfl
@[simp] theorem outPair_regs (d : Reg) (v : Nat) :
    (outPair d v).regs = [(d.toNat, BitVec.ofNat 32 v), (d.toNat + 1, BitVec.ofNat 32 (v / 2 ^ 32))] := rfl
@[simp] theorem outPair_preds (d : Reg) (v : Nat) : (outPair d v).preds = [] := rfl
@[simp] theorem outPair_flags (d : Reg) (v : Nat) : (outPair d v).flags = 0 := rfl
@[simp] theorem outPred_regs (p : PredNo) (v : Bool) : (outPred p v).regs = [] := rfl
@[simp] theorem withFlags_regs (o : LaneOut) (f : FlagSet) : (o.withFlags f).regs = o.regs := rfl
@[simp] theorem withPred_regs (o : LaneOut) (p : PredNo) (v : Bool) : (o.withPred p v).regs = o.regs := rfl
theorem outW_bound {d : Reg} {v : Nat} : ∀ p ∈ (outW d v).regs, p.1 < 128 := by
  simp only [outW_regs, List.mem_singleton, forall_eq]; exact d.isLt
/-- A result fits the register file where its destination is one that its width admits. -/
theorem outSize_bound {is64 : Bool} {d : Reg} {v : Nat} (h : dstW is64 d = true) : ∀ p ∈ (outSize is64 d v).regs, p.1 < 128 := by
  have := d.isLt
  cases is64 with
  | false => exact outW_bound
  | true =>
    simp only [dstW, pairOk, if_true, Bool.and_eq_true, beq_iff_eq] at h
    simp only [outSize, if_true, outPair_regs, List.mem_cons, List.not_mem_nil, or_false]
    rintro p (rfl | rfl) <;> simp only <;> omega

end Sys2Proof.Machine
end

