-- ==== Sys2Proof/Laws/Int.lean ====
section
/-! SUPPORT. Integer operands and results: the numbers of the meanings as the bit vectors of the claims. -/

namespace Sys2Proof.Machine

theorem IntTy.bits_pos (ty : IntTy) : 0 < ty.bits := by cases ty <;> decide
theorem IntTy.bits_le (ty : IntTy) : ty.bits ≤ 64 := by cases ty <;> decide

/-! ## Numbers -/

theorem sval_eq_toInt {w : Nat} (hw : 0 < w) (x : Nat) : sval w x = (BitVec.ofNat w x).toInt := by
  rw [sval, BitVec.toInt_eq_toNat_cond]
  simp only [BitVec.toNat_ofNat]
  have h2 : 2 ^ w = 2 * 2 ^ (w - 1) := by
    rw [← Nat.pow_succ', Nat.succ_eq_add_one, Nat.sub_add_cancel hw]
  have hlt : x % 2 ^ w < 2 ^ w := Nat.mod_lt _ (by positivity)
  split <;> split <;> omega
theorem wrapN_eq_toNat (w : Nat) (x : Int) : wrapN w x = (BitVec.ofInt w x).toNat := by
  simp [wrapN, BitVec.toNat_ofInt]
theorem val_eq_numOf (ty : IntTy) (x : Nat) : ty.val x = numOf ty (BitVec.ofNat ty.bits x) := by
  simp only [IntTy.val, numOf]
  split
  · exact sval_eq_toInt (IntTy.bits_pos ty) x
  · simp
/-- The number that bits stand for gives those bits back. -/
@[simp] theorem ofInt_numOf (ty : IntTy) (v : BitVec ty.bits) : BitVec.ofInt ty.bits (numOf ty v) = v := by
  simp only [numOf]
  split <;> simp

/-! ## Operands -/

theorem immSext_bits (v : BitVec 22) {w : Nat} (hw : w ≤ 64) : BitVec.ofNat w (immSext v) = v.signExtend w := by
  rw [immSext, BitVec.ofNat_toNat]
  ext i hi
  have hi' : i < 64 := by omega
  rw [BitVec.getElem_setWidth, BitVec.getLsbD_signExtend, BitVec.getElem_signExtend]
  split <;> simp_all
theorem opB_bits (c : Ctx) (l : Nat) (ty : IntTy) (a : Reg) (b : Src) :
    BitVec.ofNat ty.bits (c.opB l ty.is64 a (immExt ty.signed) b) = intB c l ty a b := by
  cases b with
  | reg r => rfl
  | imm v =>
    simp only [Ctx.opB, intB, immExt]
    split
    · exact immSext_bits v (IntTy.bits_le ty)
    · simp
theorem opA_val (c : Ctx) (l : Nat) (ty : IntTy) (a : Reg) : ty.val (c.opA l ty.is64 a) = numOf ty (intA c l ty a) :=
  val_eq_numOf ..
theorem opB_val (c : Ctx) (l : Nat) (ty : IntTy) (a : Reg) (b : Src) :
    ty.val (c.opB l ty.is64 a (immExt ty.signed) b) = numOf ty (intB c l ty a b) := by
  rw [val_eq_numOf, opB_bits]
theorem opB_mod (c : Ctx) (l : Nat) (ty : IntTy) (a : Reg) (b : Src) :
    c.opB l ty.is64 a (immExt ty.signed) b % 2 ^ ty.bits = (intB c l ty a b).toNat := by
  rw [← opB_bits, BitVec.toNat_ofNat]
theorem rd_lt (c : Ctx) (l f k : Nat) : c.rd l f k < 2 ^ 32 := by
  simp only [Ctx.rd]
  split <;> exact BitVec.isLt _
theorem rdPair_lt (c : Ctx) (l f : Nat) : c.rdPair l f < 2 ^ 64 := by
  have := rd_lt c l f 0
  have := rd_lt c l (f + 1) 0
  simp only [Ctx.rdPair]; omega
theorem opA_lt (c : Ctx) (l : Nat) (a : Reg) {ty : IntTy} (h : ty.wide = true) : c.opA l ty.is64 a < 2 ^ ty.bits := by
  have := rd_lt c l a.toNat 0
  have := rdPair_lt c l a.toNat
  cases ty <;> simp_all [IntTy.wide, IntTy.is64, IntTy.bits, Ctx.opA]
theorem opA_toNat (c : Ctx) (l : Nat) (a : Reg) {ty : IntTy} (h : ty.wide = true) :
    c.opA l ty.is64 a = (intA c l ty a).toNat := by
  simp only [intA, BitVec.toNat_ofNat, Nat.mod_eq_of_lt (opA_lt c l a h)]
theorem opCount_toNat (c : Ctx) (l : Nat) (a : Reg) (b : Src) : c.opCount l a b = (wordB c l a b).toNat := by
  cases b with
  | reg r => simp [Ctx.opCount, Ctx.opB, wordB]
  | imm v =>
    simp only [Ctx.opCount, Ctx.opB, wordB]
    rw [← immSext_bits v (w := 32) (by omega), BitVec.toNat_ofNat]

/-! ## Results -/

theorem outInt_eq (ty : IntTy) (d : Reg) (x : Int) : outInt ty d x = intOut ty d (BitVec.ofInt ty.bits x) := by
  have h (n : Nat) : BitVec.ofNat n (x % (2 ^ n : Nat)).toNat = BitVec.ofInt n x := by
    apply BitVec.eq_of_toNat_eq
    rw [BitVec.toNat_ofNat, BitVec.toNat_ofInt, Nat.mod_eq_of_lt]
    have : x % (2 ^ n : Nat) < (2 ^ n : Nat) := Int.emod_lt_of_pos _ (by positivity)
    omega
  have h16 := h 16
  have h8 := h 8
  simp only [outInt, intOut, outSize, IntTy.enc, wrapN_eq_toNat]
  cases ty <;> simp [IntTy.is64, IntTy.bits, IntTy.signed, sval_eq_toInt, BitVec.signExtend] <;>
    (try simp at h16 h8) <;> (try rw [h16]) <;> (try rw [h8]) <;> (try simp) <;> congr 1 <;>
    (try have := Int.bmod_emod (x := x) (m := 4294967296)) <;> (try push_cast at this) <;> omega
/-- The bits of a 32-bit or 64-bit type as a result. -/
theorem outSize_eq (ty : IntTy) (d : Reg) (x : Nat) (h : ty.wide = true) :
    outSize ty.is64 d x = intOut ty d (BitVec.ofNat ty.bits x) := by
  cases ty <;> simp_all [IntTy.wide, outSize, intOut, IntTy.is64, IntTy.bits, IntTy.signed, outW, outPair]
  all_goals first
    | (refine ⟨?_, ?_⟩ <;> apply BitVec.eq_of_toNat_eq <;> simp only [BitVec.toNat_ofNat] <;> omega)
    | (apply BitVec.eq_of_toNat_eq; simp only [BitVec.toNat_ofNat]; omega)

/-! ## Integer words -/

theorem firstFail_none {l : List (Bool × Illegal)} (h : firstFail l = none) : ∀ p ∈ l, p.1 = true := by
  induction l with
  | nil => simp
  | cons p l ih =>
    obtain ⟨ok, e⟩ := p
    simp only [firstFail] at h
    split at h
    · next ht => 
      intro q hq
      rcases List.mem_cons.mp hq with rfl | hq
      · exact ht
      · exact ih h q hq
    · simp at h
theorem wf_int3 {tyOk : Bool} {ty : IntTy} {d a : Reg} {b : Src} (h : chkInt3 tyOk ty d a b = none) :
    tyOk = true ∧ dstW ty.is64 d = true := by
  have := firstFail_none h
  simp at this
  exact ⟨this.1, this.2.1.1⟩

theorem intOut_bound {ty : IntTy} {d : Reg} {v : BitVec ty.bits} (h : dstW ty.is64 d = true) :
    ∀ p ∈ (intOut ty d v).regs, p.1 < 128 := by
  have := @outSize_bound ty.is64 d
  unfold outSize at this
  unfold intOut
  split
  · next h1 => simpa [h1] using @this v.toNat h
  · next h1 => simpa [h1] using @this (if ty.signed then v.signExtend 32 else v.setWidth 32).toNat h
/-- a lane word whose lanes write `out` -/
theorem computes_lane {i : Instr} {f : Ctx → State → Nat → LaneOut} {s : State} {c : Ctx} {out : Nat → LaneOut}
    (he : exec i s = laneWord i f s)
    (hf : Issues i s c → ∀ l, f c (c.begin i s) l = out l) (hb : i.WellFormed → ∀ l, ∀ p ∈ (out l).regs, p.1 < 128) :
    Computes i s c out := by
  intro h
  have e : f c (c.begin i s) = out := funext (hf h)
  rw [← e]
  exact laneWord_writes he h (fun l p hp => hb h.wf l p (by rw [← hf h l]; exact hp))

theorem computes_int {i : Instr} {ty : IntTy} {d a : Reg} {b : Src} {f : Int → Int → Int} {s : State} {c : Ctx}
    {v : Nat → BitVec ty.bits} (he : exec i s = intWord i ty d a b f s)
    (hf : Issues i s c → ∀ l, BitVec.ofInt ty.bits (f (numOf ty (intA c l ty a)) (numOf ty (intB c l ty a b))) = v l)
    (hd : i.WellFormed → dstW ty.is64 d = true) : Computes i s c fun l => intOut ty d (v l) := by
  refine computes_lane (he.trans rfl) (fun h l => ?_) fun w l => intOut_bound (hd w)
  rw [opA_val, opB_val, outInt_eq, hf h l]
theorem computes_bit {i : Instr} {ty : IntTy} {d a : Reg} {b : Src} {f : Nat → Nat → Nat} {s : State} {c : Ctx}
    {v : Nat → BitVec ty.bits} (he : exec i s = bitWord i ty d a b f s)
    (hf : ∀ l, f (intA c l ty a).toNat (intB c l ty a b).toNat = (v l).toNat)
    (hd : i.WellFormed → ty.wide = true ∧ dstW ty.is64 d = true) : Computes i s c fun l => intOut ty d (v l) := by
  refine computes_lane (he.trans rfl) (fun h l => ?_) fun w l => intOut_bound (hd w).2
  rw [outSize_eq _ _ _ (hd h.wf).1, opB_mod, opA_toNat c l a (hd h.wf).1, hf l, BitVec.ofNat_toNat, BitVec.setWidth_eq]

/-- An instruction with the check of an F3 integer word. -/
theorem wf_dst3 {i : Instr} {tyOk} {ty : IntTy} {d a : Reg} {b : Src} (hc : i.check = chkInt3 tyOk ty d a b) (h : i.WellFormed) :
   tyOk = true ∧ dstW ty.is64 d = true := wf_int3 (hc ▸ h.2)

theorem fit_sat (ty : IntTy) (sat : Bool) (x : Int) : BitVec.ofInt ty.bits (satTo ty sat x) = fitTo ty sat x := by
  unfold satTo fitTo clampInt
  have : ty.lo = minOf ty ∧ ty.hi = maxOf ty ∧ ty.lo ≤ ty.hi := by cases ty <;> decide
  obtain ⟨h1, h2, h3⟩ := this
  rw [h1, h2] at *
  cases sat
  · rfl
  · simp only [if_true]
    congr 1
    split
    · omega
    · split <;> omega

theorem numOf_eq_zero (ty : IntTy) (x : BitVec ty.bits) : numOf ty x = 0 ↔ x = 0 := by
  constructor
  · intro h; have := congrArg (BitVec.ofInt ty.bits) h; simpa using this
  · rintro rfl; unfold numOf; split <;> simp
theorem computes_div {i : Instr} {ty : IntTy} {d a : Reg} {b : Src} {f : Int → Int → Int} {s : State} {c : Ctx}
    {v : Nat → BitVec ty.bits} (he : exec i s = divWord i ty d a b f s)
    (hf : ∀ l, BitVec.ofInt ty.bits (f (numOf ty (intA c l ty a)) (numOf ty (intB c l ty a b))) = v l)
    (hd : i.WellFormed → dstW ty.is64 d = true) :
    Computes i s c fun l => { intOut ty d (v l) with flags := if intB c l ty a b = 0 then flDZ else 0 } := by
  refine computes_lane (he.trans rfl) (fun h l => ?_) fun w l => intOut_bound (hd w)
  simp only [opA_val, opB_val, outInt_eq, LaneOut.withFlags, flIf, beq_iff_eq, numOf_eq_zero, hf]

end Sys2Proof.Machine
end

