-- ==== Sys2Proof/Laws/Float.lean ====
section
/-! SUPPORT. The one rounding function gives what R70, R71 and R76 say, for every format, mode and exact value. -/

namespace Sys2Proof.Machine

theorem two_zpow_pos (k : Int) : (0:ℝ) < 2 ^ k := by positivity
theorem quantize_rounds (md : Mode) (neg : Bool) (m : Nat) (e k : Int) :
    RoundsAt md neg (m * (2:ℝ)^e) k (quantize md neg m e k).1 ∧
    ((quantize md neg m e k).2 = false ↔ ((quantize md neg m e k).1 : ℝ) * 2^k = m * 2^e) := by
  unfold quantize
  split
  · next h =>
    have e1 : ((m * 2 ^ (e - k).toNat : Nat) : ℝ) * 2 ^ k = m * 2 ^ e := by
      push_cast
      rw [mul_assoc, ← zpow_natCast, Int.toNat_of_nonneg (by omega), ← zpow_add₀ (by norm_num)]
      congr 2; ring
    have hp := two_zpow_pos k
    refine ⟨⟨m * 2 ^ (e - k).toNat, e1.le, ?_, ?_⟩, by simpa using e1⟩
    · rw [add_mul, e1]; linarith
    · rw [e1]
      rcases md with r | draw
      rotate_left
      · exact ⟨0, by simp, by simp; positivity, .inl ⟨by simp, by simp⟩⟩
      · cases r with
        | rne => exact .inl ⟨by rw [sub_self]; linarith, rfl⟩
        | rz => rfl
        | rd => exact .inl ⟨rfl, rfl⟩
        | ru => exact .inl ⟨rfl, rfl⟩
  · next h =>
    push Not at h
    dsimp only
    obtain ⟨sh, hsh⟩ : ∃ sh, (k - e).toNat = sh := ⟨_, rfl⟩
    rw [hsh]
    have hk : (2:ℝ)^k = 2^sh * 2^e := by
      rw [← zpow_natCast, ← hsh, Int.toNat_of_nonneg (by omega), ← zpow_add₀ (by norm_num)]; congr 1; ring
    have hm : m = m / 2^sh * 2^sh + m % 2^sh := (Nat.div_add_mod' m _).symm
    have hr : m % 2^sh < 2^sh := Nat.mod_lt _ (by positivity)
    obtain ⟨q, hq⟩ : ∃ q, m / 2 ^ sh = q := ⟨_, rfl⟩
    obtain ⟨r, hrr⟩ : ∃ r, m % 2 ^ sh = r := ⟨_, rfl⟩
    rw [hq, hrr]
    rw [hq, hrr] at hm
    rw [hrr] at hr
    have he := two_zpow_pos e
    have hx : (m:ℝ) * 2^e = q * 2^k + r * 2^e := by
      rw [hk]; nth_rewrite 1 [hm]; push_cast; ring
    have hrk : (r:ℝ) * 2^e < 2^k := by
      rw [hk]; have : (r:ℝ) < 2^sh := by exact_mod_cast hr
      nlinarith
    have hr0 : (0:ℝ) ≤ r * 2^e := by positivity
    have h0 : r = 0 ↔ (r:ℝ) * 2^e = 0 := by
      constructor
      · intro h; simp [h]
      · intro h; have := (mul_eq_zero.mp h).resolve_right he.ne'; exact_mod_cast this
    have hhalf (z : ℝ) : z * 2^e < 2^k/2 ↔ 2 * z < 2^sh := by
      rw [hk]; constructor <;> intro h <;> nlinarith
    have hhalf' (z : ℝ) : 2^k/2 < z * 2^e ↔ 2^sh < 2 * z := by
      rw [hk]; constructor <;> intro h <;> nlinarith
    have c1 : (r:ℝ) * 2^e < 2^k/2 ↔ 2 * r < 2^sh := by rw [hhalf]; exact_mod_cast Iff.rfl
    have c2 : 2^k/2 < (r:ℝ) * 2^e ↔ 2^sh < 2 * r := by rw [hhalf']; exact_mod_cast Iff.rfl
    have hkp := two_zpow_pos k
    have hsub : (m:ℝ) * 2^e - q * 2^k = r * 2^e := by rw [hx]; ring
    refine ⟨⟨q, by rw [hx]; linarith, by rw [hx, add_mul]; linarith, ?_⟩, ?_⟩
    · rw [hsub]
      rcases md with md' | draw
      rotate_left
      · have hw1 : r * 2 ^ 16 / 2 ^ sh * 2 ^ sh + r * 2 ^ 16 % 2 ^ sh = r * 2 ^ 16 := Nat.div_add_mod' _ _
        have hw2 : r * 2 ^ 16 % 2 ^ sh < 2 ^ sh := Nat.mod_lt _ (by positivity)
        obtain ⟨w, hw⟩ : ∃ w, r * 2 ^ 16 / 2 ^ sh = w := ⟨_, rfl⟩
        obtain ⟨u, hu⟩ : ∃ u, r * 2 ^ 16 % 2 ^ sh = u := ⟨_, rfl⟩
        rw [hw, hu] at hw1
        rw [hu] at hw2
        have hwr : (w:ℝ) * 2^sh + u = r * 2^16 := by exact_mod_cast hw1
        have hul : (u:ℝ) < 2^sh := by exact_mod_cast hw2
        have hu0 : (0:ℝ) ≤ u := by positivity
        refine ⟨w, ?_, ?_, ?_⟩
        · rw [hk]; nlinarith
        · rw [hk]; nlinarith
        · simp only [Mode.up, hw, hu]
          have he1 : (w:ℝ) * 2^k = r * 2^e * 2^16 ↔ u = 0 := by
            rw [hk, show (r:ℝ) * 2^e * 2^16 = (r * 2^16) * 2^e by ring, ← hwr]
            constructor
            · intro h
              have : (u:ℝ) * 2^e = 0 := by linarith
              have := (mul_eq_zero.mp this).resolve_right he.ne'
              exact_mod_cast this
            · rintro rfl; push_cast; ring
          by_cases hz : u = 0
          · exact .inl ⟨he1.mpr hz, by simp [hz]⟩
          · exact .inr ⟨fun h => hz (he1.mp h), by simp [hz]⟩
      · cases md' with
        | rz => simp [Mode.up]
        | rne =>
          simp only [Mode.up, Bool.or_eq_true, decide_eq_true_eq, Bool.and_eq_true, beq_iff_eq]
          rcases lt_trichotomy (2 * r) (2^sh) with hh | hh | hh
          · refine .inl ⟨c1.mpr hh, ?_⟩
            rw [if_neg (by omega)]
          · refine .inr (.inr ⟨?_, ?_, ?_⟩)
            · apply le_antisymm
              · by_contra hc; exact absurd (c2.mp (not_le.mp hc)) (by omega)
              · by_contra hc; exact absurd (c1.mp (not_le.mp hc)) (by omega)
            · split <;> omega
            · split <;> simp
          · refine .inr (.inl ⟨c2.mpr hh, ?_⟩)
            rw [if_pos (by omega)]
        | rd =>
          simp only [Mode.up, Bool.and_eq_true, bne_iff_ne, ne_eq]
          by_cases hz : r = 0
          · exact .inl ⟨by rw [hx, h0.mp hz, add_zero], by simp [hz]⟩
          · have : (r:ℝ) * 2^e ≠ 0 := fun h => hz (h0.mpr h)
            have : (0:ℝ) < r * 2^e := lt_of_le_of_ne hr0 (Ne.symm this)
            exact .inr ⟨by rw [hx]; linarith, by simp [hz]⟩
        | ru =>
          simp only [Mode.up, Bool.and_eq_true, bne_iff_ne, ne_eq]
          by_cases hz : r = 0
          · exact .inl ⟨by rw [hx, h0.mp hz, add_zero], by simp [hz]⟩
          · have : (r:ℝ) * 2^e ≠ 0 := fun h => hz (h0.mpr h)
            have : (0:ℝ) < r * 2^e := lt_of_le_of_ne hr0 (Ne.symm this)
            exact .inr ⟨by rw [hx]; linarith, by cases neg <;> simp [hz]⟩
    · simp only [bne_eq_false_iff_eq]
      constructor
      · intro hz
        have : md.up neg q r sh = false := by
          have h2 : 2 ^ sh ≠ 0 := by positivity
          rcases md with md' | draw
          · cases md' <;> simp [Mode.up, hz, h2.symm]
          · simp [Mode.up, hz]
        rw [this, hx, h0.mp hz, add_zero]; rfl
      · intro h
        rw [hx] at h
        by_contra hz
        have hne : (r:ℝ) * 2^e ≠ 0 := fun h => hz (h0.mpr h)
        split at h
        · push_cast at h; nlinarith
        · exact hne (by linarith)

theorem dyLt_iff (a b : Nat) (i j : Int) : dyLt a i b j = true ↔ (a:ℝ) * 2^i < b * 2^j := by
  unfold dyLt
  split
  · next h =>
    have : (2:ℝ)^j = 2^(j-i).toNat * 2^i := by
      rw [← zpow_natCast, Int.toNat_of_nonneg (by omega), ← zpow_add₀ (by norm_num)]; congr 1; ring
    rw [this, ← mul_assoc, mul_lt_mul_iff_left₀ (two_zpow_pos i), decide_eq_true_eq]
    exact_mod_cast Iff.rfl
  · next h =>
    have : (2:ℝ)^i = 2^(i-j).toNat * 2^j := by
      rw [← zpow_natCast, Int.toNat_of_nonneg (by omega), ← zpow_add₀ (by norm_num)]; congr 1; ring
    rw [this, ← mul_assoc, mul_lt_mul_iff_left₀ (two_zpow_pos j), decide_eq_true_eq]
    exact_mod_cast Iff.rfl

/-- The fields of a pattern put together from its sign, exponent and fraction. -/
theorem signed_fields (f : Fmt) (neg : Bool) {F M : Nat} (hF : F < 2 ^ f.ew) (hM : M < 2 ^ f.mw) :
    let b := f.signed neg (F * 2 ^ f.mw + M)
    nbit b (f.ew + f.mw) = neg ∧ b / 2 ^ f.mw % 2 ^ f.ew = F ∧ b % 2 ^ f.mw = M ∧ b < 2 ^ f.width := by
  have hp : 2 ^ (f.ew + f.mw) = 2 ^ f.ew * 2 ^ f.mw := Nat.pow_add ..
  have hw : 2 ^ f.width = 2 * (2 ^ f.ew * 2 ^ f.mw) := by
    rw [Fmt.width, show 1 + f.ew + f.mw = (f.ew + f.mw) + 1 by omega, Nat.pow_succ, hp]; ring
  have hpm : 0 < 2 ^ f.mw := by positivity
  have hpe : 0 < 2 ^ f.ew := by positivity
  have hb : F * 2 ^ f.mw + M < 2 ^ f.ew * 2 ^ f.mw := by nlinarith
  have hd : (F * 2 ^ f.mw + M) / 2 ^ f.mw = F := by
    rw [Nat.add_comm, Nat.add_mul_div_right _ _ hpm, Nat.div_eq_of_lt hM, Nat.zero_add]
  have hm : (F * 2 ^ f.mw + M) % 2 ^ f.mw = M := by
    rw [Nat.add_comm, Nat.add_mul_mod_self_right, Nat.mod_eq_of_lt hM]
  simp only [Fmt.signed, Fmt.signBit, hp, nbit, hw]
  cases neg
  · simp only [Bool.false_eq_true, if_false]
    refine ⟨?_, ?_, hm, by omega⟩
    · rw [Nat.div_eq_of_lt hb]; rfl
    · rw [hd, Nat.mod_eq_of_lt hF]
  · simp only [if_true]
    refine ⟨?_, ?_, ?_, by omega⟩
    · rw [Nat.add_div_left _ (by positivity), Nat.div_eq_of_lt hb]; rfl
    · rw [Nat.add_comm, Nat.add_mul_div_right _ _ hpm, hd, Nat.add_mod_right, Nat.mod_eq_of_lt hF]
    · rw [Nat.add_comm, Nat.add_mul_mod_self_right, hm]

theorem roundsAt_bounds {md : Mode} {neg : Bool} {x : ℝ} {k : Int} {N : Nat} (h : RoundsAt md neg x k N) :
    ∃ n : Nat, n * (2:ℝ)^k ≤ x ∧ x < (n + 1) * (2:ℝ)^k ∧ (N = n ∨ N = n + 1) := by
  obtain ⟨n, h1, h2, h3⟩ := h
  refine ⟨n, h1, h2, ?_⟩
  rcases md with md' | draw
  rotate_left
  · obtain ⟨w, -, -, h | h⟩ := h3 <;> have h := h.2
    · split at h <;> simp [h]
    · generalize (if w % 2 = 0 then w + 1 else w) = v at h
      split at h <;> simp [h]
  cases md' <;> simp only at h3
  · rcases h3 with h | h | h
    · exact .inl h.2
    · exact .inr h.2
    · exact h.2.2
  · exact .inl h3
  · rcases h3 with h | h
    · exact .inl h.2
    · have := h.2; split at this <;> simp [this]
  · rcases h3 with h | h
    · exact .inl h.2
    · have := h.2; split at this <;> simp [this]

/-- The value of a pattern with an exponent field that is not special. -/
theorem value_normal {f : Fmt} {neg : Bool} {F M : Nat} (h0 : 1 ≤ F) (hF : F < 2 ^ f.ew) (hM : M < 2 ^ f.mw)
    (h1 : f.sp = .ieee → F ≠ 2 ^ f.ew - 1) (h2 : f.sp = .nanOnly → F = 2 ^ f.ew - 1 → M ≠ 2 ^ f.mw - 1) :
    f.value (f.signed neg (F * 2 ^ f.mw + M)) = .fin neg (2 ^ f.mw + M) ((F : Int) - f.bias - f.mw) := by
  obtain ⟨e1, e2, e3, -⟩ := signed_fields f neg hF hM
  unfold Fmt.value
  simp only [e1, e2, e3]
  rw [if_neg, if_neg, if_neg (by omega)]
  · simp only [Bool.and_eq_true, beq_iff_eq, not_and]; exact fun ⟨h, hs⟩ => h2 hs h
  · simp only [Bool.and_eq_true, beq_iff_eq, not_and]; exact fun h hs => h1 hs h
theorem value_subnormal {f : Fmt} (hew : 1 ≤ f.ew) {neg : Bool} {M : Nat} (hM : M < 2 ^ f.mw) :
    f.value (f.signed neg M) = .fin neg M (f.emin - f.mw) := by
  obtain ⟨e1, e2, e3, -⟩ := signed_fields f neg (F := 0) (by positivity) hM
  rw [Nat.zero_mul, Nat.zero_add] at e1 e2 e3
  have : 2 ≤ 2 ^ f.ew := by calc 2 = 2^1 := rfl
    _ ≤ 2 ^ f.ew := Nat.pow_le_pow_right (by omega) hew
  unfold Fmt.value
  simp only [e1, e2, e3]
  rw [if_neg, if_neg, if_pos trivial]
  · simp; omega
  · simp; omega

theorem round_rounded {f : Fmt} (hew : 1 ≤ f.ew) (hmw : 1 ≤ f.mw) (md : Mode) (neg : Bool) {m : Nat} (hm : m ≠ 0) (e : Int) :
    Rounded f md neg (m * (2:ℝ)^e) (f.round md neg m e) := by
  have hE1 : (2:ℝ)^((Nat.log2 m : Int) + e) ≤ m * 2^e := by
    rw [zpow_add₀ (by norm_num), zpow_natCast]
    have : (2:ℝ)^(Nat.log2 m) ≤ m := by exact_mod_cast Nat.log2_self_le hm
    exact mul_le_mul_of_nonneg_right this (two_zpow_pos e).le
  have hE2 : (m:ℝ) * 2^e < 2^((Nat.log2 m : Int) + e + 1) := by
    rw [show (Nat.log2 m : Int) + e + 1 = ((Nat.log2 m + 1 : Nat) : Int) + e by push_cast; ring, zpow_add₀ (by norm_num), zpow_natCast]
    have : (m:ℝ) < 2^(Nat.log2 m + 1) := by exact_mod_cast Nat.lt_log2_self
    exact mul_lt_mul_of_pos_right this (two_zpow_pos e)
  unfold Fmt.round
  rw [if_neg hm]
  dsimp only
  generalize hE : (Nat.log2 m : Int) + e = E at *
  have hk : (if E < f.emin then f.emin - (f.mw:Int) else E - f.mw) = max E f.emin - f.mw := by
    split <;> omega
  rw [hk]
  generalize hkk : max E f.emin - (f.mw:Int) = k at *
  obtain ⟨hq, hqx⟩ := quantize_rounds md neg m e k
  obtain ⟨hu, -⟩ := quantize_rounds md neg m e (E - f.mw)
  obtain ⟨⟨q, ix⟩, hqe⟩ : ∃ p, quantize md neg m e k = p := ⟨_, rfl⟩
  obtain ⟨⟨qu, ixu⟩, hue⟩ : ∃ p, quantize md neg m e (E - f.mw) = p := ⟨_, rfl⟩
  rw [hqe] at hq hqx ⊢
  rw [hue] at hu ⊢
  dsimp only at hq hqx hu ⊢
  refine ⟨E, q, qu, hE1, hE2, by rw [hkk]; exact hq, hu, ?_⟩
  rw [hkk]
  by_cases ho : dyLt f.maxSig (f.emax - f.mw) q k = true
  · rw [if_pos ((dyLt_iff ..).mp ho), if_pos ho]
    congr 1
    unfold Fmt.overflow overflowsToInf
    rcases md with md' | draw
    · cases f.hasInf <;> cases md' <;> cases neg <;> rfl
    · cases f.hasInf <;> cases neg <;> rfl
  · rw [if_neg (fun h => ho ((dyLt_iff ..).mpr h)), if_neg ho]
    have hle := not_lt.mp (fun h => ho ((dyLt_iff ..).mpr h))
    have hk2 := two_zpow_pos k
    -- the magnitude of the rounded value
    obtain ⟨n, hn1, hn2, hN⟩ := roundsAt_bounds hq
    have hmwk : (2:ℝ)^(f.mw + k : Int) = 2^f.mw * 2^k := by rw [zpow_add₀ (by norm_num), zpow_natCast]
    have hqle : q ≤ 2 ^ (f.mw + 1) := by
      have : (2:ℝ)^(E+1) ≤ 2^(f.mw + 1 + k : Int) := zpow_le_zpow_right₀ (by norm_num) (by omega)
      have h3 : (n:ℝ) * 2^k < 2^(f.mw+1) * 2^k := by
        refine lt_of_le_of_lt hn1 (lt_of_lt_of_le hE2 (this.trans_eq ?_))
        rw [show (f.mw + 1 + k : Int) = ((f.mw + 1 : Nat) : Int) + k by push_cast; ring, zpow_add₀ (by norm_num), zpow_natCast]
      have h4 : (n:ℝ) < 2^(f.mw+1) := lt_of_mul_lt_mul_right h3 hk2.le
      have : n < 2^(f.mw+1) := by exact_mod_cast h4
      omega
    have hsub : q < 2 ^ f.mw → k = f.emin - f.mw := by
      intro hlt
      by_contra hne
      have hEk : E = f.mw + k := by omega
      rw [hEk, hmwk] at hE1
      have h3 : (2:ℝ)^f.mw * 2^k < (n + 1) * 2^k := lt_of_le_of_lt hE1 hn2
      have h4 : (2:ℝ)^f.mw < n + 1 := lt_of_mul_lt_mul_right h3 hk2.le
      have : 2^f.mw < n + 1 := by exact_mod_cast h4
      omega
    have hfl : (((q : ℝ) * 2^k = m * 2^e ∧ (flIf ix flNX ||| flIf (dyLt qu (E - f.mw) 1 f.emin && ix) flUF) = 0) ∨
        ((q : ℝ) * 2^k ≠ m * 2^e ∧ (flIf ix flNX ||| flIf (dyLt qu (E - f.mw) 1 f.emin && ix) flUF) =
          flNX ||| (if (qu:ℝ) * 2^(E - f.mw) < 2^f.emin then flUF else 0))) := by
      cases ix
      · exact .inl ⟨hqx.mp rfl, by simp [flIf]⟩
      · refine .inr ⟨fun h => by simpa using hqx.mpr h, ?_⟩
        have := dyLt_iff qu 1 (E - f.mw) f.emin
        simp only [Nat.cast_one, one_mul] at this
        by_cases hd : dyLt qu (E - f.mw) 1 f.emin = true
        · rw [hd, if_pos (this.mp hd)]; rfl
        · rw [Bool.not_eq_true] at hd
          rw [hd, if_neg (fun h => by simp [this.mpr h] at hd)]; rfl
    by_cases hlt : q < 2 ^ f.mw
    · rw [if_pos hlt]
      have hF := signed_fields f neg (F := 0) (by positivity) hlt
      rw [Nat.zero_mul, Nat.zero_add] at hF
      exact ⟨⟨hF.2.2.2, q, _, value_subnormal hew hlt, by rw [hsub hlt]⟩, hfl⟩
    · rw [if_neg hlt]
      obtain ⟨⟨q', k'⟩, hp⟩ : ∃ p, (if q = 2 ^ (f.mw + 1) then (2 ^ f.mw, k + 1) else (q, k)) = p := ⟨_, rfl⟩
      rw [hp]
      have hqk : (q' : ℝ) * 2^k' = q * 2^k ∧ 2^f.mw ≤ q' ∧ q' < 2^(f.mw+1) ∧ k ≤ k' := by
        split at hp
        · next h =>
          obtain ⟨rfl, rfl⟩ := Prod.mk.inj hp
          refine ⟨?_, le_refl _, Nat.pow_lt_pow_right (by omega) (by omega), by omega⟩
          rw [h, zpow_add₀ (by norm_num)]; push_cast; rw [pow_succ, zpow_one]; ring
        · next h =>
          obtain ⟨rfl, rfl⟩ := Prod.mk.inj hp
          exact ⟨rfl, by omega, by omega, le_refl _⟩
      obtain ⟨hv, hq1, hq2, hkk'⟩ := hqk
      rw [← hv] at hle hfl ⊢
      have hk'p := two_zpow_pos k'
      have hep := two_zpow_pos (f.emax - f.mw)
      have hms : f.maxSig < 2^(f.mw+1) := by
        unfold Fmt.maxSig; have : 2 ≤ 2^(f.mw+1) := by
          calc 2 = 2^1 := rfl
            _ ≤ 2 ^ (f.mw+1) := Nat.pow_le_pow_right (by omega) (by omega)
        split <;> omega
      have hkmax : k' ≤ f.emax - f.mw := by
        by_contra hgt
        have h1 : (2:ℝ)^(f.emax - f.mw + 1) ≤ 2^k' := zpow_le_zpow_right₀ (by norm_num) (by omega)
        rw [zpow_add₀ (by norm_num), zpow_one] at h1
        have h2 : (2:ℝ)^f.mw ≤ q' := by exact_mod_cast hq1
        have h3 : (f.maxSig:ℝ) < 2^(f.mw+1) := by exact_mod_cast hms
        rw [pow_succ] at h3
        have hpp : (0:ℝ) < 2^f.mw := by positivity
        have : (2:ℝ)^f.mw * (2^(f.emax - f.mw) * 2) ≤ q' * 2^k' := mul_le_mul h2 h1 (by positivity) (by positivity)
        nlinarith
      have hemin : f.emin = 1 - (f.bias : Int) := rfl
      have hew2 : 2 ≤ 2 ^ f.ew := by calc 2 = 2^1 := rfl
        _ ≤ 2 ^ f.ew := Nat.pow_le_pow_right (by omega) hew
      have hF1 : 1 ≤ (k' + f.mw + f.bias).toNat := by omega
      have hemax : f.emax + f.bias = if f.sp = .ieee then (2:Int)^f.ew - 2 else (2:Int)^f.ew - 1 := by
        unfold Fmt.emax
        have h2 : ((2 ^ f.ew : Nat) : Int) = (2:Int)^f.ew := by push_cast; rfl
        cases f.sp <;> simp; omega
      have h2 : ((2 ^ f.ew : Nat) : Int) = (2:Int)^f.ew := by push_cast; rfl
      have hF2 : (k' + f.mw + f.bias).toNat < 2 ^ f.ew := by split at hemax <;> omega
      have hM : q' - 2^f.mw < 2^f.mw := by rw [pow_succ] at hq2; omega
      refine ⟨⟨(signed_fields f neg hF2 hM).2.2.2, _, _, value_normal hF1 hF2 hM ?_ ?_, ?_⟩, hfl⟩
      · intro hs; rw [if_pos hs] at hemax; omega
      · intro hs hF hM'
        have hke : k' = f.emax - f.mw := by rw [hs] at hemax; simp at hemax; omega
        rw [hke] at hle
        have h5 : (q':ℝ) ≤ f.maxSig := le_of_mul_le_mul_right hle hep
        have h6 : q' ≤ f.maxSig := by exact_mod_cast h5
        simp only [Fmt.maxSig, hs] at h6
        rw [pow_succ] at h6
        have : 2 ≤ 2 ^ f.mw := by calc 2 = 2^1 := rfl
          _ ≤ 2 ^ f.mw := Nat.pow_le_pow_right (by omega) hmw
        omega
      · rw [show 2 ^ f.mw + (q' - 2 ^ f.mw) = q' by omega]
        congr 2
        omega
end Sys2Proof.Machine
end

