-- ==== Sys2Proof/Laws/Memory.lean ====
section
/-! SUPPORT. Flat memory: a read after a write, and that every memory operation keeps the canonical form. -/

namespace Sys2Proof.Machine

/-! ## One cell -/

theorem wfFrom_mono {m : Memory} {a b : Nat} (h : a ≤ b) (hm : Memory.wfFrom b m = true) : Memory.wfFrom a m = true := by
  cases m with
  | nil => rfl
  | cons p m =>
    obtain ⟨k, v⟩ := p
    simp only [Memory.wfFrom, Bool.and_eq_true, decide_eq_true_eq] at hm ⊢
    exact ⟨⟨Nat.le_trans h hm.1.1, hm.1.2⟩, hm.2⟩

/-- Below the least key every cell reads as the default. -/
theorem memGet_below {m : Memory} {lo a : Nat} (hm : Memory.wfFrom lo m = true) (h : a < lo) : memGet m a = defaultByte := by
  cases m with
  | nil => rfl
  | cons p m =>
    obtain ⟨k, v⟩ := p
    simp only [Memory.wfFrom, Bool.and_eq_true, decide_eq_true_eq] at hm
    have h1 := hm.1.1
    simp only [memGet]
    rw [if_neg (by omega), if_pos (by omega)]

/-- What a cell reads as after one cell has been written. -/
theorem memGet_memSet {m : Memory} {lo : Nat} (hm : Memory.wfFrom lo m = true) (a : Nat) (b : Byte) (n : Nat) :
    memGet (memSet m a b) n = if n = a then b else memGet m n := by
  induction m generalizing lo with
  | nil =>
    by_cases hb : b = defaultByte
    · simp [memSet, hb, memGet]
    · by_cases h : n = a
      · simp [memSet, hb, memGet, h]
      · simp [memSet, hb, memGet, h, Ne.symm h]
  | cons p m ih =>
    obtain ⟨k, v⟩ := p
    simp only [Memory.wfFrom, Bool.and_eq_true, decide_eq_true_eq] at hm
    obtain ⟨⟨_, _⟩, hm⟩ := hm
    simp only [memSet]
    split
    · next h =>
      subst h
      by_cases hb : b = defaultByte
      · rw [if_pos hb]
        by_cases hn : n = k
        · subst hn; simp [hb, memGet_below hm (Nat.lt_succ_self _)]
        · simp only [hn, if_false, memGet, Ne.symm hn]
          split
          · next h' => exact memGet_below hm (by omega)
          · rfl
      · simp only [hb, if_false, memGet]
        by_cases hn : n = k
        · simp [hn]
        · simp [hn, Ne.symm hn]
    · next h =>
      split
      · next hlt =>
        by_cases hb : b = defaultByte
        · simp only [hb, if_true]
          by_cases hn : n = a
          · subst hn; simp [memGet, h, hlt]
          · simp [hn]
        · simp only [hb, if_false, memGet]
          by_cases hn : n = a
          · simp [hn]
          · simp only [hn, if_false, Ne.symm hn]
            split
            · next h' => simp [show k ≠ n by omega, show n < k by omega]
            · rfl
      · next hlt =>
        simp only [memGet, ih hm]
        by_cases hn : n = a
        · subst hn; simp [h, hlt]
        · simp [hn]

theorem memSet_wfFrom {m : Memory} {lo : Nat} (hm : Memory.wfFrom lo m = true) (a : Nat) (b : Byte) :
    Memory.wfFrom (Nat.min lo a) (memSet m a b) = true := by
  induction m generalizing lo with
  | nil =>
    simp only [memSet]
    split
    · rfl
    · next h => simp [Memory.wfFrom, h]
  | cons p m ih =>
    obtain ⟨k, v⟩ := p
    have hm0 := hm
    simp only [Memory.wfFrom, Bool.and_eq_true, decide_eq_true_eq] at hm
    obtain ⟨⟨h1, h2⟩, hm⟩ := hm
    simp only [memSet]
    split
    · next h =>
      subst h
      split
      · exact wfFrom_mono (Nat.le_trans (Nat.min_le_right ..) (Nat.le_succ _)) hm
      · next hb => simp [Memory.wfFrom, hb, hm]
    · next h =>
      split
      · next hlt =>
        split
        · exact wfFrom_mono (Nat.min_le_left ..) hm0
        · next hb => simp [Memory.wfFrom, hb, h2, hm]; omega
      · next hlt =>
        have := ih hm
        simp only [Memory.wfFrom, Bool.and_eq_true, decide_eq_true_eq]
        refine ⟨⟨Nat.le_trans (Nat.min_le_left ..) h1, h2⟩, ?_⟩
        rwa [show Nat.min (k + 1) a = k + 1 from Nat.min_eq_left (by omega)] at this

theorem memSet_wf {m : Memory} (hm : m.wf = true) (a : Nat) (b : Byte) : (memSet m a b).wf = true :=
  wfFrom_mono (Nat.zero_le _) (memSet_wfFrom hm a b)

/-! ## Several cells -/

theorem memWrite_wf {m : Memory} (hm : m.wf = true) (a : Nat) (bs : List Byte) : (memWrite m a bs).wf = true := by
  induction bs generalizing m a with
  | nil => exact hm
  | cons b bs ih => exact ih (memSet_wf hm a b) (a + 1)

/-- A cell reads as the byte written to it, every other cell as before. -/
theorem memGet_memWrite {m : Memory} (hm : m.wf = true) (a : Nat) (bs : List Byte) (n : Nat) :
    memGet (memWrite m a bs) n = if a ≤ n ∧ n < a + bs.length then bs.getD (n - a) 0 else memGet m n := by
  induction bs generalizing m a with
  | nil => rw [memWrite, if_neg (by simp)]
  | cons b bs ih =>
    rw [memWrite, ih (memSet_wf hm a b), memGet_memSet hm]
    by_cases h : n = a
    · subst h; simp
    · by_cases h' : a + 1 ≤ n ∧ n < a + 1 + bs.length
      · rw [if_pos h', if_pos (by simp; omega), show n - a = (n - (a + 1)) + 1 by omega]; rfl
      · rw [if_neg h', if_neg h, if_neg (by simp; omega)]

/-- Cells dropped from the list read as the default, the rest keep the form. -/
theorem wfFrom_filter {m : Memory} {lo : Nat} (hm : Memory.wfFrom lo m = true) (f : Host.Cell → Bool) :
    Memory.wfFrom lo (m.filter f) = true := by
  induction m generalizing lo with
  | nil => rfl
  | cons p m ih =>
    obtain ⟨k, v⟩ := p
    simp only [Memory.wfFrom, Bool.and_eq_true, decide_eq_true_eq] at hm
    obtain ⟨⟨h1, h2⟩, hm⟩ := hm
    simp only [List.filter_cons]
    split
    · simp [Memory.wfFrom, h1, h2, ih hm]
    · exact wfFrom_mono (Nat.le_succ_of_le h1) (ih hm)
theorem filter_wf {m : Memory} (hm : m.wf = true) (f : Host.Cell → Bool) : Memory.wf (m.filter f) = true :=
  wfFrom_filter hm f

/-! ## The operations over the state -/

/-- Reset memory has the canonical form. -/
theorem reset_mem_wf : State.reset.mem.wf = true := rfl

theorem State.memPut_wf {s : State} (h : s.mem.wf = true) (cell : Nat) (bytes : List Byte) :
    (s.memPut cell bytes).mem.wf = true := memWrite_wf h cell bytes
theorem State.toCells_wf {s : State} (h : s.mem.wf = true) (f : Pending → Bool) : (s.toCells f).mem.wf = true :=
  foldl_keeps (fun t : State => t.mem.wf = true) _ (fun _ _ h => memWrite_wf h _ _) _ _ h
theorem State.releaseDie_wf {s : State} (h : s.mem.wf = true) (die : Nat) : (s.releaseDie die).mem.wf = true :=
  State.toCells_wf h _
theorem State.fitL2_wf {s : State} (h : s.mem.wf = true) (die : Nat) : (s.fitL2 die).mem.wf = true := by
  simp only [State.fitL2]
  split
  · exact h
  · exact State.toCells_wf h _
theorem clearAll_mem (ps : List Pending) (s : State) :
    (ps.foldl (fun s p => s.clearBits p.cell p.bytes.length) s).mem = s.mem := by
  induction ps generalizing s with
  | nil => rfl
  | cons p ps ih => exact ih _
theorem State.toDie_wf {s : State} (h : s.mem.wf = true) (f : Pending → Bool) : (s.toDie f).mem.wf = true :=
  foldl_keeps (fun t : State => t.mem.wf = true) _ (fun _ d h => State.fitL2_wf h d) _ _
    ((congrArg Memory.wf (clearAll_mem _ _)).trans h)
theorem State.ownFirst_wf {s : State} (h : s.mem.wf = true) (core cell n : Nat) : (s.ownFirst core cell n).mem.wf = true :=
  State.toDie_wf h _
theorem State.showBlocks_mem (s : State) (core : Nat) : (s.showBlocks core).mem = s.mem := by
  simp only [State.showBlocks]
  split <;> rfl
theorem State.releaseCore_wf {s : State} (h : s.mem.wf = true) (core : Nat) : (s.releaseCore core).mem.wf = true :=
  (congrArg Memory.wf (State.showBlocks_mem _ core)).trans (State.toDie_wf h _)
theorem State.releaseArrival_wf {s : State} (h : s.mem.wf = true) (core : Nat) : (s.releaseArrival core).mem.wf = true :=
  State.toDie_wf h _
theorem State.drainAt_wf {s : State} (h : s.mem.wf = true) (i : Nat) : (s.drainAt i).mem.wf = true := by
  simp only [State.drainAt]
  split
  · exact h
  · split
    · exact h
    · exact State.toDie_wf h _
    · exact State.toCells_wf h _
theorem State.recall_wf {s : State} (h : s.mem.wf = true) (cell n : Nat) : (s.recall cell n).mem.wf = true :=
  State.toCells_wf (State.toDie_wf h _) _
theorem State.recallThrough_wf {s : State} (h : s.mem.wf = true) (win : Bool) (cell n : Nat) :
    (s.recallThrough win cell n).mem.wf = true :=
  State.toCells_wf (State.toDie_wf h _) _
theorem State.recallDie_wf {s : State} (h : s.mem.wf = true) (die : Nat) : (s.recallDie die).mem.wf = true :=
  State.toCells_wf (State.toDie_wf h _) _
theorem State.fitL1_wf {s : State} (h : s.mem.wf = true) (core : Nat) : (s.fitL1 core).mem.wf = true := by
  simp only [State.fitL1]
  split
  · exact h
  · exact State.toDie_wf h _
theorem State.fillSector_wf {s : State} (h : s.mem.wf = true) (core : Option Nat) (win : Bool) (num : Nat) :
    (s.fillSector core win num).mem.wf = true := by
  cases core
  · exact State.fitL2_wf (s := s.setDie _ _) h _
  · exact State.fitL1_wf (s := s.setCore _ _) h _
theorem State.addPending_wf {s : State} (h : s.mem.wf = true) (p : Pending) : (s.addPending p).mem.wf = true := by
  simp only [State.addPending]
  split
  · exact State.fitL1_wf (s := { s with pending := s.pending ++ [p] }) h _
  · exact State.fitL2_wf (s := { s with pending := s.pending ++ [p] }) h _
  · exact h
theorem State.storeCore_wf {s : State} (h : s.mem.wf = true) (core : Nat) (win : Bool) (cell : Nat) (bytes : List Byte)
    (m : Maker) : (s.storeCore core win cell bytes m).mem.wf = true := by
  unfold State.storeCore
  apply State.addPending_wf
  exact h
theorem State.storeDie_wf {s : State} (h : s.mem.wf = true) (core : Option Nat) (win : Bool) (cell : Nat) (bytes : List Byte)
    (m : Maker) : (s.storeDie core win cell bytes m).mem.wf = true :=
  State.addPending_wf (s := ((s.toDie _).clearBits _ _).invalidate _ _ _) (State.toDie_wf h _) _
theorem State.storeHome_wf {s : State} (h : s.mem.wf = true) (cell : Nat) (bytes : List Byte) :
    (s.storeHome cell bytes).mem.wf = true :=
  memWrite_wf (m := (s.recall cell bytes.length).mem) (State.recall_wf h _ _) _ _
theorem State.storeAsked_wf {s : State} (h : s.mem.wf = true) (cell : Nat) (bytes : List Byte) :
    (s.storeAsked cell bytes).mem.wf = true :=
  memWrite_wf (m := (s.recall cell bytes.length).mem) (State.recall_wf h _ _) _ _
theorem State.storeUc_wf {s : State} (h : s.mem.wf = true) (win : Bool) (cell : Nat) (bytes : List Byte) (m : Maker) :
    (s.storeUc win cell bytes m).mem.wf = true :=
  memWrite_wf (m := (s.recallThrough win cell bytes.length).mem) (State.recallThrough_wf h _ _ _) _ _

end Sys2Proof.Machine
end

