-- ==== Sys2Proof/Laws/PerInstr.lean ====
section
/-! SUPPORT. Laws of the instructions as syntax, one lemma for each constructor. -/

namespace Sys2Proof.Laws

/-- An instruction is an event of the device's agents or has words in a program, and never both. -/
def HasWords.Statement (i : Instr) : Prop := i.isEvent = i.raw.isNone

theorem HasWords.nop : ∀ h, HasWords.Statement (.nop h) := fun _ => rfl
theorem HasWords.trail : ∀ d a b, HasWords.Statement (.trail d a b) := fun _ _ _ => rfl
theorem HasWords.wait : ∀ chain l src t m, HasWords.Statement (.wait chain l src t m) := fun _ _ _ _ _ => rfl
theorem HasWords.bra : ∀ guard to_, HasWords.Statement (.bra guard to_) := fun _ _ => rfl
theorem HasWords.brx : ∀ guard a, HasWords.Statement (.brx guard a) := fun _ _ => rfl
theorem HasWords.call : ∀ d to_, HasWords.Statement (.call d to_) := fun _ _ => rfl
theorem HasWords.ret : ∀ guard a, HasWords.Statement (.ret guard a) := fun _ _ => rfl
theorem HasWords.join : HasWords.Statement (.join) := rfl
theorem HasWords.regang : HasWords.Statement (.regang) := rfl
theorem HasWords.exit : ∀ guard, HasWords.Statement (.exit guard) := fun _ => rfl
theorem HasWords.yield : HasWords.Statement (.yield) := rfl
theorem HasWords.trap : ∀ h code, HasWords.Statement (.trap h code) := fun _ _ => rfl
theorem HasWords.brk : ∀ h code, HasWords.Statement (.brk h code) := fun _ _ => rfl
theorem HasWords.add : ∀ h ty sat d a b, HasWords.Statement (.add h ty sat d a b) := fun _ _ _ _ _ _ => rfl
theorem HasWords.sub : ∀ h ty sat d a b, HasWords.Statement (.sub h ty sat d a b) := fun _ _ _ _ _ _ => rfl
theorem HasWords.addc : ∀ h ty ps d a b, HasWords.Statement (.addc h ty ps d a b) := fun _ _ _ _ _ _ => rfl
theorem HasWords.subb : ∀ h ty ps d a b, HasWords.Statement (.subb h ty ps d a b) := fun _ _ _ _ _ _ => rfl
theorem HasWords.mul : ∀ h ty d a b, HasWords.Statement (.mul h ty d a b) := fun _ _ _ _ _ => rfl
theorem HasWords.mulh : ∀ h ty d a b, HasWords.Statement (.mulh h ty d a b) := fun _ _ _ _ _ => rfl
theorem HasWords.mad : ∀ h ty d a b, HasWords.Statement (.mad h ty d a b) := fun _ _ _ _ _ => rfl
theorem HasWords.div : ∀ h ty d a b, HasWords.Statement (.div h ty d a b) := fun _ _ _ _ _ => rfl
theorem HasWords.rem : ∀ h ty d a b, HasWords.Statement (.rem h ty d a b) := fun _ _ _ _ _ => rfl
theorem HasWords.min : ∀ h ty d a b, HasWords.Statement (.min h ty d a b) := fun _ _ _ _ _ => rfl
theorem HasWords.max : ∀ h ty d a b, HasWords.Statement (.max h ty d a b) := fun _ _ _ _ _ => rfl
theorem HasWords.and : ∀ h ty d a b, HasWords.Statement (.and h ty d a b) := fun _ _ _ _ _ => rfl
theorem HasWords.or : ∀ h ty d a b, HasWords.Statement (.or h ty d a b) := fun _ _ _ _ _ => rfl
theorem HasWords.xor : ∀ h ty d a b, HasWords.Statement (.xor h ty d a b) := fun _ _ _ _ _ => rfl
theorem HasWords.andn : ∀ h ty d a b, HasWords.Statement (.andn h ty d a b) := fun _ _ _ _ _ => rfl
theorem HasWords.orn : ∀ h ty d a b, HasWords.Statement (.orn h ty d a b) := fun _ _ _ _ _ => rfl
theorem HasWords.shl : ∀ h ty d a b, HasWords.Statement (.shl h ty d a b) := fun _ _ _ _ _ => rfl
theorem HasWords.shr : ∀ h ty d a b, HasWords.Statement (.shr h ty d a b) := fun _ _ _ _ _ => rfl
theorem HasWords.sar : ∀ h ty d a b, HasWords.Statement (.sar h ty d a b) := fun _ _ _ _ _ => rfl
theorem HasWords.rot : ∀ h ty d a b, HasWords.Statement (.rot h ty d a b) := fun _ _ _ _ _ => rfl
theorem HasWords.bfx : ∀ h ty d a b, HasWords.Statement (.bfx h ty d a b) := fun _ _ _ _ _ => rfl
theorem HasWords.bfi : ∀ h ty d a b, HasWords.Statement (.bfi h ty d a b) := fun _ _ _ _ _ => rfl
theorem HasWords.mov : ∀ h ty d a, HasWords.Statement (.mov h ty d a) := fun _ _ _ _ => rfl
theorem HasWords.neg : ∀ h ty sat d a, HasWords.Statement (.neg h ty sat d a) := fun _ _ _ _ _ => rfl
theorem HasWords.abs : ∀ h ty sat d a, HasWords.Statement (.abs h ty sat d a) := fun _ _ _ _ _ => rfl
theorem HasWords.popc : ∀ h ty d a, HasWords.Statement (.popc h ty d a) := fun _ _ _ _ => rfl
theorem HasWords.clz : ∀ h ty d a, HasWords.Statement (.clz h ty d a) := fun _ _ _ _ => rfl
theorem HasWords.ctz : ∀ h ty d a, HasWords.Statement (.ctz h ty d a) := fun _ _ _ _ => rfl
theorem HasWords.brev : ∀ h ty d a, HasWords.Statement (.brev h ty d a) := fun _ _ _ _ => rfl
theorem HasWords.perm : ∀ h sel d a b, HasWords.Statement (.perm h sel d a b) := fun _ _ _ _ _ => rfl
theorem HasWords.sel : ∀ h ty ps d a b, HasWords.Statement (.sel h ty ps d a b) := fun _ _ _ _ _ _ => rfl
theorem HasWords.movi : ∀ h ty d im, HasWords.Statement (.movi h ty d im) := fun _ _ _ _ => rfl
theorem HasWords.movh : ∀ h d im, HasWords.Statement (.movh h d im) := fun _ _ _ => rfl
theorem HasWords.lea : ∀ h scale z d a b, HasWords.Statement (.lea h scale z d a b) := fun _ _ _ _ _ _ => rfl
theorem HasWords.cmp : ∀ h cond ty pd a b, HasWords.Statement (.cmp h cond ty pd a b) := fun _ _ _ _ _ _ => rfl
theorem HasWords.plog : ∀ h lut pd pa pb, HasWords.Statement (.plog h lut pd pa pb) := fun _ _ _ _ _ => rfl
theorem HasWords.movs : ∀ h d r, HasWords.Statement (.movs h d r) := fun _ _ _ => rfl
theorem HasWords.setxb : ∀ h a, HasWords.Statement (.setxb h a) := fun _ _ => rfl
theorem HasWords.pmovToReg : ∀ h d, HasWords.Statement (.pmovToReg h d) := fun _ _ => rfl
theorem HasWords.pmovToPreds : ∀ h mask a, HasWords.Statement (.pmovToPreds h mask a) := fun _ _ _ => rfl
theorem HasWords.bsload : ∀ h a, HasWords.Statement (.bsload h a) := fun _ _ => rfl
theorem HasWords.bsread : ∀ h sx d k, HasWords.Statement (.bsread h sx d k) := fun _ _ _ _ => rfl
theorem HasWords.ld : ∀ h sz sx d a off, HasWords.Statement (.ld h sz sx d a off) := fun _ _ _ _ _ _ => rfl
theorem HasWords.st : ∀ h sz d a off, HasWords.Statement (.st h sz d a off) := fun _ _ _ _ _ => rfl
theorem HasWords.fadd : ∀ h ft rm d a b, HasWords.Statement (.fadd h ft rm d a b) := fun _ _ _ _ _ _ => rfl
theorem HasWords.fsub : ∀ h ft rm d a b, HasWords.Statement (.fsub h ft rm d a b) := fun _ _ _ _ _ _ => rfl
theorem HasWords.fmul : ∀ h ft rm d a b, HasWords.Statement (.fmul h ft rm d a b) := fun _ _ _ _ _ _ => rfl
theorem HasWords.fma : ∀ h ft rm d a b, HasWords.Statement (.fma h ft rm d a b) := fun _ _ _ _ _ _ => rfl
theorem HasWords.fma2 : ∀ h ft rm d a b, HasWords.Statement (.fma2 h ft rm d a b) := fun _ _ _ _ _ _ => rfl
theorem HasWords.fmin : ∀ h ft d a b, HasWords.Statement (.fmin h ft d a b) := fun _ _ _ _ _ => rfl
theorem HasWords.fmax : ∀ h ft d a b, HasWords.Statement (.fmax h ft d a b) := fun _ _ _ _ _ => rfl
theorem HasWords.fcmp : ∀ h cond ft pd a b, HasWords.Statement (.fcmp h cond ft pd a b) := fun _ _ _ _ _ _ => rfl
theorem HasWords.fdiv : ∀ h ft rm d a b, HasWords.Statement (.fdiv h ft rm d a b) := fun _ _ _ _ _ _ => rfl
theorem HasWords.fsqrt : ∀ h ft rm d a, HasWords.Statement (.fsqrt h ft rm d a) := fun _ _ _ _ _ => rfl
theorem HasWords.frcp : ∀ h ft rm d a, HasWords.Statement (.frcp h ft rm d a) := fun _ _ _ _ _ => rfl
theorem HasWords.frsq : ∀ h ft d a, HasWords.Statement (.frsq h ft d a) := fun _ _ _ _ => rfl
theorem HasWords.fexp2 : ∀ h ft d a, HasWords.Statement (.fexp2 h ft d a) := fun _ _ _ _ => rfl
theorem HasWords.flog2 : ∀ h ft d a, HasWords.Statement (.flog2 h ft d a) := fun _ _ _ _ => rfl
theorem HasWords.fsin : ∀ h ft d a, HasWords.Statement (.fsin h ft d a) := fun _ _ _ _ => rfl
theorem HasWords.fcos : ∀ h ft d a, HasWords.Statement (.fcos h ft d a) := fun _ _ _ _ => rfl
theorem HasWords.ftanh : ∀ h ft d a, HasWords.Statement (.ftanh h ft d a) := fun _ _ _ _ => rfl
theorem HasWords.fclass : ∀ h ft d a, HasWords.Statement (.fclass h ft d a) := fun _ _ _ _ => rfl
theorem HasWords.cvt : ∀ h dst src rm sat int d a, HasWords.Statement (.cvt h dst src rm sat int d a) := fun _ _ _ _ _ _ _ _ => rfl
theorem HasWords.cvtsr : ∀ h dst src d a, HasWords.Statement (.cvtsr h dst src d a) := fun _ _ _ _ _ => rfl
theorem HasWords.pack : ∀ h nf sr rm half j d a b, HasWords.Statement (.pack h nf sr rm half j d a b) := fun _ _ _ _ _ _ _ _ _ => rfl
theorem HasWords.unpack : ∀ h nf half ix d a, HasWords.Statement (.unpack h nf half ix d a) := fun _ _ _ _ _ _ => rfl
theorem HasWords.dot4 : ∀ h fmt alt half sc d a b, HasWords.Statement (.dot4 h fmt alt half sc d a b) := fun _ _ _ _ _ _ _ _ => rfl
theorem HasWords.dot6 : ∀ h fmt alt half sc d a b, HasWords.Statement (.dot6 h fmt alt half sc d a b) := fun _ _ _ _ _ _ _ _ => rfl
theorem HasWords.dot8 : ∀ h fmt alt half sc d a b, HasWords.Statement (.dot8 h fmt alt half sc d a b) := fun _ _ _ _ _ _ _ _ => rfl
theorem HasWords.scale : ∀ h ft rm map sr inv sel d a, HasWords.Statement (.scale h ft rm map sr inv sel d a) := fun _ _ _ _ _ _ _ _ _ => rfl
theorem HasWords.rndseed : ∀ h a, HasWords.Statement (.rndseed h a) := fun _ _ => rfl
theorem HasWords.rnd : ∀ h kind d, HasWords.Statement (.rnd h kind d) := fun _ _ _ => rfl
theorem HasWords.shfl : ∀ h mode w x64 d a b, HasWords.Statement (.shfl h mode w x64 d a b) := fun _ _ _ _ _ _ _ => rfl
theorem HasWords.push : ∀ h x64 d a b, HasWords.Statement (.push h x64 d a b) := fun _ _ _ _ _ => rfl
theorem HasWords.bfly : ∀ h x64 k d a, HasWords.Statement (.bfly h x64 k d a) := fun _ _ _ _ _ => rfl
theorem HasWords.vote : ∀ h mode d pa, HasWords.Statement (.vote h mode d pa) := fun _ _ _ _ => rfl
theorem HasWords.matchLanes : ∀ h x64 d a, HasWords.Statement (.matchLanes h x64 d a) := fun _ _ _ _ => rfl
theorem HasWords.redx : ∀ h op ty w d a, HasWords.Statement (.redx h op ty w d a) := fun _ _ _ _ _ _ => rfl
theorem HasWords.scanx : ∀ h op ty excl w d a, HasWords.Statement (.scanx h op ty excl w d a) := fun _ _ _ _ _ _ _ => rfl
theorem HasWords.barSync : ∀ chain g, HasWords.Statement (.barSync chain g) := fun _ _ => rfl
theorem HasWords.barArrive : ∀ chain g, HasWords.Statement (.barArrive chain g) := fun _ _ => rfl
theorem HasWords.barWait : ∀ chain g, HasWords.Statement (.barWait chain g) := fun _ _ => rfl
theorem HasWords.grow : ∀ chain n, HasWords.Statement (.grow chain n) := fun _ _ => rfl
theorem HasWords.shrink : ∀ chain n, HasWords.Statement (.shrink chain n) := fun _ _ => rfl
theorem HasWords.launch : ∀ h d a b, HasWords.Statement (.launch h d a b) := fun _ _ _ _ => rfl
theorem HasWords.arm : ∀ h a, HasWords.Statement (.arm h a) := fun _ _ => rfl
theorem HasWords.take : ∀ chain, HasWords.Statement (.take chain) := fun _ => rfl
theorem HasWords.pass : ∀ chain, HasWords.Statement (.pass chain) := fun _ => rfl
theorem HasWords.rxwin : ∀ chain n d base, HasWords.Statement (.rxwin chain n d base) := fun _ _ _ _ => rfl
theorem HasWords.ldOrdered : ∀ h sz sx acq scope d a off, HasWords.Statement (.ldOrdered h sz sx acq scope d a off) := fun _ _ _ _ _ _ _ _ => rfl
theorem HasWords.stOrdered : ∀ h sz rel scope d a off, HasWords.Statement (.stOrdered h sz rel scope d a off) := fun _ _ _ _ _ _ _ => rfl
theorem HasWords.lds : ∀ h sz sx d a off, HasWords.Statement (.lds h sz sx d a off) := fun _ _ _ _ _ _ => rfl
theorem HasWords.sts : ∀ h sz d a off, HasWords.Statement (.sts h sz d a off) := fun _ _ _ _ _ => rfl
theorem HasWords.ldp : ∀ h sz sx d a off, HasWords.Statement (.ldp h sz sx d a off) := fun _ _ _ _ _ _ => rfl
theorem HasWords.stp : ∀ h sz d a off, HasWords.Statement (.stp h sz d a off) := fun _ _ _ _ _ => rfl
theorem HasWords.ldfe : ∀ h sz sx clear d a off, HasWords.Statement (.ldfe h sz sx clear d a off) := fun _ _ _ _ _ _ _ => rfl
theorem HasWords.stfe : ∀ h d a off, HasWords.Statement (.stfe h d a off) := fun _ _ _ _ => rfl
theorem HasWords.atom : ∀ h op ty ord scope noret d a off, HasWords.Statement (.atom h op ty ord scope noret d a off) := fun _ _ _ _ _ _ _ _ _ => rfl
theorem HasWords.red : ∀ h op ty rel scope d a off, HasWords.Statement (.red h op ty rel scope d a off) := fun _ _ _ _ _ _ _ _ => rfl
theorem HasWords.fence : ∀ h ord scope als, HasWords.Statement (.fence h ord scope als) := fun _ _ _ _ => rfl
theorem HasWords.cflush : ∀ h die a off, HasWords.Statement (.cflush h die a off) := fun _ _ _ _ => rfl
theorem HasWords.cinv : ∀ h die a off, HasWords.Statement (.cinv h die a off) := fun _ _ _ _ => rfl
theorem HasWords.pref : ∀ h l2 a off, HasWords.Statement (.pref h l2 a off) := fun _ _ _ _ => rfl
theorem HasWords.talloc : ∀ h isB any n d, HasWords.Statement (.talloc h isB any n d) := fun _ _ _ _ _ => rfl
theorem HasWords.tfree : ∀ h isB n, HasWords.Statement (.tfree h isB n) := fun _ _ _ => rfl
theorem HasWords.tloadb : ∀ h fmt orientT sparse bh a off, HasWords.Statement (.tloadb h fmt orientT sparse bh a off) := fun _ _ _ _ _ _ _ => rfl
theorem HasWords.tmma : ∀ h tri af bh acc ro so c, HasWords.Statement (.tmma h tri af bh acc ro so c) := fun _ _ _ _ _ _ _ _ => rfl
theorem HasWords.tzero : ∀ h acc, HasWords.Statement (.tzero h acc) := fun _ _ => rfl
theorem HasWords.tcfg : ∀ h sr reseed acc a, HasWords.Statement (.tcfg h sr reseed acc a) := fun _ _ _ _ _ => rfl
theorem HasWords.tread : ∀ h acc n a, HasWords.Statement (.tread h acc n a) := fun _ _ _ _ => rfl
theorem HasWords.tstore : ∀ h tf scope sr acc a off, HasWords.Statement (.tstore h tf scope sr acc a off) := fun _ _ _ _ _ _ _ => rfl
theorem HasWords.cpy : ∀ h sz scope d a off, HasWords.Statement (.cpy h sz scope d a off) := fun _ _ _ _ _ _ => rfl
theorem HasWords.cpyt : ∀ h scope ind ks kf kd od of_ os, HasWords.Statement (.cpyt h scope ind ks kf kd od of_ os) := fun _ _ _ _ _ _ _ _ _ => rfl
theorem HasWords.lrec : ∀ h k a off, HasWords.Statement (.lrec h k a off) := fun _ _ _ _ => rfl
theorem HasWords.seal : ∀ h q, HasWords.Statement (.seal h q) := fun _ _ => rfl
theorem HasWords.bwait : ∀ h n, HasWords.Statement (.bwait h n) := fun _ _ => rfl
theorem HasWords.bookld : ∀ h e16 a off, HasWords.Statement (.bookld h e16 a off) := fun _ _ _ _ => rfl
theorem HasWords.bookldUnpin : ∀ h a off, HasWords.Statement (.bookldUnpin h a off) := fun _ _ _ => rfl
theorem HasWords.bookq : ∀ h e16 a b, HasWords.Statement (.bookq h e16 a b) := fun _ _ _ _ => rfl
theorem HasWords.ired : ∀ h kt ko acc bag d a off, HasWords.Statement (.ired h kt ko acc bag d a off) := fun _ _ _ _ _ _ _ _ => rfl
theorem HasWords.bcw : ∀ h sz d a off, HasWords.Statement (.bcw h sz d a off) := fun _ _ _ _ _ => rfl
theorem HasWords.radd : ∀ h ty vc d a off, HasWords.Statement (.radd h ty vc d a off) := fun _ _ _ _ _ _ => rfl
theorem HasWords.rmin : ∀ h ty vc d a off, HasWords.Statement (.rmin h ty vc d a off) := fun _ _ _ _ _ _ => rfl
theorem HasWords.rmax : ∀ h ty vc d a off, HasWords.Statement (.rmax h ty vc d a off) := fun _ _ _ _ _ _ => rfl
theorem HasWords.ror : ∀ h b64 vc d a off, HasWords.Statement (.ror h b64 vc d a off) := fun _ _ _ _ _ _ => rfl
theorem HasWords.rwo : ∀ h n vc d a off, HasWords.Statement (.rwo h n vc d a off) := fun _ _ _ _ _ _ => rfl
theorem HasWords.rarv : ∀ h vc d a off, HasWords.Statement (.rarv h vc d a off) := fun _ _ _ _ _ => rfl
theorem HasWords.rget : ∀ h n rx vc d a off, HasWords.Statement (.rget h n rx vc d a off) := fun _ _ _ _ _ _ _ => rfl
theorem HasWords.await : ∀ h d a off, HasWords.Statement (.await h d a off) := fun _ _ _ _ => rfl
theorem HasWords.rfence : ∀ chain d, HasWords.Statement (.rfence chain d) := fun _ _ => rfl
theorem HasWords.accrd : ∀ h bf16 d a off, HasWords.Statement (.accrd h bf16 d a off) := fun _ _ _ _ _ => rfl
theorem HasWords.accclr : ∀ h vc a off, HasWords.Statement (.accclr h vc a off) := fun _ _ _ _ => rfl
theorem HasWords.mig : ∀ h d, HasWords.Statement (.mig h d) := fun _ _ => rfl
theorem HasWords.home : HasWords.Statement (.home) := rfl
theorem HasWords.coll : ∀ h n arv rx vc d a off, HasWords.Statement (.coll h n arv rx vc d a off) := fun _ _ _ _ _ _ _ _ => rfl
theorem HasWords.svc : ∀ h code, HasWords.Statement (.svc h code) := fun _ _ => rfl
theorem HasWords.eret : ∀ h a, HasWords.Statement (.eret h a) := fun _ _ => rfl
theorem HasWords.halt : ∀ h d a, HasWords.Statement (.halt h d a) := fun _ _ _ => rfl
theorem HasWords.movswLstat : ∀ h src, HasWords.Statement (.movswLstat h src) := fun _ _ => rfl
theorem HasWords.movswChkey : ∀ h src, HasWords.Statement (.movswChkey h src) := fun _ _ => rfl
theorem HasWords.movswChmode : ∀ h src, HasWords.Statement (.movswChmode h src) := fun _ _ => rfl
theorem HasWords.movswChconf : ∀ h src, HasWords.Statement (.movswChconf h src) := fun _ _ => rfl
theorem HasWords.movsw : ∀ h r src, HasWords.Statement (.movsw h r src) := fun _ _ _ => rfl
theorem HasWords.tlbinvPage : ∀ h a, HasWords.Statement (.tlbinvPage h a) := fun _ _ => rfl
theorem HasWords.tlbinvAll : ∀ h, HasWords.Statement (.tlbinvAll h) := fun _ => rfl
theorem HasWords.runStart : ∀ core gang cohort slot, HasWords.Statement (.runStart core gang cohort slot) := fun _ _ _ _ => rfl
theorem HasWords.longLatencyWrite : ∀ op, HasWords.Statement (.longLatencyWrite op) := fun _ => rfl
theorem HasWords.accessPerformed : ∀ op lane, HasWords.Statement (.accessPerformed op lane) := fun _ _ => rfl
theorem HasWords.faultRecordDelivery : ∀ rcd, HasWords.Statement (.faultRecordDelivery rcd) := fun _ => rfl
theorem HasWords.blockPlacement : ∀ die rook, HasWords.Statement (.blockPlacement die rook) := fun _ _ => rfl
theorem HasWords.blockHalted : ∀ block, HasWords.Statement (.blockHalted block) := fun _ => rfl
theorem HasWords.gangSave : ∀ gang, HasWords.Statement (.gangSave gang) := fun _ => rfl
theorem HasWords.blockSaveComplete : ∀ block, HasWords.Statement (.blockSaveComplete block) := fun _ => rfl
theorem HasWords.blockRestore : ∀ block, HasWords.Statement (.blockRestore block) := fun _ => rfl
theorem HasWords.blockRetirement : ∀ block, HasWords.Statement (.blockRetirement block) := fun _ => rfl
theorem HasWords.taskRetirement : ∀ task, HasWords.Statement (.taskRetirement task) := fun _ => rfl
theorem HasWords.bufferedRecordArrival : ∀ rcd, HasWords.Statement (.bufferedRecordArrival rcd) := fun _ => rfl
theorem HasWords.matrixPassBegin : ∀ core macro_, HasWords.Statement (.matrixPassBegin core macro_) := fun _ _ => rfl
theorem HasWords.matrixPassComplete : ∀ core macro_, HasWords.Statement (.matrixPassComplete core macro_) := fun _ _ => rfl
theorem HasWords.tloadbBegin : ∀ op, HasWords.Statement (.tloadbBegin op) := fun _ => rfl
theorem HasWords.tloadbFinish : ∀ op, HasWords.Statement (.tloadbFinish op) := fun _ => rfl
theorem HasWords.tzeroEffect : ∀ op, HasWords.Statement (.tzeroEffect op) := fun _ => rfl
theorem HasWords.tcfgEffect : ∀ op, HasWords.Statement (.tcfgEffect op) := fun _ => rfl
theorem HasWords.treadDelivery : ∀ op, HasWords.Statement (.treadDelivery op) := fun _ => rfl
theorem HasWords.tstorePerform : ∀ op, HasWords.Statement (.tstorePerform op) := fun _ => rfl
theorem HasWords.handleFreed : ∀ op, HasWords.Statement (.handleFreed op) := fun _ => rfl
theorem HasWords.lrecRead : ∀ op, HasWords.Statement (.lrecRead op) := fun _ => rfl
theorem HasWords.cpyCompletion : ∀ op, HasWords.Statement (.cpyCompletion op) := fun _ => rfl
theorem HasWords.cpytExecution : ∀ op, HasWords.Statement (.cpytExecution op) := fun _ => rfl
theorem HasWords.batchFinish : ∀ gang lane, HasWords.Statement (.batchFinish gang lane) := fun _ _ => rfl
theorem HasWords.iredCommand : ∀ op, HasWords.Statement (.iredCommand op) := fun _ => rfl
theorem HasWords.bookPin : ∀ op lane, HasWords.Statement (.bookPin op lane) := fun _ _ => rfl
theorem HasWords.bookQuery : ∀ op, HasWords.Statement (.bookQuery op) := fun _ => rfl
theorem HasWords.columnAccess : ∀ op lane, HasWords.Statement (.columnAccess op lane) := fun _ _ => rfl
theorem HasWords.promotionEntry : ∀ die ch, HasWords.Statement (.promotionEntry die ch) := fun _ _ => rfl
theorem HasWords.promotionExit : ∀ die ch, HasWords.Statement (.promotionExit die ch) := fun _ _ => rfl
theorem HasWords.selfRefreshEntry : ∀ die ch, HasWords.Statement (.selfRefreshEntry die ch) := fun _ _ => rfl
theorem HasWords.selfRefreshExit : ∀ die ch, HasWords.Statement (.selfRefreshExit die ch) := fun _ _ => rfl
theorem HasWords.powerDownRequest : ∀ die ch, HasWords.Statement (.powerDownRequest die ch) := fun _ _ => rfl
theorem HasWords.retransmission : ∀ die eng, HasWords.Statement (.retransmission die eng) := fun _ _ => rfl
theorem HasWords.raddPacket : ∀ n, HasWords.Statement (.raddPacket n) := fun _ => rfl
theorem HasWords.rminPacket : ∀ n, HasWords.Statement (.rminPacket n) := fun _ => rfl
theorem HasWords.rmaxPacket : ∀ n, HasWords.Statement (.rmaxPacket n) := fun _ => rfl
theorem HasWords.rorPacket : ∀ n, HasWords.Statement (.rorPacket n) := fun _ => rfl
theorem HasWords.rwoPacket : ∀ n, HasWords.Statement (.rwoPacket n) := fun _ => rfl
theorem HasWords.rarvPacket : ∀ n, HasWords.Statement (.rarvPacket n) := fun _ => rfl
theorem HasWords.rgetPacket : ∀ n, HasWords.Statement (.rgetPacket n) := fun _ => rfl
theorem HasWords.replyPacket : ∀ n, HasWords.Statement (.replyPacket n) := fun _ => rfl
theorem HasWords.rgetArrivalSend : ∀ job, HasWords.Statement (.rgetArrivalSend job) := fun _ => rfl
theorem HasWords.ackPacket : ∀ n, HasWords.Statement (.ackPacket n) := fun _ => rfl
theorem HasWords.armingPacket : ∀ n, HasWords.Statement (.armingPacket n) := fun _ => rfl
theorem HasWords.accclrPacket : ∀ n, HasWords.Statement (.accclrPacket n) := fun _ => rfl
theorem HasWords.resumePacket : ∀ n, HasWords.Statement (.resumePacket n) := fun _ => rfl
theorem HasWords.collPacket : ∀ n, HasWords.Statement (.collPacket n) := fun _ => rfl
theorem HasWords.plyDeparture : ∀ ply, HasWords.Statement (.plyDeparture ply) := fun _ => rfl
theorem HasWords.plyPacket : ∀ n, HasWords.Statement (.plyPacket n) := fun _ => rfl
theorem HasWords.refusedPlyArrival : ∀ n, HasWords.Statement (.refusedPlyArrival n) := fun _ => rfl
theorem HasWords.returnPlyArrival : ∀ n, HasWords.Statement (.returnPlyArrival n) := fun _ => rfl
theorem HasWords.guestGangFormation : ∀ core, HasWords.Statement (.guestGangFormation core) := fun _ => rfl
theorem HasWords.fenceNotice : ∀ n, HasWords.Statement (.fenceNotice n) := fun _ => rfl
theorem HasWords.unitFence : ∀ pkg unit, HasWords.Statement (.unitFence pkg unit) := fun _ _ => rfl
theorem HasWords.hdmAccess : ∀ pkg link die pa len write, HasWords.Statement (.hdmAccess pkg link die pa len write) := fun _ _ _ _ _ _ => rfl
theorem HasWords.armwin : ∀ die link size value, HasWords.Statement (.armwin die link size value) := fun _ _ _ _ => rfl
theorem HasWords.armstat : ∀ die size value, HasWords.Statement (.armstat die size value) := fun _ _ _ => rfl
theorem HasWords.devstat : ∀ die size value, HasWords.Statement (.devstat die size value) := fun _ _ _ => rfl
theorem HasWords.woconf : ∀ die size value, HasWords.Statement (.woconf die size value) := fun _ _ _ => rfl
theorem HasWords.configRegisterWrite : ∀ die offset size value, HasWords.Statement (.configRegisterWrite die offset size value) := fun _ _ _ _ => rfl
theorem HasWords.getid : ∀ pkg link, HasWords.Statement (.getid pkg link) := fun _ _ => rfl
theorem HasWords.attest : ∀ pkg link nonce, HasWords.Statement (.attest pkg link nonce) := fun _ _ _ => rfl
theorem HasWords.extend : ∀ pkg link mr data, HasWords.Statement (.extend pkg link mr data) := fun _ _ _ _ => rfl
theorem HasWords.kemkey : ∀ pkg link, HasWords.Statement (.kemkey pkg link) := fun _ _ => rfl
theorem HasWords.form : ∀ pkg link body, HasWords.Statement (.form pkg link body) := fun _ _ _ => rfl
theorem HasWords.revoke : ∀ pkg link gen part sigs, HasWords.Statement (.revoke pkg link gen part sigs) := fun _ _ _ _ _ => rfl
theorem HasWords.dissolve : ∀ pkg link gen sigs, HasWords.Statement (.dissolve pkg link gen sigs) := fun _ _ _ _ => rfl
theorem HasWords.status : ∀ pkg link, HasWords.Statement (.status pkg link) := fun _ _ => rfl
theorem HasWords.startUp : ∀ pkg report, HasWords.Statement (.startUp pkg report) := fun _ _ => rfl
theorem HasWords.railLimiterTrip : ∀ die island, HasWords.Statement (.railLimiterTrip die island) := fun _ _ => rfl
theorem HasWords.thermalThrottle : ∀ pkg die, HasWords.Statement (.thermalThrottle pkg die) := fun _ _ => rfl
theorem HasWords.thermalRecovery : ∀ pkg die, HasWords.Statement (.thermalRecovery pkg die) := fun _ _ => rfl
theorem HasWords.thermalShutdown : ∀ pkg, HasWords.Statement (.thermalShutdown pkg) := fun _ => rfl
theorem HasWords.cyclesAdvance : ∀ die, HasWords.Statement (.cyclesAdvance die) := fun _ => rfl
theorem HasWords.powerDownExit : ∀ die ch, HasWords.Statement (.powerDownExit die ch) := fun _ _ => rfl

end Sys2Proof.Laws
end

