-- ==== Sys2Proof/Laws/Walk.lean ====
section
/-! SUPPORT. What a walk and a range of pages come to where no channel of the machine holds accesses: neither waits (R316). -/

namespace Sys2Proof.Machine

/-- No access to any cell is held. -/
def State.Quiet (s : State) : Prop := ∀ cell, s.heldCell cell = false

variable {s : State}

theorem entryAt_quiet (h : s.Quiet) (die base level va : Nat) : s.entryAt die base level va ≠ none := by
  unfold State.entryAt
  split
  · simp
  · simp [h _]
theorem walkFrom_quiet (h : s.Quiet) (die va : Nat) : ∀ n level base, s.walkFrom die va n level base ≠ .error failWait
  | 0, _, _ => by simp [State.walkFrom, failWait, failAccess, failOf, tcAccess]
  | n + 1, level, base => by
    have ih := walkFrom_quiet h die va n
    unfold State.walkFrom
    cases he : s.entryAt die base level va with
    | none => exact absurd he (entryAt_quiet h _ _ _ _)
    | some e =>
      dsimp only
      split_ifs <;> first | exact ih _ _ | simp [failWait, failAccess, failOf, tcAccess, tcPageFault]
theorem lookup_quiet (h : s.Quiet) (die va : Nat) : s.lookup die va ≠ .error failWait := by
  unfold State.lookup State.walk
  dsimp only
  split_ifs <;> first | exact walkFrom_quiet h _ _ _ _ _ | simp [failWait, failAccess, failOf, tcAccess, tcPageFault]
theorem translateN_quiet (h : s.Quiet) (die va n : Nat) (nd : Need) : s.translateN die va n nd ≠ .error failWait := by
  have hl := lookup_quiet h die va
  unfold State.translateN
  cases hx : s.lookup die va with
  | error f => rw [hx] at hl; exact hl
  | ok l =>
    unfold checkLeaf Leaf.check
    dsimp only
    split_ifs <;> simp [failWait, failAccess, failOf, tcAccess]
theorem translateRange_quiet (h : s.Quiet) (die : Nat) (nd : Need) :
    ∀ fuel va n, s.translateRange die nd fuel va n ≠ .error failWait
  | 0, _, _ => by simp [State.translateRange]
  | fuel + 1, va, n => by
    have ih := translateRange_quiet h die nd fuel
    have ht := translateN_quiet h die va (Nat.min n (2 ^ 16 - va % 2 ^ 16)) nd
    unfold State.translateRange
    split_ifs
    · simp
    · dsimp only
      cases hx : s.translateN die va (Nat.min n (2 ^ 16 - va % 2 ^ 16)) nd with
      | error f => rw [hx] at ht; simpa using ht
      | ok l =>
        dsimp only
        cases hy : s.translateRange die nd fuel (va + Nat.min n (2 ^ 16 - va % 2 ^ 16)) (n - Nat.min n (2 ^ 16 - va % 2 ^ 16)) with
        | error f =>
          have := ih (va + Nat.min n (2 ^ 16 - va % 2 ^ 16)) (n - Nat.min n (2 ^ 16 - va % 2 ^ 16))
          rw [hy] at this; simpa using this
        | ok ls => simp
/-- A range of virtual memory is held only where some channel holds accesses. -/
theorem rangeHeld_quiet (h : s.Quiet) (die : Nat) (nd : Need) (va n : Nat) : s.rangeHeld die nd va n = false := by
  have ht := translateRange_quiet h die nd (pagesFor n) va n
  unfold State.rangeHeld
  cases hx : s.translateRange die nd (pagesFor n) va n with
  | error f =>
    rw [hx] at ht
    simp only [ne_eq, Except.error.injEq] at ht
    simp [ht]
  | ok ls => simp [h _]

end Sys2Proof.Machine
end

