-- ==== Sys2Proof/Tests/Slice0.lean ====
section
/-! SUPPORT. Tests: ill-formed terms that are refused, words of the spec's encodings that decode to what they stand for, and
states and operands that meet the hypotheses of the statements. -/

namespace Sys2Proof.Tests

open Machine

/-! ## Operands -/

/-- Register field n. -/
def v (n : Nat) : Reg := BitVec.ofNat 7 n
/-- A last operand in register n. -/
def vb (n : Nat) : Src := .reg (v n)
def hd : Hd := { chain := false, guard := 7 }
/-- A word whose next word is in its issue group. -/
def hc : Hd := { chain := true, guard := 7 }
/-- A word under the guard of predicate n. -/
def hg (n : Nat) : Hd := { chain := false, guard := BitVec.ofNat 3 n }

/-! ## WellFormed: an ill-formed term for each check -/

/-- Every term is refused for the reason named. -/
def refusedFor (e : Illegal) (l : List Instr) : Bool := l.all fun i => i.check == some e

/-- A destination in a queue or beyond the fields, an odd pair, a queue where none is allowed (R14, R16, R30). -/
theorem test_illformed_integer_registers : refusedFor .register
    [.trail (v 112) (v 127) (v 127), .trail (v 0) (v 126) (v 127), .trail (v 0) (v 1) (v 120), .brx 7 (v 115), .ret 7 (v 119),
     .call (v 112) (.short 0), .call (v 120) (.short 0),
     .add hd .i32 false (v 112) (v 0) (vb 0), .add hd .i64 false (v 1) (v 0) (vb 0), .add hd .i64 false (v 0) (v 1) (vb 0),
     .add hd .i64 false (v 0) (v 0) (vb 1), .sub hd .i32 false (v 0) (v 115) (vb 0), .addc hd .n64 0 (v 0) (v 3) (vb 0),
     .subb hd .n64 0 (v 3) (v 0) (vb 0), .mul hd .i64 (v 0) (v 0) (vb 113), .mad hd .i32 (v 113) (v 0) (vb 0),
     .min hd .i8 (v 0) (v 0) (vb 117), .max hd .i8 (v 114) (v 0) (vb 0), .mulh hd .i64 (v 5) (v 0) (vb 0),
     .div hd .i64 (v 0) (v 5) (vb 0), .rem hd .i64 (v 0) (v 0) (vb 5), .and hd .i32 (v 118) (v 0) (vb 0),
     .or hd .n64 (v 7) (v 0) (vb 0), .xor hd .n64 (v 0) (v 7) (vb 0), .andn hd .n64 (v 0) (v 0) (vb 7),
     .orn hd .i32 (v 112) (v 0) (vb 0), .shl hd .i64 (v 1) (v 0) (vb 0), .shr hd .i64 (v 0) (v 1) (vb 0),
     .sar hd .i32 (v 0) (v 0) (vb 116), .rot hd .i32 (v 112) (v 0) (vb 0), .bfx hd .i64 (v 0) (v 3) (vb 0),
     .bfi hd .i64 (v 3) (v 0) (vb 0), .mov hd .n64 (v 1) (v 0), .neg hd .i64 false (v 0) (v 1), .abs hd .i32 false (v 112) (v 0),
     .popc hd .i32 (v 112) (v 0), .clz hd .i64 (v 0) (v 1), .ctz hd .i32 (v 0) (v 115), .brev hd .n64 (v 1) (v 0),
     .perm hd 0 (v 112) (v 0) (vb 0), .sel hd .i64 0 (v 1) (v 0) (vb 0), .movi hd .i64 (v 1) (.short 0),
     .movh hd (v 1) (.short 0), .lea hd 0 false (v 1) (v 0) (vb 0), .lea hd 0 false (v 0) (v 1) (vb 0),
     .cmp hd .eq .i64 0 (v 1) (vb 0), .cmp hd .eq .i64 0 (v 0) (vb 1), .movs hd (v 1) .tcbp, .movs hd (v 112) .lane,
     .setxb hd (v 115), .pmovToReg hd (v 112), .pmovToPreds hd 0 (v 115), .bsload hd (v 1), .bsread hd false (v 112) 1] = true := by
  decide
theorem test_illformed_integer_types : refusedFor .type
    [.addc hd .i8 0 (v 0) (v 0) (vb 0), .subb hd .n16 0 (v 0) (v 0) (vb 0), .mulh hd .i16 (v 0) (v 0) (vb 0),
     .div hd .i8 (v 0) (v 0) (vb 0), .rem hd .n8 (v 0) (v 0) (vb 0), .and hd .i8 (v 0) (v 0) (vb 0),
     .or hd .i8 (v 0) (v 0) (vb 0), .xor hd .i8 (v 0) (v 0) (vb 0), .andn hd .i8 (v 0) (v 0) (vb 0),
     .orn hd .i8 (v 0) (v 0) (vb 0), .shl hd .i8 (v 0) (v 0) (vb 0), .shr hd .n8 (v 0) (v 0) (vb 0),
     .sar hd .i16 (v 0) (v 0) (vb 0), .rot hd .i16 (v 0) (v 0) (vb 0), .bfx hd .i16 (v 0) (v 0) (vb 0),
     .bfi hd .n16 (v 0) (v 0) (vb 0), .neg hd .n32 true (v 0) (v 0), .abs hd .n32 false (v 0) (v 0), .popc hd .i8 (v 0) (v 0),
     .clz hd .i8 (v 0) (v 0), .ctz hd .i8 (v 0) (v 0), .brev hd .i8 (v 0) (v 0), .sel hd .i8 0 (v 0) (v 0) (vb 0),
     .movi hd .i8 (v 0) (.short 0)] = true := by decide
theorem test_illformed_float_types : refusedFor .type
    [.fma2 hd .f32 .rne (v 0) (v 0) (v 0), .fcmp hd .eq .f16x2 0 (v 0) (vb 0), .fdiv hd .bf16x2 .rne (v 0) (v 0) (vb 0),
     .fsqrt hd .f16x2 .rne (v 0) (v 0), .frcp hd .f16x2 .rne (v 0) (v 0), .frsq hd .bf16x2 (v 0) (v 0),
     .fexp2 hd .f64 (v 0) (v 0), .flog2 hd .f64 (v 0) (v 0), .fsin hd .f64 (v 0) (v 0), .fcos hd .f64 (v 0) (v 0),
     .ftanh hd .f16x2 (v 0) (v 0), .fclass hd .f16x2 (v 0) (v 0), .cvtsr hd .f32 .f32 (v 0) (v 0),
     .redx hd .fadd .n32 .w32 (v 0) (v 0), .scanx hd .add .i8 false .w32 (v 0) (v 0),
     .atom hd .fadd .i32 .rlx .d false (v 0) (v 0) 0, .red hd .exch .i32 false .d (v 0) (v 0) 0] = true := by decide
theorem test_illformed_float_registers : refusedFor .register
    [.fadd hd .f64 .rne (v 1) (v 0) (vb 0), .fsub hd .f64 .rne (v 0) (v 1) (vb 0), .fmul hd .f64 .rne (v 0) (v 0) (vb 1),
     .fma hd .f16 .rne (v 112) (v 0) (vb 0), .fmin hd .f64 (v 1) (v 0) (vb 0), .fmax hd .f64 (v 0) (v 1) (vb 0),
     .fma2 hd .f16x2 .rne (v 1) (v 0) (v 0), .fcmp hd .eq .f64 0 (v 1) (vb 0), .fcmp hd .eq .f16 0 (v 0) (.imm 0),
     .fdiv hd .f64 .rne (v 1) (v 0) (vb 0), .fsqrt hd .f64 .rne (v 1) (v 0), .frcp hd .f64 .rne (v 0) (v 1),
     .frsq hd .f64 (v 1) (v 0), .fexp2 hd .f32 (v 112) (v 0), .fclass hd .f64 (v 0) (v 1), .cvt hd .f64 .f32 .rne false false (v 1) (v 0),
     .cvtsr hd .bf16 .f64 (v 0) (v 1), .pack hd .e3m2 false .rne false 0 (v 1) (v 0) (vb 0),
     .unpack hd .e3m2 false 0 (v 0) (v 1), .dot4 hd .fmt0 false false (some ⟨v 112, 0, 0⟩) (v 0) (v 0) (v 0),
     .dot6 hd .fmt0 false false none (v 0) (v 1) (v 0), .dot8 hd .fmt0 false false none (v 112) (v 0) (v 0),
     .scale hd .f64 .rne .byFt (v 0) false 0 (v 1) (v 0), .rndseed hd (v 1), .rnd hd .n64 (v 1)] = true := by decide
theorem test_illformed_qualifiers : refusedFor .qualifier
    [.ld hd .b32 true (v 0) (v 0) 0, .ldOrdered hd .b64 true false .d (v 0) (v 0) 0, .lds hd .b32 true (v 0) (v 0) 0,
     .ldp hd .b128 true (v 0) (v 0) 0, .ldfe hd .b32 true false (v 0) (v 0) 0, .cvt hd .f32 .e2m1 .rne true false (v 0) (v 0),
     .pack hd .e4m3 false .rne false 2 (v 0) (v 0) (vb 0), .pack hd .e4m3 false .rne true 0 (v 0) (v 0) (vb 0),
     .pack hd .i8 true .rne false 0 (v 0) (v 0) (vb 0), .unpack hd .f16 false 2 (v 0) (v 0), .unpack hd .i8 true 0 (v 0) (v 0),
     .dot4 hd .fmt0 false true none (v 0) (v 0) (v 0), .dot4 hd .fmt2 true false none (v 0) (v 0) (v 0),
     .dot6 hd .fmt2 false false none (v 0) (v 0) (v 0), .dot8 hd .fmt0 true false none (v 0) (v 0) (v 0),
     .dot8 hd .fmt1 false false (some ⟨v 0, 0, 0⟩) (v 0) (v 0) (v 0),
     .atom hd .add .i32 .acq .d true (v 0) (v 0) 0, .fence hd .none .d false,
     .cpyt hd .k false 1 0 0 (v 0) (v 0) (v 0)] = true := by decide
theorem test_illformed_immediates : refusedFor .immediate
    [.bsread hd false (v 0) 0, .bsread hd false (v 0) 33, .barSync false 257, .barArrive false 257, .barWait false 511,
     .grow false 0, .grow false 12, .shrink false 504, .rxwin false 9 (v 0) 0, .rxwin false 8 (v 0) 112,
     .talloc hd false false 16 (v 0), .talloc hd true false 8 (v 0), .talloc hd false true 1 (v 0),
     .tfree hd true 8] = true := by decide
theorem test_illformed_lane_and_memory_registers : refusedFor .register
    [.shfl hd .idx .w32 true (v 1) (v 0) (vb 0), .shfl hd .idx .w32 false (v 0) (v 112) (vb 0), .push hd false (v 0) (v 0) (vb 113),
     .bfly hd true .k1 (v 0) (v 1), .vote hd .ballot (v 112) 0, .vote hd .any (v 8) 0, .matchLanes hd true (v 0) (v 1),
     .redx hd .add .i64 .w32 (v 1) (v 0), .scanx hd .add .i32 false .w32 (v 0) (v 113), .launch hd (v 112) (v 0) (vb 0),
     .launch hd (v 0) (v 1) (vb 0), .arm hd (v 1), .rxwin false 8 (v 1) 0, .ld hd .b64 false (v 1) (v 0) 0,
     .ld hd .b32 false (v 120) (v 0) 0, .ld hd .b32 false (v 0) (v 1) 0, .st hd .b64 (v 1) (v 0) 0,
     .ldOrdered hd .b32 false false .d (v 0) (v 1) 0, .stOrdered hd .b32 false .d (v 112) (v 0) 0,
     .lds hd .b128 false (v 2) (v 0) 0, .ldp hd .b64 false (v 3) (v 0) 0, .ldfe hd .b128 false false (v 6) (v 0) 0,
     .sts hd .b128 (v 2) (v 0) 0, .stp hd .b64 (v 1) (v 0) 0, .stfe hd (v 2) (v 0) 0,
     .atom hd .add .i64 .rlx .d false (v 1) (v 0) 0, .red hd .add .i32 false .d (v 0) (v 1) 0, .cflush hd true (v 1) 0,
     .cinv hd true (v 1) 0, .pref hd true (v 1) 0] = true := by decide
theorem test_illformed_engine_and_remote_registers : refusedFor .register
    [.talloc hd false false 0 (v 112), .tloadb hd .bf16 false false 0 (v 1) 0, .tmma hd false .bf16 0 0 (v 0) (v 0) (v 1),
     .tmma hd true .bf16 0 0 (v 115) (v 0) (v 0), .tcfg hd false false 0 (v 2), .tcfg hd false true 0 (v 1),
     .tread hd 0 0 (v 115), .tstore hd .f32 .d false 0 (v 1) 0, .cpy hd .four .d (v 1) (v 0) 0, .cpyt hd .k false 0 0 0 (v 0) (v 0) (v 1),
     .lrec hd 0 (v 1) 0, .bookld hd false (v 1) 0, .bookldUnpin hd (v 1) 0, .bookq hd false (v 0) (v 112),
     .ired hd 0 0 false (v 112) (v 0) (v 0) 0, .bcw hd .sixteen (v 2) (v 0) 0, .radd hd .i64 .dflt (v 1) (v 0) 0,
     .rmin hd .i64 .dflt (v 1) (v 0) 0, .rmax hd .i32 .dflt (v 0) (v 1) 0, .ror hd true .dflt (v 1) (v 0) 0,
     .rwo hd 0 .dflt (v 1) (v 0) 0, .rarv hd .dflt (v 1) (v 0) 0, .rget hd 0 (v 1) .dflt (v 0) (v 0) 0,
     .await hd (v 1) (v 0) 0, .rfence false (v 112), .accrd hd false (v 112) (v 0) 0, .accclr hd .dflt (v 1) 0, .mig hd (v 115),
     .coll hd 0 false (v 115) .dflt (v 0) (v 0) 0, .eret hd (v 1), .halt hd (v 0) (v 1), .movswLstat hd (v 115),
     .movswChkey hd (v 115), .movswChmode hd (v 115), .movswChconf hd (v 115), .movsw hd .ptroot (v 1),
     .tlbinvPage hd (v 1)] = true := by decide
/-- A 128-bit copy operand is a multiple of 4, and the greatest legal operands pass. -/
theorem test_wellformed_boundaries :
    ([.add hd .i32 true (v 127) (v 114) (vb 127), .add hd .n64 false (v 126) (v 110) (vb 110), .ld hd .b64 false (v 110) (v 126) 0,
      .lds hd .b128 false (v 108) (v 110) 0, .bsread hd true (v 111) 32, .barSync false 256, .grow false 496, .shrink false 8,
      .rxwin false 112 (v 110) 104, .talloc hd true false 7 (v 0), .talloc hd false false 15 (v 0), .trail (v 127) (v 127) (v 111),
      .movi hd .n64 (v 110) (.long 0), .fma2 hd .bf16x2 .rne (v 110) (v 114) (v 114)] : List Instr).all
      (fun i => i.check == none) = true := by decide

/-! ## Decoding: words written out from the spec's encodings -/

/-- The words read as instruction i, and nothing is left. -/
def reads (ws : List Nat) (i : Instr) : Bool := decide (decodeWords (ws.map (BitVec.ofNat 32)) = .ok (i, []))

/-- Control: WAIT (R106), TRAIL (R45), BRA (R110), REGANG (R177), YIELD (R178), BRX. -/
theorem test_decode_control :
    (reads [0x02E003FF] (.wait false 0 15 7 7) && reads [0x01E23FFF] (.trail (v 8) (v 127) (v 127)) &&
     reads [0x83200002] (.bra 1 (.short 2)) && reads [0x88E00000] .regang && reads [0x89E00001] .yield &&
     reads [0x84E02D00] (.brx 7 (v 90))) = true := by decide
/-- Integer words, with IMM and MOD prefixes (R85, R92, R97). -/
theorem test_decode_integer :
    (reads [0x8B0003E8, 0x8CE30600] (.add hc .i32 false (v 12) (v 12) (.imm 1000)) &&
     reads [0x8B3FFFFB, 0x8B80000A, 0x0CE18400] (.add hd .i64 true (v 6) (v 8) (.imm 0x3FFFFB)) &&
     reads [0x8B805410, 0x23F70001] (.perm hd 0x5410 (v 92) (v 0) (vb 1)) &&
     reads [0x29E30183] (.plog hd 1 4 3 3)) = true := by decide
/-- Plain and ordered memory words (R103, R243, R251, R255). -/
theorem test_decode_memory :
    (reads [0x8B400040, 0xABE20140] (.ld hc .b32 false (v 8) (v 2) 64) &&
     reads [0x55E1014A] (.stOrdered hd .b32 true .d (v 4) (v 2) 0) && reads [0x542C9462] (.ldOrdered (hg 1) .b64 false false .d (v 50) (v 40) 0) &&
     reads [0x8B800001, 0x5C22010A] (.atom (hg 1) .add .n32 .rlx .d true (v 8) (v 2) 0) &&
     reads [0x5EE0000E] (.fence hd .acqrel .d false) && reads [0x5EE00020] (.fence hd .none .g true)) = true := by decide
/-- Float words (R120, R131, R135). -/
theorem test_decode_float :
    (reads [0x2EE2450B] (.fmul hd .f32 .rne (v 9) (v 10) (vb 11)) &&
     reads [0x8B805030, 0xBAE28103] (.dot4 hc .fmt0 false false (some ⟨v 40, 0, 1⟩) (v 10) (v 2) (v 3))) = true := by decide
/-- Lane and group words (R164, R165, R167, R170, R173, R179). -/
theorem test_decode_lanes :
    (reads [0x4AFE0010] (.bfly hd false .k16 (v 120) (v 0)) && reads [0x8B800002, 0x4BE14280] (.vote hd .all (v 5) 5) &&
     reads [0x8B800060, 0x4DE20303] (.redx hd .fadd .i32 .w4 (v 8) (v 6)) && reads [0x4FE00100] (.barSync false 256) &&
     reads [0x4FE00203] (.barArrive false 3) && reads [0x4FE00403] (.barWait false 3) && reads [0x50E00040] (.grow false 64) &&
     reads [0x50E04040] (.shrink false 64) && reads [0x53E00000] (.take false) && reads [0x53E00001] (.pass false)) = true := by
  decide
/-- Engine and near-memory words (R287, R290, R294, R297, R304, R310, R311). -/
theorem test_decode_engine :
    (reads [0x6FE00001] (.seal hd true) && reads [0x6FE04000] (.bwait hd 0) && reads [0x6EE00800] (.lrec hd 0 (v 16) 0) &&
     reads [0x6EE04900] (.lrec hd 1 (v 18) 0) && reads [0x73E50C20] (.bcw hd .eight (v 20) (v 24) 0) &&
     reads [0x71E02540] (.bookq hd false (v 74) (v 64))) = true := by decide
/-- Remote words (R420, R425, R428, R429, R432, R434). -/
theorem test_decode_remote :
    (reads [0x74E10110] (.radd hd .f32 .dflt (v 4) (v 2) 0) && reads [0x77E20300] (.rarv hd .dflt (v 8) (v 6) 0) &&
     reads [0x79E68400] (.await hd (v 26) (v 8) 0) && reads [0x79E78040] (.rfence false (v 30)) &&
     reads [0x8B804204, 0x7B6C135F] (.coll (hg 3) 15 true (v 33) .vc4 (v 48) (v 38) 0) && reads [0x7BE14000] (.mig hd (v 5)) &&
     reads [0x8B800004, 0x776F8C00] (.rarv (hg 3) .vc4 (v 62) (v 24) 0)) = true := by decide
/-- System words (R354 to R357). -/
theorem test_decode_system :
    (reads [0x7DE00500] (.eret hd (v 10)) && reads [0x7DE0CA01] (.halt hd (v 3) (v 20)) &&
     reads [0x7EE19200] (.movsw hd .ptroot (v 6)) && reads [0x7EE21000] (.movswChkey hd (v 8)) &&
     reads [0x7EE29080] (.movswChmode hd (v 10)) && reads [0x7EE2D100] (.movswChconf hd (v 11)) &&
     reads [0x7CE00007] (.svc hd 7)) = true := by decide
/-- A reserved major, a missing word and a must-be-zero bit are refused by name. -/
theorem test_decode_refuses :
    decodeWords [0x8B3FFFFB] = .error .short ∧ decodeWords [0x54E00008] = .error .qualifier ∧
    decodeWords [] = .error .short := by decide

/-! ## States and operands that meet the hypotheses of the statements

One launch of one gang, in slot 0 of core 0, whose run holds lanes 0 and 1; its die maps four regions of 256 MiB: the first
is its own, the second is homed on die 1, the third is its own through the bank-linear window, the fourth is homed on die 1
and lets lanes leave. -/

/-- A leaf entry, readable, writable and executable, of the 256 MiB at a base in units of 64 KiB (R360). -/
def leafEntry (home base : Nat) (win policy : Nat) : Nat := 31 + 2 ^ 8 * policy + 2 ^ 12 * win + 2 ^ 65 * home + 2 ^ 80 * base
def cached : List TlbEntry :=
  [{ va := 0, level := 1, entry := 1 }, { va := 0, level := 2, entry := leafEntry 0 0 0 0 },
   { va := 1, level := 2, entry := leafEntry 1 0 0 0 }, { va := 2, level := 2, entry := leafEntry 0 4096 1 0 },
   { va := 3, level := 2, entry := leafEntry 1 0 0 1 }]
/-- Register contents: lane 0's and lane 1's. -/
def contents : List (Nat × Nat × Nat) :=
  [(0, 0, 512), (2, 0x10000000, 0x10000200), (4, 0x20000000, 0x22000000), (6, 0x30000000, 0x30000200), (8, 0, 16),
   (38, 0, 1), (10, 0x1000, 0), (11, 0, 0xFFF), (12, 64, 64), (14, 4, 8), (15, 4, 5), (16, 0x7F800000, 0x7FC00000),
   (17, 0xFF800000, 0xFF800000), (18, 0xBF800000, 0x80000000), (20, 0x3F000000, 0x3F800000), (21, 0x3F800000, 0x40000000),
   (22, 0, 0), (23, 0, 0x800000), (24, 64, 4096), (26, 0xC4A70005, 0), (27, 0x3B5C0005, 0), (28, 0x00070501, 0),
   (30, 0x30, 0x30), (31, 1020, 2047), (32, 8, 520), (34, 0, 4096), (36, 240, 256), (37, 255, 256)]
def lanes : Lanes :=
  { Lanes.empty with regs := contents.foldl (fun t r => tabPut (tabPut t r.1 (BitVec.ofNat 32 r.2.1)) (512 + r.1)
      (BitVec.ofNat 32 r.2.2)) [] }
def theGang : Gang := { probeGang 1 2 with lanes := lanes }
def theRun : Run :=
  { id := 4, gang := 3, cohort := 0, base := 0, words := List.replicate 24 0, pos := 1, xb := 0, act := 3,
    entry := lanes, group := lanes, seeded := 0 }
def theTask : Task :=
  { probeTask 0 with tcb := { (probeTask 0).tcb with scratch := 4096, priv := 64, maxregs := 120 } }
def base : State :=
  { State.reset with
    dies := [(0, { Die.reset with ptroot := 1, tlb := cached })]
    pkgs := [(0, { Pkg.reset with ready := true })]
    tasks := [(1, theTask)]
    blocks := [(2, { Block.blank with task := 1, status := .resident, gangs := [3] })]
    gangs := [(3, theGang)]
    runs := [(0, theRun)]
    nextId := 5
    focus := some 0 }
/-- The context of a state in which gang 3 issues in slot 0. -/
def ctxOf (s : State) : Ctx := { slot := 0, run := (tabGet s.runs theRun 0), gid := 3, gang := s.gang 3 }
/-- The gang of a state, changed. -/
def withGang (f : Gang → Gang) : State := { base with gangs := [(3, f theGang)] }
def withRun (f : Run → Run) : State := { base with runs := [(0, f theRun)] }
def withTask (f : Task → Task) : State := { base with tasks := [(1, f theTask)] }

/-- The word is well formed, gang 3 issues, and no check stops it. -/
def issues (s : State) (i : Instr) : Bool :=
  i.isEvent == false && i.check == none && s.issuer == some (ctxOf s) && (ctxOf s).wordTrap s i ((ctxOf s).perf (guardOf i)) == none
theorem issues_spec {s : State} {i : Instr} (h : issues s i = true) : Issues i s (ctxOf s) := by
  simp only [issues, Bool.and_eq_true, beq_iff_eq] at h
  exact ⟨⟨h.1.1.1, h.1.1.2⟩, h.1.2, h.2⟩
theorem allIssue {s : State} {l : List Instr} (h : l.all (issues s) = true) : ∀ i ∈ l, Issues i s (ctxOf s) :=
  fun i hi => issues_spec (List.all_eq_true.mp h i hi)
/-- What holds of each performing lane, checked lane by lane. -/
theorem onLanes {m : LaneSet} {P : Nat → Prop} (h : ∀ l ∈ lanesIn m, P l) : ∀ l, hasLane m l = true → P l :=
  fun l hl => h l ((mem_lanesIn m l).mpr hl)

/-! ### Words -/

theorem witness_ArithmeticAndLogic : ∀ i ∈ [Instr.add hd .i64 true (v 110) (v 126) (vb 0), .sub hd .n8 true (v 127) (v 0) (.imm 0),
    .min hd .i32 (v 0) (v 0) (vb 0), .max hd .n64 (v 0) (v 0) (vb 0), .and hd .i32 (v 0) (v 0) (vb 0), .or hd .n64 (v 0) (v 0) (vb 0),
    .xor hd .i64 (v 0) (v 0) (vb 0), .andn hd .i32 (v 0) (v 0) (vb 0), .orn hd .i32 (v 0) (v 0) (vb 0)],
    Issues i base (ctxOf base) := allIssue (by decide)
theorem witness_CarryMultiplyDivide : ∀ i ∈ [Instr.addc hd .n64 0 (v 110) (v 0) (vb 0), .subb hd .i32 6 (v 0) (v 0) (vb 0),
    .mul hd .i64 (v 0) (v 0) (vb 0), .mulh hd .i64 (v 0) (v 0) (vb 0), .mad hd .n8 (v 0) (v 0) (vb 0), .div hd .i64 (v 0) (v 0) (vb 50),
    .rem hd .i32 (v 0) (v 0) (vb 50)], Issues i base (ctxOf base) := allIssue (by decide)
theorem witness_ShiftsAndFields : ∀ i ∈ [Instr.shl hd .i64 (v 110) (v 0) (.imm 0x3FFFFF), .shr hd .i64 (v 0) (v 0) (vb 0),
    .sar hd .i32 (v 0) (v 0) (vb 0), .rot hd .n32 (v 0) (v 0) (vb 0), .bfx hd .i64 (v 0) (v 0) (vb 0), .bfi hd .n64 (v 0) (v 0) (vb 0),
    .mov hd .i64 (v 110) (v 126), .neg hd .i8 true (v 0) (v 0), .abs hd .i32 true (v 0) (v 0), .popc hd .i64 (v 0) (v 0),
    .clz hd .i32 (v 0) (v 0), .ctz hd .n64 (v 0) (v 0), .brev hd .i32 (v 0) (v 0)], Issues i base (ctxOf base) := allIssue (by decide)
theorem witness_PermSelectConstants : ∀ i ∈ [Instr.perm hd 0xFFFF (v 111) (v 0) (vb 0), .sel hd .i64 7 (v 0) (v 0) (vb 0),
    .movi hd .n64 (v 110) (.long 0), .movh hd (v 110) (.short 0), .lea hd 7 true (v 0) (v 0) (vb 0)],
    Issues i base (ctxOf base) := allIssue (by decide)
theorem witness_PredicateWords : ∀ i ∈ [Instr.cmp hd .ge .i64 7 (v 0) (vb 0), .plog hd 15 7 0 7, .pmovToReg hd (v 111),
    .pmovToPreds hd 0x7F (v 0)], Issues i base (ctxOf base) := allIssue (by decide)
theorem witness_SpecialRegisterReads : ∀ i ∈ [SpecialReg.lane, .slice, .gang, .block, .blkdim, .grid, .core, .die, .pkg, .groups, .allot,
    .tcbp, .cycles, .lstat, .chstat, .ptroot, .defsuper, .deffault].map (Instr.movs hd (v 110)), Issues i base (ctxOf base) :=
  allIssue (by decide)
theorem witness_FloatArithmetic : ∀ i ∈ [Instr.fadd hd .f64 .ru (v 110) (v 0) (vb 0), .fsub hd .bf16x2 .rd (v 0) (v 0) (vb 0),
    .fmul hd .f32 .rne (v 0) (v 0) (vb 0), .fma hd .f16 .rz (v 0) (v 0) (vb 0), .fdiv hd .f64 .rne (v 0) (v 0) (vb 50),
    .fsqrt hd .f32 .rne (v 0) (v 18), .frcp hd .f32 .rne (v 0) (v 50), .fma2 hd .f16x2 .rne (v 110) (v 0) (v 0)],
    Issues i base (ctxOf base) := allIssue (by decide)
theorem witness_FloatCompare : ∀ i ∈ [Instr.fmin hd .f16x2 (v 0) (v 0) (vb 0), .fmax hd .f64 (v 110) (v 0) (vb 0),
    .fcmp hd .ord .f64 7 (v 0) (vb 0), .fclass hd .f64 (v 0) (v 0)], Issues i base (ctxOf base) := allIssue (by decide)
theorem witness_SpecialFunctions :
    (∀ i ∈ [Instr.frsq hd .f64 (v 110) (v 0), .fexp2 hd .f32 (v 0) (v 16), .flog2 hd .f32 (v 0) (v 21), .fsin hd .f16 (v 0) (v 0),
      .fcos hd .f32 (v 0) (v 20), .ftanh hd .f32 (v 0) (v 17)], Issues i base (ctxOf base)) ∧
    floatA (ctxOf base) 0 .f32 (v 16) 0 = .inf false ∧ floatA (ctxOf base) 0 .f32 (v 17) 0 = .inf true ∧
    (floatA (ctxOf base) 1 .f32 (v 16) 0).isNan = true ∧ (floatA (ctxOf base) 0 .f32 (v 18) 0).neg = true ∧
    (floatA (ctxOf base) 1 .f32 (v 18) 0).isZero = true ∧ numberOf (floatA (ctxOf base) 0 .f32 (v 21) 0) = 1 ∧
    numberOf (floatA (ctxOf base) 0 .f32 (v 20) 0) = (0 : Int) + 1 / 2 := by
  refine ⟨allIssue (by decide), by decide, by decide, by decide, by decide, by decide, ?_, ?_⟩
  · have h : floatA (ctxOf base) 0 .f32 (v 21) 0 = .fin false (2 ^ 23) (-23) := by decide
    rw [h]; norm_num [numberOf]
  · have h : floatA (ctxOf base) 0 .f32 (v 20) 0 = .fin false (2 ^ 23) (-24) := by decide
    rw [h]; norm_num [numberOf]
theorem witness_Conversions : ∀ i ∈ [Instr.cvt hd .f64 .f32 .rne false false (v 110) (v 0), .cvt hd .f32 .f32 .ru false true (v 0) (v 0),
    .unpack hd .e3m2 true 7 (v 0) (v 0), .pack hd .e2m1 false .rz false 3 (v 0) (v 0) (vb 0)], Issues i base (ctxOf base) :=
  allIssue (by decide)
theorem witness_ScaleWord : ∀ i ∈ [Instr.scale hd .bf16x2 .rne .m16 (v 111) true 3 (v 0) (v 0),
    .scale hd .f64 .rne .byFt (v 0) false 0 (v 110) (v 0)], Issues i base (ctxOf base) := allIssue (by decide)
theorem witness_DotProducts : ∀ i ∈ [Instr.dot4 hd .fmt0 true false (some ⟨v 40, 3, 0⟩) (v 0) (v 0) (v 0),
    .dot6 hd .fmt1 true true none (v 0) (v 0) (v 2), .dot8 hd .fmt2 false false none (v 0) (v 0) (v 1)],
    Issues i base (ctxOf base) := allIssue (by decide)
theorem witness_DrawingWords : ∀ i ∈ [Instr.cvtsr hd .bf16 .f32 (v 0) (v 0), .pack hd .e4m3 true .rne false 1 (v 0) (v 0) (vb 0),
    .rnd hd .n64 (v 110), .rnd hd .f32 (v 0), .rndseed hd (v 0)], Issues i base (ctxOf base) := allIssue (by decide)
theorem witness_CrossLaneExchange : ∀ i ∈ [Instr.shfl hd .xor .w2 true (v 110) (v 0) (vb 0), .push hd true (v 0) (v 0) (vb 0),
    .bfly hd true .k16 (v 0) (v 0), .vote hd .ballot (v 111) 7, .vote hd .eq (v 7) 0, .matchLanes hd true (v 0) (v 0)],
    Issues i base (ctxOf base) := allIssue (by decide)
theorem witness_ReductionsAndScans : ∀ i ∈ [Instr.redx hd .fadd .i32 .w4 (v 0) (v 0), .redx hd .max .i64 .w32 (v 110) (v 0),
    .scanx hd .xor .n64 true .w2 (v 0) (v 0)], Issues i base (ctxOf base) := allIssue (by decide)

/-! ### Traps and control flow -/

theorem witness_TakingATrap : base.issuer = some (ctxOf base) ∧ (ctxOf base).gang.guests = [] := by decide
/-- An unprivileged launch, and an allotment of 8 registers. -/
def user : State := withTask fun t => { t with privileged := false }
def small : State := withGang fun g => { g with allot := 8 }
theorem witness_BoundsAndPrivilege :
    user.issuer = some (ctxOf user) ∧ (ctxOf user).gang.guests = [] ∧ (Instr.eret hd (v 0)).check = none ∧
    IsLowest (performing (.eret hd (v 0)) (ctxOf user)) 0 ∧ (user.task (ctxOf user).gang.task).privileged = false ∧
    small.issuer = some (ctxOf small) ∧ (Instr.add hd .i32 false (v 8) (v 0) (vb 0)).check = none ∧
    (ctxOf small).gang.allot ≤ (ctxOf small).run.xb + (v 8).toNat ∧ (Instr.ld hd .b32 false (v 111) (v 0) 0).check = none ∧
    (Instr.st hd .b32 (v 111) (v 0) 0).check = none ∧
    -- the upper registers of a pair that is read and of one that is written, and a scale register
    9 ∈ (usesOf (.add hd .i64 false (v 0) (v 0) (vb 8))).reads ∧ 9 ∈ (usesOf (.ld hd .b64 false (v 8) (v 0) 0)).writes ∧
    8 ∈ (usesOf (.dot4 hd .fmt0 false false (some ⟨v 8, 0, 0⟩) (v 0) (v 0) (v 0))).reads ∧
    (∀ i ∈ [Instr.add hd .i64 false (v 0) (v 0) (vb 8), .ld hd .b64 false (v 8) (v 0) 0,
        .dot4 hd .fmt0 false false (some ⟨v 8, 0, 0⟩) (v 0) (v 0) (v 0)],
      i.check = none ∧ IsLowest (performing i (ctxOf small)) 0) := by
  unfold IsLowest; decide
theorem witness_ProgramTraps :
    (∀ i ∈ [Instr.trap hd 0x3FFF, .brk hd 0, .svc hd 7, .trap (hg 0) 1, .brk (hg 0) 1, .svc (hg 0) 1], Issues i base (ctxOf base)) ∧
    IsLowest (performing (.svc hd 7) (ctxOf base)) 0 ∧ performing (.svc (hg 0) 1) (ctxOf base) = 0 := by
  refine ⟨allIssue (by decide), ?_⟩; unfold IsLowest; decide
/-- A full divergence stack in slice 0. -/
def deep : State := withGang fun g => { g with
  frags := [{ slice := 0, act := 3, stack := (List.range 8).map fun n => (n + 20, 0), pc := 0, next := none, cohort := 0 }] }
theorem witness_DivergenceTransfers :
    (∀ i ∈ [Instr.bra 7 (.short 0), .bra 0 (.short 1), .bra 7 (.short (-1)), .join, .exit 7], Issues i base (ctxOf base)) ∧
    (∀ f ∈ (ctxOf base).gang.frags, f.cohort = (ctxOf base).run.cohort → stackFull 1 f.stack = false) ∧
    (∀ f ∈ (ctxOf base).gang.frags, f.cohort = (ctxOf base).run.cohort → f.stack = []) ∧
    IsLowest (performing (.bra 7 (.short (-1))) (ctxOf base)) 0 ∧
    Issues (.bra 0 (.short 1)) deep (ctxOf deep) ∧
    (∃ f ∈ (ctxOf deep).gang.frags, f.cohort = (ctxOf deep).run.cohort ∧ stackFull 1 f.stack = true) := by
  refine ⟨allIssue (by decide), by decide, by decide, by unfold IsLowest; decide, issues_spec (by decide), by decide⟩
theorem witness_ComputedTransfers :
    (∀ i ∈ [Instr.brx 7 (v 14), .ret 7 (v 14), .call (v 111) (.short 0), .brx 7 (v 15), .ret 7 (v 15)], Issues i base (ctxOf base)) ∧
    (∀ l < 32, hasLane (performing (.brx 7 (v 14)) (ctxOf base)) l = true → (ctxOf base).rd l 14 0 % 4 = 0) ∧
    (∀ f ∈ (ctxOf base).gang.frags, f.cohort = (ctxOf base).run.cohort → stackFull (ctxOf base).run.base f.stack = false) ∧
    hasLane (performing (.ret 7 (v 15)) (ctxOf base)) 1 = true ∧ (ctxOf base).rd 1 15 0 % 4 ≠ 0 ∧
    (∀ k < 1, hasLane (performing (.ret 7 (v 15)) (ctxOf base)) k = true → (ctxOf base).rd k 15 0 % 4 = 0) := by
  refine ⟨allIssue (by decide), by decide, by decide, by decide, by decide, by decide⟩
/-- BRX and RET where no slice has room, and a CALL to before the code's first packet. -/
theorem witness_TransfersTrapped :
    (∀ i ∈ [Instr.brx 7 (v 14), .ret 7 (v 14)], Issues i deep (ctxOf deep)) ∧
    (∀ f ∈ (ctxOf deep).gang.frags, stackFull (ctxOf deep).run.base f.stack = true ∧ lowestLane f.act = some 0 ∧
      (ctxOf deep).rd 0 14 0 / 4 ≠ (ctxOf deep).rd 1 14 0 / 4 ∧ hasLane f.act 1 = true) ∧
    Issues (.call (v 111) (.short (-1))) base (ctxOf base) ∧ IsLowest (performing (.call (v 111) (.short (-1))) (ctxOf base)) 0 ∧
    (ctxOf base).run.base + ((ctxOf base).run.pos - 1) / 3 = 0 := by
  refine ⟨allIssue (by decide), by decide, issues_spec (by decide), by unfold IsLowest; decide, by decide⟩
theorem witness_WordsWithoutEffect :
    (∀ i ∈ [Instr.nop hd, .wait true 0 15 7 7, .take false, .pref hd true (v 0) 0, .barWait false 256, .barWait true 255],
      Issues i base (ctxOf base)) ∧
    (0 ∉ tabGet (base.task (ctxOf base).gang.task).groups [] 255) := ⟨allIssue (by decide), by decide⟩
theorem witness_GangWords :
    (∀ i ∈ [Instr.setxb hd (v 24), .setxb (hg 0) (v 0), .bsload hd (v 0), .bsload hd (v 22), .movswLstat hd (v 0), .regang, .yield],
      Issues i base (ctxOf base)) ∧
    performing (.setxb (hg 0) (v 0)) (ctxOf base) = 0 ∧
    (∀ l < 32, hasLane (performing (.bsload hd (v 0)) (ctxOf base)) l = true → (ctxOf base).rdPair l 0 < 2 ^ 55) ∧
    hasLane (performing (.bsload hd (v 22)) (ctxOf base)) 1 = true ∧ 2 ^ 55 ≤ (ctxOf base).rdPair 1 22 ∧
    (∀ k < 1, hasLane (performing (.bsload hd (v 22)) (ctxOf base)) k = true → (ctxOf base).rdPair k 22 < 2 ^ 55) ∧
    (∀ k < 32, hasLane (performing (.setxb hd (v 24)) (ctxOf base)) k = true → k / 4 < 0 ∨ (k / 4 = 0 ∧ 0 ≤ k)) := by
  refine ⟨allIssue (by decide), by decide, by decide, by decide, by decide, by decide, by decide⟩
theorem witness_BarrierArrivals :
    (∀ i ∈ [Instr.barArrive false 256, .barSync true 256, .barArrive false 3], Issues i base (ctxOf base)) ∧
    (ctxOf base).gang.away = [] ∧ (∀ f ∈ (ctxOf base).gang.frags, f.cohort = (ctxOf base).run.cohort) ∧
    tabGet (ctxOf base).gang.arrivals 0 256 ≠ tabGet (base.task (ctxOf base).gang.task).gens 0 256 + 1 ∧
    0 ∉ tabGet (base.task (ctxOf base).gang.task).groups [] 3 := by
  refine ⟨allIssue (by decide), by decide, by decide, by decide, by decide⟩
/-- A deterministic launch whose gang holds the tempo; a gang with an open window. -/
def tempo : State := withTask fun t => { t with tempo := some 0, tcb := { t.tcb with flags := 9 } }
def roomy : State := withGang fun g => { g with allot := 120 }
def windowed : State := withGang fun g => { g with allot := 120, window := some { base := 108, n := 8, handle := 1 } }
theorem witness_TempoAllotmentWindow :
    Issues (.pass false) tempo (ctxOf tempo) ∧ (tempo.task 1).tcb.det = true ∧ (tempo.task 1).tcb.tempoFlag = true ∧
    (tempo.task 1).tempo = some 0 ∧ Issues (.pass false) base (ctxOf base) ∧ (base.task 1).tempo ≠ some 0 ∧
    (∀ i ∈ [Instr.grow false 8, .grow false 496, .shrink true 8, .rxwin false 0 (v 110) 0, .rxwin false 8 (v 0) 104],
      Issues i base (ctxOf base)) ∧
    (ctxOf base).gang.allot + 8 ≤ (base.task 1).tcb.maxregs ∧ (base.task 1).tcb.maxregs < (ctxOf base).gang.allot + 496 ∧
    (ctxOf base).gang.allot < 8 + (base.task 1).tcb.regs ∧
    Issues (.shrink true 8) windowed (ctxOf windowed) ∧ 8 + (windowed.task 1).tcb.regs ≤ (ctxOf windowed).gang.allot ∧
    (ctxOf windowed).gang.window = some { base := 108, n := 8, handle := 1 } ∧
    (ctxOf base).run.xb + 104 + 8 ≤ (ctxOf base).gang.allot ∧ Issues (.rxwin false 112 (v 0) 104) base (ctxOf base) ∧
    (ctxOf base).gang.allot < (ctxOf base).run.xb + 104 + 112 ∧
    Issues (.shrink true 8) roomy (ctxOf roomy) ∧ (ctxOf roomy).gang.allot = 8 + (roomy.task 1).tcb.regs ∧
    (ctxOf roomy).gang.window = none := by
  refine ⟨issues_spec (by decide), by decide, by decide, by decide, issues_spec (by decide), by decide, allIssue (by decide), by decide,
    by decide, by decide, issues_spec (by decide), by decide, by decide, by decide, issues_spec (by decide), by decide,
    issues_spec (by decide), by decide, by decide⟩
/-- Only the cohort of the run is in the gang, and a REGANG has gone before. -/
def regathering : State := withGang fun g => { g with cohorts := g.cohorts.map fun q => { q with regang := true } }
/-- A run ends where slices stand apart, and where they gather. -/
theorem witness_RunEnds :
    Issues (.trail (v 111) (v 127) (v 127)) base (ctxOf base) ∧ (ctxOf base).gang.guests = [] ∧
    (∃ f ∈ (ctxOf base).gang.frags, f.cohort ≠ (ctxOf base).run.cohort ∨ ¬(f.act = 0 ∧ ∀ e ∈ f.stack, e.2 = 0)) ∧
    (∃ q ∈ (ctxOf base).gang.cohorts, q.id = (ctxOf base).run.cohort ∧ q.gathered = false ∧ q.regang = false) ∧
    (∀ f ∈ (ctxOf base).gang.frags, f.cohort < (ctxOf base).gang.nextCohort) ∧ (ctxOf base).run.cohort < (ctxOf base).gang.nextCohort ∧
    Issues (.trail (v 111) (v 127) (v 127)) regathering (ctxOf regathering) ∧ (ctxOf regathering).gang.away = [] ∧
    (ctxOf regathering).gang.cohorts ≠ [] ∧
    (∃ f ∈ (ctxOf regathering).gang.frags, f.cohort = (ctxOf regathering).run.cohort ∧ ¬(f.act = 0 ∧ ∀ e ∈ f.stack, e.2 = 0)) ∧
    (∀ q ∈ (ctxOf regathering).gang.cohorts, q.gathered = true ∨ (q.id = (ctxOf regathering).run.cohort ∧ q.regang = true)) :=
  ⟨issues_spec (by decide), by decide, by decide, by decide, by decide, by decide, issues_spec (by decide), by decide, by decide, by decide,
    by decide⟩

/-! ### Memory words -/

/-- The leaf of an address of the die. -/
def leafAt (va : Nat) : Leaf := match base.walk 0 va with
  | .ok l => l
  | .error _ => leafOf 0 1 0
/-- The address of lane l in the pair at a field. -/
def at_ (f l : Nat) : Nat := (ctxOf base).rdPair l f
theorem witness_FlatLoadsAndStores :
    (∀ i ∈ [Instr.ld hd .b64 false (v 110) (v 0) 0, .ldOrdered hd .b64 false true .s (v 0) (v 0) 0, .st hd .b64 (v 0) (v 0) 0,
      .stOrdered hd .b32 true .d (v 0) (v 0) 0],
      Issues i base (ctxOf base)) ∧
    Reaches (.ld hd .b64 false (v 110) (v 0) 0) base (ctxOf base) 8 8 (needOf base (ctxOf base) true false) (at_ 0) (leafAt ∘ at_ 0) ∧
    Reaches (.st hd .b64 (v 0) (v 0) 0) base (ctxOf base) 8 8 (needOf base (ctxOf base) false true) (at_ 0) (leafAt ∘ at_ 0) ∧
    TempoFree (.st hd .b64 (v 0) (v 0) 0) base (ctxOf base) 8 (at_ 0) (leafAt ∘ at_ 0) :=
  ⟨allIssue (by decide), onLanes (by decide), onLanes (by decide), onLanes (by decide)⟩
/-- Lane 0 stays on its die by a page homed on die 1 that lets no lane leave; two lanes name one address. -/
theorem witness_AccessChecks :
    (∀ i ∈ [Instr.ld hd .b32 false (v 20) (v 2) 0, .ldOrdered hd .b32 false true .d (v 20) (v 2) 0,
      .atom hd .add .i32 .rlx .d false (v 20) (v 12) 0], Issues i base (ctxOf base)) ∧
    (∀ l leaf, hasLane (performing (.ld hd .b32 false (v 20) (v 2) 0) (ctxOf base)) l = true →
      base.coreTranslate 0 (at_ 2 l) 4 (needOf base (ctxOf base) true false) = .ok leaf →
      leaf.die = dieOf (ctxOf base).gang.core ∨ ¬(leaf.policy = 1 ∨ (leaf.policy = 2 ∧ (base.task 1).tcb.mig = true))) ∧
    checkOf base (ctxOf base) 4 (needOf base (ctxOf base) true false) (at_ 2 0) = some (5, trapRemote) ∧
    (∀ m < 32, hasLane (performing (.atom hd .add .i32 .rlx .d false (v 20) (v 12) 0) (ctxOf base)) m = true →
      tabGet (ctxOf base).gang.seqs 0 m < 2 ^ 32 ∧ at_ 12 m % 4 = 0) ∧ at_ 12 1 = at_ 12 0 := by
  refine ⟨allIssue (by decide), fun l leaf hl h => ?_, by decide, by decide, by decide⟩
  have h' : ∀ l ∈ lanesIn (performing (.ld hd .b32 false (v 20) (v 2) 0) (ctxOf base)),
      (base.coreTranslate 0 (at_ 2 l) 4 (needOf base (ctxOf base) true false)).toOption.map (·.policy) = some 0 := by decide
  have := h' l ((mem_lanesIn _ _).mpr hl)
  rw [h] at this
  right
  have h0 : leaf.policy = 0 := by simpa [Except.toOption] using this
  omega
theorem witness_ScratchpadAndPrivate :
    (∀ i ∈ [Instr.lds hd .b128 false (v 108) (v 8) 0, .ldp hd .b8 true (v 20) (v 8) 0, .sts hd .b64 (v 20) (v 8) 0,
      .stp hd .b32 (v 20) (v 8) 0, .stfe hd (v 20) (v 8) 0, .ldfe hd .b32 false true (v 20) (v 8) 0, .lds hd .b32 false (v 20) (v 38) 0,
      .stp hd .b16 (v 20) (v 38) 0, .sts hd .b32 (v 20) (v 34) 0, .ldp hd .b64 false (v 20) (v 34) 0], Issues i base (ctxOf base)) ∧
    (∀ l, hasLane (performing (.lds hd .b128 false (v 108) (v 8) 0) (ctxOf base)) l = true →
      (ctxOf base).addr l (v 8) 0 % 16 = 0 ∧ (ctxOf base).addr l (v 8) 0 + 16 ≤ (base.task 1).tcb.scratch) ∧
    (∀ l, hasLane (performing (.stp hd .b32 (v 20) (v 8) 0) (ctxOf base)) l = true →
      (ctxOf base).addr l (v 8) 0 % 4 = 0 ∧ (ctxOf base).addr l (v 8) 0 + 4 ≤ (base.task 1).tcb.priv) ∧
    (ctxOf base).addr 0 (v 38) 0 % 4 = 0 ∧ (ctxOf base).addr 1 (v 38) 0 % 4 ≠ 0 ∧
    (ctxOf base).addr 0 (v 34) 0 + 4 ≤ (base.task 1).tcb.scratch ∧ (base.task 1).tcb.scratch < (ctxOf base).addr 1 (v 34) 0 + 4 := by
  refine ⟨allIssue (by decide), onLanes (by decide), onLanes (by decide), by decide, by decide, by decide, by decide⟩
/-- A deterministic launch. -/
def exact_ : State := withTask fun t => { t with tcb := { t.tcb with flags := 1 } }
theorem witness_AtomicWords :
    (∀ i ∈ [Instr.atom hd .cas .i64 .acqrel .s false (v 108) (v 0) 0, .red hd .add .n32 true .d (v 20) (v 0) 0,
      .launch hd (v 111) (v 0) (vb 0)], Issues i base (ctxOf base)) ∧
    Reaches (.atom hd .cas .i64 .acqrel .s false (v 108) (v 0) 0) base (ctxOf base) 8 8 (needOf base (ctxOf base) true true) (at_ 0)
      (leafAt ∘ at_ 0) ∧
    TempoFree (.atom hd .cas .i64 .acqrel .s false (v 108) (v 0) 0) base (ctxOf base) 8 (at_ 0) (leafAt ∘ at_ 0) ∧
    Apart (.launch hd (v 111) (v 0) (vb 0)) (ctxOf base) (at_ 0) ∧
    Reaches (.launch hd (v 111) (v 0) (vb 0)) base (ctxOf base) 512 16 (needOf base (ctxOf base) true true) (at_ 0) (leafAt ∘ at_ 0) ∧
    (base.task 1).tcb.det = false ∧
    Issues (.atom hd .fadd .f32 .rlx .d true (v 20) (v 0) 0) exact_ (ctxOf exact_) ∧
    Reaches (.atom hd .fadd .f32 .rlx .d true (v 20) (v 0) 0) exact_ (ctxOf exact_) 4 4 (needOf exact_ (ctxOf exact_) true true) (at_ 0)
      (leafAt ∘ at_ 0) ∧
    (exact_.task 1).tcb.det = true ∧ AtomTy.f32.integer = false ∧
    (∀ l < 32, tabGet (ctxOf exact_).gang.seqs 0 l < 2 ^ 32) := by
  refine ⟨allIssue (by decide), onLanes (by decide), onLanes (by decide), ?_, onLanes (by decide), by decide, issues_spec (by decide),
    onLanes (by decide), by decide, by decide, by decide⟩
  have h : ∀ l ∈ lanesIn (performing (.launch hd (v 111) (v 0) (vb 0)) (ctxOf base)),
      ∀ m ∈ lanesIn (performing (.launch hd (v 111) (v 0) (vb 0)) (ctxOf base)), at_ 0 l = at_ 0 m → l = m := by decide
  exact fun l m hl hm => h l ((mem_lanesIn _ _).mpr hl) m ((mem_lanesIn _ _).mpr hm)
theorem witness_FencesFlushesBitReads :
    (∀ i ∈ [Instr.fence hd .acqrel .s false, .fence hd .none .g true, .cflush hd true (v 0) 0, .cinv hd false (v 0) 0,
      .bsread hd true (v 111) 32, .bsread hd false (v 0) 1], Issues i base (ctxOf base)) ∧
    (∀ l, hasLane (performing (.cflush hd true (v 0) 0) (ctxOf base)) l = true →
      base.coreTranslate 0 (at_ 0 l) 1 (needOf base (ctxOf base) true false) = .ok (leafAt (at_ 0 l))) ∧
    (∀ l, hasLane (performing (.bsread hd true (v 111) 32) (ctxOf base)) l = true →
      ∀ va ∈ (List.range 4).map (0 + ·), base.coreTranslate 0 va 1 (needOf base (ctxOf base) true false) = .ok (leafAt va) ∧ (leafAt va).die = 0) := by
  refine ⟨allIssue (by decide), onLanes (by decide), onLanes (by decide)⟩

/-! ### Engine words -/

/-- The block holds accumulator 15 and tile 7, which a dense image fills; a sparse tile 6 is held and not loaded. -/
def handled : State := { base with cores := [(0, { Core.reset with
  accs := [(15, { AccHandle.reset with owner := some 2 })]
  bs := [(6, { BHandle.reset with owner := some 2 }), (7, { BHandle.reset with owner := some 2, valid := true, fmt := .bf16 })] })] }
theorem witness_HandleWords :
    (∀ i ∈ [Instr.talloc (hg 0) false false 0 (v 0), .talloc hd false false 15 (v 0), .talloc hd true false 7 (v 111),
      .talloc hd false false 0 (v 0), .talloc hd true true 0 (v 0), .tfree hd true 7, .tfree hd false 15, .tfree (hg 0) false 15],
      Issues i handled (ctxOf handled)) ∧
    performing (.talloc (hg 0) false false 0 (v 0)) (ctxOf handled) = 0 ∧
    performing (.talloc hd false false 15 (v 0)) (ctxOf handled) ≠ 0 ∧
    (tabGet (handled.core 0).accs AccHandle.reset 15).owner = some (ctxOf handled).gang.block ∧
    (tabGet (handled.core 0).accs AccHandle.reset 0).owner = none ∧ (tabGet (handled.core 0).accs AccHandle.reset 0).freeing = false := by
  refine ⟨allIssue (by decide), by decide, by decide, by decide, by decide, by decide⟩
/-- Another block holds every handle. -/
def taken_ : State := { base with cores := [(0, { Core.reset with
  accs := (List.range 16).map fun n => (n, { AccHandle.reset with owner := some 9 }) })] }
theorem witness_HandlesTaken :
    (∀ i ∈ [Instr.talloc hd false false 0 (v 0), .talloc hd false true 0 (v 0), .tfree hd false 15, .tzero hd 15], Issues i taken_ (ctxOf taken_)) ∧
    (∀ x < 16, (tabGet (taken_.core 0).accs AccHandle.reset x).owner = some 9) :=
  ⟨allIssue (by decide), by decide⟩
theorem pages (w : Bool) (va n : Nat) (h : ∀ p ∈ pieces (pagesFor n) va n,
    base.coreTranslate 0 p.1 p.2 (needOf base (ctxOf base) (!w) w) = .ok (leafAt p.1) ∧ (leafAt p.1).die = 0 ∧
    (w = true → base.tempoViol theGang (leafAt p.1) p.1 p.2 = false)) : PagesHere base (ctxOf base) w va n leafAt := h
theorem witness_TileWords :
    (∀ i ∈ [Instr.tloadb hd .bf16 true true 7 (v 24) 0, .tzero hd 15, .tcfg hd true true 15 (v 0), .tread hd 15 7 (v 36),
      .tread hd 15 0 (v 37), .tstore hd .f32 .s true 15 (v 0) 0, .tzero (hg 0) 15, .tloadb hd .bf16 false false 0 (v 0) 0],
      Issues i handled (ctxOf handled)) ∧
    IsLowest (performing (.tloadb hd .bf16 true true 7 (v 24) 0) (ctxOf handled)) 0 ∧
    (tabGet (handled.core 0).bs BHandle.reset 7).owner = some (ctxOf handled).gang.block ∧
    (ctxOf handled).addr 0 (v 24) 0 % 4096 ≠ 0 ∧ (ctxOf handled).addr 1 (v 24) 0 % 4096 = 0 ∧
    PagesHere base (ctxOf base) false 0 1024 leafAt ∧
    (∀ l < 32, hasLane (performing (.tstore hd .f32 .s true 15 (v 0) 0) (ctxOf handled)) l = true →
      (ctxOf handled).addr l (v 0) 0 % 32 = 0 ∧ PagesHere base (ctxOf base) true ((ctxOf handled).addr l (v 0) 0) 1024 leafAt) ∧
    (ctxOf handled).rd 0 36 0 % 256 + (7 + 1) ≤ 256 ∧ 256 < (ctxOf handled).rd 0 37 0 % 256 + (1 + 1) := by
  have h : ∀ l ∈ lanesIn (performing (.tstore hd .f32 .s true 15 (v 0) 0) (ctxOf handled)),
      (ctxOf handled).addr l (v 0) 0 % 32 = 0 ∧ ∀ p ∈ pieces (pagesFor 1024) ((ctxOf handled).addr l (v 0) 0) 1024,
        base.coreTranslate 0 p.1 p.2 (needOf base (ctxOf base) false true) = .ok (leafAt p.1) ∧ (leafAt p.1).die = 0 ∧
        (true = true → base.tempoViol theGang (leafAt p.1) p.1 p.2 = false) := by decide
  refine ⟨allIssue (by decide), by unfold IsLowest; decide, by decide, by decide, by decide, pages _ _ _ (by decide), fun l _ hl => ?_, by decide,
    by decide⟩
  exact ⟨(h l ((mem_lanesIn _ _).mpr hl)).1, pages true _ _ (h l ((mem_lanesIn _ _).mpr hl)).2⟩
theorem witness_MatrixMultiplyWord :
    (∀ i ∈ [Instr.tmma hd true .bf16 7 15 (v 0) (v 50) (v 52), .tmma hd false .bf16 6 15 (v 0) (v 50) (v 0),
      .tmma hd false .e4m3 7 15 (v 0) (v 50) (v 0), .tmma hd false .bf16 7 0 (v 0) (v 50) (v 0), .tmma (hg 0) false .bf16 7 0 (v 0) (v 50) (v 0)],
      Issues i handled (ctxOf handled)) ∧
    performing (.tmma hd true .bf16 7 15 (v 0) (v 50) (v 52)) (ctxOf handled) ≠ 0 ∧ handled.ops = [] ∧
    (tabGet (handled.core 0).bs BHandle.reset 7).valid = true ∧ TileFmt.bf16.pairs .bf16 = true ∧ TileFmt.e4m3.pairs .bf16 = false ∧
    (tabGet (handled.core 0).bs BHandle.reset 6).valid = false ∧ (tabGet (handled.core 0).bs BHandle.reset 6).reason = 0 ∧
    (∀ l < 32, hasLane (performing (.tmma hd true .bf16 7 15 (v 0) (v 50) (v 52)) (ctxOf handled)) l = true →
      (ctxOf handled).rdAfter l 0 [50, 52] % 2 ^ 19 % 512 = 0 ∧
      (ctxOf handled).rdAfter l 0 [50, 52] % 2 ^ 19 + 512 ≤ (handled.task 1).tcb.scratch) := by
  refine ⟨allIssue (by decide), by decide, by decide, by decide, by decide, by decide, by decide, by decide, by decide⟩
theorem witness_CopyWords :
    (∀ i ∈ [Instr.cpy hd .sixteen .s (v 0) (v 32) 0, .cpyt hd .d true 3 2 1 (v 40) (v 41) (v 42), .lrec hd 3 (v 0) 0, .lrec hd 0 (v 32) 0,
      .seal hd true, .bwait hd 255, .seal (hg 0) true], Issues i base (ctxOf base)) ∧
    performing (.cpy hd .sixteen .s (v 0) (v 32) 0) (ctxOf base) ≠ 0 ∧ performing (.seal (hg 0) true) (ctxOf base) = 0 ∧
    (∀ l < 32, hasLane (performing (.cpy hd .sixteen .s (v 0) (v 32) 0) (ctxOf base)) l = true →
      PagesHere base (ctxOf base) false ((ctxOf base).addr l (v 32) 0) 16 leafAt ∧
      PagesHere base (ctxOf base) true ((ctxOf base).rdPair l 0) 16 leafAt) ∧
    IsLowest (performing (.lrec hd 3 (v 0) 0) (ctxOf base)) 0 ∧ (ctxOf base).addr 0 (v 0) 0 % 64 = 0 ∧
    (ctxOf base).addr 0 (v 32) 0 % 64 ≠ 0 ∧ PagesHere base (ctxOf base) false ((ctxOf base).addr 0 (v 0) 0) 64 leafAt := by
  have h : ∀ l ∈ lanesIn (performing (.cpy hd .sixteen .s (v 0) (v 32) 0) (ctxOf base)),
      (∀ p ∈ pieces (pagesFor 16) ((ctxOf base).addr l (v 32) 0) 16,
        base.coreTranslate 0 p.1 p.2 (needOf base (ctxOf base) true false) = .ok (leafAt p.1) ∧ (leafAt p.1).die = 0 ∧
        (false = true → base.tempoViol theGang (leafAt p.1) p.1 p.2 = false)) ∧
      ∀ p ∈ pieces (pagesFor 16) ((ctxOf base).rdPair l 0) 16,
        base.coreTranslate 0 p.1 p.2 (needOf base (ctxOf base) false true) = .ok (leafAt p.1) ∧ (leafAt p.1).die = 0 ∧
        (true = true → base.tempoViol theGang (leafAt p.1) p.1 p.2 = false) := by decide
  refine ⟨allIssue (by decide), by decide, by decide, fun l _ hl => ?_, by unfold IsLowest; decide, by decide, by decide, pages _ _ _ (by decide)⟩
  exact ⟨pages false _ _ (h l ((mem_lanesIn _ _).mpr hl)).1, pages true _ _ (h l ((mem_lanesIn _ _).mpr hl)).2⟩

/-! ### Near-memory, remote and system words -/

/-- Eight pages through the bank-linear window, each at its own address: every bank of a channel. -/
def banked : State := { base with dies := [(0, { Die.reset with ptroot := 1, tlb := { va := 0, level := 1, entry := 1 } ::
  ((List.range 8).map fun n => { va := n, level := 2, entry := leafEntry 0 (4096 * n) 1 0 }) })] }
def bankLeaf (va : Nat) : Leaf := match banked.walk 0 va with
  | .ok l => l
  | .error _ => leafOf 0 1 0
theorem witness_NearMemoryWords :
    (∀ i ∈ [Instr.bookld hd true (v 4) 0, .bookldUnpin hd (v 4) 0, .bookq hd false (v 4) (v 31), .bookq hd true (v 4) (v 31),
      .bookq hd true (v 0) (v 31), .ired hd 3 0 true (v 0) (v 0) (v 0) 0, .ired hd 0 0 false (v 0) (v 0) (v 2) 0], Issues i base (ctxOf base)) ∧
    (∀ l, hasLane (performing (.bookld hd true (v 4) 0) (ctxOf base)) l = true →
      base.translate 0 (at_ 4 l) (needOf base (ctxOf base) true false) = .ok (leafAt (at_ 4 l)) ∧ (leafAt (at_ 4 l)).die = 0 ∧
      (leafAt (at_ 4 l)).place = 0 ∧ (leafAt (at_ 4 l)).win = true ∧ (leafAt (at_ 4 l)).pa / 2 ^ 11 % 2 ^ 16 ≤ 65514) ∧
    (leafAt (at_ 4 0)).pa / 2 ^ 25 % 4 ≠ (leafAt (at_ 4 1)).pa / 2 ^ 25 % 4 ∧
    IsLowest (performing (.bookq hd true (v 4) (v 31)) (ctxOf base)) 0 ∧
    (∀ m, hasLane (performing (.bookq hd false (v 4) (v 31)) (ctxOf base)) m = true → (ctxOf base).rd m 31 0 < 2048) ∧
    (ctxOf base).rd 0 31 0 < 1024 ∧ 1024 ≤ (ctxOf base).rd 1 31 0 ∧ (leafAt (at_ 0 0)).win = false ∧
    at_ 0 0 % 16 = 0 ∧ base.coreTranslate 0 (at_ 2 0) 16 (needOf base (ctxOf base) true true) = .ok (leafAt (at_ 2 0)) ∧ (leafAt (at_ 2 0)).die ≠ 0 := by
  refine ⟨allIssue (by decide), onLanes (by decide), by decide, by unfold IsLowest; decide, onLanes (by decide), by decide, by decide, by decide,
    by decide, by decide, by decide⟩
theorem witness_BroadcastWrite :
    Issues (.bcw hd .eight (v 20) (v 0) 0) banked (ctxOf banked) ∧
    ∀ l, hasLane (performing (.bcw hd .eight (v 20) (v 0) 0) (ctxOf banked)) l = true → ∀ k < 16, let va := at_ 0 l + k * 2 ^ 27
      va % 8 = 0 ∧ banked.coreTranslate 0 va 8 (needOf banked (ctxOf banked) false true) = .ok (bankLeaf va) ∧ (bankLeaf va).die = 0 ∧
      (bankLeaf va).win = true ∧ (bankLeaf va).pa % 2 ^ 27 = (bankLeaf (at_ 0 l)).pa % 2 ^ 27 ∧ (bankLeaf va).pa / 2 ^ 27 % 16 = k ∧
      (bankLeaf va).pa < 2 ^ 37 := ⟨issues_spec (by decide), onLanes (by decide)⟩
theorem witness_CommutativeWords :
    (∀ i ∈ [Instr.radd hd .e5m2 .vc7 (v 20) (v 2) 0, .radd hd .i64 .dflt (v 0) (v 2) 0, .rmin hd .n64 .vc3 (v 0) (v 2) 0,
      .rmax hd .f32 .dflt (v 20) (v 2) 0, .ror hd true .dflt (v 0) (v 2) 0, .rarv hd .vc4 (v 0) (v 2) 0, .accclr hd .dflt (v 2) 0,
      .accclr (hg 0) .dflt (v 2) 0], Issues i base (ctxOf base)) ∧
    performing (.accclr hd .dflt (v 2) 0) (ctxOf base) ≠ 0 ∧ performing (.accclr (hg 0) .dflt (v 2) 0) (ctxOf base) = 0 ∧
    Names (.radd hd .e5m2 .vc7 (v 20) (v 2) 0) base (ctxOf base) 64 0 (needOf base (ctxOf base) false true) (at_ 2) (leafAt ∘ at_ 2) :=
  ⟨allIssue (by decide), by decide, by decide, onLanes (by decide)⟩
theorem witness_GranuleWords :
    (∀ i ∈ [Instr.rwo hd 15 .dflt (v 0) (v 2) 0, .coll hd 15 true (v 10) .dflt (v 0) (v 2) 0, .rget hd 15 (v 32) .vc2 (v 0) (v 2) 0],
      Issues i base (ctxOf base)) ∧ performing (.rwo hd 15 .dflt (v 0) (v 2) 0) (ctxOf base) ≠ 0 ∧
    Names (.rwo hd 15 .dflt (v 0) (v 2) 0) base (ctxOf base) 32 16 (needOf base (ctxOf base) true false) (at_ 0) (leafAt ∘ at_ 0) ∧
    Names (.rwo hd 15 .dflt (v 0) (v 2) 0) base (ctxOf base) 32 16 (needOf base (ctxOf base) false true) (at_ 2) (leafAt ∘ at_ 2) ∧
    Names (.rget hd 15 (v 32) .vc2 (v 0) (v 2) 0) base (ctxOf base) 8 0 (needOf base (ctxOf base) false true) (at_ 32) (leafAt ∘ at_ 32) ∧
    (∀ l, hasLane (performing (.rwo hd 15 .dflt (v 0) (v 2) 0) (ctxOf base)) l = true →
      at_ 0 l % 512 + 32 * 16 ≤ 512 ∧ at_ 2 l % 512 + 32 * 16 ≤ 512 ∧ (leafAt (at_ 0 l)).die = 0) ∧
    (∀ l, hasLane (performing (.coll hd 15 true (v 10) .dflt (v 0) (v 2) 0) (ctxOf base)) l = true →
      (leafAt (at_ 2 l)).place = 0 ∧ base.dieExists ((ctxOf base).rd l 10 0 / 2 ^ 12) = true ∧
      base.barred 0 ((ctxOf base).rd l 10 0 / 2 ^ 12) = none) :=
  ⟨allIssue (by decide), by decide, onLanes (by decide), onLanes (by decide), onLanes (by decide), onLanes (by decide), onLanes (by decide)⟩
theorem witness_WaitingAndArming :
    (∀ i ∈ [Instr.await hd (v 0) (v 0) 0, .rfence true (v 111), .accrd hd true (v 111) (v 0) 0, .arm hd (v 2), .arm (hg 0) (v 0)],
      Issues i base (ctxOf base)) ∧ performing (.arm hd (v 2)) (ctxOf base) ≠ 0 ∧
    Names (.await hd (v 0) (v 0) 0) base (ctxOf base) 8 0 (needOf base (ctxOf base) true false) (at_ 0) (leafAt ∘ at_ 0) ∧
    (∀ l, hasLane (performing (.await hd (v 0) (v 0) 0) (ctxOf base)) l = true → (leafAt (at_ 0 l)).die = 0) ∧
    Names (.accrd hd true (v 111) (v 0) 0) base (ctxOf base) 64 0 (needOf base (ctxOf base) true false) (at_ 0) (leafAt ∘ at_ 0) ∧
    Names (.arm hd (v 2)) base (ctxOf base) 512 0 (needOf base (ctxOf base) false true) (at_ 2) (leafAt ∘ at_ 2) ∧
    Apart (.arm hd (v 2)) (ctxOf base) (at_ 2) := by
  refine ⟨allIssue (by decide), by decide, onLanes (by decide), onLanes (by decide), onLanes (by decide), onLanes (by decide), ?_⟩
  have h : ∀ l ∈ lanesIn (performing (.arm hd (v 2)) (ctxOf base)), ∀ m ∈ lanesIn (performing (.arm hd (v 2)) (ctxOf base)),
      at_ 2 l = at_ 2 m → l = m := by decide
  exact fun l m hl hm => h l ((mem_lanesIn _ _).mpr hl) m ((mem_lanesIn _ _).mpr hm)
/-- Gang 3 as a guest gang of core 0, with one guest that has moved 15 times. -/
def hosting : State := { base with
  tasks := [(1, { theTask with tcb := { theTask.tcb with flags := 4, migmask := 2 ^ 119 - 1 } })]
  gangs := [(3, { theGang with
    guests := [{ origin := 9, slice := 5, all := 3, hops := 15, xb := 0, base := 0, allot := 112, left := false }]
    frags := [{ slice := 0, act := 3, stack := [], pc := 0, next := none, cohort := 0 }] }),
    (9, { theGang with core := 64 })] }
theorem witness_LanesLeave :
    (∀ i ∈ [Instr.mig hd (v 10), .mig hd (v 11), .ld hd .b64 false (v 110) (v 6) 0, .home], Issues i base (ctxOf base)) ∧
    (∀ l, hasLane (performing (.mig hd (v 10)) (ctxOf base)) l = true → base.dieExists ((ctxOf base).rd l 10 0 / 2 ^ 12) = true) ∧
    base.dieExists (((BitVec.ofNat 32 ((ctxOf base).rd 1 11 0)).extractLsb' 0 12).toNat * 8) = false ∧
    base.dieExists (((BitVec.ofNat 32 ((ctxOf base).rd 0 11 0)).extractLsb' 0 12).toNat * 8) = true ∧
    (∀ l, hasLane (performing (.ld hd .b64 false (v 110) (v 6) 0) (ctxOf base)) l = true → at_ 6 l % 8 = 0 ∧
      base.coreTranslate 0 (at_ 6 l) 8 (needOf base (ctxOf base) true false) = .ok (leafAt (at_ 6 l)) ∧ (leafAt (at_ 6 l)).die ≠ 0 ∧
      (leafAt (at_ 6 l)).policy = 1) ∧ (ctxOf base).gang.guests = [] ∧
    (∀ i ∈ [Instr.mig hd (v 10), .home], Issues i hosting (ctxOf hosting)) ∧
    ((ctxOf hosting).gang.guests[0]?).map (·.hops) = some 15 ∧
    (((ctxOf hosting).gang.frags.filter fun f => f.cohort == (ctxOf hosting).run.cohort).map (·.slice)).Nodup ∧
    (∀ f ∈ (ctxOf hosting).gang.frags, ((ctxOf hosting).gang.guests[f.slice]?).map (·.all) = some 3) := by
  refine ⟨allIssue (by decide), onLanes (by decide), by decide, by decide, onLanes (by decide), by decide, allIssue (by decide), by decide,
    by decide, by decide⟩
theorem witness_SystemWords :
    (∀ i ∈ [Instr.eret hd (v 0), .eret hd (v 32), .eret hd (v 2), .halt hd (v 111) (v 2), .movsw hd .ptroot (v 0), .movsw hd .deffault (v 0),
      .tlbinvPage hd (v 0), .tlbinvAll hd, .tlbinvAll (hg 0)], Issues i base (ctxOf base)) ∧
    performing (.tlbinvAll (hg 0)) (ctxOf base) = 0 ∧ IsLowest (performing (.eret hd (v 0)) (ctxOf base)) 0 ∧
    at_ 0 0 % 64 = 0 ∧ at_ 32 0 % 64 ≠ 0 ∧
    base.coreTranslate 0 (at_ 0 0) 64 (needOf base (ctxOf base) true false) = .ok (leafAt (at_ 0 0)) ∧
    base.coreTranslate 0 (at_ 0 0 + 64) 64 (needOf base (ctxOf base) true false) = .ok (leafAt (at_ 0 0 + 64)) ∧
    (leafAt (at_ 0 0)).die = 0 ∧ (leafAt (at_ 0 0 + 64)).die = 0 ∧
    base.coreTranslate 0 (at_ 2 0) 1 (needOf base (ctxOf base) false true) = .ok (leafAt (at_ 2 0)) ∧ (leafAt (at_ 2 0)).die ≠ 0 ∧
    at_ 2 0 % 512 = 0 ∧ base.barred 0 (leafAt (at_ 2 0)).die = none := by
  refine ⟨allIssue (by decide), by decide, by unfold IsLowest; decide, ?_⟩; decide
/-- The die's channel-control machine waits for its last write. -/
def armed : State := { base with dies := [(0, { base.die 0 with chSeq := 2, chCh := 5, chMode := true, chRow := 7 })] }
theorem witness_ChannelControl :
    (∀ i ∈ [Instr.movswChkey hd (v 26), .movswChmode hd (v 28), .movswChconf hd (v 27), .movswChkey (hg 0) (v 26)], Issues i base (ctxOf base)) ∧
    performing (.movswChkey (hg 0) (v 26)) (ctxOf base) = 0 ∧ IsLowest (performing (.movswChkey hd (v 26)) (ctxOf base)) 0 ∧
    (ctxOf base).rd 0 26 0 / 2 ^ 16 = 0xC4A7 ∧ (base.die 0).chSeq = 0 ∧
    Issues (.movswChconf hd (v 27)) armed (ctxOf armed) ∧ (armed.die 0).chSeq = 2 ∧ (ctxOf armed).rd 0 27 0 = 0x3B5C0000 + (armed.die 0).chCh := by
  refine ⟨allIssue (by decide), by decide, by unfold IsLowest; decide, by decide, by decide, issues_spec (by decide), by decide, by decide⟩

/-! ### Events of a core, of blocks, tasks and fault records -/

/-- No run is in progress, and one packet of code, NOP then TRAIL, stands at the code base. -/
def starting : State := { base with
  runs := [], focus := none
  tasks := [(1, { theTask with tcb := { theTask.tcb with codebase := 0x20000000 } })]
  mem := [(0x10000002, 0xE0), (0x10000004, 0xFF), (0x10000005, 0xFF), (0x10000006, 0xFF), (0x10000007, 0x01), (0x1000000A, 0xE0)] }
/-- The same with code at an address that no page has, and with a word that is none at its base. -/
def codeless : State := { starting with tasks := [(1, { theTask with tcb := { theTask.tcb with codebase := 0x40000000 } })] }
def codeWords : List Word := [0x00E00000, 0x01FFFFFF, 0x00E00000]
def codeEntries : List Entry :=
  [{ start := 0, pos := 0, instr := .nop hd, chain := false, trail := false }, { start := 1, pos := 1, instr := .trail (v 127) (v 127) (v 127), chain := false, trail := true }]
def firstCohort : Cohort := { id := 0, gathered := false, regang := false, barWait := [], fenceAt := none, resume := none, stamp := 0 }
/-- The cohort, the gang and the state in which the attempt is noted. -/
def noted : Cohort := { firstCohort with fenceAt := some 5 }
def notedGang : Gang := { theGang with cohorts := [noted] }
def attempting : State := { starting with gangs := tabPut starting.gangs 3 notedGang }
def startCtx : Ctx :=
  { slot := 0, run := { theRun with id := 5, words := codeWords, pos := 0, act := 0xFFFFFFFF, seeded := 0 }, gid := 3, gang := notedGang }
theorem witness_RunStarts :
    tabFind starting.gangs 3 = some theGang ∧ theGang.status = .resident ∧ theGang.holds = [] ∧ theGang.fragsOf 0 ≠ [] ∧
    theGang.cohort? 0 = some firstCohort ∧ (starting.block 2).status = .resident ∧ starting.runs = [] ∧
    (∀ x ∈ theGang.groups ++ [256], tabGet theGang.arrivals 0 x ≠ tabGet (starting.task 1).gens 0 (genKey x 0) + 1) ∧
    starting.fetchRun (starting.task 1) 0 0 0 8 [] = .words codeWords ∧ checkRun (restWords codeWords 0) = .ok codeEntries ∧
    theGang.cohorts = [firstCohort] ∧ startCtx.run.entry = theGang.lanes.dropW (theGang.ownLanes 0) ∧ starting.growOf theGang codeEntries = 0 ∧
    MayStart attempting startCtx noted codeEntries ∧ attempting.outranked 0 (attempting.rank notedGang 0) = false ∧
    codeless.fetchRun (codeless.task 1) 0 0 0 8 [] = .trap { code := 8, info := 2 } 0x40000000 ∧
    checkRun [0x54E00008, 0x01FFFFFF, 0x00E00000] = .error { pos := 0, code := 1 } := by
  refine ⟨by decide, by decide, by decide, by decide, by decide, by decide, by decide, by decide, by decide, by decide, by decide, by decide,
    by decide, ?_, by decide, by decide, by decide⟩
  constructor
  · intro b e a h l st t m he hi
    have : e ∈ codeEntries := by rw [he]; simp
    simp only [codeEntries, List.mem_cons, List.not_mem_nil, or_false] at this
    rcases this with rfl | rfl <;> simp at hi
  · intro _ q hq
    have h : ∀ q < 3, ∀ l ∈ lanesIn startCtx.run.act,
        let pops := (codeEntries.map fun e => popsOf (usesOf e.instr) q).sum
        let adds := (codeEntries.map fun e => if hasLane (startCtx.perf (guardOf e.instr)) l then fillsOf q e.instr else 0).sum
        pops ≤ startCtx.gang.queueLen q l ∧
          (adds = 0 ∨ startCtx.gang.queueLen q l + attempting.inFlight startCtx.gid q l + adds ≤ queueDepth q) := by decide
    exact onLanes (h q hq)
  all_goals decide

/-- An access of lane 0 to the first cell of the bank-linear window, and to the scratchpad. -/
def flatOf (size data : Nat) : Acc :=
  { lane := 0, space := .flat true, addr := 0x10000000, va := 0x20000000, size := size, data := data, got := 0, done := false, early := false,
    poison := false, cache := 0 }
def localOf (sp : Space) (size : Nat) : Acc := { flatOf size 7 with space := sp, addr := 0, va := 0 }
def opOf (kind : OpKind) (cls : Cls) (a : Acc) : Op :=
  { kind := kind, cls := cls, gang := 3, block := 2, core := 0, slices := 0xF, active := 1, pc := 0, cohort := 0, run := 4, word := 7,
    batch := [], ord := .rlx, scope := .s, dest := none, held := [], accs := [a], began := false, abandoned := false, fromTrap := false }
/-- Operation 7 is outstanding. -/
def doing (o : Op) : State := { base with nextId := 8, ops := [(7, o)] }
def mayAccess (o : Op) (a : Acc) : Bool := o.accs == [a] && !a.done && !o.abandoned && (doing o).accReady 7 o a &&
  !(doing o).accHeld 7 o a && !(doing o).stepStore o a
theorem mayAccess_spec {o : Op} {a : Acc} (h : mayAccess o a = true) : AtAccess (doing o) 7 o 0 a := by
  simp only [mayAccess, Bool.and_eq_true, beq_iff_eq, Bool.not_eq_true'] at h
  obtain ⟨⟨⟨⟨⟨h1, h2⟩, h3⟩, h4⟩, h5⟩, h6⟩ := h
  exact ⟨by simp [doing, tabFind], by simp [h1], h2, fun j hj => absurd hj (Nat.not_lt_zero j), h3, h4, h5, h6⟩
/-- Every kind of operation that makes accesses. -/
def acting : List (OpKind × Cls × Acc) :=
  [(.load, .ld, flatOf 8 0), (.bsread 32 true, .ld, flatOf 1 0), (.store true, .st, flatOf 8 5), (.bcw, .st, flatOf 16 5),
   (.atom .cas .i64 true, .ld, flatOf 8 5), (.launch, .ld, flatOf 16 5), (.accrd true, .ld, flatOf 64 0), (.flush true false, .st, flatOf 512 0),
   (.fence false, .st, localOf .scratch 0), (.fence true, .st, localOf .scratch 0), (.tlbinv true 0, .st, localOf .scratch 0),
   (.load, .ld, localOf .scratch 8), (.load, .ld, localOf .priv 4), (.store false, .st, localOf .scratch 8), (.store false, .st, localOf .priv 4),
   (.stfe, .st, localOf .scratch 16), (.ldfe true, .ld, localOf .scratch 4), (.halt, .ld, flatOf 4 0), (.halt, .ld, flatOf 4 3),
   (.armWait [(0, 1, 512, 512)], .rm, localOf .scratch 0)]
theorem witness_AccessesPerformed :
    (∀ x ∈ acting, let o := opOf x.1 x.2.1 x.2.2; AtAccess (doing o) 7 o 0 x.2.2 ∧ (∀ y ∈ o.accs, y.poison = false) ∧
      (doing o).poisonedAt x.2.2.addr x.2.2.size = false ∧ (doing o).mem.wf = true ∧ (doing o).cellFenced x.2.2.addr = false ∧
      (doing o).inStep x.2.2.addr = false ∧ (doing o).fenceDone 3 7 = true ∧ cellDie x.2.2.addr = dieOf o.core ∧
      cellDie (x.2.2.addr + x.2.2.size) = cellDie x.2.2.addr ∧
      ((doing o).beforeLoad o.core o.scope x.2.2.cache true x.2.2.addr x.2.2.size).poisonedFor (.lane o.core o.gang) x.2.2.addr x.2.2.size
        = false ∧ (doing o).pending.length + ((doing o).core o.core).l1.length < 4096 ∧
      (doing o).pending.length + ((doing o).die (dieOf o.core)).l2.length < 4096 ∧ (doing o).fields = []) ∧
    (∀ x ∈ acting, Alone (opOf x.1 x.2.1 x.2.2) x.2.2) ∧
    (let s : State := { doing (opOf .load .ld (flatOf 8 0)) with bits := { poison := [0x800000], written := [], conflict := [] } }
     s.poisonedAt 0x10000000 8 = true ∧ (s.gang 3).guests = [] ∧ ((s.gang 3).fragWith 0).isSome = true ∧
     AtAccess s 7 (opOf .load .ld (flatOf 8 0)) 0 (flatOf 8 0)) := by
  have h : ∀ x ∈ acting, let o := opOf x.1 x.2.1 x.2.2; mayAccess o x.2.2 = true ∧ (∀ y ∈ o.accs, y.poison = false) ∧
      (doing o).poisonedAt x.2.2.addr x.2.2.size = false ∧ (doing o).mem.wf = true ∧ (doing o).cellFenced x.2.2.addr = false ∧
      (doing o).inStep x.2.2.addr = false ∧ (doing o).fenceDone 3 7 = true ∧ cellDie x.2.2.addr = dieOf o.core ∧
      cellDie (x.2.2.addr + x.2.2.size) = cellDie x.2.2.addr ∧
      ((doing o).beforeLoad o.core o.scope x.2.2.cache true x.2.2.addr x.2.2.size).poisonedFor (.lane o.core o.gang) x.2.2.addr x.2.2.size
        = false ∧ (doing o).pending.length + ((doing o).core o.core).l1.length < 4096 ∧
      (doing o).pending.length + ((doing o).die (dieOf o.core)).l2.length < 4096 ∧ (doing o).fields = [] := by decide
  refine ⟨fun x hx => ⟨mayAccess_spec (h x hx).1, (h x hx).2⟩, fun x _ b hb hl => ?_, by decide, by decide, by decide,
    ⟨by decide, by decide, by decide, fun j hj => absurd hj (Nat.not_lt_zero j), by decide, by decide, by decide, by decide⟩⟩
  simp only [opOf, List.mem_singleton] at hb
  exact absurd hl (by rw [hb]; exact Nat.lt_irrefl _)
/-- A load whose accesses have all been performed; a store to the step window of a channel in promotion mode; a buffered float
operation, before a slice that has room and before the spill region. -/
def loaded : Op := { opOf .load .ld { flatOf 8 0 with done := true, got := 9 } with dest := some { first := 110, count := 2, width := 8, sx := false } }
def stepCell : Nat := 65533 * 2 ^ 11
def stepOp : Op := { opOf (.store true) .st { flatOf 4 5 with addr := stepCell } with ord := .rel }
def promoted_ : State := { doing stepOp with dies := [(0, { base.die 0 with channels := [(0, { Channel.reset with promotion := true })] })] }
def bufOp : Op := opOf (.bufAtom .fadd .f32 true) .ld (flatOf 4 5)
def buffered : State := { doing bufOp with bufs := [{
  issued := 7, task := 1, block := 0, gang := 0, lane := 0, seq := 0, op := .fadd, ty := .f32, cell := 0x10000000, va := 0x20000000,
  value := 5, arrived := false, spilled := false }] }
theorem witness_LateResults :
    (tabFind (doing loaded).ops 7 = some loaded ∧ tabFind (doing loaded).gangs loaded.gang = some theGang ∧ loaded.cls = .ld ∧
      (∀ x ∈ loaded.accs, x.done = true ∧ x.poison = false)) ∧
    (tabFind promoted_.ops 7 = some stepOp ∧ stepOp.accs[0]? = some { flatOf 4 5 with addr := stepCell } ∧
      promoted_.accReady 7 stepOp { flatOf 4 5 with addr := stepCell } = true ∧ promoted_.inStep stepCell = true ∧ promoted_.asleep stepCell = false) ∧
    (AtAccess (doing bufOp) 7 bufOp 0 (flatOf 4 5) ∧ buffered.bufs.length = 1 ∧ buffered.heldCell 0x10000000 = false ∧
      buffered.poisonedAt 0x10000000 4 = false) := by
  refine ⟨by decide, by decide, mayAccess_spec (by decide), by decide, by decide, by decide⟩
/-- A fault record on its way to an area of four slots at 0x20000000, then to no area. -/
def record_ : FaultRec :=
  { code := 22, lane := 0, info := 1, resumable := true, guest := false, privileged := true, task := 1, addr := 0, block := 0, lgang := 0, pc := 0,
    resumePc := 1, performed := 0, active := 3, die := 0, core := 0, token := 5, gang := some 3, serve := true }
def reporting (area : Nat) : State := { base with
  faults := [(6, record_)], nextId := 8, mem := [(0x10000010, 4)]
  tasks := [(1, { theTask with tcb := { theTask.tcb with faultrec := area, super := 0x20001000 } })] }
/-- The launch is next on its die's queue; its block has ended. -/
def queued_ : State := { base with
  runs := [], focus := none, blocks := [], gangs := []
  dies := [(0, { base.die 0 with ready := [(0, false, 1)] })]
  tasks := [(1, { theTask with placed := 0, tcb := { theTask.tcb with coremask := 1, diemask := 1 } })] }
def ended_ : State := { base with runs := [], focus := none, gangs := [(3, { theGang with status := .ended })] }
def over_ : State := { ended_ with blocks := [(2, { Block.blank with task := 1, gangs := [3] })], tasks := [(1, { theTask with retired := 1 })] }
set_option maxRecDepth 10000 in
theorem witness_FaultsBlocksTasks :
    tabFind (reporting 0).faults 6 = some record_ ∧ ((reporting 0).task 1).tcb.faultrec = 0 ∧ ((reporting 0).die 0).deffault = 0 ∧
    ((reporting 0).task 1).status = .running ∧
    (∃ leaf, (reporting 0x20000000).translate 0 0x20000000 deviceWrites = .ok leaf ∧ (reporting 0x20000000).heldCell leaf.cell = false ∧
      (reporting 0x20000000).poisonedAt leaf.cell 32 = false ∧ (reporting 0x20000000).homeNat leaf.cell 8 = 0 ∧
      (reporting 0x20000000).homeNat (leaf.cell + 16) 4 = 4) ∧
    ((reporting 0x20000000).translateRange 0 deviceWrites 3 (0x20000000 + 64) 128).toOption.isSome = true ∧
    ((reporting 0x20000000).task 1).tcb.super % 512 = 0 ∧ ((reporting 0x20000000).translate 0 0x20001000 deviceWrites).toOption.isSome = true ∧
    ((reporting 0x20000000).serveHeld 0 0x10001000 0x20001000) = false ∧
    (queued_.die 0).ready = [(0, false, 1)] ∧ queued_.makingRoom 1 = false ∧ queued_.heldCell (queued_.task 1).cell = false ∧ (queued_.task 1).placed < (queued_.task 1).tcb.grid ∧
    queued_.coreFor 1 (queued_.task 1) 0 = some 0 ∧ (queued_.room 0 (queued_.task 1).tcb).isSome = true ∧
    tabFind ended_.blocks 2 = some (ended_.block 2) ∧ (ended_.block 2).status = .resident ∧ (∀ g ∈ (ended_.block 2).gangs, (ended_.gang g).status = .ended) ∧
    ended_.blockOwes (ended_.block 2) = false ∧
    (over_.task 1).status = .running ∧ (over_.task 1).tcb.grid ≤ (over_.task 1).retired ∧ over_.taskOwes 1 = false ∧
    (∀ b ∈ over_.blocks, b.2.status = .retired) ∧ over_.bufs = [] ∧
    over_.overflowHeld (over_.task 1) = false ∧ over_.heldCell (over_.task 1).cell = false := by
  refine ⟨by decide, by decide, by decide, by decide, ⟨leafAt 0x20000000, by decide⟩, by decide, by decide, by decide, by decide,
    by decide, by decide, by decide, by decide, by decide, ?_⟩; decide
/-- The gang's block is told to halt, has halted, and has been saved. -/
def stopping (b : BlockStatus) (g : GangStatus) : State := { base with
  runs := [], focus := none, gangs := [(3, { theGang with status := g })], blocks := [(2, { base.block 2 with status := b })]
  tasks := [(1, { theTask with tcb := { theTask.tcb with savearea := 0x20000000 } })]
  dies := [(0, { base.die 0 with ready := [(0, false, 1)] })] }
/-- No channel of the machine is out of its normal mode: nothing is held. -/
theorem quiet_held {s : State} {d : Die} (h : s.dies = [(0, d)]) (h' : d.channels = []) (cell : Nat) : s.heldCell cell = false := by
  have hd (k : Nat) : (s.die k).channels = [] := by
    by_cases hk : k = 0
    · simp [State.die, h, tabGet, tabFind, hk, h']
    · simp [State.die, h, tabGet, tabFind, Ne.symm hk, Die.reset]
  have hc : s.channelOf cell = Channel.reset := by simp [State.channelOf, hd, tabGet]
  simp [State.heldCell, State.promoted, State.entering, State.asleep, hc, Channel.reset]
theorem witness_SavesAndRestores :
    (let s := stopping .halting .resident
     tabFind s.blocks 2 = some (s.block 2) ∧ (s.block 2).status = .halting ∧ s.runs = [] ∧ s.ops = []) ∧
    (let s := stopping .halted .resident
     tabFind s.gangs 3 = some (s.gang 3) ∧ (s.gang 3).block = 2 ∧ (s.gang 3).status = .resident ∧ (s.gang 3).guests = [] ∧
     (s.block 2).status = .halted ∧ (s.block 2).saveFailed = false ∧ s.saveWaits 3 (s.gang 3) = false ∧
     ∀ rs, s.savesHeld (s.task 1) 0 rs = false) ∧
    (let s := stopping .halted .saved
     (s.block 2).pendingFor = none ∧ ∀ x ∈ (s.block 2).gangs, (s.gang x).status ≠ .resident) ∧
    (let s := stopping .saved .saved
     (s.block 2).status = .saved ∧ s.isServed 1 = true ∧ s.positionsFree (s.block 2) = true ∧ (s.gang 3).holds = [] ∧
     (∀ rs, s.rangesHeld (s.task 1) 0 rs = false) ∧ s.heldCell (s.task 1).cell = false ∧
     (s.gang 3).units.length ≤ 64 ∧ (s.imageRead (s.task 1) 0 0 64).isSome = true) := by
  have none (b : BlockStatus) (g : GangStatus) (rs : List (Nat × Nat)) : (stopping b g).rangesHeld ((stopping b g).task 1) 0 rs = false := by
    simp [State.rangesHeld, State.imageHeld, rangeHeld_quiet (quiet_held (s := stopping b g) rfl rfl)]
  refine ⟨by decide, ?_, by decide, by decide, by decide, by decide, by decide, none _ _, by decide⟩
  exact ⟨by decide, by decide, by decide, by decide, by decide, by decide, by decide, fun _ => none _ _ _⟩

/-! ### Events of the engines -/

/-- A tile operation of the block, first in acceptance order. -/
def tileOp (kind : OpKind) : Op := { opOf kind .tl (flatOf 8 0) with accs := [] }
def seg : Seg := { va := 0x20000000, cell := 0x10000000, win := true, cache := 0, n := 1024 }
def tileKinds : List OpKind :=
  [.tloadb .bf16 false false 7 [seg], .tzero 15, .tcfg 15 true none, .tcfg 15 true (some 9), .tread 15 8 [(0, 248), (1, 0)],
   .tstore .f32 true 15 [(0, [seg]), (31, [seg])], .tfree false 15, .tfree true 7]
def filing (o : Op) : State := { handled with nextId := 8, ops := [(7, o)] }
def tmmaOp : Op := tileOp (.tmma true .bf16 7 15 0 [(0, 0, 0), (1, 512, 0)] (-256) 0)
def passing : State := { filing tmmaOp with cores := [(0, { handled.core 0 with
  passes := [(7, { ops := [7], rows := [(7 * 32, [1, 2, 3, 4, 5, 6, 7, 8], [127])], void := false })] })] }
theorem witness_MatrixEvents :
    (∀ k ∈ tileKinds, tabFind (filing (tileOp k)).ops 7 = some (tileOp k) ∧ (filing (tileOp k)).tileReady 7 (tileOp k) = true ∧
      (filing (tileOp k)).storesDone 7 (tileOp k) = true ∧ (filing (tileOp k)).segsWait 7 [seg] = false ∧
      (filing (tileOp k)).segsPoisoned 0 [seg] = false ∧ tabFind (filing (tileOp k)).gangs 3 = some theGang) ∧
    ([(0, 248), (1, 0)].map (·.1)).Nodup ∧ ([(0, [seg]), (31, [seg])].map (·.1)).Nodup ∧ (handled.core 0 |>.b 7).owner ≠ none ∧
    tabFind ((filing tmmaOp).core 0).passes 7 = none ∧ (filing tmmaOp).passOps 0 7 = [(7, tmmaOp)] ∧
    (filing tmmaOp).storesDone 7 tmmaOp = true ∧ ((filing tmmaOp).core 0 |>.b 7).valid = true ∧
    (tabFind (passing.core 0).passes 7).isSome = true ∧ tabFind passing.ops 7 = some tmmaOp ∧
    (let s : State := { filing (tileOp (.tloadb .e2m1 false true 7 [seg])) with bits := { poison := [0x800000], written := [], conflict := [] } }
     s.segsPoisoned 0 [seg] = true) := by
  decide
/-- The block's tile 7 as given, and operations before the word's. -/
def tiled (b : BHandle) (ops : Tab Op) : State :=
  { handled with nextId := 8, ops := ops, cores := [(0, { handled.core 0 with bs := [(7, { b with owner := some 2 })] })] }
/-- A sparse tile, one that is loading, a load that has failed; a row that is not aligned, and one beyond SCRATCH. -/
theorem witness_MatrixMultiplyForms :
    let dense : BHandle := { BHandle.reset with valid := true, fmt := .bf16 }
    let word (r : Nat) : Instr := .tmma hd false .bf16 7 15 (v r) (v 50) (v 0)
    let row (s : State) (r l : Nat) : Nat := (ctxOf s).rdAfter l r [] % 2 ^ 19
    (∀ s ∈ [tiled dense [], tiled { dense with sparse := true } [], tiled { BHandle.reset with reason := 2 } [],
        tiled BHandle.reset [(7, tileOp (.tloadb .bf16 false true 7 [seg]))]], ∀ r ∈ [0, 2, 32, 34],
      Issues (word r) s (ctxOf s) ∧ performing (word r) (ctxOf s) = 3) ∧
    (let s := tiled { dense with sparse := true } []
     row s 0 0 % 512 = 0 ∧ row s 0 0 + 1024 ≤ 4096 ∧ row s 2 1 % 512 = 0 ∧ row s 2 1 + 1024 ≤ 4096) ∧
    row (tiled dense []) 32 0 % 512 ≠ 0 ∧ row (tiled dense []) 34 0 % 512 = 0 ∧ row (tiled dense []) 34 1 % 512 = 0 ∧
    row (tiled dense []) 34 0 + 512 ≤ 4096 ∧ 4096 < row (tiled dense []) 34 1 + 512 := by
  refine ⟨?_, by decide⟩
  intro s hs r hr
  have h : ∀ s ∈ [tiled { BHandle.reset with valid := true, fmt := .bf16 } [], tiled { BHandle.reset with valid := true, fmt := .bf16, sparse := true } [],
      tiled { BHandle.reset with reason := 2 } [], tiled BHandle.reset [(7, tileOp (.tloadb .bf16 false true 7 [seg]))]], ∀ r ∈ [0, 2, 32, 34],
      issues s (.tmma hd false .bf16 7 15 (v r) (v 50) (v 0)) = true ∧
      performing (.tmma hd false .bf16 7 15 (v r) (v 50) (v 0)) (ctxOf s) = 3 := by decide
  exact ⟨issues_spec (h s hs r hr).1, (h s hs r hr).2⟩
/-- Records of four elements of 4 bytes at the window, and the operations of the copy engine and the stacks. -/
def recordAt (base count : Nat) : BitVec 512 :=
  (BitVec.ofNat 64 base ++ BitVec.ofNat 32 count ++ 1#32 ++ 1#32 ++ 1#32 ++ 4#32 ++ 0#32 ++ 0#32 ++ 0#32 ++ 2#3 ++ 0#189 : BitVec 512)
/-- A table of 8 rows of 8 FP32 elements. -/
def tableAt (base : Nat) : BitVec 512 :=
  (BitVec.ofNat 64 base ++ 8#32 ++ 8#32 ++ 1#32 ++ 1#32 ++ 4#32 ++ 32#32 ++ 0#32 ++ 0#32 ++ 2#3 ++ 0#189 : BitVec 512)
def copyGang : Gang := { theGang with
  records := [(0, some (recordAt 0x20000000 4)), (1, some (recordAt 0x20000100 4)), (2, some (tableAt 0x20000000)), (3, some (tableAt 0x20000800))]
  batches := [{ lane := 0, num := 1, post := true, fail := false }] }
def copyKinds : List OpKind :=
  [.lrec 3 [{ seg with n := 64 }], .cpy 16 [(0, .flat [{ seg with n := 16 }], .map 0xC000000000000000)], .cpyt false 0 0 1 0 0 0 false,
   .ired 2 3 true [(0, 7, 0), (1, 0, 7)] { seg with n := 16 } false, .bookq true { seg with n := 1 } [(0, 1023), (1, 0)], .bookPin false true]
def copying (k : OpKind) : State :=
  let o : Op := if k = .bookPin false true then opOf k .st (flatOf 1 0) else tileOp k
  { filing { o with cls := .none } with gangs := [(3, copyGang)] }
set_option exponentiation.threshold 600 in
theorem witness_CopyAndStackEvents :
    (∀ k ∈ copyKinds, let s := copying k; ∃ o, tabFind s.ops 7 = some o ∧ o.abandoned = false ∧ tabFind s.gangs o.gang = some copyGang ∧
      s.storesDone 7 o = true ∧ s.segsWait 7 [seg] = false ∧ s.segsPoisoned 0 [seg] = false ∧ s.bookTurn 7 o 0x10000000 0 = true ∧
      s.heldCell 0x10000000 = false ∧ s.asleep 0x10000000 = false ∧ s.refWaits 7 o 16 (.flat [{ seg with n := 16 }]) = false ∧
      s.refWaits 7 o 16 (.map 0xC000000000000000) = false ∧ s.segsHalf [seg] = false) ∧
    copyGang.slot 0 = some (recordAt 0x20000000 4).toNat ∧ recOk (recordAt 0x20000000 4).toNat = true ∧
    iredValid (tableAt 0x20000000).toNat (tableAt 0x20000800).toNat [(0, 7, 0), (1, 0, 7)] = true ∧
    ((copying (.lrec 3 [])).iredRow (tileOp .remote) false true (tableAt 0x20000000).toNat 7).isSome = true ∧
    ((copying (.lrec 3 [])).iredRow (tileOp .remote) true false (tableAt 0x20000800).toNat 7).isSome = true ∧
    copyGang.batches.find? (fun b => b.lane == 0 && b.num == tabGet copyGang.finished 0 0 + 1) =
      some { lane := 0, num := 1, post := true, fail := false } ∧
    base.mapBlock 1 0 0 = some (2, base.block 2) ∧ windowed.mapGang 1 0 1 = some (3, windowed.gang 3) := by
  refine ⟨fun k hk => ?_, by decide⟩
  have h : ∀ k ∈ copyKinds, let s := copying k; (tabFind s.ops 7).any (fun o => decide (o.abandoned = false ∧ tabFind s.gangs o.gang = some copyGang ∧
      s.storesDone 7 o = true ∧ s.segsWait 7 [seg] = false ∧ s.segsPoisoned 0 [seg] = false ∧ s.bookTurn 7 o 0x10000000 0 = true ∧
      s.heldCell 0x10000000 = false ∧ s.asleep 0x10000000 = false ∧ s.refWaits 7 o 16 (.flat [{ seg with n := 16 }]) = false ∧
      s.refWaits 7 o 16 (.map 0xC000000000000000) = false ∧ s.segsHalf [seg] = false)) = true := by decide
  have hk' := h k hk
  cases ho : tabFind (copying k).ops 7 with
  | none => simp [ho] at hk'
  | some o =>
    simp only [ho, Option.any_some] at hk'
    exact ⟨o, ho, of_decide_eq_true hk'⟩

/-! ### Events of channels, of the fabric and of packages -/

def channel (c : Channel) : State := { base with dies := [(0, { base.die 0 with channels := [(63, c)] })] }
def report : StartReport :=
  { fenced := [], failure := none, minimalFails := none, link0x8 := true, link1x8 := false, link1Fitted := true, measure := [] }
theorem witness_ChannelsPowerAndStart :
    (let s := channel { Channel.reset with requests := [(true, 7)] }
     (tabGet (s.die 0).channels Channel.reset 63).requests = [(true, 7)]) ∧
    (let s := channel { Channel.reset with promotion := true, requests := [(false, 7)] }
     let c := tabGet (s.die 0).channels Channel.reset 63
     c.requests = [(false, 7)] ∧ c.power = .awake ∧ c.promotion = true ∧ s.mem.wf = true) ∧
    (tabGet (base.die 0).channels Channel.reset 63).power = .awake ∧ base.dieExists 7 = true ∧ base.pkgExists 0 = true ∧
    State.reset.pkgExists 0 = true ∧ State.reset.mem.wf = true ∧ (State.reset.pkg 0).fails = 0 ∧ (State.reset.pkg 0).hot = false ∧
    report.failure = none ∧ report.fenced = [] ∧
    (let s : State := { State.reset with pkgs := [(0, { Pkg.reset with fails := 3 })] }; (s.pkg 0).fails = 3 ∧ (s.pkg 0).retry = false) := by
  decide
/-- A packet of a remote unit of die 1 to the window of die 0, in a stream that has none yet. -/
def packet (kind opq : Nat) (body : Payload) : Packet :=
  { Packet.blank with sdie := 1, kind := kind, opq := opq, pa := 2 ^ 64 + 0x10000000, body := body }
def blankStream : Stream := { floor := 0, marks := [] }
def flying (p : Packet) : State := { base with flight := [p] }
def isFresh (p : Packet) : Bool :=
  !(flying p).proxied p.sdie p.dst && !(flying p).ignores p.sdie p.dst && (flying p).accepts p.sdie p.dst p.keyGen p.key && (flying p).isUp p.dst &&
    p.oldest == 0 &&
    !seqBefore p.seq 0 && ({ flying p with streams := tabPut (flying p).streams p.stream blankStream } : State).markedStreams p.dst == 0
theorem isFresh_spec {p : Packet} (h : isFresh p = true) : Fresh (flying p) 0 p blankStream := by
  simp only [isFresh, Bool.and_eq_true, Bool.not_eq_true', beq_iff_eq] at h
  obtain ⟨⟨⟨⟨⟨⟨a, b⟩, c⟩, u⟩, d⟩, e⟩, f⟩ := h
  refine ⟨rfl, ⟨a, b, c, u⟩, ⟨?_, rfl⟩, e, rfl, fun _ => by rw [f]; decide⟩
  simp only [d]
  split <;> rfl
def plyOf (isReturn refused : Bool) : Ply :=
  { task := 1, origin := 3, slice := 1, all := 15, lanes := 15, hops := 1, xb := 0, base := 0, allot := 112, pc := 4, word := 0, src := 3, place := 0, regs := [], preds := [],
    lstat := [], addrs := [], isReturn := isReturn, refused := refused, rcause := 0, dst := 0 }
/-- Each kind of packet, at the last code of its type. -/
def packets : List Packet :=
  [packet 0 6 (.entries [(1, 511, 0), (1, 0, 31)]), packet 1 4 (.entries [(1, 508, 0)]), packet 2 3 (.entries [(1, 504, 0)]),
   packet 3 1 (.entries [(1, 0, 0)]), packet 4 15 (.granules (List.replicate 16 (5, false))), packet 5 0 (.entries [(1, 0, 0)]), packet 6 15 .none,
   packet 7 0 (.granules [(5, true)]), packet 10 0 (.arm 0x20000000), packet 11 0 (.entries [(0, 448, 0)]), packet 12 0 (.resume 5 127 0 4),
   packet 13 31 (.granules (List.replicate 15 (5, false))), packet 9 0 (.ply (plyOf false false)), packet 9 0 (.ply (plyOf true false)),
   packet 9 0 (.ply (plyOf false true)), packet 32 0 (.notice 1)]
theorem witness_PacketsPerformed : ∀ p ∈ packets, Fresh (flying p) 0 p blankStream ∧
    (∀ i < 17, (flying p).unitHeld p (32 * i, 32) = false) ∧ (∀ off ∈ [504, 508, 511], (flying p).unitHeld p (off, 1) = false) ∧
    (flying p).armHeld p = false ∧ (flying p).markHeld p = false ∧ (flying p).serving = [] := by
  have h : ∀ p ∈ packets, isFresh p = true ∧ (∀ i < 17, (flying p).unitHeld p (32 * i, 32) = false) ∧
      (∀ off ∈ [504, 508, 511], (flying p).unitHeld p (off, 1) = false) ∧
      (flying p).armHeld p = false ∧ (flying p).markHeld p = false ∧ (flying p).serving = [] := by decide
  exact fun p hp => ⟨isFresh_spec (h p hp).1, (h p hp).2⟩
/-- A gang held at token 5; an acknowledgement of a packet of operation 7, of an RGET that is served, of none; a packet to send
again, and one that has not gone out. -/
def held_ : State := withGang fun g => { g with
  holds := [{ token := 5, cohort := 0, lanes := 3, op := none, resumePc := 4, resumable := true, marked := none }] }
def waits (op gang job : Option Nat) (sent : Bool) : Unacked :=
  { pkt := { packet 0 0 .none with sdie := 0, dst := 1 }, sent := sent, op := op, gang := gang, lanes := 3, also := 0, job := job }
def acked (op gang job : Option Nat) : State := { doing (tileOp .remote) with
  unacked := [waits op gang job true], jobs := [(2, { request := packet 6 15 .none, arrived := true, status := 0 })]
  acks := [{ src := 1, home := 1, sdie := 0, eng := 0, seq := 0, wrap := 0, status := 7, keyGen := 0, key := 0 }] }
theorem witness_ReadsAndAcknowledgements :
    (held_.gang 3).holds = [] ++ { token := 5, cohort := 0, lanes := 3, op := none, resumePc := 4, resumable := true, marked := none } :: [] ∧
    (held_.gang 3).status = .resident ∧ (held_.gang 3).guests = [] ∧ 111 < (held_.gang 3).allot ∧
    (∀ x ∈ [(some 7, some 3, none), (none, none, none), (none, none, some 2)], let s := acked x.1 x.2.1 x.2.2
      s.acks.length = 1 ∧ (s.die 0).fenced = false ∧ s.ignores 1 0 = false ∧ s.accepts 1 0 0 0 = true ∧
      s.unacked = [] ++ waits x.1 x.2.1 x.2.2 true :: [] ∧ tabFind s.ops 7 = some (tileOp .remote) ∧ (tabFind s.jobs 2).isSome = true) ∧
    (let s : State := { base with unacked := [waits none none none false] }
     s.unacked[0]? = some (waits none none none false) ∧ (waits none none none false).pkt.wrap < 65536 ∧
     (s.unacked.filter fun y => y.sent && y.pkt.stream == (waits none none none false).pkt.stream).length < 4096) ∧
    (let s : State := { base with jobs := [(2, { request := packet 6 15 .none, arrived := false, status := 0 })] }
     (∃ j, tabFind s.jobs 2 = some j ∧ j.arrived = false) ∧ s.unacked = [] ∧ s.serving = []) := by
  refine ⟨by decide, by decide, by decide, by decide, by decide, by decide, ⟨_, rfl, rfl⟩, rfl, rfl⟩
/-- A ply that waits to leave; two plies of one packet in the arrival queue; a gang of origin whose slice 1 is away. -/
def leaving : State := { base with departing := [(6, { plyOf false false with dst := 1 })] }
def arriving : State := { base with dies := [(0, { base.die 0 with arrivals := [plyOf false false, { plyOf false false with slice := 2 }] })] }
def expecting : State := withGang fun g => { g with away := [{ slice := 1, lanes := 0xF0 }], frags := g.frags.filter fun f => f.slice != 1 }
theorem witness_PlyEvents :
    tabFind leaving.departing 6 = some { plyOf false false with dst := 1 } ∧ leaving.ops = [] ∧ (leaving.pkg 0).trust ≠ 1 ∧
    (arriving.die 0).arrivals = [] ++ plyOf false false :: [{ plyOf false false with slice := 2 }] ∧
    (arriving.task 1).tcb.rook = decide (64 - (arriving.die 0).rookn ≤ 0 % 64) ∧ (arriving.core 0).fenced = false ∧ arriving.guestSlots 0 < 256 ∧
    (∀ i < 64, arriving.guestSlots i = 0) ∧
    (expecting.gang 3).allot ≤ 512 ∧ (expecting.gang 3).status = .resident ∧ (expecting.gang 3).guests = [] ∧ (expecting.gang 3).frags ≠ [] ∧
    IsLowest (BitVec.ofNat 32 ((plyOf true false).lanes.toNat * 2 ^ (4 * 1))) 4 ∧
    (∀ c ∈ (expecting.gang 3).cohorts, c.id < (expecting.gang 3).nextCohort) := by
  unfold IsLowest; decide
theorem witness_FencesAndHost :
    base.pkgExists 0 = true ∧ (base.die 1).stackFenced = [] ∧ (base.die 7).tierFenced = false ∧ (base.pkg 0).link1Fenced = false ∧ (base.pkg 0).link1Fitted = true ∧
    (base.die 1).fencedMask.getLsbD 1 = false ∧ base.fields = [] ∧ base.pending = [] ∧ base.unacked = [] ∧
    (base.pkg 0).portFenced = [] ∧ (base.die 0).fenced = false ∧ (base.core 63).fenced = false ∧
    tabFind base.blocks 2 = some (base.block 2) ∧ (base.block 2).status.occupies = true ∧ (base.task 1).status = .running ∧
    (let s := base
     (s.pkg 0).ready = true ∧ s.isUp 0 = true ∧ State.reset.isUp 0 = false ∧ s.gangs.all (fun g => g.2.status != .saved) = true ∧ s.mem.wf = true ∧ s.heldCell (tierCell 0 false 0) = false ∧ s.inStep (tierCell 0 false 0) = false ∧
     s.cellFenced (tierCell 0 false 0) = false) ∧
    base.dieExists 0 = true ∧ 0x20000200 % 512 = 0 ∧
    (∃ l, base.walk 0 0x20000200 = .ok l ∧ l.w = true ∧ l.encl = false ∧ base.ignores l.die 0 = false ∧ blRow l.pa < 65515 ∧
      base.marked l.die (interleaved (cellAddr l.cell)) = false) ∧
    base.walk 0 0x40000000 = .error { code := 8, info := 2 } := by
  constructorm* _ ∧ _
  all_goals first | decide | exact ⟨leafAt 0x20000200, by decide⟩
/-- Three participants of which one holds package 0, and a package whose enclave needs no signature. What keys and signatures
hold is open (assumption log 1): that a FORM is genuine is assumed of them. -/
def part (i : Nat) (ms : List Nat) : Participant := { index := i, pubKey := i, members := ms, kemCipher := 0, wrappedKey := 0, sig := 0 }
def form : FormBody := { gen := 1, quorum := 2, parts := [part 0 [0], part 15 [4095], part 7 []], enclMap := [(7, 511)] }
def enclaved : State := { base with pkgs := [(0, { Pkg.reset with trust := 1, parts := form.parts, quorum := 0 })] }
theorem witness_TrustMessages :
    base.pkgExists 0 = true ∧ (base.pkg 0).trust ≠ 2 ∧ base.mem.wf = true ∧ base.pending = [] ∧ base.cores = [] ∧
    (2 ≤ form.parts.length ∧ form.parts.length ≤ 16 ∧ form.parts.length < 2 * form.quorum ∧ form.quorum ≤ form.parts.length ∧
      (form.parts.map (·.index)).Nodup ∧ (∀ q ∈ form.parts, q.index < 16 ∧ ∀ m ∈ q.members, m < 4096) ∧
      ∀ e ∈ form.enclMap, e.1 < 8 ∧ e.2 < 512) ∧
    (base.pkg 0).gen < form.gen ∧ (form.parts.filter fun q => q.members.contains 0).length = 1 ∧
    (enclaved.pkg 0).trust = 1 ∧ (enclaved.pkg 0).gen = 0 ∧ 15 ∉ (enclaved.pkg 0).revoked ∧ (∃ q ∈ (enclaved.pkg 0).parts, q.index = 15) ∧
    (enclaved.pkg 0).quorum ≤ ([] : List Nat).length ∧
    0 ∉ ((enclaved.pkg 0).parts.filter fun q => q.index == 15).flatMap (·.members) ∧
    0 ∈ ((enclaved.pkg 0).parts.filter fun q => q.index == 0).flatMap (·.members) ∧ (∀ e ∈ (enclaved.pkg 0).enclMap, e.1 < 8) := by
  decide
theorem witness_genuine (h : ∀ k m x, Config.sigValid k m x = true) (h' : ∀ a b c, Config.unwrapKey a b c ≠ none) :
    (∀ q ∈ form.parts, Config.sigValid q.pubKey (leBytes 1568 q.kemCipher ++ leBytes 48 q.wrappedKey) q.sig = true) ∧
    ∀ q ∈ form.parts, Config.unwrapKey (base.pkg 0).kemSeed q.kemCipher q.wrappedKey ≠ none :=
  ⟨fun _ _ => h _ _ _, fun _ _ => h' _ _ _⟩

/-! ### The machine -/

/-- Slot 0's turn, an event's turn, and no turn at all; the run's words are NOP, a reserved word and NOPs. -/
def turn (c : List Choice) (pos : Nat) : State := { base with
  schedule := c, focus := none, runs := [(0, { theRun with pos := pos, words := 0x00E00000 :: 0x54E00008 :: List.replicate 22 0x00E00000 })] }
theorem witness_StepRunsDecoded :
    (turn [.event (.cyclesAdvance 0)] 0).schedule = .event (.cyclesAdvance 0) :: [] ∧
    (let s := turn [.issue 0] 0
     s.schedule = .issue 0 :: [] ∧ (∃ r, tabFind s.runs 0 = some r ∧ tabFind s.gangs r.gang = some theGang ∧ r.pos % 3 = 0 ∧
       decodeWords ((r.words.drop r.pos).take 1) = .ok (.nop hd, []))) ∧
    (∃ r, tabFind (turn [.issue 0] 1).runs 0 = some r ∧ decodeWords ((r.words.drop 1).take 2) = .error .qualifier) ∧
    (turn [] 0).schedule = [] := by
  refine ⟨rfl, ⟨rfl, _, rfl, by decide, by decide, by decide⟩, ⟨_, rfl, by decide⟩, rfl⟩
/-- Slot 1's run stands within an issue group, so that slot 0's may not begin one, unless it has read for it. -/
def between (paired : Bool) : State := { turn [.issue 0] 0 with
  runs := [(0, { theRun with pos := 0, paired := paired }), (1, { theRun with pos := 1, words := List.replicate 24 0x80E00000 })] }
theorem witness_GroupsWait :
    (between false).schedule = .issue 0 :: [] ∧ (between false).mayIssue 0 { theRun with pos := 0 } = false ∧
    (between true).mayIssue 0 { theRun with pos := 0, paired := true } = true := by decide
theorem witness_RoundTrip : (Instr.atom (hg 6) .cas .i64 .acqrel .s false (v 108) (v 126) 0x3FFFFF).WellFormed := ⟨by decide, by decide⟩
/-- A step from a state whose memory has its form. -/
theorem witness_MemoryKept : (turn [.event (.cyclesAdvance 0)] 0).mem.wf = true ∧ ∃ t, step (turn [.event (.cyclesAdvance 0)] 0) = .next t :=
  ⟨by decide, _, rfl⟩
/-- A step from a state whose gangs are in their bounds. -/
theorem witness_GangsKept : (∀ g ∈ (turn [.event (.cyclesAdvance 0)] 0).gangs, g.2.Bounded) ∧
    ∃ t, step (turn [.event (.cyclesAdvance 0)] 0) = .next t :=
  ⟨by unfold Machine.Gang.Bounded; decide, _, rfl⟩

end Sys2Proof.Tests
end

/-! # Numbers: conversions, scales, dot products, the generator; packets at their home -/

namespace Sys2Proof.Numbers
open Sys2Proof Machine


/-! ## Formats and exact values -/

/-- A format with more than one binade and at least one fraction bit. -/
def Regular (f : Fmt) : Prop := 2 ≤ f.ew ∧ 1 ≤ f.mw

theorem regular_cvt (t : CvtFmt) : Regular t.fmt := by cases t <;> exact ⟨by decide, by decide⟩
theorem regular_narrow (t : NarrowFmt) : Regular t.fmt := by cases t <;> exact ⟨by decide, by decide⟩
theorem regular_floatTy (t : FloatTy) : Regular t.fmt := by cases t <;> exact ⟨by decide, by decide⟩
theorem regular_fp32 : Regular fp32 := ⟨by decide, by decide⟩

theorem numberOf_fin_cast (neg : Bool) (m : Nat) (e : Int) :
    ((numberOf (.fin neg m e) : ℚ) : ℝ) = (if neg then -1 else 1) * ((m : ℝ) * 2 ^ e) := by
  cases neg <;> simp [numberOf]

theorem abs_numberOf_fin (neg : Bool) (m : Nat) (e : Int) :
    |((numberOf (.fin neg m e) : ℚ) : ℝ)| = (m : ℝ) * 2 ^ e := by
  have h : (0 : ℝ) ≤ m * 2 ^ e := by positivity
  rw [numberOf_fin_cast]
  cases neg <;> simp [abs_of_nonneg h, abs_neg]

/-! ## The one rounding -/

/-- A value, rounded, is its number rounded once; a zero keeps its sign. -/
theorem round_roundsTo {f : Fmt} (hf : Regular f) (md : Mode) (neg : Bool) (m : Nat) (e : Int) :
    RoundsTo f md neg (numberOf (.fin neg m e) : ℚ) (f.round md neg m e) := by
  obtain ⟨hew, hmw⟩ := hf
  by_cases hm : m = 0
  · exact .inl ⟨by simp [numberOf, hm], by simp [Fmt.round, hm]⟩
  · have hr := round_rounded (by omega) hmw md neg hm e
    have hpos : (0 : ℝ) < m * 2 ^ e := by positivity
    rw [numberOf_fin_cast]
    cases neg
    · exact .inr (.inl ⟨by simpa using hpos, by simpa using hr⟩)
    · exact .inr (.inr ⟨by simpa using hpos, by simpa using hr⟩)

/-- A signed exact value, rounded, is its number rounded once. -/
theorem roundInt_roundsTo {f : Fmt} (hf : Regular f) (md : Mode) (zeroNeg : Bool) (m e : Int) :
    RoundsTo f md zeroNeg ((m : ℝ) * 2 ^ e) (f.roundInt md zeroNeg m e) := by
  obtain ⟨hew, hmw⟩ := hf
  unfold Fmt.roundInt
  split
  · next hm => exact .inl ⟨by simp [hm], rfl⟩
  · next hm =>
    have hr := round_rounded (f := f) (by omega) hmw md (m < 0) (Int.natAbs_ne_zero.mpr hm) e
    have habs : ((m.natAbs : Nat) : ℝ) = |(m : ℝ)| := by simp
    rw [habs] at hr
    have hp := two_zpow_pos e
    rcases lt_or_gt_of_ne hm with h | h
    · have hlt : (m : ℝ) < 0 := by exact_mod_cast h
      refine .inr (.inr ⟨mul_neg_of_neg_of_pos hlt hp, ?_⟩)
      rw [abs_of_neg hlt, neg_mul] at hr
      simpa [h] using hr
    · have hgt : (0 : ℝ) < m := by exact_mod_cast h
      refine .inr (.inl ⟨mul_pos hgt hp, ?_⟩)
      rw [abs_of_pos hgt] at hr
      simpa [not_lt.mpr h.le] using hr

/-- A float value into a float format, as R72 has it. -/
theorem ofVal_floatRule {f : Fmt} (hf : Regular f) (md : Mode) (v : FVal) : FloatRule f md v (f.ofVal md v) := by
  cases v with
  | nan s =>
    simp only [FloatRule, Fmt.ofVal, FVal.isNan, if_true]
    split
    · rfl
    · rfl
  | inf n =>
    simp only [FloatRule, Fmt.ofVal, FVal.isNan, FVal.isInf, Bool.false_eq_true, if_false, if_true]
    split
    · rfl
    · rfl
  | fin n m e => exact round_roundsTo hf md n m e

/-! ## Rounding to an integer -/

theorem fsign_eq_numberOf {n : Bool} {m q : Nat} {e : Int} :
    ((fsign n q : Int) : ℚ) = numberOf (.fin n m e) ↔ (q : ℝ) * 2 ^ (0 : Int) = m * 2 ^ e := by
  have h : ((fsign n q : Int) : ℚ) = numberOf (.fin n m e) ↔ (q : ℚ) = m * 2 ^ e := by
    cases n <;> simp [fsign, numberOf]
  rw [h, zpow_zero, mul_one, ← Rat.cast_inj (α := ℝ)]
  push_cast
  rfl

/-- Rounding to an integer is inexact where the integer is not the number. -/
theorem flIf_inexact {n : Bool} {md : Mode} {m : Nat} {e : Int} :
    flIf (quantize md n m e 0).2 flNX =
      if ((fsign n (quantize md n m e 0).1 : Int) : ℚ) = numberOf (.fin n m e) then 0 else flNX := by
  have h : (quantize md n m e 0).2 = false ↔ ((fsign n (quantize md n m e 0).1 : Int) : ℚ) = numberOf (.fin n m e) := by
    rw [fsign_eq_numberOf]; exact (quantize_rounds md n m e 0).2
  cases hi : (quantize md n m e 0).2 with
  | false => rw [if_pos (h.mp hi)]; rfl
  | true => rw [if_neg (fun he => by simp [h.mpr he] at hi)]; rfl

theorem floatToInt_fin (md : Mode) (lo hi : Int) (n : Bool) (m : Nat) (e : Int) :
    floatToInt md lo hi (.fin n m e) =
      let k := fsign n (quantize md n m e 0).1
      if k < lo then (lo, flNV ||| flNX) else if hi < k then (hi, flNV ||| flNX)
      else (k, if (k : ℚ) = numberOf (.fin n m e) then 0 else flNX) := by
  simp only [floatToInt, roundToInt, flIf_inexact]

/-- A float value into the integers from lo to hi, as R72 has it. -/
theorem floatToInt_rule (md : Mode) (lo hi : Int) (v : FVal) : IntegerRule md lo hi v (floatToInt md lo hi v) := by
  cases v with
  | nan s => rfl
  | inf n => rfl
  | fin n m e =>
    have hk (k : Int) (r : Int × FlagSet) (h : r = if k < lo then (lo, flNV ||| flNX) else if hi < k then (hi, flNV ||| flNX)
        else (k, if (k : ℚ) = numberOf (.fin n m e) then 0 else flNX)) :
        if k < lo then r = (lo, flNV ||| flNX) else if hi < k then r = (hi, flNV ||| flNX)
        else r = (k, if (k : ℚ) = numberOf (.fin n m e) then 0 else flNX) := by
      rw [h]; split_ifs <;> rfl
    refine ⟨(quantize md n m e 0).1, ?_, hk (fsign n (quantize md n m e 0).1) _ (floatToInt_fin ..)⟩
    rw [abs_numberOf_fin]
    exact (quantize_rounds md n m e 0).1

/-! ## Numbers that a format holds exactly -/

/-- A number on the grid rounds to itself in every mode. -/
theorem roundsAt_exact {md : Mode} {neg : Bool} {k : Int} {N j : Nat} (h : RoundsAt md neg (j * (2 : ℝ) ^ k) k N) : N = j := by
  obtain ⟨n, h1, h2, h3⟩ := h
  have hp := two_zpow_pos k
  have hn : n = j := by
    have a : (n : ℝ) ≤ j := le_of_mul_le_mul_right h1 hp
    have b : (j : ℝ) < n + 1 := lt_of_mul_lt_mul_right h2 hp.le
    have a' : n ≤ j := by exact_mod_cast a
    have b' : j < n + 1 := by exact_mod_cast b
    omega
  subst hn
  rw [sub_self] at h3
  rcases md with r | draw
  · cases r with
    | rne =>
      have hh : (0 : ℝ) < 2 ^ k / 2 := by positivity
      rcases h3 with ⟨-, h⟩ | ⟨h, -⟩ | ⟨h, -⟩
      · exact h
      · exact absurd h (not_lt.mpr hh.le)
      · exact absurd h hh.ne
    | rz => exact h3
    | rd => exact h3.elim (·.2) fun h => absurd h.1 (lt_irrefl _)
    | ru => exact h3.elim (·.2) fun h => absurd h.1 (lt_irrefl _)
  · obtain ⟨w, hw1, hw2, hw⟩ := h3
    rw [zero_mul] at hw1 hw2 hw
    have hw0 : w = 0 := by
      have : (w : ℝ) ≤ 0 := by by_contra hc; exact absurd hw1 (not_le.mpr (mul_pos (not_le.mp hc) hp))
      exact_mod_cast le_antisymm this (Nat.cast_nonneg w)
    subst hw0
    simpa using hw

/-- A magnitude that a format holds exactly: a significand and a place of the format, below its largest finite value. -/
def Fits (f : Fmt) (x : ℝ) : Prop :=
  (∃ (q : Nat) (i : Int), x = q * (2 : ℝ) ^ i ∧ q < 2 ^ (f.mw + 1) ∧ f.emin - f.mw ≤ i) ∧
    x ≤ f.maxSig * (2 : ℝ) ^ (f.emax - f.mw)

/-- The rounding of a number that the format holds is that number, with no flag. -/
theorem rounded_exact {f : Fmt} {md : Mode} {neg : Bool} {x : ℝ} {r : Nat × FlagSet} (h : Rounded f md neg x r) (hx : Fits f x) :
    r.2 = 0 ∧ r.1 < 2 ^ f.width ∧ ∃ m e, f.value r.1 = .fin neg m e ∧ (m : ℝ) * 2 ^ e = x := by
  obtain ⟨E, N, U, hE, -, hN, -, h⟩ := h
  obtain ⟨⟨q, i, hq, hq1, hi⟩, hle⟩ := hx
  have hk : max E f.emin - f.mw ≤ i := by
    have hlt : (2 : ℝ) ^ E < 2 ^ ((f.mw + 1 : Nat) + i : Int) := by
      refine lt_of_le_of_lt hE ?_
      rw [hq, zpow_add₀ (by norm_num), zpow_natCast]
      exact mul_lt_mul_of_pos_right (by exact_mod_cast hq1) (two_zpow_pos i)
    have := (zpow_lt_zpow_iff_right₀ (by norm_num : (1 : ℝ) < 2)).mp hlt
    omega
  obtain ⟨k, hkk⟩ : ∃ k, max E f.emin - f.mw = k := ⟨_, rfl⟩
  rw [hkk] at hk hN h
  have hgrid : x = (q * 2 ^ (i - k).toNat : Nat) * (2 : ℝ) ^ k := by
    rw [hq]
    push_cast
    rw [mul_assoc, ← zpow_natCast, Int.toNat_of_nonneg (by omega), ← zpow_add₀ (by norm_num)]
    congr 2; ring
  rw [hgrid] at hN
  rw [roundsAt_exact hN, ← hgrid, if_neg (not_lt.mpr hle)] at h
  obtain ⟨⟨hlt, m, e, hv, hme⟩, hfl⟩ := h
  exact ⟨hfl.elim (·.2) fun h => absurd rfl h.1, hlt, m, e, hv, hme⟩

theorem round_exact {f : Fmt} (hf : Regular f) (md : Mode) (neg : Bool) {m : Nat} {e : Int} (h : Fits f (m * 2 ^ e)) :
    (f.round md neg m e).2 = 0 ∧ (f.round md neg m e).1 < 2 ^ f.width ∧
      ∃ m' e', f.value (f.round md neg m e).1 = .fin neg m' e' ∧ (m' : ℝ) * 2 ^ e' = m * 2 ^ e := by
  obtain ⟨hew, hmw⟩ := hf
  by_cases hm : m = 0
  · have hz : f.round md neg m e = (f.signed neg 0, 0) := by simp [Fmt.round, hm]
    have hs := signed_fields f neg (F := 0) (M := 0) (by positivity) (by positivity)
    rw [Nat.zero_mul] at hs
    rw [hz]
    exact ⟨rfl, hs.2.2.2, 0, _, value_subnormal (by omega) (by positivity), by simp [hm]⟩
  · exact rounded_exact (round_rounded (by omega) hmw md neg hm e) h

theorem emax_eq (f : Fmt) : f.emax = (if f.sp = .ieee then (2 ^ f.ew - 2 : Nat) else (2 ^ f.ew - 1 : Nat)) - (f.bias : Int) := by
  unfold Fmt.emax
  cases f.sp <;> rfl
theorem maxSig_eq (f : Fmt) : f.maxSig = if f.sp = .nanOnly then 2 ^ (f.mw + 1) - 2 else 2 ^ (f.mw + 1) - 1 := by
  unfold Fmt.maxSig
  cases f.sp <;> rfl
theorem le_maxSig {f : Fmt} (hf : Regular f) : 2 ^ f.mw ≤ f.maxSig := by
  have h2 : 2 ^ 1 ≤ 2 ^ f.mw := Nat.pow_le_pow_right (by omega) hf.2
  rw [maxSig_eq, Nat.pow_succ]
  split <;> omega
theorem emin_lt_emax {f : Fmt} (hf : Regular f) : f.emin < f.emax := by
  have h2 : 2 ^ 2 ≤ 2 ^ f.ew := Nat.pow_le_pow_right (by omega) hf.1
  rw [emax_eq, Fmt.emin]
  split <;> omega

/-- The patterns of finite values: exponent field 0, or one with an implied bit that is no special. -/
theorem value_fin_cases {f : Fmt} {x : Nat} {neg : Bool} {m : Nat} {e : Int} (h : f.value x = .fin neg m e) :
    (m = x % 2 ^ f.mw ∧ e = f.emin - f.mw) ∨
    ∃ F : Nat, 1 ≤ F ∧ F < 2 ^ f.ew ∧ m = 2 ^ f.mw + x % 2 ^ f.mw ∧ e = F - f.bias - f.mw ∧
      (f.sp = .ieee → F ≠ 2 ^ f.ew - 1) ∧ (f.sp = .nanOnly → F = 2 ^ f.ew - 1 → x % 2 ^ f.mw ≠ 2 ^ f.mw - 1) := by
  have hF : x / 2 ^ f.mw % 2 ^ f.ew < 2 ^ f.ew := Nat.mod_lt _ (by positivity)
  simp only [Fmt.value] at h
  generalize x / 2 ^ f.mw % 2 ^ f.ew = F at hF h
  split at h
  · split at h <;> cases h
  · next h1 =>
    split at h
    · cases h
    · next h2 =>
      simp only [Bool.and_eq_true, beq_iff_eq, not_and] at h1 h2
      split at h <;> simp only [FVal.fin.injEq] at h <;> obtain ⟨-, hm, he⟩ := h
      · exact .inl ⟨hm.symm, he.symm⟩
      · next h3 => exact .inr ⟨F, by omega, hF, hm.symm, he.symm, fun hs hF => h1 hF hs, fun hs hF => h2 ⟨hF, hs⟩⟩

/-- What a pattern stands for, its format holds. -/
theorem value_fits {f : Fmt} (hf : Regular f) {x : Nat} {neg : Bool} {m : Nat} {e : Int} (h : f.value x = .fin neg m e) :
    m < 2 ^ (f.mw + 1) ∧ f.emin - f.mw ≤ e ∧ Fits f (m * 2 ^ e) := by
  have hM : x % 2 ^ f.mw < 2 ^ f.mw := Nat.mod_lt _ (by positivity)
  have hpow : 2 ^ (f.mw + 1) = 2 * 2 ^ f.mw := by rw [Nat.pow_succ]; ring
  have hms := le_maxSig hf
  suffices hs : m < 2 ^ (f.mw + 1) ∧ f.emin - f.mw ≤ e ∧ (e < f.emax - f.mw ∨ (e = f.emax - f.mw ∧ m ≤ f.maxSig)) by
    obtain ⟨h1, h2, h3⟩ := hs
    refine ⟨h1, h2, ⟨m, e, rfl, h1, h2⟩, ?_⟩
    rcases h3 with h3 | ⟨rfl, h3⟩
    · have hms' : (m : ℝ) ≤ f.maxSig * 2 := by exact_mod_cast (show m ≤ f.maxSig * 2 by omega)
      have he : (2 : ℝ) ^ (e + 1) ≤ 2 ^ (f.emax - f.mw) := zpow_le_zpow_right₀ (by norm_num) (by omega)
      rw [zpow_add₀ (by norm_num), zpow_one] at he
      calc (m : ℝ) * 2 ^ e ≤ f.maxSig * 2 * 2 ^ e := mul_le_mul_of_nonneg_right hms' (two_zpow_pos e).le
        _ = f.maxSig * (2 ^ e * 2) := by ring
        _ ≤ f.maxSig * 2 ^ (f.emax - f.mw) := mul_le_mul_of_nonneg_left he (Nat.cast_nonneg _)
    · exact mul_le_mul_of_nonneg_right (by exact_mod_cast h3) (two_zpow_pos _).le
  rcases value_fin_cases h with ⟨rfl, rfl⟩ | ⟨F, hF1, hF, rfl, rfl, hieee, hnan⟩
  · have := emin_lt_emax hf
    exact ⟨by omega, le_refl _, .inl (by omega)⟩
  · have hemin : f.emin = 1 - (f.bias : Int) := rfl
    refine ⟨by omega, by omega, ?_⟩
    rw [emax_eq, maxSig_eq]
    by_cases h1 : f.sp = .ieee
    · have := hieee h1
      simp only [h1, if_true, reduceCtorEq, if_false]
      omega
    · by_cases h2 : f.sp = .nanOnly
      · have := hnan h2
        simp only [h2, reduceCtorEq, if_false, if_true]
        omega
      · simp only [h1, h2, if_false]
        omega

/-- What fits a format fits every format with more fraction bits, a lower least place and a larger greatest value. -/
theorem Fits.widen {f g : Fmt} {x : ℝ} (h : Fits f x) (hmw : f.mw ≤ g.mw) (hmin : g.emin - g.mw ≤ f.emin - f.mw)
    (hmax : (f.maxSig : ℝ) * 2 ^ (f.emax - f.mw) ≤ g.maxSig * 2 ^ (g.emax - g.mw)) : Fits g x := by
  obtain ⟨⟨q, i, hx, hq, hi⟩, hle⟩ := h
  exact ⟨⟨q, i, hx, lt_of_lt_of_le hq (Nat.pow_le_pow_right (by omega) (by omega)), by omega⟩, hle.trans hmax⟩
theorem fits_fp32_of_narrow (nf : NarrowFmt) {x : ℝ} (h : Fits nf.fmt x) : Fits fp32 x := by
  refine h.widen ?_ ?_ ?_
  · cases nf <;> decide
  · cases nf <;> decide
  · cases nf <;> norm_num [NarrowFmt.fmt, Fmt.maxSig, Fmt.emax, fp32, fe4m3, fe5m2, fe3m2, fe2m3, fe2m1, fp16, fbf16]
/-- An integer of at most 24 bits fits FP32, at any place within its range. -/
theorem fits_fp32 {m : Nat} {e : Int} (hm : m < 2 ^ 24) (h1 : -149 ≤ e) (h2 : e ≤ 104) : Fits fp32 (m * 2 ^ e) := by
  refine ⟨⟨m, e, rfl, hm, h1⟩, ?_⟩
  have a : (m : ℝ) ≤ (fp32.maxSig : Nat) := Nat.cast_le.mpr (Nat.le_sub_one_of_lt hm)
  have b : (2 : ℝ) ^ e ≤ 2 ^ (fp32.emax - fp32.mw) :=
    zpow_le_zpow_right₀ (by norm_num) (h2.trans_eq (by decide : (104 : Int) = fp32.emax - fp32.mw))
  exact mul_le_mul a b (two_zpow_pos e).le (Nat.cast_nonneg _)

/-! ## An integral value of the format itself (R129) -/

/-- A rounding to an integer adds at most one. -/
theorem quantize_le_of_lt {md : Mode} {neg : Bool} {m b : Nat} {e : Int} (h : (m : ℝ) * 2 ^ e < b) :
    (quantize md neg m e 0).1 ≤ b := by
  obtain ⟨n, hn, -, hN⟩ := roundsAt_bounds (quantize_rounds md neg m e 0).1
  rw [zpow_zero, mul_one] at hn
  have : n < b := by exact_mod_cast lt_of_le_of_lt hn h
  omega

/-- A format whose values beyond its fraction are integral, and which holds every integer up to there. -/
def HoldsIntegers (f : Fmt) : Prop := f.emin ≤ f.mw ∧ (f.mw : Int) ≤ f.emax

theorem kept_fits {f : Fmt} (hf : Regular f) (hi : HoldsIntegers f) (md : Mode) {x : Nat} {neg : Bool} {m : Nat} {e : Int}
    (h : f.value x = .fin neg m e) (he : e < 0) : Fits f (((quantize md neg m e 0).1 : ℝ) * 2 ^ (0 : Int)) := by
  have hm : (m : ℝ) < 2 ^ (f.mw + 1) := by exact_mod_cast (value_fits hf h).1
  have h1 : (2 : ℝ) ^ e ≤ 2 ^ (-1 : Int) := zpow_le_zpow_right₀ (by norm_num) (by omega)
  have hx : (m : ℝ) * 2 ^ e < (2 ^ f.mw : Nat) := by
    calc (m : ℝ) * 2 ^ e ≤ m * 2 ^ (-1 : Int) := mul_le_mul_of_nonneg_left h1 (Nat.cast_nonneg m)
      _ < 2 ^ (f.mw + 1) * 2 ^ (-1 : Int) := mul_lt_mul_of_pos_right hm (two_zpow_pos _)
      _ = (2 ^ f.mw : Nat) := by push_cast; rw [pow_succ, zpow_neg_one]; ring
  have hq := quantize_le_of_lt (md := md) (neg := neg) hx
  obtain ⟨hmin, hmax⟩ := hi
  refine ⟨⟨_, 0, rfl, lt_of_le_of_lt hq (Nat.pow_lt_pow_right (by omega) (by omega)), by omega⟩, ?_⟩
  have a : ((quantize md neg m e 0).1 : ℝ) ≤ (f.maxSig : Nat) := by exact_mod_cast hq.trans (le_maxSig hf)
  exact mul_le_mul a (zpow_le_zpow_right₀ (by norm_num) (by omega)) (by positivity) (Nat.cast_nonneg _)

/-- CVT with INT. -/
theorem toIntegral_rule {f : Fmt} (hf : Regular f) (hi : HoldsIntegers f) (md : Mode) (x : Nat) :
    IntegralRule f md (f.value x) (f.toIntegral md (f.value x)) := by
  cases hv : f.value x with
  | nan s => exact ofVal_floatRule hf md (.nan s)
  | inf n => exact ofVal_floatRule hf md (.inf n)
  | fin n m e =>
    -- the result holds the kept integer, and its flag says whether that is the number
    have key (r : Nat × FlagSet) (h2 : r.2 = flIf (quantize md n m e 0).2 flNX) (m' : Nat) (e' : Int)
        (h1 : f.value r.1 = .fin n m' e') (hm : (m' : ℝ) * 2 ^ e' = (quantize md n m e 0).1 * 2 ^ (0 : Int)) :
        IntegralRule f md (.fin n m e) r := by
      refine ⟨(quantize md n m e 0).1, ?_, ?_⟩
      · rw [abs_numberOf_fin]; exact (quantize_rounds md n m e 0).1
      · rw [h1]
        exact ⟨rfl, rfl, rfl, (fsign_eq_numberOf.mpr hm.symm).symm, h2.trans flIf_inexact⟩
    by_cases he : 0 ≤ e
    · have hix : (quantize md n m e 0).2 = false := by simp [quantize, he]
      have hr : f.toIntegral md (.fin n m e) = ((f.round md n m e).1, 0) := by simp [Fmt.toIntegral, he]
      obtain ⟨-, -, m', e', h1, hm⟩ := round_exact hf md n (value_fits hf hv).2.2
      rw [hr]
      exact key _ (by simp [hix, flIf]) m' e' h1 (hm.trans ((quantize_rounds md n m e 0).2.mp hix).symm)
    · have hr : f.toIntegral md (.fin n m e) =
          ((f.round (.to .rne) n (quantize md n m e 0).1 0).1, flIf (quantize md n m e 0).2 flNX) := by
        simp [Fmt.toIntegral, he]
      obtain ⟨-, -, m', e', h1, hm⟩ := round_exact hf (.to .rne) n (kept_fits hf hi md hv (by omega))
      rw [hr]
      exact key _ rfl m' e' h1 hm

/-! ## CVT (R72, R128, R129) -/

theorem intLo_eq (sg : Bool) (w : Nat) : intLo sg w = rangeLo sg w := by
  cases sg <;> simp [intLo, rangeLo]
theorem intHi_eq (sg : Bool) (w : Nat) : intHi sg w = rangeHi sg w := by
  cases sg <;> simp [intHi, rangeHi]
theorem rangeLo_le_rangeHi (sg : Bool) (w : Nat) : rangeLo sg w ≤ rangeHi sg w := by
  have h1 : (0 : Int) < 2 ^ (w - 1) := by positivity
  have h2 : (0 : Int) < 2 ^ w := by positivity
  cases sg
  · simp only [rangeLo, rangeHi, Bool.false_eq_true, if_false]; omega
  · simp only [rangeLo, rangeHi, if_true]; omega
theorem clampInt_eq {lo hi : Int} (h : lo ≤ hi) (n : Int) : clampInt lo hi n = max lo (min hi n) := by
  unfold clampInt
  split
  · omega
  · split <;> omega

/-- An integer format of the conversion words has 4, 8, 16, 32 or 64 bits. -/
theorem intWidth_cases {t : CvtFmt} (h : t.isFloat = false) :
    t.intWidth = 4 ∨ t.intWidth = 8 ∨ t.intWidth = 16 ∨ t.intWidth = 32 ∨ t.intWidth = 64 := by
  cases t <;> first | (simp [CvtFmt.isFloat] at h; done) | decide
theorem intWidth_eq_four {t : CvtFmt} : (t == .i4 || t == .n4) = (t.intWidth == 4) := by cases t <;> decide

/-- A narrow integer is extended to 32 bits by its signedness. -/
theorem intBits_eq (sg : Bool) {w : Nat} (hw : w = 4 ∨ w = 8 ∨ w = 16 ∨ w = 32 ∨ w = 64) (n : Int) :
    intBits sg w n = intResult sg w n := by
  have hs (hw0 : 0 < w) : wrapN 32 (sval w (wrapN w n)) = ((BitVec.ofInt w n).signExtend 32).toNat := by
    rw [wrapN_eq_toNat, wrapN_eq_toNat, sval_eq_toInt hw0, BitVec.ofNat_toNat, BitVec.setWidth_eq]; rfl
  unfold intBits intResult
  by_cases h64 : w = 64
  · subst h64; simp [wrapN_eq_toNat]
  · cases sg with
    | false => simp [h64, wrapN_eq_toNat]
    | true =>
      by_cases h32 : w = 32
      · subst h32; simp [wrapN_eq_toNat]
      · have : w < 32 := by omega
        simp [h64, this, hs (by omega)]

theorem holdsIntegers_cvt (t : CvtFmt) : HoldsIntegers t.fmt := by cases t <;> exact ⟨by decide, by decide⟩

/-- What CVT and CVTSR compute. -/
theorem cvtBits_rule (dst src : CvtFmt) (md : Mode) (sat int : Bool) (x : Nat) :
    CvtRule dst src md sat int x (cvtBits dst src md sat int x) := by
  cases hs : src.isFloat with
  | true =>
    cases hi : int with
    | true =>
      simp only [CvtRule, cvtBits, hs, if_true]
      exact toIntegral_rule (regular_cvt src) (holdsIntegers_cvt src) md _
    | false =>
      simp only [CvtRule, cvtBits, hs, if_true, Bool.false_eq_true, if_false]
      cases hd : dst.isFloat with
      | true => exact ofVal_floatRule (regular_cvt dst) md _
      | false =>
        simp only [Bool.false_eq_true, if_false, intLo_eq, intHi_eq, intBits_eq _ (intWidth_cases hd)]
        exact ⟨_, floatToInt_rule md _ _ _, rfl⟩
  | false =>
    have hw : 0 < src.intWidth := by have := intWidth_cases hs; omega
    simp only [CvtRule, cvtBits, hs, Bool.false_eq_true, if_false, sval_eq_toInt hw, BitVec.toNat_ofNat, Bool.or_assoc,
      intWidth_eq_four]
    cases hd : dst.isFloat with
    | true =>
      simpa using roundInt_roundsTo (regular_cvt dst) md false
        (if src.signedInt then (BitVec.ofNat src.intWidth x).toInt else ((x % 2 ^ src.intWidth : Nat) : Int)) 0
    | false =>
      simp only [Bool.false_eq_true, if_false, intLo_eq, intHi_eq, intBits_eq _ (intWidth_cases hd),
        clampInt_eq (rangeLo_le_rangeHi _ _)]
      split <;> rfl

/-! ## Elements of packed operands (R67, R68) -/

theorem narrow_bits_pos (nf : NarrowFmt) : 0 < nf.bits := by cases nf <;> decide

theorem toNat_field (x lo n : Nat) (hx : x < 2 ^ 32) :
    ((BitVec.ofNat 32 x).extractLsb' lo n).toNat = x / 2 ^ lo % 2 ^ n := by
  rw [BitVec.extractLsb'_toNat, BitVec.toNat_ofNat, Nat.mod_eq_of_lt hx, Nat.shiftRight_eq_div_pow]

/-- The code of an element, as the model reads it. -/
theorem getElem_eq (nf : NarrowFmt) (half : Bool) (k : Nat) {x y : Nat} (hx : x < 2 ^ 32) (hy : y < 2 ^ 32) :
    Machine.getElem nf half k (x, y) = elemCode nf half k x y := by
  unfold Machine.getElem elemCode
  split
  · rw [BitVec.toNat_append, toNat_field _ _ _ hx, toNat_field _ _ _ hy,
      ← Nat.shiftLeft_add_eq_or_of_lt (Nat.mod_lt _ (by norm_num)), Nat.shiftLeft_eq]
    rfl
  · rw [toNat_field _ _ _ hx]

theorem elemCode_lt (nf : NarrowFmt) (half : Bool) (k x y : Nat) : elemCode nf half k x y < 2 ^ nf.bits := by
  unfold elemCode
  split
  · next h => cases nf <;> first | (simp [NarrowFmt.fp6] at h; done) | exact BitVec.isLt _
  · exact BitVec.isLt _

/-- The operand as the two registers that hold it: one, but for FP6. -/
theorem getElem_pair (nf : NarrowFmt) (half : Bool) (k : Nat) {x y : Nat} (hx : x < 2 ^ 32) (hy : y < 2 ^ 32) :
    Machine.getElem nf half k (x, if nf.fp6 then y else 0) = elemCode nf half k x y := by
  rw [← getElem_eq nf half k hx hy]
  unfold Machine.getElem
  cases nf.fp6 <;> rfl

/-! ## UNPACK (R133) -/

/-- What UNPACK makes of a code. -/
def unpackResult (nf : NarrowFmt) (e : Nat) : Nat × FlagSet :=
  if nf.integer then fp32.roundInt (.to .rne) false (if nf.signedInt then sval nf.bits e else e) 0
  else fp32.ofVal (.to .rne) (nf.fmt.value e)

/-- A small integer is FP32 without a flag. -/
theorem roundInt_fp32_flags {z : Bool} {n : Int} (h : n.natAbs < 2 ^ 24) : (fp32.roundInt (.to .rne) z n 0).2 = 0 := by
  unfold Fmt.roundInt
  split
  · rfl
  · exact (round_exact regular_fp32 _ _ (fits_fp32 h (by norm_num) (by norm_num))).1

theorem bits_le_of_integer {nf : NarrowFmt} (h : nf.integer = true) : nf.bits ≤ 8 := by
  cases nf <;> first | (simp [NarrowFmt.integer] at h; done) | decide

theorem unpackResult_rule (nf : NarrowFmt) {e : Nat} (he : e < 2 ^ nf.bits) : UnpackRule nf e (unpackResult nf e) := by
  unfold UnpackRule unpackResult
  dsimp only
  cases hi : nf.integer with
  | true =>
    rw [if_pos rfl, if_pos rfl, sval_eq_toInt (narrow_bits_pos nf), BitVec.toNat_ofNat, Nat.mod_eq_of_lt he]
    obtain ⟨n, hn⟩ : ∃ n, (if nf.signedInt then (BitVec.ofNat nf.bits e).toInt else (e : Int)) = n := ⟨_, rfl⟩
    have hsmall : n.natAbs < 2 ^ 24 := by
      have h8 := Nat.pow_le_pow_right (n := 2) (by omega) (bits_le_of_integer hi)
      have h1 := BitVec.two_mul_toInt_lt (x := BitVec.ofNat nf.bits e)
      have h2 := BitVec.le_two_mul_toInt (x := BitVec.ofNat nf.bits e)
      have hb : ((2 ^ nf.bits : Nat) : Int) = 2 ^ nf.bits := by push_cast; rfl
      split at hn <;> omega
    rw [hn]
    exact ⟨by simpa using roundInt_roundsTo regular_fp32 (.to .rne) false n 0, roundInt_fp32_flags hsmall⟩
  | false =>
    simp only [Bool.false_eq_true, if_false]
    cases hv : nf.fmt.value e with
    | nan s => rfl
    | inf n => rfl
    | fin n m k =>
      obtain ⟨hfl, -, m', e', h1, hm⟩ := round_exact regular_fp32 (.to .rne) n
        (fits_fp32_of_narrow nf (value_fits (regular_narrow nf) hv).2.2)
      have hnum : numberOf (.fin n m' e') = numberOf (.fin n m k) := by
        rw [← Rat.cast_inj (α := ℝ), numberOf_fin_cast, numberOf_fin_cast, hm]
      simp only [FVal.isNan, FVal.isInf, Bool.false_eq_true, if_false, Fmt.ofVal, h1, hnum, hfl, FVal.neg, and_self]

/-! ## PACK (R132) -/

/-- An FP32 value into a narrow format, as R72 has it. -/
theorem narrowBits_rule (nf : NarrowFmt) (md : Mode) (x : Nat) : NarrowRule nf md (fp32.value x) (narrowBits nf md x) := by
  unfold NarrowRule narrowBits
  cases nf.integer with
  | true =>
    simp only [if_true, intLo_eq, intHi_eq, wrapN_eq_toNat]
    exact ⟨_, floatToInt_rule md _ _ _, rfl⟩
  | false => exact ofVal_floatRule (regular_narrow nf) md _

/-- A field of n bits at lo takes v; every other bit stays. -/
theorem testBit_setBits (x lo n v i : Nat) :
    (setBits x lo n v).testBit i = if lo ≤ i ∧ i < lo + n then v.testBit (i - lo) else x.testBit i := by
  have hs : setBits x lo n v = 2 ^ lo * (2 ^ n * (x / 2 ^ (lo + n)) + v % 2 ^ n) + x % 2 ^ lo := by
    unfold setBits; rw [Nat.pow_add]; ring
  rw [hs, Nat.testBit_two_pow_mul_add _ (Nat.mod_lt _ (by positivity)),
    Nat.testBit_two_pow_mul_add _ (Nat.mod_lt _ (by positivity)), Nat.testBit_mod_two_pow, Nat.testBit_mod_two_pow,
    Nat.testBit_div_two_pow]
  by_cases h1 : i < lo
  · rw [if_pos h1, if_neg (by omega), decide_eq_true h1, Bool.true_and]
  · by_cases h2 : i - lo < n
    · rw [if_neg h1, if_pos h2, if_pos (by omega), decide_eq_true h2, Bool.true_and]
    · rw [if_neg h1, if_neg h2, if_neg (by omega)]
      congr 1; omega
theorem setBits_lt {x lo n w : Nat} (v : Nat) (hx : x < 2 ^ w) (h : lo + n ≤ w) : setBits x lo n v < 2 ^ w := by
  refine Nat.lt_pow_two_of_testBit _ fun i hi => ?_
  rw [testBit_setBits, if_neg (by omega)]
  exact Nat.testBit_lt_two_pow (lt_of_lt_of_le hx (Nat.pow_le_pow_right (by omega) hi))
theorem field_setBits_same (x lo n v : Nat) : setBits x lo n v / 2 ^ lo % 2 ^ n = v % 2 ^ n := by
  refine Nat.eq_of_testBit_eq fun i => ?_
  rw [Nat.testBit_mod_two_pow, Nat.testBit_mod_two_pow, Nat.testBit_div_two_pow, testBit_setBits]
  by_cases h : i < n
  · rw [if_pos (by omega)]; congr 2; omega
  · simp [h]
theorem field_setBits_ne {x lo n v lo' n' : Nat} (h : lo' + n' ≤ lo ∨ lo + n ≤ lo') :
    setBits x lo n v / 2 ^ lo' % 2 ^ n' = x / 2 ^ lo' % 2 ^ n' := by
  refine Nat.eq_of_testBit_eq fun i => ?_
  rw [Nat.testBit_mod_two_pow, Nat.testBit_mod_two_pow, Nat.testBit_div_two_pow, Nat.testBit_div_two_pow, testBit_setBits]
  by_cases hi : i < n'
  · rw [if_neg (by omega)]
  · simp [hi]

theorem fp6_bits {nf : NarrowFmt} (h : nf.fp6 = true) : nf.bits = 6 ∧ nf.count = 8 := by
  cases nf <;> first | (simp [NarrowFmt.fp6] at h; done) | decide
/-- An element that takes a code reads as it, cut to its width. -/
theorem getElem_putElem_same (nf : NarrowFmt) (half : Bool) (k e : Nat) (d : Nat × Nat) :
    Machine.getElem nf half k (putElem nf half k e d) = e % 2 ^ nf.bits := by
  unfold Machine.getElem putElem
  split
  · next h =>
    change _ % 2 ^ 4 * 4 + _ % 2 ^ 2 = _
    rw [field_setBits_same, field_setBits_same, (fp6_bits h).1]
    omega
  · exact field_setBits_same ..
/-- The other elements stay. -/
theorem getElem_putElem_ne (nf : NarrowFmt) (half : Bool) {k k' : Nat} (h : k ≠ k') (e : Nat) (d : Nat × Nat) :
    Machine.getElem nf half k' (putElem nf half k e d) = Machine.getElem nf half k' d := by
  unfold Machine.getElem putElem
  split
  · change _ % 2 ^ 4 * 4 + _ % 2 ^ 2 = _ % 2 ^ 4 * 4 + _ % 2 ^ 2
    rw [field_setBits_ne (by omega), field_setBits_ne (by omega)]
  · refine field_setBits_ne ?_
    rcases lt_or_gt_of_ne h with h | h
    · have := Nat.mul_le_mul_left nf.bits h
      exact .inr (by rw [Nat.mul_succ] at this; exact this)
    · have := Nat.mul_le_mul_left nf.bits h
      exact .inl (by rw [Nat.mul_succ] at this; exact this)

/-- The registers after elements 2j and 2j + 1 have taken two codes. -/
def packed (nf : NarrowFmt) (half : Bool) (j e0 e1 : Nat) (old : Nat × Nat) : Nat × Nat :=
  putElem nf half (2 * j + 1) e1 (putElem nf half (2 * j) e0 old)

/-- The room that the entry's bound on j leaves: both elements lie in the registers (R131). -/
theorem room_fp6 {nf : NarrowFmt} {j : Nat} (h : nf.fp6 = true) (hj : 2 * j < nf.count) : j < 4 := by
  rw [(fp6_bits h).2] at hj; omega
theorem room_of_count {nf : NarrowFmt} {j : Nat} (h : nf.fp6 = false) (hj : 2 * j < nf.count) :
    nf.bits * (2 * j + 2) ≤ 32 := by
  cases nf <;> simp only [NarrowFmt.fp6, reduceCtorEq, NarrowFmt.count, NarrowFmt.bits] at h hj ⊢ <;> omega

theorem packed_fp6 {nf : NarrowFmt} (h : nf.fp6 = true) (half : Bool) (j e0 e1 x y : Nat) :
    packed nf half j e0 e1 (x, y) =
      (setBits (setBits x (4 * (2 * j)) 4 (e0 / 4)) (4 * (2 * j + 1)) 4 (e1 / 4),
       setBits (setBits y ((if half then 16 else 0) + 2 * (2 * j)) 2 e0) ((if half then 16 else 0) + 2 * (2 * j + 1)) 2 e1) := by
  simp [packed, putElem, h]
theorem packed_plain {nf : NarrowFmt} (h : nf.fp6 = false) (half : Bool) (j e0 e1 x y : Nat) :
    packed nf half j e0 e1 (x, y) =
      (setBits (setBits x (nf.bits * (2 * j)) nf.bits e0) (nf.bits * (2 * j + 1)) nf.bits e1, y) := by
  simp [packed, putElem, h]

theorem packed_lt {nf : NarrowFmt} {half : Bool} {j x y : Nat} (hj : 2 * j < nf.count) (hx : x < 2 ^ 32) (hy : y < 2 ^ 32)
    (e0 e1 : Nat) : (packed nf half j e0 e1 (x, y)).1 < 2 ^ 32 ∧ (packed nf half j e0 e1 (x, y)).2 < 2 ^ 32 := by
  cases h : nf.fp6 with
  | true =>
    have := room_fp6 h hj
    rw [packed_fp6 h]
    exact ⟨setBits_lt _ (setBits_lt _ hx (by omega)) (by omega),
      setBits_lt _ (setBits_lt _ hy (by split <;> omega)) (by split <;> omega)⟩
  | false =>
    have := room_of_count h hj
    rw [packed_plain h]
    rw [Nat.mul_add] at this
    exact ⟨setBits_lt _ (setBits_lt _ hx (by omega)) (by rw [Nat.mul_add]; omega), hy⟩

/-- Two elements take their codes and every other bit stays, as R132 has it. -/
theorem packed_rule {nf : NarrowFmt} {half : Bool} {j x y : Nat} (hj : 2 * j < nf.count) (hx : x < 2 ^ 32) (hy : y < 2 ^ 32)
    (e0 e1 : Nat) :
    let r := packed nf half j e0 e1 (x, if nf.fp6 then y else 0)
    PackedRule nf half j x y e0 e1 (BitVec.ofNat 32 r.1, BitVec.ofNat 32 r.2) := by
  intro r
  have hy' : (if nf.fp6 then y else 0) < 2 ^ 32 := by split <;> omega
  obtain ⟨h1, h2⟩ := packed_lt (half := half) hj hx hy' e0 e1
  have hread (k : Nat) : elemCode nf half k (BitVec.ofNat 32 r.1).toNat (BitVec.ofNat 32 r.2).toNat =
      Machine.getElem nf half k r := by
    rw [BitVec.toNat_ofNat, BitVec.toNat_ofNat, Nat.mod_eq_of_lt h1, Nat.mod_eq_of_lt h2]
    exact (getElem_eq nf half k h1 h2).symm
  refine ⟨?_, ?_, ?_⟩
  · rw [hread]
    exact (getElem_putElem_ne nf half (by omega) _ _).trans (getElem_putElem_same ..)
  · rw [hread]
    exact getElem_putElem_same ..
  · simp only [BitVec.getLsbD_ofNat]
    cases h : nf.fp6 with
    | true =>
      simp only [r, h, if_true, packed_fp6 h, testBit_setBits]
      refine ⟨fun n hn ho => ?_, fun n hn ho => ?_⟩
      · rw [if_neg (by omega), if_neg (by omega)]
      · rw [if_neg (by omega), if_neg (by omega)]
    | false =>
      simp only [r, h, Bool.false_eq_true, if_false, packed_plain h, testBit_setBits]
      intro n hn ho
      rw [Nat.mul_add] at ho
      rw [if_neg (by rw [Nat.mul_add]; omega), if_neg (by omega)]

/-! ## What the checks at decode leave -/

theorem wf_cvt {h : Hd} {dst src : CvtFmt} {rm : Round} {sat int : Bool} {d a : Reg}
    (hw : (Instr.cvt h dst src rm sat int d a).WellFormed) : dstW dst.is64 d = true := by
  have := firstFail_none hw.2
  simp at this
  exact this.2.1
theorem wf_pack {h : Hd} {nf : NarrowFmt} {sr half : Bool} {rm : Round} {j : BitVec 2} {d a : Reg} {b : Src}
    (hw : (Instr.pack h nf sr rm half j d a b).WellFormed) :
    2 * j.toNat < nf.count ∧ (nf.fp6 = true → pairOk d = true) := by
  have := firstFail_none hw.2
  simp at this
  exact ⟨this.1.1, fun hf => by have := this.2.2.1.1; simpa [hf] using this⟩

theorem pairOk_lt {d : Reg} (h : pairOk d = true) : d.toNat + 1 < 128 := by
  have := d.isLt
  simp only [pairOk, Bool.and_eq_true, beq_iff_eq] at h
  omega

/-! ## CVT, UNPACK and PACK (R128 to R132) -/

theorem opB_imm_lt (c : Ctx) (l : Nat) (a : Reg) (b : Src) : c.opB l false a (FloatTy.f32).imm b < 2 ^ 32 := by
  cases b with
  | reg r => exact rd_lt ..
  | imm v =>
    have := v.isLt
    simp only [Ctx.opB, FloatTy.imm, FloatTy.is64, Bool.false_eq_true, if_false]
    omega
theorem floatB_f32 (c : Ctx) (l : Nat) (a : Reg) (b : Src) :
    floatB c l .f32 a b 0 = fp32.value (c.opB l false a (FloatTy.f32).imm b) := by
  have hm := Nat.mod_eq_of_lt (opB_imm_lt c l a b)
  simp only [floatB, FloatTy.elem, FloatTy.fmt, Ctx.flB, FloatTy.is64, Nat.mul_zero, Nat.pow_zero, Nat.div_one]
  exact congrArg _ hm

/-- The codes that PACK makes of its two sources, each under its own rounding. -/
def packCode (c : Ctx) (nf : NarrowFmt) (m : Nat → Mode) (a : Reg) (b : Src) (l : Nat) : Nat → Nat × FlagSet
  | 0 => narrowBits nf (m 0) (c.rd l a.toNat 0)
  | _ => narrowBits nf (m 1) (c.opB l false a (FloatTy.f32).imm b)
/-- The registers that PACK leaves. -/
def packRegs (c : Ctx) (nf : NarrowFmt) (half : Bool) (j : Nat) (d : Reg) (l e0 e1 : Nat) : Word × Word :=
  let r := packed nf half j e0 e1 (c.rd l d.toNat 0, if nf.fp6 then c.rd l (d.toNat + 1) 0 else 0)
  (BitVec.ofNat 32 r.1, BitVec.ofNat 32 r.2)

theorem packCode_rule (c : Ctx) (nf : NarrowFmt) (m : Nat → Mode) (a : Reg) (b : Src) (l : Nat) :
    NarrowRule nf (m 0) (fp32.value (c.rd l a.toNat 0)) (packCode c nf m a b l 0) ∧
      NarrowRule nf (m 1) (floatB c l .f32 a b 0) (packCode c nf m a b l 1) :=
  ⟨narrowBits_rule .., floatB_f32 c l a b ▸ narrowBits_rule ..⟩
theorem packRegs_rule (c : Ctx) {nf : NarrowFmt} (half : Bool) {j : Nat} (hj : 2 * j < nf.count) (d : Reg) (l e0 e1 : Nat) :
    PackedRule nf half j (c.rd l d.toNat 0) (c.rd l (d.toNat + 1) 0) e0 e1 (packRegs c nf half j d l e0 e1) :=
  packed_rule hj (rd_lt ..) (rd_lt ..) e0 e1

/-- What a lane of PACK writes, register by register. -/
theorem packLane_eq (c : Ctx) (l : Nat) {nf : NarrowFmt} (m : Nat → Mode) (half : Bool) {j : Nat} (d a : Reg) (b : Src)
    (hj : 2 * j < nf.count) :
    let e := packCode c nf m a b l
    let r := packRegs c nf half j d l (e 0).1 (e 1).1
    packLane c l nf (m 0) (m 1) half j d a b =
      { regs := (d.toNat, r.1) :: (if nf.fp6 then [(d.toNat + 1, r.2)] else []), preds := [], flags := (e 0).2 ||| (e 1).2 } := by
  intro e r
  have hy : (if nf.fp6 then c.rd l (d.toNat + 1) 0 else 0) < 2 ^ 32 := by
    have := rd_lt c l (d.toNat + 1) 0
    split <;> omega
  obtain ⟨p, hp⟩ : ∃ p, packed nf half j (e 0).1 (e 1).1 (c.rd l d.toNat 0, if nf.fp6 then c.rd l (d.toNat + 1) 0 else 0) = p :=
    ⟨_, rfl⟩
  have hlt : p.1 < 2 ^ 32 := hp ▸ (packed_lt hj (rd_lt c l d.toNat 0) hy (e 0).1 (e 1).1).1
  have hr : r = (BitVec.ofNat 32 p.1, BitVec.ofNat 32 p.2) := by rw [← hp]; rfl
  have hl : packLane c l nf (m 0) (m 1) half j d a b =
      LaneOut.withFlags (if nf.fp6 then outPair d (p.1 + 2 ^ 32 * p.2) else outW d p.1) ((e 0).2 ||| (e 1).2) := by
    rw [← hp]; rfl
  rw [hl, hr]
  cases nf.fp6 with
  | false => rfl
  | true =>
    have h1 : (p.1 + 2 ^ 32 * p.2) / 2 ^ 32 = p.2 := by omega
    have h2 : BitVec.ofNat 32 (p.1 + 2 ^ 32 * p.2) = BitVec.ofNat 32 p.1 := by
      apply BitVec.eq_of_toNat_eq
      simp only [BitVec.toNat_ofNat, Nat.add_mul_mod_self_left]
    simp only [if_true, outPair, LaneOut.withFlags, h1, h2, LaneOut.none]

/-- The registers that PACK names lie in the file. -/
theorem packRegs_bound {nf : NarrowFmt} {d : Reg} (hd : nf.fp6 = true → pairOk d = true) (x y : Word) :
    ∀ p ∈ (d.toNat, x) :: (if nf.fp6 then [(d.toNat + 1, y)] else []), p.1 < 128 := by
  have h0 := d.isLt
  cases hf : nf.fp6 with
  | false => simp; omega
  | true => have := pairOk_lt (hd hf); simp; omega

/-- What a lane of UNPACK writes. -/
theorem unpackLane_eq (c : Ctx) (l : Nat) (nf : NarrowFmt) (half : Bool) (i : Nat) (a : Reg) :
    unpackResult nf (Machine.getElem nf half i (c.rd l a.toNat 0, if nf.fp6 then c.rd l (a.toNat + 1) 0 else 0)) =
      unpackResult nf (elemCode nf half i (c.rd l a.toNat 0) (c.rd l (a.toNat + 1) 0)) :=
  congrArg _ (getElem_pair nf half i (rd_lt c l _ 0) (rd_lt c l _ 0))

/-- Settles O11: the words apply the one rounding to the one value that each lane reads. -/
theorem conversions : Obligations.Conversions := by
  intro s c h dst src nf rm sat int half j i d a b
  refine ⟨fun hi => ?_, fun hi => ?_, fun hi => ?_⟩
  · exact ⟨fun l => cvtBits dst src (.to rm) sat int (c.opA l src.is64 a), fun l => cvtBits_rule ..,
      computes_lane (exec_cvt ..) (fun _ _ => rfl) (fun hw _ => outSize_bound (wf_cvt hw)) hi⟩
  · exact ⟨fun l => unpackResult nf (elemCode nf half i.toNat (c.rd l a.toNat 0) (c.rd l (a.toNat + 1) 0)),
      fun l => unpackResult_rule nf (elemCode_lt ..),
      computes_lane (exec_unpack ..) (fun _ l => congrArg (fun r => (outW d r.1).withFlags r.2) (unpackLane_eq c l nf half i.toNat a))
        (fun _ _ => outW_bound) hi⟩
  · obtain ⟨hj, hd⟩ := wf_pack hi.wf
    exact ⟨packCode c nf (fun _ => .to rm) a b, packCode_rule c nf _ a b, fun l => packRegs c nf half j.toNat d l _ _,
      fun l => packRegs_rule c half hj d l _ _,
      computes_lane (f := fun c _ l => packLane c l nf (.to rm) (.to rm) half j.toNat d a b) rfl
        (fun _ l => packLane_eq c l (fun _ => .to rm) half d a b hj) (fun _ _ => packRegs_bound hd _ _) hi⟩

/-! ## SCALE (R69, R134) -/

theorem wf_scale {h : Hd} {ft : FloatTy} {rm : Round} {map : ScaleMap} {sr : Reg} {inv : Bool} {sel : BitVec 2} {d a : Reg}
    (hw : (Instr.scale h ft rm map sr inv sel d a).WellFormed) : dstW ft.is64 d = true := by
  have := firstFail_none hw.2
  simp at this
  exact this.1.2

theorem outFloat_bound {ft : FloatTy} {d : Reg} {f : Nat → Nat × FlagSet} (h : dstW ft.is64 d = true) :
    ∀ p ∈ (outFloat ft d f).regs, p.1 < 128 := by
  unfold outFloat
  split
  · exact outW_bound
  · exact outSize_bound h

/-- The scale byte of a block, as its leader's register holds it. -/
theorem scaleByte_leader (c : Ctx) (n l k : Nat) (r : Reg) (sel : BitVec 2) :
    c.scaleByte (leaderOf n l k) r sel.toNat = byteOf (c.rd (blockLeader n l k) r.toNat 0) sel := by
  have h : leaderOf n l k = blockLeader n l k := Nat.mul_comm ..
  rw [byteOf, toNat_field _ _ _ (rd_lt ..), Ctx.scaleByte, Nat.pow_mul, h]
  rfl

theorem numberOf_scale (n : Bool) (m : Nat) (e k : Int) :
    numberOf (.fin n m (e + k)) = numberOf (.fin n m e) * 2 ^ k := by
  simp only [numberOf, zpow_add₀ (two_ne_zero' ℚ)]
  ring

/-- The formats of the float words are those of IEEE. -/
theorem floatTy_ieee (ft : FloatTy) : ft.fmt.sp = .ieee := by cases ft <;> rfl

/-- A scaled value, rounded, as R134 has it. -/
theorem ofVal_scale_rule (ft : FloatTy) (md : Mode) (v : FVal) (k : Int) :
    let r := ft.fmt.ofVal md (v.scale k)
    if v.isNan then isNanResult ft.fmt v.isSnan r
    else if v.isInf then isInfResult ft.fmt v.neg r
    else RoundsTo ft.fmt md v.neg (numberOf v * 2 ^ k : ℚ) r := by
  have hnan : ft.fmt.hasNan = true := by simp [Fmt.hasNan, floatTy_ieee]
  have hinf : ft.fmt.hasInf = true := by simp [Fmt.hasInf, floatTy_ieee]
  cases v with
  | nan s =>
    simp only [FVal.isNan, if_true, FVal.scale, Fmt.ofVal, hnan]
    rfl
  | inf n => simp [FVal.isNan, FVal.isInf, FVal.neg, FVal.scale, Fmt.ofVal, hinf, isInfResult]
  | fin n m e =>
    simp only [FVal.isNan, FVal.isInf, Bool.false_eq_true, if_false, FVal.scale, Fmt.ofVal, ← numberOf_scale]
    exact round_roundsTo (regular_floatTy ft) md n m (e + k)

/-- An element under the scale byte e. -/
def scaledElem (ft : FloatTy) (md : Mode) (inv : Bool) (e : Nat) (v : FVal) : Nat × FlagSet :=
  if e = 255 then (ft.fmt.nanBits, 0) else ft.fmt.ofVal md (v.scale (if inv then 127 - (e : Int) else (e : Int) - 127))
theorem scaledElem_rule (ft : FloatTy) (md : Mode) (inv : Bool) (e : Nat) (v : FVal) :
    let r := scaledElem ft md inv e v
    if e = 255 then r = (ft.fmt.nanBits, 0)
    else if v.isNan then isNanResult ft.fmt v.isSnan r
    else if v.isInf then isInfResult ft.fmt v.neg r
    else RoundsTo ft.fmt md v.neg (numberOf v * 2 ^ (if inv then 127 - (e : Int) else e - 127) : ℚ) r := by
  dsimp only [scaledElem]
  split
  · rfl
  · exact ofVal_scale_rule ft md v _

/-- Settles O12: the scale is that of the block's leader, and the scaled value is rounded once. -/
theorem scaleWord : Obligations.ScaleWord := by
  intro s c h ft rm map sr inv sel d a n hi
  exact ⟨fun l k => scaledElem ft (.to rm) inv (byteOf (c.rd (blockLeader n l k) sr.toNat 0) sel) (floatA c l ft a k),
    fun l k => scaledElem_rule ..,
    computes_lane (exec_scale ..) (fun _ l => congrArg (outFloat ft d) (funext fun k =>
      congrArg (fun e => scaledElem ft (.to rm) inv e (floatA c l ft a k)) (scaleByte_leader c n l k sr sel)))
      (fun hw _ => outFloat_bound (wf_scale hw)) hi⟩

/-! ## Products and sums of values (R74) -/

/-- 0 × ∞. -/
def badProduct (p : FVal × FVal) : Bool := (p.1.isInf && p.2.isZero) || (p.1.isZero && p.2.isInf)
/-- A product that is no number: of a NaN, or 0 × ∞. -/
def nanProduct (p : FVal × FVal) : Bool := p.1.isNan || p.2.isNan || badProduct p
/-- A product with an infinity, of the given sign. -/
def infProduct (p : FVal × FVal) (neg : Bool) : Bool := (p.1.isInf || p.2.isInf) && (p.1.neg != p.2.neg) == neg

/-- A product is a NaN, an infinity, or a product of two numbers. -/
theorem mul_cases (p : FVal × FVal) :
    (nanProduct p = true ∧ ∃ s, p.1.mul p.2 = .nan s) ∨
    (nanProduct p = false ∧ (p.1.isInf || p.2.isInf) = true ∧ p.1.mul p.2 = .inf (p.1.neg != p.2.neg)) ∨
    ∃ a m e b m' e', p = (.fin a m e, .fin b m' e') ∧ p.1.mul p.2 = .fin (a != b) (m * m') (e + e') := by
  obtain ⟨x, y⟩ := p
  cases x with
  | nan s => exact .inl ⟨rfl, s, rfl⟩
  | inf a =>
    cases y with
    | nan s => exact .inl ⟨rfl, s, rfl⟩
    | inf b => exact .inr (.inl ⟨rfl, rfl, rfl⟩)
    | fin b m e =>
      by_cases hm : m = 0
      · exact .inl ⟨by simp [nanProduct, badProduct, FVal.isInf, FVal.isZero, hm], false, by simp [FVal.mul, hm]⟩
      · refine .inr (.inl ⟨?_, rfl, by simp [FVal.mul, FVal.neg, hm]⟩)
        simp [nanProduct, badProduct, FVal.isNan, FVal.isInf, FVal.isZero, hm]
  | fin a m e =>
    cases y with
    | nan s => exact .inl ⟨rfl, s, rfl⟩
    | inf b =>
      by_cases hm : m = 0
      · exact .inl ⟨by simp [nanProduct, badProduct, FVal.isInf, FVal.isZero, hm], false, by simp [FVal.mul, hm]⟩
      · refine .inr (.inl ⟨?_, rfl, by simp [FVal.mul, FVal.neg, hm]⟩)
        simp [nanProduct, badProduct, FVal.isNan, FVal.isInf, FVal.isZero, hm]
    | fin b m' e' => exact .inr (.inr ⟨a, m, e, b, m', e', rfl, rfl⟩)

theorem nanProduct_fin (a b : Bool) (m m' : Nat) (e e' : Int) : nanProduct (.fin a m e, .fin b m' e') = false := by
  simp [nanProduct, badProduct, FVal.isNan, FVal.isInf]
theorem isNan_mul (p : FVal × FVal) : (p.1.mul p.2).isNan = nanProduct p := by
  obtain ⟨h, s, hs⟩ | ⟨h, -, hs⟩ | ⟨a, m, e, b, m', e', rfl, hs⟩ := mul_cases p <;> rw [hs]
  · exact h.symm
  · exact h.symm
  · exact (nanProduct_fin ..).symm
theorem mul_eq_inf (p : FVal × FVal) (n : Bool) : (p.1.mul p.2 == .inf n) = (!nanProduct p && infProduct p n) := by
  obtain ⟨h, s, hs⟩ | ⟨h, hi, hs⟩ | ⟨a, m, e, b, m', e', rfl, hs⟩ := mul_cases p <;> rw [hs]
  · simp [h]
  · rw [h, infProduct, hi, Bool.true_and, Bool.not_false, Bool.true_and, Bool.eq_iff_iff, beq_iff_eq, beq_iff_eq, FVal.inf.injEq]
  · simp [infProduct, FVal.isInf]
theorem numberOf_mul (p : FVal × FVal) (h : (p.1.isInf || p.2.isInf) = false) :
    numberOf (p.1.mul p.2) = numberOf p.1 * numberOf p.2 := by
  obtain ⟨x, y⟩ := p
  cases x with
  | nan s => simp [FVal.mul, numberOf]
  | inf a => simp [FVal.isInf] at h
  | fin a m e =>
    cases y with
    | nan s => simp [FVal.mul, numberOf]
    | inf b => simp [FVal.isInf] at h
    | fin b m' e' =>
      simp only [FVal.mul, numberOf, zpow_add₀ (two_ne_zero' ℚ), Nat.cast_mul]
      cases a <;> cases b <;> simp <;> ring

/-! ### Scaled terms -/

theorem isNan_scale (k : Int) (v : FVal) : (v.scale k).isNan = v.isNan := by cases v <;> rfl
theorem scale_eq_inf (k : Int) (v : FVal) (n : Bool) : (v.scale k == .inf n) = (v == .inf n) := by cases v <;> rfl
theorem isZero_scale (k : Int) (v : FVal) : (v.scale k).isZero = v.isZero := by cases v <;> rfl
theorem neg_scale (k : Int) (v : FVal) : (v.scale k).neg = v.neg := by cases v <;> rfl
theorem numberOf_scaled (k : Int) (v : FVal) : numberOf (v.scale k) = numberOf v * 2 ^ k := by
  cases v with
  | fin n m e => exact numberOf_scale n m e k
  | nan s => simp [FVal.scale, numberOf]
  | inf n => simp [FVal.scale, numberOf]

/-- A product as a term of a block's sum. -/
def blockTerm (ints : Bool) (k : Int) (p : FVal × FVal) : FVal × Bool :=
  let t := if ints then intTerm p.1 p.2 else prodTerm p.1 p.2
  (t.1.scale k, t.2)

/-- What a block of integers multiplies: numbers. -/
def IsInt (p : FVal × FVal) : Prop := ∃ a m e b m' e', p = (.fin a m e, .fin b m' e')

theorem intTerm_fin (a b : Bool) (m m' : Nat) (e e' : Int) : intTerm (.fin a m e) (.fin b m' e') =
    (if m * m' = 0 then .fin false 0 0 else .fin (a != b) (m * m') (e + e'), false) := by
  simp [intTerm, FVal.mul, FVal.isZero]

theorem isNan_blockTerm {ints : Bool} (k : Int) {p : FVal × FVal} (h : ints = true → IsInt p) :
    (blockTerm ints k p).1.isNan = nanProduct p := by
  cases ints with
  | false => exact (isNan_scale ..).trans (isNan_mul p)
  | true =>
    obtain ⟨a, m, e, b, m', e', rfl⟩ := h rfl
    rw [nanProduct_fin, blockTerm, if_pos rfl, isNan_scale, intTerm_fin]
    split <;> rfl
theorem blockTerm_eq_inf {ints : Bool} (k : Int) {p : FVal × FVal} (h : ints = true → IsInt p) (n : Bool) :
    ((blockTerm ints k p).1 == .inf n) = (!nanProduct p && infProduct p n) := by
  cases ints with
  | false => exact (scale_eq_inf ..).trans (mul_eq_inf p n)
  | true =>
    obtain ⟨a, m, e, b, m', e', rfl⟩ := h rfl
    rw [blockTerm, if_pos rfl, scale_eq_inf, intTerm_fin, infProduct]
    split <;> simp [FVal.isInf]
theorem blockTerm_nv {ints : Bool} (k : Int) {p : FVal × FVal} (h : ints = true → IsInt p) :
    (blockTerm ints k p).2 = (p.1.isSnan || p.2.isSnan || badProduct p) := by
  cases ints with
  | false => simp [blockTerm, prodTerm, badProduct, Bool.or_assoc]
  | true =>
    obtain ⟨a, m, e, b, m', e', rfl⟩ := h rfl
    simp [blockTerm, intTerm, badProduct, FVal.isSnan, FVal.isInf]
/-- A term of numbers: its number, and whether it is −0. -/
theorem blockTerm_fin (ints : Bool) (k : Int) {p : FVal × FVal} (h : IsInt p) :
    numberOf (blockTerm ints k p).1 = 2 ^ k * (numberOf p.1 * numberOf p.2) ∧
    ((blockTerm ints k p).1.isZero && (blockTerm ints k p).1.neg) =
      (!ints && (p.1.isZero || p.2.isZero) && p.1.neg != p.2.neg) := by
  obtain ⟨a, m, e, b, m', e', rfl⟩ := h
  have hn := numberOf_mul (.fin a m e, .fin b m' e') rfl
  have hz : (m * m' == 0) = (m == 0 || m' == 0) := by rw [Bool.eq_iff_iff]; simp
  rw [← hn, mul_comm (_ ^ k), blockTerm, numberOf_scaled, isZero_scale, neg_scale]
  cases ints with
  | false => exact ⟨rfl, by simp [prodTerm, FVal.mul, FVal.isZero, FVal.neg, hz]⟩
  | true =>
    rw [if_pos rfl, intTerm_fin]
    by_cases hm : m * m' = 0
    · simp [hm, FVal.mul, FVal.isZero, FVal.neg, numberOf]
    · rw [if_neg hm]
      exact ⟨rfl, by rw [Nat.mul_eq_zero, not_or] at hm; simp [FVal.isZero, hm.1, hm.2]⟩

theorem any_congr_mem {α : Type} {l : List α} {p q : α → Bool} (h : ∀ a ∈ l, p a = q a) : l.any p = l.any q := by
  rw [Bool.eq_iff_iff, List.any_eq_true, List.any_eq_true]
  exact exists_congr fun a => and_congr_right fun ha => by rw [h a ha]
theorem all_congr_mem {α : Type} {l : List α} {p q : α → Bool} (h : ∀ a ∈ l, p a = q a) : l.all p = l.all q := by
  rw [Bool.eq_iff_iff, List.all_eq_true, List.all_eq_true]
  exact forall₂_congr fun a ha => by rw [h a ha]

/-! ### Exact sums -/

/-- The number that an exact sum is. -/
def dyadicVal (d : Machine.Dyadic) : ℚ := d.m * 2 ^ d.e

theorem dyadicVal_fval (v : FVal) : dyadicVal v.dyadic = numberOf v := by
  cases v with
  | fin n m e => cases n <;> simp [dyadicVal, FVal.dyadic, fsign, numberOf]
  | nan s => simp [dyadicVal, FVal.dyadic, numberOf]
  | inf n => simp [dyadicVal, FVal.dyadic, numberOf]
/-- Aligned to the lower place. -/
theorem align (m : Int) {i j : Int} (h : i ≤ j) : ((m * 2 ^ (j - i).toNat : Int) : ℚ) * 2 ^ i = m * 2 ^ j := by
  have e : (2 : ℚ) ^ j = 2 ^ (j - i).toNat * 2 ^ i := by
    rw [← zpow_natCast, Int.toNat_of_nonneg (by omega), ← zpow_add₀ two_ne_zero]; congr 1; omega
  rw [e]; push_cast; ring
theorem dyadicVal_add (a b : Machine.Dyadic) : dyadicVal (a.add b) = dyadicVal a + dyadicVal b := by
  unfold Machine.Dyadic.add
  split
  · next h => simp [dyadicVal, h]
  · split
    · next h => simp [dyadicVal, h]
    · split
      · next h => rw [dyadicVal, dyadicVal, dyadicVal, ← align b.m h, Int.cast_add, add_mul]
      · next h => rw [dyadicVal, dyadicVal, dyadicVal, ← align a.m (by omega : b.e ≤ a.e), Int.cast_add, add_mul]
theorem dyadicVal_foldl (ts : List (FVal × Bool)) (d : Machine.Dyadic) :
    dyadicVal (ts.foldl (fun s t => s.add t.1.dyadic) d) = dyadicVal d + (ts.map fun t => numberOf t.1).sum := by
  induction ts generalizing d with
  | nil => simp
  | cons t ts ih => rw [List.foldl_cons, ih, dyadicVal_add, dyadicVal_fval, List.map_cons, List.sum_cons, add_assoc]

/-- The sum of an accumulator and the terms of a block. -/
def blockTerms (ints : Bool) (k : Int) (a : FVal) (ps : List (FVal × FVal)) : List (FVal × Bool) :=
  (a, a.isSnan) :: ps.map (blockTerm ints k)

theorem eq_inf (a : FVal) (n : Bool) : (a == .inf n) = (a.isInf && (a.neg == n)) := by
  rw [Bool.eq_iff_iff]
  cases a <;> simp [FVal.isInf, FVal.neg]

section
variable {ints : Bool} (k : Int) (a : FVal) {ps : List (FVal × FVal)} (h : ints = true → ∀ p ∈ ps, IsInt p)
include h

theorem any_nan_blockTerms : (blockTerms ints k a ps).any (·.1.isNan) = (a.isNan || ps.any nanProduct) :=
  congrArg (a.isNan || ·) (List.any_map.trans (any_congr_mem fun p hp => isNan_blockTerm k fun hi => h hi p hp))
theorem any_nv_blockTerms : (blockTerms ints k a ps).any (·.2) =
    (a.isSnan || ps.any fun p => p.1.isSnan || p.2.isSnan || badProduct p) :=
  congrArg (a.isSnan || ·) (List.any_map.trans (any_congr_mem fun p hp => blockTerm_nv k fun hi => h hi p hp))
theorem any_inf_blockTerms (n : Bool) : ((blockTerms ints k a ps).any fun t => t.1 == .inf n) =
    (a.isInf && (a.neg == n) || ps.any fun p => !nanProduct p && infProduct p n) :=
  congrArg₂ (· || ·) (eq_inf a n) (List.any_map.trans (any_congr_mem fun p hp => blockTerm_eq_inf k (fun hi => h hi p hp) n))
end

theorem any_or {α : Type} (l : List α) (p q : α → Bool) : l.any (fun a => p a || q a) = (l.any p || l.any q) := by
  rw [Bool.eq_iff_iff]
  simp only [List.any_eq_true, Bool.or_eq_true, and_or_left, exists_or]

/-- An infinity of one of the signs among the accumulator and the products. -/
def infAmong (a : FVal) (ps : List (FVal × FVal)) (n : Bool) : Bool := a.isInf && (a.neg == n) || ps.any (infProduct · n)

theorem infAmong_false (a : FVal) (ps : List (FVal × FVal)) :
    infAmong a ps false = (a.isInf && !a.neg || ps.any (infProduct · false)) := by simp [infAmong]
theorem infAmong_true (a : FVal) (ps : List (FVal × FVal)) :
    infAmong a ps true = (a.isInf && a.neg || ps.any (infProduct · true)) := by simp [infAmong]
theorem infProduct_or (p : FVal × FVal) : (infProduct p false || infProduct p true) = (p.1.isInf || p.2.isInf) := by
  unfold infProduct
  cases (p.1.neg != p.2.neg) <;> simp
theorem infAmong_or (a : FVal) (ps : List (FVal × FVal)) :
    (infAmong a ps false || infAmong a ps true) = (a.isInf || ps.any fun p => p.1.isInf || p.2.isInf) := by
  have h : (ps.any fun p => p.1.isInf || p.2.isInf) = (ps.any (infProduct · false) || ps.any (infProduct · true)) := by
    rw [← any_or, any_congr_mem fun p _ => infProduct_or p]
  rw [h, infAmong, infAmong]
  cases a.neg <;> cases a.isInf <;> simp

theorem isInt_of_finite {p : FVal × FVal} (hn : nanProduct p = false) (hi : (p.1.isInf || p.2.isInf) = false) : IsInt p := by
  obtain ⟨h, -⟩ | ⟨-, h, -⟩ | ⟨a, m, e, b, m', e', h, -⟩ := mul_cases p
  · simp [hn] at h
  · simp [hi] at h
  · exact ⟨a, m, e, b, m', e', h⟩

/-- The sum of finite terms, as a number, and the sign of an exact zero. -/
theorem blockTerms_fin (ints : Bool) (k : Int) (a : FVal) {ps : List (FVal × FVal)} (h : ∀ p ∈ ps, IsInt p) :
    dyadicVal ((blockTerms ints k a ps).foldl (fun s t => s.add t.1.dyadic) { m := 0, e := 0 }) =
      numberOf a + 2 ^ k * (ps.map fun p => numberOf p.1 * numberOf p.2).sum ∧
    ((blockTerms ints k a ps).all fun t => t.1.isZero && t.1.neg) =
      (a.isZero && a.neg && ps.all fun p => !ints && (p.1.isZero || p.2.isZero) && p.1.neg != p.2.neg) := by
  refine ⟨?_, congrArg (a.isZero && a.neg && ·) (List.all_map.trans (all_congr_mem fun p hp => (blockTerm_fin ints k (h p hp)).2))⟩
  have hz : dyadicVal { m := 0, e := 0 } = 0 := by simp [dyadicVal]
  rw [dyadicVal_foldl, hz, zero_add, blockTerms, List.map_cons, List.sum_cons, List.map_map, ← List.sum_map_mul_left]
  exact congrArg (numberOf a + List.sum ·) (List.map_congr_left fun p hp => (blockTerm_fin ints k (h p hp)).1)

/-- A sum with a NaN among its terms. -/
theorem sumTerms_nan {ts : List (FVal × Bool)} (h : ts.any (·.1.isNan) = true) :
    sumTerms ts = .nan (ts.any (·.2) || ((ts.any fun t => t.1 == .inf false) && ts.any fun t => t.1 == .inf true)) := by
  rw [sumTerms, if_pos h]
/-- A sum without a NaN among its terms. -/
theorem sumTerms_number {ts : List (FVal × Bool)} (h : ts.any (·.1.isNan) = false) :
    sumTerms ts =
      if ((ts.any fun t => t.1 == .inf false) && ts.any fun t => t.1 == .inf true) = true then .nan true
      else if ((ts.any fun t => t.1 == .inf false) || ts.any fun t => t.1 == .inf true) = true then
        .inf (ts.any fun t => t.1 == .inf true)
      else .fin (ts.foldl (fun s t => s.add t.1.dyadic) { m := 0, e := 0 }) (ts.all fun t => t.1.isZero && t.1.neg) := by
  simp only [sumTerms, h]
  cases ts.any fun t => t.1 == .inf false <;> cases ts.any fun t => t.1 == .inf true <;> rfl

section
variable {ints : Bool} (md : Mode) (k : Int) {a : FVal} {ps : List (FVal × FVal)} (h : ints = true → ∀ p ∈ ps, IsInt p)
include h

/-- Where a term is a NaN, so is the sum; NV is not told where infinities clash too. -/
theorem ofSum_nan (hn : (a.isNan || ps.any nanProduct) = true) :
    let r := fp32.ofSum md (sumTerms (blockTerms ints k a ps))
    r.1 = fp32.nanBits ∧ (¬(infAmong a ps false && infAmong a ps true) = true →
      r.2 = if (a.isSnan || ps.any fun p => p.1.isSnan || p.2.isSnan) || ps.any badProduct then flNV else 0) := by
  rw [sumTerms_nan (by rw [any_nan_blockTerms k a h, hn])]
  intro r
  have hle (n : Bool) : ((blockTerms ints k a ps).any fun t => t.1 == .inf n) = true → infAmong a ps n = true := by
    rw [any_inf_blockTerms k a h, infAmong]
    simp only [Bool.or_eq_true, List.any_eq_true, Bool.and_eq_true]
    exact Or.imp_right fun ⟨p, hp, _, hi⟩ => ⟨p, hp, hi⟩
  refine ⟨rfl, fun hc => ?_⟩
  have hno : (((blockTerms ints k a ps).any fun t => t.1 == .inf false) &&
      (blockTerms ints k a ps).any fun t => t.1 == .inf true) = false := by
    rw [Bool.eq_false_iff]
    simp only [ne_eq, Bool.and_eq_true] at hc ⊢
    exact fun ⟨h1, h2⟩ => hc ⟨hle _ h1, hle _ h2⟩
  change (fp32.nanRes _).2 = _
  rw [hno, Bool.or_false, any_nv_blockTerms k a h, any_or, ← Bool.or_assoc]
  rfl

/-- A sum of numbers and infinities. -/
theorem ofSum_number (hn : (a.isNan || ps.any nanProduct) = false) :
    let r := fp32.ofSum md (sumTerms (blockTerms ints k a ps))
    if (infAmong a ps false && infAmong a ps true) = true then isNanResult fp32 true r
    else if (a.isInf || ps.any fun p => p.1.isInf || p.2.isInf) = true then isInfResult fp32 (infAmong a ps true) r
    else RoundsTo fp32 md (a.isZero && a.neg && ps.all fun p => !ints && (p.1.isZero || p.2.isZero) && p.1.neg != p.2.neg)
      (numberOf a + 2 ^ k * (ps.map fun p => numberOf p.1 * numberOf p.2).sum : ℚ) r := by
  intro r
  have hp : ∀ p ∈ ps, nanProduct p = false := by
    rw [Bool.or_eq_false_iff, List.any_eq_false] at hn
    simpa using hn.2
  have hinf (n : Bool) : ((blockTerms ints k a ps).any fun t => t.1 == .inf n) = infAmong a ps n := by
    rw [any_inf_blockTerms k a h, infAmong, any_congr_mem fun p hm => by rw [hp p hm, Bool.not_false, Bool.true_and]]
  have hs := sumTerms_number (ts := blockTerms ints k a ps) (by rw [any_nan_blockTerms k a h, hn])
  rw [hinf, hinf, infAmong_or] at hs
  simp only [r, hs]
  split
  · rfl
  · split
    · rfl
    · next hi =>
      have hint : ∀ p ∈ ps, IsInt p := by
        rw [Bool.not_eq_true, Bool.or_eq_false_iff, List.any_eq_false] at hi
        exact fun p hm => isInt_of_finite (hp p hm) (by simpa using hi.2 p hm)
      obtain ⟨hv, hz⟩ := blockTerms_fin ints k a hint
      rw [← hv, hz]
      simpa [dyadicVal, Fmt.ofSum] using roundInt_roundsTo regular_fp32 md _ _ _
end

/-- A block summed exactly and rounded once (R74). -/
theorem blockSum_rule {ints : Bool} (md : Mode) (acc ea eb : Nat) {ps : List (FVal × FVal)} (h : ints = true → ∀ p ∈ ps, IsInt p) :
    BlockIn ints md (fp32.value acc) ea eb ps (blockSum ints md acc ea eb ps) := by
  unfold BlockIn blockSum
  dsimp only
  split
  · rfl
  · split
    · next hn =>
      have hr := ofSum_nan md ((ea : Int) + eb - 254) h hn
      rw [infAmong_false, infAmong_true] at hr
      exact hr
    · next hn =>
      have hr := ofSum_number md ((ea : Int) + eb - 254) h ((Bool.not_eq_true _).mp hn)
      rw [infAmong_false, infAmong_true] at hr
      exact hr

/-! ## DOT4, DOT6 and DOT8 (R135, R136) -/

/-- An element of an integer format is a number. -/
theorem packedVal_integer {nf : NarrowFmt} (h : nf.integer = true) (half : Bool) (k x y : Nat) :
    ∃ a m e, packedVal nf half k x y = .fin a m e := by
  unfold packedVal
  rw [if_pos h]
  exact ⟨_, _, _, rfl⟩
theorem packedVal_float {nf : NarrowFmt} (h : nf.integer = false) (half : Bool) (k x y : Nat) :
    packedVal nf half k x y = nf.fmt.value (elemCode nf half k x y) := by
  rw [packedVal, if_neg (by simp [h])]
theorem intVal_signed {nf : NarrowFmt} (h : nf.integer = true) (hs : nf.signedInt = true) (half : Bool) (k x y : Nat) :
    intVal true nf.bits (elemCode nf half k x y) = packedVal nf half k x y := by
  rw [packedVal, intVal, if_pos h, if_pos hs, if_pos rfl, sval_eq_toInt (narrow_bits_pos nf)]
theorem intVal_unsigned {nf : NarrowFmt} (h : nf.integer = true) (hs : nf.signedInt = false) (half : Bool) (k x y : Nat) :
    intVal false nf.bits (elemCode nf half k x y) = packedVal nf half k x y := by
  rw [packedVal, intVal, if_pos h, if_neg Bool.false_ne_true, hs, if_neg Bool.false_ne_true, Nat.mod_eq_of_lt (elemCode_lt ..)]

/-- An element of one register. -/
theorem elemOf_eq (c : Ctx) (l : Nat) (r : Reg) (pop : Nat) {nf : NarrowFmt} (h : nf.fp6 = false) (half : Bool) (k : Nat) :
    c.elemOf l r pop nf.bits k = elemCode nf half k (c.rd l r.toNat pop) 0 := by
  rw [elemCode, if_neg (by simp [h]), toNat_field _ _ _ (rd_lt ..), Ctx.elemOf]
/-- The FP6 formats lie in the two planes alike. -/
theorem elemCode_fp6 {nf : NarrowFmt} (h : nf.fp6 = true) (half : Bool) (k x y : Nat) :
    elemCode .e3m2 half k x y = elemCode nf half k x y := by
  rw [elemCode, elemCode, if_pos h]
  rfl

/-- The scale byte that a dot product takes for one of its operands. -/
def dotScale (c : Ctx) (sc : Option DotScale) (n l : Nat) (sel : DotScale → BitVec 2) : Nat := match sc with
  | none => 127
  | some q => byteOf (c.rd (blockLeader n l 0) q.reg.toNat 0) (sel q)

/-- A dot product sums a block and writes its lane's register. -/
theorem dotWord_rule {i : Instr} {n e : Nat} {sc : Option DotScale} {d : Reg} {va vb : Ctx → Nat → Nat → FVal} {s : State} {c : Ctx}
    (na nb : NarrowFmt) {half : Bool} {x y : Nat → Nat × Nat}
    (he : exec i s = dotWord i na.integer n e sc d va vb s)
    (ha : ∀ l k, va c l k = packedVal na half k (x l).1 (x l).2) (hb : ∀ l k, vb c l k = packedVal nb half k (y l).1 (y l).2)
    (hint : na.integer = true → nb.integer = true) (hi : Issues i s c) :
    ∃ r : Nat → Nat × FlagSet,
      (∀ l, BlockRule na.integer (fp32.value (c.rd l d.toNat 0)) (dotScale c sc e l (·.selA)) (dotScale c sc e l (·.selB))
        ((List.range n).map fun k => (packedVal na half k (x l).1 (x l).2, packedVal nb half k (y l).1 (y l).2)) (r l)) ∧
      WritesLanes i s c fun l => { outW d (r l).1 with flags := (r l).2 } := by
  refine ⟨fun l => blockSum na.integer (.to .rne) (c.rd l d.toNat 0) (dotScale c sc e l (·.selA)) (dotScale c sc e l (·.selB))
    ((List.range n).map fun k => (va c l k, vb c l k)), fun l => ?_, ?_⟩
  · simp only [ha, hb]
    refine blockSum_rule _ _ _ _ fun h p hp => ?_
    obtain ⟨k, -, rfl⟩ := List.mem_map.mp hp
    obtain ⟨a, m, ea, h1⟩ := packedVal_integer h half k (x l).1 (x l).2
    obtain ⟨b, m', eb, h2⟩ := packedVal_integer (hint h) half k (y l).1 (y l).2
    exact ⟨a, m, ea, b, m', eb, Prod.ext h1 h2⟩
  · refine computes_lane he (fun _ l => ?_) (fun _ _ => outW_bound) hi
    cases sc with
    | none => rfl
    | some q => simp only [dotScale, ← scaleByte_leader]; rfl

/-- DOT6 has two formats. -/
theorem wf_dot6 {h : Hd} {fmt : DotFmt} {alt half : Bool} {sc : Option DotScale} {d a b : Reg}
    (hw : (Instr.dot6 h fmt alt half sc d a b).WellFormed) : fmt ≠ .fmt2 := by
  have := firstFail_none hw.2
  rintro rfl
  simp [DotFmt.isFmt2] at this

/-- Settles O13: the lanes' elements are those of the formats, and the block is summed exactly and rounded once. -/
theorem dotProducts : Obligations.DotProducts := by
  intro s c h fmt alt half sc d a b scale sum one two pop
  have plain (nf : NarrowFmt) (h1 : nf.fp6 = false) (h2 : nf.integer = false) (r : Reg) (p l k : Nat) :
      nf.fmt.value (c.elemOf l r p nf.bits k) = packedVal nf half k (one r p l).1 (one r p l).2 := by
    rw [elemOf_eq c l r p h1 half, packedVal_float h2]
  have signed (nf : NarrowFmt) (h1 : nf.fp6 = false) (h2 : nf.integer = true) (h3 : nf.signedInt = true) (r : Reg) (p l k : Nat) :
      intVal true nf.bits (c.elemOf l r p nf.bits k) = packedVal nf half k (one r p l).1 (one r p l).2 := by
    rw [elemOf_eq c l r p h1 half, intVal_signed h2 h3]
  have unsigned (nf : NarrowFmt) (h1 : nf.fp6 = false) (h2 : nf.integer = true) (h3 : nf.signedInt = false) (r : Reg) (p l k : Nat) :
      intVal false nf.bits (c.elemOf l r p nf.bits k) = packedVal nf half k (one r p l).1 (one r p l).2 := by
    rw [elemOf_eq c l r p h1 half, intVal_unsigned h2 h3]
  have six (nf : NarrowFmt) (h1 : nf.fp6 = true) (h2 : nf.integer = false) (r : Reg) (l k : Nat) :
      nf.fmt.value (Machine.getElem .e3m2 half k (c.rd l r.toNat 0, c.rd l (r.toNat + 1) 0)) =
        packedVal nf half k (two r l).1 (two r l).2 := by
    rw [getElem_eq _ half k (rd_lt ..) (rd_lt ..), elemCode_fp6 h1, packedVal_float h2]
  refine ⟨?_, ?_, ?_⟩
  · cases fmt with
    | fmt0 =>
      cases alt with
      | false => exact dotWord_rule .e4m3 .e4m3 (exec_dot4 ..) (plain .e4m3 rfl rfl a 0) (plain .e4m3 rfl rfl b pop) id
      | true => exact dotWord_rule .e4m3 .e5m2 (exec_dot4 ..) (plain .e4m3 rfl rfl a 0) (plain .e5m2 rfl rfl b pop) nofun
    | fmt1 =>
      cases alt with
      | false => exact dotWord_rule .e5m2 .e5m2 (exec_dot4 ..) (plain .e5m2 rfl rfl a 0) (plain .e5m2 rfl rfl b pop) id
      | true => exact dotWord_rule .e5m2 .e4m3 (exec_dot4 ..) (plain .e5m2 rfl rfl a 0) (plain .e4m3 rfl rfl b pop) nofun
    | fmt2 => exact dotWord_rule .i8 .i8 (exec_dot4 ..) (signed .i8 rfl rfl rfl a 0) (signed .i8 rfl rfl rfl b pop) id
  · intro hi
    cases fmt with
    | fmt0 =>
      cases alt with
      | false => exact dotWord_rule .e3m2 .e3m2 (exec_dot6 ..) (six .e3m2 rfl rfl a) (six .e3m2 rfl rfl b) id hi
      | true => exact dotWord_rule .e3m2 .e2m3 (exec_dot6 ..) (six .e3m2 rfl rfl a) (six .e2m3 rfl rfl b) nofun hi
    | fmt1 =>
      cases alt with
      | false => exact dotWord_rule .e2m3 .e2m3 (exec_dot6 ..) (six .e2m3 rfl rfl a) (six .e2m3 rfl rfl b) id hi
      | true => exact dotWord_rule .e2m3 .e3m2 (exec_dot6 ..) (six .e2m3 rfl rfl a) (six .e3m2 rfl rfl b) nofun hi
    | fmt2 => exact absurd rfl (wf_dot6 hi.wf)
  · cases fmt with
    | fmt0 => exact dotWord_rule .e2m1 .e2m1 (exec_dot8 ..) (plain .e2m1 rfl rfl a 0) (plain .e2m1 rfl rfl b pop) id
    | fmt1 => exact dotWord_rule .i4 .i4 (exec_dot8 ..) (signed .i4 rfl rfl rfl a 0) (signed .i4 rfl rfl rfl b pop) id
    | fmt2 => exact dotWord_rule .n4 .n4 (exec_dot8 ..) (unsigned .n4 rfl rfl rfl a 0) (unsigned .n4 rfl rfl rfl b pop) id

/-! ## Draws of the lane generator (R77, R78, R139) -/

theorem drawN_snd (n : Nat) (g : DWord × DWord) : (drawN n g).2 = genSteps n g := by
  induction n generalizing g with
  | zero => rfl
  | succ n ih => exact ih (genNext g)

/-- Lanes with other generators. -/
def withGens (L : Lanes) (g : Tab DWord × Tab DWord) : Lanes := { L with g0 := g.1, g1 := g.2 }
theorem withGens_self (L : Lanes) : withGens L (L.g0, L.g1) = L := rfl

theorem setReg_withGens (L : Lanes) (g : Tab DWord × Tab DWord) (xb l f : Nat) (v : Word) :
    (withGens L g).setReg xb l f v = withGens (L.setReg xb l f v) g := by
  unfold Lanes.setReg
  split
  · rfl
  · split <;> rfl
theorem setPred_withGens (L : Lanes) (g : Tab DWord × Tab DWord) (l n : Nat) (v : Bool) :
    (withGens L g).setPred l n v = withGens (L.setPred l n v) g := by
  unfold Lanes.setPred
  split <;> rfl
theorem orFlags_withGens (L : Lanes) (g : Tab DWord × Tab DWord) (l : Nat) (f : FlagSet) :
    (withGens L g).orFlags l f = withGens (L.orFlags l f) g := by
  unfold Lanes.orFlags
  split <;> rfl
/-- What a lane writes does not meet the generators. -/
theorem apply_withGens (o : LaneOut) (xb l : Nat) (L : Lanes) (g : Tab DWord × Tab DWord) :
    o.apply xb l (withGens L g) = withGens (o.apply xb l L) g := by
  unfold LaneOut.apply
  dsimp only
  rw [← orFlags_withGens]
  congr 1
  rw [List.foldl_hom (withGens · g) (fun M r => (setReg_withGens M g xb l r.1 r.2)),
    List.foldl_hom (withGens · g) (fun M p => (setPred_withGens M g l p.1 p.2))]
theorem foldl_apply_withGens (out : Nat → LaneOut) (xb : Nat) (ls : List Nat) (L : Lanes) (g : Tab DWord × Tab DWord) :
    ls.foldl (fun L l => (out l).apply xb l L) (withGens L g) = withGens (ls.foldl (fun L l => (out l).apply xb l L) L) g :=
  List.foldl_hom (withGens · g) (fun M l => apply_withGens (out l) xb l M g)

theorem gen_setGen (L : Lanes) (l l' : Nat) (g : DWord × DWord) : (L.setGen l g).gen l' = if l = l' then g else L.gen l' := by
  unfold Lanes.gen Lanes.setGen
  simp only [tabGet_tabPut]
  split <;> rfl
theorem gen_apply (o : LaneOut) (xb l l' : Nat) (L : Lanes) : (o.apply xb l L).gen l' = L.gen l' := by
  have := apply_withGens o xb l L (L.g0, L.g1)
  rw [withGens_self] at this
  rw [this]; rfl

/-- One lane of a word that draws n times. -/
def drawLane (c : Ctx) (n : Nat) (f : Ctx → List DWord → Nat → LaneOut) (L : Lanes) (l : Nat) : Lanes :=
  let r := drawN n (c.drawFrom L l)
  let L := (f c r.1 l).apply c.run.xb l L
  if hasLane c.run.seeded l then L else L.setGen l r.2

theorem drawLane_eq (c : Ctx) (n : Nat) (f : Ctx → List DWord → Nat → LaneOut) (L : Lanes) (l : Nat) :
    ∃ g, drawLane c n f L l = withGens ((f c (drawN n (c.drawFrom L l)).1 l).apply c.run.xb l L) g := by
  unfold drawLane
  dsimp only
  split
  · exact ⟨_, (withGens_self _).symm⟩
  · exact ⟨(_, _), rfl⟩
theorem gen_drawLane (c : Ctx) (n : Nat) (f : Ctx → List DWord → Nat → LaneOut) (L : Lanes) (l l' : Nat) :
    (drawLane c n f L l).gen l' = if l = l' ∧ hasLane c.run.seeded l' = false then genSteps n (L.gen l') else L.gen l' := by
  unfold drawLane
  dsimp only
  split
  · next h =>
    rw [gen_apply, if_neg]
    rintro ⟨rfl, h'⟩
    simp [h] at h'
  · next h =>
    rw [gen_setGen, gen_apply, drawN_snd]
    by_cases e : l = l'
    · subst e
      rw [Bool.not_eq_true] at h
      simp only [h, and_self, if_true, Ctx.drawFrom, Bool.false_eq_true, if_false]
    · simp [e]

/-- Every lane of a list, each once: it writes what it writes alone, and its generator takes its own steps. -/
theorem foldl_drawLane (c : Ctx) (n : Nat) (f : Ctx → List DWord → Nat → LaneOut) (out : Nat → LaneOut) (ls : List Nat)
    (hn : ls.Nodup) (L : Lanes) (hf : ∀ l ∈ ls, f c (drawN n (c.drawFrom L l)).1 l = out l) :
    (∃ g, ls.foldl (drawLane c n f) L = withGens (ls.foldl (fun L l => (out l).apply c.run.xb l L) L) g) ∧
    ∀ l, (ls.foldl (drawLane c n f) L).gen l = if l ∈ ls ∧ hasLane c.run.seeded l = false then genSteps n (L.gen l) else L.gen l := by
  induction ls generalizing L with
  | nil => exact ⟨⟨_, (withGens_self L).symm⟩, by simp⟩
  | cons a ls ih =>
    obtain ⟨ha, hn⟩ := List.nodup_cons.mp hn
    have hgen (l : Nat) (hl : l ∈ ls) : (drawLane c n f L a).gen l = L.gen l := by
      rw [gen_drawLane, if_neg]
      rintro ⟨rfl, -⟩
      exact ha hl
    obtain ⟨⟨g, hg⟩, hG⟩ := ih hn (drawLane c n f L a) fun l hl => by
      rw [Ctx.drawFrom, hgen l hl]
      exact hf l (List.mem_cons_of_mem _ hl)
    obtain ⟨g', hg'⟩ := drawLane_eq c n f L a
    rw [hf a List.mem_cons_self] at hg'
    refine ⟨⟨g, ?_⟩, fun l => ?_⟩
    · rw [List.foldl_cons, List.foldl_cons, hg, hg', foldl_apply_withGens]
      rfl
    · rw [List.foldl_cons, hG, gen_drawLane]
      by_cases e : a = l
      · subst e; simp [ha]
      · simp [e, Ne.symm e]

/-- A word that draws: the lanes write, their generators move, and nothing else changes. -/
theorem drawsLanes_of_drawWord {i : Instr} {n : Nat} {f : Ctx → List DWord → Nat → LaneOut} {s : State} {c : Ctx}
    {out : Nat → LaneOut} (he : exec i s = drawWord i n f s) (h : Issues i s c)
    (hf : ∀ l, f c (drawN n (c.drawFrom c.gang.lanes l)).1 l = out l) (hr : ∀ l, ∀ p ∈ (out l).regs, p.1 < 128) :
    DrawsLanes i s c n out := by
  obtain ⟨⟨g, hg⟩, hG⟩ := foldl_drawLane c n f out (lanesIn (performing i c)) (lanesIn_nodup _) c.gang.lanes fun l _ => hf l
  refine ⟨_, writeLanes c.run.xb (performing i c) out c.gang.lanes, (lanesIn (performing i c)).foldl (drawLane c n f) c.gang.lanes,
    he.trans (word_ok h.issuer h.clear rfl), ?_, writeLanes_laneWrite _ _ out _ hr, ?_, fun l => ?_⟩
  · rw [Ctx.begin_modGang]
    have e : (popped i c).lanes = c.gang.lanes := by simp [popped]
    rw [e]
    exact gangOnly_setGang ..
  · rw [hg]; rfl
  · rw [hG]
    simp only [mem_lanesIn, Bool.and_eq_true, Bool.not_eq_true']

/-! ## RND (R138) -/

/-- A 24-bit draw at the place 2^-24 is FP32 exactly. -/
theorem rnd_f32 {m : Nat} (hm : m < 2 ^ 24) :
    let r := fp32.round (.to .rne) false m (-24)
    r.1 < 2 ^ 32 ∧ (fp32.value r.1).isNan = false ∧ (fp32.value r.1).isInf = false ∧ numberOf (fp32.value r.1) = m / 2 ^ 24 := by
  obtain ⟨-, hlt, m', e', hv, he⟩ := round_exact regular_fp32 (.to .rne) false
    (fits_fp32 hm (by norm_num) (by norm_num : (-24 : Int) ≤ 104))
  refine ⟨hlt, by rw [hv]; rfl, by rw [hv]; rfl, ?_⟩
  have hnum : numberOf (.fin false m' e') = numberOf (.fin false m (-24)) := by
    rw [← Rat.cast_inj (α := ℝ), numberOf_fin_cast, numberOf_fin_cast, he]
  rw [hv, hnum]
  simp [numberOf, zpow_neg, div_eq_mul_inv]

/-! ## The numbers drawn -/

theorem draw16_eq (x : DWord) : draw16 x = (x.extractLsb' 48 16).toNat := by
  have := x.isLt
  rw [BitVec.extractLsb'_toNat, Nat.shiftRight_eq_div_pow, draw16]
  omega
theorem draw32_eq (x : DWord) : draw32 x = (x.extractLsb' 32 32).toNat := by
  have := x.isLt
  rw [BitVec.extractLsb'_toNat, Nat.shiftRight_eq_div_pow, draw32]
  omega
theorem draw24_eq (x : DWord) : x.toNat / 2 ^ 40 = (x.extractLsb' 40 24).toNat := by
  have := x.isLt
  rw [BitVec.extractLsb'_toNat, Nat.shiftRight_eq_div_pow]
  omega

/-! ## RNDSEED (R79, R137) -/

/-- RNDSEED reads a pair, and so no queue. -/
theorem rndseed_popped {c : Ctx} {h : Hd} {a : Reg} (hw : (Instr.rndseed h a).WellFormed) :
    popped (.rndseed h a) c = c.gang := by
  have := firstFail_none hw.2
  simp at this
  have ha := a.isLt
  refine Gang.pops_none _ _ _ fun f hf => ?_
  have hu : (usesOf (.rndseed h a)).reads = [a.toNat, a.toNat + 1] := rfl
  rw [hu, List.mem_cons, List.mem_singleton] at hf
  simp only [pairOk, noQueue, Bool.and_eq_true, Bool.or_eq_true, decide_eq_true_eq, beq_iff_eq] at this
  omega

/-- Generators set lane by lane. -/
theorem foldl_setGen (v : Nat → DWord × DWord) (ls : List Nat) (L : Lanes) :
    (∃ g, ls.foldl (fun L l => L.setGen l (v l)) L = withGens L g) ∧
    ∀ l, (ls.foldl (fun L l => L.setGen l (v l)) L).gen l = if l ∈ ls then v l else L.gen l := by
  induction ls generalizing L with
  | nil => exact ⟨⟨_, (withGens_self L).symm⟩, by simp⟩
  | cons a ls ih =>
    obtain ⟨⟨g, hg⟩, hG⟩ := ih (L.setGen a (v a))
    refine ⟨⟨g, by rw [List.foldl_cons, hg]; rfl⟩, fun l => ?_⟩
    rw [List.foldl_cons, hG, gen_setGen]
    by_cases e : a = l
    · subst e; simp
    · simp [e, Ne.symm e]

/-- The generator that RNDSEED gives lane l: its seed mixed with the identity of its place of origin. -/
def seededGen (s : State) (c : Ctx) (a : Reg) (l : Nat) : DWord × DWord :=
  let g := s.gang (c.ident l).1
  genSeed (BitVec.ofNat 64 (c.rdPair l a.toNat)) (laneId (s.block g.block).idx g.num (c.ident l).2)

theorem rndseed_effect {s : State} {c : Ctx} {h : Hd} {a : Reg} (hi : Issues (.rndseed h a) s c) :
    ∃ t L, exec (.rndseed h a) s = .next t ∧ tabFind t.gangs c.gid = some { c.gang with lanes := L } ∧
      (∀ n, n ≠ c.gid → tabFind t.gangs n = tabFind s.gangs n) ∧ L = { c.gang.lanes with g0 := L.g0, g1 := L.g1 } ∧
      (∀ l, L.gen l = if hasLane (performing (.rndseed h a) c) l then seededGen s c a l else c.gang.lanes.gen l) ∧
      t = { s with
        gangs := t.gangs
        runs := tabPut s.runs c.slot { c.run with seeded := c.run.seeded ||| performing (.rndseed h a) c } } := by
  have hb : c.begin (.rndseed h a) s = s.setGang c.gid c.gang := by
    rw [← rndseed_popped (c := c) hi.wf]; rfl
  have hg (n : Nat) : (c.begin (.rndseed h a) s).gang n = s.gang n := by
    rw [hb]
    by_cases e : c.gid = n
    · subst e; rw [State.gang_setGang_self, State.gang_of_issuer hi.issuer]
    · exact State.gang_setGang_ne s _ e
  have hs : seededGen (c.begin (.rndseed h a) s) c a = seededGen s c a := by
    funext l
    unfold seededGen
    rw [hg, hb]
    rfl
  obtain ⟨⟨g, hL⟩, hG⟩ := foldl_setGen (seededGen s c a) (lanesIn (performing (.rndseed h a) c)) c.gang.lanes
  refine ⟨_, (lanesIn (performing (.rndseed h a) c)).foldl (fun L l => L.setGen l (seededGen s c a l)) c.gang.lanes,
    (exec_rndseed h a s).trans (word_ok hi.issuer hi.clear rfl), ?_, fun n hn => ?_, ?_, fun l => ?_, ?_⟩
  · rw [← hs, ← rndseed_popped (c := c) hi.wf]
    simp only [Ctx.begin_modGang]
    exact tabFind_tabPut_self ..
  · simp only [Ctx.begin_modGang]
    exact tabFind_tabPut_ne _ _ (Ne.symm hn)
  · rw [hL]; rfl
  · rw [hG]
    simp only [mem_lanesIn]
  · rfl

/-! ## The words that draw -/

theorem wf_cvtsr {h : Hd} {dst src : CvtFmt} {d a : Reg} (hw : (Instr.cvtsr h dst src d a).WellFormed) :
    dstW dst.is64 d = true := by
  have := firstFail_none hw.2
  simp at this
  exact this.2.1
theorem wf_rnd {h : Hd} {kind : RndKind} {d : Reg} (hw : (Instr.rnd h kind d).WellFormed) : dstW (kind == .n64) d = true := by
  have := firstFail_none hw.2
  simpa using this

/-- CVTSR: the draw of each lane rounds its conversion. -/
theorem cvtsr_draws (h : Hd) (dst src : CvtFmt) (d a : Reg) {s : State} {c : Ctx} (hi : Issues (.cvtsr h dst src d a) s c) :
    let x (l : Nat) := cvtBits dst src (.sr (draw16 (drawAt c l 0))) false false (c.opA l src.is64 a)
    DrawsLanes (.cvtsr h dst src d a) s c 1 fun l => { outSize dst.is64 d (x l).1 with flags := (x l).2 } :=
  drawsLanes_of_drawWord (exec_cvtsr ..) hi (fun _ => rfl) fun _ => outSize_bound (wf_cvtsr hi.wf)
/-- PACK with SR: the first draw of a lane rounds the first source, the second the second. -/
theorem pack_draws (h : Hd) (nf : NarrowFmt) (half : Bool) (j : BitVec 2) (d a : Reg) (b : Src) {s : State} {c : Ctx}
    (hi : Issues (.pack h nf true .rne half j d a b) s c) :
    let e (l : Nat) := packCode c nf (fun k => .sr (draw16 (drawAt c l k))) a b l
    let r (l : Nat) := packRegs c nf half j.toNat d l (e l 0).1 (e l 1).1
    DrawsLanes (.pack h nf true .rne half j d a b) s c 2 fun l =>
      { regs := (d.toNat, (r l).1) :: (if nf.fp6 then [(d.toNat + 1, (r l).2)] else []), preds := [],
        flags := (e l 0).2 ||| (e l 1).2 } := by
  obtain ⟨hj, hd⟩ := wf_pack hi.wf
  exact drawsLanes_of_drawWord (f := fun c ds l =>
      packLane c l nf (.sr (draw16 (ds.getD 0 0))) (.sr (draw16 (ds.getD 1 0))) half j.toNat d a b) rfl hi
    (fun l => packLane_eq c l (fun k => .sr (draw16 (drawAt c l k))) half d a b hj) fun _ => packRegs_bound hd _ _
/-- RND: one draw in each lane. -/
theorem rnd_draws (h : Hd) (kind : RndKind) (d : Reg) {s : State} {c : Ctx} (hi : Issues (.rnd h kind d) s c) :
    DrawsLanes (.rnd h kind d) s c 1 fun l => outSize (kind == .n64) d (rndOut kind (drawAt c l 0)) :=
  drawsLanes_of_drawWord (exec_rnd ..) hi (fun _ => rfl) fun _ => outSize_bound (wf_rnd hi.wf)

/-- RND.F32 gives the draw over 2^24, a number of FP32. -/
theorem rndOut_f32 (x : DWord) : rndOut .f32 x < 2 ^ 32 ∧ (fp32.value (rndOut .f32 x)).isNan = false ∧
    (fp32.value (rndOut .f32 x)).isInf = false ∧
    numberOf (fp32.value (rndOut .f32 x)) = (x.extractLsb' 40 24).toNat / 2 ^ 24 := by
  have h : x.toNat / 2 ^ 40 < 2 ^ 24 := by have := x.isLt; omega
  rw [← draw24_eq]
  simp only [rndOut]
  exact rnd_f32 h

/-- Settles O14: each lane takes the draws of its own generator, and the one rounding uses their 16 bits. -/
theorem drawingWords : Obligations.DrawingWords := by
  intro s c h dst src nf half j kind d a b draw
  have hdraw (l k : Nat) : draw16 (drawAt c l k) = draw l k := draw16_eq _
  refine ⟨fun hi => ?_, fun hi => ?_, fun hi => ?_, fun hi => ?_⟩
  · exact ⟨_, fun l => hdraw l 0 ▸ cvtBits_rule .., cvtsr_draws h dst src d a hi⟩
  · refine ⟨_, fun l => ?_, _, fun l => packRegs_rule c half (wf_pack hi.wf).1 d l _ _, pack_draws h nf half j d a b hi⟩
    rw [← hdraw, ← hdraw]
    exact packCode_rule c nf (fun k => .sr (draw16 (drawAt c l k))) a b l
  · refine ⟨fun l => rndOut .f32 (drawAt c l 0), fun l => rndOut_f32 _, ?_⟩
    have hr := rnd_draws h kind d hi
    cases kind with
    | n16 => simp only [rndOut, hdraw] at hr; exact hr
    | n32 => simp only [rndOut, draw32_eq] at hr; exact hr
    | n64 => exact hr
    | f32 => exact hr
  · exact rndseed_effect hi

/-! ## What memory's operations leave: the streams of packets -/

@[simp] theorem toCells_streams (s : State) (f : Pending → Bool) : (s.toCells f).streams = s.streams := by
  refine foldl_keeps (fun t : State => t.streams = s.streams) _ ?_ _ _ ?_
  · exact fun _ _ h => h
  · rfl
theorem clearAll_streams (ps : List Pending) (s : State) :
    (ps.foldl (fun s p => s.clearBits p.cell p.bytes.length) s).streams = s.streams := by
  refine foldl_keeps (fun t : State => t.streams = s.streams) _ ?_ _ _ rfl
  exact fun _ _ h => h
@[simp] theorem fitL2_streams (s : State) (die : Nat) : (s.fitL2 die).streams = s.streams := by
  simp only [State.fitL2]
  split
  · rfl
  · exact toCells_streams ..
@[simp] theorem toDie_streams (s : State) (f : Pending → Bool) : (s.toDie f).streams = s.streams :=
  foldl_keeps (fun t : State => t.streams = s.streams) _ (fun _ d h => (fitL2_streams _ d).trans h) _ _
    (clearAll_streams ..)
@[simp] theorem recall_streams (s : State) (cell n : Nat) : (s.recall cell n).streams = s.streams :=
  (toCells_streams ..).trans (toDie_streams ..)
@[simp] theorem recallUnit_streams (s : State) (cell n : Nat) : (s.recallUnit cell n).streams = s.streams := by
  unfold State.recallUnit
  split
  · rfl
  · exact recall_streams ..
@[simp] theorem recallThrough_streams (s : State) (win : Bool) (cell n : Nat) : (s.recallThrough win cell n).streams = s.streams :=
  (toCells_streams ..).trans (toDie_streams ..)
@[simp] theorem dropWrite_streams (s : State) (cell : Nat) : (s.dropWrite cell).streams = s.streams :=
  State.setChannel_streams ..
@[simp] theorem storeUc_streams (s : State) (win : Bool) (cell : Nat) (bytes : List Byte) (m : Maker) :
    (s.storeUc win cell bytes m).streams = s.streams :=
  recallThrough_streams ..
theorem addPending_streams {s : State} {p : Pending} (h : p.reach = .die) : (s.addPending p).streams = s.streams := by
  rw [State.addPending, h]
  exact fitL2_streams ..
@[simp] theorem storeDie_streams (s : State) (core : Option Nat) (win : Bool) (cell : Nat) (bytes : List Byte) (m : Maker) :
    (s.storeDie core win cell bytes m).streams = s.streams := by
  refine (addPending_streams ?_).trans (toDie_streams s _)
  split <;> rfl
/-- A home's store, no core's, sends and counts no packet. -/
@[simp] theorem store_none_streams (s : State) (scope : Scope) (cache : Nat) (win : Bool) (cell : Nat) (bytes : List Byte)
    (m : Maker) :
    (s.store none scope cache win cell bytes m).streams = s.streams := by
  unfold State.store
  split
  · rfl
  split
  · exact dropWrite_streams ..
  split
  · exact storeUc_streams ..
  dsimp only
  split
  · exact (toCells_streams ..).trans (storeDie_streams ..)
  · exact storeDie_streams ..

/-! ## What a unit's update draws -/

/-- A unit's work leaves the streams, and draws a status below 4. -/
def Modest (s : State) (r : State × Nat) : Prop := r.1.streams = s.streams ∧ r.2 < 4

theorem unitUpdate_modest (s : State) (p : Packet) (off n : Nat) (f : Nat → Nat) : Modest s (s.unitUpdate p off n f) := by
  unfold State.unitUpdate
  dsimp only
  split
  · exact ⟨recallUnit_streams .., (by decide : 2 < 4)⟩
  · exact ⟨(store_none_streams ..).trans (recallUnit_streams ..), (by decide : 0 < 4)⟩
theorem accclrUnit_modest (p : Packet) (s : State) (off x : Nat) : Modest s (accclrUnit p s off x) := by
  unfold accclrUnit
  dsimp only
  split
  · exact ⟨rfl, (by decide : 2 < 4)⟩
  split
  · exact ⟨dropWrite_streams .., (by decide : 0 < 4)⟩
  · exact ⟨(store_none_streams ..).trans (recall_streams ..), (by decide : 0 < 4)⟩
theorem writeOnce_modest (s : State) (p : Packet) (off d : Nat) (bad : Bool) : Modest s (s.writeOnce p off d bad) := by
  have hbase : bad.toNat * 2 < 4 := by cases bad <;> decide
  have hboth : Nat.lor 1 (bad.toNat * 2) < 4 := by cases bad <;> decide
  unfold State.writeOnce
  dsimp only
  split
  · exact ⟨recallUnit_streams .., (by decide : 2 < 4)⟩
  split
  · exact ⟨(dropWrite_streams ..).trans (recallUnit_streams ..), (by decide : 0 < 4)⟩
  split
  · exact ⟨recallUnit_streams .., hboth⟩
  split
  · exact ⟨(store_none_streams ..).trans (recallUnit_streams ..), (by decide : 2 < 4)⟩
  split
  · exact ⟨recallUnit_streams .., (by decide : 2 < 4)⟩
  split
  · exact ⟨(store_none_streams ..).trans (recallUnit_streams ..), (by decide : 0 < 4)⟩
  split
  · exact ⟨recallUnit_streams .., hbase⟩
  · exact ⟨recallUnit_streams .., hboth⟩

/-- Statuses of units in turn. -/
theorem modest_foldl {β : Type} (f : State → β → State × Nat) (h : ∀ s x, Modest s (f s x)) (xs : List β) (s : State) (a : Nat)
    (ha : a < 4) :
    Modest s (xs.foldl (fun r e => ((f r.1 e).1, Nat.lor r.2 (f r.1 e).2)) (s, a)) := by
  refine foldl_keeps (Modest s) _ (fun r e hr => ?_) xs _ ⟨rfl, ha⟩
  obtain ⟨h1, h2⟩ := h r.1 e
  exact ⟨h1.trans hr.1, Nat.or_lt_two_pow (n := 2) hr.2 h2⟩

/-- In turn, as a fold goes. -/
theorem inTurn_foldl {α β : Type} {R : α → β → β → Prop} (f : β → α → β) (h : ∀ b x, R x b (f b x)) (xs : List α) (b : β) :
    InTurn R xs b (xs.foldl f b) := by
  refine ⟨fun i => (xs.take i).foldl f b, rfl, congrArg (List.foldl f b) List.take_length, fun i x hx => ?_⟩
  obtain ⟨hi, rfl⟩ := List.getElem?_eq_some_iff.mp hx
  dsimp only
  rw [List.take_succ_eq_append_getElem hi, List.foldl_append]
  exact h ..

/-! ## The units of commutative packets (R81, R385, R386) -/

theorem nbit_eq_testBit (x k : Nat) : nbit x k = x.testBit k := by
  rw [Nat.testBit_eq_decide_div_mod_eq]
  rfl

/-- The home's own store, as the statements have it. -/
theorem homePut_eq (s : State) (p : Packet) (cell : Nat) (bytes : List Byte) :
    s.store none .d (pktCache p.pa) (pktWin p.pa) cell bytes Maker.none = homePut s p cell bytes := by
  rw [pktCache, pktUc, pktWin, nbit_eq_testBit, nbit_eq_testBit]
  rfl

/-- A status joined to those before it. -/
def joined (a : State × Nat) (r : State × Nat) : State × Nat := (r.1, Nat.lor a.2 r.2)

section
variable {s : State} {p : Packet} {off n : Nat} (f : Nat → Nat)

/-- A poisoned unit is left as it is. -/
theorem unitUpdate_poisoned (h : (unitReady s (homeCell p.dst p.pa off) n).poisonedAt (homeCell p.dst p.pa off) n = true) :
    s.unitUpdate p off n f = (unitReady s (homeCell p.dst p.pa off) n, 2) :=
  if_pos h
/-- Any other takes its new value. -/
theorem unitUpdate_clean (h : (unitReady s (homeCell p.dst p.pa off) n).poisonedAt (homeCell p.dst p.pa off) n = false) :
    s.unitUpdate p off n f =
      let cell := homeCell p.dst p.pa off
      let u := unitReady s cell n
      ({ homePut u p cell (leBytes n (f (u.readNat .die (p.pa.testBit 64) cell n))) with bits := u.bits }, 0) := by
  rw [← nbit_eq_testBit]
  dsimp only
  rw [← homePut_eq]
  exact if_neg (by rw [Bool.not_eq_true]; exact h)
end

theorem unitUpdate_rule (p : Packet) (off n : Nat) {f : Nat → Nat} {new : Nat → Nat → Prop} (h : ∀ m, new m (f m)) (a : State × Nat) :
    UpdatesUnit p off n new a (joined a (a.1.unitUpdate p off n f)) := by
  refine ⟨fun hp => ?_, fun hp => ⟨_, h _, ?_⟩⟩
  · rw [unitUpdate_poisoned f hp]; rfl
  · rw [unitUpdate_clean f hp]; exact Prod.ext rfl (Nat.or_zero _)

/-! ### Cells -/

theorem lt_two_pow_of_wrap (w : Nat) (x : Int) : wrapN w x < 2 ^ w := by
  rw [wrapN_eq_toNat]; exact BitVec.isLt _
theorem wrapN_cast (w : Nat) (x : Int) : (wrapN w x : Int) = x % 2 ^ w := by
  rw [wrapN, Int.toNat_of_nonneg (Int.emod_nonneg _ (by positivity))]
  norm_num

/-- A number whose last place is 2^-149 or more is a whole count of those places. -/
theorem fixed_eq (n : Bool) (m : Nat) {e : Int} (he : -149 ≤ e) :
    ((fsign n (m * 2 ^ (e + 149).toNat / 2 ^ (-(e + 149)).toNat) : Int) : ℚ) = numberOf (.fin n m e) * 2 ^ 149 := by
  have h0 : (-(e + 149)).toNat = 0 := by omega
  have hp : (2 : ℚ) ^ e * 2 ^ 149 = 2 ^ (e + 149).toNat := by
    rw [← zpow_natCast 2 (e + 149).toNat, Int.toNat_of_nonneg (by omega), zpow_add₀ two_ne_zero]; norm_cast
  rw [h0, pow_zero, Nat.div_one]
  cases n <;> simp [fsign, numberOf, mul_assoc, hp]

theorem cellAdd_rule (c : Nat) {v : FVal} (h : ∀ n m e, v = .fin n m e → -149 ≤ e) : CellTakes v c (cellAdd c v) := by
  have hc : (if cellCount c < 2 ^ 24 - 1 then cellCount c + 1 else 2 ^ 24 - 1) = min (2 ^ 24 - 1) (c / 2 ^ 488 + 1) := by
    unfold cellCount
    generalize c / 2 ^ 488 = k
    split <;> omega
  have hf : cellFix c < 2 ^ 480 := Nat.mod_lt _ (by positivity)
  unfold CellTakes cellAdd
  simp only [hc]
  cases v with
  | nan s => exact ⟨_, _, rfl, hf, rfl, rfl⟩
  | inf n =>
    cases n with
    | false => exact ⟨_, _, rfl, hf, rfl, rfl⟩
    | true => exact ⟨_, _, rfl, hf, rfl, rfl⟩
  | fin n m e =>
    refine ⟨_, _, rfl, lt_two_pow_of_wrap .., rfl, _, fixed_eq n m (h n m e rfl), ?_⟩
    rw [wrapN_cast, cellFix]
    rw [Int.natCast_mod, Nat.cast_pow]
    rfl

/-- The formats of RADD have no place below 2^-149. -/
theorem radd_place {f : Fmt} (hf : Regular f) (h : -149 ≤ f.emin - f.mw) (x : Nat) : ∀ n m e, f.value x = .fin n m e → -149 ≤ e :=
  fun _ _ _ hv => h.trans (value_fits hf hv).2.1

/-! ### RMIN and RMAX -/

/-- v is the smaller, or the larger, of m and x by a key. -/
def IsBest (larger : Bool) (f : Nat → Int) (m x v : Nat) : Prop :=
  (v = m ∨ v = x) ∧ (if larger then f m ≤ f v ∧ f x ≤ f v else f v ≤ f m ∧ f v ≤ f x)

theorem isBest_left {larger : Bool} {f : Nat → Int} {m x : Nat} (h : if larger then f x ≤ f m else f m ≤ f x) :
    IsBest larger f m x m := by
  cases larger with
  | false => exact ⟨.inl rfl, le_refl _, h⟩
  | true => exact ⟨.inl rfl, le_refl _, h⟩
theorem isBest_right {larger : Bool} {f : Nat → Int} {m x : Nat} (h : if larger then f m ≤ f x else f x ≤ f m) :
    IsBest larger f m x x := by
  cases larger with
  | false => exact ⟨.inr rfl, h, le_refl _⟩
  | true => exact ⟨.inr rfl, h, le_refl _⟩

/-- The model's choice between two words by a key. -/
theorem isBest_pick (larger : Bool) (f : Nat → Int) (m x : Nat) :
    IsBest larger f m x (if decide (f x < f m) != larger then x else m) := by
  by_cases hl : f x < f m <;> cases larger <;>
    simp only [hl, decide_true, decide_false, bne_self_eq_false, Bool.false_eq_true, if_false]
  · exact isBest_right hl.le
  · exact isBest_left hl.le
  · exact isBest_left (not_lt.mp hl)
  · exact isBest_right (not_lt.mp hl)
/-- Of two words of one key, the first will do. -/
theorem isBest_pick_ne (larger : Bool) (f : Nat → Int) (m x : Nat) :
    IsBest larger f m x (if f x = f m then m else if decide (f x < f m) != larger then x else m) := by
  split
  · next h => exact isBest_left (by cases larger <;> simp [h])
  · exact isBest_pick ..

theorem extremum_rule (larger : Bool) {ty : Nat} (m x : Nat) : Extremum larger ty m x (extremum larger ty m x) := by
  refine ⟨?_, ?_, ?_, ?_⟩
  · rintro rfl
    exact isBest_pick_ne larger (fun y => sval 32 y) m x
  · rintro rfl
    exact isBest_pick_ne larger (fun y => sval 64 y) m x
  · intro h
    have hb := isBest_pick_ne larger (fun y => y) m x
    simp only [Nat.cast_inj, Nat.cast_lt] at hb
    rcases h with rfl | rfl <;> exact hb
  · rintro rfl
    have hb := isBest_pick larger (fun y => orderKey y) (canon32 m) (canon32 x)
    simp only [Nat.cast_lt] at hb
    change IsBest larger (fun y => orderKey y) (canon32 m) (canon32 x)
      (if (decide (orderKey (canon32 x) < orderKey (canon32 m)) != larger && canon32 x != canon32 m) = true
        then canon32 x else canon32 m)
    by_cases hx : canon32 x = canon32 m
    · rw [hx]; simpa using isBest_left (by cases larger <;> simp)
    · simpa [hx] using hb

/-! ### Write-once granules (R389, R391) -/

theorem mem_insNat (l : List Nat) (n x : Nat) : x ∈ insNat l n ↔ x = n ∨ x ∈ l := by
  induction l with
  | nil => simp [insNat]
  | cons y l ih =>
    unfold insNat
    split
    · next h => simp [h]
    · split
      · simp
      · simp only [List.mem_cons, ih]; tauto
theorem woBase_eq (bad : Bool) : bad.toNat * 2 = if bad then 2 else 0 := by cases bad <;> rfl

/-- One granule at its home, written with the statements' own store. -/
theorem writeOnce_eq (s : State) (p : Packet) (off d : Nat) (bad : Bool) :
    s.writeOnce p off d bad =
      let cell := homeCell p.dst p.pa off
      let g := cell / 32
      let u := unitReady s cell 32
      let base := if bad then 2 else 0
      let put (bits : GranuleBits) : State := { homePut u p cell (leBytes 32 d) with bits := bits }
      if u.cellFenced cell = true then (u, 2)
      else if u.inStep cell = true then (u.dropWrite cell, 0)
      else if g ∈ u.bits.conflict then (u, 1 ||| base)
      else if bad = true ∧ g ∉ u.bits.written then
        (put { u.bits with poison := insNat u.bits.poison g, written := insNat u.bits.written g }, 2)
      else if g ∈ u.bits.poison then (u, 2)
      else if g ∉ u.bits.written then (put { u.bits with written := insNat u.bits.written g }, 0)
      else if u.readNat .die (p.pa.testBit 64) cell 32 = d then (u, base)
      else ({ u with
        bits := { u.bits with poison := insNat u.bits.poison g, conflict := insNat u.bits.conflict g }
        dies := tabPut u.dies p.dst { u.die p.dst with woconf := min (2 ^ 64 - 1) ((u.die p.dst).woconf + 1) } }, 1 ||| base) := by
  dsimp only
  rw [← woBase_eq, ← nbit_eq_testBit, ← homePut_eq]
  simp only [State.writeOnce, List.contains_eq_mem, Bool.and_eq_true, Bool.not_eq_true', decide_eq_true_eq, decide_eq_false_iff_not]
  rfl

theorem writeOnce_rule (p : Packet) (off d : Nat) (bad : Bool) (a : State × Nat) :
    WritesOnce p off d bad a (joined a (a.1.writeOnce p off d bad)) := by
  have e := writeOnce_eq a.1 p off d bad
  dsimp only at e
  refine ⟨fun hf => ?_, fun hf hs => ?_, fun hf hs => ?_⟩
  · rw [if_pos hf] at e
    rw [e]; rfl
  · rw [if_neg (ne_true_of_eq_false hf), if_pos hs] at e
    rw [e]; exact Prod.ext rfl (Nat.or_zero _)
  · rw [if_neg (ne_true_of_eq_false hf), if_neg (ne_true_of_eq_false hs)] at e
    refine ⟨fun hc => ?_, fun hc hb hw => ?_, fun hcl hp => ?_, fun hcl hp hw => ?_, fun hcl hp hw hd => ?_, fun hcl hp hw hd => ?_⟩
    · rw [if_pos hc] at e
      rw [e]; rfl
    · rw [if_neg hc, if_pos ⟨hb, hw⟩] at e
      exact ⟨_, _, mem_insNat _ _, mem_insNat _ _, by rw [e]; rfl⟩
    · rw [if_neg hcl.1, if_neg hcl.2, if_pos hp] at e
      rw [e]; rfl
    · rw [if_neg hcl.1, if_neg hcl.2, if_neg hp, if_pos hw] at e
      exact ⟨_, mem_insNat _ _, by rw [e]; exact Prod.ext rfl (Nat.or_zero _)⟩
    · rw [if_neg hcl.1, if_neg hcl.2, if_neg hp, if_neg (not_not.mpr hw), if_pos hd] at e
      rw [e]; rfl
    · rw [if_neg hcl.1, if_neg hcl.2, if_neg hp, if_neg (not_not.mpr hw), if_neg hd] at e
      exact ⟨_, _, mem_insNat _ _, mem_insNat _ _, by rw [e]; rfl⟩

/-! ## Packets entry by entry, granule by granule (R385, R389, R425, R431, R434) -/

theorem eachEntry_eq {p : Packet} {es : List (Nat × Nat × Nat)} (hp : p.body = .entries es) (s : State)
    (f : State → Nat → Nat → State × Nat) :
    s.eachEntry p f = es.foldl (fun a e => joined a (f a.1 e.2.1 e.1)) (s, 0) := by
  rw [State.eachEntry, entriesOf, hp]
  rfl
theorem eachEntry_inTurn {p : Packet} {es : List (Nat × Nat × Nat)} (hp : p.body = .entries es) (s : State)
    {f : State → Nat → Nat → State × Nat} {R : Nat × Nat × Nat → State × Nat → State × Nat → Prop}
    (h : ∀ a e, R e a (joined a (f a.1 e.2.1 e.1))) : InTurn R es (s, 0) (s.eachEntry p f) := by
  rw [eachEntry_eq hp]
  exact inTurn_foldl _ h es _
theorem eachEntry_modest (s : State) (p : Packet) {f : State → Nat → Nat → State × Nat} (h : ∀ s off x, Modest s (f s off x)) :
    Modest s (s.eachEntry p f) :=
  modest_foldl (fun s (e : Nat × Nat × Nat) => f s e.2.1 e.1) (fun s e => h s e.2.1 e.1) _ s 0 (by decide)

theorem writeGranules_eq {p : Packet} {gs : List (Nat × Bool)} (hp : p.body = .granules gs) (s : State) :
    s.writeGranules p =
      ((List.range gs.length).zip gs).foldl (fun a g => joined a (a.1.writeOnce p (32 * g.1) g.2.1 g.2.2)) (s, 0) := by
  rw [State.writeGranules, hp]
  rfl
theorem writeGranules_inTurn {p : Packet} {gs : List (Nat × Bool)} (hp : p.body = .granules gs) (s : State) :
    InTurn (fun e => WritesOnce p (32 * e.1) e.2.1 e.2.2) ((List.range gs.length).zip gs) (s, 0) (s.writeGranules p) := by
  rw [writeGranules_eq hp]
  apply inTurn_foldl
  intro a e
  exact writeOnce_rule ..
theorem writeGranules_modest {p : Packet} {gs : List (Nat × Bool)} (hp : p.body = .granules gs) (s : State) :
    Modest s (s.writeGranules p) := by
  rw [writeGranules_eq hp]
  exact modest_foldl (fun s (g : Nat × Nat × Bool) => s.writeOnce p (32 * g.1) g.2.1 g.2.2)
    (fun s g => writeOnce_modest s p _ _ _) _ s 0 (by decide)

theorem accclrUnit_rule (p : Packet) (off x : Nat) (a : State × Nat) :
    let cell := homeCell p.dst p.pa off
    joined a (accclrUnit p a.1 off x) = if a.1.cellFenced cell then (a.1, a.2 ||| 2)
      else if a.1.inStep cell then (a.1.dropWrite cell, a.2)
      else (homePut (a.1.recall cell 64) p cell (List.replicate 64 0), a.2) := by
  have hz : leBytes 64 0 = List.replicate 64 0 := by decide
  dsimp only
  rw [← hz, ← homePut_eq]
  unfold accclrUnit joined
  dsimp only
  split
  · rfl
  split
  · exact Prod.ext rfl (Nat.or_zero _)
  · exact Prod.ext rfl (Nat.or_zero _)

theorem raddUnit_modest (p : Packet) (ty : Nat) (s : State) (off x : Nat) : Modest s (raddUnit p ty s off x) := by
  unfold raddUnit
  split
  · exact unitUpdate_modest ..
  · split <;> exact unitUpdate_modest ..

/-- What a COLL with ARV does after its granules. -/
def collArrives (s : State) (p : Packet) : State × Nat :=
  joined (s.writeGranules p) ((s.writeGranules p).1.chunkArrival p)
theorem collArrives_modest {p : Packet} {gs : List (Nat × Bool)} (hp : p.body = .granules gs) (s : State) :
    Modest s (collArrives s p) := by
  obtain ⟨h1, h2⟩ := writeGranules_modest hp s
  obtain ⟨h3, h4⟩ := unitUpdate_modest (s.writeGranules p).1 p (32 * (p.opq % 16 + 1)) 8 fun m => (m + 1) % 2 ^ 64
  exact ⟨h3.trans h1, Nat.or_lt_two_pow (n := 2) h2 h4⟩
/-- A COLL's granules, and with ARV its arrival. -/
def collPacket (s : State) (p : Packet) : State × Nat := if nbit p.opq 4 then collArrives s p else s.writeGranules p
theorem collPacket_plain (s : State) {p : Packet} (h : p.opq.testBit 4 = false) : collPacket s p = s.writeGranules p := by
  rw [collPacket, nbit_eq_testBit, h]
  rfl
theorem collPacket_arrives (s : State) {p : Packet} (h : p.opq.testBit 4 = true) : collPacket s p = collArrives s p := by
  rw [collPacket, nbit_eq_testBit, h]
  rfl

theorem raddUnit_word (p : Packet) (s : State) (off x : Nat) :
    raddUnit p 0 s off x = s.unitUpdate p off 4 fun m => (m + x) % 2 ^ 32 := if_pos rfl
theorem raddUnit_pair (p : Packet) (s : State) (off x : Nat) :
    raddUnit p 1 s off x = s.unitUpdate p off 8 fun m => (m + x) % 2 ^ 64 := by
  rw [raddUnit, if_neg one_ne_zero, if_pos rfl]
theorem raddUnit_cell {p : Packet} {ty : Nat} (h : 2 ≤ ty) (s : State) (off x : Nat) :
    raddUnit p ty s off x = s.unitUpdate p off 64 fun m => cellAdd m (raddValue ty x) := by
  rw [raddUnit, if_neg (by omega), if_neg (by omega)]
/-- The values of RADD's float types. -/
theorem raddValue_fmt {ty : Nat} (x : Nat) {f : Fmt}
    (hf : [(2, fp32), (3, fbf16), (4, fp16), (5, fe4m3), (6, fe5m2)].lookup ty = some f) :
    2 ≤ ty ∧ raddValue ty x = f.value x ∧ Regular f ∧ -149 ≤ f.emin - f.mw := by
  obtain ⟨_, _, hl, -⟩ := List.lookup_eq_some_iff.mp hf
  have hm : (ty, f) ∈ [(2, fp32), (3, fbf16), (4, fp16), (5, fe4m3), (6, fe5m2)] := by rw [hl]; simp
  simp only [List.mem_cons, Prod.mk.injEq, List.not_mem_nil, or_false] at hm
  obtain ⟨rfl, rfl⟩ | ⟨rfl, rfl⟩ | ⟨rfl, rfl⟩ | ⟨rfl, rfl⟩ | ⟨rfl, rfl⟩ := hm
  · exact ⟨by decide, rfl, regular_fp32, by decide⟩
  · exact ⟨by decide, rfl, ⟨by decide, by decide⟩, by decide⟩
  · exact ⟨by decide, rfl, ⟨by decide, by decide⟩, by decide⟩
  · exact ⟨by decide, rfl, ⟨by decide, by decide⟩, by decide⟩
  · exact ⟨by decide, rfl, ⟨by decide, by decide⟩, by decide⟩
/-- One entry of a RADD, by its type (R385). -/
theorem raddUnit_rule (p : Packet) (ty : Nat) (a : State × Nat) (e : Nat × Nat × Nat) :
    let b := joined a (raddUnit p ty a.1 e.2.1 e.1)
    (ty = 0 → UpdatesUnit p e.2.1 4 (fun m v => v = (m + e.1) % 2 ^ 32) a b) ∧
    (ty = 1 → UpdatesUnit p e.2.1 8 (fun m v => v = (m + e.1) % 2 ^ 64) a b) ∧
    (∀ f, [(2, fp32), (3, fbf16), (4, fp16), (5, fe4m3), (6, fe5m2)].lookup ty = some f →
      UpdatesUnit p e.2.1 64 (CellTakes (f.value e.1)) a b) := by
  dsimp only
  refine ⟨?_, ?_, fun f hf => ?_⟩
  · intro h
    rw [h, raddUnit_word]
    exact unitUpdate_rule (new := fun m v => v = (m + e.1) % 2 ^ 32) p e.2.1 4 (fun _ => rfl) a
  · intro h
    rw [h, raddUnit_pair]
    exact unitUpdate_rule (new := fun m v => v = (m + e.1) % 2 ^ 64) p e.2.1 8 (fun _ => rfl) a
  · obtain ⟨h2, hv, hr, hp⟩ := raddValue_fmt e.1 hf
    rw [raddUnit_cell h2, hv]
    exact unitUpdate_rule p e.2.1 64 (fun m => cellAdd_rule m (radd_place hr hp e.1)) a

/-! ## Delivery (R381, R398, R457) -/

/-- i delivers the n-th packet in flight, of a kind, unless it waits, and performs it so. -/
def Serves (i : Instr) (n kind : Nat) (held : State → Packet → Bool) (perform : State → Packet → State × Nat) : Prop :=
  ∀ s, exec i s = .next (s.deliver n (fun p => p.kind == kind) State.proxyLost held (fun _ _ => false) perform)

theorem raised_eq {s : State} {p : Packet} {st : Stream} (h : Raised s p st) :
    st = (tabGet s.streams Stream.blank p.stream).raise p.oldest := by
  obtain ⟨hf, hm⟩ := h
  cases st with
  | mk f m =>
    simp only at hf hm
    rw [Stream.raise, Stream.mk.injEq]
    exact ⟨hf, hf ▸ hm⟩

section
variable {i : Instr} {n : Nat} {held : State → Packet → Bool} {perform : State → Packet → State × Nat} {s : State} {p : Packet}
  {st : Stream}

/-- What comes to a fence proxy is lost. -/
theorem exec_proxied (hi : Serves i n p.kind held perform) (hp : s.flight[n]? = some p) (hx : s.proxied p.sdie p.dst = true) :
    exec i s = .next { s with flight := s.flight.eraseIdx n, acks := s.acks ++ [ackOf s p p.sdie 4] } := by
  simp only [hi s, State.deliver, hp, beq_self_eq_true, Bool.not_true, Bool.false_eq_true, if_false, hx, if_true]
  rfl
/-- A packet that the fence masks or the keys do not let in is dropped. -/
theorem exec_refused (hi : Serves i n p.kind held perform) (hp : s.flight[n]? = some p) (hx : s.proxied p.sdie p.dst = false)
    (ha : s.ignores p.sdie p.dst = true ∨ s.accepts p.sdie p.dst p.keyGen p.key = false) :
    exec i s = .next { s with flight := s.flight.eraseIdx n } := by
  have ha' : (s.ignores p.sdie p.dst || !s.accepts p.sdie p.dst p.keyGen p.key) = true := by
    rcases ha with h | h <;> simp [h]
  simp only [hi s, State.deliver, hp, beq_self_eq_true, Bool.not_true, Bool.false_eq_true, if_false, hx, ha', if_true]

/-- A packet that has come home: the stream is raised, and the rest is said of the packet's number. -/
theorem exec_home (hi : Serves i n p.kind held perform) (hp : s.flight[n]? = some p) (hx : s.proxied p.sdie p.dst = false)
    (hg : s.ignores p.sdie p.dst = false) (ha : s.accepts p.sdie p.dst p.keyGen p.key = true) (hr : Raised s p st) :
    exec i s = .next (
      let t := taken s n p st
      if seqBefore p.seq st.floor then t
      else
        match tabFind st.marks p.seq with
        | some v => if v < markPending then t.sendAck p p.dst v else t
        | none =>
          if held s p then s
          else if (!t.isUp p.dst || (st.marks.isEmpty && 16384 ≤ t.markedStreams p.dst)) = true then t
          else
            let r := perform t p
            let u := r.1.mark p r.2
            if r.2 < markPending then u.sendAck p p.dst r.2 else u) := by
  simp only [hi s, State.deliver, hp, beq_self_eq_true, Bool.not_true, Bool.false_eq_true, if_false, hx, hg, ha, Bool.or_self,
    ← raised_eq hr, Bool.false_or]
  rfl

section
variable (hi : Serves i n p.kind held perform) (hp : s.flight[n]? = some p) (hx : s.proxied p.sdie p.dst = false)
  (hg : s.ignores p.sdie p.dst = false) (ha : s.accepts p.sdie p.dst p.keyGen p.key = true) (hr : Raised s p st)
include hi hp hx hg ha hr

theorem exec_below (hf : seqBefore p.seq st.floor = true) : exec i s = .next (taken s n p st) := by
  rw [exec_home hi hp hx hg ha hr]
  exact congrArg _ (if_pos hf)
/-- A duplicate is answered as it was before. -/
theorem exec_marked (hf : seqBefore p.seq st.floor = false) {v : Nat} (hm : tabFind st.marks p.seq = some v) :
    exec i s = .next (if v < 256 then
      { taken s n p st with acks := (taken s n p st).acks ++ [ackOf (taken s n p st) p p.dst v] } else taken s n p st) := by
  rw [exec_home hi hp hx hg ha hr]
  simp only [hf, hm, Bool.false_eq_true, if_false]
  rfl
theorem exec_held (hf : seqBefore p.seq st.floor = false) (hm : tabFind st.marks p.seq = none) (hh : held s p = true) :
    exec i s = .next s := by
  rw [exec_home hi hp hx hg ha hr]
  simp only [hf, hm, hh, Bool.false_eq_true, if_false, if_true]
/-- A home that is not up, or has no room for a mark, drops the packet. -/
theorem exec_dropped (hf : seqBefore p.seq st.floor = false) (hm : tabFind st.marks p.seq = none) (hh : held s p = false)
    (hd : s.isUp p.dst = false ∨ st.marks = [] ∧
      16384 ≤ ({ s with streams := tabPut s.streams p.stream st } : State).markedStreams p.dst) :
    exec i s = .next (taken s n p st) := by
  have hd' : (!(taken s n p st).isUp p.dst || (st.marks.isEmpty && 16384 ≤ (taken s n p st).markedStreams p.dst)) = true := by
    rw [Bool.or_eq_true, Bool.not_eq_true', Bool.and_eq_true, List.isEmpty_iff, decide_eq_true_eq]
    exact hd
  rw [exec_home hi hp hx hg ha hr]
  simp only [hf, hm, hh, hd', Bool.false_eq_true, if_false, if_true]
end

/-- A packet that is new is performed, marked and acknowledged. -/
theorem exec_performed (hi : Serves i n p.kind held perform) (h : Fresh s n p st) (hh : held s p = false)
    (hs : Modest (taken s n p st) (perform (taken s n p st) p)) :
    exec i s = .next (answered (perform (taken s n p st) p).1 p st (perform (taken s n p st) p).2) := by
  obtain ⟨hp, ⟨hx, hg, ha, hup⟩, hr, hf, hm, hroom⟩ := h
  have hd : (!(taken s n p st).isUp p.dst || (st.marks.isEmpty && 16384 ≤ (taken s n p st).markedStreams p.dst)) = false := by
    rw [Bool.or_eq_false_iff, Bool.and_eq_false_imp, List.isEmpty_iff, decide_eq_false_iff_not, not_le]
    exact ⟨by rw [Bool.not_eq_false']; exact hup, hroom⟩
  rw [exec_home hi hp hx hg ha hr]
  simp only [hf, hm, hh, hd, Bool.false_eq_true, if_false]
  obtain ⟨hst, hlt⟩ := hs
  obtain ⟨r, e⟩ : ∃ r, perform (taken s n p st) p = r := ⟨_, rfl⟩
  rw [e] at hst hlt ⊢
  have ht : tabGet r.1.streams Stream.blank p.stream = st := by
    rw [hst]; exact tabGet_tabPut_self ..
  rw [if_pos (by unfold markPending; omega)]
  unfold State.mark
  rw [ht]
  rfl
end

/-! ## What holds a packet (R315, R316) -/

/-- The places that a packet names, as offsets from its address. -/
def placesOf (p : Packet) : List Nat := match p.body with
  | .entries es => es.map fun e => e.2.1
  | .granules gs => (List.range gs.length).map (fun i => 32 * i) ++
      (if p.kind = 13 ∧ p.opq.testBit 4 = true then [32 * gs.length] else [])
  | .arm _ => [0]
  | _ => if p.kind = 6 then (List.range (p.opq % 16 + 1)).map fun i => 32 * i else []

theorem placesOf_eq (p : Packet) : placesOf p = p.touches.map (·.1) := by
  have h13 : (p.kind == kColl && nbit p.opq 4) = decide (p.kind = 13 ∧ p.opq.testBit 4 = true) := by
    rw [Bool.eq_iff_iff, decide_eq_true_eq, Bool.and_eq_true, beq_iff_eq, nbit_eq_testBit]
    rfl
  have h6 : (p.kind == kRget) = decide (p.kind = 6) := by
    rw [Bool.eq_iff_iff, decide_eq_true_eq, beq_iff_eq]
    rfl
  have hrest : (if p.kind = 6 then (List.range (p.opq % 16 + 1)).map fun i => 32 * i else []) =
      (if p.kind == kRget then (List.range (p.opq % 16 + 1)).map fun i => (32 * i, 32) else []).map (·.1) := by
    simp only [h6, decide_eq_true_eq]
    split
    · rw [List.map_map]; rfl
    · rfl
  unfold placesOf Packet.touches
  cases p.body with
  | entries es =>
    dsimp only
    rw [List.map_map]; rfl
  | granules gs =>
    simp only [h13, decide_eq_true_eq, List.map_append, List.map_map]
    split <;> rfl
  | arm va => rfl
  | _ => exact hrest

theorem packetHeld_iff (s : State) (p : Packet) :
    s.packetHeld p = true ↔ ∃ off ∈ placesOf p, s.heldCell (homeCell p.dst p.pa off) = true ∨
      s.behind (Waiter.packet p) (homeCell p.dst p.pa off) = true := by
  rw [placesOf_eq]
  simp only [State.packetHeld, State.unitHeld, List.any_eq_true, Bool.or_eq_true, List.mem_map, exists_exists_and_eq_and]

/-! ## The packets that memory performs -/

/-- An event that delivers packets of a kind, and lets one wait that a channel holds. -/
def ServesMemory (n : Nat) (e : Nat × Instr) : Prop :=
  ∃ held perform, Serves e.2 n e.1 held perform ∧ (∀ s p, s.packetHeld p = true → held s p = true) ∧
    ∀ s p, s.packetHeld p = false → (e.1 = 10 → s.armHeld p = false) → held s p = false

theorem Serves.memory {i : Instr} {n kind : Nat} {perform : State → Packet → State × Nat}
    (h : Serves i n kind State.packetHeld perform) : ServesMemory n (kind, i) :=
  ⟨_, _, h, fun _ _ => id, fun _ _ h _ => h⟩
theorem serves_radd (n : Nat) : Serves (.raddPacket n) n 0 State.packetHeld fun s p => s.eachEntry p (raddUnit p (p.opq % 8)) :=
  fun _ => rfl
theorem serves_rmin (n : Nat) : Serves (.rminPacket n) n 1 State.packetHeld (extremumPacket false) := fun _ => rfl
theorem serves_rmax (n : Nat) : Serves (.rmaxPacket n) n 2 State.packetHeld (extremumPacket true) := fun _ => rfl
theorem serves_ror (n : Nat) : Serves (.rorPacket n) n 3 State.packetHeld fun s p => s.eachEntry p (rorUnit p) := fun _ => rfl
theorem serves_rwo (n : Nat) : Serves (.rwoPacket n) n 4 State.packetHeld State.writeGranules := fun _ => rfl
theorem serves_rarv (n : Nat) : Serves (.rarvPacket n) n 5 State.packetHeld fun s p => s.eachEntry p (rarvUnit p) := fun _ => rfl
theorem serves_rget (n : Nat) : Serves (.rgetPacket n) n 6 State.packetHeld fun s p =>
    ((List.range (p.opq % 16 + 1)).foldl (fun t i => t.rgetReply p s.nextId i) (s.openJob p), markPending) := fun _ => rfl
theorem serves_reply (n : Nat) : Serves (.replyPacket n) n 7 State.packetHeld State.writeGranules := fun _ => rfl
theorem serves_accclr (n : Nat) : Serves (.accclrPacket n) n 11 State.packetHeld fun s p => s.eachEntry p (accclrUnit p) :=
  fun _ => rfl
theorem serves_coll (n : Nat) : Serves (.collPacket n) n 13 State.packetHeld collPacket := fun _ => rfl
theorem serves_arming (n : Nat) : Serves (.armingPacket n) n 10 State.armHeld State.armAt := fun _ => rfl
theorem arming_memory (n : Nat) : ServesMemory n (10, .armingPacket n) :=
  ⟨_, _, serves_arming n, fun _ _ h => by rw [State.armHeld, h, Bool.true_or], fun _ _ _ h => h rfl⟩

theorem memory_serves (n : Nat) : ∀ e ∈ [(0, Instr.raddPacket n), (1, .rminPacket n), (2, .rmaxPacket n), (3, .rorPacket n),
    (4, .rwoPacket n), (5, .rarvPacket n), (6, .rgetPacket n), (7, .replyPacket n), (10, .armingPacket n),
    (11, .accclrPacket n), (13, .collPacket n)], ServesMemory n e := by
  simp only [List.forall_mem_cons]
  exact ⟨(serves_radd n).memory, (serves_rmin n).memory, (serves_rmax n).memory, (serves_ror n).memory, (serves_rwo n).memory,
    (serves_rarv n).memory, (serves_rget n).memory, (serves_reply n).memory, arming_memory n, (serves_accclr n).memory,
    (serves_coll n).memory, List.forall_mem_nil _⟩

/-- What delivers packets of a kind, a resume among them. -/
def ServesPacket (n : Nat) (e : Nat × Instr) : Prop :=
  ∃ held perform, Serves e.2 n e.1 held perform ∧ ∀ s p, s.packetHeld p = false → (e.1 = 10 → s.armHeld p = false) →
    (e.1 = 12 → s.markHeld p = false) → held s p = false
theorem ServesMemory.packet {n : Nat} {e : Nat × Instr} (h : ServesMemory n e) : ServesPacket n e := by
  obtain ⟨held, perform, hs, -, hf⟩ := h
  exact ⟨held, perform, hs, fun s p h1 h2 _ => hf s p h1 h2⟩
theorem resume_serves (n : Nat) : ServesPacket n (12, .resumePacket n) :=
  ⟨State.markHeld, _, fun _ => rfl, fun _ _ _ _ h => h rfl⟩

/-! ## What a packet's entries do, by its kind -/

theorem extremumPacket_modest (larger : Bool) (s : State) (p : Packet) : Modest s (extremumPacket larger s p) :=
  eachEntry_modest s p fun _ _ _ => unitUpdate_modest ..
theorem extremumPacket_inTurn (larger : Bool) {p : Packet} {es : List (Nat × Nat × Nat)} (hp : p.body = .entries es) (s : State) :
    let ty := p.opq % 8
    InTurn (fun e => UpdatesUnit p e.2.1 (if ty = 2 ∨ ty = 3 then 8 else 4) fun m => Extremum larger ty m e.1) es (s, 0)
      (extremumPacket larger s p) := by
  have hn : (if (p.opq % 8 = 2 || p.opq % 8 = 3) = true then 8 else 4) = if p.opq % 8 = 2 ∨ p.opq % 8 = 3 then 8 else 4 := by
    simp only [Bool.or_eq_true, decide_eq_true_eq]
  dsimp only
  rw [← hn]
  unfold extremumPacket
  apply eachEntry_inTurn hp
  intro a e
  exact unitUpdate_rule p e.2.1 _ (fun m => extremum_rule larger m e.1) a

theorem rorUnit_rule (p : Packet) (a : State × Nat) (e : Nat × Nat × Nat) :
    UpdatesUnit p e.2.1 (if p.opq % 8 = 1 then 8 else 4) (fun m v => v = m ||| e.1) a (joined a (rorUnit p a.1 e.2.1 e.1)) :=
  unitUpdate_rule (new := fun m v => v = m ||| e.1) p e.2.1 _ (fun _ => rfl) a
theorem rarvUnit_rule (p : Packet) (a : State × Nat) (e : Nat × Nat × Nat) :
    UpdatesUnit p e.2.1 8 (fun m v => v = (m + e.1) % 2 ^ 64) a (joined a (rarvUnit p a.1 e.2.1 e.1)) :=
  unitUpdate_rule (new := fun m v => v = (m + e.1) % 2 ^ 64) p e.2.1 8 (fun _ => rfl) a
theorem chunkArrival_rule (p : Packet) (a : State × Nat) :
    UpdatesUnit p (32 * (p.opq % 16 + 1)) 8 (fun m v => v = (m + 1) % 2 ^ 64) a (joined a (a.1.chunkArrival p)) :=
  unitUpdate_rule (new := fun m v => v = (m + 1) % 2 ^ 64) p _ 8 (fun _ => rfl) a

/-- Settles O51: what comes before a packet is settled in the order of R381, and the units are then worked on in turn. -/
theorem packetsPerformed : Obligations.PacketsPerformed := by
  intro s n p st hp u gone leads named held ty memory
  have hheld : s.packetHeld p = true ↔ held := packetHeld_iff s p
  have hfree (h : ¬held) : s.packetHeld p = false := by rw [← Bool.not_eq_true, hheld]; exact h
  refine ⟨fun e he hk => ?_, fun e he hk hf hh => ?_, fun es hes hf hh => ?_, fun gs hgs hf hh => ?_⟩
  · have hserves : ServesPacket n e := by
      rcases List.mem_cons.mp he with rfl | he
      · exact resume_serves n
      · exact (memory_serves n e he).packet
    obtain ⟨wait, perform, hs, hw⟩ := hserves
    rw [← hk] at hs hw
    refine ⟨exec_proxied hs hp, exec_refused hs hp, fun ⟨hx, hg, ha, _⟩ hr => ⟨?_, ?_, ?_⟩, ?_⟩
    · exact exec_below hs hp hx hg ha hr
    · exact fun hf v hm => exec_marked hs hp hx hg ha hr hf hm
    · intro hf hm hh h10 h12 hroom
      exact exec_dropped hs hp hx hg ha hr hf (by rw [hm]; rfl) (hw s p (hfree hh) h10 h12) (.inr ⟨hm, hroom⟩)
    · intro hx hg ha hr hf hm hh h10 h12 hup
      exact exec_dropped hs hp hx hg ha hr hf hm (hw s p (hfree hh) h10 h12) (.inl hup)
  · obtain ⟨wait, perform, hs, hw, -⟩ := memory_serves n e he
    rw [← hk] at hs
    obtain ⟨-, ⟨hx, hg, ha, -⟩, hr, hfl, hm, -⟩ := hf
    exact exec_held hs hp hx hg ha hr hfl hm (hw s p (hheld.mpr hh))
  · have hfr := hfree hh
    refine ⟨fun hk _ => ?_, fun hk _ => ?_, fun hk _ => ?_, fun hk _ => ?_, fun hk => ?_, fun hk => ?_⟩
    · exact ⟨_, exec_performed (hk ▸ serves_radd n) hf hfr (eachEntry_modest _ _ fun s off x => raddUnit_modest ..),
        eachEntry_inTurn hes u (raddUnit_rule p ty)⟩
    · exact ⟨_, exec_performed (hk ▸ serves_rmin n) hf hfr (extremumPacket_modest ..), extremumPacket_inTurn false hes u⟩
    · exact ⟨_, exec_performed (hk ▸ serves_rmax n) hf hfr (extremumPacket_modest ..), extremumPacket_inTurn true hes u⟩
    · exact ⟨_, exec_performed (hk ▸ serves_ror n) hf hfr (eachEntry_modest _ _ fun s off x => unitUpdate_modest ..),
        eachEntry_inTurn hes u (rorUnit_rule p)⟩
    · exact ⟨_, exec_performed (hk ▸ serves_rarv n) hf hfr (eachEntry_modest _ _ fun s off x => unitUpdate_modest ..),
        eachEntry_inTurn hes u (rarvUnit_rule p)⟩
    · exact ⟨_, exec_performed (hk ▸ serves_accclr n) hf hfr (eachEntry_modest _ _ (accclrUnit_modest p)),
        eachEntry_inTurn hes u fun a e => accclrUnit_rule p e.2.1 e.1 a⟩
  · have hfr := hfree hh
    refine ⟨fun hk => ?_, fun hk => ?_, fun hk hv => ?_, fun hk hv => ?_⟩
    · exact ⟨_, exec_performed (hk ▸ serves_rwo n) hf hfr (writeGranules_modest hgs _), writeGranules_inTurn hgs u⟩
    · exact ⟨_, exec_performed (hk ▸ serves_reply n) hf hfr (writeGranules_modest hgs _), writeGranules_inTurn hgs u⟩
    · have e := collPacket_plain u hv
      have hx := exec_performed (hk ▸ serves_coll n) hf hfr (by rw [e]; exact writeGranules_modest hgs u)
      rw [e] at hx
      exact ⟨_, hx, writeGranules_inTurn hgs u⟩
    · have e := collPacket_arrives u hv
      have hx := exec_performed (hk ▸ serves_coll n) hf hfr (by rw [e]; exact collArrives_modest hgs u)
      rw [e] at hx
      exact ⟨_, _, hx, writeGranules_inTurn hgs u, chunkArrival_rule p _⟩

end Sys2Proof.Numbers

/-! # Integer words and control: arithmetic, predicates, program traps, the memory words and their accesses -/

namespace Sys2Proof.IntegerControl
open Sys2Proof Machine Numbers

/-! ## Integer words: operands, results, destinations -/

/-- The lesser of two numbers is that of one of the operands. -/
theorem ofInt_min (ty : IntTy) (x y : BitVec ty.bits) :
    BitVec.ofInt ty.bits (if numOf ty y < numOf ty x then numOf ty y else numOf ty x) =
      if numOf ty x ≤ numOf ty y then x else y := by
  rw [← ofInt_numOf ty (if numOf ty x ≤ numOf ty y then x else y)]
  congr 1
  split_ifs <;> omega

/-- The greater of two numbers; where they are equal, so are the operands. -/
theorem ofInt_max (ty : IntTy) (x y : BitVec ty.bits) :
    BitVec.ofInt ty.bits (if numOf ty x < numOf ty y then numOf ty y else numOf ty x) =
      if numOf ty x ≤ numOf ty y then y else x := by
  rw [← ofInt_numOf ty (if numOf ty x ≤ numOf ty y then y else x)]
  congr 1
  split_ifs <;> omega

/-- Settles O1: each word's meaning on numbers, or on bits, is the bit vector's own operation. -/
theorem arithmeticAndLogic : Obligations.ArithmeticAndLogic := by
  intro s c h ty d a b A B N
  refine ⟨fun sat => ?_, fun sat => ?_, ?_, ?_, ?_, ?_, ?_, ?_, ?_⟩
  · exact computes_int (exec_add ..) (fun _ l => fit_sat ty sat _) fun w => (wf_dst3 rfl w).2
  · exact computes_int (exec_sub ..) (fun _ l => fit_sat ty sat _) fun w => (wf_dst3 rfl w).2
  · exact computes_int (exec_min ..) (fun _ l => ofInt_min ..) fun w => (wf_dst3 rfl w).2
  · exact computes_int (exec_max ..) (fun _ l => ofInt_max ..) fun w => (wf_dst3 rfl w).2
  · exact computes_bit (exec_and ..) (fun l => (BitVec.toNat_and ..).symm) (wf_dst3 rfl)
  · exact computes_bit (exec_or ..) (fun l => (BitVec.toNat_or ..).symm) (wf_dst3 rfl)
  · exact computes_bit (exec_xor ..) (fun l => (BitVec.toNat_xor ..).symm) (wf_dst3 rfl)
  · refine computes_bit (exec_andn ..) (fun l => ?_) (wf_dst3 rfl)
    rw [← BitVec.toNat_not]
    exact (BitVec.toNat_and ..).symm
  · refine computes_bit (exec_orn ..) (fun l => ?_) (wf_dst3 rfl)
    rw [← BitVec.toNat_not]
    exact (BitVec.toNat_or ..).symm

/-! ## Carry, products, quotients -/

theorem withPred_outSize (ty : IntTy) (d : Reg) (x : Nat) (h : ty.wide = true) (p : PredNo) (v : Bool) :
    (outSize ty.is64 d x).withPred p v = { intOut ty d (BitVec.ofNat ty.bits x) with preds := [(p.toNat, v)] } := by
  rw [outSize_eq ty d x h]
  rfl

theorem ofNat_carry {w : Nat} (x y : BitVec w) (k : Nat) :
    BitVec.ofNat w ((x.toNat + y.toNat + k) % 2 ^ w) = x + y + BitVec.ofNat w k := by
  apply BitVec.eq_of_toNat_eq
  simp
theorem ofNat_borrow {w : Nat} (x y : BitVec w) (k : Nat) :
    BitVec.ofNat w (wrapN w ((x.toNat : Int) - y.toNat - k)) = x - y - BitVec.ofNat w k := by
  rw [wrapN_eq_toNat, BitVec.ofNat_toNat, BitVec.setWidth_eq]
  simp [sub_eq_add_neg, BitVec.ofInt_add, BitVec.ofInt_neg]

/-- Bits are those of their number, whatever the signedness. -/
theorem ofInt_mul_numOf (ty : IntTy) (x y : BitVec ty.bits) : BitVec.ofInt ty.bits (numOf ty x * numOf ty y) = x * y := by
  rw [BitVec.ofInt_mul, ofInt_numOf, ofInt_numOf]

/-- The quotient and the remainder of R88, truncated toward zero. -/
theorem ofInt_quotOf (ty : IntTy) (x y : BitVec ty.bits) :
    BitVec.ofInt ty.bits (quotOf (numOf ty x) (numOf ty y)) =
      if y = 0 then BitVec.allOnes ty.bits else if ty.signed then x.sdiv y else x.udiv y := by
  simp only [quotOf, numOf_eq_zero]
  split_ifs with h0 hs
  · rw [BitVec.ofInt_neg, ← BitVec.neg_one_eq_allOnes]
    rfl
  · simp only [numOf, hs, if_true]
    apply BitVec.toInt_inj.mp
    rw [BitVec.toInt_sdiv, BitVec.toInt_ofInt]
  · simp only [numOf, hs, Bool.false_eq_true, if_false]
    apply BitVec.eq_of_toNat_eq
    rw [← Int.ofNat_tdiv, BitVec.ofInt_natCast, BitVec.toNat_ofNat, BitVec.udiv_eq, BitVec.toNat_udiv, Nat.mod_eq_of_lt]
    exact (Nat.div_le_self ..).trans_lt x.isLt
theorem ofInt_remOf (ty : IntTy) (x y : BitVec ty.bits) :
    BitVec.ofInt ty.bits (remOf (numOf ty x) (numOf ty y)) =
      if y = 0 then x else if ty.signed then x.srem y else x.umod y := by
  simp only [remOf, numOf_eq_zero]
  split_ifs with h0 hs
  · exact ofInt_numOf ..
  · simp only [numOf, hs, if_true]
    rw [← BitVec.toInt_srem, BitVec.ofInt_toInt]
  · simp only [numOf, hs, Bool.false_eq_true, if_false]
    apply BitVec.eq_of_toNat_eq
    rw [← Int.ofNat_tmod, BitVec.ofInt_natCast, BitVec.toNat_ofNat, BitVec.umod_eq, BitVec.toNat_umod, Nat.mod_eq_of_lt]
    exact (Nat.mod_le ..).trans_lt x.isLt

/-- Settles O2: carries and borrows are those of the operands' bits, products those of their numbers, and quotients are
truncated toward zero. -/
theorem carryMultiplyDivide : Obligations.CarryMultiplyDivide := by
  intro s c h ty ps d a b A B D N carry dz
  refine ⟨?_, ?_, ?_, ?_, ?_, ?_, ?_⟩
  · refine computes_lane (exec_addc ..) (fun hi l => ?_) fun w l => intOut_bound (wf_dst3 rfl w).2
    obtain ⟨hw, -⟩ := wf_dst3 (i := .addc h ty ps d a b) rfl hi.wf
    dsimp only
    rw [withPred_outSize ty d _ hw, opA_toNat c l a hw, opB_mod, ofNat_carry]
  · refine computes_lane (exec_subb ..) (fun hi l => ?_) fun w l => intOut_bound (wf_dst3 rfl w).2
    obtain ⟨hw, -⟩ := wf_dst3 (i := .subb h ty ps d a b) rfl hi.wf
    dsimp only
    rw [withPred_outSize ty d _ hw, opA_toNat c l a hw, opB_mod, ofNat_borrow]
  · exact computes_int (exec_mul ..) (fun _ l => ofInt_mul_numOf ..) fun w => (wf_dst3 rfl w).2
  · exact computes_int (exec_mulh ..) (fun _ l => by push_cast; rfl) fun w => (wf_dst3 rfl w).2
  · refine computes_lane (exec_mad ..) (fun _ l => ?_) fun w l => intOut_bound (wf_dst3 rfl w).2
    dsimp only
    rw [opA_val, opB_val, opA_val, outInt_eq, BitVec.ofInt_add, ofInt_mul_numOf, ofInt_numOf]
  · exact computes_div (exec_div ..) (fun l => ofInt_quotOf ..) fun w => (wf_dst3 rfl w).2
  · exact computes_div (exec_rem ..) (fun l => ofInt_remOf ..) fun w => (wf_dst3 rfl w).2

/-! ## Shifts (R89) -/

theorem ofNat_shl {w : Nat} (x : BitVec w) (n : Nat) :
    BitVec.ofNat w (if n < w then x.toNat * 2 ^ n % 2 ^ w else 0) = x <<< n := by
  apply BitVec.eq_of_toNat_eq
  rw [BitVec.toNat_ofNat, BitVec.toNat_shiftLeft, Nat.shiftLeft_eq]
  split_ifs with h
  · exact Nat.mod_mod ..
  · exact (Nat.mod_eq_zero_of_dvd (Dvd.dvd.mul_left (pow_dvd_pow 2 (not_lt.mp h)) _)).symm
theorem ofNat_shr {w : Nat} (x : BitVec w) (n : Nat) :
    BitVec.ofNat w (if n < w then x.toNat / 2 ^ n else 0) = x >>> n := by
  apply BitVec.eq_of_toNat_eq
  rw [BitVec.toNat_ofNat, BitVec.toNat_ushiftRight, Nat.shiftRight_eq_div_pow]
  split_ifs with h
  · exact Nat.mod_eq_of_lt ((Nat.div_le_self ..).trans_lt x.isLt)
  · exact (Nat.div_eq_of_lt (x.isLt.trans_le (Nat.pow_le_pow_right two_pos (not_lt.mp h)))).symm
/-- A shift by the width or more leaves nothing but the sign. -/
theorem sshiftRight_width {w n : Nat} (x : BitVec w) (h : w ≤ n) : x.sshiftRight w = x.sshiftRight n := by
  ext i hi
  rw [BitVec.getElem_sshiftRight, BitVec.getElem_sshiftRight, dif_neg (by omega), dif_neg (by omega)]
theorem ofNat_sar {w : Nat} (hw : 0 < w) (x : BitVec w) (n : Nat) :
    BitVec.ofNat w (wrapN w (sval w x.toNat / (2 ^ (if n < w then n else w) : Nat))) = x.sshiftRight n := by
  rw [sval_eq_toInt hw, BitVec.ofNat_toNat, BitVec.setWidth_eq, wrapN_eq_toNat, BitVec.ofNat_toNat, BitVec.setWidth_eq,
    ← Int.shiftRight_eq_div_pow, ← BitVec.toInt_sshiftRight, BitVec.ofInt_toInt]
  split_ifs with h
  · rfl
  · exact sshiftRight_width x (not_lt.mp h)
theorem ofNat_rot {w : Nat} (hw : 0 < w) (x : BitVec w) (n : Nat) :
    BitVec.ofNat w (x.toNat * 2 ^ (n % w) % 2 ^ w + x.toNat / 2 ^ (w - n % w)) = x.rotateLeft n := by
  have hk : n % w < w := Nat.mod_lt _ hw
  have hpow : 2 ^ w = 2 ^ (w - n % w) * 2 ^ (n % w) := by rw [← Nat.pow_add]; congr 1; omega
  have hhigh : x.toNat / 2 ^ (w - n % w) < 2 ^ (n % w) := Nat.div_lt_of_lt_mul (hpow ▸ x.isLt)
  have hlow : x.toNat * 2 ^ (n % w) % 2 ^ w = 2 ^ (n % w) * (x.toNat % 2 ^ (w - n % w)) := by
    rw [hpow, Nat.mul_mod_mul_right, mul_comm]
  have hor := Nat.two_pow_add_eq_or_of_lt hhigh (x.toNat % 2 ^ (w - n % w))
  apply BitVec.eq_of_toNat_eq
  rw [BitVec.toNat_ofNat, Nat.mod_eq_of_lt, BitVec.toNat_rotateLeft, Nat.shiftLeft_eq, Nat.shiftRight_eq_div_pow, hlow, hor]
  rw [hlow, hor, ← hlow]
  exact Nat.or_lt_two_pow (Nat.mod_lt _ (by positivity)) ((Nat.div_le_self ..).trans_lt x.isLt)

/-! ## Bit fields (R90) -/

/-- The position and the length of a field, as R90 gives them. -/
theorem field_pos (n : BitVec 32) : n.toNat % 256 = (n.extractLsb' 0 8).toNat := by
  simp [BitVec.extractLsb'_toNat]
theorem field_len (n : BitVec 32) (w : Nat) : Nat.min (n.toNat / 256 % 256) w = min (n.extractLsb' 8 8).toNat w := by
  rw [BitVec.extractLsb'_toNat, Nat.shiftRight_eq_div_pow]

theorem ofNat_bfx (ty : IntTy) (x : BitVec ty.bits) (n : BitVec 32) :
    let len := min (n.extractLsb' 8 8).toNat ty.bits
    let f : BitVec len := x.extractLsb' (n.extractLsb' 0 8).toNat len
    BitVec.ofNat ty.bits (bfxOf ty x.toNat n.toNat) = if ty.signed then f.signExtend ty.bits else f.setWidth ty.bits := by
  simp only [bfxOf, field_pos, field_len]
  generalize (n.extractLsb' 0 8).toNat = pos
  generalize min (n.extractLsb' 8 8).toNat ty.bits = len
  have hf : x.toNat / 2 ^ pos % 2 ^ len = (x.extractLsb' pos len).toNat := by
    rw [BitVec.extractLsb'_toNat, Nat.shiftRight_eq_div_pow]
  rw [hf]
  split_ifs with h0 hs hs
  · subst h0
    rw [BitVec.eq_nil (x.extractLsb' pos 0)]
    simp [BitVec.signExtend]
  · subst h0
    rw [BitVec.eq_nil (x.extractLsb' pos 0)]
    simp
  · rw [sval_eq_toInt (by omega), BitVec.ofNat_toNat, BitVec.setWidth_eq, wrapN_eq_toNat, BitVec.ofNat_toNat, BitVec.setWidth_eq]
    rfl
  · rw [BitVec.ofNat_toNat]
theorem getLsbD_fieldMask {w len pos : Nat} (hl : len ≤ w) (i : Nat) :
    ((BitVec.allOnes w >>> (w - len)) <<< pos).getLsbD i = decide (i < w ∧ pos ≤ i ∧ i < pos + len) := by
  simp only [BitVec.getLsbD_shiftLeft, BitVec.getLsbD_ushiftRight, BitVec.getLsbD_allOnes]
  rw [Bool.eq_iff_iff]
  simp
  omega
/-- The bits of x moved to a field, the others of old. -/
theorem getLsbD_insertField {w len pos : Nat} (hl : len ≤ w) (x old : BitVec w) {i : Nat} (hi : i < w) :
    let mask := (BitVec.allOnes w >>> (w - len)) <<< pos
    ((old &&& ~~~mask) ||| ((x <<< pos) &&& mask)).getLsbD i =
      if pos ≤ i ∧ i < pos + len then x.getLsbD (i - pos) else old.getLsbD i := by
  simp only [BitVec.getLsbD_or, BitVec.getLsbD_and, BitVec.getLsbD_not, getLsbD_fieldMask hl, BitVec.getLsbD_shiftLeft, hi,
    decide_true, Bool.true_and, true_and]
  split_ifs with h
  · simp [h]
  · simp only [h, decide_false, Bool.not_false, Bool.and_true, Bool.and_false, Bool.or_false]
/-- A field that reaches beyond the operand is cut off there. -/
theorem bfiOf_eq_setBits (ty : IntTy) (x old n : Nat) (hp : n % 256 < ty.bits) :
    bfiOf ty x n old = setBits old (n % 256) (min (Nat.min (n / 256 % 256) ty.bits) (ty.bits - n % 256)) x :=
  if_neg (not_le.mpr hp)
theorem ofNat_bfi (ty : IntTy) (x old : BitVec ty.bits) (n : BitVec 32) :
    let pos := (n.extractLsb' 0 8).toNat
    let mask := (BitVec.allOnes ty.bits >>> (ty.bits - min (n.extractLsb' 8 8).toNat ty.bits)) <<< pos
    BitVec.ofNat ty.bits (bfiOf ty x.toNat n.toNat old.toNat) = (old &&& ~~~mask) ||| ((x <<< pos) &&& mask) := by
  have hp := field_pos n
  have hl := field_len n ty.bits
  have hle := Nat.min_le_right (n.extractLsb' 8 8).toNat ty.bits
  generalize (n.extractLsb' 0 8).toNat = pos at *
  generalize min (n.extractLsb' 8 8).toNat ty.bits = len at *
  apply BitVec.eq_of_getLsbD_eq
  intro i hi
  rw [getLsbD_insertField hle x old hi, BitVec.getLsbD_ofNat, decide_eq_true hi, Bool.true_and]
  by_cases hin : pos < ty.bits
  · rw [bfiOf_eq_setBits _ _ _ _ (hp ▸ hin), testBit_setBits, hp, hl, BitVec.getLsbD, BitVec.getLsbD]
    exact if_congr (by omega) rfl rfl
  · rw [if_neg (by omega), bfiOf, if_pos (hp ▸ not_lt.mp hin)]
    rfl

/-! ## One operand (R91) -/

theorem popcount_eq_countP (w x : Nat) : popcount w x = (List.range w).countP x.testBit := by
  induction w generalizing x with
  | zero => rfl
  | succ w ih =>
    have hbit : x % 2 = if x.testBit 0 then 1 else 0 := by rw [Nat.testBit_zero]; split <;> simp_all
    have htail : (x.testBit ∘ Nat.succ) = (x / 2).testBit := funext fun i => Nat.testBit_succ ..
    rw [popcount, ih, List.range_succ_eq_map, List.countP_cons, List.countP_map, htail, add_comm, hbit]
theorem leadingZeros_toNat {w : Nat} (hw : 0 < w) (x : BitVec w) : leadingZeros w x.toNat = x.clz.toNat := by
  unfold leadingZeros
  split_ifs with h0
  · have hx : x = 0#w := BitVec.eq_of_toNat_eq (by simpa using h0)
    rw [BitVec.clz_eq_iff_eq_zero.mpr hx]
    simp [Nat.mod_eq_of_lt Nat.lt_two_pow_self]
  · have hx : x ≠ 0#w := fun e => h0 (by simp [e])
    have hlt : x.clz.toNat < w := by
      have := BitVec.lt_def.mp (BitVec.clz_lt_iff_ne_zero.mpr hx)
      simpa [Nat.mod_eq_of_lt Nat.lt_two_pow_self] using this
    have hlog : x.toNat.log2 = w - 1 - x.clz.toNat := by
      rw [Nat.log2_eq_iff h0]
      refine ⟨BitVec.two_pow_sub_clz_le_toNat_of_ne_zero hw hx, ?_⟩
      rw [show w - 1 - x.clz.toNat + 1 = w - x.clz.toNat by omega]
      exact BitVec.toNat_lt_two_pow_sub_clz
    omega
theorem trailingZeros_eq {w x k : Nat} (hlow : ∀ i < k, x.testBit i = false) (hk : k < w ∧ x.testBit k = true ∨ k = w) :
    trailingZeros w x = k := by
  induction w generalizing x k with
  | zero => simp_all [trailingZeros]
  | succ w ih =>
    rw [trailingZeros]
    cases k with
    | zero =>
      have : x % 2 = 1 := by simpa using hk
      rw [if_pos this]
    | succ k =>
      have h0 := hlow 0 (by omega)
      rw [if_neg (by simpa using h0), ih (k := k), add_comm]
      · intro i hi
        rw [← Nat.testBit_succ]
        exact hlow (i + 1) (by omega)
      · rw [← Nat.testBit_succ]
        simpa using hk
theorem trailingZeros_toNat {w : Nat} (x : BitVec w) : trailingZeros w x.toNat = x.ctz.toNat := by
  apply trailingZeros_eq
  · exact fun i hi => BitVec.getLsbD_false_of_lt_ctz hi
  · by_cases hx : x = 0#w
    · right
      rw [BitVec.ctz_eq_reverse_clz, hx, BitVec.clz_eq_iff_eq_zero.mpr (by simp)]
      simp [Nat.mod_eq_of_lt Nat.lt_two_pow_self]
    · left
      have := BitVec.lt_def.mp (BitVec.ctz_lt_iff_ne_zero.mpr hx)
      exact ⟨by simpa [Nat.mod_eq_of_lt Nat.lt_two_pow_self] using this, BitVec.getLsbD_true_ctz_of_ne_zero hx⟩
theorem testBit_revBits (w x i : Nat) : (revBits w x).testBit i = (decide (i < w) && x.testBit (w - 1 - i)) := by
  induction w generalizing x i with
  | zero => simp [revBits]
  | succ w ih =>
    have hrest : revBits w (x / 2) < 2 ^ w := Nat.lt_pow_two_of_testBit _ fun j hj => by rw [ih]; simp [hj]
    rw [revBits, mul_comm, Nat.testBit_two_pow_mul_add _ hrest, ih]
    split_ifs with h
    · rw [decide_eq_true h, decide_eq_true (h.trans (Nat.lt_succ_self w)), ← Nat.testBit_succ]
      congr 2
      omega
    · by_cases hi : i = w
      · subst hi
        simp
      · have hlt : x % 2 < 2 ^ (i - w) := (Nat.mod_lt x two_pos).trans_le (Nat.le_self_pow (by omega) 2)
        rw [Nat.testBit_lt_two_pow hlt, decide_eq_false (by omega), Bool.false_and]
theorem ofNat_revBits {w : Nat} (x : BitVec w) : BitVec.ofNat w (revBits w x.toNat) = x.reverse := by
  apply BitVec.eq_of_getLsbD_eq
  intro i hi
  rw [BitVec.getLsbD_ofNat, testBit_revBits, BitVec.getLsbD_reverse, BitVec.getMsbD]
  simp [hi, BitVec.getLsbD]

theorem wf_shift {i : Instr} {ty : IntTy} {d a : Reg} {b : Src} (hc : i.check = chkShift ty d a b) (h : i.WellFormed) :
    ty.wide = true ∧ dstW ty.is64 d = true := by
  have := firstFail_none (hc ▸ h.2)
  simp at this
  exact ⟨this.1, this.2.1.1⟩
theorem wf_dst2 {i : Instr} {tyOk : Bool} {ty : IntTy} {d a : Reg} (hc : i.check = chkInt2 tyOk ty d a) (h : i.WellFormed) :
    tyOk = true ∧ dstW ty.is64 d = true := by
  have := firstFail_none (hc ▸ h.2)
  simp at this
  exact ⟨this.1, this.2.1⟩
theorem wf_count {i : Instr} {ty : IntTy} {d a : Reg} (hc : i.check = chkCount ty d a) (h : i.WellFormed) :
    ty.wide = true := by
  have := firstFail_none (hc ▸ h.2)
  simp at this
  exact this.1

section
variable {i : Instr} {ty : IntTy} {d a : Reg} {b : Src} {s : State} {c : Ctx} {v : Nat → BitVec ty.bits}

theorem computes_count {f : Nat → Nat → Nat} (he : exec i s = countWord i ty d a b f s)
    (hf : ∀ l, BitVec.ofNat ty.bits (f (intA c l ty a).toNat (wordB c l a b).toNat) = v l)
    (hd : i.WellFormed → ty.wide = true ∧ dstW ty.is64 d = true) : Computes i s c fun l => intOut ty d (v l) := by
  refine computes_lane (he.trans rfl) (fun h l => ?_) fun w l => intOut_bound (hd w).2
  obtain ⟨hw, -⟩ := hd h.wf
  rw [outSize_eq ty d _ hw, opCount_toNat, opA_toNat c l a hw, hf]
theorem computes_unary {f : Int → Int} (he : exec i s = unaryWord i ty d a f s)
    (hf : ∀ l, BitVec.ofInt ty.bits (f (numOf ty (intA c l ty a))) = v l)
    (hd : i.WellFormed → dstW ty.is64 d = true) : Computes i s c fun l => intOut ty d (v l) := by
  refine computes_lane (he.trans rfl) (fun h l => ?_) fun w l => intOut_bound (hd w)
  rw [opA_val, outInt_eq, hf]
theorem computes_bitCount {f : Nat → Nat} {r : Nat → Nat} (he : exec i s = bitCountWord i ty d a f s)
    (hf : ∀ l, f (intA c l ty a).toNat = r l) (hd : i.WellFormed → ty.wide = true) :
    Computes i s c fun l => outW d (r l) := by
  refine computes_lane (he.trans rfl) (fun h l => ?_) fun _ _ => outW_bound
  rw [opA_toNat c l a (hd h.wf), hf]
end

/-- Settles O3: shifts, fields and counts are those of the bit vector's own operations. -/
theorem shiftsAndFields : Obligations.ShiftsAndFields := by
  intro s c h ty d a b A N D n pos len mask
  refine ⟨?_, ?_, ?_, ?_, ?_, ?_, ?_, fun sat => ?_, fun sat => ?_, ?_, ?_, ?_, ?_⟩
  · exact computes_count (exec_shl ..) (fun l => ofNat_shl ..) (wf_shift rfl)
  · exact computes_count (exec_shr ..) (fun l => ofNat_shr ..) (wf_shift rfl)
  · exact computes_count (exec_sar ..) (fun l => ofNat_sar (IntTy.bits_pos ty) ..) (wf_shift rfl)
  · exact computes_count (exec_rot ..) (fun l => ofNat_rot (IntTy.bits_pos ty) ..) (wf_shift rfl)
  · exact computes_count (exec_bfx ..) (fun l => ofNat_bfx ..) (wf_shift rfl)
  · refine computes_lane (exec_bfi ..) (fun hi l => ?_) fun w l => intOut_bound (wf_shift rfl w).2
    obtain ⟨hw, -⟩ := wf_shift (i := .bfi h ty d a b) rfl hi.wf
    rw [outSize_eq ty d _ hw, opCount_toNat, opA_toNat c l a hw, opA_toNat c l d hw, ofNat_bfi]
  · exact computes_unary (exec_mov ..) (fun l => ofInt_numOf ..) fun w => (wf_dst2 rfl w).2
  · exact computes_unary (exec_neg ..) (fun l => fit_sat ty sat _) fun w => (wf_dst2 rfl w).2
  · refine computes_unary (exec_abs ..) (fun l => ?_) fun w => (wf_dst2 rfl w).2
    rw [fit_sat]
    congr 1
    split_ifs with h0
    · exact (abs_of_neg h0).symm
    · exact (abs_of_nonneg (not_lt.mp h0)).symm
  · exact computes_bitCount (exec_popc ..) (fun l => popcount_eq_countP ..) (wf_count rfl)
  · exact computes_bitCount (exec_clz ..) (fun l => leadingZeros_toNat (IntTy.bits_pos ty) _) (wf_count rfl)
  · exact computes_bitCount (exec_ctz ..) (fun l => trailingZeros_toNat _) (wf_count rfl)
  · refine computes_lane (exec_brev ..) (fun hi l => ?_) fun w l => intOut_bound (wf_dst2 rfl w).2
    obtain ⟨hw, -⟩ := wf_dst2 (i := .brev h ty d a) rfl hi.wf
    rw [outSize_eq ty d _ hw, opA_toNat c l a hw, ofNat_revBits]

/-! ## Permutation, selection, constants, addresses (R92 to R95) -/

theorem outW_toNat (d : Reg) {x : Nat} {v : Word} (h : BitVec.ofNat 32 x = v) : outW d x = outW d v.toNat := by
  rw [outW, outW, h, BitVec.ofNat_toNat, BitVec.setWidth_eq]
theorem toNat_append_add {m n : Nat} (x : BitVec m) (y : BitVec n) : (x ++ y).toNat = x.toNat * 2 ^ n + y.toNat := by
  rw [BitVec.toNat_append, Nat.shiftLeft_eq, mul_comm, Nat.two_pow_add_eq_or_of_lt y.isLt]

/-- Byte i of PERM's result, by the nibble of the selector that names it (R92). -/
def permOf (ba : BitVec 64) (sel : BitVec 16) (i : Nat) : BitVec 8 :=
  let nibble : BitVec 4 := sel.extractLsb' (4 * i) 4
  let k : BitVec 8 := ba.extractLsb' (8 * (nibble.toNat % 8)) 8
  if nibble.msb then (if k.msb then 0xFF else 0) else k
theorem permByte_eq (ba : BitVec 64) (sel : BitVec 16) (i : Nat) : permByte ba.toNat sel.toNat i = (permOf ba sel i).toNat := by
  have hn : sel.toNat / 16 ^ i % 16 = (sel.extractLsb' (4 * i) 4).toNat := by
    rw [BitVec.extractLsb'_toNat, Nat.shiftRight_eq_div_pow, Nat.pow_mul]
  have hk (j : Nat) : ba.toNat / 256 ^ j % 256 = (ba.extractLsb' (8 * j) 8).toNat := by
    rw [BitVec.extractLsb'_toNat, Nat.shiftRight_eq_div_pow, Nat.pow_mul]
  simp only [permByte, permOf, hn, hk, BitVec.msb_eq_decide]
  split_ifs <;> simp_all <;> omega
theorem permBytes_eq (ba : BitVec 64) (sel : BitVec 16) :
    let f := permByte ba.toNat sel.toNat
    f 0 + 256 * f 1 + 65536 * f 2 + 16777216 * f 3 =
      (permOf ba sel 3 ++ permOf ba sel 2 ++ permOf ba sel 1 ++ permOf ba sel 0 : BitVec 32).toNat := by
  simp only [permByte_eq]
  simp only [toNat_append_add]
  omega

/-- An FI immediate, sign-extended to 64 bits (R94). -/
def immediateOf : Imm36 → BitVec 64
  | .short v => v.signExtend 64
  | .long v => v.signExtend 64
theorem ofNat_immOf (im : Imm36) {w : Nat} : BitVec.ofNat w (immOf im) = (immediateOf im).setWidth w := by
  cases im <;> exact BitVec.ofNat_toNat ..

/-- B as LEA extends it (R95). -/
def leaIndex (c : Ctx) (l : Nat) (z : Bool) (a : Reg) (b : Src) : Nat :=
  if z then c.opCount l a b else match b with
    | .imm v => immSext v
    | .reg _ => wrapN 64 (sval 32 (c.opCount l a b))
theorem ofNat_leaIndex (c : Ctx) (l : Nat) (z : Bool) (a : Reg) (b : Src) :
    BitVec.ofNat 64 (leaIndex c l z a b) = if z then (wordB c l a b).setWidth 64 else (wordB c l a b).signExtend 64 := by
  unfold leaIndex
  rw [opCount_toNat]
  cases z with
  | true => exact BitVec.ofNat_toNat ..
  | false =>
    cases b with
    | reg r =>
      simp only [Bool.false_eq_true, if_false, sval_eq_toInt (by decide : 0 < 32), wrapN_eq_toNat, BitVec.ofNat_toNat,
        BitVec.setWidth_eq]
      rfl
    | imm v =>
      simp only [Bool.false_eq_true, if_false, wordB, immSext_bits v le_rfl]
      ext i hi
      simp only [BitVec.getElem_signExtend, BitVec.msb_signExtend]
      split_ifs <;> simp_all; omega

theorem toNat_scaledSum (x y n : Nat) :
    (x + y * 2 ^ n) % 2 ^ 64 = (BitVec.ofNat 64 x + BitVec.ofNat 64 y <<< n).toNat := by
  simp [BitVec.toNat_add, BitVec.toNat_shiftLeft, Nat.shiftLeft_eq]

theorem wf_movi {h : Hd} {ty : IntTy} {d : Reg} {im : Imm36} (w : (Instr.movi h ty d im).WellFormed) :
    ty.wide = true ∧ dstW ty.is64 d = true := by
  simpa using firstFail_none w.2
theorem wf_lea {h : Hd} {scale : BitVec 3} {z : Bool} {d a : Reg} {b : Src} (w : (Instr.lea h scale z d a b).WellFormed) :
    pairOk d = true := by
  have hr : (pairOk d && pairOk a && bOk false b) = true := by simpa using firstFail_none w.2
  simp only [Bool.and_eq_true] at hr
  exact hr.1.1

/-- Settles O5: the bytes that PERM selects, the extended immediates and the scaled index are bit vectors cut and joined. -/
theorem permSelectConstants : Obligations.PermSelectConstants := by
  intro s c h ty ps d a b im immediate
  refine ⟨fun sel => ?_, ?_, ?_, ?_, fun scale z => ?_⟩
  · refine computes_lane (exec_perm ..) (fun _ l => ?_) fun _ _ => outW_bound
    have hba : c.opA l false a + 2 ^ 32 * c.opCount l a b = (wordB c l a b ++ BitVec.ofNat 32 (c.rd l a.toNat 0)).toNat := by
      rw [toNat_append_add, BitVec.toNat_ofNat, Nat.mod_eq_of_lt (rd_lt ..), opCount_toNat, add_comm, mul_comm]
      rfl
    dsimp only
    rw [hba]
    exact congrArg (outW d) (permBytes_eq _ sel)
  · refine computes_lane (exec_sel ..) (fun hi l => ?_) fun w l => intOut_bound (wf_dst3 rfl w).2
    obtain ⟨hw, -⟩ := wf_dst3 (i := .sel h ty ps d a b) rfl hi.wf
    rw [outSize_eq ty d _ hw, opB_mod, opA_toNat c l a hw]
    split_ifs <;> rw [BitVec.ofNat_toNat, BitVec.setWidth_eq]
  · refine computes_lane (exec_movi ..) (fun hi l => ?_) fun w l => intOut_bound (wf_movi w).2
    rw [outSize_eq ty d _ (wf_movi hi.wf).1, ofNat_immOf]
    rfl
  · exact computes_lane (exec_movh ..) (fun _ l => outW_toNat _ (ofNat_immOf im)) fun _ _ => outW_bound
  · refine computes_lane (exec_lea ..) (fun _ l => ?_) fun w l => outSize_bound (is64 := true) (wf_lea w)
    dsimp only
    rw [← ofNat_leaIndex, ← toNat_scaledSum]
    rfl

/-! ## Comparison and predicates (R96 to R98) -/

theorem outPred_bound {p : PredNo} {v : Bool} : ∀ q ∈ (outPred p v).regs, q.1 < 128 := by simp

/-- The predicates of a lane as a byte, p7 set (R98). -/
theorem predByte_eq (p : Nat → Bool) :
    128 + (List.range 7).foldl (fun x n => x + (p n).toNat * 2 ^ n) 0 =
      (1#1 ++ BitVec.ofBool (p 6) ++ BitVec.ofBool (p 5) ++ BitVec.ofBool (p 4) ++ BitVec.ofBool (p 3) ++
        BitVec.ofBool (p 2) ++ BitVec.ofBool (p 1) ++ BitVec.ofBool (p 0) : BitVec 8).toNat := by
  simp only [toNat_append_add, BitVec.toNat_ofBool]
  simp [List.range_succ]
  omega
theorem nbit_eq_getLsbD {w x n : Nat} (h : n < w) : nbit x n = (BitVec.ofNat w x).getLsbD n := by
  rw [nbit_eq_testBit, BitVec.getLsbD_ofNat, decide_eq_true h, Bool.true_and]

/-- Settles O6: conditions compare the operands' numbers, and the truth table is read at the two predicates. -/
theorem predicateWords : Obligations.PredicateWords := by
  intro s c h ty cond lut mask pd pa pb d a b X Y
  refine ⟨?_, ?_, ?_, ?_⟩
  · refine computes_lane (exec_cmp ..) (fun _ l => ?_) fun _ _ => outPred_bound
    rw [opA_val, opB_val]
    cases cond with
    | ne => exact congrArg (outPred pd) decide_not.symm
    | _ => rfl
  · refine computes_lane (exec_plog ..) (fun _ l => ?_) fun _ _ => outPred_bound
    cases c.rdPred l pa.toNat <;> cases c.rdPred l pb.toNat <;> rfl
  · exact computes_lane (exec_pmovToReg ..) (fun _ l => congrArg (outW d) (predByte_eq _)) fun _ _ => outW_bound
  · refine computes_lane (exec_pmovToPreds ..) (fun _ l => ?_) fun _ _ => by simp [LaneOut.none]
    dsimp only
    congr 1
    refine List.map_congr_left fun n hn => ?_
    obtain ⟨hn, -⟩ := List.mem_filter.mp hn
    rw [nbit_eq_getLsbD (w := 32) (by have := List.mem_range.mp hn; omega)]
    rfl

/-! ## Words without an effect of their own, and words that trap (R106, R116, R117, R170, R171, R179, R259, R354) -/

section
variable {i : Instr} {body : Ctx → LaneSet → State → Except Trap State} {s : State} {c : Ctx}

/-- A word whose body leaves the state as it finds it. -/
theorem noEffect_of_body (he : exec i s = word i body s) (h : Issues i s c)
    (hb : body c (performing i c) (c.begin i s) = .ok (c.begin i s)) : NoEffect i s c :=
  ⟨_, he.trans (word_ok h.issuer h.clear hb), gangOnly_setGang ..⟩
/-- A word whose body fails, other than by a walk that waits. -/
theorem takesTrap_of_body {f : Fail} {lane : Option Nat} {addr : Nat} {next : Bool} (he : exec i s = word i body s) (h : Issues i s c)
    (hb : body c (performing i c) (c.begin i s) = .error { fail := f, lane := lane, addr := addr, performed := 0, next := next })
    (hf : f ≠ failWait) : TakesTrap i s c f lane addr next := by
  rw [TakesTrap, he, word_error h.issuer h.clear hb]
  exact congrArg _ (if_neg hf)
end

theorem lowestLane_zero : lowestLane 0 = none := by decide
theorem lowestLane_of_isLowest {m : LaneSet} {l : Nat} (h : IsLowest m l) : lowestLane m = some l := by
  obtain ⟨hl, hk⟩ := h
  rw [lowestLane, List.find?_range_eq_some]
  exact ⟨hl, List.mem_range.mpr (hasLane_lt hl), fun k h => by simpa [hasLane] using hk k h⟩

/-- A word that raises a trap in its performing lanes. -/
theorem raiseWord_raises {i : Instr} {code info : Nat} {s : State} {c : Ctx} (he : exec i s = raiseWord i code info s)
    (hc : code ≠ 0) (h : Issues i s c) :
    (performing i c = 0 → NoEffect i s c) ∧
    ∀ l < 32, IsLowest (performing i c) l → TakesTrap i s c { code := code, info := info } (some l) 0 true := by
  refine ⟨fun h0 => noEffect_of_body he h ?_, fun l _ hl => takesTrap_of_body he h ?_ fun e => hc (congrArg Fail.code e)⟩
  · rw [h0, lowestLane_zero]
  · rw [lowestLane_of_isLowest hl]

/-- Settles O19: the three words raise a trap, and ERET goes on at the next word. -/
theorem programTraps : Obligations.ProgramTraps := by
  intro s c h code raises
  exact ⟨raiseWord_raises (exec_trap ..) (by decide), raiseWord_raises (exec_brk ..) (by decide),
    raiseWord_raises (exec_svc ..) (by decide)⟩

/-- The groups that a gang may name: its block, and those whose table lists it (R146). -/
theorem inGroup_iff (c : Ctx) (s : State) (group : Nat) : c.inGroup s group = true ↔ group = 256 ∨
    (s.block c.gang.block).idx * (s.task c.gang.task).tcb.blkdim + c.gang.num ∈ tabGet (s.task c.gang.task).groups [] group := by
  by_cases hg : group = 256
  · simp [Ctx.inGroup, hg]
  · simp [Ctx.inGroup, hg, Task.members, State.launchNumber, Ctx.task]

/-- Settles O22: the words' own effect is none; BAR.wait first finds its gang among the group's. -/
theorem wordsWithoutEffect : Obligations.WordsWithoutEffect := by
  intro s c h k l st t m g l2 a off
  refine ⟨fun hi => noEffect_of_body (exec_nop ..) hi rfl, fun hi => noEffect_of_body (exec_wait ..) hi rfl,
    fun hi => noEffect_of_body (exec_take ..) hi rfl, fun hi => ?_, fun hi => ⟨fun hg => ?_, fun h256 hn => ?_⟩⟩
  · rw [exec_pref, execPref, hi]
  · refine noEffect_of_body (exec_barWait ..) hi (if_pos ?_)
    exact (inGroup_iff c (c.begin _ s) _).mpr hg
  · refine takesTrap_of_body (exec_barWait ..) hi (if_neg fun hg => ?_) (by decide)
    exact ((inGroup_iff c (c.begin _ s) _).mp hg).elim h256 hn

/-! ## The state in which a word's own effect begins: what its checks read is as before -/

section
variable (c : Ctx) (i : Instr) (s : State)

theorem Ctx.begin_eq : c.begin i s = { s with gangs := tabPut s.gangs c.gid (popped i c) } := rfl
/-- A gang keeps its launch-wide number. -/
theorem begin_launchNumber {c : Ctx} {s : State} (h : s.issuer = some c) (k : Nat) :
    (c.begin i s).launchNumber ((c.begin i s).gang k) = s.launchNumber (s.gang k) := by
  by_cases hk : c.gid = k
  · subst hk
    rw [Ctx.begin_gang, State.gang_of_issuer h, popped, Gang.pops_eq]
    rfl
  · rw [Ctx.begin, State.gang_setGang_ne s _ hk]
    rfl
theorem begin_tempoViol {c : Ctx} {s : State} (h : s.issuer = some c) (g : Gang) (l : Leaf) (va n : Nat) :
    (c.begin i s).tempoViol g l va n = s.tempoViol g l va n := by
  have hn := begin_launchNumber i h
  simp only [State.tempoViol, State.holdsTempo, hn]
  rfl
theorem begin_slices (id : Nat) : ((c.begin i s).gang c.gid).slicesOf id = c.gang.slicesOf id := by
  rw [Ctx.begin_gang, popped, Gang.slicesOf, Gang.fragsOf, Gang.pops_frags]
  rfl
end

/-! ## Operations filed (R107) -/

theorem tabDel_tabPut {α : Type} (t : Tab α) (k : Nat) (v : α) : tabDel (tabPut t k v) k = tabDel t k := by
  induction t with
  | nil => simp [tabPut, tabDel]
  | cons p t ih =>
    unfold tabPut
    unfold tabDel at ih ⊢
    split_ifs with h1 h2
    · simp [h1]
    · simp
    · rw [List.filter_cons, List.filter_cons, ih]

/-- What the end of an operation's accesses brings about, by its kind, where some of them met poison or none did. -/
def endOf (s : State) (id : Nat) (o : Op) (bad : Bool) : State :=
  match o.kind with
  | .ldfe _ => s.endClaims o
  | .rsend _ _ _ _ _ => if bad then s else s.sendGranules id o
  | .eretWait => if bad then s else s.sendResume id o
  | .armWait _ => s.rmSettle id
  | _ => s
/-- The operation leaves the table, or stays in it to be written back or to be returned to. -/
def leaveTable (s : State) (id : Nat) (o : Op) (bad : Bool) : State :=
  if o.cls == .st then { s with ops := tabDel s.ops id }
  else if bad && !o.once && (s.gang o.gang).holds.all fun h => h.op != some id then { s with ops := tabDel s.ops id }
  else if bad then { s with ops := tabMod s.ops id fun x => { x with fromTrap := true } }
  else s

/-- An operation with an access to make stays as it is. -/
theorem settleOp_undone {s : State} {id : Nat} {o : Op} (ho : tabFind s.ops id = some o) (h : ∃ x ∈ o.accs, x.done = false) :
    s.settleOp id = s := by
  rw [State.settleOp, ho]
  exact if_pos (by simpa using h)
/-- An operation whose accesses have all been made: the trap of poison, what its kind brings about, and its end. -/
theorem settleOp_done {s : State} {id : Nat} {o : Op} (ho : tabFind s.ops id = some o) (hd : ∀ x ∈ o.accs, x.done = true) :
    let bad := o.accs.any (·.poison)
    s.settleOp id = leaveTable (endOf (if bad && !o.fromTrap then s.poisonTrap id o else s) id o bad) id o bad := by
  rw [State.settleOp, ho]
  exact if_neg (by simpa using hd)

/-- An operation that does something of its own once its last access has been performed. -/
def settles : OpKind → Bool
  | .ldfe _ | .rsend _ _ _ _ _ | .eretWait | .armWait _ => true
  | _ => false
theorem endOf_plain {s : State} {id : Nat} {o : Op} {bad : Bool} (h : settles o.kind = false) : endOf s id o bad = s := by
  unfold endOf
  unfold settles at h
  split at h <;> simp_all
/-- An operation through with its accesses, none of them poisoned, leaves the st class and no other. -/
theorem settleOp_clean {s : State} {id : Nat} {o : Op} (ho : tabFind s.ops id = some o) (hd : ∀ x ∈ o.accs, x.done = true)
    (hp : ∀ x ∈ o.accs, x.poison = false) (hk : settles o.kind = false) :
    s.settleOp id = if o.cls = .st then { s with ops := tabDel s.ops id } else s := by
  have hbad : o.accs.any (·.poison) = false := by simpa using hp
  rw [settleOp_done ho hd]
  simp only [hbad, Bool.false_and, Bool.false_eq_true, if_false, endOf_plain hk, leaveTable, beq_iff_eq]

theorem addOp_eq {c : Ctx} {s : State} (hs : (s.gang c.gid).slicesOf c.run.cohort = c.gang.slicesOf c.run.cohort) (m : LaneSet)
    (kind : OpKind) (cls : Cls) (ord : Order) (scope : Scope) (dest : Option Dest) (accs : List Acc) :
    s.addOp c m kind cls ord scope dest accs =
      { s with ops := tabPut s.ops s.nextId (opIssued s c kind cls ord scope dest m accs), nextId := s.nextId + 1 } := by
  rw [State.addOp, hs]
  rfl
/-- An operation filed in a state that keeps the slices of the gang, with no access made yet. -/
theorem issueOp_eq {c : Ctx} {s : State} (hs : (s.gang c.gid).slicesOf c.run.cohort = c.gang.slicesOf c.run.cohort) {m : LaneSet}
    {kind : OpKind} {cls : Cls} {ord : Order} {scope : Scope} {dest : Option Dest} {accs : List Acc}
    (hd : ∀ a ∈ accs, a.done = false) (hk : settles kind = false) :
    s.issueOp c m kind cls ord scope dest accs =
      { s with ops := if cls = .st ∧ accs = [] then tabDel s.ops s.nextId
                 else tabPut s.ops s.nextId (opIssued s c kind cls ord scope dest m accs)
               nextId := s.nextId + 1 } := by
  rw [State.issueOp, addOp_eq hs]
  have ho : tabFind (tabPut s.ops s.nextId (opIssued s c kind cls ord scope dest m accs)) s.nextId =
      some (opIssued s c kind cls ord scope dest m accs) := tabFind_tabPut_self ..
  cases accs with
  | nil =>
    rw [settleOp_clean ho (by simp [opIssued]) (by simp [opIssued]) hk]
    by_cases hc : cls = .st
    · subst hc
      rw [if_pos (show Cls.st = Cls.st ∧ [] = ([] : List Acc) from ⟨rfl, rfl⟩)]
      refine (if_pos rfl).trans ?_
      exact congrArg (fun t => { s with ops := t, nextId := s.nextId + 1 }) (tabDel_tabPut ..)
    · simp [opIssued, hc]
  | cons a as =>
    rw [settleOp_undone ho ⟨a, List.mem_cons_self, hd a List.mem_cons_self⟩]
    simp
/-- An operation filed by a word, with no access made yet. -/
theorem issueOp_begin (c : Ctx) (i : Instr) (s : State) {m : LaneSet} {kind : OpKind} {cls : Cls} {ord : Order} {scope : Scope}
    {dest : Option Dest} {accs : List Acc} (hd : ∀ a ∈ accs, a.done = false) (hk : settles kind = false) :
    (c.begin i s).issueOp c m kind cls ord scope dest accs =
      { s with gangs := tabPut s.gangs c.gid (popped i c)
               ops := if cls = .st ∧ accs = [] then tabDel s.ops s.nextId
                 else tabPut s.ops s.nextId (opIssued s c kind cls ord scope dest m accs)
               nextId := s.nextId + 1 } := by
  rw [issueOp_eq (begin_slices c i s _) hd hk]
  rfl

/-- A word whose body files an operation with no access made yet. -/
theorem filesOp_of_body {i : Instr} {body : Ctx → LaneSet → State → Except Trap State} {s : State} {c : Ctx} {m : LaneSet}
    {kind : OpKind} {cls : Cls} {ord : Order} {scope : Scope} {dest : Option Dest} {accs : List Acc}
    (he : exec i s = word i body s) (h : Issues i s c)
    (hb : body c (performing i c) (c.begin i s) = .ok ((c.begin i s).issueOp c m kind cls ord scope dest accs))
    (hd : ∀ a ∈ accs, a.done = false) (hk : settles kind = false) :
    FilesOp i s c (opIssued s c kind cls ord scope dest m accs) := by
  refine ⟨_, he.trans (word_ok h.issuer h.clear hb), ?_, fun core win cell => ?_⟩
  · exact issueOp_begin c i s hd hk
  · rw [issueOp_begin c i s hd hk]
    rfl

/-! ## Flat words whose checks pass (R105, R244) -/

theorem found_here {c : Ctx} {s : State} {k : Checks} {n va : Nat} {leaf : Leaf} (ha : va % k.align = 0)
    (ht : s.coreTranslate c.gang.core va n k.need = .ok leaf) (hd : leaf.die = dieOf c.gang.core)
    (hv : k.tempo = true → s.tempoViol c.gang leaf va n = false) : c.found s k n va = .here leaf := by
  have hv' : (k.tempo && s.tempoViol c.gang leaf va n) = false := by
    cases ht : k.tempo <;> simp_all
  simp [Ctx.found, Ctx.core, Ctx.die, ha, ht, hd, hv']
/-- Where every performing lane's address is at hand, the word goes on for all of them. -/
theorem flat_here {c : Ctx} {s : State} {k : Checks} {n : Nat} {addr : Nat → Nat} {m : LaneSet} {leaf : Nat → Leaf}
    {go : Ctx → LaneSet → List (Nat × Nat × Leaf) → State → State} (hdup : k.dups = false)
    (h : ∀ l, hasLane m l = true → c.found s k n (addr l) = .here (leaf l)) :
    c.flat s k n addr m go = .ok (go c m ((lanesIn m).map fun l => (l, addr l, leaf l)) s) := by
  have hfs : ((lanesIn m).map fun l => (l, addr l, c.found s k n (addr l))) =
      (lanesIn m).map fun l => (l, addr l, Found.here (leaf l)) :=
    List.map_congr_left fun l hl => by rw [h l ((mem_lanesIn m l).mp hl)]
  have hfails : failsOf ((lanesIn m).map fun l => (l, addr l, Found.here (leaf l))) = [] := by
    simp [failsOf, List.filterMap_map]
  have haways : awaysOf ((lanesIn m).map fun l => (l, addr l, Found.here (leaf l))) = [] := by
    simp [awaysOf, List.filterMap_map]
  have hleaves : leavesOf ((lanesIn m).map fun l => (l, addr l, Found.here (leaf l))) =
      (lanesIn m).map fun l => (l, addr l, leaf l) := by
    simp [leavesOf, List.filterMap_map]
  simp only [Ctx.flat, hfs, hfails, haways, hleaves, hdup]
  cases k.strong <;> rfl

theorem fences_eq (c : Ctx) (ord : Order) (m : LaneSet) :
    c.fences ord m = if ord = .rlx then [] else (lanesIn (c.run.act &&& ~~~m)).map Acc.fence := by
  simp only [Ctx.fences, beq_iff_eq]
theorem accesses_undone {c : Ctx} {m : LaneSet} {ord : Order} {f : Nat → Acc} (h : ∀ l, (f l).done = false) :
    ∀ a ∈ accesses c m ord f, a.done = false := by
  intro a ha
  rcases List.mem_append.mp ha with ha | ha
  · obtain ⟨l, -, rfl⟩ := List.mem_map.mp ha
    exact h l
  · split_ifs at ha
    · simp at ha
    · obtain ⟨l, -, rfl⟩ := List.mem_map.mp ha
      rfl
/-- What a store takes from its registers. -/
theorem storeData_eq (c : Ctx) (l : Nat) (d : Reg) (sz : Size) : c.storeData l sz.bytes d = dataOf c l d sz.bytes := by
  have h0 := rd_lt c l d.toNat 0
  have h1 := rd_lt c l (d.toNat + 1) 0
  cases sz <;> simp [Ctx.storeData, dataOf, Size.bytes, Ctx.rdMany]; omega

/-- Settles O27: where the checks pass in every performing lane, the word files one access for each. -/
theorem flatLoadsAndStores : Obligations.FlatLoadsAndStores := by
  intro s c h sz sx acq scope d a off leaf addr n
  have hload (i : Instr) (strong : Bool) (ord : Order) (scope : Scope)
      (he : exec i s = loadWord i strong sz sx ord scope d a off s) (hi : Issues i s c)
      (hr : Reaches i s c n n (needOf s c true false) addr leaf) :
      FilesOp i s c (opIssued s c .load .ld ord scope (some (destOf c d n sx)) (performing i c)
        (accesses c (performing i c) ord fun l => flatAcc l (addr l) n 0 (leaf l))) := by
    refine filesOp_of_body he hi ?_ (accesses_undone fun _ => rfl) rfl
    rw [flat_here rfl (leaf := leaf)]
    · rw [List.map_map, fences_eq]
      rfl
    · intro l hl
      obtain ⟨ha, ht, hd⟩ := hr l hl
      exact found_here ha ht hd (fun h => by simp [Ctx.checks] at h)
  have hstore (i : Instr) (strong : Bool) (ord : Order) (scope : Scope)
      (he : exec i s = storeWord i strong sz ord scope d a off s) (hi : Issues i s c)
      (hr : Reaches i s c n n (needOf s c false true) addr leaf) (htempo : TempoFree i s c n addr leaf) :
      FilesOp i s c (opIssued s c (.store strong) .st ord scope none (performing i c)
        (accesses c (performing i c) ord fun l => flatAcc l (addr l) n (dataOf c l d n) (leaf l))) := by
    refine filesOp_of_body he hi ?_ (accesses_undone fun _ => rfl) rfl
    rw [flat_here rfl (leaf := leaf)]
    · rw [List.map_map, fences_eq]
      simp only [storeData_eq]
      rfl
    · intro l hl
      obtain ⟨ha, ht, hd⟩ := hr l hl
      exact found_here ha ht hd (fun _ => (begin_tempoViol i hi.issuer ..).trans (htempo l hl))
  exact ⟨hload _ false _ _ (exec_ld ..), hload _ true _ _ (exec_ldOrdered ..), hstore _ false _ _ (exec_st ..),
    hstore _ true _ _ (exec_stOrdered ..)⟩

/-! ## Flat words whose checks fail (R105, R244) -/

theorem mem_insBy {α : Type} (le : α → α → Bool) (x y : α) (l : List α) : y ∈ insBy le x l ↔ y = x ∨ y ∈ l := by
  induction l with
  | nil => simp [insBy]
  | cons z l ih =>
    unfold insBy
    split
    · simp
    · simp only [List.mem_cons, ih]
      tauto
theorem mem_sortBy {α : Type} (le : α → α → Bool) (y : α) (l : List α) : y ∈ sortBy le l ↔ y ∈ l := by
  induction l with
  | nil => rfl
  | cons z l ih => rw [sortBy, mem_insBy, List.mem_cons, ih]
/-- What comes before everything else in a list comes first once the list is sorted. -/
theorem head?_sortBy {α : Type} (le : α → α → Bool) {x : α} {l : List α} (hx : x ∈ l)
    (h : ∀ y ∈ l, y ≠ x → le x y = true ∧ le y x = false) : (sortBy le l).head? = some x := by
  induction l with
  | nil => simp at hx
  | cons z l ih =>
    rw [sortBy]
    by_cases hz : z = x
    · subst hz
      rcases hL : sortBy le l with - | ⟨y, L⟩
      · rfl
      · by_cases hy : y = z
        · subst hy
          unfold insBy
          split <;> rfl
        · have hyl : y ∈ l := (mem_sortBy le y l).mp (by simp [hL])
          rw [insBy, if_pos (h y (List.mem_cons_of_mem _ hyl) hy).1]
          rfl
    · have hxl : x ∈ l := (List.mem_cons.mp hx).resolve_left (Ne.symm hz)
      have hh := ih hxl fun y hy => h y (List.mem_cons_of_mem _ hy)
      rcases hL : sortBy le l with - | ⟨y, L⟩
      · simp [hL] at hh
      · rw [hL, List.head?_cons, Option.some.injEq] at hh
        rw [insBy, hh, (h z List.mem_cons_self hz).2]
        rfl
/-- The first element of a rising list at which a function has a value. -/
theorem head?_filterMap_rising {β : Type} {g : Nat → Option β} {b : β} {n : Nat} {L : List Nat} (hL : L.Pairwise (· < ·))
    (hn : n ∈ L) (hb : g n = some b) (h : ∀ m ∈ L, m < n → g m = none) : (L.filterMap g).head? = some b := by
  induction L with
  | nil => simp at hn
  | cons z L ih =>
    rw [List.pairwise_cons] at hL
    by_cases hz : z = n
    · subst hz
      rw [List.filterMap_cons_some hb]
      rfl
    · have hnL : n ∈ L := (List.mem_cons.mp hn).resolve_left (Ne.symm hz)
      rw [List.filterMap_cons_none (h z List.mem_cons_self (hL.1 n hnL))]
      exact ih hL.2 hnL fun m hm => h m (List.mem_cons_of_mem _ hm)
theorem lanesIn_rising (m : LaneSet) : (lanesIn m).Pairwise (· < ·) := List.pairwise_lt_range.filter _

section
variable {c : Ctx} {s : State} {k : Checks} {n va : Nat}

section
variable (hs : ∀ leaf, s.coreTranslate c.gang.core va n k.need = .ok leaf →
      leaf.die = dieOf c.gang.core ∨ ¬(leaf.policy = 1 ∨ (leaf.policy = 2 ∧ (s.task c.gang.task).tcb.mig = true)))
include hs
/-- A lane that stays on its die. -/
theorem found_ne_away (d : Nat) : c.found s k n va ≠ .away d := by
  unfold Ctx.found
  split
  · simp
  · cases ht : s.coreTranslate c.core va n k.need with
    | error f => simp
    | ok leaf =>
      have hm : leaf.die ≠ c.die → leaf.migrates (c.task s) = false := fun hd => by
        have := (hs leaf ht).resolve_left hd
        simpa [Leaf.migrates, Ctx.task] using this
      dsimp only
      split_ifs <;> simp_all
/-- The checks of a word that does not write find what fails among checks 1 to 5. -/
theorem found_fails_iff (ha : k.align = n) (ht : k.tempo = false) (o : Nat) (f : Fail) :
    c.found s k n va = .fails o f ↔ ∃ q, checkOf s c n k.need va = some (q, f) ∧ o = if f = failWait then 0 else q := by
  unfold Ctx.found checkOf
  rw [ha]
  by_cases hal : va % n = 0
  · cases htr : s.coreTranslate c.core va n k.need with
    | error f' =>
      have htr' : s.coreTranslate c.gang.core va n k.need = .error f' := htr
      simp only [hal, htr', Fail.order, tcPageFault, bne_self_eq_false, Bool.false_eq_true, if_false, ne_eq, not_true_eq_false,
        Found.fails.injEq, Option.some.injEq, Prod.mk.injEq]
      constructor
      · rintro ⟨rfl, rfl⟩
        exact ⟨_, ⟨rfl, rfl⟩, rfl⟩
      · rintro ⟨q, ⟨rfl, rfl⟩, rfl⟩
        exact ⟨rfl, rfl⟩
    | ok leaf =>
      have htr' : s.coreTranslate c.gang.core va n k.need = .ok leaf := htr
      by_cases hd : leaf.die = dieOf c.gang.core
      · simp [hal, htr', hd, ht, Ctx.die]
      · have hm : leaf.migrates (c.task s) = false := by
          have := (hs leaf htr).resolve_left hd
          simpa [Leaf.migrates, Ctx.task] using this
        have hw : trapRemote ≠ failWait := by decide
        simp only [hal, htr', hd, hm, Ctx.die, bne_self_eq_false, Bool.false_eq_true, if_false, ne_eq, not_true_eq_false,
          not_false_eq_true, if_true, bne_iff_ne, Bool.and_false, Found.fails.injEq, Option.some.injEq, Prod.mk.injEq]
        constructor
        · rintro ⟨rfl, rfl⟩
          exact ⟨5, ⟨rfl, rfl⟩, (if_neg hw).symm⟩
        · rintro ⟨q, ⟨rfl, rfl⟩, rfl⟩
          exact ⟨(if_neg hw).symm, rfl⟩
  · have hw : trapMisalign ≠ failWait := by decide
    simp only [hal, ne_eq, not_false_eq_true, if_true, bne_iff_ne, Found.fails.injEq, Option.some.injEq, Prod.mk.injEq]
    constructor
    · rintro ⟨rfl, rfl⟩
      exact ⟨1, ⟨rfl, rfl⟩, (if_neg hw).symm⟩
    · rintro ⟨q, ⟨rfl, rfl⟩, rfl⟩
      exact ⟨(if_neg hw).symm, rfl⟩
end
/-- What fails at an aligned address comes after the check for one address named twice, unless the walk waits. -/
theorem found_fails_late (ha : va % k.align = 0) (hw : s.coreTranslate c.gang.core va n k.need ≠ .error failWait) {o : Nat} {f : Fail}
    (h : c.found s k n va = .fails o f) : 2 < o := by
  unfold Ctx.found at h
  simp only [ha, bne_self_eq_false, Bool.false_eq_true, if_false] at h
  cases ht : s.coreTranslate c.core va n k.need with
  | error f' =>
    have hf : f' ≠ failWait := fun e => hw (e ▸ ht)
    simp only [ht, Fail.order, if_neg hf, Found.fails.injEq] at h
    split_ifs at h <;> omega
  | ok leaf =>
    simp only [ht] at h
    split_ifs at h <;> simp only [Found.fails.injEq] at h <;> omega
end

/-- What the checks find in each performing lane. -/
def foundIn (c : Ctx) (s : State) (k : Checks) (n : Nat) (addr : Nat → Nat) (m : LaneSet) : List LaneFound :=
  (lanesIn m).map fun l => (l, addr l, c.found s k n (addr l))
theorem mem_foundIn {c : Ctx} {s : State} {k : Checks} {n : Nat} {addr : Nat → Nat} {m : LaneSet} {p : LaneFound} :
    p ∈ foundIn c s k n addr m ↔ ∃ l, hasLane m l = true ∧ p = (l, addr l, c.found s k n (addr l)) := by
  simp only [foundIn, List.mem_map, mem_lanesIn, eq_comm]
theorem mem_failsOf {fs : List LaneFound} {l va o : Nat} {f : Fail} :
    (l, va, o, f) ∈ failsOf fs ↔ (l, va, Found.fails o f) ∈ fs := by
  rw [failsOf, List.mem_filterMap]
  constructor
  · rintro ⟨⟨l', va', x⟩, hp, h⟩
    cases x <;> simp_all
  · exact fun h => ⟨_, h, rfl⟩
theorem mem_failsOf_foundIn {c : Ctx} {s : State} {k : Checks} {n : Nat} {addr : Nat → Nat} {m : LaneSet} {l va o : Nat} {f : Fail} :
    (l, va, o, f) ∈ failsOf (foundIn c s k n addr m) ↔
      hasLane m l = true ∧ va = addr l ∧ c.found s k n (addr l) = .fails o f := by
  rw [mem_failsOf, mem_foundIn]
  constructor
  · rintro ⟨l', hl, h⟩
    simp only [Prod.mk.injEq] at h
    obtain ⟨rfl, rfl, h⟩ := h
    exact ⟨hl, rfl, h.symm⟩
  · rintro ⟨hl, rfl, h⟩
    exact ⟨l, hl, by rw [h]⟩
theorem mem_dupFails_foundIn {c : Ctx} {s : State} {k : Checks} {n : Nat} {addr : Nat → Nat} {m : LaneSet}
    {x : Nat × Nat × Nat × Fail} : x ∈ dupFails (foundIn c s k n addr m) ↔
      ∃ l, hasLane m l = true ∧ x = (l, addr l, 2, trapAddrDup) ∧ ∃ l', hasLane m l' = true ∧ l' ≠ l ∧ addr l' = addr l := by
  simp only [dupFails, List.mem_map, List.mem_filter, List.any_eq_true, mem_foundIn]
  constructor
  · rintro ⟨p, ⟨⟨l, hl, rfl⟩, ⟨q, ⟨l', hl', rfl⟩, h⟩⟩, rfl⟩
    simp only [Bool.and_eq_true, bne_iff_ne, beq_iff_eq] at h
    exact ⟨l, hl, rfl, l', hl', h⟩
  · rintro ⟨l, hl, rfl, l', hl', h⟩
    exact ⟨_, ⟨⟨l, hl, rfl⟩, _, ⟨l', hl', rfl⟩, by simpa using h⟩, rfl⟩

/-- Where no lane leaves and some check fails, the word fails with the trap that the failures name. -/
theorem flat_error {c : Ctx} {s : State} {k : Checks} {n : Nat} {addr : Nat → Nat} {m : LaneSet} {t : Trap}
    {go : Ctx → LaneSet → List (Nat × Nat × Leaf) → State → State}
    (hs : ∀ l, hasLane m l = true → ∀ d, c.found s k n (addr l) ≠ .away d)
    (ht : pickFail k.strong (failsOf (foundIn c s k n addr m) ++ if k.dups then dupFails (foundIn c s k n addr m) else []) = some t) :
    c.flat s k n addr m go = .error t := by
  have haways : awaysOf (foundIn c s k n addr m) = [] := by
    rw [awaysOf, List.filterMap_eq_nil_iff]
    intro p hp
    obtain ⟨l, hl, rfl⟩ := mem_foundIn.mp hp
    have := hs l hl
    dsimp only
    split <;> simp_all
  unfold foundIn at haways ht
  simp only [Ctx.flat, haways, ht, List.isEmpty_nil, Bool.true_or, if_true]
/-- A plain access names its lowest lane that fails. -/
theorem pickFail_plain {c : Ctx} {s : State} {k : Checks} {n : Nat} {addr : Nat → Nat} {m : LaneSet} {l o : Nat} {f : Fail}
    (hl : hasLane m l = true) (hf : c.found s k n (addr l) = .fails o f)
    (hlow : ∀ l' < l, hasLane m l' = true → ∀ o' f', c.found s k n (addr l') ≠ .fails o' f') :
    pickFail false (failsOf (foundIn c s k n addr m)) = some (Trap.of f (some l) (addr l)) := by
  have hhead : (failsOf (foundIn c s k n addr m)).head? = some (l, addr l, o, f) := by
    rw [failsOf, foundIn, List.filterMap_map]
    refine head?_filterMap_rising (lanesIn_rising m) ((mem_lanesIn m l).mpr hl) (by simp [hf]) fun l' hl' hlt => ?_
    have := hlow l' hlt ((mem_lanesIn m l').mp hl')
    simp_all
  simp [pickFail, hhead]
/-- An ordered access names the first check that fails in any lane, and its lowest lane that fails it. -/
theorem pickFail_ordered {fs : List (Nat × Nat × Nat × Fail)} {l va o : Nat} {f : Fail} (hx : (l, va, o, f) ∈ fs)
    (h : ∀ y ∈ fs, y ≠ (l, va, o, f) → o < y.2.2.1 ∨ (o = y.2.2.1 ∧ l < y.1)) :
    pickFail true fs = some (Trap.of f (some l) va) := by
  rw [pickFail, if_pos rfl, head?_sortBy _ hx]
  · rfl
  · intro y hy hne
    have := h y hy hne
    simp only [Bool.or_eq_true, Bool.and_eq_true, decide_eq_true_eq, beq_iff_eq, Bool.or_eq_false_iff, decide_eq_false_iff_not,
      Bool.and_eq_false_iff, beq_eq_false_iff_ne]
    omega

/-- A load whose checks fail, with no lane that leaves. -/
theorem takesTrap_of_load {i : Instr} {strong : Bool} {sz : Size} {sx : Bool} {ord : Order} {scope : Scope} {d a : Reg} {off : BitVec 22}
    {s : State} {c : Ctx} {l : Nat} {f : Fail} (he : exec i s = loadWord i strong sz sx ord scope d a off s) (hi : Issues i s c)
    (hs : Stays i s c sz.bytes (needOf s c true false) fun l => c.addr l a off) (hf : f ≠ failWait)
    (ht : pickFail strong (failsOf (foundIn c (c.begin i s) (c.checks (c.begin i s) true false sz.bytes strong) sz.bytes
      (fun l => c.addr l a off) (performing i c))) = some (Trap.of f (some l) (c.addr l a off))) :
    TakesTrap i s c f (some l) (c.addr l a off) false :=
  takesTrap_of_body he hi (flat_error (fun m hm => found_ne_away fun leaf => hs m leaf hm)
    ((congrArg _ (List.append_nil _)).trans ht)) hf
/-- What the checks of a load find, in a lane that stays. -/
theorem load_fails_iff {i : Instr} {sz : Size} {s : State} {c : Ctx} {addr : Nat → Nat} {l : Nat}
    (hs : Stays i s c sz.bytes (needOf s c true false) addr) (hl : hasLane (performing i c) l = true) (strong : Bool) (o : Nat) (f : Fail) :
    c.found (c.begin i s) (c.checks (c.begin i s) true false sz.bytes strong) sz.bytes (addr l) = .fails o f ↔
      ∃ q, checkOf s c sz.bytes (needOf s c true false) (addr l) = some (q, f) ∧ o = if f = failWait then 0 else q :=
  found_fails_iff (s := c.begin i s) (k := c.checks (c.begin i s) true false sz.bytes strong) (fun leaf => hs l leaf hl) rfl rfl o f

/-- Settles O28: the failures are sought in the order of the lanes, or sorted by the order of the checks first. -/
theorem accessChecks : Obligations.AccessChecks := by
  intro s c h sz sx acq noret scope op ty ord d a off l k f addr check ld ordered atom r rw hl
  refine ⟨fun hi hs hp hc hf hlow => ?_, fun hi hs hp hc hfirst => ?_, fun hi hs hok hp hdup hlow => ?_⟩
  · refine takesTrap_of_load (exec_ld ..) hi hs hf ?_
    refine pickFail_plain hp ((load_fails_iff hs hp ..).mpr ⟨k, hc, rfl⟩) fun m hlt hm o' f' e => ?_
    obtain ⟨q, hq, -⟩ := (load_fails_iff hs hm ..).mp e
    exact Option.some_ne_none _ (hq.symm.trans (hlow m hlt hm))
  · have hf : f ≠ failWait := (hfirst l k f hp hc).1
    refine takesTrap_of_load (exec_ldOrdered ..) hi hs hf ?_
    refine pickFail_ordered (o := k) (mem_failsOf_foundIn.mpr ⟨hp, rfl, (load_fails_iff hs hp ..).mpr ⟨k, hc, (if_neg hf).symm⟩⟩) ?_
    rintro ⟨m, va, o, f'⟩ hy hne
    obtain ⟨hm, rfl, hfound⟩ := mem_failsOf_foundIn.mp hy
    obtain ⟨q, hq, rfl⟩ := (load_fails_iff hs hm ..).mp hfound
    obtain ⟨hf', hle⟩ := hfirst m q f' hm hq
    rw [if_neg hf'] at hne ⊢
    refine hle.imp_right fun ⟨hkq, hlm⟩ => ⟨hkq, lt_of_le_of_ne hlm ?_⟩
    rintro rfl
    obtain ⟨rfl, rfl⟩ : k = q ∧ f = f' := by simpa using hc.symm.trans hq
    exact hne rfl
  · have he : exec atom s = atomWord atom op ty ord scope noret d a off s := exec_atom ..
    refine takesTrap_of_body he hi ?_ (by decide)
    have hseqs : ((c.begin atom s).gang c.gid).seqs = c.gang.seqs := by
      rw [Ctx.begin_gang, popped, Gang.pops_eq]
    have hnone : (lanesIn (performing atom c)).find?
        (fun l => decide (2 ^ 32 ≤ tabGet ((c.begin atom s).gang c.gid).seqs 0 l)) = none := by
      rw [List.find?_eq_none]
      intro m hm
      have hm := (mem_lanesIn _ m).mp hm
      have := (hok m (hasLane_lt hm) hm).1
      rw [hseqs, decide_eq_true_eq]
      omega
    simp only [hnone, ite_self]
    refine flat_error (fun m hm => found_ne_away fun leaf => hs m leaf hm) ?_
    rw [if_pos rfl]
    obtain ⟨l', -, hne, hl', hsame⟩ := hdup
    refine pickFail_ordered (o := 2) (List.mem_append_right _ (mem_dupFails_foundIn.mpr ⟨l, hp, rfl, l', hl', hne, hsame⟩)) ?_
    rintro ⟨m, va, o, f'⟩ hy hyne
    rcases List.mem_append.mp hy with hy | hy
    · obtain ⟨hm, rfl, hfound⟩ := mem_failsOf_foundIn.mp hy
      obtain ⟨-, hal, hw⟩ := hok m (hasLane_lt hm) hm
      refine Or.inl (found_fails_late ?_ ?_ hfound)
      · exact hal
      · exact hw
    · obtain ⟨m', hm, he, m2, hm2, hne2, hsame2⟩ := mem_dupFails_foundIn.mp hy
      obtain ⟨rfl, rfl, rfl, rfl⟩ : m = m' ∧ va = addr m' ∧ o = 2 ∧ f' = trapAddrDup := by simpa only [Prod.mk.injEq] using he
      refine Or.inr ⟨rfl, ?_⟩
      by_contra hlt
      rcases Nat.lt_or_eq_of_le (Nat.le_of_not_lt hlt) with hlt | rfl
      · exact hlow m hlt m2 (hasLane_lt hm2) hm hm2 hne2 hsame2
      · exact hyne rfl

/-! ## FENCE, the cache maintenance words and BSREAD (R102, R255 to R258) -/

/-- No failure is found where none is to be found. -/
theorem pickFail_nil (strong : Bool) : pickFail strong [] = none := by cases strong <;> rfl
theorem filterMap_eq_map_filter {α β : Type} {f : α → Option β} {p : α → Bool} {g : α → β} {l : List α}
    (h : ∀ x ∈ l, f x = if p x then some (g x) else none) : l.filterMap f = (l.filter p).map g := by
  rw [List.filterMap_congr h, ← List.filterMap_eq_map, List.filterMap_filter]
  rfl

/-- CFLUSH and CINV where every performing lane's address translates. -/
theorem filesOp_of_flush {i : Instr} {die inval : Bool} {a : Reg} {off : BitVec 22} {s : State} {c : Ctx} {leaf : Nat → Leaf}
    (he : exec i s = flushWord i die inval a off s) (hi : Issues i s c)
    (hr : ∀ l, hasLane (performing i c) l = true →
      s.coreTranslate c.gang.core (c.addr l a off) 1 (needOf s c true false) = .ok (leaf l)) :
    FilesOp i s c (opIssued s c (.flush die inval) .st .rlx .k none (performing i c)
      (((lanesIn (performing i c)).filter fun l => (leaf l).die == dieOf c.gang.core && (leaf l).cache != 2).map fun l =>
        { flatAcc l (c.addr l a off) 512 0 (leaf l) with addr := (leaf l).cell / 512 * 512 })) := by
  refine filesOp_of_body he hi ?_ ?_ rfl
  · have hmap : ((lanesIn (performing i c)).map fun l =>
        (l, c.addr l a off, (c.begin i s).coreTranslate c.core (c.addr l a off) 1 (c.need (c.begin i s) true false))) =
        (lanesIn (performing i c)).map fun l => (l, c.addr l a off, Except.ok (leaf l)) :=
      List.map_congr_left fun l hl => by
        exact congrArg (fun e => (l, c.addr l a off, e)) (hr l ((mem_lanesIn _ l).mp hl))
    simp only [hmap, List.filterMap_map, Function.comp_def]
    rw [List.filterMap_eq_nil_iff.mpr fun _ _ => rfl, pickFail_nil]
    refine congrArg (fun accs => Except.ok (State.issueOp _ c _ _ _ _ _ _ accs)) (filterMap_eq_map_filter fun l _ => ?_)
    cases hd : (leaf l).die == dieOf c.gang.core <;> cases hc : (leaf l).cache == 2 <;>
      simp_all [bne, Leaf.uc, Ctx.die, Ctx.core, Acc.flat, flatAcc]
  · intro x hx
    obtain ⟨l, -, rfl⟩ := List.mem_map.mp hx
    rfl

/-- Each listed lane's cursor goes on, and no other's. -/
theorem tabGet_advance (cur : Nat → Nat) (k : Nat) (ls : List Nat) (t : Tab (BitVec 55)) (l : Nat) :
    tabGet (ls.foldl (fun t l => tabPut t l (BitVec.ofNat 55 (cur l + k))) t) 0 l =
      if l ∈ ls then BitVec.ofNat 55 (cur l + k) else tabGet t 0 l := by
  induction ls generalizing t with
  | nil => rfl
  | cons m ls ih =>
    rw [List.foldl_cons, ih, tabGet_tabPut]
    by_cases hl : l ∈ ls
    · simp [hl]
    · by_cases hm : m = l
      · simp [hm]
      · simp [hl, hm, Ne.symm hm]

section
variable {c : Ctx} {s : State} {m : LaneSet} {leaf : Nat → Nat → Leaf} {need : Nat → List Nat}

/-- No byte that BSREAD needs fails. -/
theorem bsFail_none {l va : Nat} {p : Leaf} (ht : s.coreTranslate c.gang.core va 1 (needOf s c true false) = .ok p)
    (hd : p.die = dieOf c.gang.core) : c.bsFail s l va = none := by
  have ht' : s.coreTranslate c.core va 1 (c.need s true false) = .ok p := ht
  unfold Ctx.bsFail
  rw [ht']
  exact if_neg (by simp [hd, Ctx.die])
/-- The bytes that BSREAD needs, lane by lane, each with the access it makes. -/
theorem bsAccs_eq (data : Nat → Nat) (h : ∀ l ∈ lanesIn m, ∀ va ∈ need l,
      s.coreTranslate c.gang.core va 1 (needOf s c true false) = .ok (leaf l va)) :
    (((lanesIn m).flatMap fun l => (need l).map fun va => (l, va)).filterMap fun p =>
      match s.coreTranslate c.core p.2 1 (c.need s true false) with
      | .ok leaf => some (Acc.flat p.1 p.2 1 (data p.1) leaf)
      | .error _ => none) = (lanesIn m).flatMap fun l => (need l).map fun va => flatAcc l va 1 (data l) (leaf l va) := by
  rw [List.filterMap_flatMap]
  refine List.flatMap_congr fun l hl => ?_
  rw [List.filterMap_map, ← List.filterMap_eq_map]
  refine List.filterMap_congr fun va hva => ?_
  have ht : s.coreTranslate c.core va 1 (c.need s true false) = .ok (leaf l va) := h l hl va hva
  simp only [Function.comp_apply, ht]
  rfl
end

/-- A change to the gang of a word that names no queue. -/
theorem begin_modGang {i : Instr} {c : Ctx} (s : State) (hpop : popped i c = c.gang) (f : Gang → Gang) :
    (c.begin i s).modGang c.gid f = { s with gangs := tabPut s.gangs c.gid (f c.gang) } := by
  rw [State.modGang, Ctx.begin_gang, State.setGang, Ctx.begin_eq, hpop]
  simp only [tabPut_tabPut]

/-- Settles O31: each word files the accesses that the statement lists; BSREAD moves its cursors first. -/
theorem fencesFlushesBitReads : Obligations.FencesFlushesBitReads := by
  intro s c h ord scope als die sx d a off k leaf fence read flushes
  refine ⟨fun hi => ?_, fun hi hr => filesOp_of_flush (exec_cflush ..) hi hr, fun hi hr => filesOp_of_flush (exec_cinv ..) hi hr, ?_⟩
  · refine filesOp_of_body (exec_fence ..) hi ?_ (by simp [Acc.fence]) rfl
    cases ord <;> rfl
  · intro hi cur bytes hr
    have he : exec read s = execBsread h sx d k s := exec_bsread ..
    have hpop : popped read c = c.gang := Gang.pops_none _ _ _ (by simp [read, usesOf, wordUses, usesLong])
    have hcur (l : Nat) : (tabGet ((c.begin read s).gang c.gid).lanes.cursor 0 l).toNat = cur l := by
      rw [Ctx.begin_gang, hpop]
    have hlanes (l : Nat) (hl : l ∈ lanesIn (performing read c)) (va : Nat) (hva : va ∈ bytes l) :=
      hr l ((mem_lanesIn _ l).mp hl) va hva
    let cs := (lanesIn (performing read c)).foldl (fun t l => tabPut t l (BitVec.ofNat 55 (cur l + k.toNat))) c.gang.lanes.cursor
    have hdone : ∀ x ∈ (lanesIn (performing read c)).flatMap fun l => (bytes l).map fun va => flatAcc l va 1 (cur l % 8) (leaf l va),
        x.done = false := by
      intro x hx
      obtain ⟨l, -, hx⟩ := List.mem_flatMap.mp hx
      obtain ⟨va, -, rfl⟩ := List.mem_map.mp hx
      rfl
    have hissue := issueOp_eq (c := c)
      (s := { s with gangs := tabPut s.gangs c.gid { c.gang with lanes := { c.gang.lanes with cursor := cs } } })
      (m := performing read c) (kind := .bsread k.toNat sx) (cls := .ld) (ord := .rlx) (scope := .k) (dest := some (destOf c d 4 false))
      (accs := (lanesIn (performing read c)).flatMap fun l => (bytes l).map fun va => flatAcc l va 1 (cur l % 8) (leaf l va))
      (by rw [State.gang, tabGet_tabPut_self]; rfl) hdone rfl
    rw [if_neg (fun e => Cls.noConfusion e.1)] at hissue
    refine ⟨_, cs, he.trans ((word_ok hi.issuer hi.clear ?_).trans (congrArg _ hissue)), fun l => ?_, rfl, fun core win cell => rfl⟩
    · have hbytes (l : Nat) : bitBytes (cur l) k.toNat = bytes l := rfl
      have hperf : c.perf (guardOf read) = performing read c := rfl
      simp only [hcur, hbytes, hperf]
      have hfails : (((lanesIn (performing read c)).flatMap fun l => (bytes l).map fun va => (l, va)).filterMap fun p =>
          c.bsFail (c.begin read s) p.1 p.2) = [] := by
        rw [List.filterMap_eq_nil_iff]
        intro p hp
        obtain ⟨l, hl, hp⟩ := List.mem_flatMap.mp hp
        obtain ⟨va, hva, rfl⟩ := List.mem_map.mp hp
        exact bsFail_none (hlanes l hl va hva).1 (hlanes l hl va hva).2
      rw [hfails, pickFail_nil, begin_modGang s hpop]
      exact congrArg (fun accs => Except.ok (State.issueOp _ c _ _ _ _ _ _ accs))
        (bsAccs_eq (c := c) (s := c.begin read s) (fun l => cur l % 8) fun l hl va hva => (hlanes l hl va hva).1)
    · rw [tabGet_advance]
      by_cases hl : hasLane (performing read c) l = true
      · rw [if_pos ((mem_lanesIn _ l).mpr hl), if_pos ⟨hasLane_lt hl, hl⟩]
        apply BitVec.eq_of_toNat_eq
        simp [cur, BitVec.toNat_ofNat, BitVec.toNat_add]
      · rw [if_neg fun h => hl ((mem_lanesIn _ l).mp h), if_neg fun h => hl h.2]

/-! ## Accesses performed (R252): FMAX in a type that R252 does not allow it -/

/-- The float minimum and maximum answer one of their operands, or the NaN (R122). -/
theorem minMaxRule_mem {f : Fmt} {isMax : Bool} {x y v : Nat} {fl : FlagSet} (h : MinMaxRule f isMax x y (v, fl)) :
    v = f.nanBits ∨ v = x ∨ v = y := by
  obtain ⟨-, h⟩ := h
  split_ifs at h <;> tauto

/-- Two values of .bf16x2 of which FMAX returns neither: it takes the low half of one for the whole. -/
theorem not_minMaxRule_packed (fl : FlagSet) : ¬ MinMaxRule fbf16 true 0 0x10001 (atomNew .fmax .bf16x2 0 0x10001, fl) := by
  have hne : ¬(atomNew .fmax .bf16x2 0 0x10001 = fbf16.nanBits ∨ atomNew .fmax .bf16x2 0 0x10001 = 0 ∨
      atomNew .fmax .bf16x2 0 0x10001 = 0x10001) := by decide
  exact fun h => hne (minMaxRule_mem h)

/-- An atomic of lane 0 at cell 0, its operand 1 more than 2^16. -/
def wideAcc : Acc :=
  { lane := 0, space := .flat true, addr := 0, va := 0, size := 4, data := 0x10001, got := 0, done := false, early := false,
    poison := false, cache := 0 }
/-- FMAX of .bf16x2, which R252 does not allow and no word files. -/
def packedMax : Op :=
  { kind := .atom .fmax .bf16x2 true, cls := .ld, gang := 0, block := 0, core := 0, slices := 1, active := 1, pc := 0, cohort := 0,
    run := 0, word := 0, batch := [], ord := .rlx, scope := .d, dest := none, held := [], accs := [wideAcc], began := false,
    abandoned := false, fromTrap := false }
/-- The machine out of reset but for that operation. -/
def maxOutstanding : State := { State.reset with ops := [(0, packedMax)] }

theorem maxOutstanding_atAccess : AtAccess maxOutstanding 0 packedMax 0 wideAcc where
  filed := rfl
  access := rfl
  undone := rfl
  first := fun j hj => absurd hj (Nat.not_lt_zero j)
  live := rfl
  ordered := by decide
  unheld := by decide
  flat := by decide

/-- Refutes O44: its clause on FMAX speaks of every type. Of .bf16x2, which R252 allows for FADD alone, the outstanding operation
FMAX makes 1 of the word 0 and the operand 0x10001, which is neither of the two. -/
theorem not_accessesPerformed : ¬ Obligations.AccessesPerformed := by
  intro h
  obtain ⟨hclean, -⟩ := h maxOutstanding 0 packedMax 0 wideAcc true maxOutstanding_atAccess
  obtain ⟨-, -, -, hatom, -⟩ := hclean (by decide)
  obtain ⟨-, -, -, -, -, -, -, -, -, -, -, -, -, -, -, hmax⟩ :=
    hatom .fmax .bf16x2 true ⟨rfl, by decide⟩ (by decide) (by decide) rfl
  obtain ⟨m, hm, fl, hrule⟩ : ∃ m, m = 0 ∧ ∃ fl, MinMaxRule fbf16 true m 0x10001 (atomNew .fmax .bf16x2 m 0x10001, fl) :=
    ⟨_, by decide, hmax rfl (by decide) (by decide)⟩
  subst hm
  exact not_minMaxRule_packed fl hrule

end Sys2Proof.IntegerControl
